-- ==== Sys2Proof/Word.lean ====
section
/-! DEFINITION. The word types of the Parmixon and their plainest arithmetic (R4, R54, R99). -/

namespace Sys2Proof

/-- A 64-bit datum, register or address (R10, R17). -/
abbrev Word := BitVec 64

/-- One byte of memory. -/
abbrev Byte := BitVec 8

/-- Bits [hi:lo] of a word as a number (R4). -/
def Word.field (w : Word) (hi lo : Nat) : Nat :=
  (w.toNat / 2 ^ lo) % 2 ^ (hi + 1 - lo)

/-- One bit of a word. -/
def Word.bit (w : Word) (i : Nat) : Bool := w.getLsbD i

/-- A boolean as a 64-bit value. -/
def Word.ofBool (b : Bool) : Word := if b then 1 else 0

/-- `n` modulo `2^w` read as a two's complement integer. -/
def sextNat (w n : Nat) : Int :=
  let m := n % 2 ^ w
  if 2 * m < 2 ^ w then (m : Int) else (m : Int) - (2 ^ w : Nat)

/-- An integer reduced to a word, modulo `2^64`. -/
def Word.ofI (i : Int) : Word := BitVec.ofInt 64 i

end Sys2Proof
end

