-- ==== Sys2Proof/Config.lean ====
section
/-! DEFINITION. The figures of the LMV-P9A (R1, R2) and the values the manual leaves free. -/

namespace Sys2Proof.Config

/-- Dies in a package (R1, R2). -/
def dies : Nat := 4
/-- Cores of a die (R2). -/
def coresPerDie : Nat := 32
/-- Cores of the package (R2). -/
def cores : Nat := 128
/-- Lease length (R284). -/
def lease : Nat := 4096
/-- Messages an engine inbox holds (R339). -/
def inboxSize : Nat := 64
/-- Operations a transfer unit holds in flight (R348). -/
def transferSize : Nat := 512
/-- Entries of a core's TLB (R260). -/
def tlbSize : Nat := 4096
/-- Entries of a die's translation cache (R260). -/
def tcacheSize : Nat := 65536
/-- Walks that a die runs at once (R260). -/
def walkSize : Nat := 64
/-- Blocks a core's configuration cache holds (R15). -/
def cfgCacheSize : Nat := 16
/-- Watches a core holds (R290). -/
def watchSize : Nat := 64
/-- Queues of the package (R214). -/
def queues : Nat := 8192
/-- Unanswered or remembered requests of a channel (R464). -/
def channelWindow : Nat := 1024

/-- DESIGN CHOICE (log 2): what a byte of memory reads as that nothing has written. -/
def unwritten : Byte := 0

/-- The readings of the sensors (R472 gives them no values): a free value, one for each reading (log 12). -/
opaque sensorByte : Nat → Nat → Byte

/-- The identity key's ECDSA signature of a digest, r then s (R473): free, one for each reading (log 12). -/
opaque ecdsaSign : Nat → List Byte → List Byte

/-- The identity public key, X then Y (R473): free (log 12). -/
opaque identityKey : List Byte

/-- Whether a firmware image's signature verifies under the fused key (R474): free (log 12). -/
opaque firmwareVerifies : List Byte → Bool

/-- The version that a firmware image carries (R474 names no place for it): free (log 12). -/
opaque firmwareVersion : List Byte → Nat

/-- The fused minimum firmware version (R472, R474 give no value): free (log 12). -/
opaque fusedMinimum : Nat

/-- CODE of an operation that read poisoned bytes (R428 gives no code): free, one for each operation (log 12). -/
opaque poisonCode : Nat → BitVec 8

/-- What another package answers: the status code of a request, its refusal code, a word and the bytes that it returns:
free, one for each answer (log 12). -/
opaque remoteStatus : Nat → BitVec 8
opaque remoteRcode : Nat → BitVec 8
opaque remoteWord : Nat → Word
opaque remoteByte : Nat → Nat → Byte

/-- By how much another member's device time is ahead when the package joins a pod job (R461): free, one for each write
to the job's items (log 12). -/
opaque podAhead : Nat → Nat

/-- The result of `THAW` of a slice frozen in place (R446 gives none; bit 63 is 0): free, one for each (log 12). -/
opaque thawResult : Nat → BitVec 63

end Sys2Proof.Config
end

