-- ==== Sys2Proof/Syntax.lean ====
section
/-! DEFINITION. The instructions of the Parmixon as syntax: one constructor of `Instr` for each row of the opcode
table. An instruction row carries the fields of its 64-bit word (R52, R58); an event row carries what the event is
about. -/

namespace Sys2Proof

/-- The element types (R54). -/
inductive Ty where
  | q | d2 | f2 | b4 | h4 | w4 | o8 | f
  deriving DecidableEq, Repr

/-- The empty policies (R23). -/
inductive Ep where
  | absorb | forward | replace | trap
  deriving DecidableEq, Repr

/-- The operand slots (R20). -/
inductive Slot where
  | a | b | c | p
  deriving DecidableEq, Repr

/-- A present target (R53). -/
structure Target where
  index : BitVec 7
  slot : Slot
  deriving DecidableEq, Repr

/-- The fields that every instruction word has besides OP, EF and IMM (R52). -/
structure Hdr where
  rm : BitVec 6
  ty : Ty
  ep : Ep
  im : Bool
  pv : Bool
  pp : Bool
  ta : Option Target
  tb : Option Target
  deriving DecidableEq, Repr

/-- Compare conditions in code order (R60). -/
inductive Cond where
  | eq | ne | lt | le | gt | ge | lo | ls | hi | hs | un | or
  deriving DecidableEq, Repr

/-- Reduction operators in code order (R62). -/
inductive Opr where
  | add | minS | maxS | minZ | maxZ | and | or | xor | fadd | fmin | fmax
  deriving DecidableEq, Repr

/-- Memory classes (R61). -/
inductive Cls where
  | random | streaming | ordered
  deriving DecidableEq, Repr

/-- Atomic operations in code order (R61). -/
inductive Aop where
  | cas | swp | add | and | or | xor | minS | maxS | minZ | maxZ
  deriving DecidableEq, Repr

/-- Bank modes in code order (R61). -/
inductive Mode where
  | cache | scratch | fifo
  deriving DecidableEq, Repr

/-- Scopes of barriers and placement in code order (R62, R202). -/
inductive Scope where
  | core | quad | die | package | pod
  deriving DecidableEq, Repr

/-- Barrier reductions in code order (R62). -/
inductive Bop where
  | add | max | min
  deriving DecidableEq, Repr

/-- What a strand of another member of a pod job does at a pod barrier (R459): an arrival for its phase or, `early`, the next,
with the value and operator of a `BRED`; one that is discarded; one beyond the count; a wait's deadline; a `BINIT`. -/
inductive FarBar where
  | arrive (early : Bool) (v : Option (BitVec 64 × Bop × Bool))
  | late
  | over
  | deadline (d : Nat)
  | init (e : Nat)
  deriving DecidableEq, Repr

/-- A `PUT` of this package by its operation number, or a sequenced request of another package that writes bytes
(R385, R464). -/
inductive PutFrom where
  | own (op : Nat)
  | far (src sq : Nat) (addr : Word) (bytes : List Byte)
  deriving DecidableEq, Repr

/-- The operation of an `RATOM` with the FPC copy in bits [51:48] of its header (R50, R462). -/
structure FarAtom where
  aop : Aop
  fpc : BitVec 4
  deriving DecidableEq, Repr

/-- What an error does beside taking its resource out of service: the places that it poisons, and the slices that use the
resource where the manual does not say which do (R427–R429). -/
structure Damage where
  poisoned : List Nat
  users : List Nat
  deriving DecidableEq, Repr

/-- How the test of a resource ends (R427): passed, or failed with `parts` sets or lanes lost or spares taken. -/
inductive TestEnd where
  | passed
  | failed (parts : Nat)
  deriving DecidableEq, Repr

/-- RND of the convert layout (R62). -/
inductive Rnd where
  | fpc | rne | rtz | rup | rdn
  deriving DecidableEq, Repr

/-- 4-bit code types in code order (R62, R104). -/
inductive Qt where
  | uniform | e2m1 | pow2 | hybrid
  deriving DecidableEq, Repr

/-- Signed value layout (R58): U is 1 for `.z`. -/
structure SValImm where
  z : Bool
  v : BitVec 20
  deriving DecidableEq, Repr

/-- Compare layout. -/
structure CmpImm where
  v : BitVec 17
  cond : Cond
  deriving DecidableEq, Repr

/-- Address layout. -/
structure AddrImm where
  scale : BitVec 3
  disp : BitVec 18
  deriving DecidableEq, Repr

/-- Bitfield layout. -/
structure FieldImm where
  lenM1 : BitVec 6
  pos : BitVec 6
  deriving DecidableEq, Repr

/-- Convert layout. -/
structure CvtImm where
  src : Ty
  u : Bool
  rnd : Rnd
  qt : Qt
  deriving DecidableEq, Repr

/-- Loop layout. -/
structure LoopImm where
  join : Bool
  gate : BitVec 7
  win : BitVec 6
  deriving DecidableEq, Repr

/-- Kill layout. -/
structure KillImm where
  index : BitVec 7
  slot : Slot
  deriving DecidableEq, Repr

/-- Indirect exit layout. -/
structure JumpImm where
  ret : BitVec 3
  table : BitVec 4
  deriving DecidableEq, Repr

/-- Memory layout. -/
structure MemImm where
  msn : BitVec 7
  cls : Cls
  l : Bool
  off : BitVec 11
  deriving DecidableEq, Repr

/-- Atomic layout. -/
structure AtomImm where
  msn : BitVec 7
  aop : Aop
  off : BitVec 10
  deriving DecidableEq, Repr

/-- Tile layout. -/
structure TileImm where
  msn : BitVec 7
  keep : Bool
  tile : BitVec 4
  deriving DecidableEq, Repr

/-- Bank layout. -/
structure BankImm where
  msn : BitVec 7
  mode : Mode
  bank : BitVec 4
  deriving DecidableEq, Repr

/-- Barrier layout. -/
structure BarImm where
  scope : Scope
  bid : BitVec 6
  bop : Bop
  u : Bool
  deriving DecidableEq, Repr

/-- Engine layout without SUBOP, which the constructor gives, and TS2, which no instruction uses (R376). -/
structure EngImm where
  done : Bool
  td : BitVec 4
  ts1 : BitVec 4
  deriving DecidableEq, Repr

/-- Invalidate layout. -/
structure TlbiImm where
  replay : Bool
  all : Bool
  deriving DecidableEq, Repr

/-- A strand: its slice's `sliceid` and its rank (R195, R230). -/
structure SRef where
  slice : Nat
  rank : Nat
  deriving DecidableEq, Repr

/-- A barrier of the package: its scope, the number of the scope's copy and its id (R202). -/
structure BarKey where
  scope : Scope
  unit : Nat
  bid : Nat
  deriving DecidableEq, Repr

/-- A barrier as device time nears its deadline where it is kept (R208, R459): what strands of other members have done there
since, in order, and where its keeper's time stands. -/
structure BarDeadline where
  bar : BarKey
  far : List FarBar
  ahead : Nat
  deriving DecidableEq, Repr

/-- What a bring-up stage finishes (R475): the firmware's verification, a die's memory, one core's pages, the
matrix paths. -/
inductive BringUp where
  | firmware
  | core (n : Nat)
  | die (d : Nat)
  | matrix8
  | matrix4
  deriving DecidableEq, Repr

/-- One row of the opcode table each: first the event rows, then the instruction rows with their decoded word. -/
inductive Instr where
  | blockFetch (st : SRef)  -- BLOCK_FETCH (R14)
  | commit (st : SRef)  -- COMMIT (R41)
  | antiTokenArrival (st : SRef) (idx tgt k : Nat)  -- ANTI_TOKEN_ARRIVAL (R33)
  | loadReply (st : SRef) (n : Nat)  -- LOAD_REPLY (R185)
  | storePerform (st : SRef) (n : Nat)  -- STORE_PERFORM (R185)
  | translationWalk (n : Nat)  -- TRANSLATION_WALK (R259)
  | ptTick  -- PT_TICK (R284)
  | freezeWave (sl : Nat)  -- FREEZE_WAVE (R413)
  | freezeComplete (sl : Nat)  -- FREEZE_COMPLETE (R415)
  | thawResume (sl : Nat)  -- THAW_RESUME (R423)
  | switchAdopt (st : SRef) (idx : Nat)  -- SWITCH_ADOPT (R426)
  | queueTableChange (q : Nat)  -- QUEUE_TABLE_CHANGE (R214)
  | pubObserved (q : Nat)  -- PUB_OBSERVED (R218)
  | queueAppend (n : Nat)  -- QUEUE_APPEND (R219)
  | dispatchPass  -- DISPATCH_PASS (R227)
  | budget (sl : Nat)  -- BUDGET (R233)
  | sliceEnd (sl : Nat)  -- SLICE_END (R234)
  | barrierDeadline (b : BarDeadline)  -- BARRIER_DEADLINE (R208, R459)
  | messageIssue (st : SRef) (n : Nat)  -- MESSAGE_ISSUE (R339)
  | operationReply (n : Nat)  -- OPERATION_REPLY (R343)
  | copyOp (n u : Nat)  -- COPY_OP (R385)
  | copy2Op (n u : Nat)  -- COPY2_OP (R387)
  | gathOp (n u : Nat)  -- GATH_OP (R388)
  | scatOp (n u : Nat)  -- SCAT_OP (R388)
  | cfillOp (n u : Nat)  -- CFILL_OP (R385)
  | putOp (by' : PutFrom) (u : Nat)  -- PUT_OP (R385, R464)
  | getOp (n u : Nat)  -- GET_OP (R385)
  | ldwOp (n : Nat)  -- LDW_OP (R355)
  | swapwOp (n : Nat)  -- SWAPW_OP (R355)
  | mmaOp (n : Nat)  -- MMA_OP (R121)
  | accrdOp (n : Nat)  -- ACCRD_OP (R122)
  | acczOp (n : Nat)  -- ACCZ_OP (R355)
  | mmawOp (n : Nat)  -- MMAW_OP (R355)
  | defineRegion (n : Nat)  -- DEFINE_REGION (R296)
  | applyRegion (n : Nat)  -- APPLY_REGION (R305)
  | resetRegion (n : Nat)  -- RESET_REGION (R306)
  | statRegion (n : Nat)  -- STAT_REGION (R307)
  | closeRegion (n : Nat)  -- CLOSE_REGION (R297)
  | openContext (n : Nat)  -- OPEN_CONTEXT (R359)
  | appendTokens (n : Nat)  -- APPEND_TOKENS (R363)
  | proposeDraft (n : Nat)  -- PROPOSE_DRAFT (R361)
  | statRecord (n : Nat)  -- STAT_RECORD (R366)
  | saveImage (n : Nat)  -- SAVE_IMAGE (R367)
  | loadImage (n : Nat)  -- LOAD_IMAGE (R368)
  | closeContext (n : Nat)  -- CLOSE_CONTEXT (R359)
  | appendOp (n : Nat)  -- APPEND (R337)
  | rupd (src sq : Nat) (key value : Word) (ty : Ty)  -- RUPD (R462)
  | renq (src sq : Nat) (desc : List Word) (handle : Word)  -- RENQ (R462)
  | radd (src sq : Nat) (addr inc : Word)  -- RADD (R462)
  | ratom (src sq : Nat) (addr b c : Word) (ty : Ty) (aop : FarAtom)  -- RATOM (R50, R462)
  | remoteRetransmit (pkg sq : Nat)  -- REMOTE_RETRANSMIT (R464)
  | remoteUnreachable (n : Nat)  -- REMOTE_UNREACHABLE (R463)
  | updateAccept (st : SRef) (n : Nat)  -- UPDATE_ACCEPT (R299)
  | yardfull (die : Nat)  -- YARDFULL (R303)
  | waitmWake (st : SRef) (n cause : Nat)  -- WAITM_WAKE (R290)
  | waitmTimeout (st : SRef) (n : Nat)  -- WAITM_TIMEOUT (R290)
  | errorDetected (cls unit : Nat) (what : Damage)  -- ERROR_DETECTED (R427)
  | errorTestDone (cls unit : Nat) (e : TestEnd)  -- ERROR_TEST_DONE (R427)
  | hostAccess (link : Nat) (write : Bool) (addr len : Nat) (bytes : List Byte)  -- HOST_ACCESS (R289)
  | mboxSensors  -- SENSORS (R472)
  | mboxLog  -- LOG (R472)
  | mboxAttest  -- ATTEST (R473)
  | mboxFwstage  -- FWSTAGE (R472)
  | mboxFwactivate  -- FWACTIVATE (R472)
  | mboxReset  -- RESET (R472)
  | mboxTime  -- TIME (R472)
  | powerGood  -- POWER_GOOD (R475)
  | bringupStage (what : BringUp)  -- BRINGUP_STAGE (R475)
  | land (h : Hdr) (label : BitVec 16)  -- LAND (R130)
  | read (h : Hdr) (r : BitVec 6)  -- READ (R131)
  | write (h : Hdr) (r : BitVec 6)  -- WRITE (R157)
  | const (h : Hdr) (v : BitVec 21)  -- CONST (R132)
  | kpool (h : Hdr) (k : BitVec 5)  -- KPOOL (R133)
  | mov (h : Hdr) (v : BitVec 21)  -- MOV (R134)
  | fork (h : Hdr) (tc td : Option Target)  -- FORK (R135)
  | sel (h : Hdr) (ef : Bool)  -- SEL (R138)
  | steer (h : Hdr)  -- STEER (R139)
  | merge (h : Hdr)  -- MERGE (R141)
  | jand (h : Hdr) (ef : Bool)  -- JAND (R142)
  | jor (h : Hdr) (ef : Bool)  -- JOR (R142)
  | jall (h : Hdr)  -- JALL (R142)
  | carry (h : Hdr) (x : LoopImm)  -- CARRY (R147)
  | loopin (h : Hdr) (x : LoopImm)  -- LOOPIN (R145)
  | loopout (h : Hdr) (x : LoopImm)  -- LOOPOUT (R149)
  | kill (h : Hdr) (x : KillImm)  -- KILL (R156)
  | drop (h : Hdr)  -- DROP (R136)
  | gen (h : Hdr) (n : BitVec 16)  -- GEN (R153)
  | cnt (h : Hdr)  -- CNT (R154)
  | iter (h : Hdr)  -- ITER (R155)
  | exit (h : Hdr) (n : BitVec 3)  -- EXIT (R159)
  | exiti (h : Hdr) (x : JumpImm)  -- EXITI (R159)
  | call (h : Hdr) (n : BitVec 3)  -- CALL (R159)
  | calli (h : Hdr) (x : JumpImm)  -- CALLI (R159)
  | ret (h : Hdr)  -- RET (R159)
  | add (h : Hdr) (v : BitVec 21)  -- ADD (R164)
  | sub (h : Hdr) (v : BitVec 21)  -- SUB (R164)
  | mul (h : Hdr) (v : BitVec 21)  -- MUL (R164)
  | mulh (h : Hdr) (x : SValImm)  -- MULH (R164)
  | mad (h : Hdr) (v : BitVec 21)  -- MAD (R164)
  | div (h : Hdr) (x : SValImm)  -- DIV (R165)
  | rem (h : Hdr) (x : SValImm)  -- REM (R165)
  | neg (h : Hdr) (v : BitVec 21)  -- NEG (R167)
  | abs (h : Hdr) (v : BitVec 21)  -- ABS (R167)
  | min (h : Hdr) (x : SValImm)  -- MIN (R164)
  | max (h : Hdr) (x : SValImm)  -- MAX (R164)
  | and (h : Hdr) (v : BitVec 21)  -- AND (R164)
  | or (h : Hdr) (v : BitVec 21)  -- OR (R164)
  | xor (h : Hdr) (v : BitVec 21)  -- XOR (R164)
  | andn (h : Hdr) (v : BitVec 21)  -- ANDN (R164)
  | not (h : Hdr) (v : BitVec 21)  -- NOT (R167)
  | shl (h : Hdr) (v : BitVec 21)  -- SHL (R166)
  | shr (h : Hdr) (x : SValImm)  -- SHR (R166)
  | rol (h : Hdr) (v : BitVec 21)  -- ROL (R166)
  | clz (h : Hdr) (v : BitVec 21)  -- CLZ (R167)
  | ctz (h : Hdr) (v : BitVec 21)  -- CTZ (R167)
  | popc (h : Hdr) (v : BitVec 21)  -- POPC (R167)
  | brev (h : Hdr) (v : BitVec 21)  -- BREV (R167)
  | extr (h : Hdr) (x : FieldImm)  -- EXTR (R169)
  | ins (h : Hdr) (x : FieldImm)  -- INS (R169)
  | cmp (h : Hdr) (x : CmpImm)  -- CMP (R170)
  | lea (h : Hdr) (x : AddrImm)  -- LEA (R171)
  | sat (h : Hdr) (x : SValImm)  -- SAT (R168)
  | ext (h : Hdr) (x : SValImm)  -- EXT (R168)
  | pack (h : Hdr) (x : SValImm)  -- PACK (R168)
  | unpk (h : Hdr) (x : SValImm)  -- UNPK (R168)
  | swz (h : Hdr) (sel : BitVec 8)  -- SWZ (R172)
  | fadd (h : Hdr) (v : BitVec 21)  -- FADD (R173)
  | fsub (h : Hdr) (v : BitVec 21)  -- FSUB (R173)
  | fmul (h : Hdr) (v : BitVec 21)  -- FMUL (R173)
  | fma (h : Hdr) (v : BitVec 21)  -- FMA (R173)
  | fmin (h : Hdr) (v : BitVec 21)  -- FMIN (R174)
  | fmax (h : Hdr) (v : BitVec 21)  -- FMAX (R174)
  | fabs (h : Hdr) (v : BitVec 21)  -- FABS (R175)
  | fneg (h : Hdr) (v : BitVec 21)  -- FNEG (R175)
  | fcmp (h : Hdr) (x : CmpImm)  -- FCMP (R178)
  | fdiv (h : Hdr) (v : BitVec 21)  -- FDIV (R173)
  | fsqrt (h : Hdr) (v : BitVec 21)  -- FSQRT (R175)
  | frcp (h : Hdr) (v : BitVec 21)  -- FRCP (R175)
  | frsq (h : Hdr) (v : BitVec 21)  -- FRSQ (R175)
  | fexp2 (h : Hdr) (v : BitVec 21)  -- FEXP2 (R175)
  | flog2 (h : Hdr) (v : BitVec 21)  -- FLOG2 (R175)
  | ftanh (h : Hdr) (v : BitVec 21)  -- FTANH (R175)
  | fscl (h : Hdr) (v : BitVec 21)  -- FSCL (R176)
  | fcls (h : Hdr) (v : BitVec 21)  -- FCLS (R177)
  | frnd (h : Hdr) (x : CvtImm)  -- FRND (R179)
  | fcvt (h : Hdr) (x : CvtImm)  -- FCVT (R179)
  | itof (h : Hdr) (x : CvtImm)  -- ITOF (R179)
  | ftoi (h : Hdr) (x : CvtImm)  -- FTOI (R179)
  | qpack (h : Hdr) (x : CvtImm)  -- QPACK (R181)
  | qunpk (h : Hdr) (x : CvtImm)  -- QUNPK (R182)
  | dot (h : Hdr)  -- DOT (R180)
  | key (h : Hdr)  -- KEY (R395)
  | noise (h : Hdr)  -- NOISE (R396)
  | red (h : Hdr) (op : Opr)  -- RED (R241)
  | scan (h : Hdr) (op : Opr)  -- SCAN (R243)
  | shuf (h : Hdr) (v : BitVec 21)  -- SHUF (R244)
  | bcast (h : Hdr)  -- BCAST (R245)
  | idx (h : Hdr)  -- IDX (R246)
  | tap (h : Hdr) (x : BarImm)  -- TAP (R249)
  | binit (h : Hdr) (x : BarImm)  -- BINIT (R210)
  | barr (h : Hdr) (x : BarImm)  -- BARR (R206)
  | bwait (h : Hdr) (x : BarImm)  -- BWAIT (R208)
  | bsync (h : Hdr) (x : BarImm)  -- BSYNC (R248)
  | bred (h : Hdr) (x : BarImm)  -- BRED (R248)
  | bwaitd (h : Hdr) (x : BarImm)  -- BWAITD (R208)
  | enq (h : Hdr)  -- ENQ (R251)
  | yield (h : Hdr)  -- YIELD (R252)
  | fopen (h : Hdr)  -- FOPEN (R253)
  | fclose (h : Hdr)  -- FCLOSE (R254)
  | fwait (h : Hdr)  -- FWAIT (R254)
  | waitc (h : Hdr)  -- WAITC (R255)
  | ld (h : Hdr) (x : MemImm)  -- LD (R184)
  | st (h : Hdr) (x : MemImm)  -- ST (R185)
  | ldx (h : Hdr) (x : MemImm)  -- LDX (R314)
  | stx (h : Hdr) (x : MemImm)  -- STX (R314)
  | ldf (h : Hdr) (x : MemImm)  -- LDF (R317)
  | ldfk (h : Hdr) (x : MemImm)  -- LDFK (R317)
  | ste (h : Hdr) (x : MemImm)  -- STE (R317)
  | stf (h : Hdr) (x : MemImm)  -- STF (R317)
  | feset (h : Hdr) (x : MemImm)  -- FESET (R318)
  | atom (h : Hdr) (x : AtomImm)  -- ATOM (R320)
  | upd (h : Hdr) (x : MemImm)  -- UPD (R322)
  | pref (h : Hdr) (x : MemImm)  -- PREF (R323)
  | flush (h : Hdr) (x : MemImm)  -- FLUSH (R324)
  | waitm (h : Hdr) (x : MemImm)  -- WAITM (R325)
  | tdef (h : Hdr) (x : TileImm)  -- TDEF (R326)
  | tfree (h : Hdr) (x : TileImm)  -- TFREE (R326)
  | tready (h : Hdr) (x : TileImm)  -- TREADY (R326)
  | tstate (h : Hdr) (x : TileImm)  -- TSTATE (R326)
  | tld (h : Hdr) (x : TileImm)  -- TLD (R327)
  | tst (h : Hdr) (x : TileImm)  -- TST (R327)
  | bankmode (h : Hdr) (x : BankImm)  -- BANKMODE (R329)
  | send (h : Hdr) (x : EngImm)  -- SEND (R384)
  | copy (h : Hdr) (dec : Bool) (x : EngImm)  -- COPY (R385)
  | copy2In (h : Hdr) (dec : Bool) (x : EngImm)  -- COPY2_IN (R387)
  | copy2Out (h : Hdr) (dec : Bool) (x : EngImm)  -- COPY2_OUT (R387)
  | gath (h : Hdr) (x : EngImm)  -- GATH (R388)
  | scat (h : Hdr) (x : EngImm)  -- SCAT (R388)
  | cfill (h : Hdr) (x : EngImm)  -- CFILL (R385)
  | put (h : Hdr) (x : EngImm)  -- PUT (R385)
  | get (h : Hdr) (x : EngImm)  -- GET (R385)
  | ldw (h : Hdr) (x : EngImm)  -- LDW (R390)
  | swapw (h : Hdr) (x : EngImm)  -- SWAPW (R390)
  | mma (h : Hdr) (x : EngImm)  -- MMA (R390)
  | accrd (h : Hdr) (x : EngImm)  -- ACCRD (R390)
  | accz (h : Hdr) (x : EngImm)  -- ACCZ (R390)
  | mmaw (h : Hdr) (x : EngImm)  -- MMAW (R390)
  | roteOpen (h : Hdr) (x : EngImm)  -- ROTE_OPEN (R394)
  | roteAppend (h : Hdr) (x : EngImm)  -- ROTE_APPEND (R394)
  | rotePropose (h : Hdr) (x : EngImm)  -- ROTE_PROPOSE (R394)
  | roteStat (h : Hdr) (x : EngImm)  -- ROTE_STAT (R394)
  | roteSave (h : Hdr) (x : EngImm)  -- ROTE_SAVE (R394)
  | roteLoad (h : Hdr) (x : EngImm)  -- ROTE_LOAD (R394)
  | roteClose (h : Hdr) (x : EngImm)  -- ROTE_CLOSE (R394)
  | yardDefine (h : Hdr) (x : EngImm)  -- YARD_DEFINE (R392)
  | yardApply (h : Hdr) (x : EngImm)  -- YARD_APPLY (R392)
  | yardReset (h : Hdr) (x : EngImm)  -- YARD_RESET (R392)
  | yardStat (h : Hdr) (x : EngImm)  -- YARD_STAT (R392)
  | yardClose (h : Hdr) (x : EngImm)  -- YARD_CLOSE (R392)
  | tree (h : Hdr) (x : EngImm)  -- TREE (R397)
  | accept (h : Hdr) (x : EngImm)  -- ACCEPT (R399)
  | trap (h : Hdr) (code : BitVec 8)  -- TRAP (R441)
  | rdsr (h : Hdr) (r : BitVec 6)  -- RDSR (R439)
  | wrsr (h : Hdr) (r : BitVec 6)  -- WRSR (R440)
  | patch (h : Hdr)  -- PATCH (R442)
  | switch (h : Hdr)  -- SWITCH (R443)
  | freeze (h : Hdr)  -- FREEZE (R445)
  | thaw (h : Hdr)  -- THAW (R446)
  | tlbi (h : Hdr) (x : TlbiImm)  -- TLBI (R448)
  | pmap (h : Hdr)  -- PMAP (R449)
  | abort (h : Hdr)  -- ABORT (R447)
  deriving DecidableEq, Repr

/-- Lanes of a datum (R54). -/
def Ty.lanes : Ty → Nat
  | .q => 1 | .d2 => 2 | .f2 => 2 | .b4 => 4 | .h4 => 4 | .w4 => 4 | .o8 => 8 | .f => 1

/-- Bits of a lane (R54). -/
def Ty.width : Ty → Nat
  | .q => 64 | .d2 => 32 | .f2 => 32 | .b4 => 16 | .h4 => 16 | .w4 => 16 | .o8 => 8 | .f => 32

/-- The integer class (R54). -/
def Ty.isInt : Ty → Bool
  | .q => true | .d2 => true | .w4 => true | .o8 => true | _ => false

/-- The float class (R54). -/
def Ty.isFloat (t : Ty) : Bool := !t.isInt

end Sys2Proof
end

