-- ==== Sys2Proof/Machine/Props.lean ====
section
/-! DEFINITION. The opcode properties (R64, R55–R57, R379) and the conditions of R72, R311, R377 and R437 that one
instruction word meets or breaks by itself. -/

namespace Sys2Proof

/-- Every element type. -/
def Ty.all : List Ty := [.q, .d2, .f2, .b4, .h4, .w4, .o8, .f]
/-- The integer class (R54). -/
def Ty.ints : List Ty := [.q, .d2, .w4, .o8]
/-- The float class (R54). -/
def Ty.floats : List Ty := [.f2, .b4, .h4, .f]

/-- A row of the opcode properties table: opcode, accepted types, required and optional slots (R64, and R379 for the
message instructions), whether TA and TB may be present, whether it is a control instruction (R55), whether PV (R57)
and IM (R56) may be 1, and whether it is effectful (R35). -/
structure OpInfo where
  op : Nat
  tys : List Ty
  req : List Slot
  opt : List Slot
  out : Bool
  control : Bool
  pv : Bool
  im : Bool
  effectful : Bool
  deriving DecidableEq, Repr

/-- The properties of each instruction row; an event row has none. -/
def Instr.info : Instr → Option OpInfo
  | .blockFetch _ => none
  | .commit _ => none
  | .antiTokenArrival _ _ _ _ => none
  | .loadReply _ _ => none
  | .storePerform _ _ => none
  | .translationWalk _ => none
  | .ptTick => none
  | .freezeWave _ => none
  | .freezeComplete _ => none
  | .thawResume _ => none
  | .switchAdopt _ _ => none
  | .queueTableChange _ => none
  | .pubObserved _ => none
  | .queueAppend _ => none
  | .dispatchPass => none
  | .budget _ => none
  | .sliceEnd _ => none
  | .barrierDeadline _ => none
  | .messageIssue _ _ => none
  | .operationReply _ => none
  | .copyOp _ _ => none
  | .copy2Op _ _ => none
  | .gathOp _ _ => none
  | .scatOp _ _ => none
  | .cfillOp _ _ => none
  | .putOp _ _ => none
  | .getOp _ _ => none
  | .ldwOp _ => none
  | .swapwOp _ => none
  | .mmaOp _ => none
  | .accrdOp _ => none
  | .acczOp _ => none
  | .mmawOp _ => none
  | .defineRegion _ => none
  | .applyRegion _ => none
  | .resetRegion _ => none
  | .statRegion _ => none
  | .closeRegion _ => none
  | .openContext _ => none
  | .appendTokens _ => none
  | .proposeDraft _ => none
  | .statRecord _ => none
  | .saveImage _ => none
  | .loadImage _ => none
  | .closeContext _ => none
  | .appendOp _ => none
  | .rupd _ _ _ _ _ => none
  | .renq _ _ _ _ => none
  | .radd _ _ _ _ => none
  | .ratom _ _ _ _ _ _ _ => none
  | .remoteRetransmit _ _ => none
  | .remoteUnreachable _ => none
  | .updateAccept _ _ => none
  | .yardfull _ => none
  | .waitmWake _ _ _ => none
  | .waitmTimeout _ _ => none
  | .errorDetected _ _ _ => none
  | .errorTestDone _ _ _ => none
  | .hostAccess _ _ _ _ _ => none
  | .mboxSensors => none
  | .mboxLog => none
  | .mboxAttest => none
  | .mboxFwstage => none
  | .mboxFwactivate => none
  | .mboxReset => none
  | .mboxTime => none
  | .powerGood => none
  | .bringupStage _ => none
  | .land _ _ => some ⟨0x00, [.q], [], [], true, true, false, false, false⟩
  | .read _ _ => some ⟨0x01, [.q], [], [], true, true, false, false, false⟩
  | .write _ _ => some ⟨0x02, [.q], [.a], [], false, true, false, false, true⟩
  | .const _ _ => some ⟨0x03, Ty.all, [], [], true, false, false, false, false⟩
  | .kpool _ _ => some ⟨0x04, [.q], [], [], true, false, false, false, false⟩
  | .mov _ _ => some ⟨0x05, Ty.all, [.a], [], true, false, true, false, false⟩
  | .fork _ _ _ => some ⟨0x06, [.q], [.a], [], true, false, true, false, false⟩
  | .sel _ _ => some ⟨0x07, [.q], [.a, .b, .c], [], true, false, true, false, false⟩
  | .steer _ => some ⟨0x08, [.q], [.a, .c], [], true, false, true, false, false⟩
  | .merge _ => some ⟨0x09, [.q], [.a, .b], [], true, false, true, false, false⟩
  | .jand _ _ => some ⟨0x0A, [.q], [.a, .b], [.c], true, false, true, false, false⟩
  | .jor _ _ => some ⟨0x0B, [.q], [.a, .b], [.c], true, false, true, false, false⟩
  | .jall _ => some ⟨0x0C, [.q], [.a, .b], [.c], true, false, true, false, false⟩
  | .carry _ _ => some ⟨0x0D, [.q], [.a, .b], [], true, false, false, false, false⟩
  | .loopin _ _ => some ⟨0x0E, [.q], [.a], [], true, true, false, false, false⟩
  | .loopout _ _ => some ⟨0x0F, [.q], [.a], [], true, true, false, false, false⟩
  | .kill _ _ => some ⟨0x10, [.q], [.a], [], false, false, false, false, false⟩
  | .drop _ => some ⟨0x11, [.q], [.a], [], false, false, true, false, false⟩
  | .gen _ _ => some ⟨0x12, Ty.ints, [], [.a], true, false, true, false, false⟩
  | .cnt _ => some ⟨0x13, [.q], [.a], [], true, false, true, false, false⟩
  | .iter _ => some ⟨0x14, [.q], [.a], [], true, false, true, false, false⟩
  | .exit _ _ => some ⟨0x15, [.q], [.a], [], false, true, false, false, true⟩
  | .exiti _ _ => some ⟨0x16, [.q], [.a], [], false, true, false, false, true⟩
  | .call _ _ => some ⟨0x17, [.q], [.a], [], false, true, false, false, true⟩
  | .calli _ _ => some ⟨0x18, [.q], [.a], [], false, true, false, false, true⟩
  | .ret _ => some ⟨0x19, [.q], [.a], [], false, true, false, false, true⟩
  | .add _ _ => some ⟨0x20, Ty.ints, [.a, .b], [], true, false, true, true, false⟩
  | .sub _ _ => some ⟨0x21, Ty.ints, [.a, .b], [], true, false, true, true, false⟩
  | .mul _ _ => some ⟨0x22, Ty.ints, [.a, .b], [], true, false, true, true, false⟩
  | .mulh _ _ => some ⟨0x23, Ty.ints, [.a, .b], [], true, false, true, true, false⟩
  | .mad _ _ => some ⟨0x24, Ty.ints, [.a, .b, .c], [], true, false, true, true, false⟩
  | .div _ _ => some ⟨0x25, Ty.ints, [.a, .b], [], true, false, true, true, false⟩
  | .rem _ _ => some ⟨0x26, Ty.ints, [.a, .b], [], true, false, true, true, false⟩
  | .neg _ _ => some ⟨0x27, Ty.ints, [.a], [], true, false, true, false, false⟩
  | .abs _ _ => some ⟨0x28, Ty.ints, [.a], [], true, false, true, false, false⟩
  | .min _ _ => some ⟨0x29, Ty.ints, [.a, .b], [], true, false, true, true, false⟩
  | .max _ _ => some ⟨0x2A, Ty.ints, [.a, .b], [], true, false, true, true, false⟩
  | .and _ _ => some ⟨0x2B, Ty.ints, [.a, .b], [], true, false, true, true, false⟩
  | .or _ _ => some ⟨0x2C, Ty.ints, [.a, .b], [], true, false, true, true, false⟩
  | .xor _ _ => some ⟨0x2D, Ty.ints, [.a, .b], [], true, false, true, true, false⟩
  | .andn _ _ => some ⟨0x2E, Ty.ints, [.a, .b], [], true, false, true, true, false⟩
  | .not _ _ => some ⟨0x2F, Ty.ints, [.a], [], true, false, true, false, false⟩
  | .shl _ _ => some ⟨0x30, Ty.ints, [.a, .b], [], true, false, true, true, false⟩
  | .shr _ _ => some ⟨0x31, Ty.ints, [.a, .b], [], true, false, true, true, false⟩
  | .rol _ _ => some ⟨0x32, Ty.ints, [.a, .b], [], true, false, true, true, false⟩
  | .clz _ _ => some ⟨0x33, Ty.ints, [.a], [], true, false, true, false, false⟩
  | .ctz _ _ => some ⟨0x34, Ty.ints, [.a], [], true, false, true, false, false⟩
  | .popc _ _ => some ⟨0x35, Ty.ints, [.a], [], true, false, true, false, false⟩
  | .brev _ _ => some ⟨0x36, Ty.ints, [.a], [], true, false, true, false, false⟩
  | .extr _ _ => some ⟨0x37, Ty.ints, [.a], [], true, false, true, false, false⟩
  | .ins _ _ => some ⟨0x38, Ty.ints, [.a, .b], [], true, false, true, false, false⟩
  | .cmp _ _ => some ⟨0x39, Ty.ints, [.a, .b], [], true, false, true, true, false⟩
  | .lea _ _ => some ⟨0x3A, [.q], [.a, .b], [], true, false, true, true, false⟩
  | .sat _ _ => some ⟨0x3B, Ty.ints, [.a], [], true, false, true, false, false⟩
  | .ext _ _ => some ⟨0x3C, Ty.ints, [.a], [], true, false, true, false, false⟩
  | .pack _ _ => some ⟨0x3D, Ty.ints, [.a, .b], [], true, false, true, true, false⟩
  | .unpk _ _ => some ⟨0x3E, Ty.ints, [.a], [], true, false, true, false, false⟩
  | .swz _ _ => some ⟨0x3F, [.d2, .f2, .b4, .h4, .w4, .o8], [.a], [.b], true, false, true, false, false⟩
  | .fadd _ _ => some ⟨0x50, Ty.floats, [.a, .b], [], true, false, true, true, false⟩
  | .fsub _ _ => some ⟨0x51, Ty.floats, [.a, .b], [], true, false, true, true, false⟩
  | .fmul _ _ => some ⟨0x52, Ty.floats, [.a, .b], [], true, false, true, true, false⟩
  | .fma _ _ => some ⟨0x53, Ty.floats, [.a, .b, .c], [], true, false, true, true, false⟩
  | .fmin _ _ => some ⟨0x54, Ty.floats, [.a, .b], [], true, false, true, true, false⟩
  | .fmax _ _ => some ⟨0x55, Ty.floats, [.a, .b], [], true, false, true, true, false⟩
  | .fabs _ _ => some ⟨0x56, Ty.floats, [.a], [], true, false, true, false, false⟩
  | .fneg _ _ => some ⟨0x57, Ty.floats, [.a], [], true, false, true, false, false⟩
  | .fcmp _ _ => some ⟨0x58, Ty.floats, [.a, .b], [], true, false, true, true, false⟩
  | .fdiv _ _ => some ⟨0x59, Ty.floats, [.a, .b], [], true, false, true, true, false⟩
  | .fsqrt _ _ => some ⟨0x5A, Ty.floats, [.a], [], true, false, true, false, false⟩
  | .frcp _ _ => some ⟨0x5B, Ty.floats, [.a], [], true, false, true, false, false⟩
  | .frsq _ _ => some ⟨0x5C, Ty.floats, [.a], [], true, false, true, false, false⟩
  | .fexp2 _ _ => some ⟨0x5D, Ty.floats, [.a], [], true, false, true, false, false⟩
  | .flog2 _ _ => some ⟨0x5E, Ty.floats, [.a], [], true, false, true, false, false⟩
  | .ftanh _ _ => some ⟨0x5F, Ty.floats, [.a], [], true, false, true, false, false⟩
  | .fscl _ _ => some ⟨0x60, Ty.floats, [.a, .b], [], true, false, true, true, false⟩
  | .fcls _ _ => some ⟨0x61, Ty.floats, [.a], [], true, false, true, false, false⟩
  | .frnd _ _ => some ⟨0x62, Ty.floats, [.a], [], true, false, true, false, false⟩
  | .fcvt _ _ => some ⟨0x63, Ty.floats, [.a], [], true, false, true, false, false⟩
  | .itof _ _ => some ⟨0x64, Ty.floats, [.a], [], true, false, true, false, false⟩
  | .ftoi _ _ => some ⟨0x65, Ty.ints, [.a], [], true, false, true, false, false⟩
  | .qpack _ _ => some ⟨0x66, [.o8], [.a], [], true, false, true, false, false⟩
  | .qunpk _ _ => some ⟨0x67, Ty.floats, [.a], [], true, false, true, false, false⟩
  | .dot _ => some ⟨0x68, [.b4], [.a, .b, .c], [], true, false, true, false, false⟩
  | .key _ => some ⟨0x69, [.f], [.a, .b], [], true, false, true, false, false⟩
  | .noise _ => some ⟨0x6A, [.f], [.a, .b, .c], [], true, false, true, false, false⟩
  | .red _ _ => some ⟨0x80, Ty.all, [.a], [], true, false, true, false, false⟩
  | .scan _ _ => some ⟨0x81, Ty.all, [.a], [], true, false, true, false, false⟩
  | .shuf _ _ => some ⟨0x82, Ty.all, [.a, .b], [], true, false, true, true, false⟩
  | .bcast _ => some ⟨0x83, Ty.all, [.a], [], true, false, true, false, false⟩
  | .idx _ => some ⟨0x91, Ty.all, [.a], [], true, false, true, false, false⟩
  | .tap _ _ => some ⟨0x84, Ty.all, [.a], [], true, false, true, false, true⟩
  | .binit _ _ => some ⟨0x85, [.q], [.a], [], true, false, true, false, true⟩
  | .barr _ _ => some ⟨0x86, [.q], [.a], [], true, false, true, false, true⟩
  | .bwait _ _ => some ⟨0x87, [.q], [.a], [], true, false, true, false, false⟩
  | .bsync _ _ => some ⟨0x88, [.q], [.a], [], true, false, true, false, true⟩
  | .bred _ _ => some ⟨0x89, [.q], [.a], [], true, false, true, false, true⟩
  | .bwaitd _ _ => some ⟨0x8A, [.q], [.a, .b], [], true, false, true, false, false⟩
  | .enq _ => some ⟨0x8B, [.q], [.a], [.b], true, false, true, false, true⟩
  | .yield _ => some ⟨0x8C, [.q], [.a], [.b], true, false, true, false, true⟩
  | .fopen _ => some ⟨0x8D, [.q], [.a], [], true, false, true, false, true⟩
  | .fclose _ => some ⟨0x8E, [.q], [.a], [], true, false, true, false, true⟩
  | .fwait _ => some ⟨0x8F, [.q], [.a], [], true, false, true, false, false⟩
  | .waitc _ => some ⟨0x90, [.q], [.a, .b], [], true, false, true, false, false⟩
  | .ld _ _ => some ⟨0xA0, Ty.all, [.a], [], true, false, true, false, false⟩
  | .st _ _ => some ⟨0xA1, Ty.all, [.a, .b], [], true, false, true, false, true⟩
  | .ldx _ _ => some ⟨0xA2, Ty.all, [.a], [], true, false, true, false, false⟩
  | .stx _ _ => some ⟨0xA3, Ty.all, [.a, .b], [], true, false, true, false, true⟩
  | .ldf _ _ => some ⟨0xA4, Ty.all, [.a], [], true, false, true, false, true⟩
  | .ldfk _ _ => some ⟨0xA5, Ty.all, [.a], [], true, false, true, false, false⟩
  | .ste _ _ => some ⟨0xA6, Ty.all, [.a, .b], [], true, false, true, false, true⟩
  | .stf _ _ => some ⟨0xA7, Ty.all, [.a, .b], [], true, false, true, false, true⟩
  | .feset _ _ => some ⟨0xA8, [.q], [.a, .b, .c], [], true, false, true, false, true⟩
  | .atom _ _ => some ⟨0xA9, [.q, .d2, .f], [.a, .b], [.c], true, false, true, false, true⟩
  | .upd _ _ => some ⟨0xAA, Ty.all, [.a, .b], [], true, false, true, false, true⟩
  | .pref _ _ => some ⟨0xAB, [.q], [.a], [], true, false, true, false, false⟩
  | .flush _ _ => some ⟨0xAC, [.q], [.a], [], true, false, true, false, true⟩
  | .waitm _ _ => some ⟨0xAD, [.q], [.a], [], true, false, true, false, false⟩
  | .tdef _ _ => some ⟨0xAE, [.q], [.a], [], true, false, true, false, true⟩
  | .tfree _ _ => some ⟨0xAF, [.q], [.a], [], true, false, true, false, true⟩
  | .tready _ _ => some ⟨0xB0, [.q], [.a], [], true, false, true, false, true⟩
  | .tstate _ _ => some ⟨0xB1, [.q], [.a], [], true, false, true, false, false⟩
  | .tld _ _ => some ⟨0xB2, Ty.all, [.a], [], true, false, true, false, true⟩
  | .tst _ _ => some ⟨0xB3, Ty.all, [.a, .b], [], true, false, true, false, true⟩
  | .bankmode _ _ => some ⟨0xB4, [.q], [.a], [], true, false, true, false, true⟩
  | .send _ _ => some ⟨0xC0, [.q], [.a], [], true, false, true, false, true⟩
  | .copy _ _ _ => some ⟨0xC1, [.q], [.a, .b, .c], [], true, false, true, false, true⟩
  | .copy2In _ _ _ => some ⟨0xC2, [.q], [.a], [], true, false, true, false, true⟩
  | .copy2Out _ _ _ => some ⟨0xC2, [.q], [.a], [], true, false, true, false, true⟩
  | .gath _ _ => some ⟨0xC3, [.q], [.a, .b], [], true, false, true, false, true⟩
  | .scat _ _ => some ⟨0xC4, [.q], [.a, .b], [], true, false, true, false, true⟩
  | .cfill _ _ => some ⟨0xC5, [.q], [.a, .b, .c], [], true, false, true, false, true⟩
  | .put _ _ => some ⟨0xD0, [.q], [.a, .b, .c], [], true, false, true, false, true⟩
  | .get _ _ => some ⟨0xD1, [.q], [.a, .b, .c], [], true, false, true, false, true⟩
  | .ldw _ _ => some ⟨0xC6, [.q], [.a], [.b], true, false, true, false, true⟩
  | .swapw _ _ => some ⟨0xC7, [.q], [.a], [.b], true, false, true, false, true⟩
  | .mma _ _ => some ⟨0xC8, [.q], [.a], [.b], true, false, true, false, true⟩
  | .accrd _ _ => some ⟨0xC9, [.q], [.a], [.b], true, false, true, false, true⟩
  | .accz _ _ => some ⟨0xCA, [.q], [.a], [.b], true, false, true, false, true⟩
  | .mmaw _ _ => some ⟨0xCB, [.q], [.a], [.b], true, false, true, false, true⟩
  | .roteOpen _ _ => some ⟨0xCC, [.q], [.a, .b, .c], [], true, false, true, false, true⟩
  | .roteAppend _ _ => some ⟨0xCC, [.q], [.a, .b, .c], [], true, false, true, false, true⟩
  | .rotePropose _ _ => some ⟨0xCC, [.q], [.a, .b, .c], [], true, false, true, false, true⟩
  | .roteStat _ _ => some ⟨0xCC, [.q], [.a, .b], [], true, false, true, false, true⟩
  | .roteSave _ _ => some ⟨0xCC, [.q], [.a, .b], [], true, false, true, false, true⟩
  | .roteLoad _ _ => some ⟨0xCC, [.q], [.a, .b], [], true, false, true, false, true⟩
  | .roteClose _ _ => some ⟨0xCC, [.q], [.a], [.b], true, false, true, false, true⟩
  | .yardDefine _ _ => some ⟨0xCD, [.q], [.a, .b, .c], [], true, false, true, false, true⟩
  | .yardApply _ _ => some ⟨0xCD, [.q], [.a], [.b], true, false, true, false, true⟩
  | .yardReset _ _ => some ⟨0xCD, [.q], [.a], [.b], true, false, true, false, true⟩
  | .yardStat _ _ => some ⟨0xCD, [.q], [.a], [.b], true, false, true, false, true⟩
  | .yardClose _ _ => some ⟨0xCD, [.q], [.a], [.b], true, false, true, false, true⟩
  | .tree _ _ => some ⟨0xCE, [.q], [.a], [.b], true, false, true, false, true⟩
  | .accept _ _ => some ⟨0xCF, [.q], [.a, .b], [], true, false, true, false, true⟩
  | .trap _ _ => some ⟨0xE0, [.q], [.a], [], false, false, true, false, false⟩
  | .rdsr _ _ => some ⟨0xE1, [.q], [.a], [], true, false, true, false, true⟩
  | .wrsr _ _ => some ⟨0xE2, [.q], [.a], [], true, false, true, false, true⟩
  | .patch _ => some ⟨0xE3, [.q], [.a], [], true, false, true, false, true⟩
  | .switch _ => some ⟨0xE4, [.q], [.a], [.b], true, false, true, false, false⟩
  | .freeze _ => some ⟨0xE5, [.q], [.a], [.b], true, false, true, false, true⟩
  | .thaw _ => some ⟨0xE6, [.q], [.a], [.b], true, false, true, false, true⟩
  | .tlbi _ _ => some ⟨0xE7, [.q], [.a], [], true, false, true, false, true⟩
  | .pmap _ => some ⟨0xE8, [.q], [.a], [.b], true, false, true, false, true⟩
  | .abort _ => some ⟨0xE9, [.q], [.a], [], true, false, true, false, true⟩

/-- The header fields of each instruction row. -/
def Instr.hdr : Instr → Option Hdr
  | .blockFetch _ => none
  | .commit _ => none
  | .antiTokenArrival _ _ _ _ => none
  | .loadReply _ _ => none
  | .storePerform _ _ => none
  | .translationWalk _ => none
  | .ptTick => none
  | .freezeWave _ => none
  | .freezeComplete _ => none
  | .thawResume _ => none
  | .switchAdopt _ _ => none
  | .queueTableChange _ => none
  | .pubObserved _ => none
  | .queueAppend _ => none
  | .dispatchPass => none
  | .budget _ => none
  | .sliceEnd _ => none
  | .barrierDeadline _ => none
  | .messageIssue _ _ => none
  | .operationReply _ => none
  | .copyOp _ _ => none
  | .copy2Op _ _ => none
  | .gathOp _ _ => none
  | .scatOp _ _ => none
  | .cfillOp _ _ => none
  | .putOp _ _ => none
  | .getOp _ _ => none
  | .ldwOp _ => none
  | .swapwOp _ => none
  | .mmaOp _ => none
  | .accrdOp _ => none
  | .acczOp _ => none
  | .mmawOp _ => none
  | .defineRegion _ => none
  | .applyRegion _ => none
  | .resetRegion _ => none
  | .statRegion _ => none
  | .closeRegion _ => none
  | .openContext _ => none
  | .appendTokens _ => none
  | .proposeDraft _ => none
  | .statRecord _ => none
  | .saveImage _ => none
  | .loadImage _ => none
  | .closeContext _ => none
  | .appendOp _ => none
  | .rupd _ _ _ _ _ => none
  | .renq _ _ _ _ => none
  | .radd _ _ _ _ => none
  | .ratom _ _ _ _ _ _ _ => none
  | .remoteRetransmit _ _ => none
  | .remoteUnreachable _ => none
  | .updateAccept _ _ => none
  | .yardfull _ => none
  | .waitmWake _ _ _ => none
  | .waitmTimeout _ _ => none
  | .errorDetected _ _ _ => none
  | .errorTestDone _ _ _ => none
  | .hostAccess _ _ _ _ _ => none
  | .mboxSensors => none
  | .mboxLog => none
  | .mboxAttest => none
  | .mboxFwstage => none
  | .mboxFwactivate => none
  | .mboxReset => none
  | .mboxTime => none
  | .powerGood => none
  | .bringupStage _ => none
  | .land h _ => some h
  | .read h _ => some h
  | .write h _ => some h
  | .const h _ => some h
  | .kpool h _ => some h
  | .mov h _ => some h
  | .fork h _ _ => some h
  | .sel h _ => some h
  | .steer h => some h
  | .merge h => some h
  | .jand h _ => some h
  | .jor h _ => some h
  | .jall h => some h
  | .carry h _ => some h
  | .loopin h _ => some h
  | .loopout h _ => some h
  | .kill h _ => some h
  | .drop h => some h
  | .gen h _ => some h
  | .cnt h => some h
  | .iter h => some h
  | .exit h _ => some h
  | .exiti h _ => some h
  | .call h _ => some h
  | .calli h _ => some h
  | .ret h => some h
  | .add h _ => some h
  | .sub h _ => some h
  | .mul h _ => some h
  | .mulh h _ => some h
  | .mad h _ => some h
  | .div h _ => some h
  | .rem h _ => some h
  | .neg h _ => some h
  | .abs h _ => some h
  | .min h _ => some h
  | .max h _ => some h
  | .and h _ => some h
  | .or h _ => some h
  | .xor h _ => some h
  | .andn h _ => some h
  | .not h _ => some h
  | .shl h _ => some h
  | .shr h _ => some h
  | .rol h _ => some h
  | .clz h _ => some h
  | .ctz h _ => some h
  | .popc h _ => some h
  | .brev h _ => some h
  | .extr h _ => some h
  | .ins h _ => some h
  | .cmp h _ => some h
  | .lea h _ => some h
  | .sat h _ => some h
  | .ext h _ => some h
  | .pack h _ => some h
  | .unpk h _ => some h
  | .swz h _ => some h
  | .fadd h _ => some h
  | .fsub h _ => some h
  | .fmul h _ => some h
  | .fma h _ => some h
  | .fmin h _ => some h
  | .fmax h _ => some h
  | .fabs h _ => some h
  | .fneg h _ => some h
  | .fcmp h _ => some h
  | .fdiv h _ => some h
  | .fsqrt h _ => some h
  | .frcp h _ => some h
  | .frsq h _ => some h
  | .fexp2 h _ => some h
  | .flog2 h _ => some h
  | .ftanh h _ => some h
  | .fscl h _ => some h
  | .fcls h _ => some h
  | .frnd h _ => some h
  | .fcvt h _ => some h
  | .itof h _ => some h
  | .ftoi h _ => some h
  | .qpack h _ => some h
  | .qunpk h _ => some h
  | .dot h => some h
  | .key h => some h
  | .noise h => some h
  | .red h _ => some h
  | .scan h _ => some h
  | .shuf h _ => some h
  | .bcast h => some h
  | .idx h => some h
  | .tap h _ => some h
  | .binit h _ => some h
  | .barr h _ => some h
  | .bwait h _ => some h
  | .bsync h _ => some h
  | .bred h _ => some h
  | .bwaitd h _ => some h
  | .enq h => some h
  | .yield h => some h
  | .fopen h => some h
  | .fclose h => some h
  | .fwait h => some h
  | .waitc h => some h
  | .ld h _ => some h
  | .st h _ => some h
  | .ldx h _ => some h
  | .stx h _ => some h
  | .ldf h _ => some h
  | .ldfk h _ => some h
  | .ste h _ => some h
  | .stf h _ => some h
  | .feset h _ => some h
  | .atom h _ => some h
  | .upd h _ => some h
  | .pref h _ => some h
  | .flush h _ => some h
  | .waitm h _ => some h
  | .tdef h _ => some h
  | .tfree h _ => some h
  | .tready h _ => some h
  | .tstate h _ => some h
  | .tld h _ => some h
  | .tst h _ => some h
  | .bankmode h _ => some h
  | .send h _ => some h
  | .copy h _ _ => some h
  | .copy2In h _ _ => some h
  | .copy2Out h _ _ => some h
  | .gath h _ => some h
  | .scat h _ => some h
  | .cfill h _ => some h
  | .put h _ => some h
  | .get h _ => some h
  | .ldw h _ => some h
  | .swapw h _ => some h
  | .mma h _ => some h
  | .accrd h _ => some h
  | .accz h _ => some h
  | .mmaw h _ => some h
  | .roteOpen h _ => some h
  | .roteAppend h _ => some h
  | .rotePropose h _ => some h
  | .roteStat h _ => some h
  | .roteSave h _ => some h
  | .roteLoad h _ => some h
  | .roteClose h _ => some h
  | .yardDefine h _ => some h
  | .yardApply h _ => some h
  | .yardReset h _ => some h
  | .yardStat h _ => some h
  | .yardClose h _ => some h
  | .tree h _ => some h
  | .accept h _ => some h
  | .trap h _ => some h
  | .rdsr h _ => some h
  | .wrsr h _ => some h
  | .patch h => some h
  | .switch h => some h
  | .freeze h => some h
  | .thaw h => some h
  | .tlbi h _ => some h
  | .pmap h => some h
  | .abort h => some h

/-- The slots a target may name (R64): the message instructions with a sub-operation, `PATCH` and `ABORT` list more
there than they use; R377 and R437 reject the surplus with 0x08. -/
def OpInfo.slots64 (p : OpInfo) : List Slot :=
  if p.op = 0xCC ∨ p.op = 0xCD then [.a, .b, .c]
  else if p.op = 0xE3 ∨ p.op = 0xE9 then [.a, .b]
  else p.req ++ p.opt

/-- `[c]` when the condition holds. -/
def rej (c : Nat) (b : Bool) : List Nat := if b then [c] else []

/-- A present target names an instruction 1 to 95 (R53, R72). -/
def Target.ok (t : Target) : Bool := decide (1 ≤ t.index.toNat ∧ t.index.toNat ≤ 95)

/-- An absent target, or one that `Target.ok` accepts. -/
def targetOk : Option Target → Bool
  | none => true
  | some t => t.ok

/-- The conditions on the header fields: R128, the TY column, R52, R55–R57, R377 and the target rules of R53. -/
def Hdr.rejects (p : OpInfo) (h : Hdr) : List Nat :=
  rej 0x04 (decide (h.ep ≠ .absorb) && p.req.isEmpty && p.opt.isEmpty)
  ++ rej 0x05 (!p.tys.contains h.ty)
  ++ rej 0x06 ((h.im && !p.im) || (h.pv && !p.pv) || (h.pp && !h.pv))
  ++ rej 0x06 (decide (h.rm ≠ 0) && (p.control || decide (0xC0 ≤ p.op ∧ p.op ≤ 0xD1)))
  ++ rej 0x07 (h.ta.isNone && h.tb.isSome)
  ++ rej 0x07 (h.ta.isSome && decide (h.ta = h.tb))
  ++ rej 0x07 (h.ta.isSome && !p.out)
  ++ rej 0x07 (!targetOk h.ta || !targetOk h.tb)

/-- The value layout (R59): VAL is zero unless IM is 1 or EP is 10, and fits the lane of TY. -/
def valRejects (h : Hdr) (v : Nat) : List Nat :=
  rej 0x04 (!h.im && decide (h.ep ≠ .replace) && decide (v ≠ 0))
  ++ rej 0x04 (decide (h.ty.width ≤ 16 ∧ 2 ^ h.ty.width ≤ v))

/-- The barrier ids of a scope (R202). -/
def Scope.ids : Scope → Nat
  | .core => 16 | .quad => 16 | .die => 32 | .package => 64 | .pod => 16

/-- The barrier layout (R62): BOP and U on `BRED` only; BID below the scope's count. -/
def barRejects (bred : Bool) (x : BarImm) : List Nat :=
  rej 0x04 (!bred && (x.u || decide (x.bop ≠ .add)))
  ++ rej 0x12 (decide (x.scope.ids ≤ x.bid.toNat))

/-- The memory layout (R64, R311): whether L = 0, L = 1, CLASS 01 and CLASS 10 are accepted. -/
def memRejects (l0 l1 str ord : Bool) (x : MemImm) : List Nat :=
  rej 0x06 ((x.l && !l1) || (!x.l && !l0))
  ++ rej 0x06 ((decide (x.cls = .streaming) && !str) || (decide (x.cls = .ordered) && !ord))

/-- The tile layout (R311): KEEP on `TLD` only. -/
def tileRejects (tld : Bool) (x : TileImm) : List Nat := rej 0x04 (x.keep && !tld)

/-- The engine layout (R62, R376, R377): which tile fields are used, and DONE equal to V of TA. -/
def engRejects (h : Hdr) (td ts1 : Bool) (x : EngImm) : List Nat :=
  rej 0x04 ((decide (x.td ≠ 0) && !td) || (decide (x.ts1 ≠ 0) && !ts1))
  ++ rej 0x04 (decide (x.done ≠ h.ta.isSome))

/-- The loop layout (R62). -/
def loopRejects (loopin : Bool) (x : LoopImm) : List Nat :=
  if loopin then rej 0x04 (if x.join then decide (x.win ≠ 0) else decide (x.gate ≠ 0))
  else rej 0x04 (x.join || decide (x.win ≠ 0))

/-- The convert layout (R62, R179, R181, R182): accepted FROM, and whether QT is used. -/
def cvtRejects (from' : List Ty) (qt : Bool) (x : CvtImm) : List Nat :=
  rej 0x05 (!from'.contains x.src) ++ rej 0x04 (!qt && decide (x.qt ≠ .uniform))

/-- OPR against TY (R241): the float operators on the float class, the others on the integer class. -/
def oprRejects (h : Hdr) (op : Opr) : List Nat :=
  match op with
  | .fadd | .fmin | .fmax => rej 0x05 h.ty.isInt
  | .add | .minS | .maxS | .minZ | .maxZ => rej 0x05 h.ty.isFloat
  | .and | .or | .xor => rej 0x05 h.ty.isFloat

/-- Registers that `RDSR` may name (R432, R433, R458). -/
def sregAssigned (n : Nat) : Bool := decide (n ≤ 18 ∨ (32 ≤ n ∧ n ≤ 40))
/-- Registers that `WRSR` may name (R437). -/
def sregWritable (n : Nat) : Bool := decide (n = 0 ∨ n = 12 ∨ n = 14 ∨ (32 ≤ n ∧ n ≤ 40))

/-- TC and TD come after TA and TB, in order, and no target is named twice (R53, R62). -/
def forkRejects (h : Hdr) (tc td : Option Target) : List Nat :=
  let l := [h.ta, h.tb, tc, td]
  let present := l.filterMap id
  rej 0x07 (decide (l.take present.length ≠ present.map some) || !decide present.Nodup || !present.all Target.ok)

/-- The conditions on the immediate of each instruction row (R58–R62, R241, R311, R376, R377, R437). -/
def Instr.immRejects : Instr → List Nat
  | .blockFetch _ => []
  | .commit _ => []
  | .antiTokenArrival _ _ _ _ => []
  | .loadReply _ _ => []
  | .storePerform _ _ => []
  | .translationWalk _ => []
  | .ptTick => []
  | .freezeWave _ => []
  | .freezeComplete _ => []
  | .thawResume _ => []
  | .switchAdopt _ _ => []
  | .queueTableChange _ => []
  | .pubObserved _ => []
  | .queueAppend _ => []
  | .dispatchPass => []
  | .budget _ => []
  | .sliceEnd _ => []
  | .barrierDeadline _ => []
  | .messageIssue _ _ => []
  | .operationReply _ => []
  | .copyOp _ _ => []
  | .copy2Op _ _ => []
  | .gathOp _ _ => []
  | .scatOp _ _ => []
  | .cfillOp _ _ => []
  | .putOp _ _ => []
  | .getOp _ _ => []
  | .ldwOp _ => []
  | .swapwOp _ => []
  | .mmaOp _ => []
  | .accrdOp _ => []
  | .acczOp _ => []
  | .mmawOp _ => []
  | .defineRegion _ => []
  | .applyRegion _ => []
  | .resetRegion _ => []
  | .statRegion _ => []
  | .closeRegion _ => []
  | .openContext _ => []
  | .appendTokens _ => []
  | .proposeDraft _ => []
  | .statRecord _ => []
  | .saveImage _ => []
  | .loadImage _ => []
  | .closeContext _ => []
  | .appendOp _ => []
  | .rupd _ _ _ _ _ => []
  | .renq _ _ _ _ => []
  | .radd _ _ _ _ => []
  | .ratom _ _ _ _ _ _ _ => []
  | .remoteRetransmit _ _ => []
  | .remoteUnreachable _ => []
  | .updateAccept _ _ => []
  | .yardfull _ => []
  | .waitmWake _ _ _ => []
  | .waitmTimeout _ _ => []
  | .errorDetected _ _ _ => []
  | .errorTestDone _ _ _ => []
  | .hostAccess _ _ _ _ _ => []
  | .mboxSensors => []
  | .mboxLog => []
  | .mboxAttest => []
  | .mboxFwstage => []
  | .mboxFwactivate => []
  | .mboxReset => []
  | .mboxTime => []
  | .powerGood => []
  | .bringupStage _ => []
  | .land _ _ => []
  | .read _ _ => []
  | .write _ _ => []
  | .const h v => rej 0x04 (decide (h.ty.width ≤ 16 ∧ 2 ^ h.ty.width ≤ v.toNat))
  | .kpool _ _ => []
  | .mov h v => valRejects h v.toNat
  | .fork h tc td => forkRejects h tc td
  | .sel _ _ => []
  | .steer _ => []
  | .merge _ => []
  | .jand _ _ => []
  | .jor _ _ => []
  | .jall _ => []
  | .carry _ x => loopRejects false x
  | .loopin _ x => loopRejects true x
  | .loopout _ x => loopRejects false x
  | .kill _ _ => []
  | .drop _ => []
  | .gen _ _ => []
  | .cnt _ => []
  | .iter _ => []
  | .exit _ _ => []
  | .exiti _ x => rej 0x04 (decide (x.ret ≠ 0))
  | .call _ _ => []
  | .calli _ _ => []
  | .ret _ => []
  | .add h v => valRejects h v.toNat
  | .sub h v => valRejects h v.toNat
  | .mul h v => valRejects h v.toNat
  | .mulh h x => valRejects h x.v.toNat
  | .mad h v => valRejects h v.toNat
  | .div h x => valRejects h x.v.toNat
  | .rem h x => valRejects h x.v.toNat
  | .neg h v => valRejects h v.toNat
  | .abs h v => valRejects h v.toNat
  | .min h x => valRejects h x.v.toNat
  | .max h x => valRejects h x.v.toNat
  | .and h v => valRejects h v.toNat
  | .or h v => valRejects h v.toNat
  | .xor h v => valRejects h v.toNat
  | .andn h v => valRejects h v.toNat
  | .not h v => valRejects h v.toNat
  | .shl h v => valRejects h v.toNat
  | .shr h x => valRejects h x.v.toNat
  | .rol h v => valRejects h v.toNat
  | .clz h v => valRejects h v.toNat
  | .ctz h v => valRejects h v.toNat
  | .popc h v => valRejects h v.toNat
  | .brev h v => valRejects h v.toNat
  | .extr h x => rej 0x04 (decide (h.ty.width ≤ x.lenM1.toNat ∨ h.ty.width ≤ x.pos.toNat))
  | .ins h x => rej 0x04 (decide (h.ty.width ≤ x.lenM1.toNat ∨ h.ty.width ≤ x.pos.toNat))
  | .cmp h x => valRejects h x.v.toNat ++ rej 0x04 (decide (x.cond = .un ∨ x.cond = .or))
  | .lea _ _ => []
  | .sat h x => valRejects h x.v.toNat
  | .ext h x => valRejects h x.v.toNat
  | .pack h x => valRejects h x.v.toNat
  | .unpk h x => valRejects h x.v.toNat
  | .swz h q => rej 0x04 (decide ((h.ty.lanes = 2 ∧ 4 ≤ q.toNat) ∨ (h.ty = .o8 ∧ q ≠ 0)))
  | .fadd h v => valRejects h v.toNat
  | .fsub h v => valRejects h v.toNat
  | .fmul h v => valRejects h v.toNat
  | .fma h v => valRejects h v.toNat
  | .fmin h v => valRejects h v.toNat
  | .fmax h v => valRejects h v.toNat
  | .fabs h v => valRejects h v.toNat
  | .fneg h v => valRejects h v.toNat
  | .fcmp h x => valRejects h x.v.toNat ++ rej 0x04 (!decide (x.cond ∈ [.eq, .ne, .lt, .le, .gt, .ge, .un, .or]))
  | .fdiv h v => valRejects h v.toNat
  | .fsqrt h v => valRejects h v.toNat
  | .frcp h v => valRejects h v.toNat
  | .frsq h v => valRejects h v.toNat
  | .fexp2 h v => valRejects h v.toNat
  | .flog2 h v => valRejects h v.toNat
  | .ftanh h v => valRejects h v.toNat
  | .fscl h v => valRejects h v.toNat
  | .fcls h v => valRejects h v.toNat
  | .frnd h x => cvtRejects [h.ty] false x
  | .fcvt _ x => cvtRejects (.o8 :: Ty.floats) false x
  | .itof _ x => cvtRejects Ty.ints false x
  | .ftoi _ x => cvtRejects Ty.floats false x
  | .qpack _ x => cvtRejects Ty.floats true x
  | .qunpk _ x => cvtRejects [.o8] true x
  | .dot _ => []
  | .key _ => []
  | .noise _ => []
  | .red h op => oprRejects h op
  | .scan h op => oprRejects h op
  | .shuf h v => valRejects h v.toNat
  | .bcast _ => []
  | .idx _ => []
  | .tap _ x => barRejects false x
  | .binit _ x => barRejects false x
  | .barr _ x => barRejects false x
  | .bwait _ x => barRejects false x
  | .bsync _ x => barRejects false x
  | .bred _ x => barRejects true x
  | .bwaitd _ x => barRejects false x
  | .enq _ => []
  | .yield _ => []
  | .fopen _ => []
  | .fclose _ => []
  | .fwait _ => []
  | .waitc _ => []
  | .ld _ x => memRejects true true true true x
  | .st _ x => memRejects true true false true x
  | .ldx _ x => memRejects true true true false x
  | .stx _ x => memRejects true true false false x
  | .ldf _ x => memRejects false true false false x
  | .ldfk _ x => memRejects false true false false x
  | .ste _ x => memRejects false true false false x
  | .stf _ x => memRejects false true false false x
  | .feset _ x => memRejects false true false false x
  | .atom h x => rej 0x05 (decide (h.ty = .f) && !decide (x.aop ∈ [.cas, .swp, .add, .minS, .maxS]))
  | .upd _ x => memRejects true false false false x
  | .pref _ x => memRejects true false true false x
  | .flush _ x => memRejects true false false false x
  | .waitm _ x => memRejects true false false false x
  | .tdef _ x => tileRejects false x
  | .tfree _ x => tileRejects false x
  | .tready _ x => tileRejects false x
  | .tstate _ x => tileRejects false x
  | .tld _ x => tileRejects true x
  | .tst _ x => tileRejects false x
  | .bankmode _ x => rej 0x04 (decide (x.bank.toNat < 2))
  | .send h x => engRejects h false false x
  | .copy h _ x => engRejects h false false x
  | .copy2In h _ x => engRejects h true false x
  | .copy2Out h _ x => engRejects h false true x
  | .gath h x => engRejects h true false x
  | .scat h x => engRejects h false true x
  | .cfill h x => engRejects h false false x
  | .put h x => engRejects h false false x
  | .get h x => engRejects h false false x
  | .ldw h x => engRejects h false true x
  | .swapw h x => engRejects h false false x
  | .mma h x => engRejects h false true x
  | .accrd h x => engRejects h true false x
  | .accz h x => engRejects h false false x
  | .mmaw h x => engRejects h true true x
  | .roteOpen h x => engRejects h false false x
  | .roteAppend h x => engRejects h false false x
  | .rotePropose h x => engRejects h false false x
  | .roteStat h x => engRejects h false false x
  | .roteSave h x => engRejects h false false x
  | .roteLoad h x => engRejects h false false x
  | .roteClose h x => engRejects h false false x
  | .yardDefine h x => engRejects h false false x
  | .yardApply h x => engRejects h false false x
  | .yardReset h x => engRejects h false false x
  | .yardStat h x => engRejects h false false x
  | .yardClose h x => engRejects h false false x
  | .tree h x => engRejects h false false x
  | .accept h x => engRejects h false false x
  | .trap _ _ => []
  | .rdsr _ r => rej 0x04 (!sregAssigned r.toNat)
  | .wrsr _ r => rej 0x04 (!sregWritable r.toNat)
  | .patch _ => []
  | .switch _ => []
  | .freeze _ => []
  | .thaw _ => []
  | .tlbi _ _ => []
  | .pmap _ => []
  | .abort _ => []

/-- The BADBLOCK subcodes that an instruction's own word draws (R72, R311, R377, R437); empty for an event. -/
def Instr.rejects (i : Instr) : List Nat :=
  match i.info, i.hdr with
  | some p, some h => i.immRejects ++ h.rejects p
  | _, _ => []

end Sys2Proof
end

