-- ==== Sys2Proof/WellFormed.lean ====
section
/-! DEFINITION. Well-formed instructions: those whose word no condition of R72, R311, R377 or R437 rejects by
itself. An event row is well formed. -/

namespace Sys2Proof

/-- No condition on the instruction's own word rejects it. -/
def Instr.wf (i : Instr) : Bool := i.rejects.isEmpty

/-- The instruction rows, which have a word; the event rows have none. -/
def Instr.isWord (i : Instr) : Bool := i.info.isSome

end Sys2Proof
end

