-- ==== Sys2Proof/Decode.lean ====
section
/-! DEFINITION. The instruction word: field layout (R52, R53), coded fields (R54, R60–R62), immediate layouts (R58),
opcode map (R63). `decode` reads any word and rejects by name; `encode` forms the word of an instruction. -/

namespace Sys2Proof

/-- Why a word is no instruction: an unassigned opcode (0x03), a reserved bit or code (0x04), or the lowest other
subcode that its fields draw (R72). -/
inductive Reject where
  | opcode
  | reserved
  | type
  | control
  | target
  | barrier
  | short
  | other (subcode : Nat)
  deriving DecidableEq, Repr

/-- The BADBLOCK subcode of a rejection (R72); a word cut short has none. -/
def Reject.subcode : Reject → Nat
  | .opcode => 0x03 | .reserved => 0x04 | .type => 0x05 | .control => 0x06 | .target => 0x07
  | .barrier => 0x12 | .short => 0 | .other n => n

/-- The rejection named by a subcode. -/
def Reject.ofSubcode (n : Nat) : Reject :=
  if n = 0x03 then .opcode else if n = 0x04 then .reserved else if n = 0x05 then .type
  else if n = 0x06 then .control else if n = 0x07 then .target else if n = 0x12 then .barrier else .other n

/-- What an accepted word holds: an instruction row, or `NOP`, which never fires (R137). -/
inductive Item where
  | instr (i : Instr)
  | nop (h : Hdr)
  deriving DecidableEq, Repr

/-! Coded fields -/

/-- TY codes (R54). -/
def Ty.code : Ty → BitVec 3
  | .q => 0
  | .d2 => 1
  | .f2 => 2
  | .b4 => 3
  | .h4 => 4
  | .w4 => 5
  | .o8 => 6
  | .f => 7

/-- Ty read from its code; a reserved code is none. -/
def Ty.ofCode (b : BitVec 3) : Option Ty :=
  match b.toNat with
  | 0 => some .q
  | 1 => some .d2
  | 2 => some .f2
  | 3 => some .b4
  | 4 => some .h4
  | 5 => some .w4
  | 6 => some .o8
  | _ => some .f

/-- EP codes (R23). -/
def Ep.code : Ep → BitVec 2
  | .absorb => 0
  | .forward => 1
  | .replace => 2
  | .trap => 3

/-- Ep read from its code; a reserved code is none. -/
def Ep.ofCode (b : BitVec 2) : Option Ep :=
  match b.toNat with
  | 0 => some .absorb
  | 1 => some .forward
  | 2 => some .replace
  | _ => some .trap

/-- Slot codes (R53). -/
def Slot.code : Slot → BitVec 2
  | .a => 0
  | .b => 1
  | .c => 2
  | .p => 3

/-- Slot read from its code; a reserved code is none. -/
def Slot.ofCode (b : BitVec 2) : Option Slot :=
  match b.toNat with
  | 0 => some .a
  | 1 => some .b
  | 2 => some .c
  | _ => some .p

/-- COND codes (R60). -/
def Cond.code : Cond → BitVec 4
  | .eq => 0
  | .ne => 1
  | .lt => 2
  | .le => 3
  | .gt => 4
  | .ge => 5
  | .lo => 6
  | .ls => 7
  | .hi => 8
  | .hs => 9
  | .un => 10
  | .or => 11

/-- Cond read from its code; a reserved code is none. -/
def Cond.ofCode (b : BitVec 4) : Option Cond :=
  match b.toNat with
  | 0 => some .eq
  | 1 => some .ne
  | 2 => some .lt
  | 3 => some .le
  | 4 => some .gt
  | 5 => some .ge
  | 6 => some .lo
  | 7 => some .ls
  | 8 => some .hi
  | 9 => some .hs
  | 10 => some .un
  | 11 => some .or
  | _ => none

/-- OPR codes (R62). -/
def Opr.code : Opr → BitVec 5
  | .add => 0
  | .minS => 1
  | .maxS => 2
  | .minZ => 3
  | .maxZ => 4
  | .and => 5
  | .or => 6
  | .xor => 7
  | .fadd => 8
  | .fmin => 9
  | .fmax => 10

/-- Opr read from its code; a reserved code is none. -/
def Opr.ofCode (b : BitVec 5) : Option Opr :=
  match b.toNat with
  | 0 => some .add
  | 1 => some .minS
  | 2 => some .maxS
  | 3 => some .minZ
  | 4 => some .maxZ
  | 5 => some .and
  | 6 => some .or
  | 7 => some .xor
  | 8 => some .fadd
  | 9 => some .fmin
  | 10 => some .fmax
  | _ => none

/-- CLASS codes (R61). -/
def Cls.code : Cls → BitVec 2
  | .random => 0
  | .streaming => 1
  | .ordered => 2

/-- Cls read from its code; a reserved code is none. -/
def Cls.ofCode (b : BitVec 2) : Option Cls :=
  match b.toNat with
  | 0 => some .random
  | 1 => some .streaming
  | 2 => some .ordered
  | _ => none

/-- AOP codes (R61). -/
def Aop.code : Aop → BitVec 4
  | .cas => 0
  | .swp => 1
  | .add => 2
  | .and => 3
  | .or => 4
  | .xor => 5
  | .minS => 6
  | .maxS => 7
  | .minZ => 8
  | .maxZ => 9

/-- Aop read from its code; a reserved code is none. -/
def Aop.ofCode (b : BitVec 4) : Option Aop :=
  match b.toNat with
  | 0 => some .cas
  | 1 => some .swp
  | 2 => some .add
  | 3 => some .and
  | 4 => some .or
  | 5 => some .xor
  | 6 => some .minS
  | 7 => some .maxS
  | 8 => some .minZ
  | 9 => some .maxZ
  | _ => none

/-- MODE codes (R61). -/
def Mode.code : Mode → BitVec 2
  | .cache => 0
  | .scratch => 1
  | .fifo => 2

/-- Mode read from its code; a reserved code is none. -/
def Mode.ofCode (b : BitVec 2) : Option Mode :=
  match b.toNat with
  | 0 => some .cache
  | 1 => some .scratch
  | 2 => some .fifo
  | _ => none

/-- SCOPE codes (R62). -/
def Scope.code : Scope → BitVec 3
  | .core => 0
  | .quad => 1
  | .die => 2
  | .package => 3
  | .pod => 4

/-- Scope read from its code; a reserved code is none. -/
def Scope.ofCode (b : BitVec 3) : Option Scope :=
  match b.toNat with
  | 0 => some .core
  | 1 => some .quad
  | 2 => some .die
  | 3 => some .package
  | 4 => some .pod
  | _ => none

/-- BOP codes (R62). -/
def Bop.code : Bop → BitVec 2
  | .add => 0
  | .max => 1
  | .min => 2

/-- Bop read from its code; a reserved code is none. -/
def Bop.ofCode (b : BitVec 2) : Option Bop :=
  match b.toNat with
  | 0 => some .add
  | 1 => some .max
  | 2 => some .min
  | _ => none

/-- RND codes (R62). -/
def Rnd.code : Rnd → BitVec 3
  | .fpc => 0
  | .rne => 4
  | .rtz => 5
  | .rup => 6
  | .rdn => 7

/-- Rnd read from its code; a reserved code is none. -/
def Rnd.ofCode (b : BitVec 3) : Option Rnd :=
  match b.toNat with
  | 0 => some .fpc
  | 4 => some .rne
  | 5 => some .rtz
  | 6 => some .rup
  | 7 => some .rdn
  | _ => none

/-- QT codes (R104). -/
def Qt.code : Qt → BitVec 2
  | .uniform => 0
  | .e2m1 => 1
  | .pow2 => 2
  | .hybrid => 3

/-- Qt read from its code; a reserved code is none. -/
def Qt.ofCode (b : BitVec 2) : Option Qt :=
  match b.toNat with
  | 0 => some .uniform
  | 1 => some .e2m1
  | 2 => some .pow2
  | _ => some .hybrid

/-- A one-bit field. -/
def boolBit (b : Bool) : BitVec 1 := BitVec.ofBool b

/-- A one-bit field read. -/
def bitBool (b : BitVec 1) : Bool := b.getLsbD 0

/-- A target field (R53). -/
def Target.bits : Option Target → BitVec 10
  | none => 0
  | some t => (1 : BitVec 1) ++ t.index ++ t.slot.code

/-- A target field read: with V = 0 the other bits are zero (R53). -/
def Target.ofBits (b : BitVec 10) : Option (Option Target) :=
  if b.getLsbD 9 then
    (Slot.ofCode (b.extractLsb' 0 2)).map fun s => some ⟨b.extractLsb' 2 7, s⟩
  else if b = 0 then some none else none

/-! Immediate layouts (R58) -/

/-- The none layout. -/
def immNone (b : BitVec 21) : Option Unit := if b = 0 then some () else none

/-- A layout of the low `n` bits, the others reserved. -/
def immLow (n : Nat) (b : BitVec 21) : Option (BitVec n) :=
  if b.toNat < 2 ^ n then some (b.setWidth n) else none

/-- Signed value. -/
def SValImm.bits (x : SValImm) : BitVec 21 := boolBit x.z ++ x.v
/-- Signed value read. -/
def SValImm.ofBits (b : BitVec 21) : Option SValImm := some ⟨bitBool (b.extractLsb' 20 1), b.extractLsb' 0 20⟩

/-- Compare. -/
def CmpImm.bits (x : CmpImm) : BitVec 21 := x.v ++ x.cond.code
/-- Compare read. -/
def CmpImm.ofBits (b : BitVec 21) : Option CmpImm :=
  (Cond.ofCode (b.extractLsb' 0 4)).map fun c => ⟨b.extractLsb' 4 17, c⟩

/-- Address. -/
def AddrImm.bits (x : AddrImm) : BitVec 21 := x.scale ++ x.disp
/-- Address read. -/
def AddrImm.ofBits (b : BitVec 21) : Option AddrImm := some ⟨b.extractLsb' 18 3, b.extractLsb' 0 18⟩

/-- Bitfield. -/
def FieldImm.bits (x : FieldImm) : BitVec 21 := (0 : BitVec 9) ++ x.lenM1 ++ x.pos
/-- Bitfield read. -/
def FieldImm.ofBits (b : BitVec 21) : Option FieldImm :=
  if b.extractLsb' 12 9 = 0 then some ⟨b.extractLsb' 6 6, b.extractLsb' 0 6⟩ else none

/-- Convert. -/
def CvtImm.bits (x : CvtImm) : BitVec 21 :=
  x.src.code ++ boolBit x.u ++ x.rnd.code ++ x.qt.code ++ (0 : BitVec 12)
/-- Convert read. -/
def CvtImm.ofBits (b : BitVec 21) : Option CvtImm :=
  match Ty.ofCode (b.extractLsb' 18 3), Rnd.ofCode (b.extractLsb' 14 3), Qt.ofCode (b.extractLsb' 12 2) with
  | some t, some r, some q =>
    if b.extractLsb' 0 12 = 0 then some ⟨t, bitBool (b.extractLsb' 17 1), r, q⟩ else none
  | _, _, _ => none

/-- Loop. -/
def LoopImm.bits (x : LoopImm) : BitVec 21 := boolBit x.join ++ x.gate ++ (0 : BitVec 7) ++ x.win
/-- Loop read. -/
def LoopImm.ofBits (b : BitVec 21) : Option LoopImm :=
  if b.extractLsb' 6 7 = 0 then some ⟨bitBool (b.extractLsb' 20 1), b.extractLsb' 13 7, b.extractLsb' 0 6⟩ else none

/-- Kill. -/
def KillImm.bits (x : KillImm) : BitVec 21 := (0 : BitVec 12) ++ x.index ++ x.slot.code
/-- Kill read. -/
def KillImm.ofBits (b : BitVec 21) : Option KillImm :=
  if b.extractLsb' 9 12 = 0 then (Slot.ofCode (b.extractLsb' 0 2)).map fun s => ⟨b.extractLsb' 2 7, s⟩ else none

/-- Indirect exit. -/
def JumpImm.bits (x : JumpImm) : BitVec 21 := (0 : BitVec 10) ++ x.ret ++ (0 : BitVec 4) ++ x.table
/-- Indirect exit read. -/
def JumpImm.ofBits (b : BitVec 21) : Option JumpImm :=
  if b.extractLsb' 11 10 = 0 ∧ b.extractLsb' 4 4 = 0 then some ⟨b.extractLsb' 8 3, b.extractLsb' 0 4⟩ else none

/-- Memory. -/
def MemImm.bits (x : MemImm) : BitVec 21 := x.msn ++ x.cls.code ++ boolBit x.l ++ x.off
/-- Memory read. -/
def MemImm.ofBits (b : BitVec 21) : Option MemImm :=
  (Cls.ofCode (b.extractLsb' 12 2)).map fun c =>
    ⟨b.extractLsb' 14 7, c, bitBool (b.extractLsb' 11 1), b.extractLsb' 0 11⟩

/-- Atomic. -/
def AtomImm.bits (x : AtomImm) : BitVec 21 := x.msn ++ x.aop.code ++ x.off
/-- Atomic read. -/
def AtomImm.ofBits (b : BitVec 21) : Option AtomImm :=
  (Aop.ofCode (b.extractLsb' 10 4)).map fun c => ⟨b.extractLsb' 14 7, c, b.extractLsb' 0 10⟩

/-- Tile. -/
def TileImm.bits (x : TileImm) : BitVec 21 := x.msn ++ (0 : BitVec 9) ++ boolBit x.keep ++ x.tile
/-- Tile read. -/
def TileImm.ofBits (b : BitVec 21) : Option TileImm :=
  if b.extractLsb' 5 9 = 0 then some ⟨b.extractLsb' 14 7, bitBool (b.extractLsb' 4 1), b.extractLsb' 0 4⟩ else none

/-- Bank. -/
def BankImm.bits (x : BankImm) : BitVec 21 := x.msn ++ (0 : BitVec 8) ++ x.mode.code ++ x.bank
/-- Bank read. -/
def BankImm.ofBits (b : BitVec 21) : Option BankImm :=
  if b.extractLsb' 6 8 = 0 then
    (Mode.ofCode (b.extractLsb' 4 2)).map fun m => ⟨b.extractLsb' 14 7, m, b.extractLsb' 0 4⟩
  else none

/-- Operator. -/
def Opr.bits (x : Opr) : BitVec 21 := x.code ++ (0 : BitVec 16)
/-- Operator read. -/
def Opr.ofBits (b : BitVec 21) : Option Opr :=
  if b.extractLsb' 0 16 = 0 then Opr.ofCode (b.extractLsb' 16 5) else none

/-- Barrier. -/
def BarImm.bits (x : BarImm) : BitVec 21 := x.scope.code ++ x.bid ++ x.bop.code ++ boolBit x.u ++ (0 : BitVec 9)
/-- Barrier read. -/
def BarImm.ofBits (b : BitVec 21) : Option BarImm :=
  match Scope.ofCode (b.extractLsb' 18 3), Bop.ofCode (b.extractLsb' 10 2) with
  | some s, some o =>
    if b.extractLsb' 0 9 = 0 then some ⟨s, b.extractLsb' 12 6, o, bitBool (b.extractLsb' 9 1)⟩ else none
  | _, _ => none

/-- Engine, with SUBOP given by the instruction. -/
def EngImm.bits (sub : BitVec 5) (x : EngImm) : BitVec 21 :=
  sub ++ boolBit x.done ++ (0 : BitVec 3) ++ x.td ++ (0 : BitVec 4) ++ x.ts1
/-- Engine read: SUBOP and the fields; TS2 is used by no instruction (R376). -/
def EngImm.ofBits (b : BitVec 21) : Option (BitVec 5 × EngImm) :=
  if b.extractLsb' 12 3 = 0 ∧ b.extractLsb' 4 4 = 0 then
    some (b.extractLsb' 16 5, ⟨bitBool (b.extractLsb' 15 1), b.extractLsb' 8 4, b.extractLsb' 0 4⟩)
  else none

/-- The engine layout with a SUBOP of 0. -/
def engPlain (b : BitVec 21) : Option EngImm :=
  match EngImm.ofBits b with
  | some (sub, x) => if sub = 0 then some x else none
  | none => none

/-- Invalidate. -/
def TlbiImm.bits (x : TlbiImm) : BitVec 21 := (0 : BitVec 19) ++ boolBit x.replay ++ boolBit x.all
/-- Invalidate read. -/
def TlbiImm.ofBits (b : BitVec 21) : Option TlbiImm :=
  if b.extractLsb' 2 19 = 0 then some ⟨bitBool (b.extractLsb' 1 1), bitBool (b.extractLsb' 0 1)⟩ else none

/-- Fork: TC and TD. -/
def forkBits (tc td : Option Target) : BitVec 21 := (0 : BitVec 1) ++ Target.bits tc ++ Target.bits td
/-- Fork read. -/
def forkOfBits (b : BitVec 21) : Option (Option Target × Option Target) :=
  if b.extractLsb' 20 1 = 0 then
    match Target.ofBits (b.extractLsb' 10 10), Target.ofBits (b.extractLsb' 0 10) with
    | some tc, some td => some (tc, td)
    | _, _ => none
  else none

/-! The word (R52) -/

/-- The word of an instruction: opcode, header, EF and IMM. -/
def assemble (op : BitVec 8) (h : Hdr) (ef : Bool) (imm : BitVec 21) : Word :=
  op ++ h.rm ++ h.ty.code ++ boolBit ef ++ h.ep.code ++ boolBit h.im ++ boolBit h.pv ++ boolBit h.pp
    ++ Target.bits h.ta ++ Target.bits h.tb ++ imm

/-- OP of a word. -/
def wordOp (w : Word) : BitVec 8 := w.extractLsb' 56 8
/-- EF of a word. -/
def wordEf (w : Word) : Bool := bitBool (w.extractLsb' 46 1)
/-- IMM of a word. -/
def wordImm (w : Word) : BitVec 21 := w.extractLsb' 0 21

/-- The header of a word: none when an absent target's bits are not zero (R53). Such a word draws subcode 0x04, the model's
choice (log 74). -/
def wordHdr (w : Word) : Option Hdr :=
  match Ty.ofCode (w.extractLsb' 47 3), Ep.ofCode (w.extractLsb' 44 2), Target.ofBits (w.extractLsb' 31 10),
      Target.ofBits (w.extractLsb' 21 10) with
  | some ty, some ep, some ta, some tb =>
    some ⟨w.extractLsb' 50 6, ty, ep, bitBool (w.extractLsb' 43 1), bitBool (w.extractLsb' 42 1),
      bitBool (w.extractLsb' 41 1), ta, tb⟩
  | _, _, _, _ => none

/-- `COPY` by SUBOP (R62, R376). -/
def buildCopy (h : Hdr) (b : BitVec 21) : Option Item :=
  match EngImm.ofBits b with
  | some (0, x) => some (.instr (.copy h false x))
  | some (1, x) => some (.instr (.copy h true x))
  | _ => none

/-- `COPY2` by SUBOP: bit 0 is DIR, bit 1 DEC. -/
def buildCopy2 (h : Hdr) (b : BitVec 21) : Option Item :=
  match EngImm.ofBits b with
  | some (0, x) => some (.instr (.copy2In h false x))
  | some (1, x) => some (.instr (.copy2Out h false x))
  | some (2, x) => some (.instr (.copy2In h true x))
  | some (3, x) => some (.instr (.copy2Out h true x))
  | _ => none

/-- `ROTE` by SUBOP. -/
def buildRote (h : Hdr) (b : BitVec 21) : Option Item :=
  match EngImm.ofBits b with
  | some (0, x) => some (.instr (.roteOpen h x))
  | some (1, x) => some (.instr (.roteAppend h x))
  | some (2, x) => some (.instr (.rotePropose h x))
  | some (3, x) => some (.instr (.roteStat h x))
  | some (4, x) => some (.instr (.roteSave h x))
  | some (5, x) => some (.instr (.roteLoad h x))
  | some (6, x) => some (.instr (.roteClose h x))
  | _ => none

/-- `YARD` by SUBOP. -/
def buildYard (h : Hdr) (b : BitVec 21) : Option Item :=
  match EngImm.ofBits b with
  | some (0, x) => some (.instr (.yardDefine h x))
  | some (1, x) => some (.instr (.yardApply h x))
  | some (2, x) => some (.instr (.yardReset h x))
  | some (3, x) => some (.instr (.yardStat h x))
  | some (4, x) => some (.instr (.yardClose h x))
  | _ => none

/-- The assigned opcodes (R63). -/
def opAssigned (op : Nat) : Bool :=
  decide (op ≤ 0x1A ∨ (0x20 ≤ op ∧ op ≤ 0x3F) ∨ (0x50 ≤ op ∧ op ≤ 0x6A) ∨ (0x80 ≤ op ∧ op ≤ 0x91)
    ∨ (0xA0 ≤ op ∧ op ≤ 0xB4) ∨ (0xC0 ≤ op ∧ op ≤ 0xD1) ∨ (0xE0 ≤ op ∧ op ≤ 0xE9))

/-- The instruction of an opcode, header, EF and IMM: none when a reserved bit or code is set. -/
def build (op : Nat) (h : Hdr) (ef : Bool) (b : BitVec 21) : Option Item :=
  match op with
  | 0x00 => (immLow 16 b).map fun x => .instr (.land h x)
  | 0x01 => (immLow 6 b).map fun x => .instr (.read h x)
  | 0x02 => (immLow 6 b).map fun x => .instr (.write h x)
  | 0x03 => some (.instr (.const h b))
  | 0x04 => (immLow 5 b).map fun x => .instr (.kpool h x)
  | 0x05 => some (.instr (.mov h b))
  | 0x06 => (forkOfBits b).map fun x => .instr (.fork h x.1 x.2)
  | 0x07 => (immNone b).map fun _ => .instr (.sel h ef)
  | 0x08 => (immNone b).map fun _ => .instr (.steer h)
  | 0x09 => (immNone b).map fun _ => .instr (.merge h)
  | 0x0A => (immNone b).map fun _ => .instr (.jand h ef)
  | 0x0B => (immNone b).map fun _ => .instr (.jor h ef)
  | 0x0C => (immNone b).map fun _ => .instr (.jall h)
  | 0x0D => (LoopImm.ofBits b).map fun x => .instr (.carry h x)
  | 0x0E => (LoopImm.ofBits b).map fun x => .instr (.loopin h x)
  | 0x0F => (LoopImm.ofBits b).map fun x => .instr (.loopout h x)
  | 0x10 => (KillImm.ofBits b).map fun x => .instr (.kill h x)
  | 0x11 => (immNone b).map fun _ => .instr (.drop h)
  | 0x12 => (immLow 16 b).map fun x => .instr (.gen h x)
  | 0x13 => (immNone b).map fun _ => .instr (.cnt h)
  | 0x14 => (immNone b).map fun _ => .instr (.iter h)
  | 0x15 => (immLow 3 b).map fun x => .instr (.exit h x)
  | 0x16 => (JumpImm.ofBits b).map fun x => .instr (.exiti h x)
  | 0x17 => (immLow 3 b).map fun x => .instr (.call h x)
  | 0x18 => (JumpImm.ofBits b).map fun x => .instr (.calli h x)
  | 0x19 => (immNone b).map fun _ => .instr (.ret h)
  | 0x1A => (immNone b).map fun _ => .nop h
  | 0x20 => some (.instr (.add h b))
  | 0x21 => some (.instr (.sub h b))
  | 0x22 => some (.instr (.mul h b))
  | 0x23 => (SValImm.ofBits b).map fun x => .instr (.mulh h x)
  | 0x24 => some (.instr (.mad h b))
  | 0x25 => (SValImm.ofBits b).map fun x => .instr (.div h x)
  | 0x26 => (SValImm.ofBits b).map fun x => .instr (.rem h x)
  | 0x27 => some (.instr (.neg h b))
  | 0x28 => some (.instr (.abs h b))
  | 0x29 => (SValImm.ofBits b).map fun x => .instr (.min h x)
  | 0x2A => (SValImm.ofBits b).map fun x => .instr (.max h x)
  | 0x2B => some (.instr (.and h b))
  | 0x2C => some (.instr (.or h b))
  | 0x2D => some (.instr (.xor h b))
  | 0x2E => some (.instr (.andn h b))
  | 0x2F => some (.instr (.not h b))
  | 0x30 => some (.instr (.shl h b))
  | 0x31 => (SValImm.ofBits b).map fun x => .instr (.shr h x)
  | 0x32 => some (.instr (.rol h b))
  | 0x33 => some (.instr (.clz h b))
  | 0x34 => some (.instr (.ctz h b))
  | 0x35 => some (.instr (.popc h b))
  | 0x36 => some (.instr (.brev h b))
  | 0x37 => (FieldImm.ofBits b).map fun x => .instr (.extr h x)
  | 0x38 => (FieldImm.ofBits b).map fun x => .instr (.ins h x)
  | 0x39 => (CmpImm.ofBits b).map fun x => .instr (.cmp h x)
  | 0x3A => (AddrImm.ofBits b).map fun x => .instr (.lea h x)
  | 0x3B => (SValImm.ofBits b).map fun x => .instr (.sat h x)
  | 0x3C => (SValImm.ofBits b).map fun x => .instr (.ext h x)
  | 0x3D => (SValImm.ofBits b).map fun x => .instr (.pack h x)
  | 0x3E => (SValImm.ofBits b).map fun x => .instr (.unpk h x)
  | 0x3F => (immLow 8 b).map fun x => .instr (.swz h x)
  | 0x50 => some (.instr (.fadd h b))
  | 0x51 => some (.instr (.fsub h b))
  | 0x52 => some (.instr (.fmul h b))
  | 0x53 => some (.instr (.fma h b))
  | 0x54 => some (.instr (.fmin h b))
  | 0x55 => some (.instr (.fmax h b))
  | 0x56 => some (.instr (.fabs h b))
  | 0x57 => some (.instr (.fneg h b))
  | 0x58 => (CmpImm.ofBits b).map fun x => .instr (.fcmp h x)
  | 0x59 => some (.instr (.fdiv h b))
  | 0x5A => some (.instr (.fsqrt h b))
  | 0x5B => some (.instr (.frcp h b))
  | 0x5C => some (.instr (.frsq h b))
  | 0x5D => some (.instr (.fexp2 h b))
  | 0x5E => some (.instr (.flog2 h b))
  | 0x5F => some (.instr (.ftanh h b))
  | 0x60 => some (.instr (.fscl h b))
  | 0x61 => some (.instr (.fcls h b))
  | 0x62 => (CvtImm.ofBits b).map fun x => .instr (.frnd h x)
  | 0x63 => (CvtImm.ofBits b).map fun x => .instr (.fcvt h x)
  | 0x64 => (CvtImm.ofBits b).map fun x => .instr (.itof h x)
  | 0x65 => (CvtImm.ofBits b).map fun x => .instr (.ftoi h x)
  | 0x66 => (CvtImm.ofBits b).map fun x => .instr (.qpack h x)
  | 0x67 => (CvtImm.ofBits b).map fun x => .instr (.qunpk h x)
  | 0x68 => (immNone b).map fun _ => .instr (.dot h)
  | 0x69 => (immNone b).map fun _ => .instr (.key h)
  | 0x6A => (immNone b).map fun _ => .instr (.noise h)
  | 0x80 => (Opr.ofBits b).map fun x => .instr (.red h x)
  | 0x81 => (Opr.ofBits b).map fun x => .instr (.scan h x)
  | 0x82 => some (.instr (.shuf h b))
  | 0x83 => (immNone b).map fun _ => .instr (.bcast h)
  | 0x84 => (BarImm.ofBits b).map fun x => .instr (.tap h x)
  | 0x85 => (BarImm.ofBits b).map fun x => .instr (.binit h x)
  | 0x86 => (BarImm.ofBits b).map fun x => .instr (.barr h x)
  | 0x87 => (BarImm.ofBits b).map fun x => .instr (.bwait h x)
  | 0x88 => (BarImm.ofBits b).map fun x => .instr (.bsync h x)
  | 0x89 => (BarImm.ofBits b).map fun x => .instr (.bred h x)
  | 0x8A => (BarImm.ofBits b).map fun x => .instr (.bwaitd h x)
  | 0x8B => (immNone b).map fun _ => .instr (.enq h)
  | 0x8C => (immNone b).map fun _ => .instr (.yield h)
  | 0x8D => (immNone b).map fun _ => .instr (.fopen h)
  | 0x8E => (immNone b).map fun _ => .instr (.fclose h)
  | 0x8F => (immNone b).map fun _ => .instr (.fwait h)
  | 0x90 => (immNone b).map fun _ => .instr (.waitc h)
  | 0x91 => (immNone b).map fun _ => .instr (.idx h)
  | 0xA0 => (MemImm.ofBits b).map fun x => .instr (.ld h x)
  | 0xA1 => (MemImm.ofBits b).map fun x => .instr (.st h x)
  | 0xA2 => (MemImm.ofBits b).map fun x => .instr (.ldx h x)
  | 0xA3 => (MemImm.ofBits b).map fun x => .instr (.stx h x)
  | 0xA4 => (MemImm.ofBits b).map fun x => .instr (.ldf h x)
  | 0xA5 => (MemImm.ofBits b).map fun x => .instr (.ldfk h x)
  | 0xA6 => (MemImm.ofBits b).map fun x => .instr (.ste h x)
  | 0xA7 => (MemImm.ofBits b).map fun x => .instr (.stf h x)
  | 0xA8 => (MemImm.ofBits b).map fun x => .instr (.feset h x)
  | 0xA9 => (AtomImm.ofBits b).map fun x => .instr (.atom h x)
  | 0xAA => (MemImm.ofBits b).map fun x => .instr (.upd h x)
  | 0xAB => (MemImm.ofBits b).map fun x => .instr (.pref h x)
  | 0xAC => (MemImm.ofBits b).map fun x => .instr (.flush h x)
  | 0xAD => (MemImm.ofBits b).map fun x => .instr (.waitm h x)
  | 0xAE => (TileImm.ofBits b).map fun x => .instr (.tdef h x)
  | 0xAF => (TileImm.ofBits b).map fun x => .instr (.tfree h x)
  | 0xB0 => (TileImm.ofBits b).map fun x => .instr (.tready h x)
  | 0xB1 => (TileImm.ofBits b).map fun x => .instr (.tstate h x)
  | 0xB2 => (TileImm.ofBits b).map fun x => .instr (.tld h x)
  | 0xB3 => (TileImm.ofBits b).map fun x => .instr (.tst h x)
  | 0xB4 => (BankImm.ofBits b).map fun x => .instr (.bankmode h x)
  | 0xC0 => (engPlain b).map fun x => .instr (.send h x)
  | 0xC1 => buildCopy h b
  | 0xC2 => buildCopy2 h b
  | 0xC3 => (engPlain b).map fun x => .instr (.gath h x)
  | 0xC4 => (engPlain b).map fun x => .instr (.scat h x)
  | 0xC5 => (engPlain b).map fun x => .instr (.cfill h x)
  | 0xC6 => (engPlain b).map fun x => .instr (.ldw h x)
  | 0xC7 => (engPlain b).map fun x => .instr (.swapw h x)
  | 0xC8 => (engPlain b).map fun x => .instr (.mma h x)
  | 0xC9 => (engPlain b).map fun x => .instr (.accrd h x)
  | 0xCA => (engPlain b).map fun x => .instr (.accz h x)
  | 0xCB => (engPlain b).map fun x => .instr (.mmaw h x)
  | 0xCC => buildRote h b
  | 0xCD => buildYard h b
  | 0xCE => (engPlain b).map fun x => .instr (.tree h x)
  | 0xCF => (engPlain b).map fun x => .instr (.accept h x)
  | 0xD0 => (engPlain b).map fun x => .instr (.put h x)
  | 0xD1 => (engPlain b).map fun x => .instr (.get h x)
  | 0xE0 => (immLow 8 b).map fun x => .instr (.trap h x)
  | 0xE1 => (immLow 6 b).map fun x => .instr (.rdsr h x)
  | 0xE2 => (immLow 6 b).map fun x => .instr (.wrsr h x)
  | 0xE3 => (immNone b).map fun _ => .instr (.patch h)
  | 0xE4 => (immNone b).map fun _ => .instr (.switch h)
  | 0xE5 => (immNone b).map fun _ => .instr (.freeze h)
  | 0xE6 => (immNone b).map fun _ => .instr (.thaw h)
  | 0xE7 => (TlbiImm.ofBits b).map fun x => .instr (.tlbi h x)
  | 0xE8 => (immNone b).map fun _ => .instr (.pmap h)
  | 0xE9 => (immNone b).map fun _ => .instr (.abort h)
  | _ => none

/-- The fields of a word as an instruction or `NOP`; none when a reserved bit or code is set. -/
def rawDecode (w : Word) : Option Item :=
  match wordHdr w with
  | some h => build (wordOp w).toNat h (wordEf w) (wordImm w)
  | none => none

/-- EF may be 1 on `SEL`, `JAND` and `JOR` only (R52). -/
def efAllowed (op : Nat) : Bool := decide (op = 0x07 ∨ op = 0x0A ∨ op = 0x0B)

/-- The properties of `NOP` (R64, R127). -/
def nopInfo : OpInfo := ⟨0x1A, [.q], [], [], false, false, false, false, false⟩

/-- The conditions an accepted item still breaks. -/
def Item.rejects : Item → List Nat
  | .instr i => i.rejects
  | .nop h => h.rejects nopInfo

/-- Every BADBLOCK subcode that a word draws by itself (R72, R311, R377, R437). -/
def wordFaults (w : Word) : List Nat :=
  if !opAssigned (wordOp w).toNat then [0x03]
  else match rawDecode w with
    | none => [0x04]
    | some it => rej 0x06 (wordEf w && !efAllowed (wordOp w).toNat) ++ it.rejects

/-- The least element of a list of subcodes. -/
def leastCode : List Nat → Option Nat
  | [] => none
  | c :: cs => match leastCode cs with
    | none => some c
    | some d => some (min c d)

/-- A word read as an item, or the rejection with the lowest subcode (R72). -/
def decodeWord (w : Word) : Except Reject Item :=
  match leastCode (wordFaults w) with
  | some c => .error (.ofSubcode c)
  | none => match rawDecode w with
    | some it => .ok it
    | none => .error .reserved

/-- The instruction row that a word encodes. -/
def decode (w : Word) : Option Instr :=
  match decodeWord w with
  | .ok (.instr i) => some i
  | _ => none

/-- A little-endian number (R4). -/
def leNat : List Byte → Nat
  | [] => 0
  | b :: bs => b.toNat + 256 * leNat bs

/-- Decoding a byte string: eight bytes make a word, and the rest is returned. -/
def decodeBytes (bs : List Byte) : Except Reject (Item × List Byte) :=
  if bs.length < 8 then .error .short
  else match decodeWord (BitVec.ofNat 64 (leNat (bs.take 8))) with
    | .ok it => .ok (it, bs.drop 8)
    | .error e => .error e

/-- The decoder read through the opcode table's bit numbering: one 64-bit little-endian word. -/
def decodeTableWord (nbits w : Nat) : Option Instr := decode (BitVec.ofNat 64 (w % 2 ^ nbits))

/-! The encoder -/

/-- The word of an instruction row, from R52 to R63; an event row has none. -/
def encode : Instr → List Word
  | .blockFetch _ => []
  | .commit _ => []
  | .antiTokenArrival _ _ _ _ => []
  | .loadReply _ _ => []
  | .storePerform _ _ => []
  | .translationWalk _ => []
  | .ptTick => []
  | .freezeWave _ => []
  | .freezeComplete _ => []
  | .thawResume _ => []
  | .switchAdopt _ _ => []
  | .queueTableChange _ => []
  | .pubObserved _ => []
  | .queueAppend _ => []
  | .dispatchPass => []
  | .budget _ => []
  | .sliceEnd _ => []
  | .barrierDeadline _ => []
  | .messageIssue _ _ => []
  | .operationReply _ => []
  | .copyOp _ _ => []
  | .copy2Op _ _ => []
  | .gathOp _ _ => []
  | .scatOp _ _ => []
  | .cfillOp _ _ => []
  | .putOp _ _ => []
  | .getOp _ _ => []
  | .ldwOp _ => []
  | .swapwOp _ => []
  | .mmaOp _ => []
  | .accrdOp _ => []
  | .acczOp _ => []
  | .mmawOp _ => []
  | .defineRegion _ => []
  | .applyRegion _ => []
  | .resetRegion _ => []
  | .statRegion _ => []
  | .closeRegion _ => []
  | .openContext _ => []
  | .appendTokens _ => []
  | .proposeDraft _ => []
  | .statRecord _ => []
  | .saveImage _ => []
  | .loadImage _ => []
  | .closeContext _ => []
  | .appendOp _ => []
  | .rupd _ _ _ _ _ => []
  | .renq _ _ _ _ => []
  | .radd _ _ _ _ => []
  | .ratom _ _ _ _ _ _ _ => []
  | .remoteRetransmit _ _ => []
  | .remoteUnreachable _ => []
  | .updateAccept _ _ => []
  | .yardfull _ => []
  | .waitmWake _ _ _ => []
  | .waitmTimeout _ _ => []
  | .errorDetected _ _ _ => []
  | .errorTestDone _ _ _ => []
  | .hostAccess _ _ _ _ _ => []
  | .mboxSensors => []
  | .mboxLog => []
  | .mboxAttest => []
  | .mboxFwstage => []
  | .mboxFwactivate => []
  | .mboxReset => []
  | .mboxTime => []
  | .powerGood => []
  | .bringupStage _ => []
  | .land h x => [assemble 0x00 h false (x.setWidth 21)]
  | .read h x => [assemble 0x01 h false (x.setWidth 21)]
  | .write h x => [assemble 0x02 h false (x.setWidth 21)]
  | .const h v => [assemble 0x03 h false v]
  | .kpool h x => [assemble 0x04 h false (x.setWidth 21)]
  | .mov h v => [assemble 0x05 h false v]
  | .fork h tc td => [assemble 0x06 h false (forkBits tc td)]
  | .sel h ef => [assemble 0x07 h ef 0]
  | .steer h => [assemble 0x08 h false 0]
  | .merge h => [assemble 0x09 h false 0]
  | .jand h ef => [assemble 0x0A h ef 0]
  | .jor h ef => [assemble 0x0B h ef 0]
  | .jall h => [assemble 0x0C h false 0]
  | .carry h x => [assemble 0x0D h false x.bits]
  | .loopin h x => [assemble 0x0E h false x.bits]
  | .loopout h x => [assemble 0x0F h false x.bits]
  | .kill h x => [assemble 0x10 h false x.bits]
  | .drop h => [assemble 0x11 h false 0]
  | .gen h x => [assemble 0x12 h false (x.setWidth 21)]
  | .cnt h => [assemble 0x13 h false 0]
  | .iter h => [assemble 0x14 h false 0]
  | .exit h x => [assemble 0x15 h false (x.setWidth 21)]
  | .exiti h x => [assemble 0x16 h false x.bits]
  | .call h x => [assemble 0x17 h false (x.setWidth 21)]
  | .calli h x => [assemble 0x18 h false x.bits]
  | .ret h => [assemble 0x19 h false 0]
  | .add h v => [assemble 0x20 h false v]
  | .sub h v => [assemble 0x21 h false v]
  | .mul h v => [assemble 0x22 h false v]
  | .mulh h x => [assemble 0x23 h false x.bits]
  | .mad h v => [assemble 0x24 h false v]
  | .div h x => [assemble 0x25 h false x.bits]
  | .rem h x => [assemble 0x26 h false x.bits]
  | .neg h v => [assemble 0x27 h false v]
  | .abs h v => [assemble 0x28 h false v]
  | .min h x => [assemble 0x29 h false x.bits]
  | .max h x => [assemble 0x2A h false x.bits]
  | .and h v => [assemble 0x2B h false v]
  | .or h v => [assemble 0x2C h false v]
  | .xor h v => [assemble 0x2D h false v]
  | .andn h v => [assemble 0x2E h false v]
  | .not h v => [assemble 0x2F h false v]
  | .shl h v => [assemble 0x30 h false v]
  | .shr h x => [assemble 0x31 h false x.bits]
  | .rol h v => [assemble 0x32 h false v]
  | .clz h v => [assemble 0x33 h false v]
  | .ctz h v => [assemble 0x34 h false v]
  | .popc h v => [assemble 0x35 h false v]
  | .brev h v => [assemble 0x36 h false v]
  | .extr h x => [assemble 0x37 h false x.bits]
  | .ins h x => [assemble 0x38 h false x.bits]
  | .cmp h x => [assemble 0x39 h false x.bits]
  | .lea h x => [assemble 0x3A h false x.bits]
  | .sat h x => [assemble 0x3B h false x.bits]
  | .ext h x => [assemble 0x3C h false x.bits]
  | .pack h x => [assemble 0x3D h false x.bits]
  | .unpk h x => [assemble 0x3E h false x.bits]
  | .swz h x => [assemble 0x3F h false (x.setWidth 21)]
  | .fadd h v => [assemble 0x50 h false v]
  | .fsub h v => [assemble 0x51 h false v]
  | .fmul h v => [assemble 0x52 h false v]
  | .fma h v => [assemble 0x53 h false v]
  | .fmin h v => [assemble 0x54 h false v]
  | .fmax h v => [assemble 0x55 h false v]
  | .fabs h v => [assemble 0x56 h false v]
  | .fneg h v => [assemble 0x57 h false v]
  | .fcmp h x => [assemble 0x58 h false x.bits]
  | .fdiv h v => [assemble 0x59 h false v]
  | .fsqrt h v => [assemble 0x5A h false v]
  | .frcp h v => [assemble 0x5B h false v]
  | .frsq h v => [assemble 0x5C h false v]
  | .fexp2 h v => [assemble 0x5D h false v]
  | .flog2 h v => [assemble 0x5E h false v]
  | .ftanh h v => [assemble 0x5F h false v]
  | .fscl h v => [assemble 0x60 h false v]
  | .fcls h v => [assemble 0x61 h false v]
  | .frnd h x => [assemble 0x62 h false x.bits]
  | .fcvt h x => [assemble 0x63 h false x.bits]
  | .itof h x => [assemble 0x64 h false x.bits]
  | .ftoi h x => [assemble 0x65 h false x.bits]
  | .qpack h x => [assemble 0x66 h false x.bits]
  | .qunpk h x => [assemble 0x67 h false x.bits]
  | .dot h => [assemble 0x68 h false 0]
  | .key h => [assemble 0x69 h false 0]
  | .noise h => [assemble 0x6A h false 0]
  | .red h x => [assemble 0x80 h false x.bits]
  | .scan h x => [assemble 0x81 h false x.bits]
  | .shuf h v => [assemble 0x82 h false v]
  | .bcast h => [assemble 0x83 h false 0]
  | .idx h => [assemble 0x91 h false 0]
  | .tap h x => [assemble 0x84 h false x.bits]
  | .binit h x => [assemble 0x85 h false x.bits]
  | .barr h x => [assemble 0x86 h false x.bits]
  | .bwait h x => [assemble 0x87 h false x.bits]
  | .bsync h x => [assemble 0x88 h false x.bits]
  | .bred h x => [assemble 0x89 h false x.bits]
  | .bwaitd h x => [assemble 0x8A h false x.bits]
  | .enq h => [assemble 0x8B h false 0]
  | .yield h => [assemble 0x8C h false 0]
  | .fopen h => [assemble 0x8D h false 0]
  | .fclose h => [assemble 0x8E h false 0]
  | .fwait h => [assemble 0x8F h false 0]
  | .waitc h => [assemble 0x90 h false 0]
  | .ld h x => [assemble 0xA0 h false x.bits]
  | .st h x => [assemble 0xA1 h false x.bits]
  | .ldx h x => [assemble 0xA2 h false x.bits]
  | .stx h x => [assemble 0xA3 h false x.bits]
  | .ldf h x => [assemble 0xA4 h false x.bits]
  | .ldfk h x => [assemble 0xA5 h false x.bits]
  | .ste h x => [assemble 0xA6 h false x.bits]
  | .stf h x => [assemble 0xA7 h false x.bits]
  | .feset h x => [assemble 0xA8 h false x.bits]
  | .atom h x => [assemble 0xA9 h false x.bits]
  | .upd h x => [assemble 0xAA h false x.bits]
  | .pref h x => [assemble 0xAB h false x.bits]
  | .flush h x => [assemble 0xAC h false x.bits]
  | .waitm h x => [assemble 0xAD h false x.bits]
  | .tdef h x => [assemble 0xAE h false x.bits]
  | .tfree h x => [assemble 0xAF h false x.bits]
  | .tready h x => [assemble 0xB0 h false x.bits]
  | .tstate h x => [assemble 0xB1 h false x.bits]
  | .tld h x => [assemble 0xB2 h false x.bits]
  | .tst h x => [assemble 0xB3 h false x.bits]
  | .bankmode h x => [assemble 0xB4 h false x.bits]
  | .send h x => [assemble 0xC0 h false (x.bits 0)]
  | .copy h dec x => [assemble 0xC1 h false (x.bits (if dec then 1 else 0))]
  | .copy2In h dec x => [assemble 0xC2 h false (x.bits (if dec then 2 else 0))]
  | .copy2Out h dec x => [assemble 0xC2 h false (x.bits (if dec then 3 else 1))]
  | .gath h x => [assemble 0xC3 h false (x.bits 0)]
  | .scat h x => [assemble 0xC4 h false (x.bits 0)]
  | .cfill h x => [assemble 0xC5 h false (x.bits 0)]
  | .put h x => [assemble 0xD0 h false (x.bits 0)]
  | .get h x => [assemble 0xD1 h false (x.bits 0)]
  | .ldw h x => [assemble 0xC6 h false (x.bits 0)]
  | .swapw h x => [assemble 0xC7 h false (x.bits 0)]
  | .mma h x => [assemble 0xC8 h false (x.bits 0)]
  | .accrd h x => [assemble 0xC9 h false (x.bits 0)]
  | .accz h x => [assemble 0xCA h false (x.bits 0)]
  | .mmaw h x => [assemble 0xCB h false (x.bits 0)]
  | .roteOpen h x => [assemble 0xCC h false (x.bits 0)]
  | .roteAppend h x => [assemble 0xCC h false (x.bits 1)]
  | .rotePropose h x => [assemble 0xCC h false (x.bits 2)]
  | .roteStat h x => [assemble 0xCC h false (x.bits 3)]
  | .roteSave h x => [assemble 0xCC h false (x.bits 4)]
  | .roteLoad h x => [assemble 0xCC h false (x.bits 5)]
  | .roteClose h x => [assemble 0xCC h false (x.bits 6)]
  | .yardDefine h x => [assemble 0xCD h false (x.bits 0)]
  | .yardApply h x => [assemble 0xCD h false (x.bits 1)]
  | .yardReset h x => [assemble 0xCD h false (x.bits 2)]
  | .yardStat h x => [assemble 0xCD h false (x.bits 3)]
  | .yardClose h x => [assemble 0xCD h false (x.bits 4)]
  | .tree h x => [assemble 0xCE h false (x.bits 0)]
  | .accept h x => [assemble 0xCF h false (x.bits 0)]
  | .trap h x => [assemble 0xE0 h false (x.setWidth 21)]
  | .rdsr h x => [assemble 0xE1 h false (x.setWidth 21)]
  | .wrsr h x => [assemble 0xE2 h false (x.setWidth 21)]
  | .patch h => [assemble 0xE3 h false 0]
  | .switch h => [assemble 0xE4 h false 0]
  | .freeze h => [assemble 0xE5 h false 0]
  | .thaw h => [assemble 0xE6 h false 0]
  | .tlbi h x => [assemble 0xE7 h false x.bits]
  | .pmap h => [assemble 0xE8 h false 0]
  | .abort h => [assemble 0xE9 h false 0]

end Sys2Proof
end

