-- ==== Sys2Proof/Machine/Table.lean ====
section
/-! DEFINITION. Sparse tables: a list of (key, value) pairs with strictly rising keys and no entry equal to what an
unlisted key reads as. Memory and every sparse part of State is one. -/

namespace Sys2Proof.Machine

/-- A sparse table. -/
abbrev Table (α : Type) := List (Nat × α)

/-- The value at key `k`, `d` when the key is not listed. -/
def Table.get {α : Type} (d : α) (t : Table α) (k : Nat) : α :=
  match t with
  | [] => d
  | (j, v) :: r => if j = k then v else Table.get d r k

/-- The table with the pair of `k` and `v` in the place of `k`. -/
def Table.put {α : Type} (t : Table α) (k : Nat) (v : α) : Table α :=
  match t with
  | [] => [(k, v)]
  | (j, w) :: r => if j < k then (j, w) :: Table.put r k v else if j = k then (k, v) :: r else (k, v) :: (j, w) :: r

/-- The table with value `v` at key `k`: an entry equal to the default is not kept. -/
def Table.set {α : Type} [DecidableEq α] (d : α) (t : Table α) (k : Nat) (v : α) : Table α :=
  if v = d then t.filter fun e => decide (e.1 ≠ k) else Table.put t k v

/-- Every key lies above `lo` and keys rise, and no entry holds the default. -/
def Table.wfFrom {α : Type} [DecidableEq α] (d : α) (lo : Nat) (t : Table α) : Bool :=
  match t with
  | [] => true
  | (j, v) :: r => decide (lo ≤ j) && decide (v ≠ d) && Table.wfFrom d (j + 1) r

/-- The canonical form of a table. -/
def Table.wf {α : Type} [DecidableEq α] (d : α) (t : Table α) : Bool := Table.wfFrom d 0 t

/-- The table without the keys in `[lo, hi)`. -/
def Table.clear {α : Type} (t : Table α) (lo hi : Nat) : Table α :=
  t.filter fun e => decide (e.1 < lo ∨ hi ≤ e.1)

/-- The entry at position `n` of a list changed by `f`. -/
def modAt {α : Type} (l : List α) (n : Nat) (f : α → α) : List α :=
  match l, n with
  | [], _ => []
  | a :: r, 0 => f a :: r
  | a :: r, n + 1 => a :: modAt r n f

/-- The list without position `n`. -/
def dropAt {α : Type} (l : List α) (n : Nat) : List α :=
  match l, n with
  | [], _ => []
  | _ :: r, 0 => r
  | a :: r, n + 1 => a :: dropAt r n

end Sys2Proof.Machine
end

