-- ==== Sys2Proof/Machine/State.lean ====
section
/-! DEFINITION. The state of one package, as plain data: what INVENTORY.md lists under State. -/

namespace Sys2Proof.Machine

/-! Tokens and stations -/

/-- A token (R17): tag is 4,096 × frame + iteration. -/
structure Tok where
  data : Word
  tag : Nat
  idx : Nat
  l : Bool
  e : Bool
  deriving DecidableEq, Repr

/-- An anti-token (R31): the (tag, element index) it cancels. -/
structure Anti where
  tag : Nat
  idx : Nat
  deriving DecidableEq, Repr

/-- An occupied data slot of an input buffer: a token with its number in arrival order, or a switch token (R426). -/
inductive Entry where
  | tok (t : Tok) (seq : Nat)
  | switch (gen : Nat)
  deriving DecidableEq, Repr

/-- A formed output that waits for arc room (R419 HELDOUT), with the targets it goes to. -/
inductive Out where
  | tok (t : Tok) (targets : List Nat)
  | switch (gen : Nat) (targets : List Nat)
  deriving DecidableEq, Repr

/-- `GEN`: a stream being generated (R421). -/
structure GenSt where
  tag : Nat
  count : Nat
  next : Nat
  deriving DecidableEq, Repr

/-- `CNT`: elements counted so far (R154). -/
structure CntSt where
  tag : Nat
  count : Nat
  deriving DecidableEq, Repr

/-- `STEER`: the held element and the next index of one output (R139); output 0 is TA, 1 is TB. -/
structure SteerSt where
  tag : Nat
  out : Nat
  held : Option Tok
  next : Nat
  deriving DecidableEq, Repr

/-- `CARRY`: whether it has fired for the iteration's element carrying L, and whether it has emitted for the next
iteration (R28, R148). -/
structure CarryRec where
  tag : Nat
  doneL : Bool
  emitted : Bool
  deriving DecidableEq, Repr

/-- A partial of the tree of R124 over `size` consecutive elements; none when every one of them is absent (R242). -/
structure Partial where
  size : Nat
  val : Option Word
  deriving DecidableEq, Repr

/-- `RED` and `SCAN`: the partials of one stream, latest first, and whether an empty element was forwarded (R242). -/
structure RedSt where
  tag : Nat
  parts : List Partial
  empty : Bool
  deriving DecidableEq, Repr

/-- `SHUF`: the held elements of a's stream and one more than the index of the last that arrived (R244). -/
structure ShufSt where
  tag : Nat
  held : List Tok
  got : Nat
  ended : Bool
  done : Bool
  deriving DecidableEq, Repr

/-- `QPACK` and `QUNPK`: values gathered and elements emitted so far (R181, R182). -/
structure PackSt where
  tag : Nat
  vals : List Word
  out : Nat
  deriving DecidableEq, Repr

/-- `TREE`: the depth stack and the masks of the nodes emitted (R373). -/
structure TreeSt where
  tag : Nat
  sp : Nat
  stack : List Nat
  masks : List Word
  deriving DecidableEq, Repr

/-- `ACCEPT`: a node of the tree (R398). -/
structure NodeEnt where
  j : Nat
  depth : Nat
  parent : Nat
  token : Nat
  deriving DecidableEq, Repr

/-- `ACCEPT`: a sample; node 0xFF is the root (R398). -/
structure Sample where
  node : Nat
  token : Nat
  deriving DecidableEq, Repr

/-- `ACCEPT`: what one tag holds (R399), with the verdict that is still to be emitted. -/
structure AcceptSt where
  tag : Nat
  cfg : Option Word
  nodes : List NodeEnt
  complete : Bool
  samples : List Sample
  accepted : List Nat
  rejected : List Nat
  verdict : Option (List Word)
  closed : Bool
  deriving DecidableEq, Repr

/-- A message instruction or `FOPEN`: the operands gathered for one tag (R378, R253). -/
structure GatherSt where
  tag : Nat
  early : List Word
  elems : List Word
  skip : Bool
  forward : Bool
  deriving DecidableEq, Repr

/-- The extended state of a station (R421). -/
inductive Ext where
  | plain
  | gen (l : List GenSt)
  | cnt (l : List CntSt)
  | steer (l : List SteerSt)
  | carry (held : List Tok) (recs : List CarryRec)
  | red (l : List RedSt)
  | shuf (l : List ShufSt)
  | pack (l : List PackSt)
  | tile (tag : Option Nat)
  | feset (run : Option (Nat × Nat × Nat))
  | tree (l : List TreeSt)
  | accept (l : List AcceptSt)
  | gather (l : List GatherSt)
  deriving DecidableEq, Repr

/-- What an image gave of one copy's configuration in place of the mapping's (R75, R81, log 11): fields 4 and 5 to 12 of its
station, the RM of its word, and the targets that its routes name. -/
structure Wiring where
  copy : Nat
  ident : Nat
  rm : Nat
  raw : List Nat
  dests : List (Option Target)
  deriving DecidableEq, Repr

/-- One instruction of a mapped block, its RM + 1 stations together (R25, R75–R77): the word and routes, the input
buffers, the anti-token slots of each target, firings made and the tags whose last element has fired, elements withheld
and elements sent for each target, outputs held, extended state, the words of copies that a patch made differ from
`word`, the copies that an image has configured otherwise (R81), the copies' pending words (R426), and the copy that raised the
reported trap (R419). -/
structure Node where
  word : Word
  routes : List (Option Target)
  fed : List Slot
  bufA : List Entry
  bufB : List Entry
  bufC : List Entry
  bufP : List Entry
  antis : List (Nat × Anti)
  antiOut : List (KillImm × Anti)
  fired : List Anti
  lasts : List Nat
  withheld : List (Nat × Anti)
  sent : List (Nat × Anti)
  outq : List Out
  ext : Ext
  alts : List (Nat × Word)
  wiring : List Wiring
  pend : List (Nat × Word)
  trapped : Option Nat
  deriving DecidableEq, Repr

/-! Block instances -/

/-- A bank of a core beside its bytes (R267, R272): mode, FIFO entries oldest first, staging bytes and written mask, and the
number of the entry that stands first among its 8,192 (R416). -/
structure Bank where
  mode : Mode
  fifo : List (List Byte)
  staging : List Byte
  mask : List Bool
  head : Nat
  deriving DecidableEq, Repr

/-- A bank in SCRATCH mode (R269). -/
def Bank.reset : Bank := ⟨.scratch, [], [], [], 0⟩

/-- Memory as a streaming load sees it (R283): what stood when its region's start token was produced, with the bank modes
(R271), the core and its program timestamp then (R284), and the keys with updates pending then, as address and bytes with them
applied. -/
structure Snapshot where
  mem : List Host.Cell
  loc : List Host.Cell
  banks : Table Bank
  core : Nat
  keys : List (Nat × List Byte)
  pt : Nat
  deriving DecidableEq, Repr

/-- A held loop frame (R144), with the least MSN that has performed under its tags, 128 before any (R281). -/
structure Frame where
  outer : Nat
  gate : Nat
  w : Nat
  base : Nat
  final : Option Nat
  snap : Snapshot
  low : Nat
  deriving DecidableEq, Repr

/-- What the exit that fired chose (R159). -/
structure Choice where
  exit : Nat
  next : Word
  push : Option (Word × Nat)
  pop : Bool
  check : Option Nat
  deriving DecidableEq, Repr

/-- A jump table (R69). -/
structure JTab where
  label : Nat
  offs : List Word
  deriving DecidableEq, Repr

/-- A checked block image as the mapper keeps it (R65–R69, R15), with its stations as configured, and the words that
patches gave to stations that it does not use. -/
structure Block where
  image : Word
  size : Nat
  words : List Word
  exits : List Word
  pool : List Word
  jtabs : List JTab
  label : Nat
  nframe : Nat
  mx : Bool
  nodes : List Node
  spare : List (Nat × Word)
  deriving DecidableEq, Repr

/-- An access whose output left before the access took its place in T (R485, log 5): the element, and the data sent. -/
structure Told where
  node : Nat
  tag : Nat
  idx : Nat
  data : Word
  deriving DecidableEq, Repr

/-- An access that goes on the word that nothing nominally earlier will come (R485, log 5): its element, while it is `due`, and its
place. -/
structure Claim where
  node : Nat
  tag : Nat
  idx : Nat
  due : Bool
  place : List Nat
  deriving DecidableEq, Repr

/-- A running block instance. `told` are the accesses whose output has left ahead of their events, `wrong` what one of them
would have sent instead, and `claims` the accesses that go on the word that nothing nominally earlier will come (R485, log 5).
`rowUnits` are the fields of row units that an image gave other contents (R78, R81, log 11). -/
structure Inst where
  block : Block
  nodes : List Node
  fpc : Nat
  flags : Nat
  exit : Option Choice
  writes : List (Nat × Word)
  swrites : List (Nat × Word)
  yield : Option (Word × Word)
  frames : List (Option Frame)
  snap : Snapshot
  told : List Told
  wrong : Option Told
  claims : List Claim
  patchGen : Nat
  spare : List (Nat × Word)
  rowUnits : List (Nat × List Nat)
  deriving DecidableEq, Repr

/-! Strands and slices -/

/-- What an issued access does when it performs (R185, R314, R299). -/
inductive AccKind where
  | load | store | ldx | stx | upd
  deriving DecidableEq, Repr

/-- A translated address: physical address, page base, page size, leaf word (R258). -/
structure Xlat where
  pa : Nat
  base : Nat
  size : Nat
  leaf : Word
  deriving DecidableEq, Repr

/-- An access that has fired and not performed (R191), with the operands that it consumed. -/
structure Access where
  node : Nat
  tag : Nat
  idx : Nat
  l : Bool
  ops : List (Slot × Tok)
  kind : AccKind
  va : Word
  data : Word
  ty : Ty
  cls : Cls
  at' : Xlat
  deriving DecidableEq, Repr

/-- What a released or polled wait waits for. -/
inductive WaitKind where
  | phase (b : BarKey) (p : Nat) (deadline : Option Nat) (red : Bool)
  | arrive (b : BarKey) (v : Word) (op : Option (Bop × Bool)) (hold : Bool) (tap : Bool)
  | scope (n : Nat)
  | counter (va : Word) (target : Word)
  | monitor (sector : Nat) (armed : Nat) (cause : Nat)
  | append
  | freeze (slice : Nat) (write : Bool)
  | thaw (slice : Nat)
  | abort (slice : Nat)
  | ready (e : Bool)
  deriving DecidableEq, Repr

/-- A waiting instruction's element (R40), with the operands that it consumed. A wait that is released stands as
`ready` until the outputs before it have left; `tok` is then its output. -/
structure Wait where
  node : Nat
  tok : Tok
  ops : List (Slot × Tok)
  kind : WaitKind
  deriving DecidableEq, Repr

/-- A place in the queue at full/empty words or at a tile (R273, R277). -/
structure Req where
  node : Nat
  tag : Nat
  idx : Nat
  keys : List Nat
  want : Nat
  seq : Nat
  deriving DecidableEq, Repr

/-- A message that has fired and not issued (R339–R341): its words, the tile keys it fills and drains, and the status and
refusal code with which it ends at once, if it does (R338, R354, R384). -/
structure Msg where
  node : Nat
  tag : Nat
  words : List Word
  done : Bool
  named : Bool
  fills : List Nat
  drains : List Nat
  fault : Option (Nat × Nat)
  seq : Nat
  deriving DecidableEq, Repr

/-- A strand (R10, R197); `left` names the elements, by instruction and index, whose waits at full/empty words and tiles a halt
ended (R414, R419). -/
structure Strand where
  rank : Nat
  core : Nat
  slot : Nat
  ended : Bool
  pc : Word
  check : Option Nat
  regs : List Word
  fpc : Nat
  fflags : Nat
  ovfptr : Word
  csdepth : Nat
  phases : Table (Nat × Nat)
  inst : Option Inst
  pend : List Access
  waits : List Wait
  reqs : List Req
  msgs : List Msg
  left : List (Nat × Nat)
  deriving DecidableEq, Repr

/-- A trap as its record reports it (R408), with the device time at which the slice took it. -/
structure Trap where
  code : Nat
  sub : Nat
  index : Nat
  core : Nat
  slot : Nat
  pc : Word
  addr : Word
  tag : Nat
  eidx : Nat
  acc : Nat
  aux : Word
  time : Nat
  deriving DecidableEq, Repr

/-- A done token owed to a slice that is not running (R424). -/
structure Reply where
  core : Nat
  slot : Nat
  data : Word
  route : Word
  deriving DecidableEq, Repr

/-- Where a slice stands (R224, R413, R423): `waving` once a cause of freeze has arisen and its wave begins, `halting`
once the halt line is asserted, `frozen` when the freeze is complete, `evicted` when the image is written out. -/
inductive Status where
  | running | waving | halting | frozen | evicted
  deriving DecidableEq, Repr

/-- A slice's image as it was written out (R416, log 11): its address, the address of its space in the image pool, its
size, the offset of its reply slots, and its nonzero bytes below them by offset. -/
structure Picture where
  addr : Word
  pool : Nat
  size : Nat
  slots : Nat
  cells : List Host.Cell
  deriving DecidableEq, Repr

/-- A slice: descriptor (R221), origin, privilege (R431), `svc` and `pkgid` as at its start (R439), budget left (R233), freeze state (R412–R417), yield (R235),
owed replies (R424), strands. `candidate` marks an evicted slice that competes for placement (R425, R446), `leaving` a frozen one that an error drives out
and that waits for room in the image pool (R429), `moving` a frozen one that thinning is to move (R229). -/
structure Slice where
  id : Nat
  desc : List Word
  queue : Nat
  entry : Nat
  sup : Bool
  svc : Word
  pkgid : Word
  status : Status
  candidate : Bool
  leaving : Bool
  moving : Bool
  budget : Nat
  cause : Nat
  trap : Option Trap
  owedTrap : Option Trap
  ftime : Nat
  yield : Option (Word × Word)
  image : Option Picture
  replies : List Reply
  strands : List Strand
  deriving DecidableEq, Repr

/-! Package units -/

/-- The state of a barrier (R203). -/
inductive BarState where
  | free | opened | broken
  deriving DecidableEq, Repr

/-- A barrier (R203): `op` is none while no `BRED` is counted; `last` and statuses are coded as R205. -/
structure Barrier where
  state : BarState
  owner : Nat
  gen : Nat
  e : Nat
  p : Nat
  a : Nat
  n : Nat
  val : Word
  nval : Word
  op : Option (Bop × Bool)
  dl : Option Nat
  last : Nat
  lval : Word
  late : Nat
  pl : Nat
  deriving DecidableEq, Repr

/-- A FREE barrier as at reset (R203). -/
def Barrier.reset : Barrier := ⟨.free, 0, 0, 0, 0, 0, 0, 0, 0, none, none, 0, 0, 0, 0⟩

/-- Tile states in code order (R275). -/
inductive TileState where
  | empty | filling | ready | draining
  deriving DecidableEq, Repr

/-- A tile table entry (R275). -/
structure TileEnt where
  pitch : Nat
  rows : Nat
  cols : Nat
  fmt : Nat
  base : Nat
  defd : Bool
  state : TileState
  deriving DecidableEq, Repr

/-- A cleared tile entry. -/
def TileEnt.reset : TileEnt := ⟨0, 0, 0, 0, 0, false, .empty⟩

/-- A weight plane of a matrix unit (R352): format, K, N, and element codes by 256 × k + n. -/
structure Plane where
  fmt : Nat
  k : Nat
  n : Nat
  cells : Table Nat
  scales : Table Nat
  deriving DecidableEq, Repr

/-- A plane that holds zero. -/
def Plane.reset : Plane := ⟨0, 0, 0, [], []⟩

/-- A matrix unit (R352, R353): planes, accumulator AX cells by 256 × row + column, MXSTAT. -/
structure Mx where
  active : Plane
  shadow : Plane
  acc : Table Word
  stat : Nat
  deriving DecidableEq, Repr

/-- A matrix unit as a slice takes it. -/
def Mx.reset : Mx := ⟨.reset, .reset, [], 0⟩

/-- A cached leaf translation (R260): of core or die `unit`, for the page at `base` of `size` bytes. -/
structure TlbEnt where
  unit : Nat
  base : Nat
  size : Nat
  leaf : Word
  deriving DecidableEq, Repr

/-- Who waits for a walk (R411, R350). -/
inductive WalkFor where
  | station (st : SRef) (idx tag eidx : Nat)
  | fetch (st : SRef)
  | commit (st : SRef)
  | oper (id : Nat)
  | unit
  deriving DecidableEq, Repr

/-- A walk (R259, R260): requested, or posted as a miss and waiting for `TLBI.replay`. -/
structure Walk where
  core : Nat
  va : Word
  acc : Nat
  who : WalkFor
  posted : Bool
  deriving DecidableEq, Repr

/-- A block of a core's configuration cache (R15): its region begins at `page` and has `pages` pages. -/
structure CfgEnt where
  core : Nat
  page : Nat
  pages : Nat
  block : Block
  deriving DecidableEq, Repr

/-- Who makes an event, for its timestamp (R284): the core or link whose program timestamp counts, if any, and the
timestamp below which the event does not fall. -/
structure Party where
  who : Option Nat
  lo : Nat
  deriving DecidableEq, Repr

/-- WTS and RTS of an L2 block (R284). -/
structure BlockTs where
  wts : Nat
  rts : Nat
  deriving DecidableEq, Repr

/-- A core's copy of a block (R284): its WTS and lease end. -/
structure CopyTs where
  core : Nat
  block : Nat
  wts : Nat
  le : Nat
  deriving DecidableEq, Repr

/-- Bytes held against other parties by an ordered-update pair (R189): its `LD.o` is instruction `node`. -/
structure Hold where
  slice : Nat
  rank : Nat
  node : Nat
  tag : Nat
  idx : Nat
  key : Nat
  len : Nat
  deriving DecidableEq, Repr

/-- Region states in code order (R293). -/
inductive RegionState where
  | free | opened | closing
  deriving DecidableEq, Repr

/-- A region table entry (R293). `extents` are the physical extents that `.define` records (R467): pairs of virtual
page base and physical base, with the page size. -/
structure Region where
  base : Nat
  len : Nat
  spills : Nat
  state : RegionState
  nv : Bool
  ovf : Bool
  inexact : Bool
  anchor : Nat
  type : Nat
  opr : Nat
  extents : List (Nat × Nat × Nat)
  deriving DecidableEq, Repr

/-- A FREE entry of zeros. -/
def Region.reset : Region := ⟨0, 0, 0, .free, false, false, false, 0, 0, 0, []⟩

/-- What a bin holds of the updates of one epoch: FADDX sum and seen bits, combined value, count (R302, log 16). -/
structure Part where
  epoch : Nat
  sum : Int
  nan : Bool
  pinf : Bool
  ninf : Bool
  val : Nat
  count : Nat
  deriving DecidableEq, Repr

/-- A bin (R302): die and slice of its home, region, key (virtual address) and PA, and its parts, the oldest epoch first
(log 16). -/
structure Bin where
  die : Nat
  slice : Nat
  region : Nat
  key : Nat
  pa : Nat
  parts : List Part
  deriving DecidableEq, Repr

/-- A spill segment of a die (R303). -/
structure Seg where
  die : Nat
  bins : List Bin
  deriving DecidableEq, Repr

/-- The sort yard's stall on one die (R303): whether it stalls, since when, and whether YARDFULL was posted. -/
structure Stall where
  since : Nat
  posted : Bool
  deriving DecidableEq, Repr

/-- An OPEN Rote context (R358): the kept tokens are those at positions BASE to COUNT − 1. -/
structure Rote where
  c : Nat
  m : Nat
  count : Nat
  base : Nat
  hist : List Nat
  len : Nat
  pos : Nat
  evicts : Nat
  deriving DecidableEq, Repr

/-- Where an operation stands (R339, R348): in its inbox, in progress, or ended with its reply due. -/
inductive OpStage where
  | inbox | active | ended
  deriving DecidableEq, Repr

/-- How far one unit of an operation's work has come: what each of its element accesses made so far has read, by number, and
the numbers of those that have written (R278, R348, R350). -/
structure Prog where
  unit : Nat
  got : List (Nat × List Byte)
  wrote : List Nat
  deriving DecidableEq, Repr

/-- A row of elements as a transfer finds it: its format, 0 for bytes moved raw, whether it lies in memory or in local space,
where element 0's byte and, for Q4, scale byte 0 stand, and the number of its first element. -/
structure Run where
  fmt : Nat
  inMem : Bool
  base : Nat
  scales : Nat
  first : Nat
  deriving DecidableEq, Repr

/-- An engine operation (R335–R350): its message, the rank and instruction that issued it with the tag of the firing and the
block image, whether it owes a done
token, the number of its inbox, where it stands, the tiles that it fills and drains, the ranges of units not yet
done, the units under way, its tile with the shape that it had at the issue, the bytes that a transfer's units have read, the
rows that it reads from as it found them, the parts of its index list read, by offset, or the number of the region that it has opened, its status code (0x100 for a poisoned read) and refusal code, the done token's data where it
has one, MXSTAT after it, the bin epoch that its fork sealed, the timestamp of its fork (R284), and a trap that its
issuer owes (R346, R428). -/
structure Op where
  id : Nat
  words : List Word
  rank : Nat
  index : Nat
  tag : Nat
  pc : Word
  done : Bool
  inbox : Nat
  stage : OpStage
  fills : List Nat
  drains : List Nat
  left : List (Nat × Nat)
  part : List Prog
  shape : Option (Nat × TileEnt)
  bufs : List (Nat × List Byte)
  rows : List (Nat × Run)
  idxs : List (Nat × List Byte)
  status : Nat
  rcode : Nat
  result : Option Word
  mxstat : Nat
  epoch : Nat
  ts : Nat
  trap : Option Nat
  deriving DecidableEq, Repr

/-- A write of a unit that waits while another agent holds its bytes (R189): bytes through a leaf, or words 0 to 6 of a record for
the queue of a handle. -/
inductive Owed where
  | write (x : Xlat) (bs : List Byte)
  | record (h : Nat) (ws : List Word)
  deriving DecidableEq, Repr

/-- Who made an append (R219). -/
inductive AppendBy where
  | station (st : SRef) (node tag idx : Nat)
  | yield (slice queue : Nat)
  deriving DecidableEq, Repr

/-- An append that waits to be made. -/
structure Append where
  desc : List Word
  handle : Nat
  who : AppendBy
  deriving DecidableEq, Repr

/-- A queue entry read as a snapshot (R218): its number, words, whether R222 marked it, and whether it carries a live
count of its finish scope. -/
structure Snap where
  num : Nat
  words : List Word
  marked : Bool
  counted : Bool
  deriving DecidableEq, Repr

/-- Queue states in code order (R214). -/
inductive QState where
  | disabled | enabled | error | paged
  deriving DecidableEq, Repr

/-- A queue as the timetable has taken it up (R214, R218): `read` is the number of entries read. -/
structure QEnt where
  rbase : Word
  pubaddr : Word
  gen : Nat
  log : Nat
  state : QState
  eq : Nat
  read : Nat
  snaps : List Snap
  deriving DecidableEq, Repr

/-- A DISABLED queue of zeros. -/
def QEnt.reset : QEnt := ⟨0, 0, 0, 0, .disabled, 0, 0, []⟩

/-- Finish scope states in code order (R236). -/
inductive ScopeState where
  | free | opened | closed | done
  deriving DecidableEq, Repr

/-- A finish scope (R236). -/
structure FScope where
  state : ScopeState
  parent : Nat
  live : Nat
  child : Nat
  ctr : Word
  deriving DecidableEq, Repr

/-- A FREE finish scope. -/
def FScope.reset : FScope := ⟨.free, 0, 0, 0, 0⟩

/-- A counter add that waits for its translation (R225, R237): what a failure's record names, and the steps that
follow the add: a count that a finish scope loses, and a record to a queue. -/
structure CtrAdd where
  va : Word
  flag : Bool
  slice : Nat
  tq : Nat
  eq : Nat
  scope : Option Nat
  record : Option (Nat × List Word)
  deriving DecidableEq, Repr

/-- A request to another package that has no reply yet (R464). -/
structure OutReq where
  pkg : Nat
  sq : Option Nat
  op : Nat
  words : List Word
  sentAt : Nat
  firstAt : Nat
  deriving DecidableEq, Repr

/-- A sequenced request of another package (R462, R464). -/
inductive InReq where
  | upd (key value : Word) (ty : Ty)
  | enq (desc : List Word) (handle : Word)
  | add (addr inc : Word)
  | atom (addr b c : Word) (ty : Ty) (aop : Aop) (fpc : Nat)
  | put (addr : Word) (bytes : List Byte)
  deriving DecidableEq, Repr

/-- The channel to and from one package (R464): next number out, next number in, and the last replies. -/
structure Chan where
  nextOut : Nat
  nextIn : Nat
  early : List (Nat × InReq)
  replies : List (Nat × Word)
  deriving DecidableEq, Repr

/-- A channel before its first request. -/
def Chan.reset : Chan := ⟨0, 0, [], []⟩

/-- What a message to the host is: the data of a host read, or a write, a read or an atomic add of its memory. -/
inductive HostMsgKind where
  | data
  | write
  | read
  | add
  deriving DecidableEq, Repr

/-- What leaves on a Trelene link (R289, R468, R470): for a read, no bytes; for an add, the word added. -/
structure HostMsg where
  link : Nat
  kind : HostMsgKind
  addr : Nat
  bytes : List Byte
  deriving DecidableEq, Repr

/-- A host access that waits on its link (R189, R289): a write's bytes, or a read's length. -/
structure HostReq where
  link : Nat
  write : Bool
  addr : Nat
  len : Nat
  bytes : List Byte
  deriving DecidableEq, Repr

/-- Firmware of the management controller (R471, R474). -/
structure Fw where
  slots : List (List Byte)
  active : Nat
  nextActive : Nat
  ran : Bool
  deriving DecidableEq, Repr

/-- Bring-up (R475): power good seen, firmware verified, dies whose memory is tested, matrix paths calibrated. -/
structure Bring where
  power : Bool
  firmware : Bool
  dies : List Nat
  cal8 : Bool
  cal4 : Bool
  deriving DecidableEq, Repr

/-! The machine -/

/-- What a step does next: a station's instruction executes, under the word of copy 0 or of a copy that a patch made
differ (R81); an event happens; the accesses of a strand that wait for one another take their places together; or one goes on
the word that nothing nominally earlier will come (R485, log 5). -/
inductive What where
  | fire (st : SRef) (idx : Nat)
  | fireCopy (st : SRef) (idx copy : Nat)
  | event (i : Instr)
  | settle (st : SRef)
  | claim (st : SRef) (idx tag eidx : Nat)
  deriving DecidableEq, Repr

/-- An entry of the agenda: fabric cycles that pass before it, and what happens. -/
structure Act where
  dt : Nat
  what : What
  deriving DecidableEq, Repr

/-- The station whose instruction executes in the present step. -/
structure Cur where
  st : SRef
  idx : Nat
  deriving DecidableEq, Repr

/-- The state of the package. -/
structure State where
  mem : List Host.Cell
  loc : List Host.Cell
  full : Table Bool
  banks : Table Bank
  tiles : Table TileEnt
  tileSince : Table Nat
  mx : Table Mx
  tlb : List TlbEnt
  tcache : List TlbEnt
  walks : List Walk
  cfgCache : List CfgEnt
  pt : Table Nat
  blockTs : Table BlockTs
  copies : List CopyTs
  holds : List Hold
  poison : Table Bool
  dirty : Table Bool
  regions : Table Region
  bins : List Bin
  segs : List Seg
  epoch : Nat
  yardStall : Table (Option Stall)
  rote : Table (Option Rote)
  ops : List Op
  nextOp : Nat
  appends : List Append
  qtab : Table QEnt
  conts : Table (Option (Nat × Nat))
  fscopes : Table FScope
  ctrAdds : List CtrAdd
  dues : List Owed
  passView : List Nat
  barriers : Table Barrier
  supq : Word
  qtbase : Word
  ptroot : Word
  pagerq : Word
  mcq : Word
  imgbase : Word
  imgsize : Word
  cfgsel : Word
  cfg : Table (Option Word)
  cycles : Nat
  timeOff : Nat
  ptTicks : Nat
  svcDies : Nat
  svcLevel : Nat
  bring : Bring
  inService : Table Bool
  retired : Table Bool
  retiredParts : Table Nat
  testing : List Nat
  noMatrix : Table Bool
  mailbox : Table Byte
  fw : Fw
  evlog : List (List Word)
  chans : Table Chan
  outReqs : List OutReq
  served : List (Nat × SRef)
  hostIn : List HostReq
  hostOut : List HostMsg
  imgs : List (Nat × Nat)
  slices : List Slice
  agenda : List Act
  cur : Option Cur
  freeSeq : Nat
  deriving DecidableEq, Repr

/-- Why the machine stops. -/
inductive Fault where
  /-- Raised by the meaning of an instruction row executed while no station of a running block instance is named:
  no step does so. Safe: the hardware has no such event. -/
  | noStation
  deriving DecidableEq, Repr

/-- Why the model gives no meaning. -/
inductive Refusal where
  /-- Raised by the dispatch arm of an instruction that has no meaning yet. Safe: the model stops. -/
  | notModelled (mnemonic : String)
  deriving DecidableEq, Repr

/-- The package right after reset (R10, R203, R236, R269, R433, R475): nothing is mapped, no queue is enabled, no
core is in service. Registers that the manual gives no reset value hold zero (log 3). -/
def State.reset : State where
  mem := []
  loc := []
  full := []
  banks := []
  tiles := []
  tileSince := []
  mx := []
  tlb := []
  tcache := []
  walks := []
  cfgCache := []
  pt := []
  blockTs := []
  copies := []
  holds := []
  poison := []
  dirty := []
  regions := []
  bins := []
  segs := []
  epoch := 0
  yardStall := []
  rote := []
  ops := []
  nextOp := 0
  appends := []
  qtab := []
  conts := []
  fscopes := [(0, ⟨.opened, 0, 0, 0, 0⟩)]
  ctrAdds := []
  dues := []
  passView := []
  barriers := []
  supq := 0x00101FF0
  qtbase := 0
  ptroot := 0
  pagerq := 0
  mcq := 0
  imgbase := 0
  imgsize := 0
  cfgsel := 0
  cfg := []
  cycles := 0
  timeOff := 0
  ptTicks := 0
  svcDies := 0
  svcLevel := 0
  bring := ⟨false, false, [], false, false⟩
  inService := []
  retired := []
  retiredParts := []
  testing := []
  noMatrix := []
  mailbox := []
  fw := ⟨[[], []], 0, 0, false⟩
  evlog := []
  chans := []
  outReqs := []
  served := []
  hostIn := []
  hostOut := []
  imgs := []
  slices := []
  agenda := []
  cur := none
  freeSeq := 0

end Sys2Proof.Machine
end

