-- ==== Sys2Proof/Machine/Ops.lean ====
section
/-! DEFINITION. The named operations on State: device time, memory bytes, strands and stations, token and anti-token
delivery (R18, R32), taking a trap and coming back from one (R412–R415, R423). -/

namespace Sys2Proof.Machine

/-! Time -/

/-- Device time in ns (R461) at 600 fabric cycles per µs (R1, R6). -/
def State.now (s : State) : Nat := s.timeOff + s.cycles * 5 / 3

/-! Memory bytes (R4) -/

/-- Memory holds one canonical list: keys rise and no entry equals what an unlisted byte reads as. -/
def Memory.wf (m : List Host.Cell) : Bool := Table.wf Config.unwritten m

/-- One byte. -/
def rdByte (m : List Host.Cell) (a : Nat) : Byte := Table.get Config.unwritten m a

/-- One byte written. -/
def wrByte (m : List Host.Cell) (a : Nat) (b : Byte) : List Host.Cell := Table.set Config.unwritten m a b

/-- `n` bytes from `a` up. -/
def rdBytes (m : List Host.Cell) (a : Nat) : Nat → List Byte
  | 0 => []
  | n + 1 => rdByte m a :: rdBytes m (a + 1) n

/-- Bytes written from `a` up. -/
def wrBytes (m : List Host.Cell) (a : Nat) : List Byte → List Host.Cell
  | [] => m
  | b :: bs => wrBytes (wrByte m a b) (a + 1) bs

/-- A number as `n` little-endian bytes. -/
def leBytes (v : Nat) : Nat → List Byte
  | 0 => []
  | n + 1 => BitVec.ofNat 8 v :: leBytes (v / 256) n

/-- `n` bytes as a little-endian number. -/
def rdNum (m : List Host.Cell) (a n : Nat) : Nat := leNat (rdBytes m a n)

/-- A 64-bit word of memory. -/
def rdWord (m : List Host.Cell) (a : Nat) : Word := BitVec.ofNat 64 (rdNum m a 8)

/-- A number written as `n` bytes. -/
def wrNum (m : List Host.Cell) (a n v : Nat) : List Host.Cell := wrBytes m a (leBytes v n)

/-- The words of a byte list, eight bytes each. -/
def wordsOf (bs : List Byte) (n : Nat) : List Word :=
  (List.range n).map fun i => BitVec.ofNat 64 (leNat ((bs.drop (8 * i)).take 8))

/-- The bytes of a list of words. -/
def bytesOf (ws : List Word) : List Byte := ws.flatMap fun w => leBytes w.toNat 8

/-- The key of a byte of local space (R187, R270): core, bank, byte. -/
def localKey (core bank byte : Nat) : Nat := core * 4194304 + bank * 262144 + byte

/-! Strands -/

/-- The slice of a `sliceid`. -/
def State.slice? (s : State) (id : Nat) : Option Slice := s.slices.find? fun x => x.id == id

/-- A slice changed. -/
def State.modSlice (s : State) (id : Nat) (f : Slice → Slice) : State :=
  { s with slices := s.slices.map fun x => if x.id = id then f x else x }

/-- A strand. -/
def State.strand? (s : State) (st : SRef) : Option Strand :=
  match s.slice? st.slice with
  | some x => x.strands[st.rank]?
  | none => none

/-- The core of a strand. -/
def State.strandCore (s : State) (st : SRef) : Nat :=
  match s.strand? st with
  | some t => t.core
  | none => 0

/-- A strand changed. -/
def State.modStrand (s : State) (st : SRef) (f : Strand → Strand) : State :=
  s.modSlice st.slice fun x => { x with strands := modAt x.strands st.rank f }

/-- A strand's block instance. -/
def State.inst? (s : State) (st : SRef) : Option Inst :=
  match s.strand? st with
  | some t => t.inst
  | none => none

/-- The instance changed. -/
def State.modInst (s : State) (st : SRef) (f : Inst → Inst) : State :=
  s.modStrand st fun t => { t with inst := t.inst.map f }

/-- An instruction of an instance changed. -/
def Inst.modNode (x : Inst) (i : Nat) (f : Node → Node) : Inst := { x with nodes := modAt x.nodes i f }

/-- An instruction's stations. -/
def State.node? (s : State) (st : SRef) (i : Nat) : Option Node :=
  match s.inst? st with
  | some x => x.nodes[i]?
  | none => none

/-- An instruction's stations changed. -/
def State.modNode (s : State) (st : SRef) (i : Nat) (f : Node → Node) : State :=
  s.modInst st fun x => x.modNode i f

/-- Descriptor fields (R221). -/
def Slice.field (x : Slice) (w hi lo : Nat) : Nat := (x.desc.getD w 0).field hi lo

/-- Every strand of the package with its name. -/
def State.strands (s : State) : List (SRef × Strand) :=
  s.slices.flatMap fun x => x.strands.map fun t => (⟨x.id, t.rank⟩, t)

/-- A slice fires until the halt line is asserted (R413): also while a cause of freeze has arisen and its wave has not
reached its cores. -/
def Slice.live (x : Slice) : Bool := decide (x.status = .running ∨ x.status = .waving)

/-- Whether a slice's budget counts (R233): it is resident and not frozen. -/
def Slice.counts (x : Slice) : Bool := decide (x.status = .running ∨ x.status = .waving ∨ x.status = .halting)

/-- A slice's strands hold their cores unless it is evicted (R224). -/
def Slice.resident (x : Slice) : Bool := decide (x.status ≠ .evicted)

/-- The resident slice and strand on a core slot. -/
def State.onSlot (s : State) (core slot : Nat) : Option (SRef × Strand) :=
  (s.slices.filter Slice.resident).flatMap (fun x => x.strands.map fun t => ((⟨x.id, t.rank⟩ : SRef), t))
    |>.find? fun e => e.2.core == core && e.2.slot == slot

/-- The resident slice that holds a core (R224). -/
def State.onCore (s : State) (core : Nat) : Option Slice :=
  s.slices.find? fun x => x.resident && x.strands.any fun t => t.core == core

/-- The strand that owns a bank of a core (R198). -/
def State.bankOwner (s : State) (core bank : Nat) : Option (SRef × Strand) :=
  match s.onCore core with
  | some x =>
    let b := x.field 4 47 40
    (x.strands.find? fun t =>
      t.core == core && decide (2 + b * t.slot ≤ bank ∧ bank < 2 + b * (t.slot + 1))).map fun t => (⟨x.id, t.rank⟩, t)
  | none => none

/-- The owner of a core's matrix unit (R199): the lowest rank there that has not ended and owes nothing. -/
def State.mxOwner (s : State) (core : Nat) : Option SRef :=
  match s.onCore core with
  | some x =>
    if x.field 4 28 28 = 1 then
      (x.strands.find? fun t => t.core == core && !t.ended).map fun t => ⟨x.id, t.rank⟩
    else none
  | none => none

/-! Stations: buffers, room, delivery -/

/-- Copies of an instruction, RM + 1 (R25). -/
def Node.copies (nd : Node) : Nat := nd.word.field 55 50 + 1

/-- The word that a copy holds. -/
def Node.wordAt (nd : Node) (copy : Nat) : Word := ((nd.alts.find? fun a => a.1 == copy).map fun a => a.2).getD nd.word

/-- An instruction whose copies hold given words. -/
def Node.withWords (nd : Node) (ws : Nat → Word) (copy : Nat) : Node :=
  { nd with
    word := ws copy
    alts := (List.range nd.copies).filterMap fun c => if ws c = ws copy then none else some (c, ws c) }

/-- The same instruction seen from a copy: that copy's word in front. -/
def Node.turned (nd : Node) (copy : Nat) : Node := nd.withWords nd.wordAt copy

/-- Whether the copy that takes element `idx` holds the word in front. -/
def Node.serves (nd : Node) (idx : Nat) : Bool := !nd.alts.any fun a => a.1 == idx % nd.copies

/-- The input buffer of a slot. -/
def Node.buf (nd : Node) : Slot → List Entry
  | .a => nd.bufA | .b => nd.bufB | .c => nd.bufC | .p => nd.bufP

/-- The input buffer of a slot replaced. -/
def Node.setBuf (nd : Node) (sl : Slot) (l : List Entry) : Node :=
  match sl with
  | .a => { nd with bufA := l } | .b => { nd with bufB := l }
  | .c => { nd with bufC := l } | .p => { nd with bufP := l }

/-- Whether an entry takes a data slot of the copy that element `idx` goes to (R25, R426). -/
def Entry.inCopy (n idx : Nat) : Entry → Bool
  | .tok t _ => decide (t.idx % n = idx % n)
  | .switch _ => true

/-- A free data slot for element `idx` (R18). -/
def Node.room (nd : Node) (sl : Slot) (idx : Nat) : Bool :=
  decide (((nd.buf sl).filter (Entry.inCopy nd.copies idx)).length < 2)

/-- Whether an entry is the token of (tag, idx). -/
def Entry.is (tag idx : Nat) : Entry → Bool
  | .tok t _ => decide (t.tag = tag ∧ t.idx = idx)
  | .switch _ => false

/-- The list without its first entry that `p` holds of. -/
def dropFirst {α : Type} (p : α → Bool) : List α → List α
  | [] => []
  | a :: r => if p a then r else a :: dropFirst p r

/-- The configuration that an image gave the copy which takes element `idx`, if one did (R81). -/
def Node.wired (nd : Node) (idx : Nat) : Option Wiring := nd.wiring.find? fun w => w.copy == idx % nd.copies

/-- The route of target `t` that element `idx` takes: that of its copy (R75). -/
def Node.route (nd : Node) (t idx : Nat) : Option Target :=
  match nd.wired idx with
  | some w => w.dests.getD t none
  | none => nd.routes.getD t none

/-- The targets to which the copies of an instruction have routes, by number. -/
def Node.arcs (nd : Node) : List (Nat × Target) :=
  (nd.routes :: nd.wiring.map fun w => w.dests).flatMap fun l => (l.mapIdx fun t g => g.map fun g => (t, g)).filterMap id

/-- The targets an instruction has: the numbers of its present routes. -/
def Node.targets (nd : Node) : List Nat :=
  (List.range nd.routes.length).filter fun t => nd.arcs.any fun e => e.1 == t

/-- The instruction index by which the station that takes element `idx` of instruction `i` is known (R75). -/
def Node.label (nd : Node) (i idx : Nat) : Nat :=
  match nd.wired idx with
  | some w => w.ident % 128
  | none => i

/-- Whether target `t` has cancelled element (tag, idx): an anti-token stands there or the element is withheld. -/
def Node.cancelled (nd : Node) (t tag idx : Nat) : Bool :=
  nd.antis.contains (t, ⟨tag, idx⟩) || nd.withheld.contains (t, ⟨tag, idx⟩)

/-- Room at target `t` of node `i` for element `idx`. -/
def Inst.targetRoom (x : Inst) (nd : Node) (t idx : Nat) : Bool :=
  match nd.route t idx with
  | none => true
  | some g => match x.nodes[g.index.toNat]? with
    | none => true
    | some c => c.room g.slot idx

/-- R18: every target of `ts` that has not cancelled the element has a free data slot. -/
def Inst.roomFor (x : Inst) (nd : Node) (ts : List Nat) (tag idx : Nat) : Bool :=
  ts.all fun t => nd.cancelled t tag idx || x.targetRoom nd t idx

/-- Whether an output can be delivered now. -/
def Inst.canDeliver (x : Inst) (nd : Node) : Out → Bool
  | .tok t ts => x.roomFor nd ts t.tag t.idx
  | .switch _ ts => ts.all fun t => x.targetRoom nd t 0

/-- An entry put into a slot's buffer. -/
def Inst.push (x : Inst) (g : Target) (e : Entry) : Inst :=
  x.modNode g.index.toNat fun c => c.setBuf g.slot (c.buf g.slot ++ [e])

/-- A token delivered to one target of node `i`: it annihilates with its anti-token (R32), is withheld (R34), or
enters the consumer's buffer. -/
def Inst.deliverTok (x : Inst) (seq i : Nat) (tk : Tok) (t : Nat) : Inst :=
  match x.nodes[i]? with
  | none => x
  | some nd =>
    let an : Nat × Anti := (t, ⟨tk.tag, tk.idx⟩)
    if nd.antis.contains an then x.modNode i fun n => { n with antis := n.antis.erase an }
    else if nd.withheld.contains an then x.modNode i fun n => { n with withheld := n.withheld.erase an }
    else match nd.route t tk.idx with
      | none => x
      | some g => (x.modNode i fun n => { n with sent := an :: n.sent }).push g (.tok tk seq)

/-- A switch token delivered to one target: one that `CARRY` sends is absorbed there (R426). -/
def Inst.deliverSwitch (x : Inst) (i gen t : Nat) : Inst :=
  match x.nodes[i]? with
  | none => x
  | some nd => match nd.route t 0 with
    | none => x
    | some g => if (wordOp nd.word).toNat = 0x0D then x else x.push g (.switch gen)

/-- An output delivered to its targets in order. -/
def Inst.deliver (x : Inst) (seq i : Nat) : Out → Inst
  | .tok tk ts => ts.foldl (fun y t => y.deliverTok seq i tk t) x
  | .switch g ts => ts.foldl (fun y t => y.deliverSwitch i g t) x

/-- The held outputs of node `i` delivered in order as far as there is room. -/
def Inst.drainList (x : Inst) (seq i : Nat) : List Out → Inst
  | [] => x.modNode i fun n => { n with outq := [] }
  | o :: r =>
    match x.nodes[i]? with
    | none => x
    | some nd =>
      if x.canDeliver nd o then (x.deliver seq i o).drainList seq i r
      else x.modNode i fun n => { n with outq := o :: r }

/-- The producer of a slot: node and target number. -/
def Inst.producer (x : Inst) (i : Nat) (sl : Slot) : Option (Nat × Nat) :=
  (List.range x.nodes.length).flatMap (fun j =>
      match x.nodes[j]? with
      | none => []
      | some nd => nd.arcs.filterMap fun e => if e.2.index.toNat = i ∧ e.2.slot = sl then some (j, e.1) else none)
    |>.head?

/-- An anti-token sent up the arc that feeds a slot (R31, R38): it annihilates with its token in the buffer (R32), or
stands in an anti-token slot at the producer (R77); none when both of the copy's slots are full (R18). -/
def Inst.injectAnti (x : Inst) (k : KillImm) (a : Anti) : Option Inst :=
  match x.nodes[k.index.toNat]? with
  | none => some x
  | some c =>
    if (c.buf k.slot).any (Entry.is a.tag a.idx) then
      some (x.modNode k.index.toNat fun n => n.setBuf k.slot (dropFirst (Entry.is a.tag a.idx) (n.buf k.slot)))
    else match x.producer k.index.toNat k.slot with
      | none => some x
      | some (j, t) => match x.nodes[j]? with
        | none => some x
        | some p =>
          if (p.antis.filter fun e => decide (e.1 = t ∧ e.2.idx % p.copies = a.idx % p.copies)).length < 2 then
            some (x.modNode j fun n => { n with antis := n.antis ++ [(t, a)] })
          else none

/-- The anti-tokens that node `i` holds, sent in order as far as there is room. -/
def Inst.drainAntis (x : Inst) (i : Nat) : List (KillImm × Anti) → Inst
  | [] => x.modNode i fun n => { n with antiOut := [] }
  | (k, a) :: r =>
    match x.injectAnti k a with
    | some y => y.drainAntis i r
    | none => x.modNode i fun n => { n with antiOut := (k, a) :: r }

/-- Node `i` sends what it holds: anti-tokens first, then outputs. -/
def Inst.drain (x : Inst) (seq i : Nat) : Inst :=
  match x.nodes[i]? with
  | none => x
  | some nd => (x.drainAntis i nd.antiOut).drainList seq i nd.outq

/-- A station sends what it holds: the fabric cycle is the arrival number of what it delivers. -/
def State.drain (s : State) (st : SRef) (i : Nat) : State := s.modInst st fun x => x.drain s.cycles i

/-- An output formed at a station, sent at once when there is room. -/
def State.out (s : State) (st : SRef) (i : Nat) (o : Out) : State :=
  (s.modNode st i fun n => { n with outq := n.outq ++ [o] }).drain st i

/-- Whether the output of an element has left ahead of its access (R485). -/
def Inst.hasTold (x : Inst) (i tag idx : Nat) : Bool := x.told.any fun t => t.node == i && t.tag == tag && t.idx == idx

/-- Whether the output of an element of a station has left ahead of its access. -/
def State.hasTold (s : State) (st : SRef) (i tag idx : Nat) : Bool :=
  match s.inst? st with
  | some x => x.hasTold i tag idx
  | none => false

/-- The access of an output that has left takes its place: the first that should have sent other data is noted. -/
def Inst.toldDone (x : Inst) (i : Nat) (t : Tok) : Inst :=
  { x with
    told := x.told.filter fun a => !(a.node == i && a.tag == t.tag && a.idx == t.idx)
    wrong := if x.wrong.isNone && x.told.any (fun a => a.node == i && a.tag == t.tag && a.idx == t.idx && a.data != t.data)
      then some ⟨i, t.tag, t.idx, t.data⟩ else x.wrong }

/-- A token formed for every present target of a station, unless it has left already. -/
def State.emit (s : State) (st : SRef) (i : Nat) (t : Tok) : State :=
  match s.node? st i with
  | none => s
  | some nd =>
    if s.hasTold st i t.tag t.idx then s.modInst st fun x => x.toldDone i t else s.out st i (.tok t nd.targets)

/-- Anti-tokens formed at a station, sent as far as there is room. -/
def State.antis (s : State) (st : SRef) (i : Nat) (l : List (KillImm × Anti)) : State :=
  (s.modNode st i fun n => { n with antiOut := n.antiOut ++ l }).drain st i

/-- Floating-point flags raised in an instance (R116). -/
def State.raise (s : State) (st : SRef) (fl : Nat) : State :=
  if fl = 0 then s else s.modInst st fun x => { x with flags := x.flags ||| fl }

/-! Taking a trap, and coming back (R412–R415, R423) -/

/-- Freeze cause bits in the order of R417. -/
inductive Cause where
  | trap | freeze | preempt | thin | error
  deriving DecidableEq, Repr

/-- The bit of a cause in CAUSE (R417). -/
def Cause.bit : Cause → Nat
  | .trap => 1 | .freeze => 2 | .preempt => 4 | .thin => 8 | .error => 16

/-- A slice that a cause of freeze meets (R415): it joins the causes of a slice whose wave is under way, begins the wave of a
running one, and changes nothing of one that is already frozen. -/
def Slice.joinCause (x : Slice) (c : Cause) : Slice :=
  match x.status with
  | .running => { x with cause := x.cause ||| c.bit, status := .waving }
  | .waving => { x with cause := x.cause ||| c.bit }
  | .halting => { x with cause := x.cause ||| c.bit }
  | .frozen => x
  | .evicted => x

/-- A cause of freeze meets a slice. -/
def State.beginWave (s : State) (id : Nat) (c : Cause) : State := s.modSlice id fun x => x.joinCause c

/-- A slice takes a trap: its freeze wave begins with cause trap, and only the first trap of a wave is reported
(R412). The firing that meets the condition does not take place: the caller changes nothing else. -/
def State.takeTrap (s : State) (id : Nat) (t : Trap) : State :=
  (s.beginWave id .trap).modSlice id fun x => { x with trap := some (x.trap.getD { t with time := s.now }) }

/-- The trap of a station's firing. -/
def Strand.trapAt (t : Strand) (code sub index tag eidx acc : Nat) (addr : Word) : Trap :=
  { code := code, sub := sub, index := index, core := t.core, slot := t.slot, pc := t.pc, addr := addr,
    tag := tag, eidx := eidx, acc := acc, aux := 0, time := 0 }

/-- The holds of a strand end with its instance's commit or trap (R189). -/
def State.dropHolds (s : State) (st : SRef) : State :=
  { s with holds := s.holds.filter fun h => !(h.slice == st.slice && h.rank == st.rank) }

/-- A station's firing traps: the station is marked TRAPPED (R419) when it raised the reported trap. -/
def State.trapStation (s : State) (st : SRef) (i code sub tag eidx acc : Nat) (addr : Word) : State :=
  match s.strand? st, s.slice? st.slice with
  | some t, some x =>
    let label := match s.node? st i with | some nd => nd.label i eidx | none => i
    ((s.dropHolds st).modNode st i fun n =>
        { n with trapped := if x.trap.isNone then some (eidx % n.copies) else n.trapped }).takeTrap st.slice
      (t.trapAt code sub label tag eidx acc addr)
  | _, _ => s

/-- A frozen slice runs again: the return from a trap or another freeze. Causes, the reported trap and the TRAPPED
marks are cleared; the budget left is as given (R423). -/
def Slice.resume (x : Slice) (budget : Nat) : Slice :=
  { x with
    status := .running, candidate := false, leaving := false, moving := false, cause := 0, trap := none, budget := budget, image := none,
    strands := x.strands.map fun t =>
      { t with
        left := [], inst := t.inst.map fun i => { i with nodes := i.nodes.map fun n => { n with trapped := none } } } }

/-! Configuration items (R435) -/

/-- The key of a configuration item: die, group, item; the die is ignored for package-wide items. -/
def cfgKey (die group item : Nat) : Nat := die * 4096 + group * 256 + item

/-- A configuration item's content, `d` when never written. -/
def State.cfgItem (s : State) (die group item : Nat) (d : Word) : Word :=
  (Table.get none s.cfg (cfgKey die group item)).getD d

/-- The package's pod job word, item 0 of group 6 (R457). -/
def State.podItem (s : State) : Word := s.cfgItem 0 6 0 0

/-- INJOB (R457). -/
def State.inJob (s : State) : Bool := s.podItem.bit 22

/-- The package's number in its job (R458). -/
def State.pkgNumber (s : State) : Nat := s.podItem.field 21 16

end Sys2Proof.Machine
end

