-- ==== Sys2Proof/Machine/Flags.lean ====
section
/-! DEFINITION. The floating-point flags (R51, R116) and how an instance gathers them (R41). -/

namespace Sys2Proof.Machine

/-- Inexact. -/
def nx : Nat := 1
/-- Underflow. -/
def uf : Nat := 2
/-- Overflow. -/
def of' : Nat := 4
/-- Division by zero. -/
def dz : Nat := 8
/-- Invalid operation. -/
def nv : Nat := 16

/-- `fflags` after a commit that ORs in the flags of the block; bits [63:5] read as zero (R41, R51). -/
def orFlags (old new : Nat) : Nat := (old ||| new) % 32

/-- The flags of several lanes together. -/
def allFlags : List (Nat × Nat) → Nat
  | [] => 0
  | (_, f) :: r => f ||| allFlags r

end Sys2Proof.Machine
end

