-- ==== Sys2Proof/Machine/Float.lean ====
section
/-! DEFINITION. Floating-point formats and rounding (R101–R103, R111–R118): values are read exactly, combined exactly
and rounded once. Bit patterns and flags are numbers; flags are coded as `fflags` (R51). -/

namespace Sys2Proof.Machine

/-- Rounding modes (R48, R111). -/
inductive Rm where
  | rne | rtz | rup | rdn
  deriving DecidableEq, Repr

/-- RMODE codes (R48). -/
def Rm.ofCode (n : Nat) : Rm := if n % 4 = 0 then .rne else if n % 4 = 1 then .rtz else if n % 4 = 2 then .rup else .rdn

/-- How an operation rounds: mode, DAZ, FZ, SAT (R117). -/
structure Env where
  rm : Rm
  daz : Bool
  fz : Bool
  sat : Bool
  deriving DecidableEq, Repr

/-- The environment of a captured `fpc` (R48). -/
def Env.ofFpc (n : Nat) : Env := ⟨.ofCode n, n.testBit 4, n.testBit 2, n.testBit 3⟩

/-- The environment of an engine's snapshot: DAZ never applies (R117). -/
def Env.ofSnap (n : Nat) : Env := ⟨.ofCode n, false, n.testBit 2, n.testBit 3⟩

/-- RND in place of RMODE (R62, R117). -/
def Env.withRnd (v : Env) : Rnd → Env
  | .fpc => v | .rne => { v with rm := .rne } | .rtz => { v with rm := .rtz }
  | .rup => { v with rm := .rup } | .rdn => { v with rm := .rdn }

/-- The formats of R101. -/
inductive Fmt where
  | fp32 | bf16 | fp16 | e4m3 | e5m2
  deriving DecidableEq, Repr

/-- Exponent width. -/
def Fmt.eb : Fmt → Nat
  | .fp32 => 8 | .bf16 => 8 | .fp16 => 5 | .e4m3 => 4 | .e5m2 => 5
/-- Fraction width. -/
def Fmt.fb : Fmt → Nat
  | .fp32 => 23 | .bf16 => 7 | .fp16 => 10 | .e4m3 => 3 | .e5m2 => 2
/-- Bias. -/
def Fmt.bias : Fmt → Nat
  | .fp32 => 127 | .bf16 => 127 | .fp16 => 15 | .e4m3 => 7 | .e5m2 => 15
/-- Width in bits. -/
def Fmt.width (f : Fmt) : Nat := 1 + f.eb + f.fb
/-- The canonical NaN. -/
def Fmt.nan : Fmt → Nat
  | .fp32 => 0x7FC00000 | .bf16 => 0x7FC0 | .fp16 => 0x7E00 | .e4m3 => 0x7F | .e5m2 => 0x7E
/-- The largest finite magnitude. -/
def Fmt.largest : Fmt → Nat
  | .fp32 => 0x7F7FFFFF | .bf16 => 0x7F7F | .fp16 => 0x7BFF | .e4m3 => 0x7E | .e5m2 => 0x7B
/-- The sign bit. -/
def Fmt.sign (f : Fmt) : Nat := 2 ^ (f.eb + f.fb)
/-- Infinity, or the NaN code that stands for it in E4M3 (R113). -/
def Fmt.inf : Fmt → Nat
  | .fp32 => 0x7F800000 | .bf16 => 0x7F80 | .fp16 => 0x7C00 | .e4m3 => 0x7F | .e5m2 => 0x7C
/-- The least exponent of a normal. -/
def Fmt.emin (f : Fmt) : Int := 1 - (f.bias : Int)
/-- FZ and DAZ reach FP32, BF16 and FP16 only (R114, R115). -/
def Fmt.wide : Fmt → Bool
  | .fp32 => true | .bf16 => true | .fp16 => true | _ => false

/-- A value read from a format: `fin neg m e` is ±m × 2^e. -/
inductive FVal where
  | nan (signalling : Bool)
  | inf (neg : Bool)
  | fin (neg : Bool) (m : Nat) (e : Int)
  deriving DecidableEq, Repr

/-- The value of a bit pattern (R101). -/
def Fmt.read (f : Fmt) (b : Nat) : FVal :=
  let neg := decide (f.sign ≤ b % 2 ^ f.width)
  let ex := b / 2 ^ f.fb % 2 ^ f.eb
  let fr := b % 2 ^ f.fb
  if f = .e4m3 then
    if ex = 15 ∧ fr = 7 then .nan false
    else if ex = 0 then .fin neg fr (f.emin - f.fb) else .fin neg (fr + 8) (f.emin - f.fb + (ex - 1 : Nat))
  else if ex = 2 ^ f.eb - 1 then
    if fr = 0 then .inf neg
    else .nan (f.wide && decide (fr < 2 ^ (f.fb - 1)))
  else if ex = 0 then .fin neg fr (f.emin - f.fb)
  else .fin neg (fr + 2 ^ f.fb) (f.emin - f.fb + (ex - 1 : Nat))

/-- A subnormal pattern. -/
def Fmt.subnormal (f : Fmt) (b : Nat) : Bool :=
  decide (b / 2 ^ f.fb % 2 ^ f.eb = 0 ∧ b % 2 ^ f.fb ≠ 0)

/-- An operand as an operation reads it: DAZ makes a subnormal a zero of its sign (R114). -/
def Fmt.operand (f : Fmt) (v : Env) (b : Nat) : FVal :=
  match f.read b with
  | .fin neg m e => if v.daz && f.wide && f.subnormal b then .fin neg 0 0 else .fin neg m e
  | x => x

/-- Bits of a magnitude with a sign. -/
def Fmt.signed (f : Fmt) (neg : Bool) (mag : Nat) : Nat := if neg then f.sign + mag else mag

/-- Length in bits. -/
def bitLen (n : Nat) : Nat := if n = 0 then 0 else Nat.log2 n + 1

/-- The rounding decision of R111: `q` is the kept part, `c` compares the rest with one half (0 below, 1 equal,
2 above), `inexact` says that a rest remains. -/
def roundUp (rm : Rm) (neg : Bool) (q c : Nat) (inexact : Bool) : Bool :=
  match rm with
  | .rne => decide (c = 2 ∨ (c = 1 ∧ q % 2 = 1))
  | .rtz => false
  | .rup => inexact && !neg
  | .rdn => inexact && neg

/-- `m × 2^(-d)` (plus less than one unit of m when `sticky`) split into quotient, comparison with one half, and
whether it is inexact. -/
def splitAt (m d : Nat) (sticky : Bool) : Nat × Nat × Bool :=
  let r := m % 2 ^ d
  let h := 2 ^ d
  let c := if 2 * r < h then 0 else if 2 * r = h then (if sticky then 2 else 1) else 2
  (m / 2 ^ d, if d = 0 then 0 else c, decide (r ≠ 0) || sticky)

/-- A finite value ±(m + δ) × 2^e rounded once to a format, δ in (0, 1) when `sticky` (R111, R113, R115). `conv` says
that SAT applies (a conversion to a format other than FP32). With `sticky`, m has more bits than the format keeps. A value that
rounds to the largest finite one is not beyond it and raises NX alone, as R113 defines overflow, though a worked conversion of
R179 lists OF too: the model's choice (log 27). -/
def Fmt.round (f : Fmt) (v : Env) (conv : Bool) (neg : Bool) (m : Nat) (e : Int) (sticky : Bool) : Nat × Nat :=
  if m = 0 && !sticky then (f.signed neg 0, 0)
  else
    let ex : Int := e + bitLen m - 1
    let u : Int := max (ex - f.fb) (f.emin - f.fb)
    let (q, c, inexact) := if u ≤ e then (m * 2 ^ (e - u).toNat, 0, sticky) else splitAt m (u - e).toNat sticky
    let q := if roundUp v.rm neg q c inexact then q + 1 else q
    let (q, u) := if q = 2 ^ (f.fb + 1) then (2 ^ f.fb, u + 1) else (q, u)
    let mag : Int := if q < 2 ^ f.fb then q else (u - (f.emin - f.fb) + 1) * 2 ^ f.fb + (q - 2 ^ f.fb : Nat)
    if (f.largest : Int) < mag then
      let toInf := match v.rm with | .rne => true | .rtz => false | .rup => !neg | .rdn => neg
      if (conv && v.sat) || !toInf then (f.signed neg f.largest, of' ||| nx)
      else if f = .e4m3 then (f.nan, of' ||| nx) else (f.signed neg f.inf, of' ||| nx)
    else
      let tiny := decide (q < 2 ^ f.fb)
      if tiny && v.fz && f.wide then (f.signed neg 0, uf ||| nx)
      else (f.signed neg mag.toNat, if inexact then (if tiny then uf ||| nx else nx) else 0)

/-- An exact result before its rounding. -/
inductive XVal where
  | nan (flags : Nat)
  | inf (neg : Bool) (flags : Nat)
  | fin (neg : Bool) (m : Nat) (e : Int) (sticky : Bool)
  deriving DecidableEq, Repr

/-- A result put into its format. An infinite operand is no overflow; converted to E4M3 it follows SAT (R113). -/
def Fmt.put (f : Fmt) (v : Env) (conv : Bool) : XVal → Nat × Nat
  | .nan fl => (f.nan, fl)
  | .inf neg fl =>
    if f = .e4m3 then (if v.sat then (f.signed neg f.largest, fl) else (f.nan, fl)) else (f.signed neg f.inf, fl)
  | .fin neg m e st => f.round v conv neg m e st

/-- NV for a signalling NaN. -/
def FVal.sig : FVal → Nat
  | .nan true => nv
  | _ => 0

/-- A NaN operand. -/
def FVal.isNan : FVal → Bool
  | .nan _ => true
  | _ => false

/-- The exact signed numerator of a finite value at exponent `e0` ≤ e. -/
def scaled (neg : Bool) (m : Nat) (e e0 : Int) : Int :=
  let k : Nat := m * 2 ^ (e - e0).toNat
  if neg then -(k : Int) else k

/-- The sum of two finite values: an exact zero of opposite signs is +0, or −0 under RDN (R111). -/
def addFin (rm : Rm) (n1 : Bool) (m1 : Nat) (e1 : Int) (n2 : Bool) (m2 : Nat) (e2 : Int) : XVal :=
  let e0 := min e1 e2
  let t := scaled n1 m1 e1 e0 + scaled n2 m2 e2 e0
  if t = 0 then .fin (if m1 = 0 ∧ m2 = 0 ∧ n1 = n2 then n1 else decide (rm = .rdn)) 0 0 false
  else .fin (decide (t < 0)) t.natAbs e0 false

/-- a + b. -/
def addX (rm : Rm) (a b : FVal) : XVal :=
  match a, b with
  | .nan x, .nan y => .nan (if x || y then nv else 0)
  | .nan x, _ => .nan (if x then nv else 0)
  | _, .nan y => .nan (if y then nv else 0)
  | .inf x, .inf y => if x = y then .inf x 0 else .nan nv
  | .inf x, _ => .inf x 0
  | _, .inf y => .inf y 0
  | .fin n1 m1 e1, .fin n2 m2 e2 => addFin rm n1 m1 e1 n2 m2 e2

/-- The value with its sign inverted. -/
def FVal.neg : FVal → FVal
  | .nan s => .nan s
  | .inf n => .inf (!n)
  | .fin n m e => .fin (!n) m e

/-- a × b as a value, with the invalid case 0 × ∞ flagged. -/
def mulV (a b : FVal) : FVal × Nat :=
  match a, b with
  | .nan x, .nan y => (.nan false, if x || y then nv else 0)
  | .nan x, _ => (.nan false, if x then nv else 0)
  | _, .nan y => (.nan false, if y then nv else 0)
  | .inf x, .inf y => (.inf (xor x y), 0)
  | .inf x, .fin n m _ => if m = 0 then (.nan false, nv) else (.inf (xor x n), 0)
  | .fin n m _, .inf y => if m = 0 then (.nan false, nv) else (.inf (xor n y), 0)
  | .fin n1 m1 e1, .fin n2 m2 e2 => (.fin (xor n1 n2) (m1 * m2) (e1 + e2), 0)

/-- A value as an exact result. -/
def FVal.x (fl : Nat) : FVal → XVal
  | .nan s => .nan (fl ||| if s then nv else 0)
  | .inf n => .inf n fl
  | .fin n m e => .fin n m e false

/-- More flags on a NaN or infinity. -/
def XVal.more (fl : Nat) : XVal → XVal
  | .nan g => .nan (g ||| fl)
  | .inf n g => .inf n (g ||| fl)
  | .fin n m e s => .fin n m e s

/-- a × b + c (R173): 0 × ∞ is invalid whatever c is. -/
def fmaX (rm : Rm) (a b c : FVal) : XVal :=
  let (p, fl) := mulV a b
  (addX rm p c).more fl

/-- a / b with sticky rest (R173). -/
def divX (a b : FVal) : XVal :=
  match a, b with
  | .nan x, .nan y => .nan (if x || y then nv else 0)
  | .nan x, _ => .nan (if x then nv else 0)
  | _, .nan y => .nan (if y then nv else 0)
  | .inf _, .inf _ => .nan nv
  | .inf x, .fin n _ _ => .inf (xor x n) 0
  | .fin n _ _, .inf y => .fin (xor n y) 0 0 false
  | .fin n1 m1 e1, .fin n2 m2 e2 =>
    if m2 = 0 then (if m1 = 0 then .nan nv else .inf (xor n1 n2) dz)
    else
      let k := 64 + bitLen m2
      .fin (xor n1 n2) (m1 * 2 ^ k / m2) (e1 - e2 - k) (decide (m1 * 2 ^ k % m2 ≠ 0))

/-- Integer square root by one binary digit at a time, `fuel` digits. -/
def isqrtGo (n : Nat) : Nat → Nat → Nat
  | 0, r => r
  | k + 1, r => if (r + 2 ^ k) * (r + 2 ^ k) ≤ n then isqrtGo n k (r + 2 ^ k) else isqrtGo n k r

/-- Integer square root. -/
def isqrt (n : Nat) : Nat := isqrtGo n (bitLen n / 2 + 1) 0

/-- √(m × 2^e) with sticky rest: 64 extra binary digits. -/
def sqrtFin (m : Nat) (e : Int) : Nat × Int × Bool :=
  let (m, e) := if e % 2 = 0 then (m, e) else (2 * m, e - 1)
  let r := isqrt (m * 2 ^ 128)
  (r, e / 2 - 64, decide (r * r ≠ m * 2 ^ 128))

/-- √a (R175). -/
def sqrtX (a : FVal) : XVal :=
  match a with
  | .nan s => .nan (if s then nv else 0)
  | .inf n => if n then .nan nv else .inf false 0
  | .fin n m e =>
    if m = 0 then .fin n 0 0 false
    else if n then .nan nv
    else let (r, e', st) := sqrtFin m e; .fin false r e' st

/-- 1/√a (R175). -/
def rsqX (a : FVal) : XVal :=
  match a with
  | .nan s => .nan (if s then nv else 0)
  | .inf n => if n then .nan nv else .fin false 0 0 false
  | .fin n m e =>
    if m = 0 then .inf n dz
    else if n then .nan nv
    else
      -- 1/√(m 2^e) = √(2^(2k) / m) × 2^(-k - e/2), e even
      let (m, e) := if e % 2 = 0 then (m, e) else (2 * m, e - 1)
      let k := 128 + bitLen m
      let q := 2 ^ (2 * k) / m
      let r := isqrt q
      .fin false r (-(k : Int) - e / 2) (decide (r * r ≠ q ∨ 2 ^ (2 * k) % m ≠ 0))

/-- A key that orders the non-NaN patterns of a format by value, −0 below +0. -/
def Fmt.order (f : Fmt) (b : Nat) : Int :=
  if f.sign ≤ b then -(b - f.sign : Nat) - 1 else b

/-- Comparison of two non-NaN values: −1, 0 or 1. -/
def cmpV (a b : FVal) : Int :=
  match a, b with
  | .inf x, .inf y => if x = y then 0 else if x then -1 else 1
  | .inf x, _ => if x then -1 else 1
  | _, .inf y => if y then 1 else -1
  | .fin n1 m1 e1, .fin n2 m2 e2 =>
    let e0 := min e1 e2
    (scaled n1 m1 e1 e0 - scaled n2 m2 e2 e0).sign
  | _, _ => 0

/-- The lesser (or greater) of two operands (R174). -/
def Fmt.minmax (f : Fmt) (v : Env) (great : Bool) (a b : Nat) : Nat × Nat :=
  let x := f.operand v a
  let y := f.operand v b
  if x.isNan || y.isNan then (f.nan, x.sig ||| y.sig)
  else
    let flush := fun c => if v.daz && f.subnormal c then c / f.sign % 2 * f.sign else c
    let a := flush a
    let b := flush b
    let r := if great = decide (f.order a < f.order b) then b else a
    if v.fz && f.subnormal r then (r / f.sign % 2 * f.sign, uf ||| nx) else (r, 0)

/-- A finite value rounded to an integer under a mode: magnitude and whether it is inexact. -/
def toIntegral (rm : Rm) (neg : Bool) (m : Nat) (e : Int) (sticky : Bool) : Nat × Bool :=
  if 0 ≤ e then (m * 2 ^ e.toNat, sticky)
  else
    let (q, c, inexact) := splitAt m (-e).toNat sticky
    (if roundUp rm neg q c inexact then q + 1 else q, inexact)

/-- The format of a float type (R54). -/
def Ty.fmt : Ty → Fmt
  | .b4 => .bf16 | .h4 => .fp16 | _ => .fp32

end Sys2Proof.Machine
end

