-- ==== Sys2Proof/Machine/Operands.lean ====
section
/-! DEFINITION. Operand forms: lanes of a datum (R54), immediate operands and replacement values (R59), effective
addresses (R61, R184, R310). -/

namespace Sys2Proof.Machine

/-- Lane `k` of a datum of type `t`, as a number (R54). -/
def lane (t : Ty) (w : Word) (k : Nat) : Nat := w.toNat / 2 ^ (t.width * k) % 2 ^ t.width

/-- The numbers of the first `n` lanes packed `w` bits apart, lane 0 lowest. -/
def packLanes (w : Nat) (f : Nat → Nat) : Nat → Nat
  | 0 => 0
  | n + 1 => packLanes w f n + f n % 2 ^ w * 2 ^ (w * n)

/-- The datum whose lane `k` is `f k`; `.f` leaves [63:32] zero (R54). -/
def ofLanes (t : Ty) (f : Nat → Nat) : Word := BitVec.ofNat 64 (packLanes t.width f t.lanes)

/-- One-operand lane-wise result (R162). -/
def map1 (t : Ty) (f : Nat → Nat) (a : Word) : Word := ofLanes t fun k => f (lane t a k)

/-- Two-operand lane-wise result. -/
def map2 (t : Ty) (f : Nat → Nat → Nat) (a b : Word) : Word := ofLanes t fun k => f (lane t a k) (lane t b k)

/-- Three-operand lane-wise result. -/
def map3 (t : Ty) (f : Nat → Nat → Nat → Nat) (a b c : Word) : Word :=
  ofLanes t fun k => f (lane t a k) (lane t b k) (lane t c k)

/-- A lane-wise result with flags. -/
def mapF (t : Ty) (f : Nat → Nat × Nat) : Word × Nat :=
  (ofLanes t fun k => (f k).1, allFlags ((List.range t.lanes).map f))

/-- A number as a two's complement number modulo `2^w`. -/
def wrap (w : Nat) (i : Int) : Nat := (i % (2 ^ w : Nat)).toNat

/-- The value-layout immediate: VAL of 21 bits in every lane (R59). -/
def valOperand (t : Ty) (v : BitVec 21) : Word :=
  match t with
  | .q => ofLanes t fun _ => wrap 64 (sextNat 21 v.toNat)
  | .d2 => ofLanes t fun _ => wrap 32 (sextNat 21 v.toNat)
  | .f | .f2 => ofLanes t fun _ => v.toNat * 2048
  | .b4 | .h4 | .w4 | .o8 => ofLanes t fun _ => v.toNat

/-- The signed-value-layout immediate: VAL of 20 bits (R59). -/
def svalOperand (t : Ty) (x : SValImm) : Word :=
  match t with
  | .q => ofLanes t fun _ => wrap 64 (sextNat 20 x.v.toNat)
  | .d2 => ofLanes t fun _ => wrap 32 (sextNat 20 x.v.toNat)
  | .f | .f2 | .b4 | .h4 | .w4 | .o8 => ofLanes t fun _ => x.v.toNat

/-- The compare-layout immediate: VAL of 17 bits (R59). -/
def cmpOperand (t : Ty) (x : CmpImm) : Word :=
  match t with
  | .q => ofLanes t fun _ => wrap 64 (sextNat 17 x.v.toNat)
  | .d2 => ofLanes t fun _ => wrap 32 (sextNat 17 x.v.toNat)
  | .f | .f2 => ofLanes t fun _ => x.v.toNat * 32768
  | .b4 | .h4 | .w4 | .o8 => ofLanes t fun _ => x.v.toNat

/-- A lane read signed or unsigned (R99). -/
def laneInt (t : Ty) (z : Bool) (n : Nat) : Int := if z then n else sextNat t.width n

/-- The effective address a + sext(OFFSET) × unit, modulo 2⁶⁴ (R184, R310). -/
def effAddr (a : Word) (bits off unit : Nat) : Word := a + Word.ofI (sextNat bits off * unit)

/-- An address with its low bits below `size` cleared (R184). -/
def alignDown (a : Word) (size : Nat) : Word := BitVec.ofNat 64 (a.toNat / size * size)

/-- The access size of `LD`, `ST` and the full/empty instructions (R184, R317). -/
def accSize (t : Ty) : Nat := if t = .f then 4 else 8

/-- The lane size of a type in bytes (R310). -/
def laneSize (t : Ty) : Nat := t.width / 8

end Sys2Proof.Machine
end

