-- ==== Sys2Proof/Machine/Fire.lean ====
section
/-! DEFINITION. Firing (R20–R24, R129, R426): which complete set of operands an instruction fires, what its predicate
and empty policy make of it, and the shared shape of every instruction's meaning. -/

namespace Sys2Proof.Machine

/-- The data operands of a firing. -/
structure Vals where
  a : Word
  b : Word
  c : Word
  deriving DecidableEq, Repr

/-- A complete set of operands: tag, element index, L (R129), operand values. -/
structure Ready where
  tag : Nat
  idx : Nat
  l : Bool
  v : Vals
  deriving DecidableEq, Repr

/-- What becomes of an element: it produces nothing (R22, R23 EP 00), it is forwarded empty (EP 01), or the
instruction fires normally. -/
inductive Kind where
  | nothing | forward | go
  deriving DecidableEq, Repr

/-- What a station can do now: trap on an empty operand (EP 11), or settle an element. -/
inductive Pick where
  | trap (r : Ready)
  | settle (k : Kind) (r : Ready)
  deriving DecidableEq, Repr

/-- The entries of a slot that may pair now (R426): all of them when no slot holds a switch token; those ahead of the
switch until every waited slot has received it; then all. -/
def ahead : List Entry → List (Tok × Nat)
  | [] => []
  | .switch _ :: _ => []
  | .tok t n :: r => (t, n) :: ahead r

/-- Every token of a slot. -/
def tokens : List Entry → List (Tok × Nat)
  | [] => []
  | .switch _ :: r => tokens r
  | .tok t n :: r => (t, n) :: tokens r

/-- Whether a slot has received a switch token. -/
def hasSwitch (l : List Entry) : Bool := l.any fun e => match e with | .switch _ => true | .tok _ _ => false

/-- The used slots that wait for a switch token: those that hold one, or that `CARRY` does not feed; a slot fed by
`CARRY` never holds one. -/
def Node.switched (nd : Node) (waited : List Slot) : Bool := waited.all fun sl => hasSwitch (nd.buf sl)

/-- The tokens of a slot that may pair now, at the copies that hold the word in front. -/
def Node.visible (nd : Node) (waited : List Slot) (sl : Slot) : List (Tok × Nat) :=
  (if nd.switched waited then tokens (nd.buf sl) else ahead (nd.buf sl)).filter fun e => nd.serves e.1.idx

/-- A token of (tag, idx) among visible ones. -/
def findTok (l : List (Tok × Nat)) (tag idx : Nat) : Option (Tok × Nat) :=
  l.find? fun e => decide (e.1.tag = tag ∧ e.1.idx = idx)

/-- A complete set: one token per used slot, with the arrival number of the last. -/
def Node.setOf (nd : Node) (waited slots : List Slot) (tag idx : Nat) : Option (List (Slot × Tok) × Nat) :=
  slots.foldr (fun sl acc =>
    match findTok (nd.visible waited sl) tag idx, acc with
    | some (t, n), some (l, m) => some ((sl, t) :: l, max n m)
    | _, _ => none) (some ([], 0))

/-- Whether a token of (tag, idx) stands ahead of the switch token in a waited slot of `slots` (R426); true until every
waited slot has received it. A slot that `CARRY` feeds holds no switch token, and none of its tokens stands ahead of one. -/
def Node.setAhead (nd : Node) (waited slots : List Slot) (tag idx : Nat) : Bool :=
  !nd.switched waited || waited.isEmpty
    || slots.any fun sl => waited.contains sl && (findTok (ahead (nd.buf sl)) tag idx).isSome

/-- A set put among others in the order in which their last operands arrived (R21). -/
def insertSet (c : List (Slot × Tok) × Nat) : List (List (Slot × Tok) × Nat) → List (List (Slot × Tok) × Nat)
  | [] => [c]
  | d :: r => if c.2 ≤ d.2 then c :: d :: r else d :: insertSet c r

/-- The complete sets of the elements not yet fired, the one whose last operand arrived first in front (R21). -/
def Node.sets (nd : Node) (waited slots : List Slot) : List (List (Slot × Tok)) :=
  match slots with
  | [] => []
  | sl :: _ =>
    (((nd.visible waited sl).filterMap fun e =>
      if nd.fired.contains ⟨e.1.tag, e.1.idx⟩ || !nd.setAhead waited slots e.1.tag e.1.idx then none
      else nd.setOf waited slots e.1.tag e.1.idx).foldr insertSet []).map fun c => c.1

/-- The value of an operand: its data, or the replacement value when it is empty under EP 10. -/
def operandOf (repl : Word) (l : List (Slot × Tok)) (sl : Slot) (d : Word) : Word :=
  match l.find? fun e => decide (e.1 = sl) with
  | some (_, t) => if t.e then repl else t.data
  | none => d

/-- What the predicate says (R22): none when it lets the element through. -/
inductive PredOut where
  | pass | mismatch | forward | trap
  deriving DecidableEq, Repr

/-- The predicate settled first (R22). -/
def predOf (h : Hdr) (repl : Word) (l : List (Slot × Tok)) : PredOut :=
  match l.find? fun e => decide (e.1 = Slot.p) with
  | none => .pass
  | some (_, t) =>
    if t.e then match h.ep with
      | .absorb => .mismatch
      | .forward => .forward
      | .replace => if repl.bit 0 = h.pp then .pass else .mismatch
      | .trap => .trap
    else if t.data.bit 0 = h.pp then .pass else .mismatch

/-- A set settled by its predicate and by EP (R22, R23). -/
def settle (h : Hdr) (repl imm : Word) (l : List (Slot × Tok)) : Option Pick :=
  let data := l.filter fun e => decide (e.1 ≠ Slot.p)
  match l with
  | [] => none
  | (_, t0) :: _ =>
    let r : Ready := {
      tag := t0.tag, idx := t0.idx, l := data.any fun e => e.2.l,
      v := ⟨operandOf repl l .a 0, operandOf repl l .b imm, operandOf repl l .c 0⟩ }
    some (match predOf h repl l with
    | .mismatch => .settle .nothing r
    | .forward => .settle .forward r
    | .trap => .trap r
    | .pass =>
      if data.any fun e => e.2.e then match h.ep with
        | .absorb => .settle .nothing r
        | .forward => .settle .forward r
        | .replace => .settle .go r
        | .trap => .trap r
      else .settle .go r)

/-- The slots an instruction uses: the given data slots, and p when PV is 1 (R20). -/
def usedSlots (h : Hdr) (data : List Slot) : List Slot := if h.pv then data ++ [.p] else data

/-- The used slots on which a station waits for a switch token: those whose arc `CARRY` does not feed (R426). -/
def Inst.waited (x : Inst) (i : Nat) (slots : List Slot) : List Slot :=
  slots.filter fun sl => match x.producer i sl with
    | none => false
    | some (j, _) => match x.nodes[j]? with
      | none => false
      | some p => decide ((wordOp p.word).toNat ≠ 0x0D)

/-- The tag of a pick. -/
def Pick.tag : Pick → Nat
  | .trap r => r.tag
  | .settle _ r => r.tag

/-- Picks that may go: one whose targets have no room holds back the later ones of its tag (R18, R25). -/
def keepRoom (x : Inst) (nd : Node) : List Nat → List Pick → List Pick
  | _, [] => []
  | held, p :: r =>
    if held.contains p.tag then keepRoom x nd held r
    else match p with
      | .trap q => .trap q :: keepRoom x nd held r
      | .settle k q =>
        if x.roomFor nd nd.targets q.tag q.idx then .settle k q :: keepRoom x nd held r
        else keepRoom x nd (q.tag :: held) r

/-- What station `i` can do, in the order of R21: nothing while it holds outputs or anti-tokens (R18). -/
def Inst.readies (x : Inst) (i : Nat) (h : Hdr) (data : List Slot) (repl imm : Word) (room : Bool) : List Pick :=
  match x.nodes[i]? with
  | none => []
  | some nd =>
    if !nd.outq.isEmpty || !nd.antiOut.isEmpty then []
    else
      let l := (nd.sets (x.waited i (usedSlots h data)) (usedSlots h data)).filterMap (settle h repl imm)
      if room then keepRoom x nd [] l else l

/-- The operands of an element taken from the slots, and the firing recorded (R21). -/
def Node.consume (nd : Node) (slots : List Slot) (tag idx : Nat) (l : Bool) : Node :=
  let n := slots.foldl (fun n sl => n.setBuf sl (dropFirst (Entry.is tag idx) (n.buf sl))) nd
  { n with fired := ⟨tag, idx⟩ :: n.fired, lasts := if l then tag :: n.lasts else n.lasts }

/-- Station `i` has fired for an element: its operands are consumed. -/
def State.consume (s : State) (st : SRef) (i : Nat) (h : Hdr) (data : List Slot) (r : Ready) : State :=
  s.modNode st i fun n => n.consume (usedSlots h data) r.tag r.idx r.l

/-- What targets have cancelled of an element that produces no output is forgotten (R35, R39). -/
def Node.forget (nd : Node) (a : Anti) : Node :=
  { nd with
    antis := nd.antis.filter fun e => decide (e.2 ≠ a)
    withheld := nd.withheld.filter fun e => decide (e.2 ≠ a) }

/-- The effectful instructions (R35) by opcode. -/
def effectfulOp (op : Nat) : Bool :=
  op == 0x02 || decide (0x15 ≤ op ∧ op ≤ 0x19) || [0x84, 0x85, 0x86, 0x88, 0x89, 0x8B, 0x8C, 0x8D, 0x8E].contains op
    || [0xA1, 0xA3, 0xA4, 0xA6, 0xA7, 0xA8, 0xA9, 0xAA, 0xAC, 0xAE, 0xAF, 0xB0, 0xB2, 0xB3, 0xB4].contains op
    || decide (0xC0 ≤ op ∧ op ≤ 0xD1) || op == 0xE1 || op == 0xE2 || op == 0xE3 || decide (0xE5 ≤ op ∧ op ≤ 0xE9)

/-- An element for which a station has fired with no output: what targets have cancelled of it is forgotten, and an
anti-token that reaches an effectful instruction for it later is discarded (R39). -/
def Node.spent (nd : Node) (a : Anti) : Node :=
  if effectfulOp (wordOp nd.word).toNat then
    { nd.forget a with sent := nd.sent ++ nd.targets.map fun t => (t, a) }
  else nd.forget a

/-- An element that produces nothing still keeps its stream's end (R24). -/
def State.emitNothing (s : State) (st : SRef) (i : Nat) (r : Ready) : State :=
  if r.l then s.emit st i ⟨0, r.tag, r.idx, true, true⟩ else s.modNode st i fun n => n.spent ⟨r.tag, r.idx⟩

/-- The empty token of EP 01 (R23). -/
def State.emitForward (s : State) (st : SRef) (i : Nat) (r : Ready) : State :=
  s.emit st i ⟨0, r.tag, r.idx, r.l, true⟩

/-- The output of a firing: the operands' tag, element index and L (R129). -/
def State.emitData (s : State) (st : SRef) (i : Nat) (r : Ready) (w : Word) : State :=
  s.emit st i ⟨w, r.tag, r.idx, r.l, false⟩

/-- The rounding environment of an instance: its captured `fpc` (R49, R117). -/
def State.env (s : State) (st : SRef) : Env :=
  match s.inst? st with
  | some x => .ofFpc x.fpc
  | none => .ofFpc 0

/-- A step at the station named by `cur`. A halted slice fires nothing (R413): nothing happens. -/
def atStation (s : State) (k : SRef → Nat → State → State) : Host.Outcome State Fault Refusal :=
  match s.cur with
  | none => .fault .noStation
  | some c => match s.slice? c.st.slice, s.inst? c.st with
    | some x, some _ => if x.live then .next (k c.st c.idx (s.drain c.st c.idx)) else .next s
    | _, _ => .fault .noStation

/-- A station settles its next element and `act` says what that does. -/
def fireWith (h : Hdr) (data : List Slot) (repl imm : Word) (room : Bool)
    (act : SRef → Nat → Kind → Ready → State → State) (s : State) : Host.Outcome State Fault Refusal :=
  atStation s fun st i s =>
    match s.inst? st with
    | none => s
    | some x => match x.readies i h data repl imm room with
      | [] => s
      | .trap r :: _ => s.trapStation st i 0x06 0 r.tag r.idx 0 0
      | .settle k r :: _ => act st i k r s

/-- What every instruction does with an element that produces nothing or is forwarded (R23, R24). -/
def settleEmpty (h : Hdr) (data : List Slot) (st : SRef) (i : Nat) (k : Kind) (r : Ready)
    (go : State → State) (s : State) : State :=
  match k with
  | .nothing => (s.consume st i h data r).emitNothing st i r
  | .forward => (s.consume st i h data r).emitForward st i r
  | .go => go s

/-- A pure instruction: its result and flags from the operands under the captured `fpc` (R162, R163). -/
def firePure (h : Hdr) (data : List Slot) (repl imm : Word) (g : Env → Vals → Word × Nat) (s : State) :
    Host.Outcome State Fault Refusal :=
  fireWith h data repl imm true (fun st i k r s =>
    settleEmpty h data st i k r (fun s =>
      let o := g (s.env st) r.v
      ((s.consume st i h data r).raise st o.2).emitData st i r o.1) s) s

/-- What performing an effect comes to: it is done (or has trapped), or it waits with its operands in place. -/
inductive Eff where
  | done (s : State)
  | wait (s : State)

/-- Whether an output of an earlier element of a tag is still owed to a station by an issued access or a wait: results
leave in element order (R19, R25). -/
def Strand.owesTag (t : Strand) (i tag : Nat) : Bool :=
  t.pend.any (fun a => a.node == i && a.tag == tag) || t.waits.any fun w => w.node == i && w.tok.tag == tag

/-- `Strand.owesTag` of a strand of the package. -/
def State.owesTag (s : State) (st : SRef) (i tag : Nat) : Bool :=
  match s.strand? st with
  | some t => t.owesTag i tag
  | none => false

/-- The picks of a station tried in order: one that waits, and an empty output whose turn has not come, holds back the later
ones of its tag (R25). -/
def tryPicks (h : Hdr) (data : List Slot) (eff : SRef → Nat → Ready → State → Eff) (st : SRef) (i : Nat) :
    List Nat → List Pick → State → State
  | _, [], s => s
  | held, p :: l, s =>
    if held.contains p.tag then tryPicks h data eff st i held l s
    else match p with
      | .trap r => s.trapStation st i 0x06 0 r.tag r.idx 0 0
      | .settle .nothing r =>
        if r.l && s.owesTag st i r.tag then tryPicks h data eff st i (r.tag :: held) l s
        else (s.consume st i h data r).emitNothing st i r
      | .settle .forward r =>
        if s.owesTag st i r.tag then tryPicks h data eff st i (r.tag :: held) l s
        else (s.consume st i h data r).emitForward st i r
      | .settle .go r => match eff st i r s with
        | .done t => t
        | .wait t => tryPicks h data eff st i (r.tag :: held) l t

/-- An instruction with an effect: `eff` performs it once its operands are there; it consumes them itself, so that
it may wait or trap with its operands in place (R412). -/
def fireEff (h : Hdr) (data : List Slot) (repl imm : Word)
    (eff : SRef → Nat → Ready → State → Eff) (s : State) : Host.Outcome State Fault Refusal :=
  atStation s fun st i s =>
    match s.inst? st with
    | none => s
    | some x => tryPicks h data eff st i [] (x.readies i h data repl imm true) s

/-- Whether a station is free to fire: it holds no output and no anti-token (R18). -/
def Node.free (nd : Node) : Bool := nd.outq.isEmpty && nd.antiOut.isEmpty

/-- The token of a slot in a set. -/
def tokOf (l : List (Slot × Tok)) (sl : Slot) : Option Tok :=
  (l.find? fun e => decide (e.1 = sl)).map fun e => e.2

/-- An instruction that settles predicates and empty operands by its own rule: each complete set in the order of
R21 is given to `act`, until one is done. -/
def trySets (act : SRef → Nat → List (Slot × Tok) → Ready → State → Eff) (st : SRef) (i : Nat) :
    List Nat → List (List (Slot × Tok)) → State → State
  | _, [], s => s
  | held, l :: ls, s =>
    match l with
    | [] => trySets act st i held ls s
    | (_, t0) :: _ =>
      if held.contains t0.tag then trySets act st i held ls s
      else
        let data := l.filter fun e => decide (e.1 ≠ Slot.p)
        match act st i l ⟨t0.tag, t0.idx, data.any fun e => e.2.l, ⟨operandOf 0 l .a 0, operandOf 0 l .b 0, operandOf 0 l .c 0⟩⟩ s with
        | .done t => t
        | .wait t => trySets act st i (t0.tag :: held) ls t

/-- A step of an instruction that settles its operands by its own rule. -/
def fireRaw (h : Hdr) (data : List Slot) (act : SRef → Nat → List (Slot × Tok) → Ready → State → Eff) (s : State) :
    Host.Outcome State Fault Refusal :=
  atStation s fun st i s =>
    match s.inst? st, s.node? st i with
    | some x, some nd =>
      if nd.free then trySets act st i [] (nd.sets (x.waited i (usedSlots h data)) (usedSlots h data)) s else s
    | _, _ => s

/-- A step of an instruction that settles its operands by its own rule, strictly in the order of R21: a set that waits
holds back every later one. -/
def fireInOrder (h : Hdr) (data : List Slot) (act : SRef → Nat → List (Slot × Tok) → Ready → State → Eff) (s : State) :
    Host.Outcome State Fault Refusal :=
  atStation s fun st i s =>
    match s.inst? st, s.node? st i with
    | some x, some nd =>
      if nd.free then
        trySets act st i [] ((nd.sets (x.waited i (usedSlots h data)) (usedSlots h data)).take 1) s
      else s
    | _, _ => s

/-- Output `t` of station `i` may leave for the targets `ts` (R18). -/
def State.outRoom (s : State) (st : SRef) (i : Nat) (ts : List Nat) (tag idx : Nat) : Bool :=
  match s.inst? st with
  | none => false
  | some x => match x.nodes[i]? with
    | none => false
    | some nd => x.roomFor nd ts tag idx

/-- The targets of a station. -/
def State.targets (s : State) (st : SRef) (i : Nat) : List Nat :=
  match s.node? st i with
  | some nd => nd.targets
  | none => []

/-- A start-fired instruction (R16): it fires once, under the block tag, with L set (R129). -/
def fireStart (val : SRef → State → Word) (s : State) : Host.Outcome State Fault Refusal :=
  atStation s fun st i s =>
    match s.node? st i with
    | none => s
    | some nd =>
      if nd.fired.contains ⟨0, 0⟩ || !nd.free then s
      else if s.outRoom st i nd.targets 0 0 then
        (s.modNode st i fun n => { n with fired := [⟨0, 0⟩] }).emit st i ⟨val st s, 0, 0, true, false⟩
      else s

end Sys2Proof.Machine
end

