-- ==== Sys2Proof/Machine/IntOps.lean ====
section
/-! DEFINITION. Integer and address instructions, opcodes 0x20 to 0x3F (R162–R172). Each is a lane function over the
shared firing of a pure instruction. -/

namespace Sys2Proof.Machine

/-! Lane functions: `w` is the lane width, operands are numbers below 2^w (R164–R170) -/

/-- Bits of a number complemented. -/
def notN (w a : Nat) : Nat := 2 ^ w - 1 - a

/-- High half of the exact product (R164). -/
def mulhLane (w : Nat) (z : Bool) (a b : Nat) : Nat :=
  if z then a * b / 2 ^ w else wrap w (sextNat w a * sextNat w b / (2 ^ w : Nat))

/-- The lesser of two lanes (R164). -/
def minLane (w : Nat) (z : Bool) (a b : Nat) : Nat :=
  if z then min a b else if sextNat w a ≤ sextNat w b then a else b

/-- The greater of two lanes (R164). -/
def maxLane (w : Nat) (z : Bool) (a b : Nat) : Nat :=
  if z then max a b else if sextNat w a ≤ sextNat w b then b else a

/-- The quotient of R165. -/
def divLane (w : Nat) (z : Bool) (a b : Nat) : Nat :=
  if b = 0 then 2 ^ w - 1
  else if z then a / b else wrap w ((sextNat w a).tdiv (sextNat w b))

/-- The remainder of R165. -/
def remLane (w : Nat) (z : Bool) (a b : Nat) : Nat :=
  if b = 0 then a
  else if z then a % b else wrap w ((sextNat w a).tmod (sextNat w b))

/-- A left shift by b mod w (R166). -/
def shlLane (w a b : Nat) : Nat := a * 2 ^ (b % w) % 2 ^ w

/-- A right shift by b mod w, signed or unsigned (R166). -/
def shrLane (w : Nat) (z : Bool) (a b : Nat) : Nat :=
  if z then a / 2 ^ (b % w) else wrap w (sextNat w a / (2 ^ (b % w) : Nat))

/-- A left rotation by b mod w (R166). -/
def rolLane (w a b : Nat) : Nat := a * 2 ^ (b % w) % 2 ^ w + a / 2 ^ (w - b % w)

/-- The absolute value; the most negative value stays itself (R167). -/
def absLane (w a : Nat) : Nat := if 0 ≤ sextNat w a then a else wrap w (-(a : Int))

/-- Leading zero bits of a number below 2^w (R167). -/
def clzLane : Nat → Nat → Nat
  | 0, _ => 0
  | w + 1, a => if a / 2 ^ w % 2 = 1 then 0 else 1 + clzLane w a

/-- Trailing zero bits, `w` when there is no one bit (R167). -/
def ctzLane : Nat → Nat → Nat
  | 0, _ => 0
  | w + 1, a => if a % 2 = 1 then 0 else 1 + ctzLane w (a / 2)

/-- One bits (R167). -/
def popcLane : Nat → Nat → Nat
  | 0, _ => 0
  | w + 1, a => a % 2 + popcLane w (a / 2)

/-- Bits in reverse order (R167). -/
def brevLane : Nat → Nat → Nat
  | 0, _ => 0
  | w + 1, a => a % 2 * 2 ^ w + brevLane w (a / 2)

/-- A value clamped to the range of a `v`-bit integer, signed or unsigned (R168). -/
def clampTo (v : Nat) (z : Bool) (x : Int) : Int :=
  if z then max 0 (min x ((2 ^ v : Nat) - 1)) else max (-(2 ^ (v - 1) : Nat)) (min x ((2 ^ (v - 1) : Nat) - 1))

/-- `SAT` of one lane (R168): read, clamped to half the width, extended back. Under .z the lane is read unsigned. -/
def satLane (w : Nat) (z : Bool) (a : Nat) : Nat :=
  wrap w (clampTo (w / 2) z (if z then a else sextNat w a))

/-- `EXT` of one lane (R168). -/
def extLane (w : Nat) (z : Bool) (a : Nat) : Nat :=
  if z then a % 2 ^ (w / 2) else wrap w (sextNat (w / 2) a)

/-- `PACK` (R168): 2n half-width lanes, a's then b's, clamped. -/
def packWord (t : Ty) (z : Bool) (a b : Word) : Word :=
  BitVec.ofNat 64 (packLanes (t.width / 2)
    (fun k => satLane t.width z (if k < t.lanes then lane t a k else lane t b (k - t.lanes))) (2 * t.lanes))

/-- `UNPK` (R168): the half-width lanes of a[31:0], extended. -/
def unpkWord (t : Ty) (z : Bool) (a : Word) : Word :=
  ofLanes t fun k => extLane t.width z (a.toNat / 2 ^ (t.width / 2 * k) % 2 ^ (t.width / 2))

/-- The field of `EXTR` (R169): bits at or above w are not read. -/
def extrLane (pos len a : Nat) : Nat := a / 2 ^ pos % 2 ^ len

/-- The lane of `INS` (R169): bits [pos+len−1:pos] of a replaced by the low bits of b. -/
def insLane (w pos len a b : Nat) : Nat :=
  (a % 2 ^ pos + b % 2 ^ len * 2 ^ pos + a / 2 ^ (pos + len) * 2 ^ (pos + len)) % 2 ^ w

/-- A comparison of two lanes (R60, R170). -/
def condInt (w : Nat) (c : Cond) (a b : Nat) : Bool :=
  match c with
  | .eq => decide (a = b) | .ne => decide (a ≠ b)
  | .lt => decide (sextNat w a < sextNat w b) | .le => decide (sextNat w a ≤ sextNat w b)
  | .gt => decide (sextNat w b < sextNat w a) | .ge => decide (sextNat w b ≤ sextNat w a)
  | .lo => decide (a < b) | .ls => decide (a ≤ b) | .hi => decide (b < a) | .hs => decide (b ≤ a)
  | .un => false | .or => false

/-- All ones of the lane width, or zero (R170). -/
def maskLane (w : Nat) (b : Bool) : Nat := if b then 2 ^ w - 1 else 0

/-- The address of `LEA` (R171). -/
def leaWord (im : Bool) (x : AddrImm) (a b : Word) : Word :=
  let d := sextNat 18 x.disp.toNat
  if im then a + Word.ofI (d * 2 ^ x.scale.toNat) else a + b * BitVec.ofNat 64 (2 ^ x.scale.toNat) + Word.ofI d

/-- The source lane of lane `k` (R62, R172). -/
def swzSel (t : Ty) (sel : BitVec 8) (b : Word) (k : Nat) : Nat :=
  match t with
  | .d2 | .f2 => sel.toNat / 2 ^ k % 2
  | .o8 => b.toNat / 2 ^ (3 * k) % 8
  | _ => sel.toNat / 4 ^ k % 4

/-- `SWZ` (R172): lanes moved unchanged. -/
def swzWord (t : Ty) (sel : BitVec 8) (a b : Word) : Word := ofLanes t fun k => lane t a (swzSel t sel b k)

/-! Operand slots -/

/-- Slots a and b, or a alone when b is an immediate (R56). -/
def slotsAB (h : Hdr) : List Slot := if h.im then [.a] else [.a, .b]

/-- An optional slot is used exactly when an arc feeds it (R64). -/
def withOpt (s : State) (req : List Slot) (sl : Slot) : List Slot :=
  match s.cur with
  | none => req
  | some c => match s.node? c.st c.idx with
    | none => req
    | some nd => if nd.fed.contains sl then req ++ [sl] else req

/-- A one-operand instruction of the value layout (R167, R175). -/
def fireVal1 (h : Hdr) (v : BitVec 21) (f : Word → Word) (s : State) : Host.Outcome State Fault Refusal :=
  firePure h [.a] (valOperand h.ty v) 0 (fun _ o => (f o.a, 0)) s

/-- A two-operand instruction of the value layout (R164, R166). -/
def fireVal2 (h : Hdr) (v : BitVec 21) (f : Word → Word → Word) (s : State) : Host.Outcome State Fault Refusal :=
  firePure h (slotsAB h) (valOperand h.ty v) (valOperand h.ty v) (fun _ o => (f o.a o.b, 0)) s

/-- A one-operand instruction of the signed value layout (R168). -/
def fireSVal1 (h : Hdr) (x : SValImm) (f : Word → Word) (s : State) : Host.Outcome State Fault Refusal :=
  firePure h [.a] (svalOperand h.ty x) 0 (fun _ o => (f o.a, 0)) s

/-- A two-operand instruction of the signed value layout (R164–R168). -/
def fireSVal2 (h : Hdr) (x : SValImm) (f : Word → Word → Word) (s : State) : Host.Outcome State Fault Refusal :=
  firePure h (slotsAB h) (svalOperand h.ty x) (svalOperand h.ty x) (fun _ o => (f o.a o.b, 0)) s

/-- `ADD` (R164): modulo 2^w. -/
def execAdd (h : Hdr) (v : BitVec 21) (s : State) : Host.Outcome State Fault Refusal :=
  fireVal2 h v (map2 h.ty fun a b => a + b) s

/-- `SUB` (R164): modulo 2^w. -/
def execSub (h : Hdr) (v : BitVec 21) (s : State) : Host.Outcome State Fault Refusal :=
  fireVal2 h v (map2 h.ty fun a b => a + 2 ^ h.ty.width - b) s

/-- `MUL` (R164): modulo 2^w. -/
def execMul (h : Hdr) (v : BitVec 21) (s : State) : Host.Outcome State Fault Refusal :=
  fireVal2 h v (map2 h.ty fun a b => a * b) s

/-- `AND` (R164). -/
def execAnd (h : Hdr) (v : BitVec 21) (s : State) : Host.Outcome State Fault Refusal :=
  fireVal2 h v (· &&& ·) s

/-- `OR` (R164). -/
def execOr (h : Hdr) (v : BitVec 21) (s : State) : Host.Outcome State Fault Refusal :=
  fireVal2 h v (· ||| ·) s

/-- `XOR` (R164). -/
def execXor (h : Hdr) (v : BitVec 21) (s : State) : Host.Outcome State Fault Refusal :=
  fireVal2 h v (· ^^^ ·) s

/-- `ANDN` (R164). -/
def execAndn (h : Hdr) (v : BitVec 21) (s : State) : Host.Outcome State Fault Refusal :=
  fireVal2 h v (fun a b => a &&& ~~~b) s

/-- `SHL` (R166). -/
def execShl (h : Hdr) (v : BitVec 21) (s : State) : Host.Outcome State Fault Refusal :=
  fireVal2 h v (map2 h.ty (shlLane h.ty.width)) s

/-- `ROL` (R166). -/
def execRol (h : Hdr) (v : BitVec 21) (s : State) : Host.Outcome State Fault Refusal :=
  fireVal2 h v (map2 h.ty (rolLane h.ty.width)) s

/-- `MAD` (R164): an immediate stands in slot b, and c comes from an arc. -/
def execMad (h : Hdr) (v : BitVec 21) (s : State) : Host.Outcome State Fault Refusal :=
  firePure h (slotsAB h ++ [.c]) (valOperand h.ty v) (valOperand h.ty v)
    (fun _ o => (map3 h.ty (fun a b c => a * b + c) o.a o.b o.c, 0)) s

/-- `MULH` (R164). -/
def execMulh (h : Hdr) (x : SValImm) (s : State) : Host.Outcome State Fault Refusal :=
  fireSVal2 h x (map2 h.ty (mulhLane h.ty.width x.z)) s

/-- `DIV` (R165). -/
def execDiv (h : Hdr) (x : SValImm) (s : State) : Host.Outcome State Fault Refusal :=
  fireSVal2 h x (map2 h.ty (divLane h.ty.width x.z)) s

/-- `REM` (R165). -/
def execRem (h : Hdr) (x : SValImm) (s : State) : Host.Outcome State Fault Refusal :=
  fireSVal2 h x (map2 h.ty (remLane h.ty.width x.z)) s

/-- `MIN` (R164). -/
def execMin (h : Hdr) (x : SValImm) (s : State) : Host.Outcome State Fault Refusal :=
  fireSVal2 h x (map2 h.ty (minLane h.ty.width x.z)) s

/-- `MAX` (R164). -/
def execMax (h : Hdr) (x : SValImm) (s : State) : Host.Outcome State Fault Refusal :=
  fireSVal2 h x (map2 h.ty (maxLane h.ty.width x.z)) s

/-- `SHR` (R166). -/
def execShr (h : Hdr) (x : SValImm) (s : State) : Host.Outcome State Fault Refusal :=
  fireSVal2 h x (map2 h.ty (shrLane h.ty.width x.z)) s

/-- `PACK` (R168). -/
def execPack (h : Hdr) (x : SValImm) (s : State) : Host.Outcome State Fault Refusal :=
  fireSVal2 h x (packWord h.ty x.z) s

/-- `NEG` (R167). -/
def execNeg (h : Hdr) (v : BitVec 21) (s : State) : Host.Outcome State Fault Refusal :=
  fireVal1 h v (map1 h.ty fun a => 2 ^ h.ty.width - a) s

/-- `ABS` (R167). -/
def execAbs (h : Hdr) (v : BitVec 21) (s : State) : Host.Outcome State Fault Refusal :=
  fireVal1 h v (map1 h.ty (absLane h.ty.width)) s

/-- `NOT` (R167). -/
def execNot (h : Hdr) (v : BitVec 21) (s : State) : Host.Outcome State Fault Refusal :=
  fireVal1 h v (~~~ ·) s

/-- `CLZ` (R167). -/
def execClz (h : Hdr) (v : BitVec 21) (s : State) : Host.Outcome State Fault Refusal :=
  fireVal1 h v (map1 h.ty (clzLane h.ty.width)) s

/-- `CTZ` (R167). -/
def execCtz (h : Hdr) (v : BitVec 21) (s : State) : Host.Outcome State Fault Refusal :=
  fireVal1 h v (map1 h.ty (ctzLane h.ty.width)) s

/-- `POPC` (R167). -/
def execPopc (h : Hdr) (v : BitVec 21) (s : State) : Host.Outcome State Fault Refusal :=
  fireVal1 h v (map1 h.ty (popcLane h.ty.width)) s

/-- `BREV` (R167). -/
def execBrev (h : Hdr) (v : BitVec 21) (s : State) : Host.Outcome State Fault Refusal :=
  fireVal1 h v (map1 h.ty (brevLane h.ty.width)) s

/-- `SAT` (R168). -/
def execSat (h : Hdr) (x : SValImm) (s : State) : Host.Outcome State Fault Refusal :=
  fireSVal1 h x (map1 h.ty (satLane h.ty.width x.z)) s

/-- `EXT` (R168). -/
def execExt (h : Hdr) (x : SValImm) (s : State) : Host.Outcome State Fault Refusal :=
  fireSVal1 h x (map1 h.ty (extLane h.ty.width x.z)) s

/-- `UNPK` (R168). -/
def execUnpk (h : Hdr) (x : SValImm) (s : State) : Host.Outcome State Fault Refusal :=
  fireSVal1 h x (unpkWord h.ty x.z) s

/-- `EXTR` (R169). -/
def execExtr (h : Hdr) (x : FieldImm) (s : State) : Host.Outcome State Fault Refusal :=
  firePure h [.a] 0 0 (fun _ o => (map1 h.ty (extrLane x.pos.toNat (x.lenM1.toNat + 1)) o.a, 0)) s

/-- `INS` (R169). -/
def execIns (h : Hdr) (x : FieldImm) (s : State) : Host.Outcome State Fault Refusal :=
  firePure h [.a, .b] 0 0
    (fun _ o => (map2 h.ty (insLane h.ty.width x.pos.toNat (x.lenM1.toNat + 1)) o.a o.b, 0)) s

/-- `CMP` (R170). -/
def execCmp (h : Hdr) (x : CmpImm) (s : State) : Host.Outcome State Fault Refusal :=
  firePure h (slotsAB h) (cmpOperand h.ty x) (cmpOperand h.ty x)
    (fun _ o => (map2 h.ty (fun a b => maskLane h.ty.width (condInt h.ty.width x.cond a b)) o.a o.b, 0)) s

/-- `LEA` (R171). -/
def execLea (h : Hdr) (x : AddrImm) (s : State) : Host.Outcome State Fault Refusal :=
  firePure h (slotsAB h) 0 0 (fun _ o => (leaWord h.im x o.a o.b, 0)) s

/-- `SWZ` (R172): slot b is required for `.o8`, and an optional trigger otherwise. -/
def execSwz (h : Hdr) (q : BitVec 8) (s : State) : Host.Outcome State Fault Refusal :=
  firePure h (if h.ty = .o8 then [.a, .b] else withOpt s [.a] .b) 0 0 (fun _ o => (swzWord h.ty q o.a o.b, 0)) s

end Sys2Proof.Machine
end

