-- ==== Sys2Proof/Machine/Transc.lean ====
section
/-! DEFINITION. Correctly rounded exponential, logarithm, hyperbolic tangent (R175) and Gumbel noise (R370, R396):
each is evaluated in binary fixed point with 512 fraction bits and rounded once with a sticky rest. The results of
these functions that are not exact are irrational, and none lies so near a rounding boundary of a 24-bit format that
512 bits do not decide it (log 10). -/

namespace Sys2Proof.Machine

/-- Fraction bits of the fixed-point evaluation. -/
def fixP : Nat := 512

/-- One in fixed point. -/
def fixOne : Nat := 2 ^ 512

/-- Σ z^(2k+1)/(2k+1) by `n` more terms, `t` = z^(2k+1) and `z2` = z². -/
def atanhGo (z2 : Nat) : Nat → Nat → Nat → Nat → Nat
  | 0, _, _, acc => acc
  | n + 1, k, t, acc => atanhGo z2 n (k + 1) (t * z2 / fixOne) (acc + t / (2 * k + 1))

/-- atanh of a fixed-point z in [0, 1/3]. -/
def atanhFix (z : Nat) : Nat := atanhGo (z * z / fixOne) 170 0 z 0

/-- ln 2. -/
def ln2Fix : Nat := 2 * atanhFix (fixOne / 3)

/-- ln of the positive rational `num / 2^sh`, in fixed point. -/
def lnFix (num sh : Nat) : Int :=
  let k := bitLen num - 1
  let m := if k ≤ fixP then num * 2 ^ (fixP - k) else num / 2 ^ (k - fixP)
  let ln := 2 * atanhFix ((m - fixOne) * fixOne / (m + fixOne))
  (ln : Int) + ((k : Int) - sh) * ln2Fix

/-- Σ r^k/k! by `n` more terms. -/
def expGo (r : Nat) : Nat → Nat → Nat → Nat → Nat
  | 0, _, _, acc => acc
  | n + 1, k, t, acc => expGo r n (k + 1) (t * r / fixOne / (k + 1)) (acc + t)

/-- e^r for a fixed-point r in [0, 1). -/
def expFix (r : Nat) : Nat := expGo r 110 0 fixOne 0

/-- A finite magnitude in fixed point, exact when it has no bit below 2^(−512). -/
def toFix (m : Nat) (e : Int) : Nat :=
  if 0 ≤ e + fixP then m * 2 ^ (e + fixP).toNat else m / 2 ^ (-(e + fixP)).toNat

/-- 2^a (R175). -/
def exp2X (a : FVal) : XVal :=
  match a with
  | .nan s => .nan (if s then nv else 0)
  | .inf n => if n then .fin false 0 0 false else .inf false 0
  | .fin n m e =>
    if m = 0 then .fin false 1 0 false
    else if 2000 ≤ toFix m e / fixOne then .fin false fixOne (if n then -2000 - fixP else 2000 - fixP) true
    else
      let x : Int := if n then -(toFix m e : Int) else toFix m e
      let k := x / fixOne
      let f := (x % fixOne).toNat
      if f = 0 then .fin false 1 k false
      else .fin false (expFix (f * ln2Fix / fixOne)) (k - fixP) true

/-- log₂ a (R175). -/
def log2X (a : FVal) : XVal :=
  match a with
  | .nan s => .nan (if s then nv else 0)
  | .inf n => if n then .nan nv else .inf false 0
  | .fin n m e =>
    if m = 0 then .inf true dz
    else if n then .nan nv
    else if m = 2 ^ (bitLen m - 1) then
      let k := e + bitLen m - 1
      .fin (decide (k < 0)) k.natAbs 0 false
    else
      let ln := lnFix m 0 + e * ln2Fix
      .fin (decide (ln < 0)) (ln.natAbs * fixOne / ln2Fix) (-fixP) true

/-- tanh a (R175). -/
def tanhX (a : FVal) : XVal :=
  match a with
  | .nan s => .nan (if s then nv else 0)
  | .inf n => .fin n 1 0 false
  | .fin n m e =>
    if m = 0 then .fin n 0 0 false
    else
      let x := toFix m e
      if 400 * fixOne ≤ x then .fin n (fixOne - 1) (-fixP) true
      else
        let k := 2 * x / ln2Fix
        let big := expFix (2 * x - k * ln2Fix) * 2 ^ k
        .fin n ((big - fixOne) * 2 ^ 700 / (big + fixOne)) (-700) true

/-- −ln(−ln((h + ½) / 2²⁴)) as an exact result (R370). -/
def gumbelX (h : Nat) : XVal :=
  let l := -lnFix (2 * h + 1) 25
  let g := -lnFix l.toNat fixP
  .fin (decide (g < 0)) g.natAbs (-fixP) true

/-- The mixing function of R396, modulo 2⁶⁴. -/
def noiseMix (z : Word) : Word :=
  let z := z ^^^ (z >>> 31)
  let z := z * 0x9B3C5E71D28A4F6D
  let z := z ^^^ (z >>> 29)
  let z := z * 0x6E1F83A5C94B2D07
  z ^^^ (z >>> 32)

/-- h of R396. -/
def noiseHash (a b c : Word) : Nat :=
  (noiseMix (noiseMix (noiseMix a ^^^ b) ^^^ BitVec.ofNat 64 (c.field 31 0))).field 23 0

/-- The noise of R396: RNE whatever `fpc` holds; NX when inexact. -/
def noiseBits (a b c : Word) : Nat × Nat :=
  let (r, fl) := Fmt.fp32.put ⟨.rne, false, false, false⟩ false (gumbelX (noiseHash a b c))
  (r, fl % 2)

end Sys2Proof.Machine
end

