-- ==== Sys2Proof/Machine/FloatOps.lean ====
section
/-! DEFINITION. Float instructions, opcodes 0x50 to 0x68 but `QPACK` and `QUNPK` (R173–R180). -/

namespace Sys2Proof.Machine

/-! Lane functions: bit patterns to a bit pattern and flags -/

/-- `FSCL` (R176): n is b rounded toward zero and clamped to ±1,024. -/
def fsclLane (f : Fmt) (v : Env) (a b : Nat) : Nat × Nat :=
  let x := f.operand v a
  let y := f.operand v b
  if x.isNan || y.isNan then (f.nan, x.sig ||| y.sig)
  else
    let n : Int := match y with
      | .inf neg => if neg then -1024 else 1024
      | .fin neg m e => let k : Nat := min 1024 (toIntegral .rtz neg m e false).1; if neg then -(k : Int) else k
      | .nan _ => 0
    f.put v false (match x with
      | .fin neg m e => .fin neg m (e + n) false
      | o => o.x 0)

/-- `FCLS` (R177): the mask of the operand's class, read from its bits. -/
def fclsLane (f : Fmt) (a : Nat) : Nat :=
  match f.read a with
  | .nan s => if s then 256 else 512
  | .inf neg => if neg then 1 else 128
  | .fin neg m _ =>
    if m = 0 then (if neg then 8 else 16)
    else if f.subnormal a then (if neg then 4 else 32)
    else (if neg then 2 else 64)

/-- `FABS` and `FNEG` (R175): the sign bit changed; a NaN gives the canonical NaN. -/
def fsignLane (f : Fmt) (v : Env) (neg : Bool → Bool) (a : Nat) : Nat × Nat :=
  match f.operand v a with
  | .nan s => (f.nan, if s then nv else 0)
  | .inf n => (f.signed (neg n) f.inf, 0)
  | .fin n m e => f.round v false (neg n) m e false

/-- `FCMP` (R178). -/
def fcmpLane (f : Fmt) (v : Env) (c : Cond) (a b : Nat) : Bool × Nat :=
  let x := f.operand v a
  let y := f.operand v b
  let sig := x.sig ||| y.sig
  if x.isNan || y.isNan then
    match c with
    | .ne | .un => (true, sig)
    | .lt | .le | .gt | .ge => (false, nv)
    | _ => (false, sig)
  else
    let d := cmpV x y
    (match c with
      | .eq => decide (d = 0) | .ne => decide (d ≠ 0) | .lt => decide (d < 0) | .le => decide (d ≤ 0)
      | .gt => decide (0 < d) | .ge => decide (0 ≤ d) | .or => true | _ => false, 0)

/-- `FRND` (R179): an integral value of the same format; no NX. -/
def frndLane (f : Fmt) (v : Env) (a : Nat) : Nat × Nat :=
  match f.operand v a with
  | .nan s => (f.nan, if s then nv else 0)
  | .inf n => (f.signed n f.inf, 0)
  | .fin n m e => ((f.round v false n (toIntegral v.rm n m e false).1 0 false).1, 0)

/-- A lane of a float format converted to another (R118, R179). SAT applies to BF16, FP16 and the 8-bit formats. -/
def convLane (src dst : Fmt) (v : Env) (a : Nat) : Nat × Nat :=
  dst.put v (decide (dst ≠ .fp32)) ((src.operand v a).x 0)

/-- An integer rounded once to a float format (R118). -/
def itofLane (dst : Fmt) (v : Env) (x : Int) : Nat × Nat :=
  dst.put v (decide (dst ≠ .fp32)) (.fin (decide (x < 0)) x.natAbs 0 false)

/-- A float rounded to a `w`-bit integer (R118): out of range gives the nearer bound and NV, NaN gives 0 and NV. -/
def ftoiVal (v : Env) (w : Nat) (z : Bool) (x : FVal) : Nat × Nat :=
  let lo : Int := if z then 0 else -(2 ^ (w - 1) : Nat)
  let hi : Int := if z then (2 ^ w : Nat) - 1 else (2 ^ (w - 1) : Nat) - 1
  match x with
  | .nan _ => (0, nv)
  | .inf neg => (wrap w (if neg then lo else hi), nv)
  | .fin neg m e =>
    let (q, inexact) := toIntegral v.rm neg m e false
    let i : Int := if neg then -(q : Int) else q
    if i < lo then (wrap w lo, nv)
    else if hi < i then (wrap w hi, nv)
    else (wrap w i, if inexact then nx else 0)

/-- The finite numerators of a list of values at exponent `e0`. -/
def sumAt (e0 : Int) : List FVal → Int
  | [] => 0
  | .fin n m e :: r => scaled n m e e0 + sumAt e0 r
  | _ :: r => sumAt e0 r

/-- The least exponent of a list of values, at most 0. -/
def leastExp : List FVal → Int
  | [] => 0
  | .fin _ _ e :: r => min e (leastExp r)
  | _ :: r => leastExp r

/-- An infinity of a sign. -/
def FVal.isInf (neg : Bool) : FVal → Bool
  | .inf n => n == neg
  | _ => false

/-- A zero of a sign. -/
def FVal.isZero (neg : Bool) : FVal → Bool
  | .fin n m _ => n == neg && m == 0
  | _ => false

/-- The exact sum of a list of values; `fl` are the flags of its terms. Infinities of opposite sign are invalid beside
a NaN too (R116, R180). An exact zero has the sign of R111. -/
def sumX (rm : Rm) (fl : Nat) (l : List FVal) : XVal :=
  let clash := l.any (FVal.isInf false) && l.any (FVal.isInf true)
  let fl := if clash then fl ||| nv else fl
  if l.any FVal.isNan then .nan (l.foldl (fun f x => f ||| x.sig) fl)
  else if clash then .nan fl
  else if l.any (FVal.isInf false) then .inf false fl
  else if l.any (FVal.isInf true) then .inf true fl
  else
    let e0 := leastExp l
    let t := sumAt e0 l
    if t = 0 then
      .fin (if l.all (FVal.isZero true) then true else if l.all (FVal.isZero false) then false else decide (rm = .rdn))
        0 0 false
    else .fin (decide (t < 0)) t.natAbs e0 false

/-- The four products and the addend of `DOT.b4` summed exactly and rounded once to FP32 (R123, R180). -/
def dotWord (v : Env) (a b c : Word) : Word × Nat :=
  let prods := (List.range 4).map fun k =>
    mulV (Fmt.bf16.operand v (lane .b4 a k)) (Fmt.bf16.operand v (lane .b4 b k))
  let sum := sumX v.rm (prods.foldl (fun f p => f ||| p.2) 0)
    (prods.map (fun p => p.1) ++ [Fmt.fp32.operand v (lane .f c 0)])
  let o := Fmt.fp32.put v false sum
  (ofLanes .f fun _ => o.1, o.2)

/-! Shared shapes -/

/-- A one-operand float instruction: a lane function of format, environment and bits. -/
def fireF1 (h : Hdr) (v : BitVec 21) (g : Fmt → Env → Nat → Nat × Nat) (s : State) :
    Host.Outcome State Fault Refusal :=
  firePure h [.a] (valOperand h.ty v) 0 (fun e o => mapF h.ty fun k => g (Ty.fmt h.ty) e (lane h.ty o.a k)) s

/-- A two-operand float instruction. -/
def fireF2 (h : Hdr) (v : BitVec 21) (g : Fmt → Env → Nat → Nat → Nat × Nat) (s : State) :
    Host.Outcome State Fault Refusal :=
  firePure h (slotsAB h) (valOperand h.ty v) (valOperand h.ty v)
    (fun e o => mapF h.ty fun k => g (Ty.fmt h.ty) e (lane h.ty o.a k) (lane h.ty o.b k)) s

/-- A function of one value rounded once (R175). -/
def lane1 (g : FVal → XVal) (f : Fmt) (v : Env) (a : Nat) : Nat × Nat := f.put v false (g (f.operand v a))

/-- A convert-layout instruction: destination lane k takes source lane k; a lane with no source is zero (R179). -/
def fireCvt (h : Hdr) (x : CvtImm) (g : Env → Nat → Nat × Nat) (s : State) : Host.Outcome State Fault Refusal :=
  firePure h [.a] 0 0 (fun e o => mapF h.ty fun k =>
    if k < x.src.lanes then g (e.withRnd x.rnd) (lane x.src o.a k) else (0, 0)) s

/-- `FADD` (R173). -/
def execFadd (h : Hdr) (v : BitVec 21) (s : State) : Host.Outcome State Fault Refusal :=
  fireF2 h v (fun f e a b => f.put e false (addX e.rm (f.operand e a) (f.operand e b))) s

/-- `FSUB` (R173). -/
def execFsub (h : Hdr) (v : BitVec 21) (s : State) : Host.Outcome State Fault Refusal :=
  fireF2 h v (fun f e a b => f.put e false (addX e.rm (f.operand e a) (f.operand e b).neg)) s

/-- `FMUL` (R173). -/
def execFmul (h : Hdr) (v : BitVec 21) (s : State) : Host.Outcome State Fault Refusal :=
  fireF2 h v (fun f e a b =>
    let p := mulV (f.operand e a) (f.operand e b); f.put e false (p.1.x p.2)) s

/-- `FDIV` (R173). -/
def execFdiv (h : Hdr) (v : BitVec 21) (s : State) : Host.Outcome State Fault Refusal :=
  fireF2 h v (fun f e a b => f.put e false (divX (f.operand e a) (f.operand e b))) s

/-- `FMA` (R173): an immediate stands in slot b. -/
def execFma (h : Hdr) (v : BitVec 21) (s : State) : Host.Outcome State Fault Refusal :=
  firePure h (slotsAB h ++ [.c]) (valOperand h.ty v) (valOperand h.ty v) (fun e o => mapF h.ty fun k =>
    let f := Ty.fmt h.ty
    f.put e false (fmaX e.rm (f.operand e (lane h.ty o.a k)) (f.operand e (lane h.ty o.b k))
      (f.operand e (lane h.ty o.c k)))) s

/-- `FMIN` (R174). -/
def execFmin (h : Hdr) (v : BitVec 21) (s : State) : Host.Outcome State Fault Refusal :=
  fireF2 h v (fun f e => f.minmax e false) s

/-- `FMAX` (R174). -/
def execFmax (h : Hdr) (v : BitVec 21) (s : State) : Host.Outcome State Fault Refusal :=
  fireF2 h v (fun f e => f.minmax e true) s

/-- `FABS` (R175). -/
def execFabs (h : Hdr) (v : BitVec 21) (s : State) : Host.Outcome State Fault Refusal :=
  fireF1 h v (fun f e => fsignLane f e fun _ => false) s

/-- `FNEG` (R175). -/
def execFneg (h : Hdr) (v : BitVec 21) (s : State) : Host.Outcome State Fault Refusal :=
  fireF1 h v (fun f e => fsignLane f e fun n => !n) s

/-- `FSQRT` (R175). -/
def execFsqrt (h : Hdr) (v : BitVec 21) (s : State) : Host.Outcome State Fault Refusal :=
  fireF1 h v (lane1 sqrtX) s

/-- `FRCP` (R175). -/
def execFrcp (h : Hdr) (v : BitVec 21) (s : State) : Host.Outcome State Fault Refusal :=
  fireF1 h v (lane1 (divX (.fin false 1 0))) s

/-- `FRSQ` (R175). -/
def execFrsq (h : Hdr) (v : BitVec 21) (s : State) : Host.Outcome State Fault Refusal :=
  fireF1 h v (lane1 rsqX) s

/-- `FEXP2` (R175). -/
def execFexp2 (h : Hdr) (v : BitVec 21) (s : State) : Host.Outcome State Fault Refusal :=
  fireF1 h v (lane1 exp2X) s

/-- `FLOG2` (R175). -/
def execFlog2 (h : Hdr) (v : BitVec 21) (s : State) : Host.Outcome State Fault Refusal :=
  fireF1 h v (lane1 log2X) s

/-- `FTANH` (R175). -/
def execFtanh (h : Hdr) (v : BitVec 21) (s : State) : Host.Outcome State Fault Refusal :=
  fireF1 h v (lane1 tanhX) s

/-- `FSCL` (R176). -/
def execFscl (h : Hdr) (v : BitVec 21) (s : State) : Host.Outcome State Fault Refusal :=
  fireF2 h v fsclLane s

/-- `FCLS` (R177): raises no flag. -/
def execFcls (h : Hdr) (v : BitVec 21) (s : State) : Host.Outcome State Fault Refusal :=
  fireF1 h v (fun f _ a => (fclsLane f a, 0)) s

/-- `FCMP` (R178). -/
def execFcmp (h : Hdr) (x : CmpImm) (s : State) : Host.Outcome State Fault Refusal :=
  firePure h (slotsAB h) (cmpOperand h.ty x) (cmpOperand h.ty x) (fun e o => mapF h.ty fun k =>
    let c := fcmpLane (Ty.fmt h.ty) e x.cond (lane h.ty o.a k) (lane h.ty o.b k)
    (maskLane h.ty.width c.1, c.2)) s

/-- `FRND` (R179). -/
def execFrnd (h : Hdr) (x : CvtImm) (s : State) : Host.Outcome State Fault Refusal :=
  fireCvt h x (frndLane (Ty.fmt h.ty)) s

/-- `FCVT` (R179): from a float type, or from E4M3 (U = 0) or E5M2 (U = 1) bytes. -/
def execFcvt (h : Hdr) (x : CvtImm) (s : State) : Host.Outcome State Fault Refusal :=
  fireCvt h x (fun e a =>
    if x.src = .o8 then convLane (if x.u then .e5m2 else .e4m3) (Ty.fmt h.ty) e a
    else convLane (Ty.fmt x.src) (Ty.fmt h.ty) e a) s

/-- `ITOF` (R179). -/
def execItof (h : Hdr) (x : CvtImm) (s : State) : Host.Outcome State Fault Refusal :=
  fireCvt h x (fun e a => itofLane (Ty.fmt h.ty) e (laneInt x.src x.u a)) s

/-- `FTOI` (R179). -/
def execFtoi (h : Hdr) (x : CvtImm) (s : State) : Host.Outcome State Fault Refusal :=
  fireCvt h x (fun e a => ftoiVal e h.ty.width x.u ((Ty.fmt x.src).operand e a)) s

/-- `DOT.b4` (R180). -/
def execDot (h : Hdr) (s : State) : Host.Outcome State Fault Refusal :=
  firePure h [.a, .b, .c] 0 0 (fun e o => dotWord e o.a o.b o.c) s

end Sys2Proof.Machine
end

