-- ==== Sys2Proof/Machine/Q4.lean ====
section
/-! DEFINITION. The 4-bit family (R104–R107): codes, scale bytes and the whole-block encoder. -/

namespace Sys2Proof.Machine

/-- The nonnegative code values of a code type, in eighths, by code (R105). -/
def codeEighths : Qt → List Nat
  | .uniform => [0, 8, 16, 24, 32, 40, 48, 56]
  | .e2m1 => [0, 4, 8, 12, 16, 24, 32, 48]
  | .pow2 => [0, 1, 2, 4, 8, 16, 32, 64]
  | .hybrid => [0, 8, 16, 24, 32, 48, 64, 96]

/-- The code type of QT bits (R104). -/
def Qt.ofBits (n : Nat) : Qt :=
  if n % 4 = 0 then .uniform else if n % 4 = 1 then .e2m1 else if n % 4 = 2 then .pow2 else .hybrid

/-- The QT bits of a code type. -/
def Qt.bits : Qt → Nat
  | .uniform => 0 | .e2m1 => 1 | .pow2 => 2 | .hybrid => 3

/-- The value of a code under a scale byte (R105, R106): E of 0 makes every element +0. -/
def q4Value (scale code : Nat) : FVal :=
  let e := scale % 64
  let qt := Qt.ofBits (scale / 64)
  if e = 0 then .fin false 0 0
  else if code % 16 < 8 then .fin false ((codeEighths qt).getD (code % 16) 0) ((e : Int) - 35)
  else match qt with
    | .uniform => .fin true (8 * (16 - code % 16)) ((e : Int) - 35)
    | _ => .fin true ((codeEighths qt).getD (code % 16 - 8) 0) ((e : Int) - 35)

/-- Whether m × 2^e ≤ n × 2^f. -/
def leScaled (m : Nat) (e : Int) (n : Nat) (f : Int) : Bool :=
  let g := min e f
  decide (m * 2 ^ (e - g).toNat ≤ n * 2 ^ (f - g).toNat)

/-- The smallest E in 1..63 that holds every magnitude, or 63 (R107): `fuel` values from `e` up. -/
def leastScale (cmax : Nat) (xs : List FVal) : Nat → Nat → Nat
  | 0, e => e
  | n + 1, e =>
    if xs.all fun x => match x with
      | .nan _ => true
      | .inf _ => false
      | .fin _ m k => leScaled m k cmax ((e : Int) - 35)
    then e else leastScale cmax xs n (e + 1)

/-- Whether an element counts toward M. -/
def FVal.nonzero : FVal → Bool
  | .nan _ => false
  | .inf _ => true
  | .fin _ m _ => decide (m ≠ 0)

/-- The step of a magnitude m × 2^k among rising values in eighths: the index it rounds to and whether it is inexact;
none above the last value. `i` is the index of `lo`. -/
def codeStep (rm : Rm) (neg : Bool) (m : Nat) (k : Int) : Nat → Nat → List Nat → Option (Nat × Bool)
  | i, lo, [] => if leScaled m k lo 0 then some (i, false) else none
  | i, lo, hi :: r =>
    if leScaled hi 0 m k then codeStep rm neg m k (i + 1) hi r
    else if leScaled m k lo 0 then some (i, false)
    else
      let below := !leScaled (lo + hi) 0 (2 * m) k
      let above := !leScaled (2 * m) k (lo + hi) 0
      let c := if below then 0 else if above then 2 else 1
      some (if roundUp rm neg i c true then i + 1 else i, true)

/-- One element's code and flags under a nonzero E (R107). -/
def q4Code (rm : Rm) (qt : Qt) (e : Nat) (x : FVal) : Nat × Nat :=
  let code := fun (neg : Bool) (i : Nat) =>
    if i = 0 then 0 else if neg then (match qt with | .uniform => 16 - i | _ => 8 + i) else i
  match x with
  | .nan _ => (0, nv)
  | .inf neg => (code neg (if neg && qt = .uniform then 8 else 7), of' ||| nx)
  | .fin neg m k =>
    let vals := (codeEighths qt).drop 1 ++ (if neg && qt = .uniform then [64] else [])
    match codeStep rm neg m (k + 35 - e) 0 0 vals with
    | none => (code neg vals.length, of' ||| nx)
    | some (i, inexact) =>
      (code neg i, if inexact then (if i = 0 then uf ||| nx else nx) else 0)

/-- The whole-block encoder (R107): codes, scale byte and flags of 32 values; in a block of E = 0 a signalling NaN still
raises NV (R112). -/
def q4Encode (rm : Rm) (qt : Qt) (xs : List FVal) : List Nat × Nat × Nat :=
  if xs.any FVal.nonzero then
    let e := leastScale ((codeEighths qt).getD 7 0) xs 62 1
    let cs := xs.map (q4Code rm qt e)
    (cs.map (fun c => c.1), Qt.bits qt * 64 + e, allFlags cs)
  else (xs.map fun _ => 0, Qt.bits qt * 64, allFlags (xs.map fun x => (0, x.sig)))

end Sys2Proof.Machine
end

