-- ==== Sys2Proof/Machine/Convert.lean ====
section
/-! DEFINITION. Element conversions of page and tile formats (R108, R118, R315). -/

namespace Sys2Proof.Machine

/-- The float format of a page format code 1 to 4 or 7 (R108). -/
def pageFmt (c : Nat) : Fmt :=
  if c = 1 then .bf16 else if c = 2 then .fp16 else if c = 3 then .e4m3 else if c = 4 then .e5m2 else .fp32

/-- Bytes of an element of a format code (R274, R315); Q4 apart. -/
def elemSize (c : Nat) : Nat := if c = 0 then 8 else if c = 1 ∨ c = 2 then 2 else if c = 7 then 4 else 1

/-- Whether a format takes an element type (R315). -/
def fmtTakes (c : Nat) (t : Ty) : Bool :=
  if c = 0 ∨ c = 5 then true
  else if c = 6 then t == .f2 || t == .b4 || t == .h4
  else decide (c < 8) && t.isFloat

/-- An element of a format other than plain and Q4 read into a lane, with flags (R315): DAZ never applies. -/
def loadLane (c : Nat) (t : Ty) (v : Env) (e : Nat) : Nat × Nat :=
  let v := { v with daz := false }
  if c = 5 then
    if t.isInt then (wrap t.width (sextNat 8 e), 0) else itofLane (Ty.fmt t) v (sextNat 8 e)
  else convLane (pageFmt c) (Ty.fmt t) v e

/-- A lane written as an element of a format other than plain and Q4, with flags. -/
def storeLane (c : Nat) (t : Ty) (v : Env) (x : Nat) : Nat × Nat :=
  if c = 5 then
    if t.isInt then (x % 256, 0) else ftoiVal v 8 false ((Ty.fmt t).operand v x)
  else convLane (Ty.fmt t) (pageFmt c) v x

/-- A Q4 code read into a lane (R106). -/
def loadQ4 (t : Ty) (v : Env) (scale code : Nat) : Nat × Nat :=
  (Ty.fmt t).put { v with daz := false } (decide (Ty.fmt t ≠ .fp32)) ((q4Value scale code).x 0)

/-- A value encoded singly against a scale byte (R107); in a block of E = 0 a signalling NaN still raises NV (R112). -/
def singleQ4 (rm : Rm) (scale : Nat) (x : FVal) : Nat × Nat :=
  if scale % 64 = 0 then (0, if x.nonzero then nx else x.sig) else q4Code rm (Qt.ofBits (scale / 64)) (scale % 64) x

/-- A byte with one nibble replaced: the low one for an even element. -/
def setNibble (b j code : Nat) : Nat := if j % 2 = 0 then b / 16 * 16 + code % 16 else b % 16 + 16 * (code % 16)

/-- A nibble of a byte. -/
def getNibble (b j : Nat) : Nat := if j % 2 = 0 then b % 16 else b / 16 % 16

/-- Where a run of elements stands: the address of element 0's byte and, for Q4, of scale byte 0 (R109, R274), with the
number of the first element counted from there. -/
structure ElemAt where
  base : Nat
  scales : Nat
  first : Nat
  deriving DecidableEq, Repr

/-- The scale bytes of the elements of an access of a type, as first byte and number: none but for Q4 (R109). -/
def ElemAt.scaleBytes (w : ElemAt) (c : Nat) (t : Ty) : Nat × Nat :=
  if c = 6 then (w.scales + w.first / 32, (w.first + t.lanes - 1) / 32 + 1 - w.first / 32) else (0, 0)

/-- Byte reads as numbers: `rd a n` is the little-endian number of `n` bytes at `a`. -/
abbrev Reader := Nat → Nat → Nat

/-- Lane `k` of a load of a converting format (R315). -/
def loadElem (rd : Reader) (c : Nat) (t : Ty) (v : Env) (w : ElemAt) (k : Nat) : Nat × Nat :=
  let j := w.first + k
  if c = 6 then loadQ4 t v (rd (w.scales + j / 32) 1) (getNibble (rd (w.base + j / 2) 1) j)
  else loadLane c t v (rd (w.base + j * elemSize c) (elemSize c))

/-- The datum of a load of `n` lanes from a converting format, with flags. -/
def loadElems (rd : Reader) (c : Nat) (t : Ty) (v : Env) (w : ElemAt) : Word × Nat :=
  mapF t fun k => loadElem rd c t v w k

/-- The bytes of a store of every lane into a converting format, with flags: address and byte. -/
def storeElems (rd : Reader) (c : Nat) (t : Ty) (v : Env) (w : ElemAt) (d : Word) : List (Nat × List Byte) × Nat :=
  if c = 6 then
    let codes := (List.range t.lanes).map fun k =>
      singleQ4 v.rm (rd (w.scales + (w.first + k) / 32) 1) ((Ty.fmt t).operand v (lane t d k))
    let out := (List.range (t.lanes / 2)).map fun m =>
      let a := w.base + (w.first + 2 * m) / 2
      (a, [BitVec.ofNat 8 ((codes.getD (2 * m) (0, 0)).1 % 16 + 16 * ((codes.getD (2 * m + 1) (0, 0)).1 % 16))])
    (out, allFlags codes)
  else
    let es := (List.range t.lanes).map fun k => storeLane c t v (lane t d k)
    ((List.range t.lanes).map fun k =>
      (w.base + (w.first + k) * elemSize c, leBytes (es.getD k (0, 0)).1 (elemSize c)), allFlags es)

/-- The access size of `LDX` and `STX` in bytes (R315). -/
def ldxSize (c : Nat) (t : Ty) : Nat :=
  if c = 0 then accSize t else if c = 6 then t.lanes / 2 else t.lanes * elemSize c

/-- FMT of a leaf (R258). -/
def Xlat.fmt (x : Xlat) : Nat := x.leaf.field 61 58

/-- Y of a leaf. -/
def Xlat.y (x : Xlat) : Bool := x.leaf.bit 57

/-- The physical address of the first byte of the page. -/
def Xlat.pageBase (x : Xlat) : Nat := x.pa / x.size * x.size

/-- Where the elements of an `LDX` or `STX` stand. -/
def Xlat.elems (x : Xlat) (t : Ty) : ElemAt :=
  let pb := x.pageBase
  let size := ldxSize x.fmt t
  let pa := x.pa / size * size
  if x.fmt = 6 then ⟨pb, pb + 15 * x.size / 16, 2 * (pa - pb)⟩ else ⟨pa, 0, 0⟩

/-- Whether a page takes an `LDX` or `STX` of a type (R110, R315). -/
def Xlat.takes (x : Xlat) (t : Ty) : Bool :=
  fmtTakes x.fmt t && (x.fmt != 6 || decide ((x.elems t).first + t.lanes ≤ 15 * x.size / 8))

/-- The raw datum of `LD` (R185). -/
def rawWord (t : Ty) (n : Nat) : Word := BitVec.ofNat 64 (if t = .f then n % 2 ^ 32 else n)

end Sys2Proof.Machine
end

