-- ==== Sys2Proof/Machine/Loops.lean ====
section
/-! DEFINITION. Loop frames: bodies, retirement of iterations, release (R26–R30, R144, R148–R151). -/

namespace Sys2Proof.Machine

/-- The opcode of an instruction of an instance. -/
def Node.op (nd : Node) : Nat := (wordOp nd.word).toNat

/-- GATE of a loop-layout word (R58). -/
def Node.gate (nd : Node) : Nat := nd.word.field 19 13

/-- Whether a node is a `LOOPIN` or `CARRY` of the loop whose primary `LOOPIN` is `g`. -/
def Node.heads (nd : Node) (i g : Nat) : Bool :=
  (nd.op == 0x0E && (if nd.word.bit 20 then nd.gate == g else i == g)) || (nd.op == 0x0D && nd.gate == g)

/-- Whether a node is a `LOOPOUT` of the loop. -/
def Node.tails (nd : Node) (g : Nat) : Bool := nd.op == 0x0F && nd.gate == g

/-- The nodes of an instance with their numbers that satisfy `p`. -/
def Inst.nums (x : Inst) (p : Nat → Node → Bool) : List Nat :=
  (List.range x.nodes.length).filter fun i => match x.nodes[i]? with
    | some nd => p i nd
    | none => false

/-- The instructions that a node's targets name. -/
def Node.consumers (nd : Node) : List Nat := nd.arcs.map fun e => e.2.index.toNat

/-- Everything that arcs reach from `from'` without leaving through a node of `stop`, in `fuel` rounds. -/
def Inst.reach (x : Inst) (stop : Nat → Bool) : Nat → List Nat → List Nat
  | 0, l => l
  | n + 1, l =>
    let next := (l.filter fun i => !stop i).flatMap fun i => match x.nodes[i]? with
      | some nd => nd.consumers
      | none => []
    match (next.filter fun i => !l.contains i).eraseDups with
    | [] => l
    | new => x.reach stop n (l ++ new)

/-- The body of the loop whose primary `LOOPIN` is `g` (R28). -/
def Inst.body (x : Inst) (g : Nat) : List Nat :=
  let outs := x.nums fun _ nd => nd.tails g
  let l := x.reach (fun i => outs.contains i) x.nodes.length (x.nums fun i nd => nd.heads i g)
  l ++ outs.filter fun i => !l.contains i

/-- Whether an extended state holds a formed element of a tag. -/
def Ext.holds (tag : Nat) : Ext → Bool
  | .gen l => l.any fun g => g.tag == tag
  | .steer l => l.any fun g => g.tag == tag && g.held.isSome
  | .carry held _ => held.any fun t => t.tag == tag
  | _ => false

/-- Whether a held output bears a tag. -/
def Out.hasTag (tag : Nat) : Out → Bool
  | .tok t _ => t.tag == tag
  | .switch _ _ => false

/-- Whether a token of a tag stands in a buffer. -/
def hasTag (tag : Nat) (l : List Entry) : Bool :=
  l.any fun e => match e with | .tok t _ => t.tag == tag | .switch _ => false

/-- Whether a token or anti-token of `tag` remains at body instruction `i` (R28): in a buffer, held as an output, or
as an anti-token held there or standing on an arc into it. -/
def Inst.standsAt (x : Inst) (body : List Nat) (g tag i : Nat) : Bool :=
  match x.nodes[i]? with
  | none => false
  | some nd =>
    hasTag tag nd.bufA || hasTag tag nd.bufB || hasTag tag nd.bufC || hasTag tag nd.bufP
      || nd.antiOut.any (fun e => e.2.tag == tag)
      || nd.ext.holds tag
      || (!nd.tails g && nd.outq.any (Out.hasTag tag))
      || (List.range x.nodes.length).any fun j => match x.nodes[j]? with
        | none => false
        | some p => p.antis.any fun e => e.2.tag == tag && (match p.route e.1 e.2.idx with
          | some t => t.index.toNat == i && body.contains i
          | none => false)

/-- Whether something outside the stations still owes an element of `tag` to a body instruction: an access, a wait or
a message. R28 lists standing tokens only: that these hold an iteration back, and that the done token which an engine
operation owes does not, is the model's choice (log 82). -/
def Strand.owes (t : Strand) (body : List Nat) (tag : Nat) : Bool :=
  t.pend.any (fun a => a.tag == tag && body.contains a.node)
    || t.waits.any (fun w => w.tok.tag == tag && body.contains w.node)
    || t.msgs.any (fun m => m.tag == tag && body.contains m.node)

/-- The tag of iteration `i` of frame `f` (R17). -/
def iterTag (f i : Nat) : Nat := 4096 * f + i % 4096

/-- The full number of an iteration field in a frame (R150). -/
def Frame.full (fr : Frame) (field : Nat) : Nat := fr.base + (field + 4096 - fr.base % 4096) % 4096

/-- The held frame that a tag names. -/
def Inst.frameOf (x : Inst) (tag : Nat) : Option Frame := x.frames.getD (tag / 4096) none

/-- The record of a `CARRY` for a tag. -/
def carryRec (tag : Nat) : Ext → Option CarryRec
  | .carry _ recs => recs.find? fun r => r.tag == tag
  | _ => none

/-- What a station holds of the streams of a retired tag dropped: a later stream of the tag begins anew. -/
def Ext.retire (tag : Nat) : Ext → Ext
  | .carry held recs => .carry held (recs.filter fun r => r.tag != tag)
  | .cnt l => .cnt (l.filter fun e => e.tag != tag)
  | .steer l => .steer (l.filter fun e => e.tag != tag)
  | .red l => .red (l.filter fun e => e.tag != tag)
  | .shuf l => .shuf (l.filter fun e => e.tag != tag)
  | .pack l => .pack (l.filter fun e => e.tag != tag)
  | .tile g => .tile (g.filter fun u => u != tag)
  | .tree l => .tree (l.filter fun e => e.tag != tag)
  | .accept l => .accept (l.filter fun e => e.tag != tag)
  | .gather l => .gather (l.filter fun e => e.tag != tag)
  | .gen l => .gen l
  | .feset r => .feset r
  | .plain => .plain

/-- A body node without the records of a retired tag: a `LOOPIN` of the loop keeps its firings and a `LOOPOUT` its
outputs, which bear the outer tag. -/
def Node.retire (nd : Node) (i g tag : Nat) : Node :=
  let enters := nd.op == 0x0E && nd.heads i g
  { nd with
    fired := if enters then nd.fired else nd.fired.filter fun a => a.tag != tag
    lasts := if enters then nd.lasts else nd.lasts.filter fun u => u != tag
    withheld := if nd.tails g then nd.withheld else nd.withheld.filter fun e => e.2.tag != tag
    sent := if nd.tails g then nd.sent else nd.sent.filter fun e => e.2.tag != tag
    ext := nd.ext.retire tag }

/-- The records that the `CARRY`s of a loop keep of a tag. -/
def Inst.carryRecs (x : Inst) (g tag : Nat) : List (Option CarryRec) :=
  (x.nums fun _ nd => nd.op == 0x0D && nd.gate == g).map fun i => match x.nodes[i]? with
    | some nd => carryRec tag nd.ext
    | none => none

/-- Whether every `CARRY` of a loop has fired for the element of a tag that carries L (R28). -/
def Inst.carriesDone (x : Inst) (g tag : Nat) : Bool :=
  (x.carryRecs g tag).all fun r => match r with | some c => c.doneL | none => false

/-- Whether a tag is that of a final iteration (R148): every `CARRY` has fired for its element carrying L, and none has
emitted for the next iteration. -/
def Inst.carriesEnd (x : Inst) (g tag : Nat) : Bool :=
  x.carriesDone g tag && (x.carryRecs g tag).all fun r => match r with | some c => !c.emitted | none => true

/-- The final iteration of frame `f`, once it is known (R148). -/
def Inst.finalOf (x : Inst) (f : Nat) (fr : Frame) : Option Nat :=
  match fr.final with
  | some n => some n
  | none => ((List.range (fr.w + 1)).map fun k => fr.base + k).find? fun n => x.carriesEnd fr.gate (iterTag f n)

/-- Whether something of the frame's oldest iteration remains in the loop's body or is owed to it (R28). -/
def Strand.oldestLives (t : Strand) (x : Inst) (f : Nat) (fr : Frame) : Bool :=
  let body := x.body fr.gate
  let tag := iterTag f fr.base
  body.any (x.standsAt body fr.gate tag) || t.owes body tag

/-- Iterations of frame `f` retired as far as they can be, at most `fuel` of them, and the frame released with its
final iteration (R28, R29, R148). -/
def Strand.settleFrame (t : Strand) (f : Nat) : Nat → Inst → Inst
  | 0, x => x
  | n + 1, x =>
    match x.frames.getD f none with
    | none => x
    | some fr =>
      let fr := { fr with final := x.finalOf f fr }
      let x := { x with frames := x.frames.set f (some fr) }
      let tag := iterTag f fr.base
      if x.carriesDone fr.gate tag && !t.oldestLives x f fr then
        let body := x.body fr.gate
        let x := { x with nodes := x.nodes.mapIdx fun i (nd : Node) =>
          if body.contains i then nd.retire i fr.gate tag else nd }
        if fr.final = some fr.base then { x with frames := x.frames.set f none }
        else t.settleFrame f n { x with frames := x.frames.set f (some { fr with base := fr.base + 1 }) }
      else x

/-- Every frame of an instance brought up to date. -/
def Strand.settleFrames (t : Strand) (x : Inst) : Inst :=
  (List.range 16).foldl (fun y f => if (y.frames.getD f none).isSome then t.settleFrame f 65 y else y) x

/-- The frames of a strand's instance brought up to date. -/
def State.settleFrames (s : State) (st : SRef) : State :=
  match s.strand? st with
  | none => s
  | some t => s.modInst st fun x => t.settleFrames x

/-- The frame that a primary `LOOPIN` holds for an outer tag (R145). -/
def Inst.frameFor (x : Inst) (g outer : Nat) : Option Nat :=
  (List.range 16).find? fun f => match x.frames.getD f none with
    | some fr => fr.gate == g && fr.outer == outer
    | none => false

/-- The lowest free frame among the NFRAME first (R26). -/
def Inst.freeFrame (x : Inst) : Option Nat :=
  (List.range x.block.nframe).find? fun f => (x.frames.getD f none).isNone

end Sys2Proof.Machine
end

