-- ==== Sys2Proof/Machine/Order.lean ====
section
/-! DEFINITION. The nominal order of a strand's accesses (R281, R283, R485): places, and which accesses may still come
before one. -/

namespace Sys2Proof.Machine

/-! What an instruction's word says -/

/-- MSN of a memory, atomic, tile or bank word (R61). -/
def Node.msn (nd : Node) : Nat := nd.word.field 20 14

/-- Opcodes 0xA0 to 0xB4. -/
def Node.memory (nd : Node) : Bool := decide (0xA0 ≤ nd.op ∧ nd.op ≤ 0xB4)

/-- CLASS of a memory word (R61). -/
def Node.cls (nd : Node) : Nat := nd.word.field 13 12

/-- A streaming load (R283). -/
def Node.streams (nd : Node) : Bool := (nd.op == 0xA0 || nd.op == 0xA2) && nd.cls == 1

/-- L of a memory word (R61). -/
def Node.local' (nd : Node) : Bool := nd.word.bit 11

/-- Whether a node's accesses make events that stand at an MSN: all but `PREF` and `FLUSH` (R280, R281, R324). -/
def Node.places (nd : Node) : Bool := nd.memory && !(nd.op == 0xAB || nd.op == 0xAC)

/-- Whether a node's accesses are waited for at their MSN: not those of `TFREE`, `TREADY` and `TSTATE`, which the tile
entry orders (R276, R326), and not streaming loads (R283), but for `LDX.s.l`, which on a FIFO bank performs as `.r`
(R272). -/
def Node.ordered (nd : Node) : Bool :=
  nd.places && !([0xAF, 0xB0, 0xB1].contains nd.op) && (!nd.streams || (nd.op == 0xA2 && nd.local'))

/-- Whether the accesses of node `b` may be ahead of one of node `a` in nominal order: those waited for at their MSN,
and before a `BANKMODE` also the streaming loads of local space (R268, R283). -/
def Node.rivals (a b : Node) : Bool := b.ordered || (a.op == 0xB4 && b.streams && b.local')

/-- Whether two nodes act on one tile: of such, the tile's state says which goes first (R276, R277). -/
def Node.sameTile (a b : Node) : Bool :=
  let acts := fun (n : Node) => [0xAE, 0xAF, 0xB0, 0xB2, 0xB3].contains n.op
  acts a && acts b && a.word.field 3 0 == b.word.field 3 0

/-! Scopes -/

/-- The primary `LOOPIN`s of the loops whose bodies hold instruction `i`, outermost first. -/
def Inst.nest (x : Inst) (i : Nat) : List Nat :=
  let gs := x.nums fun _ nd => nd.op == 0x0E && !nd.word.bit 20
  let ls := (gs.map fun g => (g, x.body g)).filter fun e => e.2.contains i
  (ls.mergeSort fun a b => decide (b.2.length ≤ a.2.length)).map fun e => e.1

/-- The tags of a tag's enclosing scopes, outermost first, `n` loops deep: the last is the tag itself. -/
def Inst.chain (x : Inst) : Nat → Nat → List Nat
  | 0, tag => [tag]
  | n + 1, tag => (match x.frameOf tag with
    | some fr => x.chain n fr.outer
    | none => x.chain n 0) ++ [tag]

/-- The full iteration number of a tag in its frame. -/
def Inst.fullOf (x : Inst) (tag : Nat) : Nat :=
  match x.frameOf tag with
  | some fr => fr.full (tag % 4096)
  | none => tag % 4096

/-- A region's snapshot for an element of a streaming load (R189). -/
def Inst.snapFor (x : Inst) (tag : Nat) (i : Nat) : Snapshot :=
  if (x.nest i).isEmpty then x.snap
  else match x.frameOf tag with
    | some fr => fr.snap
    | none => x.snap

/-- The mode that bank `b` of the strand's core had when a region started. -/
def Snapshot.modeOf (p : Snapshot) (b : Nat) : Mode :=
  if b < 2 then .cache else (Table.get Bank.reset p.banks (16 * p.core + b)).mode

/-- The least MSN that has performed under the tags of the frame that a loop holds for a scope (R281). -/
def Inst.lowOf (x : Inst) (g scope : Nat) : Nat :=
  match x.frameFor g scope with
  | some f => match x.frames.getD f none with
    | some fr => fr.low
    | none => 128
  | none => 128

/-- The anchor of the loop instance of loop `g` in a scope (R281): the least MSN in its body that has performed, or that
what is `live` may still bring to perform (log 5). -/
def Inst.anchor (x : Inst) (live : List Nat) (g scope : Nat) : Nat :=
  (x.body g).foldl (fun m i => match x.nodes[i]? with
    | some nd => if nd.places && live.contains i then min m nd.msn else m
    | none => m) (x.lowOf g scope)

/-- The iterations and positions that a nest gives a tag, below the block's own iteration; `scope` is the tag of the
enclosing scope. -/
def Inst.places (x : Inst) (live : List Nat) : List Nat → List Nat → Nat → Nat → List Nat
  | g :: gs, t :: ts, scope, msn => x.anchor live g scope :: x.fullOf t :: x.places live gs ts t msn
  | _, _, _, msn => [msn]

/-- The nominal place of element (tag, idx) of instruction `i` (R281). -/
def Inst.place (x : Inst) (live : List Nat) (i tag idx : Nat) : List Nat :=
  let nest := x.nest i
  let msn := match x.nodes[i]? with | some nd => nd.msn | none => 0
  let ch := x.chain nest.length tag
  x.places live nest (ch.drop 1) (ch.headD 0) msn ++ [idx]

/-- Order of places. -/
def before : List Nat → List Nat → Bool
  | [], [] => false
  | [], _ => true
  | _ :: _, [] => false
  | a :: l, b :: m => decide (a < b) || (decide (a = b) && before l m)

/-- The common part of two nests. -/
def commonNest : List Nat → List Nat → List Nat
  | a :: l, b :: m => if a = b then a :: commonNest l m else []
  | _, _ => []

/-! What may still come -/

/-- Where a token stands or will arrive: instruction, tag, element index. -/
structure Src where
  dest : Nat
  tag : Nat
  idx : Nat
  deriving DecidableEq, Repr

/-- An output of a node on its way to its targets. -/
def Node.sends (nd : Node) (tag idx : Nat) : List Src := nd.consumers.map fun j => ⟨j, tag, idx⟩

/-- Outputs that an extended state has formed: (tag, index). -/
def Ext.formed : Ext → List (Nat × Nat)
  | .gen l => l.map fun g => (g.tag, g.next)
  | .steer l => l.filterMap fun g => g.held.map fun t => (t.tag, t.idx)
  | .carry held _ => held.map fun t => (t.tag, t.idx)
  | .accept l => (l.filter fun e => e.verdict.isSome).map fun e => (e.tag, 0)
  | _ => []

/-- What stands at node `i`: its buffered tokens, but for those of an element that `own` holds of, its held outputs, and
its start when it has not fired. -/
def Node.standing (nd : Node) (i : Nat) (own : Nat → Nat → Bool) : List Src :=
  let toks := (nd.bufA ++ nd.bufB ++ nd.bufC ++ nd.bufP).filterMap fun e => match e with
    | .tok t _ => if own t.tag t.idx then none else some ⟨i, t.tag, t.idx⟩
    | .switch _ => none
  let outs := nd.outq.flatMap fun o => match o with
    | .tok t _ => nd.sends t.tag t.idx
    | .switch _ _ => []
  toks ++ outs ++ (nd.ext.formed.flatMap fun e => nd.sends e.1 e.2)
    ++ (if nd.fed.isEmpty && !nd.fired.contains ⟨0, 0⟩ && nd.op != 0x1A then [⟨i, 0, 0⟩] else [])

/-- What stands in an instance and may still lead somewhere, but for the operands of element (tag, idx) of instruction `i`. -/
def Inst.standing (x : Inst) (i tag idx : Nat) : List Src :=
  (List.range x.nodes.length).flatMap fun j => match x.nodes[j]? with
    | some nd => nd.standing j fun u k => decide (j = i ∧ u = tag ∧ k = idx) || x.hasTold j u k
    | none => []

/-- What an instruction of the instance sends for an element. -/
def Inst.sends (x : Inst) (i tag idx : Nat) : List Src :=
  match x.nodes[i]? with
  | some nd => nd.sends tag idx
  | none => []

/-- Where an append's completion goes. -/
def AppendBy.src (x : Inst) (st : SRef) : AppendBy → List Src
  | .station u i tag idx => if u = st then x.sends i tag idx else []
  | .yield _ _ => []

/-- The outputs owed to an instance from outside its stations: by waits, messages, engine operations, appends, and
accesses other than that of element (tag, idx) of instruction `i`. -/
def State.owed (s : State) (st : SRef) (t : Strand) (x : Inst) (i tag idx : Nat) : List Src :=
  (t.waits.flatMap fun w => x.sends w.node w.tok.tag w.tok.idx)
    ++ (t.msgs.flatMap fun m => x.sends m.node m.tag 0)
    ++ (t.pend.flatMap fun a =>
        if (a.node = i ∧ a.tag = tag ∧ a.idx = idx) ∨ x.hasTold a.node a.tag a.idx then [] else x.sends a.node a.tag a.idx)
    ++ (s.ops.flatMap fun o =>
        if o.done ∧ (o.words.getD 0 0).field 31 16 = st.slice ∧ o.rank = st.rank then
          x.sends o.index ((o.words.getD 7 0).field 63 48) 0
        else [])
    ++ s.appends.flatMap fun a => a.who.src x st

/-- Every instruction that what stands in an instance, or is owed to it, may still reach. -/
def State.live (s : State) (st : SRef) (t : Strand) (x : Inst) : List Nat :=
  let l := (x.standing 128 0 0 ++ s.owed st t x 128 0 0).map fun e => e.dest
  x.reach (fun _ => false) x.nodes.length (l.eraseDups ++ (t.pend.map fun a => a.node) ++ x.told.map fun a => a.node)

/-- The instructions that a token at `n` may lead to without a step to a later iteration of the loops `gs`. -/
def Inst.leads (x : Inst) (gs : List Nat) (n : Nat) : List Nat :=
  x.reach (fun k => match x.nodes[k]? with
    | some nd => nd.op == 0x0D && gs.contains nd.gate
    | none => false) x.nodes.length [n]

/-- Whether the stream that could bring instruction `j` an element of a scope has ended: `j` stands in the scope itself,
or in a loop of the scope that has been left. -/
def Inst.closed (x : Inst) (scope j : Nat) (inner : Option Nat) : Bool :=
  match inner with
  | none => match x.nodes[j]? with
    | some nd => nd.lasts.contains scope
    | none => true
  | some g => match x.nodes[g]? with
    | some l => l.lasts.contains scope && (x.frameFor g scope).isNone
    | none => true

/-- The snapshot that the streaming loads of an instruction read, which stands in a scope or in loop `inner` of it. -/
def Inst.startOf (x : Inst) (j scope : Nat) : Option Nat → Option Snapshot
  | none => some (x.snapFor scope j)
  | some g => (x.frameFor g scope).bind fun f => (x.frames.getD f none).map fun fr => fr.snap

/-- Whether the streaming loads of `b`, which stand at the start of their region (R283), come before a `BANKMODE` of a bank:
on a bank that was in FIFO mode then, an `LDX` stands at its MSN (R272). -/
def Inst.streamsAhead (x : Inst) (a b : Node) (j scope : Nat) (nb : Option Nat) : Bool :=
  a.op == 0xB4 && b.streams && b.local' && (b.op == 0xA0 || match x.startOf j scope nb with
    | some p => p.modeOf (a.word.field 3 0) != .fifo
    | none => true)

/-- Whether an access of instruction `j` in the same iteration of every common loop as element (tag, idx) of
instruction `i` stands before it by position, so far as is decided: a loop stands at the least anchor it may yet have
when it holds `j`, and at the greatest when it holds `i`. -/
def Inst.standsBefore (x : Inst) (live : List Nat) (i j scope : Nat) (na nb : Option Nat) : Bool :=
  match x.nodes[i]?, x.nodes[j]? with
  | some a, some b =>
    let pa := match na with | some g => min (x.lowOf g scope) a.msn | none => a.msn
    let pb := match nb with | some g => x.anchor live g scope | none => b.msn
    decide (i ≠ j) && ((b.ordered && decide (pb < pa)) || x.streamsAhead a b j scope nb)
  | _, _ => false

/-- Whether a token at `n` may still enter loop `g` for a scope: through a `LOOPIN` of it whose stream goes on. -/
def Inst.enters (x : Inst) (up : List Nat) (n g scope : Nat) : Bool :=
  (x.leads up n).any fun k => match x.nodes[k]? with
    | some nd => nd.op == 0x0E && nd.heads k g && !nd.lasts.contains scope
    | none => false

/-- Whether a token at `n` may step to a later iteration of loop `g`. -/
def Inst.steps (x : Inst) (up : List Nat) (n g : Nat) : Bool :=
  (x.leads (g :: up) n).any fun k => match x.nodes[k]? with
    | some nd => nd.op == 0x0D && nd.gate == g
    | none => false

/-- Whether a token at `n` may lead to instruction `j` for an iteration not after those of `is`, the tags of an element
in the loops `gs` that hold both: `es` are the token's tags in those of them that hold it, `scope` the tag around them,
`up` the loops passed from the outermost in; `pos` says that within one iteration of all of them `j` stands before the
element, and `inner` is the loop that holds `j` within them. -/
def Inst.precedes (x : Inst) (n j : Nat) (pos : Bool) (inner : Option Nat) :
    List Nat → Nat → List Nat → List Nat → List Nat → Bool
  | up, _, g :: gs, t :: es, u :: is =>
    if x.fullOf u < x.fullOf t then false
    else if x.fullOf t < x.fullOf u then
      (x.leads up n).contains j && (!gs.isEmpty || x.steps up n g || !x.closed t j inner)
    else x.precedes n j pos inner (g :: up) u gs es is
  | up, scope, g :: gs, [], is =>
    ((is.take (gs.length + 1)).any (fun u => decide (0 < x.fullOf u)) || pos)
      && (x.leads up n).contains j && x.enters up n g scope
  | up, scope, _, _, _ => pos && !x.closed scope j inner && (x.leads up n).contains j

/-- Sources without those that lead where another of the same instruction and tag, no later in its stream, does. -/
def leastSrcs (l : List Src) : List Src :=
  l.foldl (fun m e =>
    if m.any fun f => f.dest == e.dest && f.tag == e.tag && decide (f.idx ≤ e.idx) then m
    else e :: m.filter fun f => !(f.dest == e.dest && f.tag == e.tag)) []

/-- Whether something at one of the sources may lead to an access that stands before element (tag, idx) of instruction
`i`; not at an instruction that waits at a tile (`atTile`), for an access of the same tile (R277). -/
def Inst.mayCome (x : Inst) (live : List Nat) (srcs : List Src) (atTile : Nat → Bool) (i tag idx : Nat) : Bool :=
  match x.nodes[i]? with
  | none => false
  | some a =>
    let js := x.nums fun j nd => a.rivals nd && !(atTile j && a.sameTile nd)
    let ni := x.nest i
    let ci := x.chain ni.length tag
    let srcs := leastSrcs srcs
    js.any fun j =>
      let nj := x.nest j
      let gs := commonNest ni nj
      let inner := (nj.drop gs.length).head?
      let pos := x.standsBefore live i j (ci.getD gs.length 0) (ni.drop gs.length).head? inner
      srcs.any fun e =>
        let ne := commonNest gs (x.nest e.dest)
        let ce := ((x.chain (x.nest e.dest).length e.tag).drop 1).take ne.length
        x.precedes e.dest j (pos || decide (i = j ∧ e.dest = i ∧ e.tag = tag ∧ e.idx < idx)) inner [] (ci.headD 0) gs ce
          (ci.drop 1)

/-- Whether an issued access streams: its place is its region's start (R283). -/
def Access.free (a : Access) : Bool := decide (a.cls = .streaming)

/-- Whether an iteration of two tags of the loops that hold both comes earlier in the first, and whether they are the same in all
of them. -/
def Inst.iterLt (x : Inst) : List Nat → List Nat → List Nat → Bool × Bool
  | _ :: gs, t :: ts, u :: us =>
    if x.fullOf t < x.fullOf u then (true, false)
    else if x.fullOf u < x.fullOf t then (false, false)
    else x.iterLt gs ts us
  | _, _, _ => (false, true)

/-- Whether an access that has operands or has issued, of element (tj, kj) of instruction `j`, may stand before element
(tag, idx) of instruction `i` (R281). -/
def Inst.comesBefore (x : Inst) (live : List Nat) (j tj kj i tag idx : Nat) : Bool :=
  let ni := x.nest i
  let nj := x.nest j
  let gs := commonNest ni nj
  let ci := x.chain ni.length tag
  let cj := x.chain nj.length tj
  let (lt, same) := x.iterLt gs (cj.drop 1) (ci.drop 1)
  lt || (same && if i = j then decide (kj < idx)
    else x.standsBefore live i j (ci.getD gs.length 0) (ni.drop gs.length).head? (nj.drop gs.length).head?)

end Sys2Proof.Machine
end

