-- ==== Sys2Proof/Machine/Yard.lean ====
section
/-! DEFINITION. Plain physical memory writes, timestamps (R284) and the sort yard's bins: combining an update and
applying keys (R293–R306). -/

namespace Sys2Proof.Machine

/-! Timestamps (R284): `who` is a core, or 128 plus a Trelene link -/

/-- A core, or a link, as the maker of an event. -/
def Party.of (who : Nat) : Party := ⟨some who, 0⟩

/-- A unit that no core or link set to work. -/
def Party.unit : Party := ⟨none, 0⟩

/-- The program timestamp of a core or link: the ticks of R284, and what its events have added. -/
def State.ptOf (s : State) (who : Nat) : Nat := s.ptTicks + Table.get 0 s.pt who

/-- A program timestamp raised to at least `ts`. -/
def State.raisePt (s : State) (who ts : Nat) : State :=
  { s with pt := Table.set 0 s.pt who (max (Table.get 0 s.pt who) (ts - s.ptTicks)) }

/-- The least timestamp of an event of a party. -/
def State.ptBy (s : State) (p : Party) : Nat :=
  match p.who with
  | some w => max (s.ptOf w) p.lo
  | none => p.lo

/-- An event of a party at timestamp `ts`. -/
def State.eventAt (s : State) (p : Party) (ts : Nat) : State :=
  match p.who with
  | some w => s.raisePt w ts
  | none => s

/-! Host memory -/

/-- The host's physical addresses (R468). -/
def hostPa (pa : Nat) : Bool := decide (0x400000000000 ≤ pa ∧ pa < 0x800000000000)

/-- Where host memory stands among the physical addresses. -/
def hostBase : Nat := 0x400000000000

/-- The link that carries an access to a host address (R468); the other one when it is retired or
under test. HL0 and HL1 are units 0 and 1 of error class 6, the model's choice (log 14). -/
def State.linkOf (s : State) (pa : Nat) : Nat :=
  let l := pa / 4096 % 2
  if Table.get false s.retired (6 * 2 ^ 32 + l) || s.testing.contains (6 * 2 ^ 32 + l) then 1 - l else l

/-- An access to host memory leaves on its link, in the order of T (R468). -/
def State.hostSend (s : State) (k : HostMsgKind) (pa : Nat) (bs : List Byte) : State :=
  if hostPa pa then { s with hostOut := s.hostOut ++ [⟨s.linkOf pa, k, pa - hostBase, bs⟩] } else s

/-- WTS and RTS of the block of an address. -/
def State.tsOf (s : State) (pa : Nat) : BlockTs := Table.get ⟨0, 0⟩ s.blockTs (pa / 256)

/-- A load's timestamp: a hit on a core's copy whose lease holds, else a fetch at the home slice, which a `copy` keeps. A
copy older than the block has left the cache (log 1). -/
def State.loadTs (s : State) (p : Party) (copy : Bool) (pa : Nat) : State :=
  if 2 ^ 40 ≤ pa then s.hostSend .read pa []
  else
    let b := pa / 256
    let pt := s.ptBy p
    let t := s.tsOf pa
    let hit := copy && s.copies.any fun c =>
      decide (some c.core = p.who ∧ c.block = b ∧ c.wts = t.wts ∧ pt ≤ c.le)
    if hit then s.eventAt p (max pt t.wts)
    else
      let le := max pt t.wts + Config.lease
      { s with
        blockTs := Table.set ⟨0, 0⟩ s.blockTs b ⟨t.wts, max t.rts le⟩
        copies := (match copy, p.who with
          | true, some w => ⟨w, b, t.wts, le⟩ :: s.copies.filter fun c => !(c.core == w && c.block == b)
          | _, _ => s.copies)
      : State }.eventAt p (max pt t.wts)

/-- A streaming load's lease (R284): its timestamp is the program timestamp of its region's start, `ts`; of a block
written since then it reads an older copy, which no lease of the block names. -/
def State.streamTs (s : State) (who ts : Nat) (copy : Bool) (pa : Nat) : State :=
  (if (s.tsOf pa).wts ≤ ts then { s.loadTs ⟨some who, ts⟩ copy pa with pt := s.pt } else s).raisePt who ts

/-- The blocks that `n` bytes at an address meet. -/
def blocksOf (pa n : Nat) : List Nat := (List.range ((pa + n - 1) / 256 + 1 - pa / 256)).map fun k => pa / 256 + k

/-- The timestamp of a store of `n` bytes: one of every block that it meets, at their home slices. -/
def State.storeTs (s : State) (p : Party) (pa n : Nat) : State :=
  if 2 ^ 40 ≤ pa then s
  else
    let bs := blocksOf pa n
    let ts := bs.foldl (fun m b => max m ((Table.get ⟨0, 0⟩ s.blockTs b).rts + 1)) (s.ptBy p)
    { s with
      blockTs := bs.foldl (fun t b => Table.set ⟨0, 0⟩ t b ⟨ts, ts⟩) s.blockTs
      copies := s.copies.map fun c => if some c.core = p.who ∧ bs.contains c.block then ⟨c.core, c.block, ts, ts⟩ else c
    : State }.eventAt p ts

/-! Physical writes -/

/-- Whether `[a, a + n)` and `[b, b + m)` meet. -/
def overlap (a n b m : Nat) : Bool := decide (a < b + m ∧ b < a + n)

/-- A write reaches the watches of the sectors it touches (R290). -/
def Wait.marked (pa n : Nat) (w : Wait) : Wait :=
  match w.kind with
  | .monitor sec armed cause =>
    if overlap pa n (32 * sec) 32 && cause == 0 then { w with kind := .monitor sec armed 1 } else w
  | _ => w

/-- Every watch of a written sector wakes. -/
def State.markWrite (s : State) (pa n : Nat) : State :=
  { s with slices := s.slices.map fun x =>
      { x with strands := x.strands.map fun t => { t with waits := t.waits.map (Wait.marked pa n) } } }

/-- Poison cleared in the 32-byte units that a write of `[key, key + n)` covers whole (R428). -/
def clearPoison (p : Table Bool) (key n : Nat) : Table Bool :=
  p.filter fun e => !(decide (key ≤ e.1 / 32 * 32) && decide (e.1 / 32 * 32 + 32 ≤ key + n))

/-- Units of 64 bytes of HBM that a write of `[pa, pa + n)` leaves to be written back (R263). -/
def State.soil (s : State) (pa n : Nat) : State :=
  if pa < 2 ^ 40 then
    let d := (List.range ((pa + n + 63) / 64 - pa / 64)).foldl (fun t k => Table.set false t (pa / 64 + k) true) s.dirty
    { s with dirty := d }
  else s

/-- Bytes written at a physical address, and nothing else. -/
def State.pokeMem (s : State) (pa : Nat) (bs : List Byte) : State :=
  ({ s with mem := wrBytes s.mem pa bs, poison := clearPoison s.poison pa bs.length : State }.soil pa
    bs.length).markWrite pa bs.length

/-- Bytes written at a physical address; those of host memory leave on their link (R468). -/
def State.poke (s : State) (pa : Nat) (bs : List Byte) : State := (s.pokeMem pa bs).hostSend .write pa bs

/-- Bytes of local space written, by key. -/
def State.pokeLocal (s : State) (key : Nat) (bs : List Byte) : State :=
  { s with loc := wrBytes s.loc key bs, poison := clearPoison s.poison (281474976710656 + key) bs.length }

/-- Whether a byte of `[pa, pa + n)` is poisoned; local keys stand above 2^48. -/
def State.poisoned (s : State) (pa n : Nat) : Bool := s.poison.any fun e => decide (pa ≤ e.1 ∧ e.1 < pa + n)

/-! Regions and bins -/

/-- The home of a physical address (R264): die and slice. -/
def homeOf (pa : Nat) : Option (Nat × Nat) :=
  if pa < 2 ^ 39 then
    let c := pa / 2 ^ 14 * 2048 + pa % 2048
    some (pa / 2 ^ 11 % 8 / 2, Nat.xor (c / 2 ^ 11 % 64) (c / 2 ^ 17 % 64))
  else if pa < 2 ^ 40 then
    let c := pa / 2 ^ 12 % 2 ^ 25 * 2048 + pa % 2048
    some (pa / 2 ^ 37 % 4, Nat.xor (c / 2 ^ 11 % 64) (c / 2 ^ 17 % 64))
  else none

/-- Bits of a region's element (R293, R294). -/
def Region.width (r : Region) : Nat := if r.type = 2 ∨ r.type = 3 then 64 else if r.type = 5 then 16 else 32

/-- Bytes of a region's element. -/
def Region.size (r : Region) : Nat := r.width / 8

/-- A region table entry. -/
def State.region (s : State) (n : Nat) : Region := Table.get Region.reset s.regions n

/-- A region table entry replaced. -/
def State.setRegion (s : State) (n : Nat) (r : Region) : State :=
  { s with regions := Table.set Region.reset s.regions n r }

/-- The number of the region in one of two states that holds a key. -/
def State.regionAt (s : State) (closing : Bool) (va : Nat) : Option Nat :=
  (List.range 256).find? fun n =>
    let r := s.region n
    (decide (r.state = .opened) || (closing && decide (r.state = .closing)))
      && decide (r.base ≤ va ∧ va < r.base + r.len)

/-- The order of MAX and MIN (R295): NaN below −∞, −0 below +0. -/
def Region.key (r : Region) (v : Nat) : Int :=
  if r.type = 4 then (if (Fmt.fp32.read v).isNan then -(2 ^ 32 : Nat) else Fmt.fp32.order v)
  else if r.type = 0 ∨ r.type = 2 then sextNat r.width v else v

/-- Two values combined under an operator other than FADDX (R295); CNT counts apart. -/
def Region.combine (r : Region) (a b : Nat) : Nat :=
  match r.opr with
  | 2 => if r.key a < r.key b then b else a
  | 3 => if r.key b < r.key a then b else a
  | 4 => Nat.lor a b
  | 5 => Nat.land a b
  | 6 => Nat.xor a b
  | _ => (a + b) % 2 ^ r.width

/-- The format of a FADDX region. -/
def Region.fmt (r : Region) : Fmt := if r.type = 5 then .bf16 else .fp32

/-- ANCHOR as a signed number. -/
def Region.anchorInt (r : Region) : Int := sextNat 8 r.anchor

/-- No update of an epoch. -/
def Part.empty (epoch : Nat) : Part :=
  { epoch := epoch, sum := 0, nan := false, pinf := false, ninf := false, val := 0, count := 0 }

/-- A value rounded to the unit of a FADDX sum (R300), and whether it was inexact. -/
def Region.quantum (r : Region) (neg : Bool) (m : Nat) (e : Int) : Int × Bool :=
  let (n, inexact) := toIntegral .rne neg m (e - (r.anchorInt - 100)) false
  (if neg then -(n : Int) else n, inexact)

/-- A sum clamped to 128 bits (R300). -/
def clampSum (q : Int) : Int := max (-(2 ^ 127 : Nat)) (min ((2 ^ 127 : Nat) - 1) q)

/-- One update added to what a bin holds of its epoch (R300, R302). -/
def Part.add (b : Part) (r : Region) (v : Nat) : Part :=
  if r.opr = 1 then
    match r.fmt.read v with
    | .nan _ => { b with nan := true, count := b.count + 1 }
    | .inf neg => { b with pinf := b.pinf || !neg, ninf := b.ninf || neg, count := b.count + 1 }
    | .fin neg m e => { b with sum := b.sum + clampSum (r.quantum neg m e).1, count := b.count + 1 }
  else { b with val := if b.count = 0 then v else r.combine b.val v, count := b.count + 1 }

/-- The flags that an update raises in its region as it is added (R300). -/
def Region.noted (r : Region) (v : Nat) : Region :=
  if r.opr = 1 then
    match r.fmt.read v with
    | .fin neg m e =>
      let q := r.quantum neg m e
      { r with inexact := r.inexact || q.2, ovf := r.ovf || decide (clampSum q.1 ≠ q.1) }
    | _ => r
  else r

/-- One update added to a bin, in an epoch. -/
def Bin.add (b : Bin) (r : Region) (epoch v : Nat) : Bin :=
  if b.parts.any fun p => p.epoch == epoch then
    { b with parts := b.parts.map fun p => if p.epoch = epoch then p.add r v else p }
  else { b with parts := b.parts ++ [(Part.empty epoch).add r v] }

/-- What an apply writes, and the flags it raises. -/
structure Applied where
  val : Nat
  nv : Bool
  ovf : Bool
  inexact : Bool
  deriving DecidableEq, Repr

/-- The rounding of an apply: RNE, without DAZ, FZ or SAT (R117). -/
def yardEnv : Env := ⟨.rne, false, false, false⟩

/-- A key's stored value combined with its FADDX bins (R300). -/
def Region.applyFadd (r : Region) (stored : Nat) (bs : List Part) : Applied :=
  let f := r.fmt
  let s0 := bs.foldl (fun a b => a + b.sum) 0
  let c := clampSum s0
  let nan := bs.any fun b => b.nan
  let pinf := bs.any fun b => b.pinf
  let ninf := bs.any fun b => b.ninf
  let ovf := decide (c ≠ s0)
  match f.read stored with
  | .nan _ => ⟨f.nan, nan || (pinf && ninf), ovf, false⟩
  | .inf neg =>
    if nan || (pinf && ninf) || (pinf && neg) || (ninf && !neg) then ⟨f.nan, true, ovf, false⟩
    else ⟨stored, false, ovf, false⟩
  | .fin neg m e =>
    if nan || (pinf && ninf) then ⟨f.nan, true, ovf, false⟩
    else if pinf then ⟨f.inf, false, ovf, false⟩
    else if ninf then ⟨f.signed true f.inf, false, ovf, false⟩
    else
      let o := f.put yardEnv false (addX .rne (.fin neg m e) (.fin (decide (c < 0)) c.natAbs (r.anchorInt - 100)))
      ⟨o.1, false, ovf || o.2.testBit 2, o.2.testBit 0⟩

/-- A key's stored value combined with its bins (R295, R300). -/
def Region.apply (r : Region) (stored : Nat) (bs : List Part) : Applied :=
  if r.opr = 1 then r.applyFadd stored bs
  else if r.opr = 7 then ⟨(stored + bs.foldl (fun a b => a + b.count) 0) % 2 ^ r.width, false, false, false⟩
  else
    let v := bs.foldl (fun a b => r.combine a b.val) stored
    ⟨if r.type = 4 ∧ (Fmt.fp32.read v).isNan then Fmt.fp32.nan else v, false, false, false⟩

/-- Whether a bin is of a key and holds updates not later than an epoch. -/
def Bin.isOf (region key limit : Nat) (b : Bin) : Bool :=
  b.region == region && b.key == key && b.parts.any fun p => decide (p.epoch ≤ limit)

/-- Every bin, of the stores and of the spill segments. -/
def State.allBins (s : State) : List Bin := s.bins ++ s.segs.flatMap fun g => g.bins

/-- What remains of the bins that `p` holds of: the parts later than an epoch. -/
def keepLater (p : Bin → Bool) (limit : Nat) (l : List Bin) : List Bin :=
  l.filterMap fun b =>
    if p b then
      let later := b.parts.filter fun q => decide (limit < q.epoch)
      if later.isEmpty then none else some { b with parts := later }
    else some b

/-- The updates not later than an epoch removed from the bins that `p` holds of, with the bins and segments that are
empty then; a stall of a die that lost a bin ends (R303). -/
def State.dropBins (s : State) (p : Bin → Bool) (limit : Nat) : State :=
  let dies := (s.allBins.filter fun b => p b && b.parts.all fun q => decide (q.epoch ≤ limit)).map fun b => b.die
  { s with
    bins := keepLater p limit s.bins
    segs := (s.segs.map fun g => { g with bins := keepLater p limit g.bins }).filter fun g => !g.bins.isEmpty
    yardStall := s.yardStall.filter fun e => !dies.contains (e.1 / 64) }

/-- A CLOSING region without bins becomes FREE (R297). -/
def State.settleRegion (s : State) (n : Nat) : State :=
  let r := s.region n
  if r.state = .closing ∧ !s.allBins.any (fun b => b.region == n) then s.setRegion n { r with state := .free } else s

/-- The updates to a key that are pending and not later than an epoch, with the key's physical address. -/
def State.pendingAt (s : State) (region key limit : Nat) : List Part × Nat :=
  let bs := s.allBins.filter (Bin.isOf region key limit)
  (bs.flatMap fun b => b.parts.filter fun p => decide (p.epoch ≤ limit), (bs.head?.map fun b => b.pa).getD 0)

/-- Updates taken from the bins of a key at `pa` combined with its stored value, as a store event (R295, R300). -/
def State.applyParts (s : State) (by' : Party) (region pa : Nat) (ps : List Part) : State :=
  let r := s.region region
  let o := r.apply (rdNum s.mem pa r.size) ps
  (((s.poke pa (leBytes o.val r.size)).storeTs by' pa r.size).setRegion region
    { r with nv := r.nv || o.nv, ovf := r.ovf || o.ovf, inexact := r.inexact || o.inexact }).settleRegion region

/-- One key applied by a party, for the updates not later than an epoch (R304): a store event. -/
def State.applyKey (s : State) (by' : Party) (region key limit : Nat) : State :=
  let (ps, pa) := s.pendingAt region key limit
  if ps.isEmpty then s else (s.dropBins (Bin.isOf region key limit) limit).applyParts by' region pa ps

/-- The keys with bins that `p` holds of: region and key, each once. -/
def State.keysWhere (s : State) (p : Bin → Bool) : List (Nat × Nat) :=
  ((s.allBins.filter p).map fun b => (b.region, b.key)).eraseDups

/-- Every key with bins that `p` holds of applied by a party. -/
def State.applyWhere (s : State) (by' : Party) (p : Bin → Bool) : State :=
  (s.keysWhere p).foldl (fun t k => t.applyKey by' k.1 k.2 s.epoch) s

/-- Every key that meets the virtual addresses `[va, va + n)` applied (R298, R304). -/
def State.applyAt (s : State) (by' : Party) (va n : Nat) : State :=
  s.applyWhere by' fun b => overlap b.key (s.region b.region).size va n

/-- Every key whose cell meets `[pa, pa + n)` applied: the host's addresses are physical (R467). -/
def State.applyPhys (s : State) (by' : Party) (pa n : Nat) : State :=
  s.applyWhere by' fun b => overlap b.pa (s.region b.region).size pa n

/-- The timestamp of the streaming loads of a region that starts now on a core: they follow every store that is in memory (R283),
so that none of these has a later one (log 1). -/
def State.startTs (s : State) (core : Nat) : Nat := s.blockTs.foldl (fun m e => max m e.2.wts) (s.ptOf core)

/-- What a streaming load of a region that starts now on a core will see (R283). -/
def State.snapshot (s : State) (core : Nat) : Snapshot :=
  { mem := s.mem, loc := s.loc, banks := s.banks, core := core, pt := s.startTs core
    keys := (s.keysWhere fun _ => true).map fun k =>
      let (ps, pa) := s.pendingAt k.1 k.2 s.epoch
      let r := s.region k.1
      (k.2, leBytes (r.apply (rdNum s.mem pa r.size) ps).val r.size) }

/-! Accepting an update (R299, R302, R303) -/

/-- Bins that a slice's store holds (R301, R302): 1/64 of the die's, 32 bytes a bin. -/
def State.binShare (s : State) (die : Nat) : Nat := (s.cfgItem die 0 0 256).toNat * 128

/-- Segments of a die's spill area (R301). -/
def State.spillArea (s : State) (die : Nat) : Nat := (s.cfgItem die 0 2 0).toNat

/-- The oldest segment of a die that holds no FADDX bin (R303). -/
def State.exactSeg (s : State) (die : Nat) : Option Seg :=
  s.segs.find? fun g => g.die == die && g.bins.all fun b => (s.region b.region).opr != 1

/-- The bins of one store, least recently combined first. -/
def State.storeBins (s : State) (die slice : Nat) : List Bin :=
  s.bins.filter fun b => b.die == die && b.slice == slice

/-- Whether a segment can be written on a die: the spill area has room, or a segment can be applied (R303). -/
def State.canSpill (s : State) (die : Nat) : Bool :=
  decide ((s.segs.filter fun g => g.die == die).length < s.spillArea die) || (s.exactSeg die).isSome

/-- The bins of a segment applied, which frees it (R303): updates to their keys in other bins stay pending, and the stalls of its
die end. -/
def State.applySeg (s : State) (g : Seg) : State :=
  g.bins.foldl (fun (t : State) (b : Bin) => t.applyParts .unit b.region b.pa b.parts)
    { s with segs := s.segs.erase g, yardStall := s.yardStall.filter fun e => e.1 / 64 != g.die }

/-- One segment written from a store that is full; none when the spill area is full and no segment can be applied. -/
def State.spill (s : State) (die slice : Nat) : Option State :=
  let s := if (s.segs.filter fun g => g.die == die).length < s.spillArea die then some s
    else match s.exactSeg die with
      | some g => some (s.applySeg g)
      | none => none
  s.map fun s =>
    let out := (s.storeBins die slice).take 128
    let s := { s with bins := s.bins.filter fun b => !out.contains b, segs := s.segs ++ [⟨die, out⟩] }
    (out.map fun b => b.region).eraseDups.foldl (fun t n =>
      let r := t.region n
      t.setRegion n { r with spills := min (r.spills + 1) 4294967295 }) s

/-- Whether a slice's store stalls: it accepts no update until an apply frees bins, or its spill area grows (R303). -/
def State.stalls (s : State) (die slice : Nat) : Bool :=
  (Table.get none s.yardStall (die * 64 + slice)).isSome && !s.canSpill die

/-- An update accepted into its key's bin; none while its slice stalls (R303). -/
def State.binUpdate (s : State) (region key pa v : Nat) : Option State :=
  match homeOf pa with
  | none => none
  | some (die, slice) =>
    let r := s.region region
    if s.stalls die slice then none
    else
      let s := { s with yardStall := Table.set none s.yardStall (die * 64 + slice) none }
      let got : Option State := match s.bins.find? fun b => b.region == region && b.key == key with
        | some b => some { s with bins := s.bins.filter (fun c => decide (c ≠ b)) ++ [b.add r s.epoch v] }
        | none =>
          let b := (⟨die, slice, region, key, pa, []⟩ : Bin).add r s.epoch v
          if (s.storeBins die slice).length < s.binShare die then some { s with bins := s.bins ++ [b] }
          else (s.spill die slice).map fun t => { t with bins := t.bins ++ [b] }
      got.map fun t => t.setRegion region ((t.region region).noted v)

end Sys2Proof.Machine
end

