-- ==== Sys2Proof/Machine/Flow.lean ====
section
/-! DEFINITION. Flow and control instructions, opcodes 0x00 to 0x19 (R127–R161). -/

namespace Sys2Proof.Machine

/-! Sources -/

/-- `LAND` (R130): the label. -/
def execLand (_h : Hdr) (label : BitVec 16) (s : State) : Host.Outcome State Fault Refusal :=
  fireStart (fun _ _ => label.setWidth 64) s

/-- The value of sN as the instance began: writes take effect at commit (R41, R43). -/
def State.sreg (s : State) (st : SRef) (r : Nat) : Word :=
  match s.strand? st with
  | some t => t.regs.getD r 0
  | none => 0

/-- `READ` (R131). -/
def execRead (_h : Hdr) (r : BitVec 6) (s : State) : Host.Outcome State Fault Refusal :=
  fireStart (fun st s => s.sreg st r.toNat) s

/-- `CONST` (R132): VAL whatever IM and EP are (R128). -/
def execConst (h : Hdr) (v : BitVec 21) (s : State) : Host.Outcome State Fault Refusal :=
  fireStart (fun _ _ => valOperand h.ty v) s

/-- A constant-pool entry (R68). -/
def State.poolEntry (s : State) (st : SRef) (k : Nat) : Word :=
  match s.inst? st with
  | some x => x.block.pool.getD k 0
  | none => 0

/-- `KPOOL` (R133). -/
def execKpool (_h : Hdr) (k : BitVec 5) (s : State) : Host.Outcome State Fault Refusal :=
  fireStart (fun st s => s.poolEntry st k.toNat) s

/-! Copying and sinking -/

/-- `MOV` (R134). -/
def execMov (h : Hdr) (v : BitVec 21) (s : State) : Host.Outcome State Fault Refusal :=
  firePure h [.a] (valOperand h.ty v) 0 (fun _ o => (o.a, 0)) s

/-- `FORK` (R135): TC and TD are routes of the node as TA and TB are. -/
def execFork (h : Hdr) (_tc _td : Option Target) (s : State) : Host.Outcome State Fault Refusal :=
  firePure h [.a] 0 0 (fun _ o => (o.a, 0)) s

/-- `DROP` (R136). -/
def execDrop (h : Hdr) (s : State) : Host.Outcome State Fault Refusal :=
  firePure h [.a] 0 0 (fun _ _ => (0, 0)) s

/-! Choosing -/

/-- What a choosing or joining instruction makes of an element: it waits, traps, or settles. -/
inductive Verdict where
  | wait
  | trap
  | nothing (l : Bool)
  | forward (l : Bool)
  | data (w : Word) (l : Bool)
  deriving DecidableEq, Repr

/-- An empty operand under a policy that is not replacement. -/
def emptyVerdict (ep : Ep) (l : Bool) : Verdict :=
  match ep with
  | .absorb => .nothing l
  | .forward => .forward l
  | .replace => .wait
  | .trap => .trap

/-- `SEL` (R138): the selector settles first, then the chosen operand; L is the selector's. -/
def selVerdict (ep : Ep) (a b c : Option Tok) : Verdict :=
  match c with
  | none => .wait
  | some c =>
    if c.e && decide (ep ≠ .replace) then emptyVerdict ep c.l
    else match (if !c.e && c.data.bit 0 then a else b) with
      | none => .wait
      | some t =>
        if t.e && decide (ep ≠ .replace) then emptyVerdict ep c.l
        else .data (if t.e then 0 else t.data) c.l

/-- `JAND.e` and `JOR.e` (R31, R142, R143): the inputs present, in order of arrival, of `n` used; `decides` is the
input that settles the join. -/
def joinVerdict (ep : Ep) (decides : Bool) (n : Nat) (l : Bool) : List Tok → Verdict
  | [] => if n = 0 then .data (Word.ofBool (!decides)) l else .wait
  | t :: r =>
    if t.e && decide (ep ≠ .replace) then emptyVerdict ep l
    else if (!t.e && t.data.bit 0) == decides then .data (Word.ofBool decides) l
    else joinVerdict ep decides (n - 1) l r

/-- What station `i` emits for a settled element. -/
def State.emitVerdict (s : State) (st : SRef) (i : Nat) (tag idx : Nat) : Verdict → State
  | .nothing l => s.emitNothing st i ⟨tag, idx, l, ⟨0, 0, 0⟩⟩
  | .forward l => s.emit st i ⟨0, tag, idx, l, true⟩
  | .data w l => s.emit st i ⟨w, tag, idx, l, false⟩
  | _ => s

/-- A token present for an early instruction: slot, token, arrival number. -/
structure Present where
  slot : Slot
  tok : Tok
  seq : Nat
  deriving DecidableEq, Repr

/-- A present token put among others in order of arrival. -/
def insertPresent (p : Present) : List Present → List Present
  | [] => [p]
  | q :: r => if p.seq ≤ q.seq then p :: q :: r else q :: insertPresent p r

/-- The tokens that stand at the used slots, in order of arrival. -/
def Node.presents (nd : Node) (waited slots : List Slot) : List Present :=
  (slots.flatMap fun sl => (nd.visible waited sl).map fun e => ⟨sl, e.1, e.2⟩).foldr insertPresent []

/-- The tokens of one element, in order of arrival. -/
def ofElem (tag idx : Nat) (l : List Present) : List Present :=
  l.filter fun p => decide (p.tok.tag = tag ∧ p.tok.idx = idx)

/-- The token of a slot. -/
def presentAt (l : List Present) (sl : Slot) : Option Tok := (l.find? fun p => decide (p.slot = sl)).map fun p => p.tok

/-- An early instruction's own rule on the data inputs present. -/
abbrev EarlyRule := List Present → Verdict

/-- L of an output: that of any data operand (R129). -/
def anyLast (l : List (Slot × Tok)) : Bool := l.any fun e => decide (e.1 ≠ .p) && e.2.l

/-- L of an output of `SEL`: its selector's (R138). -/
def selLast (l : List (Slot × Tok)) : Bool :=
  match tokOf l .c with
  | some t => t.l
  | none => false

/-- The verdict on an element of an early instruction: a predicate that fails waits for every used slot (R21, R22). -/
def earlyVerdict (h : Hdr) (slots : List Slot) (lastOf : List (Slot × Tok) → Bool) (rule : EarlyRule)
    (l : List Present) : Verdict :=
  let data := l.filter fun p => decide (p.slot ≠ .p)
  let last := lastOf (l.map fun p => (p.slot, p.tok))
  let full := slots.all fun sl => l.any fun p => decide (p.slot = sl)
  if h.pv then
    match presentAt l .p with
    | none => .wait
    | some p =>
      match predOf h 0 [(.p, p)] with
      | .pass => rule data
      | .mismatch => if full then .nothing last else .wait
      | .forward => if full then .forward last else .wait
      | .trap => .trap
  else rule data

/-- L that a verdict gives the element. -/
def Verdict.last : Verdict → Bool
  | .nothing l => l
  | .forward l => l
  | .data _ l => l
  | _ => false

/-- The first token of each slot among those of one element: one slot gives one input (R142). -/
def onePerSlot : List Slot → List Present → List Present
  | _, [] => []
  | seen, p :: r => if seen.contains p.slot then onePerSlot seen r else p :: onePerSlot (p.slot :: seen) r

/-- The arrival number of the operand that settles an element (R21): the last of the least number of its tokens, in order of
arrival, that `f` settles. -/
def settledBy (f : List Present → Verdict) : List Present → List Present → Nat
  | _, [] => 0
  | pre, p :: r => if f (pre ++ [p]) = .wait then settledBy f (pre ++ [p]) r else p.seq

/-- Whether an element may still be settled: some used slot without its token may yet receive it, having received none of a
later element of the tag. -/
def Node.awaitsToken (nd : Node) (slots : List Slot) (tag idx : Nat) (l ps : List Present) : Bool :=
  slots.any fun sl => !(l.any fun p => decide (p.slot = sl)) && !nd.fired.any (fun a => a.tag == tag && decide (idx < a.idx))
    && !ps.any fun p => decide (p.slot = sl) && p.tok.tag == tag && decide (idx < p.tok.idx)

/-- An element of an early instruction as it stands: its tokens, its verdict, and the arrival number that settled it. -/
structure Early where
  tag : Nat
  idx : Nat
  toks : List Present
  verdict : Verdict
  seq : Nat
  deriving DecidableEq, Repr

/-- The one of two elements that was settled first. -/
def Early.first (a : Early) : Option Early → Early
  | none => a
  | some b => if a.seq ≤ b.seq then a else b

/-- The elements of an early instruction not yet fired: once every waited slot has its switch token, those that have a token
ahead of a switch (R426). -/
def Node.earlies (nd : Node) (waited slots : List Slot) (f : List Present → Verdict) : List Early :=
  let ps := nd.presents waited slots
  (ps.map fun p => (⟨p.tok.tag, p.tok.idx⟩ : Anti)).eraseDups.filterMap fun a =>
    if nd.fired.contains a || !nd.setAhead waited slots a.tag a.idx then none
    else
      let l := onePerSlot [] (ofElem a.tag a.idx ps)
      let v := f l
      if decide (v = .wait) && !nd.awaitsToken slots a.tag a.idx l ps then none
      else some ⟨a.tag, a.idx, l, v, settledBy f [] l⟩

/-- The element that an early instruction fires for, with its verdict: the first of its tag (R19, R25), and of several that
are settled the one whose last operand arrived first (R21). -/
def Inst.earlyPick (x : Inst) (i : Nat) (h : Hdr) (data : List Slot) (lastOf : List (Slot × Tok) → Bool)
    (rule : EarlyRule) : Option (Nat × Nat × List Present × Verdict) :=
  match x.nodes[i]? with
  | none => none
  | some nd =>
    let slots := usedSlots h data
    let l := nd.earlies (x.waited i slots) slots (earlyVerdict h slots lastOf rule)
    let firsts := l.filter fun e => decide (e.verdict ≠ .wait) && !(l.any fun o => o.tag == e.tag && decide (o.idx < e.idx))
      && x.roomFor nd nd.targets e.tag e.idx
    (firsts.foldr (fun e b => some (e.first b)) none).map fun e => (e.tag, e.idx, e.toks, e.verdict)

/-- An early instruction fires (R31): anti-tokens go up the slots not awaited, inputs that arrived are dropped. -/
def fireEarly (h : Hdr) (data : List Slot) (lastOf : List (Slot × Tok) → Bool) (rule : EarlyRule) (s : State) :
    Host.Outcome State Fault Refusal :=
  atStation s fun st i s =>
    match s.inst? st, s.node? st i with
    | some x, some nd =>
      if !nd.free then s
      else match x.earlyPick i h data lastOf rule with
        | none => s
        | some (tag, idx, _, .trap) => s.trapStation st i 0x06 0 tag idx 0 0
        | some (tag, idx, l, v) =>
          let missing := data.filter fun sl => !l.any fun p => decide (p.slot = sl)
          ((s.consume st i h data ⟨tag, idx, v.last, ⟨0, 0, 0⟩⟩).antis st i
            (missing.map fun sl => (⟨BitVec.ofNat 7 i, sl⟩, ⟨tag, idx⟩))).emitVerdict st i tag idx v
    | _, _ => s

/-- What `SEL` with EF = 0 makes of a complete set: L is the selector's whatever becomes of the element (R138). -/
def selWhole (h : Hdr) (l : List (Slot × Tok)) : Verdict :=
  match predOf h 0 l with
  | .pass => selVerdict h.ep (tokOf l .a) (tokOf l .b) (tokOf l .c)
  | .mismatch => .nothing (selLast l)
  | .forward => .forward (selLast l)
  | .trap => .trap

/-- `SEL` with EF = 0 settles each complete set (R138). -/
def fireSel (h : Hdr) (s : State) : Host.Outcome State Fault Refusal :=
  fireRaw h [.a, .b, .c] (fun st i l r s =>
    if !s.outRoom st i (s.targets st i) r.tag r.idx then .wait s
    else match selWhole h l with
      | .trap => .done (s.trapStation st i 0x06 0 r.tag r.idx 0 0)
      | .wait => .wait s
      | o => .done ((s.consume st i h [.a, .b, .c] { r with l := o.last }).emitVerdict st i r.tag r.idx o)) s

/-- `SEL` on the tokens present. -/
def selRule (h : Hdr) : EarlyRule := fun l => selVerdict h.ep (presentAt l .a) (presentAt l .b) (presentAt l .c)

/-- `SEL` (R138). -/
def execSel (h : Hdr) (ef : Bool) (s : State) : Host.Outcome State Fault Refusal :=
  if ef then fireEarly h [.a, .b, .c] selLast (selRule h) s else fireSel h s

/-- The state of one output of `STEER`, and the list without it. -/
def steerAt (l : List SteerSt) (tag out : Nat) : SteerSt :=
  (l.find? fun e => e.tag == tag && e.out == out).getD ⟨tag, out, none, 0⟩

/-- The state of one output replaced. -/
def steerSet (l : List SteerSt) (e : SteerSt) : List SteerSt :=
  l.filter (fun o => !(o.tag == e.tag && o.out == e.out)) ++ [e]

/-- The list of an extended state of `STEER`. -/
def Ext.steers : Ext → List SteerSt
  | .steer l => l
  | _ => []

/-- `STEER`: the held elements of a tag emitted with L (R139). -/
def State.steerEnd (s : State) (st : SRef) (i tag : Nat) : State :=
  match s.node? st i with
  | none => s
  | some nd =>
    let l := nd.ext.steers
    let s := s.modNode st i fun n => { n with ext := .steer (l.filter fun e => e.tag != tag) }
    [0, 1].foldl (fun s o => match (steerAt l tag o).held with
      | some t => s.out st i (.tok { t with l := true } [o])
      | none => s) s

/-- `STEER`: one counted element sent to an output (R139). -/
def State.steerPut (s : State) (st : SRef) (i tag o : Nat) (w : Word) (e : Bool) : State :=
  match s.node? st i with
  | none => s
  | some nd =>
    let c := steerAt nd.ext.steers tag o
    let s := s.modNode st i fun n =>
      { n with ext := .steer (steerSet n.ext.steers ⟨tag, o, some ⟨w, tag, c.next, false, e⟩, c.next + 1⟩) }
    match c.held with
    | some t => s.out st i (.tok t [o])
    | none => s

/-- The element that leaves next on an output: the held one, or the one that the output counts next. -/
def SteerSt.first (e : SteerSt) : Nat :=
  match e.held with
  | some t => t.idx
  | none => e.next

/-- Whether taking an element sends something to output `k` (R139): a held element that the next one for `k` releases,
or the last of the stream. `o` is the output that the element is counted for, if it is. -/
def steerSends (l : List SteerSt) (tag : Nat) (o : Option Nat) (last : Bool) (k : Nat) : Bool :=
  let held := (steerAt l tag k).held.isSome
  (decide (o = some k) && (held || last)) || (last && held)

/-- Whether the outputs that taking an element sends to have room (R18). -/
def Inst.steerRoom (x : Inst) (nd : Node) (tag : Nat) (o : Option Nat) (last : Bool) : Bool :=
  let l := nd.ext.steers
  [0, 1].all fun k => !steerSends l tag o last k || x.roomFor nd [k] tag (steerAt l tag k).first

/-- `Inst.steerRoom` of station `i`. -/
def State.steerRoom (s : State) (st : SRef) (i tag : Nat) (o : Option Nat) (last : Bool) : Bool :=
  match s.inst? st, s.node? st i with
  | some x, some nd => x.steerRoom nd tag o last
  | _, _ => false

/-- What `STEER` makes of an element: it traps, or it takes it, counted for an output with its data and E, or not. -/
inductive SteerDoes where
  | trap
  | take (out : Option (Nat × Word × Bool))
  deriving DecidableEq, Repr

/-- The rules that complete R139: an empty selector, and one forwarded, choose TB. -/
def steerDoes (h : Hdr) (l : List (Slot × Tok)) : SteerDoes :=
  match tokOf l .a, tokOf l .c with
  | some a, some c =>
    let o := if !c.e && c.data.bit 0 then 0 else 1
    let w := if a.e then 0 else a.data
    (match predOf h 0 l with
    | .trap => .trap
    | .mismatch => .take none
    | .forward => .take (some (o, w, true))
    | .pass =>
      if a.e || c.e then match h.ep with
        | .absorb => .take none
        | .forward => .take (some (o, w, true))
        | .replace => .take (some (o, w, false))
        | .trap => .trap
      else .take (some (o, w, false)))
  | _, _ => .take none

/-- `STEER` (R139). -/
def execSteer (h : Hdr) (s : State) : Host.Outcome State Fault Refusal :=
  fireRaw h [.a, .c] (fun st i l r s =>
    match steerDoes h l with
    | .trap => .done (s.trapStation st i 0x06 0 r.tag r.idx 0 0)
    | .take o =>
      if s.steerRoom st i r.tag (o.map fun p => p.1) r.l then
        let s := s.consume st i h [.a, .c] r
        let s := match o with
          | some (k, w, e) => s.steerPut st i r.tag k w e
          | none => s
        .done (if r.l then s.steerEnd st i r.tag else s)
      else .wait s) s

/-- The token of `MERGE` that arrived first, with the predicate token it pairs with, when it can leave: no later token
passes it (R141). Once every waited slot has its switch token, a pair goes only with a token ahead of a switch (R426). -/
def Inst.mergePick (x : Inst) (i : Nat) (h : Hdr) : Option (List (Slot × Tok)) :=
  match x.nodes[i]? with
  | none => none
  | some nd =>
    let waited := x.waited i (usedSlots h [.a, .b])
    match (nd.presents waited [.a, .b]).filter fun p => nd.setAhead waited (usedSlots h [p.slot]) p.tok.tag p.tok.idx with
    | [] => none
    | p :: _ =>
      if !x.roomFor nd nd.targets p.tok.tag p.tok.idx then none
      else if h.pv then (findTok (nd.visible waited .p) p.tok.tag p.tok.idx).map fun q => [(p.slot, p.tok), (.p, q.1)]
      else some [(p.slot, p.tok)]

/-- Whether the pick of `MERGE` may leave in cycle `now`: a token of b waits out the cycle in which it arrived, since one of a
that arrives in it goes first (R141). -/
def Node.mergeDue (nd : Node) (now : Nat) : List (Slot × Tok) → Bool
  | (.b, t) :: _ => (findTok (tokens nd.bufB) t.tag t.idx).all fun e => decide (e.2 < now)
  | _ => true

/-- `MERGE` (R141): each operand token by itself, in arrival order; a and b arriving together go a first. -/
def execMerge (h : Hdr) (s : State) : Host.Outcome State Fault Refusal :=
  atStation s fun st i s =>
    match s.inst? st, s.node? st i with
    | some x, some nd =>
      if !nd.free || !((x.mergePick i h).all (nd.mergeDue s.cycles)) then s
      else match x.mergePick i h with
        | none => s
        | some l =>
          let drop := fun (s : State) => s.modNode st i fun n =>
            l.foldl (fun n e => n.setBuf e.1 (dropFirst (Entry.is e.2.tag e.2.idx) (n.buf e.1))) n
          match settle h 0 0 l with
          | none => s
          | some (.trap r) => s.trapStation st i 0x06 0 r.tag r.idx 0 0
          | some (.settle .nothing r) => (drop s).emitNothing st i r
          | some (.settle .forward r) => (drop s).emitForward st i r
          | some (.settle .go r) =>
            (drop s).emitData st i r (match l with | (.b, t) :: _ => if t.e then 0 else t.data | _ => r.v.a)
    | _, _ => s

/-! Joins -/

/-- The used data slots of a join. -/
def joinSlots (s : State) : List Slot :=
  match s.cur with
  | none => [.a, .b]
  | some c => match s.node? c.st c.idx with
    | some nd => if nd.fed.contains .c then [.a, .b, .c] else [.a, .b]
    | none => [.a, .b]

/-- The rule of an early join. -/
def joinRule (h : Hdr) (decides : Bool) (n : Nat) : EarlyRule :=
  fun l => joinVerdict h.ep decides n (l.any fun p => p.tok.l) (l.map fun p => p.tok)

/-- `JAND` (R142). -/
def execJand (h : Hdr) (ef : Bool) (s : State) : Host.Outcome State Fault Refusal :=
  let data := joinSlots s
  if ef then fireEarly h data anyLast (joinRule h false data.length) s
  else firePure h data 0 0 (fun _ o =>
    (Word.ofBool (o.a.bit 0 && o.b.bit 0 && (!data.contains .c || o.c.bit 0)), 0)) s

/-- `JOR` (R142). -/
def execJor (h : Hdr) (ef : Bool) (s : State) : Host.Outcome State Fault Refusal :=
  let data := joinSlots s
  if ef then fireEarly h data anyLast (joinRule h true data.length) s
  else firePure h data 0 0 (fun _ o =>
    (Word.ofBool (o.a.bit 0 || o.b.bit 0 || (data.contains .c && o.c.bit 0)), 0)) s

/-- `JALL` (R142). -/
def execJall (h : Hdr) (s : State) : Host.Outcome State Fault Refusal :=
  firePure h (joinSlots s) 0 0 (fun _ o => (o.a, 0)) s

/-! Loops -/

/-- A frame allocated for an outer tag (R145). -/
def State.openFrame (s : State) (st : SRef) (f outer g w : Nat) : State :=
  let snap := s.snapshot (s.strandCore st)
  s.modInst st fun x => { x with frames := x.frames.set f (some ⟨outer, g, w, 0, none, snap, 128⟩) }

/-- What enters a loop from an element: none when it is absorbed without L (R145). -/
def entering (ep : Ep) (t : Tok) : Option (Word × Bool) :=
  if !t.e then some (t.data, false)
  else match ep with
    | .absorb => if t.l then some (0, true) else none
    | .forward => some (0, true)
    | .replace => some (0, false)
    | .trap => none

/-- The frame that an element enters: held already, or taken by a primary `LOOPIN` (R145, R146). -/
def State.enterFrame (s : State) (st : SRef) (i : Nat) (x : LoopImm) (outer : Nat) : Option (Nat × State) :=
  match s.inst? st with
  | none => none
  | some y =>
    let g := if x.join then x.gate.toNat else i
    match y.frameFor g outer with
    | some f => some (f, s)
    | none =>
      if x.join then none
      else y.freeFrame.map fun f => (f, s.openFrame st f outer i (x.win.toNat + 1))

/-- `LOOPIN` (R145, R146). -/
def execLoopin (h : Hdr) (x : LoopImm) (s : State) : Host.Outcome State Fault Refusal :=
  fireRaw h [.a] (fun st i l r s =>
    match tokOf l .a with
    | none => .wait s
    | some t =>
      if t.e && decide (h.ep = .trap) then .done (s.trapStation st i 0x06 0 r.tag r.idx 0 0)
      else match entering h.ep t with
        | none => .done (s.consume st i h [.a] r)
        | some (w, e) =>
          match (s.settleFrames st).enterFrame st i x r.tag with
          | none => .wait s
          | some (f, u) =>
            if u.outRoom st i (u.targets st i) (iterTag f 0) r.idx then
              .done ((u.consume st i h [.a] r).emit st i ⟨w, iterTag f 0, r.idx, r.l, e⟩)
            else .wait s) s

/-- The held elements and records of `CARRY`. -/
def Ext.carries : Ext → List Tok × List CarryRec
  | .carry held recs => (held, recs)
  | _ => ([], [])

/-- Whether the window admits a retagged element (R147); an element of no held frame has no window to wait for. -/
def Inst.admits (x : Inst) (t : Tok) : Bool :=
  match x.frameOf t.tag with
  | some fr => decide (fr.full (t.tag % 4096) < fr.base + fr.w)
  | none => true

/-- A record of `CARRY` brought up to date. -/
def carryNote (recs : List CarryRec) (tag : Nat) (l go : Bool) : List CarryRec :=
  let r := (recs.find? fun r => r.tag == tag).getD ⟨tag, false, false⟩
  recs.filter (fun r => r.tag != tag) ++ [⟨tag, r.doneL || l, r.emitted || go⟩]

/-- The held element of `CARRY` that leaves next: the first that the window admits, with room, of those that are first of
their tag (R147). -/
def Inst.carryNext (x : Inst) (nd : Node) (held : List Tok) : Option Tok :=
  held.find? fun t => x.admits t && x.roomFor nd nd.targets t.tag t.idx
    && !held.any fun u => u.tag == t.tag && decide (u.idx < t.idx)

/-- A held element of `CARRY` emitted, when the window admits one. -/
def State.carryEmit (s : State) (st : SRef) (i : Nat) : State :=
  let s := s.settleFrames st
  match s.inst? st, s.node? st i with
  | some x, some nd =>
    let (held, recs) := nd.ext.carries
    (match x.carryNext nd held with
    | some t =>
      if nd.free then (s.modNode st i fun n => { n with ext := .carry (held.erase t) recs }).emit st i t else s
    | none => s)
  | _, _ => s

/-- `CARRY` (R147): a copy that holds a retagged element fires no further. -/
def execCarry (h : Hdr) (_x : LoopImm) (s : State) : Host.Outcome State Fault Refusal :=
  match atStation s fun st i s => s.carryEmit st i with
  | .next s => fireRaw h [.a, .b] (fun st i l r s =>
      match s.node? st i, tokOf l .a, tokOf l .b with
      | some nd, some a, some b =>
        let (held, recs) := nd.ext.carries
        if held.any fun t => t.idx % nd.copies == r.idx % nd.copies then .wait s
        else if (a.e || b.e) && decide (h.ep = .trap) then .done (s.trapStation st i 0x06 0 r.tag r.idx 0 0)
        else
          let go := !b.e && b.data.bit 0 && !(a.e && decide (h.ep = .absorb))
          let next := r.tag / 4096 * 4096 + (r.tag + 1) % 4096
          let t : Tok := ⟨if a.e then 0 else a.data, next, r.idx, a.l, a.e && decide (h.ep = .forward)⟩
          .done (((s.consume st i h [.a, .b] r).modNode st i fun n =>
            { n with ext := .carry (if go then held ++ [t] else held) (carryNote recs r.tag r.l go) }).carryEmit st i)
      | _, _, _ => .wait s) s
  | o => o

/-- `LOOPOUT` (R149): elements leave in the order in which they reach it. An element of a tag that names no held frame is
consumed and discarded whatever it is: under EP 11 an empty one does not trap, the model's choice between R128 and R149
(log 81). -/
def execLoopout (h : Hdr) (_x : LoopImm) (s : State) : Host.Outcome State Fault Refusal :=
  fireInOrder h [.a] (fun st i l r s =>
    match (s.settleFrames st).inst? st, tokOf l .a with
    | some x, some t =>
      match x.frameOf r.tag with
      | none => .done (s.consume st i h [.a] r)
      | some fr =>
        if t.e && decide (h.ep = .trap) then .done (s.trapStation st i 0x06 0 r.tag r.idx 0 0)
        else match entering h.ep t with
          | none => .done ((s.consume st i h [.a] r).settleFrames st)
          | some (w, e) =>
            if s.outRoom st i (s.targets st i) fr.outer r.idx then
              .done (((s.consume st i h [.a] r).emit st i ⟨w, fr.outer, r.idx, r.l, e⟩).settleFrames st)
            else .wait s
    | _, _ => .wait s) s

/-! Streams -/

/-- The streams that `GEN` generates. -/
def Ext.gens : Ext → List GenSt
  | .gen l => l
  | _ => []

/-- The next element of a generated stream (R153): k in every lane; a count of 0 gives one empty token. -/
def genTok (t : Ty) (g : GenSt) : Tok :=
  if g.count = 0 then ⟨0, g.tag, 0, true, true⟩
  else ⟨ofLanes t fun _ => g.next, g.tag, g.next, decide (g.next + 1 = g.count), false⟩

/-- `GEN` emits one element of its oldest stream, when there is room. -/
def State.genEmit (s : State) (st : SRef) (i : Nat) (t : Ty) : State :=
  match s.node? st i with
  | none => s
  | some nd => match nd.ext.gens with
    | [] => s
    | g :: r =>
      let tk := genTok t g
      if nd.free && s.outRoom st i nd.targets tk.tag tk.idx then
        (s.modNode st i fun n =>
          { n with ext := .gen (if tk.l then r else { g with next := g.next + 1 } :: r) }).emit st i tk
      else s

/-- What `GEN` makes of an element of a (R153). -/
inductive GenDoes where
  | skip
  | trap
  | forward
  | gen (count : Nat)
  deriving DecidableEq, Repr

/-- `GEN` on an element: one without L has no effect; one carrying L generates its count, or one empty token where it
produces nothing or is replaced; an empty one forwarded under EP 01 keeps its own index (R23). -/
def genDoes (h : Hdr) (l : List (Slot × Tok)) (r : Ready) : GenDoes :=
  match predOf h 0 l, tokOf l .a with
  | _, none => .skip
  | .trap, _ => .trap
  | .mismatch, _ => if r.l then .gen 0 else .skip
  | .forward, _ => if r.l then .forward else .skip
  | .pass, some t =>
    if t.e && decide (h.ep = .trap) then .trap
    else if !r.l then .skip
    else if !t.e then .gen (min t.data.toNat 65536)
    else if h.ep = .forward then .forward else .gen 0

/-- `GEN` (R153): start-fired without a; with a it generates on the element carrying L. -/
def execGen (h : Hdr) (n : BitVec 16) (s : State) : Host.Outcome State Fault Refusal :=
  match atStation s fun st i s => s.genEmit st i h.ty with
  | .next s =>
    let unfed := match s.cur with
      | none => true
      | some c => match s.node? c.st c.idx with
        | some nd => !nd.fed.contains .a
        | none => true
    if unfed then atStation s fun st i s => match s.node? st i with
      | none => s
      | some nd =>
        if nd.fired.contains ⟨0, 0⟩ then s
        else (s.modNode st i fun m =>
          { m with fired := [⟨0, 0⟩], ext := .gen [⟨0, n.toNat + 1, 0⟩] }).genEmit st i h.ty
    else fireRaw h [.a] (fun st i l r s =>
      match s.node? st i with
      | none => .wait s
      | some nd =>
        if !nd.ext.gens.isEmpty then .wait s
        else match genDoes h l r with
          | .trap => .done (s.trapStation st i 0x06 0 r.tag r.idx 0 0)
          | .skip => .done (s.consume st i h [.a] r)
          | .forward =>
            if s.outRoom st i nd.targets r.tag r.idx then .done ((s.consume st i h [.a] r).emitForward st i r) else .wait s
          | .gen c =>
            .done (((s.consume st i h [.a] r).modNode st i fun n =>
              { n with ext := .gen [⟨r.tag, c, 0⟩] }).genEmit st i h.ty)) s
  | o => o

/-- The counts of `CNT`. -/
def Ext.cnts : Ext → List CntSt
  | .cnt l => l
  | _ => []

/-- `CNT` (R154). -/
def execCnt (h : Hdr) (s : State) : Host.Outcome State Fault Refusal :=
  fireRaw h [.a] (fun st i l r s =>
    match s.node? st i, tokOf l .a with
    | some nd, some t =>
      let p := predOf h 0 l
      if decide (p = .trap) || (decide (p = .pass) && t.e && decide (h.ep = .trap)) then
        .done (s.trapStation st i 0x06 0 r.tag r.idx 0 0)
      else if r.l && !s.outRoom st i nd.targets r.tag 0 then .wait s
      else
        let counted := decide (p = .pass) && (!t.e || decide (h.ep = .replace))
        let old := (nd.ext.cnts.find? fun c => c.tag == r.tag).getD ⟨r.tag, 0⟩
        let n := if counted then old.count + 1 else old.count
        let rest := nd.ext.cnts.filter fun c => c.tag != r.tag
        let s := (s.consume st i h [.a] r).modNode st i fun m =>
          { m with ext := .cnt (if r.l then rest else rest ++ [⟨r.tag, n⟩]) }
        .done (if r.l then s.emit st i ⟨BitVec.ofNat 64 n, r.tag, 0, true, false⟩ else s)
    | _, _ => .wait s) s

/-- `ITER` (R155). -/
def execIter (h : Hdr) (s : State) : Host.Outcome State Fault Refusal :=
  fireWith h [.a] 0 0 true (fun st i k r s =>
    settleEmpty h [.a] st i k r (fun s =>
      let n := match (s.settleFrames st).inst? st with
        | some x => (match x.frameOf r.tag with | some fr => fr.full (r.tag % 4096) | none => r.tag % 4096)
        | none => 0
      (s.consume st i h [.a] r).emitData st i r (BitVec.ofNat 64 n)) s) s

/-- `KILL` (R156). -/
def execKill (h : Hdr) (x : KillImm) (s : State) : Host.Outcome State Fault Refusal :=
  fireEff h [.a] 0 0 (fun st i r s => .done ((s.consume st i h [.a] r).antis st i [(x, ⟨r.tag, r.idx⟩)])) s

/-! WRITE and exits -/

/-- `WRITE` (R43, R157): the block-tag token that carries L sets its register at commit. -/
def execWrite (h : Hdr) (r : BitVec 6) (s : State) : Host.Outcome State Fault Refusal :=
  fireEff h [.a] 0 0 (fun st i o s =>
    let s := s.consume st i h [.a] o
    .done (if o.tag = 0 ∧ o.l then s.modInst st fun x => { x with writes := x.writes ++ [(r.toNat, o.v.a)] } else s)) s

/-- The word of an exit-table entry (R67). -/
def Block.exitWord (b : Block) (n : Nat) : Word := b.exits.getD n 0

/-- The target of an exit entry: the image plus the signed OFFSET (R67). -/
def Block.target (b : Block) (n : Nat) : Word := b.image + Word.ofI (sextNat 32 ((b.exitWord n).field 31 0))

/-- The label of an exit entry. -/
def Block.exitLabel (b : Block) (n : Nat) : Nat := (b.exitWord n).field 63 48

/-- An exit instruction fires: a second firing traps MULTIEXIT (R42, R158, R159). Where its index is out of range as well,
JTBOUND comes first, the model's choice (log 74). -/
def fireExit (h : Hdr) (choice : Block → Word → Option Choice) (s : State) : Host.Outcome State Fault Refusal :=
  fireEff h [.a] 0 0 (fun st i r s =>
    match s.inst? st with
    | none => .wait s
    | some x => match choice x.block r.v.a with
      | none => .done (s.trapStation st i 0x03 0 r.tag r.idx 0 0)
      | some c =>
        if x.exit.isSome then .done (s.trapStation st i 0x04 0 r.tag r.idx 0 0)
        else .done ((s.consume st i h [.a] r).modInst st fun y => { y with exit := some c })) s

/-- The choice of a jump table (R159): none when the index is out of range. -/
def Block.jump (b : Block) (t : Nat) (i : Word) (push : Option (Word × Nat)) : Option Choice :=
  match b.jtabs[t]? with
  | none => none
  | some j => (j.offs[i.toNat]?).map fun o =>
      { exit := 0, next := b.image + o, push := push, pop := false, check := some j.label }

/-- `EXIT` (R159). -/
def execExit (h : Hdr) (n : BitVec 3) (s : State) : Host.Outcome State Fault Refusal :=
  fireExit h (fun b _ =>
    some { exit := n.toNat, next := b.target n.toNat, push := none, pop := false, check := none }) s

/-- `EXITI` (R159). -/
def execExiti (h : Hdr) (x : JumpImm) (s : State) : Host.Outcome State Fault Refusal :=
  fireExit h (fun b i => b.jump x.table.toNat i none) s

/-- `CALL` (R159): pushes the return site of entry n + 1. -/
def execCall (h : Hdr) (n : BitVec 3) (s : State) : Host.Outcome State Fault Refusal :=
  fireExit h (fun b _ =>
    some { exit := n.toNat, next := b.target n.toNat,
           push := some (b.target (n.toNat + 1), b.exitLabel (n.toNat + 1)), pop := false, check := none }) s

/-- `CALLI` (R159). -/
def execCalli (h : Hdr) (x : JumpImm) (s : State) : Host.Outcome State Fault Refusal :=
  fireExit h (fun b i => b.jump x.table.toNat i (some (b.target x.ret.toNat, b.exitLabel x.ret.toNat))) s

/-- `RET` (R159): the pop and the end of the strand come at commit. -/
def execRet (h : Hdr) (s : State) : Host.Outcome State Fault Refusal :=
  fireExit h (fun _ _ => some { exit := 0, next := 0, push := none, pop := true, check := none }) s

end Sys2Proof.Machine
end

