-- ==== Sys2Proof/Machine/Streams.lean ====
section
/-! DEFINITION. Instructions on whole streams: `RED`, `SCAN`, `SHUF`, `BCAST`, `IDX` (R241–R246), `QPACK`, `QUNPK`
(R181–R183). -/

namespace Sys2Proof.Machine

/-! RED and SCAN -/

/-- A lane operator with flags (R241). -/
def oprLane (op : Opr) (t : Ty) (v : Env) (a b : Nat) : Nat × Nat :=
  let w := t.width
  match op with
  | .add => ((a + b) % 2 ^ w, 0)
  | .minS => (minLane w false a b, 0)
  | .maxS => (maxLane w false a b, 0)
  | .minZ => (minLane w true a b, 0)
  | .maxZ => (maxLane w true a b, 0)
  | .and => (Nat.land a b, 0)
  | .or => (Nat.lor a b, 0)
  | .xor => (Nat.xor a b, 0)
  | .fadd =>
    let f := Ty.fmt t
    f.put v false (addX v.rm (f.operand v a) (f.operand v b))
  | .fmin => (Ty.fmt t).minmax v false a b
  | .fmax => (Ty.fmt t).minmax v true a b

/-- combine' of R242 on words, lane by lane, with flags. -/
def combineOpt (op : Opr) (t : Ty) (v : Env) : Option Word → Option Word → Option Word × Nat
  | none, y => (y, 0)
  | x, none => (x, 0)
  | some x, some y =>
    let o := mapF t fun k => oprLane op t v (lane t x k) (lane t y k)
    (some o.1, o.2)

/-- An element joins the partials: equal sizes combine, the earlier on the left (R124). -/
def pushPartial (op : Opr) (t : Ty) (v : Env) (n : Nat) (val : Option Word) : List Partial → List Partial × Nat
  | [] => ([⟨n, val⟩], 0)
  | p :: r =>
    if p.size = n then
      let o := combineOpt op t v p.val val
      let (l, f) := pushPartial op t v (n + n) o.1 r
      (l, f ||| o.2)
    else (⟨n, val⟩ :: p :: r, 0)

/-- The value of the whole tree over the partials, latest first (R124). -/
def treeOf (op : Opr) (t : Ty) (v : Env) : Option Word → Nat → List Partial → Option Word × Nat
  | acc, f, [] => (acc, f)
  | acc, f, p :: r =>
    let o := combineOpt op t v p.val acc
    treeOf op t v o.1 (f ||| o.2) r

/-- Elements that the partials cover. -/
def covered (l : List Partial) : Nat := l.foldl (fun n p => n + p.size) 0

/-- Absent elements added up to index `n`, at most `fuel` of them, with the flags of the combinations completed. -/
def padTo (op : Opr) (t : Ty) (v : Env) (n : Nat) : Nat → List Partial → List Partial × Nat
  | 0, l => (l, 0)
  | k + 1, l =>
    if covered l < n then
      let o := pushPartial op t v 1 none l
      let r := padTo op t v n k o.1
      (r.1, o.2 ||| r.2)
    else (l, 0)

/-- Whether the two latest partials are of one size, so that they combine next. -/
def due : List Partial → Bool
  | p :: q :: _ => p.size == q.size
  | _ => false

/-- The two latest partials combined, the earlier on the left (R124). -/
def joinDue (op : Opr) (t : Ty) (v : Env) : List Partial → List Partial × Nat
  | p :: q :: r =>
    let o := combineOpt op t v q.val p.val
    (⟨q.size + p.size, o.1⟩ :: r, o.2)
  | l => (l, 0)

/-- The streams in progress of `RED` and `SCAN`. -/
def Ext.reds : Ext → List RedSt
  | .red l => l
  | _ => []

/-- An operand of `RED` or `SCAN` as the tree takes it, lane by lane, with flags: a float is read under DAZ, a NaN is
canonical and a signalling one raises NV (R112, R114); bits that the type has no lane for are zero (R54). -/
def redOperand (t : Ty) (v : Env) (w : Word) : Word × Nat :=
  if t.isInt then (ofLanes t (lane t w), 0)
  else
    let f := Ty.fmt t
    mapF t fun k =>
      let b := lane t w k
      let x := f.operand v b
      if x.isNan then (f.nan, x.sig) else (if v.daz && f.subnormal b then b / f.sign * f.sign else b, 0)

/-- A result of `RED` or `SCAN`, which may be a lone element that no combination has rounded: FZ acts on it (R115). -/
def redResult (t : Ty) (v : Env) (w : Word) : Word × Nat :=
  if t.isInt then (w, 0)
  else
    let f := Ty.fmt t
    mapF t fun k =>
      let b := lane t w k
      if v.fz && f.subnormal b then (b / f.sign * f.sign, uf ||| nx) else (b, 0)

/-- What an element brings to a reduction: it traps, or its value, with whether it is a forwarded empty one (R242) and
the flags that reading it raises. -/
def redInput (h : Hdr) (v : Env) (l : List (Slot × Tok)) : Option (Option Word × Bool × Nat) :=
  match predOf h 0 l, tokOf l .a with
  | .trap, _ => none
  | .mismatch, _ => some (none, false, 0)
  | .forward, _ => some (none, true, 0)
  | .pass, none => some (none, false, 0)
  | .pass, some t =>
    if !t.e then
      let o := redOperand h.ty v t.data
      some (some o.1, false, o.2)
    else match h.ep with
      | .absorb => some (none, false, 0)
      | .forward => some (none, true, 0)
      | .replace => some (some 0, false, 0)
      | .trap => none

/-- The state of a stream after its next element, with the flags raised. -/
def redStep (op : Opr) (t : Ty) (v : Env) (r : Ready) (x : Option Word × Bool) (l : List RedSt) : RedSt × Nat :=
  let old := (l.find? fun e => e.tag == r.tag).getD ⟨r.tag, [], false⟩
  let pad := padTo op t v r.idx r.idx old.parts
  let o := pushPartial op t v 1 x.1 pad.1
  (⟨r.tag, o.1, old.empty || x.2⟩, pad.2 ||| o.2)

/-- The state of a stream of `RED` after an element that does not end it: the element stands as a partial of its own
until `RED` combines it. -/
def redTake (op : Opr) (t : Ty) (v : Env) (r : Ready) (x : Option Word × Bool) (l : List RedSt) : RedSt × Nat :=
  let old := (l.find? fun e => e.tag == r.tag).getD ⟨r.tag, [], false⟩
  let pad := padTo op t v r.idx r.idx old.parts
  (⟨r.tag, ⟨1, x.1⟩ :: pad.1, old.empty || x.2⟩, pad.2)

/-- The value of a stream so far. -/
def redValue (op : Opr) (t : Ty) (v : Env) (e : RedSt) : Option Word × Nat :=
  match e.parts with
  | [] => (none, 0)
  | p :: r => treeOf op t v p.val 0 r

/-- The states of the other streams, with this one when it goes on. -/
def redKeep (l : List RedSt) (e : RedSt) (ended : Bool) : Ext :=
  let rest := l.filter fun o => o.tag != e.tag
  .red (if ended then rest else rest ++ [e])

/-- `RED` combines two partials of one size of some stream (R124). -/
def redJoin (h : Hdr) (op : Opr) (st : SRef) (i : Nat) (s : State) : State :=
  match s.node? st i with
  | none => s
  | some nd => match nd.ext.reds.find? fun e => due e.parts with
    | none => s
    | some e =>
      let o := joinDue op h.ty (s.env st) e.parts
      (s.modNode st i fun n => { n with ext := redKeep n.ext.reds { e with parts := o.1 } false }).raise st o.2

/-- `RED` takes an element (R241, R242): the one that carries L completes the tree and fires the instruction. -/
def redElem (h : Hdr) (op : Opr) (st : SRef) (i : Nat) (l : List (Slot × Tok)) (r : Ready) (s : State) : Eff :=
  match s.node? st i, redInput h (s.env st) l with
  | none, _ => .wait s
  | _, none => .done (s.trapStation st i 0x06 0 r.tag r.idx 0 0)
  | some nd, some x =>
    if r.l && !s.outRoom st i nd.targets r.tag 0 then .wait s
    else
      let v := s.env st
      let e := (if r.l then redStep else redTake) op h.ty v r (x.1, x.2.1) nd.ext.reds
      let s := ((s.consume st i h [.a] r).raise st (x.2.2 ||| e.2)).modNode st i fun n =>
        { n with ext := redKeep n.ext.reds e.1 r.l }
      if r.l then
        let o := redValue op h.ty v e.1
        match (if e.1.empty then none else o.1) with
        | none => .done (s.emit st i ⟨0, r.tag, 0, true, true⟩)
        | some w =>
          let z := redResult h.ty v w
          .done ((s.raise st (o.2 ||| z.2)).emit st i ⟨z.1, r.tag, 0, true, false⟩)
      else .done s

/-- `RED` (R241, R242): partials that are due combine before the next element is taken. -/
def execRed (h : Hdr) (op : Opr) (s : State) : Host.Outcome State Fault Refusal :=
  let joins := match s.cur with
    | some c => (match s.node? c.st c.idx with
      | some nd => nd.ext.reds.any fun e => due e.parts
      | none => false)
    | none => false
  if joins then atStation s (redJoin h op) else fireRaw h [.a] (redElem h op) s

/-- `SCAN` (R243). -/
def execScan (h : Hdr) (op : Opr) (s : State) : Host.Outcome State Fault Refusal :=
  fireRaw h [.a] (fun st i l r s =>
    match s.node? st i, redInput h (s.env st) l with
    | none, _ => .wait s
    | _, none => .done (s.trapStation st i 0x06 0 r.tag r.idx 0 0)
    | some nd, some x =>
      if !s.outRoom st i nd.targets r.tag r.idx then .wait s
      else
        let v := s.env st
        let e := redStep op h.ty v r (x.1, x.2.1) nd.ext.reds
        let s := ((s.consume st i h [.a] r).raise st (x.2.2 ||| e.2)).modNode st i fun n =>
          { n with ext := redKeep n.ext.reds e.1 r.l }
        if x.1.isNone && !x.2.1 then .done (s.emitNothing st i r)
        else
          let o := redValue op h.ty v e.1
          match (if e.1.empty then none else o.1) with
          | none => .done (s.emitForward st i r)
          | some w =>
            let z := redResult h.ty v w
            .done ((s.raise st (o.2 ||| z.2)).emitData st i r z.1)) s

/-! SHUF, BCAST and IDX -/

/-- The streams in progress of `SHUF`. -/
def Ext.shufs : Ext → List ShufSt
  | .shuf l => l
  | _ => []

/-- The state of one stream of `SHUF`. -/
def shufAt (l : List ShufSt) (tag : Nat) : ShufSt := (l.find? fun e => e.tag == tag).getD ⟨tag, [], 0, false, false⟩

/-- The state of one stream replaced; a stream whose a and b have both ended is dropped. -/
def shufSet (l : List ShufSt) (e : ShufSt) : Ext :=
  let rest := l.filter fun o => o.tag != e.tag
  .shuf (if e.ended && e.done then rest else rest ++ [e])

/-- The state after b's stream has ended: nothing of a is held any more (R244). -/
def ShufSt.finish (e : ShufSt) : ShufSt := { e with done := true, held := [] }

/-- What `SHUF` makes of selecting element `i` of a's stream for an output that carries L when `l` (R244): none while
element `i` may still arrive. The data of `.f` leaves [63:32] zero (R54). -/
def shufSelect (h : Hdr) (repl : Word) (e : ShufSt) (i : Nat) (l : Bool) : Verdict :=
  match (if i < 256 then e.held.find? fun t => t.idx == i else none) with
  | some t => if !t.e then .data (ofLanes h.ty (lane h.ty t.data)) l else match h.ep with
    | .absorb => .nothing l
    | .forward => .forward l
    | .replace => .data repl l
    | .trap => .trap
  | none => if e.ended || decide (i < e.got) then .forward l else .wait

/-- The tokens of a slot that are next in their tags, each with its predicate token when PV is 1; once every waited slot
has its switch token, those with a token ahead of a switch (R426). -/
def Node.singles (nd : Node) (waited : List Slot) (h : Hdr) (pred : Bool) (sl : Slot) : List (List (Slot × Tok)) :=
  let l := (nd.visible waited sl).map fun e => e.1
  (l.zipIdx.filter fun e => !(l.take e.2).any fun t => t.tag == e.1.tag).filterMap fun e =>
    let t := e.1
    if !nd.setAhead waited (if pred then usedSlots h [sl] else [sl]) t.tag t.idx then none
    else if pred && h.pv then (findTok (nd.visible waited .p) t.tag t.idx).map fun q => [(sl, t), (.p, q.1)]
    else some [(sl, t)]

/-- Tokens of a set taken from their slots. -/
def Node.take (nd : Node) (l : List (Slot × Tok)) : Node :=
  l.foldl (fun n e => n.setBuf e.1 (dropFirst (Entry.is e.2.tag e.2.idx) (n.buf e.1))) nd

/-- `SHUF` takes one element of a. -/
def shufTakeA (h : Hdr) (repl : Word) (st : SRef) (i : Nat) (l : List (Slot × Tok)) (t : Tok) (s : State) : Eff :=
  match s.node? st i, predOf h repl l with
  | none, _ => .wait s
  | _, .trap => .done (s.trapStation st i 0x06 0 t.tag t.idx 0 0)
  | some nd, p =>
    let e := shufAt nd.ext.shufs t.tag
    let keep := decide (t.idx < 256) && !e.done && (!h.im || decide (p = .pass))
    let e := { e with held := if keep then e.held ++ [t] else e.held, got := t.idx + 1, ended := e.ended || t.l }
    if h.im && t.l then
      if !s.outRoom st i nd.targets t.tag 0 then .wait s
      else match shufSelect h repl e repl.toNat true with
        | .trap => .done (s.trapStation st i 0x06 0 t.tag t.idx 0 0)
        | o =>
          .done ((s.modNode st i fun n => { n.take l with ext := shufSet n.ext.shufs e.finish }).emitVerdict st i t.tag 0 o)
    else .done (s.modNode st i fun n => { n.take l with ext := shufSet n.ext.shufs e })

/-- What an element of b makes of its stream. -/
def shufVerdict (h : Hdr) (repl : Word) (e : ShufSt) (l : List (Slot × Tok)) (t : Tok) : Verdict :=
  match predOf h repl l with
  | .trap => .trap
  | .mismatch => .nothing t.l
  | .forward => .forward t.l
  | .pass =>
    if t.e && decide (h.ep ≠ .replace) then emptyVerdict h.ep t.l
    else shufSelect h repl e (if t.e then repl else t.data).toNat t.l

/-- `SHUF` takes one element of b, when the element of a that it selects is known. -/
def shufTakeB (h : Hdr) (repl : Word) (st : SRef) (i : Nat) (l : List (Slot × Tok)) (t : Tok) (s : State) : Eff :=
  match s.node? st i with
  | none => .wait s
  | some nd =>
    let e := shufAt nd.ext.shufs t.tag
    match shufVerdict h repl e l t with
    | .wait => .wait s
    | .trap => .done (s.trapStation st i 0x06 0 t.tag t.idx 0 0)
    | o =>
      if !s.outRoom st i nd.targets t.tag t.idx then .wait s
      else .done ((s.modNode st i fun n =>
        { n.take l with
          fired := ⟨t.tag, t.idx⟩ :: n.fired
          ext := shufSet n.ext.shufs (if t.l then e.finish else e) }).emitVerdict st i t.tag t.idx o)

/-- The first of several elements that can be taken is taken. -/
def takeFirst (act : SRef → Nat → List (Slot × Tok) → Tok → State → Eff) (st : SRef) (i : Nat) :
    List (List (Slot × Tok)) → State → Option State
  | [], _ => none
  | l :: r, s => match l with
    | [] => takeFirst act st i r s
    | (_, t) :: _ => match act st i l t s with
      | .done s => some s
      | .wait _ => takeFirst act st i r s

/-- `SHUF` (R244): a's elements are taken as they come, b's in element order; the predicate pairs with b's elements,
or with a's when IM is 1. An element that waits holds back its own tag only. -/
def execShuf (h : Hdr) (v : BitVec 21) (s : State) : Host.Outcome State Fault Refusal :=
  let repl := valOperand h.ty v
  atStation s fun st i s =>
    match s.inst? st, s.node? st i with
    | some x, some nd =>
      if !nd.free then s
      else
        let waited := x.waited i (usedSlots h (if h.im then [.a] else [.a, .b]))
        match takeFirst (shufTakeA h repl) st i (nd.singles waited h h.im .a) s with
        | some s => s
        | none => if h.im then s else (takeFirst (shufTakeB h repl) st i (nd.singles waited h true .b) s).getD s
    | _, _ => s

/-- `BCAST` (R245). -/
def execBcast (h : Hdr) (s : State) : Host.Outcome State Fault Refusal :=
  firePure h [.a] 0 0 (fun _ o => (ofLanes h.ty fun _ => lane h.ty o.a 0, 0)) s

/-- Lane j of `IDX` on element k (R246): k × n + j modulo 2^w, which float types convert under RNE, with flags (R116).
R246 names RNE alone: that the captured SAT applies, as to any conversion, is read from R113, R117 and R118 (log 90). -/
def idxLane (v : Env) (t : Ty) (k j : Nat) : Nat × Nat :=
  let n := (k * t.lanes + j) % 2 ^ t.width
  if t.isInt then (n, 0) else (Ty.fmt t).round ⟨.rne, false, false, v.sat⟩ true false n 0 false

/-- `IDX` (R246). -/
def execIdx (h : Hdr) (s : State) : Host.Outcome State Fault Refusal :=
  fireWith h [.a] 0 0 true (fun st i k r s =>
    settleEmpty h [.a] st i k r (fun s =>
      let o := mapF h.ty (idxLane (s.env st) h.ty r.idx)
      ((s.consume st i h [.a] r).raise st o.2).emitData st i r o.1) s) s

/-! QPACK and QUNPK -/

/-- The streams in progress of `QPACK` and `QUNPK`. -/
def Ext.packs : Ext → List PackSt
  | .pack l => l
  | _ => []

/-- The state of one stream. -/
def packAt (l : List PackSt) (tag : Nat) : PackSt := (l.find? fun e => e.tag == tag).getD ⟨tag, [], 0⟩

/-- The state of one stream kept, or dropped at its end. -/
def packSet (l : List PackSt) (e : PackSt) (ended : Bool) : Ext :=
  let rest := l.filter fun o => o.tag != e.tag
  .pack (if ended then rest else rest ++ [e])

/-- What an element brings to `QPACK` or `QUNPK`: it traps, or its data, none when it stands for an empty one. -/
def packInput (h : Hdr) (l : List (Slot × Tok)) : Option (Option Word) :=
  match predOf h 0 l, tokOf l .a with
  | .trap, _ => none
  | .pass, some t => if !t.e then some (some t.data) else if h.ep = .trap then none else some none
  | _, _ => some none

/-- Sixteen 4-bit codes as a word, code j in bits [4j+3:4j]. -/
def packCodes (l : List Nat) : Word := BitVec.ofNat 64 (packLanes 4 (fun j => l.getD j 0) 16)

/-- The three elements of each block of 32 values, `n` blocks, with flags (R181). -/
def packBlocks (rm : Rm) (qt : Qt) : Nat → List FVal → List Word × Nat
  | 0, _ => ([], 0)
  | n + 1, xs =>
    let blk := (xs ++ List.replicate 32 (FVal.fin false 0 0)).take 32
    let (cs, sc, f) := q4Encode rm qt blk
    let (r, g) := packBlocks rm qt n (xs.drop 32)
    (packCodes cs :: packCodes (cs.drop 16) :: BitVec.ofNat 64 sc :: r, f ||| g)

/-- A list of words emitted as a stream of a tag from index `k` up; L falls on the last when `l`. -/
def State.emitList (s : State) (st : SRef) (i tag k : Nat) (l : Bool) : List Word → State
  | [] => s
  | w :: r => (s.emit st i ⟨w, tag, k, l && r.isEmpty, false⟩).emitList st i tag (k + 1) l r

/-- `QPACK` (R181). -/
def execQpack (h : Hdr) (x : CvtImm) (s : State) : Host.Outcome State Fault Refusal :=
  fireRaw h [.a] (fun st i l r s =>
    match s.node? st i, packInput h l with
    | none, _ => .wait s
    | _, none => .done (s.trapStation st i 0x06 0 r.tag r.idx 0 0)
    | some nd, some w =>
      let e := packAt nd.ext.packs r.tag
      let vals := e.vals ++ List.replicate (r.idx - e.vals.length) 0 ++ [w.getD 0]
      if r.l && !s.outRoom st i nd.targets r.tag 0 then .wait s
      else
      let s := (s.consume st i h [.a] r).modNode st i fun n =>
        { n with ext := packSet n.ext.packs { e with vals := vals } r.l }
      if r.l then
        let v := (s.env st).withRnd x.rnd
        let fs := vals.flatMap fun w => (List.range x.src.lanes).map fun k => (Ty.fmt x.src).operand v (lane x.src w k)
        let (ws, f) := packBlocks v.rm x.qt ((fs.length + 31) / 32) fs
        .done ((s.raise st f).emitList st i r.tag 0 true ws)
      else .done s) s

/-- The 32 values of a block of `QUNPK` as words of type `t`, with flags (R182). -/
def unpackBlock (t : Ty) (v : Env) (lo hi : Word) (scale : Nat) : List Word × Nat :=
  let f := Ty.fmt t
  let vals := (List.range 32).map fun j =>
    let c := if j < 16 then lo.toNat / 2 ^ (4 * j) % 16 else hi.toNat / 2 ^ (4 * (j - 16)) % 16
    f.put v (decide (f ≠ .fp32)) ((q4Value scale c).x 0)
  ((List.range (32 / t.lanes)).map fun k => ofLanes t fun j => (vals.getD (k * t.lanes + j) (0, 0)).1, allFlags vals)

/-- What `QUNPK` makes of element `idx` (R182): elements 3b to 3b + 2 form block b, and one that never came counts as an
empty one, so that the blocks passed over decode to +0. The words emitted for those, and those kept of the element's own
block before it. -/
def unpackGap (t : Ty) (e : PackSt) (idx : Nat) : List Word × List Word :=
  let per := 32 / t.lanes
  let gap := idx / 3 - e.out / per
  let own := if gap = 0 then e.vals else []
  (List.replicate (gap * per) 0, own ++ List.replicate (idx % 3 - own.length) 0)

/-- `QUNPK` (R182): a block is decoded at its third element. -/
def execQunpk (h : Hdr) (x : CvtImm) (s : State) : Host.Outcome State Fault Refusal :=
  fireRaw h [.a] (fun st i l r s =>
    match s.node? st i, packInput h l with
    | none, _ => .wait s
    | _, none => .done (s.trapStation st i 0x06 0 r.tag r.idx 0 0)
    | some nd, some w =>
      let e := packAt nd.ext.packs r.tag
      let third := decide (r.idx % 3 = 2)
      let scale := (w.getD 0).toNat % 256
      let gap := unpackGap h.ty e r.idx
      let v := (s.env st).withRnd x.rnd
      let o := if third then unpackBlock h.ty v (gap.2.getD 0 0) (gap.2.getD 1 0) scale else ([], 0)
      let ws := gap.1 ++ o.1
      if (r.l && !third) || (third && w.isSome && decide (scale / 64 ≠ Qt.bits x.qt))
          || decide (65536 < e.out + ws.length) then
        .done (s.trapStation st i 0x14 0 r.tag r.idx 0 0)
      else if !ws.isEmpty && !s.outRoom st i nd.targets r.tag e.out then .wait s
      else
        let vals := if third then [] else gap.2 ++ [w.getD 0]
        .done ((((s.consume st i h [.a] r).modNode st i fun n =>
          { n with ext := packSet n.ext.packs ⟨r.tag, vals, e.out + ws.length⟩ r.l }).raise st o.2).emitList st i
            r.tag e.out r.l ws)) s

/-! What `TREE` and `ACCEPT` can take (R397, R398) -/

/-- The streams in progress of `TREE`. -/
def Ext.trees : Ext → List TreeSt
  | .tree l => l
  | _ => []

/-- The state of one stream of `TREE`. -/
def treeAt (l : List TreeSt) (tag : Nat) : TreeSt :=
  (l.find? fun e => e.tag == tag).getD ⟨tag, 0, List.replicate 16 0, []⟩

/-- The complete sets of `TREE` that are next in their stream. -/
def Node.treeSets (nd : Node) (waited slots : List Slot) : List (List (Slot × Tok)) :=
  (nd.sets waited slots).filter fun l => match l with
    | (_, t) :: _ => decide ((treeAt nd.ext.trees t.tag).masks.length = t.idx)
    | [] => false

/-- The tags of `ACCEPT`. -/
def Ext.accepts : Ext → List AcceptSt
  | .accept l => l
  | _ => []

/-- The tag whose verdict is to be emitted. -/
def Node.verdictDue (nd : Node) : Option AcceptSt := nd.ext.accepts.find? fun e => e.verdict.isSome && !e.closed

/-- The token that `ACCEPT` takes next, in order of arrival; a predicate pairs with the entries of slot a. -/
def Inst.acceptPick (x : Inst) (i : Nat) (h : Hdr) : Option (List (Slot × Tok)) :=
  match x.nodes[i]? with
  | none => none
  | some nd =>
    let waited := x.waited i (usedSlots h [.a, .b])
    (nd.presents waited [.a, .b]).findSome? fun p =>
      if !nd.setAhead waited (if p.slot = .a then usedSlots h [.a] else [.b]) p.tok.tag p.tok.idx then none
      else if h.pv && decide (p.slot = .a) then
        (findTok (nd.visible waited .p) p.tok.tag p.tok.idx).map fun q => [(p.slot, p.tok), (.p, q.1)]
      else some [(p.slot, p.tok)]

end Sys2Proof.Machine
end

