-- ==== Sys2Proof/Machine/Quiesce.lean ====
section
/-! DEFINITION. Whether something can still happen in a block instance by itself (R40), and when an access may go
(R281, R485). -/

namespace Sys2Proof.Machine

/-- EP of a word. -/
def Node.ep (nd : Node) : Ep :=
  match nd.word.field 45 44 with
  | 0 => .absorb | 1 => .forward | 2 => .replace | _ => .trap

/-- The header fields that settling reads. -/
def Node.hdr (nd : Node) : Hdr :=
  { rm := BitVec.ofNat 6 (nd.word.field 55 50), ty := .q, ep := nd.ep, im := nd.word.bit 43, pv := nd.word.bit 42,
    pp := nd.word.bit 41, ta := none, tb := none }

/-- The data slots that arcs feed. -/
def Node.data (nd : Node) : List Slot := nd.fed.filter fun sl => decide (sl ≠ .p)

/-- The complete sets of a node. -/
def Inst.setsOf (x : Inst) (i : Nat) (nd : Node) : List (List (Slot × Tok)) := nd.sets (x.waited i nd.fed) nd.fed

/-- The (tag, index) of a set. -/
def setElem : List (Slot × Tok) → Nat × Nat
  | [] => (0, 0)
  | (_, t) :: _ => (t.tag, t.idx)

/-- Whether an instruction is early (R31). -/
def Node.early (nd : Node) : Bool := nd.word.bit 46 && (nd.op == 0x07 || nd.op == 0x0A || nd.op == 0x0B)

/-- The rule of an early instruction. -/
def Node.rule (nd : Node) : EarlyRule :=
  if nd.op = 0x07 then selRule nd.hdr else joinRule nd.hdr (nd.op == 0x0B) nd.data.length

/-- A message instruction (R376). -/
def Node.message (nd : Node) : Bool := decide (0xC0 ≤ nd.op ∧ nd.op ≤ 0xCD) || nd.op == 0xD0 || nd.op == 0xD1

/-- The elements gathered for a tag (R378). -/
def Ext.gathers : Ext → List GatherSt
  | .gather l => l
  | _ => []

/-- The last used slot of a message instruction (R378). -/
def lastSlot (l : List Slot) : Slot := if l.contains .c then .c else if l.contains .b then .b else .a

/-- Whether an element of the last slot of a message instruction, or an operand that it pairs with, stands ahead of the
switch token (R426); true until every waited slot has received it. -/
def Node.pieceAhead (nd : Node) (waited early : List Slot) (last : Slot) (tag idx : Nat) : Bool :=
  let at' := fun (sl : Slot) (k : Nat) => waited.contains sl && (findTok (ahead (nd.buf sl)) tag k).isSome
  !nd.switched waited || waited.isEmpty || at' last idx || at' .p idx || early.any fun sl => at' sl 0

/-- Whether a message instruction can take an element: the next of the last slot, with what it pairs with, or an
element of an earlier slot whose index is not 0. -/
def Inst.canGather (x : Inst) (i : Nat) (nd : Node) : Bool :=
  let waited := x.waited i nd.fed
  let last := lastSlot nd.data
  let early := nd.data.filter fun sl => decide (sl ≠ last)
  early.any (fun sl => (nd.visible waited sl).any fun e => e.1.idx != 0)
    || (nd.visible waited last).any fun e =>
      !nd.fired.contains ⟨e.1.tag, 0⟩ && nd.pieceAhead waited early last e.1.tag e.1.idx
        && ((nd.ext.gathers.any fun g => g.tag == e.1.tag)
          || early.all fun sl => (findTok (nd.visible waited sl) e.1.tag 0).isSome)
        && (!nd.fed.contains .p || (findTok (nd.visible waited .p) e.1.tag e.1.idx).isSome)

/-- Whether `SHUF` can take an element: one of a at once, the last one of a with IM = 1 and one of b when what it selects
is known and its output has room. -/
def Inst.canShuf (x : Inst) (i : Nat) (nd : Node) : Bool :=
  match rawDecode nd.word with
  | some (.instr (.shuf h v)) =>
    let repl := valOperand h.ty v
    let waited := x.waited i nd.fed
    (nd.singles waited h h.im .a).any (fun l => match l with
        | (_, t) :: _ => !(h.im && t.l) || x.roomFor nd nd.targets t.tag 0
        | [] => false)
      || (!h.im && (nd.singles waited h true .b).any fun l => match l with
        | (_, t) :: _ => (match shufVerdict h repl (shufAt nd.ext.shufs t.tag) l t with
          | .wait => false
          | .trap => true
          | _ => x.roomFor nd nd.targets t.tag t.idx)
        | [] => false)
  | _ => false

/-- The first set of each tag: a set that waits holds back the later ones of its tag (R25). -/
def firstOfTags : List Nat → List (List (Slot × Tok)) → List (List (Slot × Tok))
  | _, [] => []
  | seen, l :: r =>
    if seen.contains (setElem l).1 then firstOfTags seen r else l :: firstOfTags ((setElem l).1 :: seen) r

/-- Whether an element of a loop gate needs no room: it traps, or it enters or leaves as nothing (R146, R149). -/
def gateDrops (ep : Ep) (t : Option Tok) : Bool :=
  match t with
  | some t => t.e && (decide (ep = .trap) || (decide (ep = .absorb) && !t.l))
  | none => false

/-- Whether `LOOPIN` can let an element in: it holds the frame, or a free one remains, and there is room (R145, R151). -/
def Inst.canEnter (x : Inst) (i : Nat) (nd : Node) : Bool :=
  (firstOfTags [] (x.setsOf i nd)).any fun l =>
    let outer := (setElem l).1
    let g := if nd.word.bit 20 then nd.gate else i
    let f := match x.frameFor g outer with
      | some f => some f
      | none => if nd.word.bit 20 then none else x.freeFrame
    gateDrops nd.ep (tokOf l .a) || (match f with
      | some f => x.roomFor nd nd.targets (iterTag f 0) (setElem l).2
      | none => false)

/-- Whether `LOOPOUT` can let an element out (R149). -/
def Inst.canLeave (x : Inst) (i : Nat) (nd : Node) : Bool :=
  ((x.setsOf i nd).take 1).any fun l => match x.frameOf (setElem l).1 with
    | none => true
    | some fr => gateDrops nd.ep (tokOf l .a) || x.roomFor nd nd.targets fr.outer (setElem l).2

/-- Whether `CARRY` can emit or fire (R147). -/
def Inst.canCarry (x : Inst) (i : Nat) (nd : Node) : Bool :=
  let held := nd.ext.carries.1
  (x.carryNext nd held).isSome
    || (firstOfTags [] (x.setsOf i nd)).any fun l => !held.any fun t => t.idx % nd.copies == (setElem l).2 % nd.copies

/-- Whether `GEN` can emit or take an element (R153). -/
def Inst.canGen (x : Inst) (i : Nat) (nd : Node) : Bool :=
  match nd.ext.gens with
  | g :: _ => x.roomFor nd nd.targets g.tag (if g.count = 0 then 0 else g.next)
  | [] => if nd.fed.contains .a then !(x.setsOf i nd).isEmpty else !nd.fired.contains ⟨0, 0⟩

/-- Whether an anti-token that stands at a node is held there until the node fires (R35, R240, R312): `TAP` (0x84)
holds the one of its element with L, and so one of an element that may still come with L (R249, log 69). -/
def Node.holdsAnti (nd : Node) (eff : Bool) (a : Anti) : Bool :=
  if nd.op = 0x84 then nd.fired.contains a || match findTok (tokens nd.bufA) a.tag a.idx with
    | some t => t.1.l
    | none => true
  else eff

/-- Whether an anti-token at a node has something left to do. -/
def Node.antiMoves (nd : Node) : Bool :=
  nd.antis.any fun e => nd.sent.contains e || !nd.holdsAnti (effectfulOp nd.op) e.2

/-- Instructions other than the loop gates that settle their sets by a rule of their own. -/
def Node.raw (nd : Node) : Bool := [0x07, 0x08, 0x0A, 0x0B, 0x0C, 0x13, 0x66, 0x67, 0x80, 0x81, 0x84].contains nd.op

/-- Whether `QUNPK` can take a set: it emits at the third element of a block, and for blocks passed over (R182). -/
def Inst.unpackRoom (x : Inst) (nd : Node) (l : List (Slot × Tok)) : Bool :=
  let e := packAt nd.ext.packs (setElem l).1
  let t := (Ty.ofCode (nd.word.extractLsb' 47 3)).getD .q
  let k := (setElem l).2
  !(k % 3 == 2 || decide (e.out / (32 / t.lanes) < k / 3)) || x.roomFor nd nd.targets (setElem l).1 e.out

/-- Whether the targets of a node leave room for what a set makes it emit: `CNT`, `RED` and `QPACK` emit at the element
with L. -/
def Inst.roomSet (x : Inst) (nd : Node) (l : List (Slot × Tok)) : Bool :=
  let last := anyLast l
  if nd.op = 0x13 ∨ nd.op = 0x66 ∨ nd.op = 0x80 then !last || x.roomFor nd nd.targets (setElem l).1 0
  else if nd.op = 0x67 then x.unpackRoom nd l
  else if nd.op = 0x08 then match steerDoes nd.hdr l with
    | .trap => true
    | .take o => x.steerRoom nd (setElem l).1 (o.map fun p => p.1) last
  else x.roomFor nd nd.targets (setElem l).1 (setElem l).2

/-- Whether station `i` can do something by itself under the word in front, memory instructions apart. -/
def Inst.moves (x : Inst) (i : Nat) : Bool :=
  match x.nodes[i]? with
  | none => false
  | some nd =>
    nd.antiMoves ||
    (if !nd.antiOut.isEmpty then (match nd.antiOut with | (k, a) :: _ => (x.injectAnti k a).isSome | [] => false)
    else if !nd.outq.isEmpty then (match nd.outq with | o :: _ => x.canDeliver nd o | [] => false)
    else if nd.op = 0x1A ∨ nd.memory then false
    else if nd.op = 0x12 then x.canGen i nd
    else if nd.fed.isEmpty then !nd.fired.contains ⟨0, 0⟩ && x.roomFor nd nd.targets 0 0
    else if nd.op = 0x09 then (x.mergePick i nd.hdr).isSome
    else if nd.early then (x.earlyPick i nd.hdr nd.data (if nd.op = 0x07 then selLast else anyLast) nd.rule).isSome
    else if nd.op = 0x0E then x.canEnter i nd
    else if nd.op = 0x0D then x.canCarry i nd
    else if nd.op = 0x82 then x.canShuf i nd
    else if nd.op = 0xCE then
      (nd.treeSets (x.waited i nd.fed) nd.fed).any fun l => x.roomFor nd nd.targets (setElem l).1 (setElem l).2
    else if nd.op = 0xCF then
      (match nd.verdictDue with
      | some e => x.roomFor nd nd.targets e.tag 0
      | none => (x.acceptPick i nd.hdr).isSome)
    else if nd.message then x.canGather i nd
    else if nd.op = 0x0F then x.canLeave i nd
    else if nd.raw then (firstOfTags [] (x.setsOf i nd)).any fun l => x.roomSet nd l
    else if nd.op = 0x8D then !(x.setsOf i nd).isEmpty
    else !(x.readies i nd.hdr nd.data 0 0 true).isEmpty)

/-- Whether station `i` can do something by itself, memory instructions apart, under the word of any of its copies. -/
def Inst.canMove (x : Inst) (i : Nat) : Bool :=
  x.moves i || match x.nodes[i]? with
    | some nd => nd.alts.any fun a => (x.modNode i fun n => n.turned a.1).moves i
    | none => false

/-- Whether an element of a memory instruction waits for an outside event: a full/empty word, a tile, or a walk. -/
def State.waitsAt (s : State) (st : SRef) (t : Strand) (i tag idx : Nat) : Bool :=
  t.reqs.any (fun r => r.node == i && r.tag == tag && r.idx == idx)
    || s.walks.any fun w => decide (w.who = .station st i tag idx)

/-- The elements (tag, index) that an instruction of the shared shape can take: their operands and room are there. -/
def Inst.goable (x : Inst) (i : Nat) (nd : Node) : List (Nat × Nat) :=
  (x.readies i nd.hdr nd.data 0 0 true).map fun p => match p with
    | .trap r => (r.tag, r.idx)
    | .settle _ r => (r.tag, r.idx)

/-- The elements of memory instructions that have their operands and wait for nothing but their order. -/
def State.orderly (s : State) (st : SRef) (t : Strand) (x : Inst) : List (Nat × Nat × Nat) :=
  (x.nums fun _ nd => nd.memory).flatMap fun i => match x.nodes[i]? with
    | none => []
    | some nd => (x.goable i nd).filterMap fun e => if s.waitsAt st t i e.1 e.2 then none else some (i, e.1, e.2)

/-- Whether a walk is due for one of a strand's stations: it goes on by itself until it is posted as a miss (R259). -/
def State.walking (s : State) (st : SRef) : Bool :=
  s.walks.any fun w => !w.posted && match w.who with
    | .station u _ _ _ => decide (u = st)
    | _ => false

/-- Whether an instruction waits at a tile: it holds back no other instruction that acts on the same tile (R277). -/
def Strand.atTile (t : Strand) (j : Nat) : Bool := t.reqs.any fun q => q.node == j && q.keys.any fun k => decide (2 ^ 40 ≤ k)

/-- An access that is held back by its order: element (tag, idx) of instruction `node`, and whether it has issued. -/
structure Held where
  node : Nat
  tag : Nat
  idx : Nat
  issued : Bool
  deriving DecidableEq, Repr

/-- The issued accesses of a strand that stand at a place, and the elements not issued whose output has left. -/
def Strand.standing (t : Strand) (x : Inst) : List Held :=
  ((t.pend.filter fun a => !a.free).map fun a => ⟨a.node, a.tag, a.idx, true⟩)
    ++ (x.told.filter fun a => !t.pend.any fun p => p.node == a.node && p.tag == a.tag && p.idx == a.idx).map
      fun a => ⟨a.node, a.tag, a.idx, false⟩

/-- Whether an issued access, or one whose output has left, may stand before element (tag, idx) of instruction `i`. -/
def Strand.pendingBefore (t : Strand) (x : Inst) (live : List Nat) (i tag idx : Nat) : Bool :=
  (t.standing x).any fun h => !decide (h.node = i ∧ h.tag = tag ∧ h.idx = idx) && x.comesBefore live h.node h.tag h.idx i tag idx

/-- Whether nothing nominally earlier holds element (tag, idx) of instruction `i` back: no issued access stands before it,
and none may still come, of what stands in the instance, is owed to it, or its own output brings (R281). -/
def State.clear (s : State) (st : SRef) (t : Strand) (x : Inst) (live : List Nat) (i tag idx : Nat) : Bool :=
  !t.pendingBefore x live i tag idx
    && !x.mayCome live (x.standing i tag idx ++ s.owed st t x i tag idx
      ++ if x.hasTold i tag idx then [] else x.sends i tag idx) t.atTile i tag idx

/-- The accesses of a strand that wait for nothing but their order. -/
def State.heldBack (s : State) (st : SRef) (t : Strand) (x : Inst) : List Held :=
  ((t.pend.filter fun a => !a.free).map fun a => ⟨a.node, a.tag, a.idx, true⟩)
    ++ ((s.orderly st t x).filter fun e => match x.nodes[e.1]? with | some nd => nd.ordered | none => false).map
      fun e => ⟨e.1, e.2.1, e.2.2, false⟩

/-- Whether all that a station could do is to send an empty output whose turn has not come (R25). -/
def Strand.outOfTurn (t : Strand) (x : Inst) (i : Nat) : Bool :=
  t.waits.any (fun w => w.node == i) && match x.nodes[i]? with
    | none => false
    | some nd => (x.readies i nd.hdr nd.data 0 0 true).all fun p => match p with
      | .settle .nothing r => r.l && t.owesTag i r.tag
      | .settle .forward r => t.owesTag i r.tag
      | _ => false

/-- Instructions that act within their strand and on memory: not the barrier, scheduling, message and system rows. -/
def Node.inside (nd : Node) : Bool := decide (nd.op ≤ 0x83) || nd.memory || nd.op == 0xCE || nd.op == 0xCF

/-- Everything that arcs reach from an instruction, with itself. -/
def Inst.from' (x : Inst) (i : Nat) : List Nat := x.reach (fun _ => false) x.nodes.length [i]

/-- Whether the early instructions that a load of a loop leads to have come to rest: nothing of the fabric that leads to one
goes on by itself, so that what they cancel is cancelled before the load replies (R31, R34, R193, log 79). -/
def Strand.joinsRest (t : Strand) (x : Inst) (i : Nat) : Bool :=
  (x.nest i).isEmpty ||
    let es := (x.from' i).filter fun j => match x.nodes[j]? with | some nd => nd.early | none => false
    es.isEmpty || (List.range x.nodes.length).all fun j => match x.nodes[j]? with
      | some nd => !(nd.inside && (x.from' j).any es.contains && x.canMove j && !t.outOfTurn x j)
      | none => true

/-- Whether the instance goes on by itself: a walk, a station, or an access that nothing holds back. -/
def State.progress (s : State) (st : SRef) (t : Strand) (x : Inst) (live : List Nat) : Bool :=
  s.walking st || (List.range x.nodes.length).any (fun i => x.canMove i && !t.outOfTurn x i) || t.pend.any (fun a => a.free)
    || ((s.orderly st t x).any fun e => match x.nodes[e.1]? with | some nd => !nd.ordered | none => false)
    || (s.heldBack st t x).any fun h => s.clear st t x live h.node h.tag h.idx

/-- What comes from outside an instance that goes on no more by itself: outputs owed to it by other than its own accesses,
and elements that wait at full/empty words, tiles and translations. -/
def State.outside (s : State) (st : SRef) (t : Strand) (x : Inst) : List Src :=
  s.owed st { t with pend := [] } x 128 0 0
    ++ (t.reqs.map fun q => ⟨q.node, q.tag, q.idx⟩)
    ++ s.walks.flatMap fun w => match w.who with
      | .station u i tag idx => if u = st then [⟨i, tag, idx⟩] else []
      | _ => []

/-- Whether one held access must go before another, or may bring one that must: an access may hold itself back so. -/
def Strand.holdsBack (t : Strand) (x : Inst) (live : List Nat) (by' h : Held) : Bool :=
  (decide (by' ≠ h) && x.comesBefore live by'.node by'.tag by'.idx h.node h.tag h.idx)
    || (!x.hasTold by'.node by'.tag by'.idx
      && x.mayCome live (x.sends by'.node by'.tag by'.idx) t.atTile h.node h.tag h.idx)

/-- Whether something from outside may still bring an access before an element. -/
def State.waitsOut (s : State) (st : SRef) (t : Strand) (x : Inst) (live : List Nat) (i tag idx : Nat) : Bool :=
  x.mayCome live (s.outside st t x) t.atTile i tag idx

/-- Whether an element goes because the instance goes on no more by itself, and neither an access that is held back nor
anything from outside can bring one before it: what else stands in the instance leads nowhere. -/
def State.goesLast (s : State) (st : SRef) (t : Strand) (x : Inst) (live : List Nat) (i tag idx : Nat) : Bool :=
  !t.pendingBefore x live i tag idx && !s.progress st t x live && !s.waitsOut st t x live i tag idx
    && !((s.heldBack st t x).any fun h => t.holdsBack x live h ⟨i, tag, idx, h.issued⟩)
    && (x.hasTold i tag idx || !x.mayCome live (x.sends i tag idx) t.atTile i tag idx)

/-- Whether an access of element (tag, idx) of instruction `i` may take its place in T now (R281, R485): it is clear, or the
instance waits for nothing else, or it has been claimed that nothing nominally earlier will come (log 5). One that a claim
says will not come never goes. -/
def State.mayGo (s : State) (st : SRef) (i tag idx : Nat) : Bool :=
  match s.strand? st with
  | none => false
  | some t => match t.inst with
    | none => false
    | some x =>
      let x := t.settleFrames x
      let live := s.live st t x
      let p := x.place live i tag idx
      !(x.claims.any fun c => before p c.place)
        && ((x.claims.any fun c => c.due && c.node == i && c.tag == tag && c.idx == idx) || s.clear st t x live i tag idx || s.goesLast st t x live i tag idx)

/-- The nominal place of an element as it now stands. -/
def State.placeOf (s : State) (st : SRef) (i tag idx : Nat) : List Nat :=
  match s.strand? st with
  | none => []
  | some t => match t.inst with
    | none => []
    | some x => x.place (s.live st t x) i tag idx

end Sys2Proof.Machine
end

