-- ==== Sys2Proof/Machine/Access.lean ====
section
/-! DEFINITION. Memory access: translation (R257–R261), posting of records (R408, R409), local space (R267–R272),
and holds of ordered-update pairs (R189). -/

namespace Sys2Proof.Machine

/-- The die of a core. -/
def dieOf (core : Nat) : Nat := core / 32

/-! Translation -/

/-- How a walk ends (R259). -/
inductive WalkRes where
  | miss
  | fault
  | leaf (x : Xlat)
  deriving DecidableEq, Repr

/-- Physical addresses that lie in a window (R262, R468). -/
def inWindow (pa : Nat) : Bool := decide (pa < 2 ^ 40) || decide (0x400000000000 ≤ pa ∧ pa < 0x800000000000)

/-- PFN as an address (R258). -/
def leafPa (e : Word) : Nat := e.field 47 16 * 65536

/-- A leaf that faults (R259), for a page of `2^sh` bytes. -/
def leafBad (sh : Nat) (e : Word) : Bool :=
  decide (e.field 63 62 ≠ 0) || decide (e.field 53 48 ≠ 0) || decide (e.field 15 8 ≠ 0) || decide (e.field 7 5 ≠ 0)
    || (sh == 16 && e.bit 4) || decide (e.field 55 54 = 3) || decide (leafPa e % 2 ^ sh ≠ 0)
    || (e.bit 56 != (leafPa e).testBit 39) || !inWindow (leafPa e)

/-- An entry at shift `sh` that names a table and faults. -/
def tableBad (sh : Nat) (e : Word) : Bool :=
  let pa := e.field 47 8 * 256
  decide (e.field 63 48 ≠ 0) || decide (e.field 7 1 ≠ 0) || decide (pa % (if sh = 21 then 256 else 4096) ≠ 0)
    || !inWindow pa

/-- The levels of R257: shift, index bits, and whether a leaf stands there never, by LEAF, or always. -/
def levels : List (Nat × Nat × Nat) := [(48, 9, 0), (39, 9, 0), (30, 9, 1), (21, 9, 1), (16, 5, 2)]

/-- The entry of a page among cached ones. -/
def cachedAt (l : List TlbEnt) (base size : Nat) : Option TlbEnt := l.find? fun e => e.base == base && e.size == size

/-- A walk: cached entries serve before memory; the entries used come back for the translation cache. -/
def walkFrom (mem : List Host.Cell) (cache : List TlbEnt) (unit va : Nat) :
    List (Nat × Nat × Nat) → Nat → List TlbEnt → WalkRes × List TlbEnt
  | [], _, used => (.fault, used)
  | (sh, bits, kind) :: r, base, used =>
    let page := va / 2 ^ sh * 2 ^ sh
    let e := match cachedAt cache page (2 ^ sh) with
      | some c => c.leaf
      | none => rdWord mem (base + 8 * (va / 2 ^ sh % 2 ^ bits))
    if !e.bit 0 then (.miss, used)
    else if kind = 2 ∨ (kind = 1 ∧ e.bit 4) then
      if leafBad sh e then (.fault, used)
      else (.leaf ⟨leafPa e + va % 2 ^ sh, page, 2 ^ sh, e⟩, ⟨unit, page, 2 ^ sh, e⟩ :: used)
    else if tableBad sh e then (.fault, used)
    else walkFrom mem cache unit va r (e.field 47 8 * 256) (⟨unit, page, 2 ^ sh, e⟩ :: used)

/-- The base of the T4 table. -/
def State.rootTable (s : State) : Nat := s.ptroot.toNat % 2 ^ 48

/-- A walk of memory alone. -/
def State.walkPlain (s : State) (va : Word) : WalkRes := (walkFrom s.mem [] 0 va.toNat levels s.rootTable []).1

/-- A 57-bit address sign-extended to 64 (R186, R257). -/
def canonical (va : Word) : Bool := decide (va.toNat / 2 ^ 56 = 0 ∨ va.toNat / 2 ^ 56 = 255)

/-- Access kinds of a leaf: [0] read, [1] write, [2] execute (R258, R408). -/
def permits (leaf : Word) (acc : Nat) : Bool := decide (Nat.land (leaf.field 3 1) acc = acc)

/-- Entries put into a cache of `cap` entries of a unit: the oldest leave (log 6). -/
def cachePut (l : List TlbEnt) (unit cap : Nat) (new : List TlbEnt) : List TlbEnt :=
  let mine := (l.filter fun e => e.unit == unit).filter fun e => !new.any fun n => n.base == e.base && n.size == e.size
  l.filter (fun e => e.unit != unit) ++ (new ++ mine).take cap

/-- A cached leaf of a core's TLB. -/
def State.tlbFind (s : State) (core va : Nat) : Option TlbEnt :=
  s.tlb.find? fun e => e.unit == core && decide (e.base ≤ va ∧ va < e.base + e.size)

/-- A cached leaf applied to an address. -/
def TlbEnt.at' (e : TlbEnt) (va : Nat) : Xlat := ⟨leafPa e.leaf + (va - e.base), e.base, e.size, e.leaf⟩

/-- A miss joins the walks (R260). -/
def State.requestWalk (s : State) (w : Walk) : State :=
  if s.walks.any fun x => decide (x.who = w.who ∧ x.core = w.core ∧ x.va = w.va) then s else { s with walks := s.walks ++ [w] }

/-- The pages whose walks are due on a die, in arrival order; one page is one walk (R260). -/
def walkPages (l : List Walk) (die : Nat) : List Nat :=
  ((l.filter fun w => !w.posted && dieOf w.core == die).map fun w => w.va.toNat / 65536).eraseDups

/-- Whether a walk is among those that its die runs at once (R260). -/
def State.walkRuns (s : State) (w : Walk) : Bool :=
  ((walkPages s.walks (dieOf w.core)).take Config.walkSize).contains (w.va.toNat / 65536)

/-- Whether a die has a walk to spare. -/
def State.walkFree (s : State) (die : Nat) : Bool := decide ((walkPages s.walks die).length < Config.walkSize)

/-- What a translation gives an access. -/
inductive Got where
  | ok (x : Xlat)
  | wait (s : State)
  | trap (code : Nat)

/-- A core's translation of an address that must permit `ok` (R186). -/
def State.translateBy (s : State) (core : Nat) (va : Word) (acc : Nat) (ok : Word → Bool) (who : WalkFor) : Got :=
  if !canonical va then .trap 0x30
  else match s.tlbFind core va.toNat with
    | some e => if ok e.leaf then .ok (e.at' va.toNat) else .trap 0x31
    | none => .wait (s.requestWalk ⟨core, va, acc, who, false⟩)

/-- A core's translation of an address for an access kind. -/
def State.translate (s : State) (core : Nat) (va : Word) (acc : Nat) (who : WalkFor) : Got :=
  s.translateBy core va acc (fun leaf => permits leaf acc) who

/-- What a unit outside the cores finds of an address: it walks memory each time (log 6). -/
def State.unitXlate (s : State) (va : Word) (acc : Nat) : WalkRes × Bool :=
  if !canonical va then (.fault, false)
  else match s.walkPlain va with
    | .leaf x => (.leaf x, permits x.leaf acc)
    | r => (r, false)

/-! Units of 64 bytes -/

/-- The pieces of `n` bytes at `a` within 64-byte units, in ascending order, at most `fuel` of them. -/
def pieces (a : Nat) : Nat → Nat → List (Nat × Nat)
  | 0, _ => []
  | f + 1, n =>
    if n = 0 then []
    else
      let m := min n (64 - a % 64)
      (a, m) :: pieces (a + m) f (n - m)

/-- The pieces of an access. -/
def piecesOf (a n : Nat) : List (Nat × Nat) := pieces a (n / 64 + 2) n

/-! Queues and records (R214, R408) -/

/-- A queue as the timetable has taken it up. -/
def State.queue (s : State) (q : Nat) : QEnt := Table.get QEnt.reset s.qtab q

/-- A queue replaced. -/
def State.setQueue (s : State) (q : Nat) (e : QEnt) : State := { s with qtab := Table.set QEnt.reset s.qtab q e }

/-- The queue that a handle names (R216). -/
def State.handleQueue (s : State) (h : Nat) : Option Nat :=
  let q := h % 65536
  let g := h / 65536 % 65536
  if q < 8192 ∧ g ≠ 0 ∧ (s.queue q).gen = g then some q else none

/-- Words 0 to 6 of a record (R408). -/
def recordOf (kind : Nat) (t : Trap) (slice time : Nat) (aux2 : Word) : List Word :=
  [BitVec.ofNat 64 (t.code * 2 ^ 56 + t.sub % 256 * 2 ^ 48 + kind * 2 ^ 44 + t.index % 256 * 2 ^ 32 + slice % 65536 * 2 ^ 16
      + t.core % 128 * 2 ^ 9 + t.slot % 8 * 2 ^ 6),
    t.pc, t.addr, BitVec.ofNat 64 (t.tag % 65536 * 2 ^ 48 + t.eidx % 65536 * 2 ^ 32 + t.acc % 8), BitVec.ofNat 64 time, t.aux, aux2]

/-- A record about no instruction. -/
def Trap.bare : Trap := { code := 0, sub := 0, index := 0xFF, core := 0, slot := 0, pc := 0, addr := 0, tag := 0,
                          eidx := 0, acc := 0, aux := 0, time := 0 }

/-! Local space (R187, R267–R271) -/

/-- A local address seen from a core: core, bank, byte. -/
def localCore (core : Nat) (a : Word) : Nat := core / 4 * 4 + a.field 23 22

/-- The bank of a local address. -/
def localBank (a : Word) : Nat := a.field 21 18

/-- The key of a local address in the ranges of poison, holds and undo: above every physical address. -/
def localPlace (core : Nat) (a : Word) : Nat := 281474976710656 + localKey (localCore core a) (localBank a) (a.field 17 0)

/-- A bank of a core's cache. -/
def Bank.cache : Bank := { Bank.reset with mode := .cache }

/-- A bank; banks 0 and 1 are always CACHE (R198, R267). -/
def State.bank (s : State) (core b : Nat) : Bank :=
  if b < 2 then .cache else Table.get Bank.reset s.banks (16 * core + b)

/-- A bank replaced. -/
def State.setBank (s : State) (core b : Nat) (k : Bank) : State :=
  { s with banks := Table.set Bank.reset s.banks (16 * core + b) k }

/-- The mode of the bank that a local address reaches; none when R270 traps whatever the mode. -/
def State.localMode (s : State) (st : SRef) (core : Nat) (a : Word) : Option Mode :=
  let b := localBank a
  if b < 2 then none
  else match s.bankOwner (localCore core a) b with
    | some (o, _) => if o.slice = st.slice then some (s.bank (localCore core a) b).mode else none
    | none => none

/-! Bytes by place: physical addresses, and local keys above 2^48 -/

/-- Bytes at a place. -/
def State.rdAt (s : State) (k n : Nat) : List Byte :=
  if k < 281474976710656 then rdBytes s.mem k n else rdBytes s.loc (k - 281474976710656) n

/-- Bytes written at a place. -/
def State.wrAt (s : State) (k : Nat) (bs : List Byte) : State :=
  if k < 281474976710656 then s.poke k bs else s.pokeLocal (k - 281474976710656) bs

/-- CA of a leaf (R258). -/
def Xlat.ca (x : Xlat) : Nat := x.leaf.field 55 54

/-- The virtual address of a physical one in the page (R298). -/
def Xlat.vaOf (x : Xlat) (pa : Nat) : Nat := x.base + (pa - leafPa x.leaf)

/-- The `bs` that stand at `k` with another range laid over them. -/
def overlay (k : Nat) (bs : List Byte) (k2 : Nat) (old : List Byte) : List Byte :=
  bs.mapIdx fun n b => if k2 ≤ k + n ∧ k + n < k2 + old.length then old.getD (k + n - k2) b else b

/-- Bytes of a snapshot at a place (R283). -/
def Snapshot.rdAt (p : Snapshot) (k n : Nat) : List Byte :=
  if k < 281474976710656 then rdBytes p.mem k n else rdBytes p.loc (k - 281474976710656) n

/-- Bytes of a snapshot as a load through a leaf sees them: with Y, the keys it covers stand as their updates leave them
(R283, R298). -/
def Snapshot.read (p : Snapshot) (x : Option Xlat) (k n : Nat) : List Byte :=
  match x with
  | some x => if x.y then p.keys.foldl (fun bs e => overlay (x.vaOf k) bs e.1 e.2) (p.rdAt k n) else p.rdAt k n
  | none => p.rdAt k n

/-- Whether a core's cache keeps what it loads through a leaf: not with CA 01 or 10, nor with Y (R266, R298). -/
def Xlat.kept (x : Xlat) : Bool := decide (x.ca = 0) && !x.y

/-- The timestamp of a load through a leaf by a core. -/
def State.touchLoad (s : State) (core : Nat) (x : Xlat) (k : Nat) : State := s.loadTs (.of core) x.kept k

/-- The timestamp of a store by a core. -/
def State.touchStore (s : State) (core k n : Nat) : State := s.storeTs (.of core) k n

/-- Updates of keys applied before an access through a leaf with Y (R298, R304). -/
def State.yardFor (s : State) (by' : Party) (x : Xlat) (k n : Nat) : State :=
  if x.y && k < 2 ^ 40 then s.applyAt by' (x.vaOf k) n else s

/-! Holds (R189) -/

/-- The strand of a hold. -/
def Hold.owner (h : Hold) : SRef := ⟨h.slice, h.rank⟩

/-- The `ST.o`s that may pair with an `LD.o`: those of its scope with a higher MSN (R189). -/
def Inst.partners (x : Inst) (i : Nat) : List Nat :=
  match x.nodes[i]? with
  | none => []
  | some a => x.nums fun j nd => nd.op == 0xA1 && nd.cls == 2 && decide (a.msn < nd.msn) && x.nest j == x.nest i

/-- Whether a pairing is still open: a partner has not fired for the element, or still owes the write of the address. -/
def Strand.pairOpen (t : Strand) (x : Inst) (h : Hold) : Bool :=
  (x.partners h.node).any fun j =>
    (match x.nodes[j]? with | some nd => !nd.fired.contains ⟨h.tag, h.idx⟩ | none => false)
      || t.pend.any fun a => a.node == j && a.tag == h.tag && a.idx == h.idx && a.at'.pa == h.key

/-- Whether a hold still stands. -/
def State.holdOpen (s : State) (h : Hold) : Bool :=
  match s.strand? h.owner with
  | none => false
  | some t => match t.inst with
    | none => false
    | some x => t.pairOpen x h

/-- Whether another party holds a place. -/
def State.barred (s : State) (by' : Option SRef) (k n : Nat) : Bool :=
  s.holds.any fun h => decide (by' ≠ some h.owner) && overlap h.key h.len k n && s.holdOpen h

/-- The address of an `LD.o` that has read is held until its pairing is settled. -/
def State.hold (s : State) (st : SRef) (i tag idx k n : Nat) : State :=
  match s.inst? st with
  | none => s
  | some x =>
    if (x.partners i).isEmpty then s
    else { s with holds := s.holds ++ [⟨st.slice, st.rank, i, tag, idx, k, n⟩] }

/-- An `ST.o` has written its address: the pairs of its element there are complete. -/
def State.pairDone (s : State) (st : SRef) (cls : Cls) (tag idx k : Nat) : State :=
  if cls = .ordered then
    { s with holds := s.holds.filter fun h =>
        !(decide (h.owner = st) && h.tag == tag && h.idx == idx && h.key == k) }
  else s

/-! Taking a place -/

/-- The MSN of instruction `i` noted in the frames of a tag and of the scopes around it, `n` loops deep (R281). -/
def Inst.note (x : Inst) (msn : Nat) : Nat → Nat → Inst
  | 0, _ => x
  | n + 1, tag => match x.frameOf tag with
    | none => x
    | some fr =>
      ({ x with frames := x.frames.set (tag / 4096) (some { fr with low := min fr.low msn }) } : Inst).note msn n fr.outer

/-- The MSN of an access noted in the frames of its scopes. -/
def State.noteAt (s : State) (st : SRef) (i tag : Nat) : State :=
  s.modInst st fun x => match x.nodes[i]? with
    | some nd => x.note nd.msn (x.nest i).length tag
    | none => x

/-- An access of element (tag, idx) of instruction `i` takes its place in T: its MSN counts for the anchors of its loops (R281),
and a claim for it is no longer due. -/
def State.takePlace (s : State) (st : SRef) (i tag idx : Nat) : State :=
  (s.noteAt st i tag).modInst st fun x =>
    { x with claims := x.claims.map fun c => if c.node = i ∧ c.tag = tag ∧ c.idx = idx then { c with due := false } else c }

/-! FLUSH and the two names of an HBM cell (R262, R263) -/

/-- The other window's name of an HBM address. -/
def otherName (pa : Nat) : Option Nat :=
  if pa < 2 ^ 39 then
    let d := pa / 2 ^ 12 % 4
    some (2 ^ 39 + d * 2 ^ 37 + pa / 2 ^ 14 * 2 ^ 12 + pa / 2 ^ 11 % 2 * 2 ^ 11 + pa % 2048)
  else if pa < 2 ^ 40 then
    let d := pa / 2 ^ 37 % 4
    some (pa / 2 ^ 12 % 2 ^ 25 * 2 ^ 14 + (2 * d + pa / 2 ^ 11 % 2) * 2 ^ 11 + pa % 2048)
  else none

/-- Bytes that have reached HBM under the other name too, poisoned as they are (R263, R428). -/
def State.mirror (s : State) (pa n : Nat) : State :=
  match otherName pa with
  | none => s
  | some k =>
    let poison := (s.poison.filter fun e => !decide (k ≤ e.1 ∧ e.1 < k + n))
      ++ (s.poison.filter fun e => decide (pa ≤ e.1 ∧ e.1 < pa + n)).map fun e => (k + (e.1 - pa), e.2)
    { s with mem := wrBytes s.mem k (rdBytes s.mem pa n)
             poison := poison.foldl (fun t e => Table.set false t e.1 e.2) [] }

/-- A store of `n` bytes at `pa` through a leaf, from `s` to `u`: with CA 10 it bypasses L2, and its bytes reach HBM at
once (R266). -/
def State.through (s u : State) (x : Xlat) (pa n : Nat) : State :=
  if x.ca = 2 then { u.mirror pa n with dirty := s.dirty } else u

/-- Bytes stored at `pa` by a party through a leaf: the updates of the keys that they meet apply first (R298, R304). -/
def State.storeVia (s : State) (p : Party) (x : Xlat) (pa : Nat) (bs : List Byte) : State :=
  let u := s.yardFor p x pa bs.length
  (u.through (u.poke pa bs) x pa bs.length).storeTs p pa bs.length

/-- What precedes a load of `n` bytes at `pa` by a party other than a station, through a leaf. -/
def State.loadVia (s : State) (p : Party) (x : Xlat) (pa n : Nat) : State := (s.yardFor p x pa n).loadTs p false pa

/-- A 64-byte unit written back to HBM: its stores reach the other name of its cells. -/
def State.writeBack (s : State) (pa : Nat) : State :=
  let u := pa / 64
  if Table.get false s.dirty u then
    { s.mirror (64 * u) 64 with dirty := Table.set false s.dirty u false }
  else s

/-! Units outside the cores: their accesses, and records (R408–R410) -/

/-- The leaf through which a unit makes an access of a kind; none without translation or permission. -/
def State.unitLeaf (s : State) (va : Word) (acc : Nat) : Option Xlat :=
  match s.unitXlate va acc with
  | (.leaf x, true) => some x
  | _ => none

/-- The physical address of a unit's access of a kind; none without translation or permission. -/
def State.unitAt (s : State) (va : Word) (acc : Nat) : Option Nat := (s.unitLeaf va acc).map fun x => x.pa

/-- What a unit reads at an address stands there: the updates of the keys that it meets apply first (R298, R304). -/
def State.unitSees (s : State) (va : Word) (n : Nat) : State :=
  match s.unitLeaf va 1 with
  | some x => s.yardFor .unit x x.pa n
  | none => s

/-- The record queue of a handle with its next entry and its PUB (R409). -/
def State.recordPlace (s : State) (h : Nat) : Option (Xlat × Xlat × Nat) :=
  match s.handleQueue h with
  | none => none
  | some q =>
    let e := s.queue q
    if e.state ≠ .disabled then none
    else match s.unitLeaf e.pubaddr 3 with
      | none => none
      | some pub =>
        let j := rdNum (s.yardFor .unit pub pub.pa 8).mem pub.pa 8
        (s.unitLeaf (e.rbase + BitVec.ofNat 64 (64 * (j % 2 ^ e.log))) 3).map fun r => (r, pub, j)

/-- The place of a record posted to the queue of a handle, else to the queue of `mcq` (R409). -/
def State.postPlace (s : State) (h : Nat) : Option (Xlat × Xlat × Nat) :=
  match s.recordPlace h with
  | some p => some p
  | none => s.recordPlace s.mcq.toNat

/-- Whether another agent holds bytes that a write of a unit meets (R189). -/
def State.owedBarred (s : State) : Owed → Bool
  | .write x bs => s.barred none x.pa bs.length
  | .record h _ => match s.postPlace h with
    | some (r, pub, _) => s.barred none r.pa 64 || s.barred none pub.pa 8
    | none => false

/-- A unit's write made: bytes through a leaf, or a record, which stands in the event log too (R409, R471). Words 0 to 6 of a
record are given. -/
def State.pay (s : State) : Owed → State
  | .write x bs => s.storeVia .unit x x.pa bs
  | .record h ws => match s.postPlace h with
    | none => { s with evlog := s.evlog ++ [ws ++ [0]] }
    | some (r, pub, j) =>
      let rec' := ws ++ [BitVec.ofNat 64 j]
      let s := (s.storeVia .unit r r.pa (bytesOf rec')).storeVia .unit pub pub.pa (leBytes (j + 1) 8)
      { s with evlog := s.evlog ++ [rec'] }

/-- A unit's write made at once, or owed until no other agent holds its bytes (R189), after those owed before it. -/
def State.owe (s : State) (w : Owed) : State :=
  if s.dues.isEmpty && !s.owedBarred w then s.pay w else { s with dues := s.dues ++ [w] }

/-- The writes that units owe made in order, as far as no other agent holds their bytes. -/
def State.payAll : List Owed → State → State
  | [], s => { s with dues := [] }
  | w :: r, s => if s.owedBarred w then { s with dues := w :: r } else State.payAll r (s.pay w)

/-- A record posted (R409). -/
def State.post (s : State) (h : Nat) (ws : List Word) : State := s.owe (.record h ws)

end Sys2Proof.Machine
end

