-- ==== Sys2Proof/Machine/Sregs.lean ====
section
/-! DEFINITION. Special registers and configuration items (R432–R440, R457, R458, R470). -/

namespace Sys2Proof.Machine

/-! Configuration items (R435) -/

/-- Whether the die field of `cfgsel` counts for a group. -/
def perDie (group : Nat) : Bool := decide (group ≤ 5)

/-- Items of each group. -/
def cfgItems (group : Nat) : Nat :=
  if group = 0 then 4 else if group = 1 then 3 else if group ≤ 5 then 64 else if group = 6 then 2
  else if group = 7 then 192 else 0

/-- Whether an item is listed. -/
def cfgListed (die group item : Nat) : Bool := decide (item < cfgItems group) && (!perDie group || decide (die < 4))

/-- Sixteen entries of a slot table at reset: the classes 0, 2, 1, 0, 2, 3, 0, 2, 4, 1, 0, 2, 3, 5, 6, 7, all with
V = 1 (R351). -/
def slotReset : Word := 0xFEDBA89CA8BA89A8

/-- An item's content at reset (R435, R457). -/
def cfgDefault (group item : Nat) : Word :=
  if group = 0 ∧ item = 0 then 256 else if group = 1 ∧ item = 0 then 64
  else if 2 ≤ group ∧ group ≤ 5 then slotReset else 0

/-- The key of an item: the die field counts for per-die groups only. -/
def itemKey (die group item : Nat) : Nat := cfgKey (if perDie group then die else 0) group item

/-- The item that `cfgsel` names: die, group, item. -/
def State.selected (s : State) : Nat × Nat × Nat := (s.cfgsel.field 15 12, s.cfgsel.field 11 8, s.cfgsel.field 7 0)

/-- The content of an item; an unlisted one reads 0. -/
def State.readCfg (s : State) (die group item : Nat) : Word :=
  if cfgListed die group item then
    (Table.get none s.cfg (itemKey die group item)).getD (cfgDefault group item)
  else 0

/-- Whether a region is OPEN or CLOSING. -/
def State.anyRegion (s : State) : Bool := s.regions.any fun e => decide (e.2.state ≠ .free)

/-- Whether a context of a die is OPEN (R357). -/
def State.anyContext (s : State) (die : Nat) : Bool := s.rote.any fun e => e.1 / 1024 == die && e.2.isSome

/-- The sort-yard and Rote shares of a die in MiB quarters: they may not exceed 512 MiB together. -/
def sharesFit (yardUnits roteMiB : Nat) : Bool := decide (yardUnits + 4 * roteMiB ≤ 2048)

/-- The condition on a write of an item (R435, R457). -/
def State.cfgOk (s : State) (die group item : Nat) (v : Word) : Bool :=
  let n := v.toNat
  if group = 0 then
    if item = 0 then decide (1 ≤ n ∧ n ≤ 1024) && !s.anyRegion && sharesFit n (s.readCfg die 1 0).toNat
    else if item = 1 then
      decide (n % 65536 = 0 ∧ 2 ^ 39 + die * 2 ^ 37 ≤ n ∧ n < 2 ^ 39 + (die + 1) * 2 ^ 37) && !s.anyRegion
    else if item = 2 then decide (n ≤ 16777216) && !s.anyRegion
    else true
  else if group = 1 then
    !s.anyContext die && (if item = 0 then decide (n ≤ 256) && sharesFit (s.readCfg die 0 0).toNat n
      else decide (n % 65536 = 0))
  else if group = 6 then
    !(s.slices.any fun x => x.field 4 30 30 == 1)
      && !s.barriers.any fun e => decide (e.1 % 8 = 4 ∧ e.2.state = .opened)
  else true

/-- Bits of an item that a write keeps. Those of a signal entry that R470 gives no field are kept as written, the model's
choice (log 73). -/
def cfgMask (group item : Nat) (v : Word) : Word :=
  if group = 6 ∧ item = 0 then BitVec.ofNat 64 (v.toNat % 2 ^ 23)
  else if group = 0 ∧ item = 3 then BitVec.ofNat 64 (v.toNat % 2 ^ 32)
  else v

/-- What a write to the job's items does beside (R459, R461): pod barriers become FREE when the package leaves its job, and
device time is raised when the job has another member. -/
def State.afterJob (s : State) : State :=
  if !s.inJob then
    { s with barriers := s.barriers.map fun e => if e.1 % 8 = 4 then (e.1, { e.2 with state := .free }) else e }
  else if (s.readCfg 0 6 1).toNat ≠ 0 ∧ (s.readCfg 0 6 1).toNat ≠ 2 ^ s.pkgNumber then
    { s with timeOff := s.timeOff + Config.podAhead s.freeSeq, freeSeq := s.freeSeq + 1 }
  else s

/-- A write of the selected item: one that breaks its condition is discarded. -/
def State.writeCfg (s : State) (v : Word) : State :=
  let (die, group, item) := s.selected
  if cfgListed die group item && s.cfgOk die group item v then
    let s := { s with cfg := Table.set none s.cfg (itemKey die group item) (some (cfgMask group item v)) }
    if group = 6 then s.afterJob else s
  else s

/-! Registers -/

/-- `svc` (R434). -/
def State.svc (s : State) : Word := BitVec.ofNat 64 (s.svcDies % 16 * 16 + s.svcLevel % 4)

/-- `pkgid` (R458). -/
def State.pkgid (s : State) : Word := BitVec.ofNat 64 (s.podItem.toNat % 2 ^ 23)

/-- A package register (R433). -/
def State.packageReg (s : State) (r : Nat) : Word :=
  match r with
  | 32 => s.supq
  | 33 => s.qtbase
  | 34 => s.ptroot
  | 35 => s.pagerq
  | 36 => s.mcq
  | 37 => s.imgbase
  | 38 => s.imgsize
  | 39 => s.cfgsel
  | 40 => (match s.selected with | (d, g, i) => s.readCfg d g i)
  | _ => 0

/-- A package register written; reserved bits are ignored (R440). All 64 bits of `pagerq` and `mcq` are kept, of which a
handle is the low 32 (R216): the model's choice (log 40). -/
def State.setPackageReg (s : State) (r : Nat) (v : Word) : State :=
  match r with
  | 32 => { s with supq := BitVec.ofNat 64 (v.toNat % 2 ^ 32) }
  | 33 => { s with qtbase := v }
  | 34 => { s with ptroot := v }
  | 35 => { s with pagerq := v }
  | 36 => { s with mcq := v }
  | 37 => { s with imgbase := v }
  | 38 => { s with imgsize := v }
  | 39 => { s with cfgsel := BitVec.ofNat 64 (v.toNat % 2 ^ 16) }
  | 40 => s.writeCfg v
  | _ => s

/-- The local address of byte 0 of a strand's first bank (R198). -/
def Slice.carveBase (x : Slice) (t : Strand) : Word :=
  BitVec.ofNat 64 (t.core % 4 * 2 ^ 22 + (2 + x.field 4 47 40 * t.slot) * 2 ^ 18)

/-- CARVE in bytes (R47, R432). -/
def Slice.carveSize (x : Slice) : Nat := x.field 3 63 48 * 1024

/-- The value that `RDSR` reads (R432, R439, R458). -/
def State.readSreg (s : State) (x : Slice) (t : Strand) (r : Nat) : Word :=
  match r with
  | 0 => BitVec.ofNat 64 t.fpc
  | 1 => BitVec.ofNat 64 t.rank
  | 2 => BitVec.ofNat 64 (x.field 4 15 0)
  | 3 => BitVec.ofNat 64 t.core
  | 4 => BitVec.ofNat 64 x.id
  | 5 => BitVec.ofNat 64 s.now
  | 6 => BitVec.ofNat 64 s.cycles
  | 7 => BitVec.ofNat 64 x.budget
  | 8 => x.desc.getD 2 0
  | 9 => x.desc.getD 1 0
  | 10 => x.carveBase t
  | 11 => BitVec.ofNat 64 x.carveSize
  | 12 => t.ovfptr
  | 13 => BitVec.ofNat 64 (x.field 4 39 32)
  | 14 => BitVec.ofNat 64 t.fflags
  | 15 => x.svc
  | 16 => Word.ofBool x.sup
  | 17 => x.pkgid
  | 18 => BitVec.ofNat 64 t.csdepth
  | r => s.packageReg r

/-- A register written at commit (R41 step 2, R440). -/
def State.writeSreg (s : State) (st : SRef) (r : Nat) (v : Word) : State :=
  match r with
  | 0 => s.modStrand st fun t => { t with fpc := v.toNat % 32 }
  | 12 => s.modStrand st fun t => { t with ovfptr := v }
  | 14 => s.modStrand st fun t => { t with fflags := v.toNat % 32 }
  | r => s.setPackageReg r v

/-- Whether a register is one of the package's, which only a supervisor slice may reach (R431). -/
def sregPackage (r : Nat) : Bool := decide (32 ≤ r)

end Sys2Proof.Machine
end

