-- ==== Sys2Proof/Machine/MemOps.lean ====
section
/-! DEFINITION. Memory instructions, opcodes 0xA0 to 0xAD (R184–R192, R310–R325), and the events that complete them. -/

namespace Sys2Proof.Machine

/-! Issue and completion of accesses to virtual memory -/

/-- The tokens of an element in the given slots. -/
def Node.opsAt (nd : Node) (slots : List Slot) (tag idx : Nat) : List (Slot × Tok) :=
  slots.filterMap fun sl => ((tokens (nd.buf sl)).find? fun e => e.1.tag == tag && e.1.idx == idx).map fun e => (sl, e.1)

/-- An access issues: its operands are consumed and it stands among the strand's accesses. -/
def State.issue (s : State) (st : SRef) (i : Nat) (h : Hdr) (data : List Slot) (r : Ready) (a : Access) : State :=
  match s.node? st i with
  | none => s
  | some nd =>
    (s.consume st i h data r).modStrand st fun t =>
      { t with pend := t.pend ++ [{ a with ops := nd.opsAt (usedSlots h data) r.tag r.idx }] }

/-- The operands of an access put back where they stood, and the firing taken back (R412, R414). -/
def Node.unfire (nd : Node) (a : Access) : Node :=
  let n := a.ops.foldl (fun n e => n.setBuf e.1 (.tok e.2 0 :: n.buf e.1)) nd
  { n with fired := n.fired.erase ⟨a.tag, a.idx⟩, lasts := if a.l then n.lasts.erase a.tag else n.lasts }

/-- An issued access that has not performed becomes one that has not issued. -/
def State.unissue (s : State) (st : SRef) (n : Nat) : State :=
  match s.strand? st with
  | none => s
  | some t => match t.pend[n]? with
    | none => s
    | some a => (s.modNode st a.node fun nd => nd.unfire a).modStrand st fun t => { t with pend := dropAt t.pend n }

/-- The shared issue of the accesses to virtual memory: the address is translated and checked first (R186); `check`
is a trap that the leaf raises. -/
def issueAt (h : Hdr) (data : List Slot) (kind : AccKind) (cls : Cls) (acc size : Nat) (va : Word)
    (check : State → Xlat → Option Nat) (st : SRef) (i : Nat) (r : Ready) (s : State) : Eff :=
  match s.strand? st with
  | none => .wait s
  | some t => match s.translate t.core va acc (.station st i r.tag r.idx) with
    | .trap c => .done (s.trapStation st i c 0 r.tag r.idx acc va)
    | .wait s => .wait s
    | .ok x => match check s x with
      | some c => .done (s.trapStation st i c 0 r.tag r.idx acc va)
      | none => .done (s.issue st i h data r
          { node := i, tag := r.tag, idx := r.idx, l := r.l, ops := [], kind := kind, va := va, data := r.v.b,
            ty := h.ty, cls := cls, at' := { x with pa := if size = 0 then x.pa else x.pa / size * size } })

/-- Whether an issued access of a slice that is being frozen may perform: nothing holds it back, or its output has left and no
issued access stands before it (R413). -/
def State.haltedGo (s : State) (st : SRef) (t : Strand) (a : Access) : Bool :=
  match t.inst with
  | some y =>
    let y := t.settleFrames y
    let live := s.live st t y
    s.clear st t y live a.node a.tag a.idx
      || (y.hasTold a.node a.tag a.idx && !t.pendingBefore y live a.node a.tag a.idx)
  | none => false

/-- Whether an issued access is no load whose reply an early instruction still precedes (R193, log 79). -/
def Strand.replyDue (t : Strand) (a : Access) : Bool :=
  decide (a.kind ≠ .load ∧ a.kind ≠ .ldx) || match t.inst with
    | some x => t.joinsRest x a.node
    | none => true

/-- Whether an issued access may perform now: its earlier elements have, and its place in nominal order has come. A
slice that is being frozen performs only what nothing holds back (R413). -/
def State.mayPerform (s : State) (st : SRef) (n : Nat) (a : Access) : Bool :=
  match s.slice? st.slice, s.strand? st with
  | some x, some t =>
    !((t.pend.take n).any fun b => b.node == a.node && b.tag == a.tag) &&
      (if x.live then t.replyDue a && (a.free || s.mayGo st a.node a.tag a.idx) else a.free || s.haltedGo st t a)
  | _, _ => false

/-- An access has performed: it leaves the strand's accesses, and its output is formed. -/
def State.complete (s : State) (st : SRef) (n : Nat) (a : Access) (w : Word) : State :=
  (s.modStrand st fun t => { t with pend := dropAt t.pend n }).emit st a.node ⟨w, a.tag, a.idx, a.l, false⟩

/-- An issued access traps: its firing has not taken place (R412). -/
def State.trapAccess (s : State) (st : SRef) (n : Nat) (a : Access) (code acc : Nat) : State :=
  (s.unissue st n).trapStation st a.node code 0 a.tag a.idx acc a.va

/-- Bytes of an access in its memory. -/
def Access.bytes (a : Access) : Nat := if a.kind = .ldx ∨ a.kind = .stx then ldxSize a.at'.fmt a.ty else accSize a.ty

/-- The value of a load over a reader of its memory, with flags (R185, R315). -/
def Access.value (a : Access) (v : Env) (rd : Reader) : Word × Nat :=
  if a.kind = .ldx ∧ a.at'.fmt ≠ 0 then loadElems rd a.at'.fmt a.ty v (a.at'.elems a.ty)
  else (rawWord a.ty (rd (a.at'.pa / accSize a.ty * accSize a.ty) (accSize a.ty)), 0)

/-- The first byte of an access. -/
def Access.place (a : Access) : Nat := a.at'.pa / a.bytes * a.bytes

/-- A reader of memory as an element of a load or store sees it. -/
def State.reader (s : State) (st : SRef) (a : Access) : Reader := fun k n =>
  if a.cls = .streaming then match s.inst? st with
    | some x => leNat ((x.snapFor a.tag a.node).read (some a.at') k n)
    | none => 0
  else leNat (s.rdAt k n)

/-- The program timestamp of the region of a streaming load (R284). -/
def State.startPt (s : State) (st : SRef) (a : Access) : Nat :=
  match s.inst? st with
  | some x => (x.snapFor a.tag a.node).pt
  | none => 0

/-- A load that has its place takes its timestamp, with the keys that it reads applied (R284, R304). -/
def State.arriveLoad (s : State) (st : SRef) (core : Nat) (a : Access) : State :=
  if a.cls = .streaming then (s.streamTs core (s.startPt st a) a.at'.kept a.place).noteAt st a.node a.tag
  else (((s.takePlace st a.node a.tag a.idx).yardFor (.of core) a.at' a.place a.bytes).touchLoad core a.at'
    a.place)

/-- The scale bytes that an element access of a Q4 page reads beside its codes (R109, R315). -/
def Access.scales (a : Access) : Nat × Nat :=
  if a.kind = .ldx ∨ a.kind = .stx then (a.at'.elems a.ty).scaleBytes a.at'.fmt a.ty else (0, 0)

/-- Whether another agent holds a byte that an access reads or writes (R189). -/
def State.heldOff (s : State) (st : SRef) (a : Access) : Bool :=
  s.barred (some st) a.place a.bytes || s.barred (some st) a.scales.1 a.scales.2

/-- A load performs. -/
def State.performLoad (s : State) (st : SRef) (n core : Nat) (a : Access) : State :=
  let k := a.place
  if s.heldOff st a && a.cls != .streaming then s
  else
    let u := s.arriveLoad st core a
    if u.poisoned k a.bytes || u.poisoned a.scales.1 a.scales.2 then s.trapAccess st n a 0x50 1
    else
      let o := a.value (u.env st) (u.reader st a)
      let u := (u.complete st n a o.1).raise st o.2
      if a.cls = .ordered then u.hold st a.node a.tag a.idx k a.bytes else u

/-- LOAD_REPLY (R185, R314): issued load `n` of a strand performs and replies. -/
def execLoadReply (st : SRef) (n : Nat) (s : State) : Host.Outcome State Fault Refusal :=
  .next (match s.strand? st with
  | none => s
  | some t => match t.pend[n]? with
    | none => s
    | some a =>
      if (a.kind = .load ∨ a.kind = .ldx) ∧ s.mayPerform st n a then s.performLoad st n t.core a else s)

/-- The writes of a store, with flags (R185, R315). -/
def Access.writes (a : Access) (v : Env) (rd : Reader) : List (Nat × List Byte) × Nat :=
  if a.kind = .stx ∧ a.at'.fmt ≠ 0 then storeElems rd a.at'.fmt a.ty v (a.at'.elems a.ty) a.data
  else ([(a.at'.pa / accSize a.ty * accSize a.ty, leBytes a.data.toNat (accSize a.ty))], 0)

/-- A store performs. -/
def State.performStore (s : State) (st : SRef) (n core : Nat) (a : Access) : State :=
  let k := a.place
  if s.heldOff st a then s
  else
    let u := (s.takePlace st a.node a.tag a.idx).yardFor (.of core) a.at' k a.bytes
    let o := a.writes (u.env st) (u.reader st a)
    let v := u.through (o.1.foldl (fun s w => s.wrAt w.1 w.2) u) a.at' k a.bytes
    (((v.touchStore core k a.bytes).complete st n a 0).raise st o.2).pairDone st a.cls a.tag a.idx k

/-- STORE_PERFORM (R185, R314): issued store `n` of a strand performs. -/
def execStorePerform (st : SRef) (n : Nat) (s : State) : Host.Outcome State Fault Refusal :=
  .next (match s.strand? st with
  | none => s
  | some t => match t.pend[n]? with
    | none => s
    | some a =>
      if (a.kind = .store ∨ a.kind = .stx) ∧ s.mayPerform st n a then s.performStore st n t.core a else s)

/-! Local accesses: they perform as they fire (R187, R316) -/

/-- The bytes of a FIFO's staging entry or head (R272). -/
def entry32 (l : List Byte) : List Byte := (l ++ List.replicate 32 (0 : Byte)).take 32

/-- The head entry popped (R272). -/
def Bank.pop (b : Bank) : Bank := { b with fifo := b.fifo.drop 1, head := (b.head + 1) % 8192 }

/-- Whether a bank of the strand's slice is reached by a local address (R270). -/
def State.localOwn (s : State) (st : SRef) (core : Nat) (a : Word) : Bool := (s.localMode st core a).isSome

/-- The mode in which a streaming local load finds its bank: that at its region's start, where it stands (R271, R283). -/
def State.streamMode (s : State) (st : SRef) (p : Snapshot) (core : Nat) (a : Word) : Option Mode :=
  if s.localOwn st core a then some (({ p with core := localCore core a } : Snapshot).modeOf (localBank a)) else none

/-- A local load that stands at its place in nominal order: `fifo` says that a FIFO bank is reached (R187, R272, R316). The
bank's mode is read there (R271). -/
def localRead (h : Hdr) (fifo : Bool) (cls : Cls) (a : Word) (t : Strand) (st : SRef) (i : Nat) (r : Ready) (s : State) : Eff :=
  let size := accSize h.ty
  let core := localCore t.core a
  if !s.mayGo st i r.tag r.idx then .wait s
  else match s.localMode st t.core a with
    | some .scratch =>
      let k := localPlace t.core (alignDown a size)
      if s.barred (some st) k size then .wait s
      else if s.poisoned k size then .done (s.trapStation st i 0x50 0 r.tag r.idx 1 0)
      else
        let u := s.takePlace st i r.tag r.idx
        let u := (u.consume st i h [.a] r).emitData st i r (rawWord h.ty (leNat (s.rdAt k size)))
        .done (if cls = .ordered then u.hold st i r.tag r.idx k size else u)
    | some .fifo =>
      if !fifo then .done (s.trapStation st i 0x13 0 r.tag r.idx 1 0)
      else
        let b := s.bank core (localBank a)
        match b.fifo with
        | [] => .wait s
        | e :: _ =>
          let p := a.field 4 0 / size * size
          let n := leNat (((entry32 e).drop p).take size)
          let s := s.takePlace st i r.tag r.idx
          let s := if p + size = 32 then s.setBank core (localBank a) b.pop else s
          .done ((s.consume st i h [.a] r).emitData st i r (rawWord h.ty n))
    | _ => .done (s.trapStation st i 0x13 0 r.tag r.idx 1 0)

/-- A local load (R187, R316): a streaming one stands at its region's start, but on a bank that was in FIFO mode then (R272,
R283). -/
def localLoad (h : Hdr) (fifo : Bool) (cls : Cls) (a : Word) (st : SRef) (i : Nat) (r : Ready) (s : State) : Eff :=
  match s.strand? st, s.inst? st with
  | some t, some y =>
    let size := accSize h.ty
    let p := y.snapFor r.tag i
    if cls = .streaming then match s.streamMode st p t.core a with
      | some .scratch =>
        let k := localPlace t.core (alignDown a size)
        if s.poisoned k size then .done (s.trapStation st i 0x50 0 r.tag r.idx 1 0)
        else .done (((s.noteAt st i r.tag).consume st i h [.a] r).emitData st i r (rawWord h.ty (leNat (p.rdAt k size))))
      | some .fifo =>
        if fifo then localRead h fifo .random a t st i r s else .done (s.trapStation st i 0x13 0 r.tag r.idx 1 0)
      | _ => .done (s.trapStation st i 0x13 0 r.tag r.idx 1 0)
    else localRead h fifo cls a t st i r s
  | _, _ => .wait s

/-- A store into a FIFO's staging entry: the store of byte 31 pushes it; none while the FIFO is full (R272). -/
def Bank.stage (b : Bank) (p : Nat) (bs : List Byte) : Option Bank :=
  let e := overlay 0 (entry32 b.staging) p bs
  let m := ((b.mask ++ List.replicate 32 false).take 32).mapIdx fun n w => w || (decide (p ≤ n ∧ n < p + bs.length))
  if p + bs.length = 32 then
    if b.fifo.length < 8192 then some { b with fifo := b.fifo ++ [e], staging := [], mask := [] } else none
  else some { b with staging := e, mask := m }

/-- A local store (R187, R316). -/
def localStore (h : Hdr) (fifo : Bool) (cls : Cls) (a : Word) (st : SRef) (i : Nat) (r : Ready) (s : State) : Eff :=
  match s.strand? st with
  | none => .wait s
  | some t =>
    let size := accSize h.ty
    let core := localCore t.core a
    let done := fun (s : State) => (s.consume st i h [.a, .b] r).emitData st i r 0
    if !s.mayGo st i r.tag r.idx then .wait s
    else match s.localMode st t.core a with
      | some .scratch =>
        let k := localPlace t.core (alignDown a size)
        if s.barred (some st) k size then .wait s
        else
          let u := (s.takePlace st i r.tag r.idx).wrAt k (leBytes r.v.b.toNat size)
          .done ((done u).pairDone st cls r.tag r.idx k)
      | some .fifo =>
        if !fifo then .done (s.trapStation st i 0x13 0 r.tag r.idx 2 0)
        else match (s.bank core (localBank a)).stage (a.field 4 0 / size * size) (leBytes r.v.b.toNat size) with
          | none => .wait s
          | some b => .done (done ((s.takePlace st i r.tag r.idx).setBank core (localBank a) b))
      | _ => .done (s.trapStation st i 0x13 0 r.tag r.idx 2 0)

/-- `LD` (R184–R191). -/
def execLd (h : Hdr) (x : MemImm) (s : State) : Host.Outcome State Fault Refusal :=
  fireEff h [.a] 0 0 (fun st i r s =>
    let size := accSize h.ty
    let a := effAddr r.v.a 11 x.off.toNat size
    if x.l then localLoad h false x.cls a st i r s
    else issueAt h [.a] .load x.cls 1 size (alignDown a size) (fun _ _ => none) st i r s) s

/-- `ST` (R184–R191). -/
def execSt (h : Hdr) (x : MemImm) (s : State) : Host.Outcome State Fault Refusal :=
  fireEff h [.a, .b] 0 0 (fun st i r s =>
    let size := accSize h.ty
    let a := effAddr r.v.a 11 x.off.toNat size
    if x.l then localStore h false x.cls a st i r s
    else issueAt h [.a, .b] .store x.cls 2 size (alignDown a size) (fun _ _ => none) st i r s) s

/-- `LDX` (R314–R316). -/
def execLdx (h : Hdr) (x : MemImm) (s : State) : Host.Outcome State Fault Refusal :=
  fireEff h [.a] 0 0 (fun st i r s =>
    let a := effAddr r.v.a 11 x.off.toNat 1
    if x.l then localLoad h true x.cls a st i r s
    else issueAt h [.a] .ldx x.cls 1 0 a (fun _ l => if l.takes h.ty then none else some 0x14) st i r s) s

/-- `STX` (R314–R316). -/
def execStx (h : Hdr) (x : MemImm) (s : State) : Host.Outcome State Fault Refusal :=
  fireEff h [.a, .b] 0 0 (fun st i r s =>
    let a := effAddr r.v.a 11 x.off.toNat 1
    if x.l then localStore h true x.cls a st i r s
    else issueAt h [.a, .b] .stx x.cls 2 0 a (fun _ l => if l.takes h.ty then none else some 0x14) st i r s) s

/-! Full/empty words (R273, R317–R319) -/

/-- The full/empty bit of a word of local space. -/
def State.fullBit (s : State) (w : Nat) : Bool := Table.get false s.full w

/-- Full/empty bits set. -/
def State.setFull (s : State) (b : Bool) (ws : List Nat) : State :=
  { s with full := ws.foldl (fun f w => Table.set false f w b) s.full }

/-- Whether the words of a request are in the state it needs: 1 full, 0 empty. -/
def State.reqMet (s : State) (q : Req) : Bool := q.keys.all fun w => s.fullBit w == (q.want == 1)

/-- Whether two requests share a word. -/
def Req.shares (q p : Req) : Bool := q.keys.any fun w => p.keys.contains w

/-- Whether an earlier waiter of the same strand at one of its words stands before a request. -/
def State.behind (s : State) (st : SRef) (t : Strand) (q : Req) : Bool :=
  t.reqs.any fun p => decide (p ≠ q) && p.shares q
      && before (s.placeOf st p.node p.tag p.idx) (s.placeOf st q.node q.tag q.idx)

/-- An order of strands, for those that reach a bank in one cycle (log 6). -/
def earlierStrand (a b : SRef) : Bool := decide (a.slice < b.slice ∨ (a.slice = b.slice ∧ a.rank < b.rank))

/-- Whether a waiter is served before request `q` of strand `st` (R273). -/
def State.servedLater (s : State) (st : SRef) (t : Strand) (q : Req) : Bool :=
  s.behind st t q || s.strands.any fun e => decide (e.1 ≠ st) && e.2.reqs.any fun p =>
    p.shares q && s.reqMet p && decide (p.seq < q.seq ∨ (p.seq = q.seq ∧ earlierStrand e.1 st)) && !s.behind e.1 e.2 p

/-- The request of an element, if it stands in a queue. -/
def Strand.reqOf (t : Strand) (i tag idx : Nat) : Option Req :=
  t.reqs.find? fun q => q.node == i && q.tag == tag && q.idx == idx

/-- An element joins a queue. -/
def State.enqueueReq (s : State) (st : SRef) (q : Req) : State :=
  s.modStrand st fun t => if t.reqs.contains q then t else { t with reqs := t.reqs ++ [q] }

/-- An element leaves its queue. -/
def State.dropReq (s : State) (st : SRef) (i tag idx : Nat) : State :=
  s.modStrand st fun t => { t with reqs := t.reqs.filter fun q => !(q.node == i && q.tag == tag && q.idx == idx) }

/-- A full/empty access (R317): the state it waits for, what it writes, and the state it leaves. -/
def fullEmpty (h : Hdr) (x : MemImm) (data : List Slot) (want : Option Bool) (write : Bool) (after : Bool)
    (s : State) : Host.Outcome State Fault Refusal :=
  fireEff h data 0 0 (fun st i r s =>
    match s.strand? st with
    | none => .wait s
    | some t =>
      let size := accSize h.ty
      let a := alignDown (effAddr r.v.a 11 x.off.toNat size) size
      let acc := if write then 2 else 1
      let old := t.reqOf i r.tag r.idx
      if old.isNone && !s.mayGo st i r.tag r.idx then .wait s
      else match s.localMode st t.core a with
        | some .scratch =>
          let k := localPlace t.core a
          let ws := (List.range (size / 4)).map fun n => (k - 281474976710656) / 4 + n
          let q : Req := old.getD ⟨i, r.tag, r.idx, ws, if want = some true then 1 else 0, s.cycles⟩
          if want.isSome && (!s.reqMet q || s.servedLater st t q) then .wait (s.enqueueReq st q)
          else if s.barred (some st) k size then .wait s
          else if !write && s.poisoned k size then .done (s.trapStation st i 0x50 0 r.tag r.idx acc 0)
          else
            let u := s.takePlace st i r.tag r.idx
            let w := if write then 0 else rawWord h.ty (leNat (u.rdAt k size))
            let u := if write then u.wrAt k (leBytes r.v.b.toNat size) else u
            .done ((((u.setFull after ws).dropReq st i r.tag r.idx).consume st i h data r).emitData st i r w)
        | _ => .done (s.trapStation st i 0x13 0 r.tag r.idx acc 0)) s

/-- `LDF` (R317). -/
def execLdf (h : Hdr) (x : MemImm) (s : State) : Host.Outcome State Fault Refusal :=
  fullEmpty h x [.a] (some true) false false s

/-- `LDFK` (R317). -/
def execLdfk (h : Hdr) (x : MemImm) (s : State) : Host.Outcome State Fault Refusal :=
  fullEmpty h x [.a] (some true) false true s

/-- `STE` (R317). -/
def execSte (h : Hdr) (x : MemImm) (s : State) : Host.Outcome State Fault Refusal :=
  fullEmpty h x [.a, .b] (some false) true true s

/-- `STF` (R317). -/
def execStf (h : Hdr) (x : MemImm) (s : State) : Host.Outcome State Fault Refusal :=
  fullEmpty h x [.a, .b] none true true s

/-- The words that the element in progress of a `FESET` has set: its tag, its index, their number. -/
def Ext.fesetRun : Ext → Option (Nat × Nat × Nat)
  | .feset g => g
  | _ => none

/-- The words that a `FESET` has set of an element: none before it has taken its place. -/
def Node.fesetDone (nd : Node) (tag idx : Nat) : Option Nat :=
  match nd.ext.fesetRun with
  | some (g, k, n) => if g = tag ∧ k = idx then some n else none
  | none => none

/-- Word `k` of the `n` words of a `FESET` set; the element is done with the last. -/
def fesetWord (h : Hdr) (core : Nat) (a : Word) (st : SRef) (i : Nat) (r : Ready) (k n : Nat) (s : State) : State :=
  let s := s.setFull (r.v.c.bit 0) [(localPlace core a - 281474976710656) / 4 + k]
  if k + 1 < n then s.modNode st i fun m => { m with ext := .feset (some (r.tag, r.idx, k + 1)) }
  else ((s.modNode st i fun m => { m with ext := .feset none }).consume st i h [.a, .b, .c] r).emitData st i r 0

/-- `FESET`'s effect (R318): one word is one event. -/
def fesetEff (h : Hdr) (x : MemImm) (st : SRef) (i : Nat) (r : Ready) (s : State) : Eff :=
  match s.strand? st, s.node? st i with
  | some t, some nd =>
    let a := alignDown (effAddr r.v.a 11 x.off.toNat 4) 4
    let n := r.v.b.field 31 0
    let run := nd.fesetDone r.tag r.idx
    if run.isNone && (nd.ext.fesetRun.isSome || !s.mayGo st i r.tag r.idx) then .wait s
    else if n = 0 then .done ((s.consume st i h [.a, .b, .c] r).emitData st i r 0)
    else if decide (65536 < n) || decide (262144 < a.field 17 0 + 4 * n)
        || decide (s.localMode st t.core a ≠ some .scratch) then
      .done (s.trapStation st i 0x13 0 r.tag r.idx 2 0)
    else
      let s := if run.isNone then s.takePlace st i r.tag r.idx else s
      .done (fesetWord h t.core a st i r (run.getD 0) n s)
  | _, _ => .wait s

/-- The rest of a `FESET` in progress: at most `n` words. -/
def fesetFinish (h : Hdr) (x : MemImm) (st : SRef) (i : Nat) (r : Ready) : Nat → State → State
  | 0, s => s
  | n + 1, s => match s.node? st i with
    | none => s
    | some nd =>
      if (nd.fesetDone r.tag r.idx).isNone then s
      else match fesetEff h x st i r s with
        | .done u => fesetFinish h x st i r n u
        | .wait u => u

/-- A strand's `FESET`s in progress, which have issued, finish (R413). -/
def State.finishFesets (s : State) (st : SRef) : State :=
  match s.inst? st with
  | none => s
  | some x => (List.range x.nodes.length).foldl (fun (s : State) (i : Nat) => match x.nodes[i]? with
    | none => s
    | some nd => match nd.ext.fesetRun, rawDecode nd.word with
      | some (tag, idx, _), some (.instr (.feset h m)) =>
        (match ((x.readies i h [.a, .b, .c] 0 0 false).find? fun p => match p with
          | .settle .go r => r.tag == tag && r.idx == idx
          | _ => false) with
        | some (.settle .go r) => fesetFinish h m st i r 65536 s
        | _ => s)
      | _, _ => s) s

/-- `FESET` (R318). -/
def execFeset (h : Hdr) (x : MemImm) (s : State) : Host.Outcome State Fault Refusal :=
  fireEff h [.a, .b, .c] 0 0 (fesetEff h x) s

/-! ATOM -/

/-- The new element of an atomic on `w`-bit integers (R320). -/
def atomInt (op : Aop) (w old b c : Nat) : Nat :=
  match op with
  | .cas => if old = b then c else old
  | .swp => b
  | .add => (old + b) % 2 ^ w
  | .and => Nat.land old b
  | .or => Nat.lor old b
  | .xor => Nat.xor old b
  | .minS => minLane w false old b
  | .maxS => maxLane w false old b
  | .minZ => minLane w true old b
  | .maxZ => maxLane w true old b

/-- The new element of an atomic, with flags (R320). -/
def atomNew (op : Aop) (t : Ty) (v : Env) (old b c : Nat) : Nat × Nat :=
  if t = .f then match op with
    | .add => Fmt.fp32.put v false (addX v.rm (Fmt.fp32.operand v old) (Fmt.fp32.operand v b))
    | .minS => Fmt.fp32.minmax v false old b
    | .maxS => Fmt.fp32.minmax v true old b
    | _ => (atomInt op 32 old b c, 0)
  else (atomInt op t.width old b c, 0)

/-- `ATOM` (R320, R321): one read-modify-write event. -/
def execAtom (h : Hdr) (x : AtomImm) (s : State) : Host.Outcome State Fault Refusal :=
  let data := if x.aop = .cas then [Slot.a, .b, .c] else [.a, .b]
  fireEff h data 0 0 (fun st i r s =>
    match s.strand? st with
    | none => .wait s
    | some t =>
      let size := if h.ty = .q then 8 else 4
      let va := alignDown (effAddr r.v.a 10 x.off.toNat size) size
      match s.translate t.core va 3 (.station st i r.tag r.idx) with
      | .trap c => .done (s.trapStation st i c 0 r.tag r.idx 3 va)
      | .wait s => .wait s
      | .ok l =>
        let k := l.pa
        if !s.mayGo st i r.tag r.idx || s.barred (some st) k size then .wait s
        else
          let u := ((s.takePlace st i r.tag r.idx).yardFor (.of t.core) l k size).hostSend .read k []
          if u.poisoned k size then .done (s.trapStation st i 0x50 0 r.tag r.idx 3 va)
          else
            let old := leNat (u.rdAt k size)
            let o := atomNew x.aop h.ty (u.env st) old (lane h.ty r.v.b 0) (lane h.ty r.v.c 0)
            let v := if x.aop = .cas ∧ old ≠ lane h.ty r.v.b 0 then u
              else u.through (u.wrAt k (leBytes o.1 size)) l k size
            .done ((((v.touchStore t.core k size).consume st i h data r).raise st o.2).emitData st i r
              (BitVec.ofNat 64 old))) s

/-! UPD -/

/-- Whether a region takes the updates of a type (R295). -/
def Region.takes (g : Region) (t : Ty) : Bool :=
  if g.opr = 7 then true
  else if g.type = 4 then t == .f
  else if g.type = 5 then t == .b4
  else if g.width = 64 then t == .q else t == .d2

/-- The trap of an update through a leaf (R299). -/
def State.updTrap (s : State) (va : Word) (t : Ty) (y : Bool) : Option Nat :=
  match (if y then s.regionAt false va.toNat else none) with
  | none => some 0x15
  | some n => if (s.region n).takes t then none else some 0x14

/-- `UPD` (R322): checked as it issues; UPDATE_ACCEPT accepts it. -/
def execUpd (h : Hdr) (x : MemImm) (s : State) : Host.Outcome State Fault Refusal :=
  fireEff h [.a, .b] 0 0 (fun st i r s =>
    let va := effAddr r.v.a 11 x.off.toNat (laneSize h.ty)
    issueAt h [.a, .b] .upd .random 2 0 va (fun s l => s.updTrap va h.ty l.y) st i r s) s

/-- A stall of a slice's store begins (R303). -/
def State.beginStall (s : State) (pa : Nat) : State :=
  match homeOf pa with
  | none => s
  | some (die, slice) =>
    match Table.get none s.yardStall (die * 64 + slice) with
    | some _ => s
    | none => { s with yardStall := Table.set none s.yardStall (die * 64 + slice) (some ⟨s.cycles, false⟩) }

/-- UPDATE_ACCEPT (R299, R303): issued update `n` of a strand is accepted at its home slice, or holds. -/
def execUpdateAccept (st : SRef) (n : Nat) (s : State) : Host.Outcome State Fault Refusal :=
  .next (match s.strand? st with
  | none => s
  | some t => match t.pend[n]? with
    | none => s
    | some a =>
      if !(a.kind = .upd ∧ s.mayPerform st n a) then s
      else match s.updTrap a.va a.ty a.at'.y, s.regionAt false a.va.toNat with
        | none, some g =>
          let size := (s.region g).size
          let pa := a.at'.pa / size * size
          if s.barred (some st) pa size then s
          else match (s.takePlace st a.node a.tag a.idx).binUpdate g (a.va.toNat / size * size) pa (lane a.ty a.data 0) with
            | none => s.beginStall pa
            | some u => (u.touchStore t.core pa size).complete st n a 0
        | some c, _ => s.trapAccess st n a c 2
        | none, none => s.trapAccess st n a 0x15 2)

/-! PREF, FLUSH, WAITM -/

/-- A unit fetched under a read lease: no event (R323). -/
def State.prefetch (s : State) (core : Nat) (va : Word) : State :=
  match (if canonical va then s.tlbFind core va.toNat else none) with
  | none => s
  | some e =>
    let x := e.at' va.toNat
    if permits e.leaf 1 && x.kept && decide (x.pa < 2 ^ 40) then
      { s.touchLoad core x x.pa with pt := s.pt }
    else s

/-- `PREF` (R323). -/
def execPref (h : Hdr) (x : MemImm) (s : State) : Host.Outcome State Fault Refusal :=
  fireEff h [.a] 0 0 (fun st i r s =>
    match s.strand? st with
    | none => .wait s
    | some t =>
      let va := alignDown (effAddr r.v.a 11 x.off.toNat 64) 64
      let s := if x.cls = .random then s.prefetch t.core va else s
      .done ((s.consume st i h [.a] r).emitData st i r 0)) s

/-- `FLUSH` (R324). -/
def execFlush (h : Hdr) (x : MemImm) (s : State) : Host.Outcome State Fault Refusal :=
  fireEff h [.a] 0 0 (fun st i r s =>
    match s.strand? st with
    | none => .wait s
    | some t =>
      let va := alignDown (effAddr r.v.a 11 x.off.toNat 64) 64
      match s.translateBy t.core va 0 (fun leaf => decide (leaf.field 3 1 ≠ 0)) (.station st i r.tag r.idx) with
      | .trap c => .done (s.trapStation st i c 0 r.tag r.idx 0 va)
      | .wait s => .wait s
      | .ok l =>
        let s := s.writeBack l.pa
        let s := { s with cfgCache := s.cfgCache.filter fun c =>
                     !(c.core == t.core && overlap c.block.image.toNat c.block.size va.toNat 64) }
        .done ((s.consume st i h [.a] r).emitData st i r 0)) s

/-- The watches that a core holds. -/
def State.watches (s : State) (core : Nat) : Nat :=
  (s.strands.flatMap fun e => if e.2.core = core then e.2.waits.filter fun w =>
    match w.kind with | .monitor _ _ _ => true | _ => false else []).length

/-- A wait begins: its element is consumed, and its output is owed (R40). -/
def State.beginWait (s : State) (st : SRef) (i : Nat) (h : Hdr) (data : List Slot) (r : Ready) (k : WaitKind) : State :=
  match s.node? st i with
  | none => s
  | some nd =>
    (s.consume st i h data r).modStrand st fun t =>
      { t with waits := t.waits ++ [⟨i, ⟨0, r.tag, r.idx, r.l, false⟩, nd.opsAt (usedSlots h data) r.tag r.idx, k⟩] }

/-- The operands of a wait put back where they stood, and the firing taken back (R412). -/
def Node.unwait (nd : Node) (w : Wait) : Node :=
  let n := w.ops.foldl (fun n e => n.setBuf e.1 (.tok e.2 0 :: n.buf e.1)) nd
  { n with fired := n.fired.erase ⟨w.tok.tag, w.tok.idx⟩
           lasts := if w.tok.l then n.lasts.erase w.tok.tag else n.lasts }

/-- A wait given up before its effect: its element has not fired. -/
def State.unwait (s : State) (st : SRef) (n : Nat) : State :=
  match s.strand? st with
  | none => s
  | some t => match t.waits[n]? with
    | none => s
    | some w => (s.modNode st w.node fun nd => nd.unwait w).modStrand st fun t => { t with waits := dropAt t.waits n }

/-- Whether wait `n` is the earliest of its instruction and tag: outputs leave in element order. -/
def Strand.firstWait (t : Strand) (n : Nat) : Bool :=
  match t.waits[n]? with
  | none => false
  | some w => !(t.waits.take n).any fun v => v.node == w.node && v.tok.tag == w.tok.tag

/-- A wait ends: its output is formed. -/
def State.endWait (s : State) (st : SRef) (n : Nat) (data : Word) (e : Bool) : State :=
  match s.strand? st with
  | none => s
  | some t => match t.waits[n]? with
    | none => s
    | some w =>
      (s.modStrand st fun t => { t with waits := dropAt t.waits n }).emit st w.node
        { w.tok with data := data, e := e }

/-- Released waits leave in element order, at most `fuel` of them. -/
def State.flushWaits (s : State) (st : SRef) : Nat → State
  | 0 => s
  | f + 1 => match s.strand? st with
    | none => s
    | some t =>
      match (List.range t.waits.length).find? fun n => t.firstWait n && match t.waits[n]? with
        | some w => (match w.kind with | .ready _ => true | _ => false)
        | none => false with
      | none => s
      | some n => match t.waits[n]? with
        | some w => (s.endWait st n w.tok.data (match w.kind with | .ready e => e | _ => false)).flushWaits st f
        | none => s

/-- Wait `n` of a strand is released with an output. -/
def State.release (s : State) (st : SRef) (n : Nat) (data : Word) (e : Bool) : State :=
  let s := s.modStrand st fun t =>
    { t with waits := modAt t.waits n fun w => { w with tok := { w.tok with data := data }, kind := .ready e } }
  match s.strand? st with
  | some t => s.flushWaits st t.waits.length
  | none => s

/-- An element answered at once, its output behind those of earlier elements of its tag that still wait (R25). -/
def State.answer (s : State) (h : Hdr) (data : List Slot) (st : SRef) (i : Nat) (r : Ready) (w : Word) : State :=
  match s.strand? st with
  | none => s
  | some t =>
    if t.owesTag i r.tag then (s.beginWait st i h data r (.ready false)).release st t.waits.length w false
    else (s.consume st i h data r).emitData st i r w

/-- `WAITM` (R325): arms with one load of the sector. -/
def execWaitm (h : Hdr) (x : MemImm) (s : State) : Host.Outcome State Fault Refusal :=
  fireEff h [.a] 0 0 (fun st i r s =>
    match s.strand? st with
    | none => .wait s
    | some t =>
      let va := alignDown (effAddr r.v.a 11 x.off.toNat 32) 32
      match s.translate t.core va 1 (.station st i r.tag r.idx) with
      | .trap c => .done (s.trapStation st i c 0 r.tag r.idx 1 va)
      | .wait s => .wait s
      | .ok l =>
        if !s.mayGo st i r.tag r.idx || s.barred (some st) l.pa 32 then .wait s
        else
          let u := (s.takePlace st i r.tag r.idx).yardFor (.of t.core) l l.pa 32
          if u.poisoned l.pa 32 then .done (s.trapStation st i 0x50 0 r.tag r.idx 1 va)
          else
            let u := u.touchLoad t.core l l.pa
            if Config.watchSize ≤ u.watches t.core ∨ u.hasTold st i r.tag r.idx then .done (u.answer h [.a] st i r 3)
            else .done (u.beginWait st i h [.a] r (.monitor (l.pa / 32) s.cycles 0))) s

/-- Whether the strand's slice runs: it is not halted. -/
def State.runs (s : State) (st : SRef) : Bool :=
  match s.slice? st.slice with
  | some x => x.live
  | none => false

/-- WAITM_WAKE (R290, R291): with WRITE only after a write; with LOST or SPURIOUS at any time. -/
def execWaitmWake (st : SRef) (n cause : Nat) (s : State) : Host.Outcome State Fault Refusal :=
  .next (match s.strand? st with
  | none => s
  | some t => match t.waits[n]? with
    | some ⟨_, _, _, .monitor _ _ seen⟩ =>
      if s.runs st && t.firstWait n && (cause == 2 || cause == 3 || (cause == 1 && seen == 1)) then
        s.endWait st n (BitVec.ofNat 64 cause) false
      else s
    | _ => s)

/-- WAITM_TIMEOUT (R290): 2²⁰ fabric cycles after arming. -/
def execWaitmTimeout (st : SRef) (n : Nat) (s : State) : Host.Outcome State Fault Refusal :=
  .next (match s.strand? st with
  | none => s
  | some t => match t.waits[n]? with
    | some ⟨_, _, _, .monitor _ armed _⟩ =>
      if s.runs st && t.firstWait n && decide (armed + 1048576 ≤ s.cycles) then s.endWait st n 4 false else s
    | _ => s)

end Sys2Proof.Machine
end

