-- ==== Sys2Proof/Machine/Tiles.lean ====
section
/-! DEFINITION. Tile and bank instructions, opcodes 0xAE to 0xB4 (R274–R277, R326–R329). -/

namespace Sys2Proof.Machine

/-! Entries -/

/-- The key of a strand's tile in the tile tables (R198). -/
def Strand.tileKey (t : Strand) (tile : Nat) : Nat := 128 * t.core + 16 * t.slot + tile

/-- A tile entry. -/
def State.tile (s : State) (k : Nat) : TileEnt := Table.get TileEnt.reset s.tiles k

/-- A tile entry replaced in the present cycle. -/
def State.setTile (s : State) (k : Nat) (e : TileEnt) : State :=
  { s with
    tiles := Table.set TileEnt.reset s.tiles k e
    tileSince := if s.tile k = e then s.tileSince else Table.set 0 s.tileSince k s.cycles }

/-- The code of a tile state (R275). -/
def TileState.code : TileState → Nat
  | .empty => 0 | .filling => 1 | .ready => 2 | .draining => 3

/-- Bits [63:0] of an entry (R275). -/
def TileEnt.low (e : TileEnt) : Word :=
  BitVec.ofNat 64 (e.cols % 65536 * 2 ^ 48 + e.fmt % 16 * 2 ^ 44 + e.base % 2 ^ 24 * 2 ^ 20
    + (if e.defd then 4 else 0) + e.state.code)

/-- Bits [127:64] of an entry. -/
def TileEnt.high (e : TileEnt) : Word := BitVec.ofNat 64 (e.pitch % 2 ^ 24 * 2 ^ 16 + e.rows % 65536)

/-- Bytes of a row (R274). -/
def rowLen (fmt cols : Nat) : Nat := if fmt = 6 then cols / 2 + cols / 32 else cols * elemSize fmt

/-- The shape that a record gives (R274); none when its own bits break R274. -/
def shapeOf (w0 w1 : Word) : Option TileEnt :=
  let rows := w0.field 63 48
  let cols := w0.field 47 32
  let fmt := w0.field 31 28
  let pitch := w1.field 23 0
  if rows = 0 ∨ 4096 < rows ∨ cols = 0 ∨ 4096 < cols ∨ (fmt = 6 ∧ cols % 32 ≠ 0) ∨ 7 < fmt ∨ w0.field 27 24 ≠ 0
      ∨ w1.field 63 24 ≠ 0 ∨ pitch % 8 ≠ 0 ∨ pitch < rowLen fmt cols then none
  else some ⟨pitch, rows, cols, fmt, w0.field 23 0, true, .empty⟩

/-- The last byte of a tile. -/
def TileEnt.last (e : TileEnt) : Nat := e.base + (e.rows - 1) * e.pitch + rowLen e.fmt e.cols - 1

/-- Whether a tile's bytes lie on the strand's own core in banks it owns that are in SCRATCH mode (R274). -/
def State.tileFits (s : State) (st : SRef) (t : Strand) (e : TileEnt) : Bool :=
  match s.slice? st.slice with
  | none => false
  | some x =>
    let b := x.field 4 47 40
    let lo := e.base / 262144 % 16
    let hi := e.last / 262144 % 16
    decide (e.base / 4194304 = t.core % 4 ∧ e.last / 4194304 = t.core % 4 ∧ 2 + b * t.slot ≤ lo
        ∧ hi < 2 + b * (t.slot + 1))
      && (List.range (hi + 1 - lo)).all fun n => decide ((s.bank t.core (lo + n)).mode = .scratch)

/-! Waiters on one tile (R277) -/

/-- The key of a tile among the keys of requests, apart from words of local space. -/
def tileReq (k : Nat) : Nat := 2 ^ 40 + k

/-- Whether a tile's state is what a waiter needs: 0 EMPTY, 2 READY, 5 either. -/
def tileMet (want : Nat) (e : TileEnt) : Bool :=
  if want = 5 then decide (e.state = .empty ∨ e.state = .ready) else e.state.code == want

/-- Whether a message's tiles are in the states it needs; a tile without a shape is not waited for (R276, R384). -/
def State.msgMet (s : State) (m : Msg) : Bool :=
  m.fills.all (fun k => tileMet 0 (s.tile k)) && m.drains.all fun k => !(s.tile k).defd || tileMet 2 (s.tile k)

/-- Whether a node may act on a tile: a tile instruction on it, or a message instruction. -/
def Node.mayUse (nd : Node) (t : Strand) (k : Nat) : Bool :=
  ([0xAE, 0xAF, 0xB0, 0xB2, 0xB3].contains nd.op && t.tileKey (nd.word.field 3 0) == k) || nd.message

/-- Whether an instruction of a lower index than `node` may act on a tile. -/
def Strand.lowerUser (t : Strand) (k node : Nat) : Bool :=
  match t.inst with
  | some x => (x.nodes.take node).any fun nd => nd.mayUse t k
  | none => false

/-- Whether an element that came to a tile in cycle `seq` is served next (R277): no waiter whose condition is met came before it,
and the cycle is over in which an instruction of a lower index may have come to it too. -/
def State.tileTurn (s : State) (t : Strand) (k seq node : Nat) : Bool :=
  (decide (seq < s.cycles) || !t.lowerUser k node) && !(t.reqs.any fun q => q.keys.contains (tileReq k) && tileMet q.want (s.tile k)
      && decide (q.seq < seq ∨ (q.seq = seq ∧ q.node < node)))
    && !t.msgs.any fun m => (m.fills.contains k || m.drains.contains k) && s.msgMet m
      && decide (m.seq < seq ∨ (m.seq = seq ∧ m.node < node))

/-- A step at a tile that waits for a state: `go` when its turn has come. -/
def tileStep (s : State) (st : SRef) (t : Strand) (i : Nat) (r : Ready) (k want : Nat) (go : State → Eff) : Eff :=
  let old := t.reqOf i r.tag r.idx
  let q : Req := old.getD ⟨i, r.tag, r.idx, [tileReq k], want, s.cycles⟩
  if tileMet want (s.tile k) && s.tileTurn t k q.seq i then go (s.dropReq st i r.tag r.idx)
  else .wait (s.enqueueReq st q)

/-- `TDEF` (R326). -/
def execTdef (h : Hdr) (x : TileImm) (s : State) : Host.Outcome State Fault Refusal :=
  fireEff h [.a] 0 0 (fun st i r s =>
    match s.strand? st with
    | none => .wait s
    | some t =>
      let va := alignDown r.v.a 16
      let k := t.tileKey x.tile.toNat
      match s.translate t.core va 1 (.station st i r.tag r.idx) with
      | .trap c => .done (s.trapStation st i c 0 r.tag r.idx 1 va)
      | .wait s => .wait s
      | .ok l =>
        if ((t.reqOf i r.tag r.idx).isNone && !s.mayGo st i r.tag r.idx) || s.barred (some st) l.pa 16 then .wait s
        else
          let u := s.yardFor (.of t.core) l l.pa 16
          if u.poisoned l.pa 16 then .done (s.trapStation st i 0x50 0 r.tag r.idx 1 va)
          else
            let ws := wordsOf (u.rdAt l.pa 16) 2
            match shapeOf (ws.getD 0 0) (ws.getD 1 0) with
            | none => .done (s.trapStation st i 0x10 0 r.tag r.idx 0 0)
            | some e =>
              if !u.tileFits st t e then .done (s.trapStation st i 0x10 0 r.tag r.idx 0 0)
              else tileStep u st t i r k 5 fun s =>
                .done (((((s.takePlace st i r.tag r.idx).touchLoad t.core l l.pa).setTile k e).consume st i h [.a]
                  r).emitData st i r 0)) s

/-- `TFREE` and `TREADY` (R276, R326): the step at an entry that is neither FILLING nor DRAINING. -/
def tileChange (h : Hdr) (x : TileImm) (f : TileEnt → TileEnt) (s : State) : Host.Outcome State Fault Refusal :=
  fireEff h [.a] 0 0 (fun st i r s =>
    match s.strand? st with
    | none => .wait s
    | some t =>
      let k := t.tileKey x.tile.toNat
      if !(s.tile k).defd then .done (s.trapStation st i 0x12 0 r.tag r.idx 0 0)
      else tileStep s st t i r k 5 fun s =>
        .done ((((s.noteAt st i r.tag).setTile k (f (s.tile k))).consume st i h [.a] r).emitData st i r 0)) s

/-- `TFREE` (R326). -/
def execTfree (h : Hdr) (x : TileImm) (s : State) : Host.Outcome State Fault Refusal :=
  tileChange h x (fun _ => TileEnt.reset) s

/-- `TREADY` (R326). -/
def execTready (h : Hdr) (x : TileImm) (s : State) : Host.Outcome State Fault Refusal :=
  tileChange h x (fun e => { e with state := .ready }) s

/-- `TSTATE` (R326). -/
def execTstate (h : Hdr) (x : TileImm) (s : State) : Host.Outcome State Fault Refusal :=
  fireEff h [.a] 0 0 (fun st i r s =>
    match s.strand? st with
    | none => .wait s
    | some t =>
      .done (((s.noteAt st i r.tag).consume st i h [.a] r).emitData st i r (s.tile (t.tileKey x.tile.toNat)).low)) s

/-! TLD and TST (R327) -/

/-- The tag of the stream in progress. -/
def Ext.tileTag : Ext → Option Nat
  | .tile g => g
  | _ => none

/-- The elements that an access of a tile covers. -/
def tileLanes (fmt : Nat) (t : Ty) : Nat := if fmt = 0 then 1 else t.lanes

/-- The trap of an element of a tile (R315, R327). -/
def TileEnt.trapOf (e : TileEnt) (t : Ty) (i : Nat) : Option Nat :=
  if !fmtTakes e.fmt t then some 0x14
  else if e.rows ≤ i / e.cols ∨ e.cols < i % e.cols + tileLanes e.fmt t ∨ (e.fmt = 6 ∧ i % e.cols % 2 = 1) then some 0x10
  else none

/-- Where element `i` stands, as places of a core's local space. -/
def TileEnt.at' (e : TileEnt) (core i : Nat) : ElemAt :=
  let row := localPlace core (BitVec.ofNat 64 (e.base + i / e.cols * e.pitch))
  ⟨row, row + e.cols / 2, i % e.cols⟩

/-- The first byte and the number of bytes of an access. -/
def TileEnt.span (e : TileEnt) (t : Ty) (w : ElemAt) : Nat × Nat :=
  if e.fmt = 6 then (w.base + w.first / 2, t.lanes / 2)
  else (w.base + w.first * elemSize e.fmt, tileLanes e.fmt t * elemSize e.fmt)

/-- Whether the banks of bytes of local space are in SCRATCH mode and may be reached (R270). -/
def State.spanOpen (s : State) (st : SRef) (core : Nat) (p n : Nat) : Bool :=
  let a := fun k => BitVec.ofNat 64 ((k - 281474976710656) % 16777216)
  decide (s.localMode st core (a p) = some .scratch) && decide (s.localMode st core (a (p + n - 1)) = some .scratch)

/-- Whether every byte of an access may be reached: of Q4 elements also their scale bytes (R315, R330). -/
def TileEnt.open' (e : TileEnt) (s : State) (st : SRef) (core : Nat) (t : Ty) (w : ElemAt) : Bool :=
  let sp := e.span t w
  s.spanOpen st core sp.1 sp.2
    && (e.fmt != 6 || s.spanOpen st core (w.scaleBytes 6 t).1 (w.scaleBytes 6 t).2)

/-- A stream at a tile begins, goes on, or waits: `act` is the element's access. -/
def tileElem (h : Hdr) (x : TileImm) (fill : Bool) (st : SRef) (i : Nat) (r : Ready)
    (act : TileEnt → Strand → ElemAt → State → State) (s : State) : Eff :=
  match s.strand? st, s.node? st i with
  | some t, some nd =>
    let k := t.tileKey x.tile.toNat
    let e := s.tile k
    let acc := if fill then 2 else 1
    if (t.reqOf i r.tag r.idx).isNone && !s.mayGo st i r.tag r.idx then .wait s
    else if !e.defd then .done (s.trapStation st i 0x12 0 r.tag r.idx 0 0)
    else
      let body := fun (first : Bool) (s : State) =>
        match e.trapOf h.ty r.v.a.toNat with
        | some c => Eff.done (s.trapStation st i c 0 r.tag r.idx 0 0)
        | none =>
          let w := e.at' t.core r.v.a.toNat
          let (p, n) := e.span h.ty w
          let q := w.scaleBytes e.fmt h.ty
          if !e.open' s st t.core h.ty w then .done (s.trapStation st i 0x13 0 r.tag r.idx acc 0)
          else if s.barred (some st) p n || s.barred (some st) q.1 q.2 then .wait s
          else if !fill && (s.poisoned p n || s.poisoned q.1 q.2) then .done (s.trapStation st i 0x50 0 r.tag r.idx acc 0)
          else
            let s := s.takePlace st i r.tag r.idx
            let s := if first then (s.setTile k { e with state := if fill then .filling else .draining }).modNode st i
              fun m => { m with ext := .tile (some r.tag) } else s
            .done (act e t w s)
      match nd.ext.tileTag with
      | some g => if g = r.tag then body false s else .wait s
      | none => tileStep s st t i r k (if fill then 0 else 2) (body true)
  | _, _ => .wait s

/-- The end of a stream at a tile: the element carrying L has been taken. -/
def State.tileEnd (s : State) (st : SRef) (i : Nat) (tile : Nat) (after : TileState) : State :=
  match s.strand? st, s.node? st i with
  | some t, some nd => match nd.ext.tileTag with
    | some g =>
      if nd.lasts.contains g then
        let k := t.tileKey tile
        (s.setTile k { s.tile k with state := after }).modNode st i fun m => { m with ext := .tile none }
      else s
    | none => s
  | _, _ => s

/-- The stream's end brought up to date after a step of the executing station. -/
def tileSettled (x : TileImm) (after : TileState) (o : Host.Outcome State Fault Refusal) :
    Host.Outcome State Fault Refusal :=
  match o with
  | .next s => match s.cur with
    | some c => .next (if s.runs c.st then s.tileEnd c.st c.idx x.tile.toNat after else s)
    | none => .next s
  | o => o

/-- A reader of local space. -/
def State.tileReader (s : State) : Reader := fun k n => leNat (s.rdAt k n)

/-- `TLD` (R327). -/
def execTld (h : Hdr) (x : TileImm) (s : State) : Host.Outcome State Fault Refusal :=
  tileSettled x (if x.keep then .ready else .empty) (fireEff h [.a] 0 0 (fun st i r s =>
    tileElem h x false st i r (fun e _ w s =>
      let rd := s.tileReader
      let o := if e.fmt = 0 then (rawWord h.ty (rd (w.base + 8 * w.first) (accSize h.ty)), 0)
        else loadElems rd e.fmt h.ty (s.env st) w
      ((s.consume st i h [.a] r).raise st o.2).emitData st i r o.1) s) s)

/-- `TST` (R327). -/
def execTst (h : Hdr) (x : TileImm) (s : State) : Host.Outcome State Fault Refusal :=
  tileSettled x .ready (fireEff h [.a, .b] 0 0 (fun st i r s =>
    tileElem h x true st i r (fun e _ w s =>
      let o := if e.fmt = 0 then ([(w.base + 8 * w.first, leBytes r.v.b.toNat (accSize h.ty))], 0)
        else storeElems (s.tileReader) e.fmt h.ty (s.env st) w r.v.b
      let s := o.1.foldl (fun s p => s.wrAt p.1 p.2) s
      ((s.consume st i h [.a, .b] r).raise st o.2).emitData st i r 0) s) s)

/-! BANKMODE -/

/-- Every byte of a bank zero and every word empty. -/
def State.clearBank (s : State) (core b : Nat) : State :=
  let lo := localKey core b 0
  { s with
    loc := Table.clear s.loc lo (lo + 262144)
    full := Table.clear s.full (lo / 4) (lo / 4 + 65536)
    poison := Table.clear s.poison (281474976710656 + lo) (281474976710656 + lo + 262144) }

/-- A bank enters a mode (R268). -/
def State.enterMode (s : State) (core b : Nat) (m : Mode) : State := (s.clearBank core b).setBank core b ⟨m, [], [], [], 0⟩

/-- Whether a bank in FIFO mode holds an entry or a written staging byte. -/
def Bank.holds (b : Bank) : Bool := decide (b.mode = .fifo) && (!b.fifo.isEmpty || b.mask.any id)

/-- `BANKMODE` (R268, R329). -/
def execBankmode (h : Hdr) (x : BankImm) (s : State) : Host.Outcome State Fault Refusal :=
  fireEff h [.a] 0 0 (fun st i r s =>
    match s.strand? st with
    | none => .wait s
    | some t =>
      let b := x.bank.toNat
      let own := match s.bankOwner t.core b with
        | some (o, _) => decide (o = st)
        | none => false
      if !own then .done (s.trapStation st i 0x17 0 r.tag r.idx 0 0)
      else if !s.mayGo st i r.tag r.idx then .wait s
      else
        let k := s.bank t.core b
        let done := fun (s : State) =>
          Eff.done ((s.consume st i h [.a] r).emitData st i r (k.mode.code.setWidth 64))
        let u := s.takePlace st i r.tag r.idx
        if k.mode = x.mode then done u
        else if k.holds then .done (s.trapStation st i 0x17 0 r.tag r.idx 0 0)
        else done (u.enterMode t.core b x.mode)) s

end Sys2Proof.Machine
end

