-- ==== Sys2Proof/Machine/Counters.lean ====
section
/-! DEFINITION. Completion counters (R225, R343, R470), finish scopes (R236–R238), and the release of waits. -/

namespace Sys2Proof.Machine

/-- The waits that `f` releases, of every slice that is not halted (R414). -/
def State.releaseWhere (s : State) (f : WaitKind → Option (Word × Bool)) : State :=
  let mark := fun (w : Wait) => match f w.kind with
    | some (d, e) => { w with tok := { w.tok with data := d }, kind := .ready e }
    | none => w
  let strand := fun (t : Strand) => { t with waits := t.waits.map mark }
  let slice := fun (x : Slice) => if x.live then { x with strands := x.strands.map strand } else x
  let s := { s with slices := s.slices.map slice }
  s.strands.foldl (fun (s : State) (e : SRef × Strand) => s.flushWaits e.1 e.2.waits.length) s

/-! Counters -/

/-- The signal of an entry after an add to the counter at `pa` (R470): the link that carried the add writes it into host
memory. -/
def State.signal (s : State) (pa i : Nat) : State :=
  let a := s.readCfg 0 7 (3 * i)
  let d := s.readCfg 0 7 (3 * i + 2)
  let dest := (s.readCfg 0 7 (3 * i + 1)).toNat
  if d.bit 32 && decide (a.toNat = pa) then
    let bs := leBytes (d.toNat % 2 ^ 32) 4
    let link := s.linkOf (if hostPa pa then pa else dest)
    { s.pokeMem (hostBase + dest) bs with hostOut := s.hostOut ++ [⟨link, .write, dest, bs⟩] }
  else s

/-- A counter's new word (R343): `inc` added to bits [62:0], and bit 63 set by `flag` and sticky. -/
def counterWord (w : Nat) (inc : Nat) (flag : Bool) : Nat :=
  (w + inc) % 2 ^ 63 + (if flag || w.testBit 63 then 2 ^ 63 else 0)

/-- One atomic add of a party to a counter, with its signals (R343, R470). -/
def State.counterAdd (s : State) (by' : Party) (x : Xlat) (inc : Nat) (flag : Bool) : State :=
  let pa := x.pa
  let s := s.yardFor by' x pa 8
  let bs := leBytes (counterWord (rdNum s.mem pa 8) inc flag) 8
  let s := (s.through ((s.pokeMem pa bs).hostSend .add pa (leBytes (counterWord 0 inc flag) 8)) x pa 8).storeTs by' pa 8
  (List.range 64).foldl (fun s i => s.signal pa i) s

/-- A counter address without its low bits (R343). -/
def counterAt (w : Word) : Word := alignDown w 8

/-! Finish scopes -/

/-- A finish scope. -/
def State.fscope (s : State) (n : Nat) : FScope := Table.get FScope.reset s.fscopes n

/-- A finish scope replaced. -/
def State.setFscope (s : State) (n : Nat) (f : FScope) : State :=
  { s with fscopes := Table.set FScope.reset s.fscopes n f }

/-- The code of a scope's state (R254). -/
def ScopeState.code : ScopeState → Nat
  | .free => 0 | .opened => 1 | .closed => 2 | .done => 3

/-- What becomes of a counter add: one that another agent's hold keeps from its counter waits like one that misses (R189). -/
inductive Add where
  | done (s : State)
  | miss (s : State)

/-- The record of a counter add that is not made (R225). -/
def State.addFailed (s : State) (c : CtrAdd) (code : Nat) : State :=
  let h := if (s.handleQueue c.tq).isSome then c.tq else c.eq
  s.post h (recordOf 0 { Trap.bare with code := code, addr := counterAt c.va, acc := 3 } c.slice s.now 0)

/-- The add itself: made, failed with a record, or stalled on a miss (R225, R411). -/
def State.tryAdd (s : State) (c : CtrAdd) : Add :=
  match s.unitXlate (counterAt c.va) 3 with
  | (.leaf x, true) => if s.barred none x.pa 8 then .miss s else .done (s.counterAdd .unit x 1 c.flag)
  | (.leaf _, false) => .done (s.addFailed c 0x31)
  | (.fault, _) => .done (s.addFailed c 0x30)
  | (.miss, _) => .miss (s.requestWalk ⟨0, counterAt c.va, 3, .unit, false⟩)

/-- A scope that is CLOSED and empty is DONE (R237): its counter takes an add, its waiters are released, and its parent
is checked, at most `fuel` scopes up. -/
def State.checkScope (s : State) : Nat → Nat → State
  | 0, _ => s
  | f + 1, n =>
    let x := s.fscope n
    if x.state = .closed ∧ x.live = 0 ∧ x.child = 0 then
      let s := s.setFscope n { x with state := .done }
      let c : CtrAdd := ⟨x.ctr, false, 0, 0, 0, none, none⟩
      let s := if x.ctr = 0 then s else match s.tryAdd c with
        | .done s => s
        | .miss s => { s with ctrAdds := s.ctrAdds ++ [c] }
      let s := s.releaseWhere fun k => match k with
        | .scope m => if m = n then some (3, false) else none
        | _ => none
      let p := s.fscope x.parent
      (s.setFscope x.parent { p with child := p.child - 1 }).checkScope f x.parent
    else s

/-- A scope loses a live count (R237). -/
def State.loseCount (s : State) (n : Nat) : State :=
  let x := s.fscope n
  (s.setFscope n { x with live := x.live - 1 }).checkScope 256 n

/-- The steps that follow a counter add. -/
def State.afterAdd (s : State) (c : CtrAdd) : State :=
  let s := match c.scope with
    | some n => s.loseCount n
    | none => s
  match c.record with
  | some (h, ws) => s.post h ws
  | none => s

/-- A counter add with the steps that follow it, which wait while it stalls; address 0 names no counter. -/
def State.addThen (s : State) (c : CtrAdd) : State :=
  if c.va = 0 then s.afterAdd c
  else match s.tryAdd c with
    | .done s => s.afterAdd c
    | .miss s => { s with ctrAdds := s.ctrAdds ++ [c] }

/-- Stalled counter adds of an address tried again. -/
def State.retryAdds (s : State) (va : Word) : State :=
  let l := s.ctrAdds.filter fun c => counterAt c.va == va
  l.foldl (fun (s : State) (c : CtrAdd) => s.addThen c) { s with ctrAdds := s.ctrAdds.filter fun c => counterAt c.va != va }

/-- What units have put off while another agent held its bytes (R189), taken up again: counter adds that wait for no walk, and
writes. -/
def State.takeUpOwed (s : State) : State :=
  let held := fun (c : CtrAdd) => !s.walks.any fun w => decide (w.who = .unit ∧ w.va = counterAt c.va)
  let s := if s.ctrAdds.any held then
      (s.ctrAdds.filter held).foldl (fun (s : State) (c : CtrAdd) => s.addThen c)
        { s with ctrAdds := s.ctrAdds.filter fun c => !held c }
    else s
  if s.dues.isEmpty then s else State.payAll s.dues s

end Sys2Proof.Machine
end

