-- ==== Sys2Proof/Machine/Bars.lean ====
section
/-! DEFINITION. The package's barrier table (R202–R204) and the deadlines that waiters keep in it (R208). -/

namespace Sys2Proof.Machine

/-- The barrier of a scope and id that a core's strands reach (R202). -/
def barKey (core : Nat) (x : BarImm) : BarKey :=
  { scope := x.scope, bid := x.bid.toNat,
    unit := match x.scope with | .core => core | .quad => core / 4 | .die => core / 32 | .package => 0 | .pod => 0 }

/-- The code of a scope (R62). -/
def scopeNum : Scope → Nat
  | .core => 0 | .quad => 1 | .die => 2 | .package => 3 | .pod => 4

/-- The number of a barrier in the package's table: scope in bits [2:0], id in [8:3], unit above. -/
def barNum (b : BarKey) : Nat := scopeNum b.scope + 8 * (b.bid % 64 + 64 * b.unit)

/-- The index of a barrier in a strand's phase table (R204): 144 entries. -/
def barEntry (b : BarKey) : Nat :=
  (match b.scope with | .core => 0 | .quad => 16 | .die => 32 | .package => 64 | .pod => 128) + b.bid

/-- A barrier. -/
def State.bar (s : State) (b : BarKey) : Barrier := Table.get Barrier.reset s.barriers (barNum b)

/-- A barrier replaced. -/
def State.setBar (s : State) (b : BarKey) (v : Barrier) : State :=
  { s with barriers := Table.set Barrier.reset s.barriers (barNum b) v }

/-- The earliest deadline of the waiters on a phase. -/
def State.earliest (s : State) (b : BarKey) (p : Nat) : Option Nat :=
  ((s.strands.filter fun e => s.runs e.1).flatMap fun e => e.2.waits).foldl (fun m w => match w.kind with
    | .phase c q (some d) _ => if c = b ∧ q = p then some (match m with | some n => min n d | none => d) else m
    | _ => m) none

/-- DL of a barrier once some of its waiters wait no more (R203). -/
def State.refreshDl (s : State) (b : BarKey) : State :=
  let v := s.bar b
  if v.dl.isSome then s.setBar b { v with dl := s.earliest b v.p } else s

/-- The deadlines of waits that were given up leave their barriers (R240, R414). -/
def State.dropDeadlines (s : State) : List Wait → State
  | [] => s
  | w :: r => match w.kind with
    | .phase b _ (some _) _ => (s.refreshDl b).dropDeadlines r
    | _ => s.dropDeadlines r

end Sys2Proof.Machine
end

