-- ==== Sys2Proof/Machine/Mapping.lean ====
section
/-! DEFINITION. Block images (R65–R69), the mapping checks of R72, R311, R377 and R437 over a whole image, and the
configured stations of a mapped block (R73). -/

namespace Sys2Proof.Machine

/-! The image's parts -/

/-- Header fields (R66). -/
structure ImageHdr where
  nframe : Nat
  npool : Nat
  njtab : Nat
  pages : Nat
  nexit : Nat
  ninst : Nat
  size : Nat
  mx : Bool
  deriving DecidableEq, Repr

/-- The fields of words h0 and h1. -/
def imageHdr (h0 h1 : Word) : ImageHdr :=
  { nframe := h0.field 26 22, npool := h0.field 21 16, njtab := h0.field 31 27, pages := h0.field 15 12,
    nexit := h0.field 11 8, ninst := h0.field 7 0, size := h1.field 23 0, mx := h0.bit 32 }

/-- The header's own conditions (0x01), SIZE apart. -/
def hdrOk (ws : List Word) : Bool :=
  let h0 := ws.getD 0 0
  let h1 := ws.getD 1 0
  let h := imageHdr h0 h1
  h0.field 63 56 == 1 && h0.field 55 33 == 0 && h1.field 63 24 == 0 && ws.getD 2 0 == 0 && ws.getD 3 0 == 0
    && decide (1 ≤ h.ninst ∧ h.ninst ≤ 96 ∧ 1 ≤ h.nexit ∧ h.nexit ≤ 8 ∧ h.npool ≤ 32 ∧ h.njtab ≤ 16 ∧ h.nframe ≤ 16
      ∧ 1 ≤ h.pages ∧ h.pages ≤ 8)

/-- Bytes before the jump tables. -/
def ImageHdr.fixed (h : ImageHdr) : Nat := 32 + 8 * (h.ninst + h.nexit + h.npool)

/-- The greatest length that R65 can give a header. -/
def ImageHdr.most (h : ImageHdr) : Nat := (h.fixed + h.njtab * (8 + 4 * 512) + 63) / 64 * 64

/-- A 64-bit word of a byte list. -/
def wordAt (bs : List Byte) (o : Nat) : Word := BitVec.ofNat 64 (leNat ((bs.drop o).take 8))

/-- Words of a byte list from offset `o`. -/
def wordsAt (bs : List Byte) (o n : Nat) : List Word := (List.range n).map fun i => wordAt bs (o + 8 * i)

/-- The jump tables from offset `o` (R69): descriptors, entries, and the offset after the last. -/
def jtabsAt (bs : List Byte) : Nat → Nat → List (Word × List Word) × Nat
  | 0, o => ([], o)
  | n + 1, o =>
    let d := wordAt bs o
    let len := d.field 24 16
    let es := (List.range len).map fun i => Word.ofI (sextNat 32 (leNat ((bs.drop (o + 8 + 4 * i)).take 4)))
    let (r, e) := jtabsAt bs n (o + (8 + 4 * len + 7) / 8 * 8)
    ((d, es) :: r, e)

/-- A fetched image taken apart. -/
structure Image where
  hdr : ImageHdr
  words : List Word
  exits : List Word
  pool : List Word
  jtabs : List (Word × List Word)
  length : Nat
  deriving DecidableEq, Repr

/-- The parts of an image. -/
def imageOf (bs : List Byte) : Image :=
  let h := imageHdr (wordAt bs 0) (wordAt bs 8)
  let (js, e) := jtabsAt bs h.njtab h.fixed
  { hdr := h, words := wordsAt bs 32 h.ninst, exits := wordsAt bs (32 + 8 * h.ninst) h.nexit,
    pool := wordsAt bs (32 + 8 * (h.ninst + h.nexit)) h.npool, jtabs := js, length := (e + 63) / 64 * 64 }

/-! What the checks read of an instruction -/

/-- The item of a word. -/
def itemHdr : Item → Option Hdr
  | .instr i => i.hdr
  | .nop h => some h

/-- The properties of an item. -/
def itemInfo : Item → Option OpInfo
  | .instr i => i.info
  | .nop _ => some nopInfo

/-- TC and TD of `FORK`. -/
def forkTargets : Item → List (Option Target)
  | .instr (.fork _ tc td) => [tc, td]
  | _ => []

/-- The four routes of an item: TA, TB, TC, TD. -/
def itemRoutes (it : Item) : List (Option Target) :=
  match itemHdr it with
  | some h => [h.ta, h.tb] ++ forkTargets it
  | none => []

/-- The slots that the opcode's encoding gives an instruction beyond those that R379 and R437 let be fed. -/
def spareSlots (op : Nat) : List Slot :=
  if 0xC6 ≤ op ∧ op ≤ 0xCB then [.b]
  else if op = 0xCC ∨ op = 0xCD then [.b, .c]
  else if op = 0xE3 ∨ op = 0xE9 then [.b] else []

/-- Whether a target is outside its consumer's slots. -/
def badSlot (it : Item) (sl : Slot) : Bool :=
  match itemInfo it, itemHdr it with
  | some p, some h =>
    if sl = .p then !h.pv else !(p.req ++ p.opt ++ spareSlots p.op).contains sl
  | _, _ => false

/-- The arcs of an image: producer, consumer, slot. -/
def arcsOf (its : List (Option Item)) : List (Nat × Nat × Slot) :=
  (List.range its.length).flatMap fun i => match its.getD i none with
    | some it => (itemRoutes it).filterMap fun g => g.map fun g => (i, g.index.toNat, g.slot)
    | none => []

/-- How many arcs feed a slot. -/
def feeds (arcs : List (Nat × Nat × Slot)) (i : Nat) (sl : Slot) : Nat :=
  (arcs.filter fun a => a.2.1 == i && a.2.2 == sl).length

/-- The slots of an instruction that arcs feed. -/
def fedSlots (arcs : List (Nat × Nat × Slot)) (i : Nat) : List Slot :=
  [Slot.a, .b, .c, .p].filter fun sl => decide (feeds arcs i sl ≠ 0)

/-- Instructions reached from a set along arcs that `CARRY` does not feed, in `fuel` rounds. -/
def reaches (arcs : List (Nat × Nat × Slot)) (carry : Nat → Bool) : Nat → List Nat → List Nat
  | 0, l => l
  | n + 1, l =>
    let next := (arcs.filter fun a => l.contains a.1 && !carry a.1).map fun a => a.2.1
    reaches arcs carry n (l ++ (next.filter fun i => !l.contains i).eraseDups)

/-- Whether instruction `i` lies on a cycle of arcs that passes through no `CARRY`. -/
def onCycle (arcs : List (Nat × Nat × Slot)) (carry : Nat → Bool) (n i : Nat) : Bool :=
  !carry i && (reaches arcs carry n
    ((arcs.filter fun a => a.1 == i).map fun a => a.2.1)).any fun j => j == i

/-! The checks -/

/-- Subcode `c` at instruction `i` when `b`. -/
def flt (c i : Nat) (b : Bool) : List (Nat × Nat) := if b then [(c, i)] else []

/-- Target faults between instructions (0x07). -/
def targetFaults (its : List (Option Item)) (i : Nat) (it : Item) : List (Nat × Nat) :=
  (itemRoutes it).flatMap fun g => match g with
    | none => []
    | some g =>
      let j := g.index.toNat
      flt 0x07 i (decide (its.length ≤ j ∨ j = 0) || match its.getD j none with
        | some (.nop _) => true
        | some c => badSlot c g.slot
        | none => false)

/-- Arc faults at an instruction (0x08). -/
def arcFaults (arcs : List (Nat × Nat × Slot)) (carry : Nat → Bool) (n i : Nat) (it : Item) : List (Nat × Nat) :=
  match itemInfo it, itemHdr it with
  | some p, some h =>
    let fed := fedSlots arcs i
    let req := if h.im then p.req.filter fun sl => decide (sl ≠ .b) else p.req
    let cas := match it with
      | .instr (.atom _ x) => decide (x.aop = .cas) != fed.contains .c
      | .instr (.swz h _) => decide (h.ty = .o8) && !fed.contains .b
      | _ => false
    flt 0x08 i (req.any (fun sl => !fed.contains sl) || (h.pv && !fed.contains .p)
      || [Slot.a, .b, .c, .p].any (fun sl => decide (1 < feeds arcs i sl))
      || (h.im && fed.contains .b) || cas || (spareSlots p.op).any (fun sl => fed.contains sl && !(p.req ++ p.opt).contains sl)
      || onCycle arcs carry n i)
  | _, _ => []

/-- The kind of an exit entry (R67). -/
def exitKind (e : Word) : Nat := e.field 33 32

/-- Exit faults of an instruction (0x0A). -/
def exitFaults (exits : List Word) (i : Nat) : Item → List (Nat × Nat)
  | .instr (.exit _ n) => flt 0x0A i (decide (exits.length ≤ n.toNat) || exitKind (exits.getD n.toNat 0) != 0)
  | .instr (.call _ n) => flt 0x0A i (decide (exits.length ≤ n.toNat + 1) || exitKind (exits.getD n.toNat 0) != 1
      || exitKind (exits.getD (n.toNat + 1) 0) != 2)
  | .instr (.calli _ x) => flt 0x0A i (decide (exits.length ≤ x.ret.toNat) || exitKind (exits.getD x.ret.toNat 0) != 2)
  | _ => []

/-- The exit instructions. -/
def isExit : Item → Bool
  | .instr (.exit _ _) => true
  | .instr (.exiti _ _) => true
  | .instr (.call _ _) => true
  | .instr (.calli _ _) => true
  | .instr (.ret _) => true
  | _ => false

/-- Pool, jump-table and frame references (0x0B, 0x0C, 0x0D). -/
def refFaults (h : ImageHdr) (its : List (Option Item)) (i : Nat) : Item → List (Nat × Nat)
  | .instr (.kpool _ k) => flt 0x0B i (decide (h.npool ≤ k.toNat))
  | .instr (.exiti _ x) => flt 0x0C i (decide (h.njtab ≤ x.table.toNat))
  | .instr (.calli _ x) => flt 0x0C i (decide (h.njtab ≤ x.table.toNat))
  | .instr (.loopin _ x) => flt 0x0D i (h.nframe == 0 || (x.join && !primary x.gate.toNat))
  | .instr (.carry _ x) => flt 0x0D i (!primary x.gate.toNat)
  | .instr (.loopout _ x) => flt 0x0D i (!primary x.gate.toNat)
  | _ => []
where
  /-- Whether an index names a primary `LOOPIN`. -/
  primary (g : Nat) : Bool := match its.getD g none with
    | some (.instr (.loopin _ x)) => !x.join
    | _ => false

/-- What two instructions of a block may not share: the register of `WRITE` or `WRSR`, or the MSN. -/
def claims : Item → List (Nat × Nat)
  | .instr (.write _ r) => [(0x0E, r.toNat)]
  | .instr (.wrsr _ r) => [(0x0E, 64 + r.toNat)]
  | .instr i => match i.info, encode i with
    | some p, w :: _ => if 0xA0 ≤ p.op ∧ p.op ≤ 0xB4 then [(0x10, w.field 20 14)] else []
    | _, _ => []
  | .nop _ => []

/-- WRITE2 and MSN at instruction `i` (0x0E, 0x10): a later instruction claims the same. -/
def claimFaults (its : List (Option Item)) (i : Nat) (it : Item) : List (Nat × Nat) :=
  (claims it).flatMap fun c => flt c.1 i ((its.drop (i + 1)).any fun o => match o with
    | some x => (claims x).contains c
    | none => false)

/-- KILLSLOT (0x0F). -/
def killFaults (its : List (Option Item)) (arcs : List (Nat × Nat × Slot)) (i : Nat) : Item → List (Nat × Nat)
  | .instr (.kill _ x) => flt 0x0F i (feeds arcs x.index.toNat x.slot == 0 || match its.getD x.index.toNat none with
      | some it => (match itemInfo it with | some p => p.effectful | none => false)
      | none => false)
  | _ => []

/-- The matrix-unit instructions. -/
def isMatrix : Item → Bool
  | .instr i => match i.info with
    | some p => decide (0xC6 ≤ p.op ∧ p.op ≤ 0xCB)
    | none => false
  | .nop _ => false

/-- `GEN` by whether slot a is fed (R57, R58, R128). -/
def genFaults (arcs : List (Nat × Nat × Slot)) (i : Nat) : Item → List (Nat × Nat)
  | .instr (.gen h n) =>
    if feeds arcs i .a = 0 then flt 0x04 i (decide (h.ep ≠ .absorb)) ++ flt 0x06 i h.pv
    else flt 0x04 i (decide (n ≠ 0))
  | _ => []

/-- Every failure of an image's checks as subcode and instruction index, 0xFF for none (R72). Subcode 0x04 for a jump table of
257 to 511 entries (R69), for nonzero bits [5:0] of an offset (R67, R69) and for the label of an entry that is no return site
(R67), and padding bytes of any value (R65), are the model's choices (log 74). -/
def imageFaults (im : Image) (pages : Nat) : List (Nat × Nat) :=
  let n := im.words.length
  let its := im.words.map rawDecode
  let arcs := arcsOf its
  let carry := fun i => match its.getD i none with
    | some (.instr (.carry _ _)) => true
    | _ => false
  let copies := im.words.foldl (fun k w => k + w.field 55 50 + 1) 0
  flt 0x01 0xFF (decide (im.hdr.size ≠ im.length))
  ++ flt 0x02 0xFF (decide (pages < im.hdr.pages) || decide (64 * im.hdr.pages < copies))
  ++ flt 0x04 0xFF (im.exits.any fun e => e.field 47 34 != 0 || exitKind e == 3 || e.field 5 0 != 0
      || (exitKind e != 2 && e.field 63 48 != 0))
  ++ flt 0x04 0xFF (im.jtabs.any fun j => j.1.field 63 25 != 0 || decide (256 < j.1.field 24 16)
      || j.2.any fun o => o.field 5 0 != 0)
  ++ flt 0x0A 0xFF (!its.any fun o => match o with | some it => isExit it | none => false)
  ++ flt 0x0C 0xFF (im.jtabs.any fun j => j.1.field 24 16 == 0)
  ++ (List.range n).flatMap fun i =>
    (wordFaults (im.words.getD i 0)).map (fun c => (c, i))
    ++ match its.getD i none with
      | none => []
      | some it =>
        let land := match it with | .instr (.land _ _) => true | _ => false
        flt 0x09 i (land != (i == 0)) ++ targetFaults its i it ++ arcFaults arcs carry n i it
          ++ exitFaults im.exits i it ++ refFaults im.hdr its i it ++ claimFaults its i it
          ++ killFaults its arcs i it ++ flt 0x11 i (isMatrix it && !im.hdr.mx) ++ genFaults arcs i it

/-- The failure that a record reports: the lowest subcode, then the lowest index. -/
def leastFault : List (Nat × Nat) → Option (Nat × Nat)
  | [] => none
  | f :: r => match leastFault r with
    | none => some f
    | some g => if f.1 < g.1 ∨ (f.1 = g.1 ∧ f.2 ≤ g.2) then some f else some g

/-! Mapped stations -/

/-- The label of a block: that of instruction 0. -/
def Image.label (im : Image) : Nat :=
  match im.words.head? with
  | some w => match rawDecode w with
    | some (.instr (.land _ l)) => l.toNat
    | _ => 0
  | none => 0

/-- The extended state in which an instruction begins (R421). -/
def extOf (op : Nat) : Ext :=
  if op = 0x12 then .gen []
  else if op = 0x13 then .cnt []
  else if op = 0x08 then .steer []
  else if op = 0x0D then .carry [] []
  else if op = 0x80 ∨ op = 0x81 then .red []
  else if op = 0x82 then .shuf []
  else if op = 0x66 ∨ op = 0x67 then .pack []
  else if op = 0xB2 ∨ op = 0xB3 then .tile none
  else if op = 0xCE then .tree []
  else if op = 0xCF then .accept []
  else if (0xC0 ≤ op ∧ op ≤ 0xD1) ∨ op = 0x8D then .gather []
  else .plain

/-- The stations of an instruction of a block, empty (R73, R82). -/
def nodeOf (w : Word) (fed : List Slot) : Node :=
  { word := w, routes := (match rawDecode w with | some it => itemRoutes it | none => []), fed := fed,
    bufA := [], bufB := [], bufC := [], bufP := [], antis := [], antiOut := [], fired := [], lasts := [], withheld := [],
    sent := [], outq := [], ext := extOf (wordOp w).toNat, alts := [], wiring := [], pend := [], trapped := none }

/-! Configuration streams (R74–R82) -/

/-- A configuration write command. -/
def command (elem field value : Nat) : Nat := elem % 4096 * 2 ^ 20 + field % 16 * 2 ^ 16 + value % 65536

/-- The control element. -/
def control (field value : Nat) : Nat := command 0xFFF field value

/-- The fields of sub-element `sub` of station `n` from field 0 up (R75). -/
def fieldsAt (n sub : Nat) (l : List Nat) : List Nat := l.mapIdx fun f v => command (8 * n + sub) f v

/-- The four quarters of a word. -/
def quarters (w : Word) : List Nat := [w.field 15 0, w.field 31 16, w.field 47 32, w.field 63 48]

/-- Copies of an instruction by its word (R25). -/
def wordCopies (w : Word) : Nat := w.field 55 50 + 1

/-- The station of copy 0 of instruction `i`: stations are given in the order of instructions and copies (log 11). -/
def baseOf (words : List Word) (i : Nat) : Nat := (words.take i).foldl (fun n w => n + wordCopies w) 0

/-- The stations that a block uses, in order: instruction and copy. -/
def stationsOf (words : List Word) : List (Nat × Nat) :=
  (words.mapIdx fun i w => (List.range (wordCopies w)).map fun c => (i, c)).flatten

/-- The route field of a target and the replication field beside it (R75). -/
def routeField (words : List Word) : Option Target → Nat × Nat
  | none => (0, 0)
  | some g =>
    let j := g.index.toNat
    (2 ^ 15 + g.slot.code.toNat * 2 ^ 13 + baseOf words j % 512, wordCopies (words.getD j 0) - 1)

/-- The thirteen commands of station `n`, used by copy `c` of instruction `i` (R82). -/
def usedCmds (words : List Word) (n i c : Nat) : List Nat :=
  let w := words.getD i 0
  let routes := match rawDecode w with | some it => itemRoutes it | none => []
  let rs := (List.range 4).map fun k => routeField words (routes.getD k none)
  fieldsAt n 0 (quarters w ++ [c * 128 + i] ++ rs.map (fun r => r.1) ++ rs.map (fun r => r.2))

/-- The commands of each station of a region of `g` pages (R82): thirteen for a used one, one for another. -/
def mapStations (g : Nat) (words : List Word) : List (List Nat) :=
  let ss := stationsOf words
  (List.range (64 * g)).map fun n => match ss[n]? with
    | some (i, c) => usedCmds words n i c
    | none => [command (8 * n) 3 0x1A00]

/-- The row unit of row `k` (R78): the copies in the row of the first `RED` or `SCAN` there, and its operator. -/
def rowUnit (ss : List (Nat × Nat)) (words : List Word) (k : Nat) : Nat × Nat :=
  let row := (ss.drop (16 * k)).take 16
  let red := fun (i : Nat) => (wordOp (words.getD i 0)).toNat == 0x80 || (wordOp (words.getD i 0)).toNat == 0x81
  match row.find? fun e => red e.1 with
  | none => (0, 0)
  | some (i, _) => ((row.mapIdx fun n e => if e.1 = i then 2 ^ n else 0).foldl Nat.add 0, (words.getD i 0).field 20 16)

/-- The commands that a mapping writes to the row unit of row `k`. -/
def rowWrites (words : List Word) (k : Nat) : List Nat :=
  let u := rowUnit (stationsOf words) words k
  if u.1 = 0 then [] else [command (8 * (16 * k) + 6) 0 u.1, command (8 * (16 * k) + 6) 1 u.2]

/-- The stream that maps a block on a region of `g` pages (R82). -/
def mapStream (g : Nat) (words : List Word) : List Nat :=
  control 0 g :: (mapStations g words).flatten ++ (List.range (4 * g)).flatMap (rowWrites words) ++ [control 1 0]

/-- The value that a station's commands leave in a field of sub-element 0: the last written, or the 0 of BEGIN (R80). -/
def fieldIn (l : List Nat) (f : Nat) : Nat :=
  ((l.filter fun c => c / 2 ^ 16 % 16 == f).getLast?.getD 0) % 2 ^ 16

/-- The word that a station's commands leave. -/
def wordIn (l : List Nat) : Word :=
  BitVec.ofNat 64 (fieldIn l 0 + fieldIn l 1 * 2 ^ 16 + fieldIn l 2 * 2 ^ 32 + fieldIn l 3 * 2 ^ 48)

/-- The target that a route field names, the instructions of the stations known. -/
def routeIn (ids : List Nat) (v : Nat) : Option Target :=
  if v / 2 ^ 15 = 1 then some ⟨BitVec.ofNat 7 (ids.getD (v % 512) 0), (Slot.ofCode (BitVec.ofNat 2 (v / 2 ^ 13))).getD .a⟩
  else none

/-- The `n` instructions of a block as the commands of its stations configure them (R80, R82). -/
def nodesOf (ss : List (List Nat)) (n : Nat) : List Node :=
  let ids := ss.map fun l => fieldIn l 4
  let cfg := (List.range n).map fun i =>
    let l := ss.getD (ids.findIdx fun d => d == i) []
    (wordIn l, (List.range 4).map fun k => routeIn ids (fieldIn l (5 + k)))
  let arcs := (cfg.mapIdx fun i c => c.2.filterMap fun g => g.map fun g => (i, g.index.toNat, g.slot)).flatten
  cfg.mapIdx fun i c => { nodeOf c.1 (fedSlots arcs i) with routes := c.2 }

/-- The block that a checked image gives on a region of `g` pages: its mapping stream is applied. -/
def Image.block (im : Image) (g : Nat) (pc : Word) : Block :=
  { image := pc, size := im.hdr.size, words := im.words, exits := im.exits, pool := im.pool,
    jtabs := im.jtabs.map fun j => ⟨j.1.field 15 0, j.2⟩, label := im.label, nframe := im.hdr.nframe,
    mx := im.hdr.mx, nodes := nodesOf (mapStations g im.words) im.words.length, spare := [] }

/-- A new instance of a block, with the captured `fpc` and what streaming loads outside loops will see (R16, R49,
R283). -/
def Block.start (b : Block) (fpc : Nat) (snap : Snapshot) : Inst :=
  { block := b, nodes := b.nodes, fpc := fpc, flags := 0, exit := none, writes := [], swrites := [], yield := none,
    frames := List.replicate 16 none, snap := snap, told := [], wrong := none, claims := [], patchGen := 0,
    spare := b.spare, rowUnits := [] }

end Sys2Proof.Machine
end

