-- ==== Sys2Proof/Machine/Strand.lean ====
section
/-! DEFINITION. Block instances: walks, fetch and mapping (R14, R70, R72, R259), quiescence and commit (R40–R42, R47),
anti-tokens (R33–R39), and the adoption of a patch (R426). -/

namespace Sys2Proof.Machine

/-! Traps of a strand as a whole -/

/-- A trap with no firing: at fetch, at quiescence, at commit. -/
def State.trapStrand (s : State) (st : SRef) (code sub index acc : Nat) (addr : Word) : State :=
  match s.strand? st with
  | some t => (s.dropHolds st).takeTrap st.slice (t.trapAt code sub index 0 0 acc addr)
  | none => s

/-! Walks (R259, R260, R411) -/

/-- A walk through a die's translation cache: its end, and the caches after it. -/
def State.walkVia (s : State) (core : Nat) (va : Word) : WalkRes × State :=
  let die := dieOf core
  let (r, used) := walkFrom s.mem (s.tcache.filter fun e => e.unit == die) die va.toNat levels s.rootTable []
  let s := { s with tcache := cachePut s.tcache die Config.tcacheSize used }
  match r with
  | .leaf x => (r, { s with tlb := cachePut s.tlb core Config.tlbSize [⟨core, x.base, x.size, x.leaf⟩] })
  | _ => (r, s)

/-- The access that a walk serves, as a record reports it. -/
def State.walkTrap (s : State) (w : Walk) : Trap × Nat :=
  match w.who with
  | .station st i tag eidx => (match s.strand? st with
    | some t => (t.trapAt 0 0 i tag eidx w.acc w.va, st.slice)
    | none => ({ Trap.bare with addr := w.va, acc := w.acc }, 0))
  | .fetch st => (match s.strand? st with
    | some t => (t.trapAt 0 0 0xFF 0 0 w.acc w.va, st.slice)
    | none => ({ Trap.bare with addr := w.va, acc := w.acc }, 0))
  | .commit st => (match s.strand? st with
    | some t => (t.trapAt 0 0 0xFF 0 0 w.acc w.va, st.slice)
    | none => ({ Trap.bare with addr := w.va, acc := w.acc }, 0))
  | .oper id => (match s.ops.find? fun o => o.id == id with
    | some o =>
      let h := o.words.getD 0 0
      ({ Trap.bare with addr := w.va, acc := w.acc, core := h.field 15 9, slot := h.field 8 6, index := o.index, pc := o.pc,
                        tag := o.tag }, h.field 31 16)
    | none => ({ Trap.bare with addr := w.va, acc := w.acc, core := w.core }, 0))
  | .unit => ({ Trap.bare with addr := w.va, acc := w.acc }, 0)

/-- TRANSLATION_WALK (R259, R260, R411): walk `n` ends in a leaf, which the caches take; in a fault, which traps XLATE;
or in a miss, which posts one record for its page and waits for `TLBI` with `.replay`. -/
def execTranslationWalk (n : Nat) (s : State) : Host.Outcome State Fault Refusal :=
  .next (match s.walks[n]? with
  | none => s
  | some w =>
    if w.posted || !s.walkRuns w then s
    else
      let (r, s) := s.walkVia w.core w.va
      let gone := { s with walks := dropAt s.walks n }
      match r with
      | .leaf _ => if w.who = .unit then gone.retryAdds w.va else gone
      | .fault => (match w.who with
        | .station st i tag eidx => gone.trapStation st i 0x30 0 tag eidx w.acc w.va
        | .fetch st => gone.trapStrand st 0x30 0 0xFF w.acc w.va
        | .commit st => gone.trapStrand st 0x30 0 0xFF w.acc w.va
        | .oper _ => gone
        | .unit => gone.retryAdds w.va)
      | .miss =>
        let shared := s.walks.any fun v => v.posted && v.va.toNat / 65536 == w.va.toNat / 65536
        let s := { s with walks := modAt s.walks n fun w => { w with posted := true } }
        if shared then s
        else
          let (t, sl) := s.walkTrap w
          s.post s.pagerq.toNat (recordOf 1 t sl s.now 0))

/-! Bytes through a core's translation, across pages -/

/-- What a read or a check of several pages gives. -/
inductive Pull where
  | ok (s : State) (spans : List (Nat × Nat × Xlat))
  | wait (s : State)
  | trap (code : Nat) (va : Word)

/-- The spans of physical memory, each with its translation, of `n` bytes at `va`: at most `fuel` pages of 64 KiB. -/
def State.spansOf (s : State) (core acc : Nat) (who : WalkFor) : Nat → Nat → Nat → List (Nat × Nat × Xlat) → Pull
  | 0, _, _, l => .ok s l
  | f + 1, va, n, l =>
    if n = 0 then .ok s l
    else
      let m := min n (65536 - va % 65536)
      match s.translate core (BitVec.ofNat 64 va) acc who with
      | .wait s => .wait s
      | .trap c => .trap c (BitVec.ofNat 64 va)
      | .ok x => s.spansOf core acc who f (va + m) (n - m) (l ++ [(x.pa, m, x)])

/-- Bytes of spans, with the updates of their keys applied first (R304). -/
def State.readSpans (s : State) (who : Nat) : List (Nat × Nat × Xlat) → State × List Byte
  | [] => (s, [])
  | (pa, n, x) :: r =>
    let s := (blocksOf pa n).foldl (fun (s : State) b => s.touchLoad who x (max pa (256 * b))) (s.yardFor (.of who) x pa n)
    let (t, bs) := s.readSpans who r
    (t, rdBytes s.mem pa n ++ bs)

/-- Bytes written over spans. -/
def State.writeSpans (s : State) (who : Nat) : List (Nat × Nat × Xlat) → List Byte → State
  | [], _ => s
  | (pa, n, x) :: r, bs =>
    (s.storeVia (.of who) x pa (bs.take n)).writeSpans who r (bs.drop n)

/-! Fetch (R14, R15, R70–R73) -/

/-- G of a slice (R221). -/
def Slice.pages (x : Slice) : Nat := x.field 4 19 16

/-- The first page of a strand's region (R197). -/
def Slice.page (x : Slice) (t : Strand) : Nat := x.pages * t.slot

/-- A cached block of a strand's region, its pages on its core (R15). -/
def State.cached (s : State) (x : Slice) (t : Strand) : Option Block :=
  (s.cfgCache.find? fun c => c.core == t.core && c.page == x.page t && c.pages == x.pages && c.block.image == t.pc).map
    fun c => c.block

/-- A mapped block put into the configuration cache: the least recently mapped leaves. -/
def State.cachePutBlock (s : State) (x : Slice) (t : Strand) (b : Block) : State :=
  let e : CfgEnt := ⟨t.core, x.page t, x.pages, b⟩
  let mine := s.cfgCache.filter fun c =>
    c.core == e.core && !(c.page == e.page && c.pages == e.pages && c.block.image == b.image)
  { s with cfgCache := s.cfgCache.filter (fun c => c.core != t.core) ++ (e :: mine).take Config.cfgCacheSize }

/-- A checked block begins its instance, unless its label is not the one expected (R16, R45). -/
def State.startBlock (s : State) (st : SRef) (x : Slice) (t : Strand) (b : Block) : State :=
  if t.check.any fun l => l != b.label then s.trapStrand st 0x02 0 0xFF 0 0
  else (s.cachePutBlock x t b).modStrand st fun u =>
    { u with inst := some (b.start u.fpc (s.snapshot t.core)), check := none }

/-- The image of `n` bytes at the program counter read: `go` has its bytes. One step reads them all, so that no old unit
stands beside a new one, the model's choice of the mixes that R71 allows (log 74). -/
def State.fetchBytes (s : State) (st : SRef) (t : Strand) (n : Nat) (go : State → List Byte → State) : State :=
  match s.spansOf t.core 4 (.fetch st) 4 t.pc.toNat n [] with
  | .wait s => s
  | .trap c va => s.trapStrand st c 0 0xFF 4 va
  | .ok s l =>
    if l.any fun p => s.barred (some st) p.1 p.2.1 then s
    else if l.any fun p => s.poisoned p.1 p.2.1 then s.trapStrand st 0x50 0 0xFF 4 t.pc
    else
      let (s, bs) := s.readSpans t.core l
      go s bs

/-- BLOCK_FETCH (R14, R15, R70–R73): a strand without an instance fetches, checks and maps its next block. -/
def execBlockFetch (st : SRef) (s : State) : Host.Outcome State Fault Refusal :=
  .next (match s.slice? st.slice, s.strand? st with
  | some x, some t =>
    if !x.live || t.ended || t.inst.isSome
        || s.walks.any (fun w => decide (w.who = .fetch st) && w.posted) then s
    else match s.cached x t with
      | some b => s.startBlock st x t b
      | none =>
        if t.pc.toNat % 64 ≠ 0 then s.trapStrand st 0x01 0x01 0xFF 0 0
        else s.fetchBytes st t 32 fun s bs =>
          let h := imageHdr (wordAt bs 0) (wordAt bs 8)
          if !hdrOk (wordsOf bs 4) || decide (h.most < h.size) || decide (h.size < h.fixed) then
            s.trapStrand st 0x01 0x01 0xFF 0 0
          else s.fetchBytes st t h.size fun s bs =>
            let im := imageOf bs
            match leastFault (imageFaults im x.pages) with
            | some (c, i) => s.trapStrand st 0x01 c i 0 0
            | none => s.startBlock st x t (im.block x.pages t.pc)
  | _, _ => s)

/-! Quiescence (R40, R42, R277) -/

/-- Done tokens owed to a strand: operations that will reply to the fabric (R344). -/
def State.owesDone (s : State) (st : SRef) : Bool :=
  s.ops.any fun o => o.done && (o.words.getD 0 0).field 31 16 == st.slice && o.rank == st.rank

/-- Replies of any kind owed to a strand (R347). -/
def State.owesReply (s : State) (st : SRef) : Bool :=
  s.ops.any fun o => (o.words.getD 0 0).field 31 16 == st.slice && o.rank == st.rank

/-- The elements of memory instructions that have their operands and room: instruction, tag, index. -/
def Inst.memorySets (x : Inst) : List (Nat × Nat × Nat) :=
  (x.nums fun _ nd => nd.memory).flatMap fun i => match x.nodes[i]? with
    | some nd => (x.goable i nd).map fun e => (i, e.1, e.2)
    | none => []

/-- The tiles that an element of a memory instruction waits for: by its request, or by the stream in progress. -/
def Strand.tileWait (t : Strand) (x : Inst) (e : Nat × Nat × Nat) : List Nat :=
  match t.reqOf e.1 e.2.1 e.2.2 with
  | some q => q.keys.filterMap fun k => if 2 ^ 40 ≤ k then some (k - 2 ^ 40) else none
  | none => match x.nodes[e.1]? with
    | some nd => (match nd.ext.tileTag with
      | some g => if g = e.2.1 then [] else [t.tileKey (nd.word.field 3 0)]
      | none => [])
    | none => []

/-- Whether a switch token can still be taken somewhere. -/
def Inst.canAdopt (x : Inst) (i : Nat) : Bool :=
  match x.nodes[i]? with
  | none => false
  | some nd =>
    let w := x.waited i nd.fed
    !w.isEmpty && nd.switched w && w.all fun sl => (ahead (nd.buf sl)).isEmpty

/-- PORT of a message (R335). -/
def Msg.port (m : Msg) : Nat := (m.words.getD 0 0).field 55 52

/-- Whether a message waits on tiles: on its own, or, as a matrix message, behind one that does (R340). -/
def State.msgStuck (s : State) (t : Strand) (m : Msg) : Bool :=
  !s.msgMet m || (m.port == 1 && (t.msgs.takeWhile fun o => decide (o ≠ m)).any fun o => o.port == 1 && !s.msgMet o)

/-- Whether nothing but waits for tiles keeps an instance from quiescence (R40). -/
def State.stillBut (s : State) (st : SRef) (t : Strand) (x : Inst) : Bool :=
  !(List.range x.nodes.length).any x.canMove && t.pend.isEmpty && t.waits.isEmpty && !s.owesDone st
    && !(List.range x.nodes.length).any (fun i => x.canAdopt i && match x.nodes[i]? with
      | some nd => nd.free
      | none => false)
    && t.msgs.all (s.msgStuck t)
    && x.memorySets.all fun e => !(t.tileWait x e).isEmpty && !match t.reqOf e.1 e.2.1 e.2.2 with
      | some q => (t.tileWait x e).any fun k => tileMet q.want (s.tile k)
      | none => false

/-- Tiles that something of the instance waits for, with the instruction that does. -/
def Strand.tilesAwaited (t : Strand) (x : Inst) : List (Nat × Nat) :=
  (x.memorySets.flatMap fun e => (t.tileWait x e).map fun k => (k, e.1))
    ++ t.msgs.flatMap fun m => (m.fills ++ m.drains).map fun k => (k, m.node)

/-- Whether an operation of an engine fills or drains a tile now (R276). -/
def State.tileInFlight (s : State) (k : Nat) : Bool := s.ops.any fun o => (o.fills ++ o.drains).contains k

/-- Whether a node holds some but not all operands of an element that it has not fired for. -/
def Node.partial' (nd : Node) : Bool :=
  nd.fed.any fun sl => (tokens (nd.buf sl)).any fun e =>
    !nd.fired.contains ⟨e.1.tag, e.1.idx⟩
      && !(nd.fed.all fun s2 => ((tokens (nd.buf s2)).any fun f => f.1.tag == e.1.tag && f.1.idx == e.1.idx))

/-- An effectful instruction that holds some but not all operands of an element (R42). -/
def Inst.dangling (x : Inst) : Option Nat :=
  (x.nums fun _ nd => effectfulOp nd.op && (nd.partial' || !nd.ext.gathers.isEmpty || nd.ext.accepts.any fun e => !e.closed)).head?

/-! Commit (R41, R47) -/

/-- Special-register writes in ascending register number, each register's own in order (R440). -/
def inOrder (l : List (Nat × Word)) : List (Nat × Word) := (List.range 64).flatMap fun r => l.filter fun e => e.1 == r

/-- A pushed frame's bytes (R46). -/
def frameBytes (f : Word × Nat) : List Byte := leBytes f.1.toNat 8 ++ leBytes f.2 2 ++ List.replicate 6 0

/-- What the call stack gives a commit: the frame popped, if any. -/
inductive Stack where
  | ok (s : State) (frame : Option (Word × Nat))
  | wait (s : State)
  | trap (code acc : Nat) (va : Word)

/-- The place of byte 0 of the carve-out's frame `n`. -/
def Slice.carveAt (x : Slice) (t : Strand) (n : Nat) : Nat :=
  281474976710656 + localKey t.core (2 + x.field 4 47 40 * t.slot) 0 + 16 * n

/-- Whether the bank of a carve-out frame is in SCRATCH mode. -/
def State.carveOpen (s : State) (x : Slice) (t : Strand) (n : Nat) : Bool :=
  decide ((s.bank t.core (2 + x.field 4 47 40 * t.slot + 16 * n / 262144)).mode = .scratch)

/-- A push (R47) with the pointer and depth as they stand. -/
def State.pushFrame (s : State) (st : SRef) (x : Slice) (t : Strand) (f : Word × Nat) : Stack :=
  if t.csdepth < x.carveSize / 16 then
    if !s.carveOpen x t t.csdepth then .trap 0x13 2 0
    else .ok ((s.wrAt (x.carveAt t t.csdepth) (frameBytes f)).modStrand st fun t =>
      { t with csdepth := t.csdepth + 1 }) none
  else match s.spansOf t.core 2 (.commit st) 2 t.ovfptr.toNat 16 [] with
    | .wait s => .wait s
    | .trap c va => .trap c 2 va
    | .ok s l =>
      if l.any fun p => s.barred (some st) p.1 p.2.1 then .wait s
      else .ok ((s.writeSpans t.core l (frameBytes f)).modStrand st fun t =>
        { t with csdepth := t.csdepth + 1, ovfptr := t.ovfptr + 16 }) none

/-- The frame that 16 bytes hold. -/
def frameOfBytes (bs : List Byte) : Word × Nat := (wordAt bs 0, leNat ((bs.drop 8).take 2))

/-- A pop (R47): none when the stack is empty. -/
def State.popFrame (s : State) (st : SRef) (x : Slice) (t : Strand) : Stack :=
  if t.csdepth = 0 then .ok s none
  else if x.carveSize / 16 < t.csdepth then
    let p := t.ovfptr - 16
    match s.spansOf t.core 1 (.commit st) 2 p.toNat 16 [] with
    | .wait s => .wait s
    | .trap c va => .trap c 1 va
    | .ok s l =>
      if l.any fun q => s.barred (some st) q.1 q.2.1 then .wait s
      else if l.any fun q => s.poisoned q.1 q.2.1 then .trap 0x50 1 p
      else
        let (s, bs) := s.readSpans t.core l
        .ok (s.modStrand st fun t => { t with csdepth := t.csdepth - 1, ovfptr := p }) (some (frameOfBytes bs))
  else
    let k := x.carveAt t (t.csdepth - 1)
    if !s.carveOpen x t (t.csdepth - 1) then .trap 0x13 1 0
    else if s.poisoned k 16 then .trap 0x50 1 0
    else .ok (s.modStrand st fun t => { t with csdepth := t.csdepth - 1 }) (some (frameOfBytes (s.rdAt k 16)))

/-- The stack step of a commit, for the strand as its register writes leave it. -/
def State.stackStep (s : State) (st : SRef) (x : Slice) (c : Choice) : Stack :=
  match s.strand? st with
  | none => .ok s none
  | some t =>
    if c.pop then s.popFrame st x t
    else match c.push with
      | some f => s.pushFrame st x t f
      | none => .ok s none

/-- The word that a copy adopts: the copies of an instruction stay as they are mapped (R82). -/
def Node.adoptedAt (nd : Node) (copy : Nat) : Word :=
  match nd.pend.find? fun p => p.1 == copy with
  | some (_, w) => BitVec.ofNat 64 (w.toNat / 2 ^ 56 * 2 ^ 56 + nd.word.field 55 50 * 2 ^ 50 + w.toNat % 2 ^ 50)
  | none => nd.wordAt copy

/-- An instruction that adopts its pending words (R426); under another opcode its extended state begins anew. -/
def Node.adopted (nd : Node) : Node :=
  if nd.pend.isEmpty then nd
  else
    let n := { nd.withWords nd.adoptedAt 0 with pend := [] }
    if wordOp n.word = wordOp nd.word then n else { n with ext := extOf (wordOp n.word).toNat }

/-- The configuration that an instance leaves (R426): the words of its stations, pending ones adopted. -/
def Inst.kept (x : Inst) : Block :=
  { x.block with
    spare := x.spare
    nodes := x.block.nodes.mapIdx fun i n => match x.nodes[i]? with
      | some m => let a := m.adopted
                  { n with word := a.word, alts := a.alts, ext := extOf (wordOp a.word).toNat }
      | none => n }

/-- The cached block of the instance keeps what a patch wrote (R426). -/
def State.keepPatch (s : State) (sl : Option Slice) (t : Strand) (x : Inst) : State :=
  if x.kept = x.block then s
  else { s with cfgCache := s.cfgCache.map fun c =>
           if c.core == t.core && (sl.any fun y => c.page == y.page t && c.pages == y.pages) && c.block.image == x.block.image then
             { c with block := x.kept }
           else c }

/-- Steps 1 to 3 of a commit (R41). -/
def State.commitRegs (s : State) (st : SRef) (x : Inst) : State :=
  let s := s.modStrand st fun t => { t with regs := x.writes.foldl (fun l w => l.set w.1 w.2) t.regs }
  let s := (inOrder x.swrites).foldl (fun s w => s.writeSreg st w.1 w.2) s
  s.modStrand st fun t => { t with fflags := orFlags t.fflags x.flags }

/-- Steps 5 and 6 (R41), the end of the strand (R12), and `YIELD` (R252). -/
def State.commitEnd (s : State) (st : SRef) (x : Inst) (c : Choice) (frame : Option (Word × Nat)) : State :=
  let ends := x.yield.isSome || (c.pop && frame.isNone)
  let s := match x.yield with
    | some y => s.modSlice st.slice fun sl => { sl with yield := some (sl.yield.getD y) }
    | none => s
  (s.dropHolds st).modStrand st fun t =>
    { t with
      pc := if c.pop then (match frame with | some f => f.1 | none => t.pc) else c.next
      check := if c.pop then frame.map fun f => f.2 else c.check
      inst := none, pend := [], waits := [], reqs := [], msgs := [], ended := ends }

/-- A quiescent instance with one exit commits (R41): it stalls while the call stack's overflow access does. -/
def State.commitInst (s : State) (st : SRef) (sl : Slice) (t : Strand) (x : Inst) (c : Choice) : State :=
  let s0 := (s.commitRegs st x).keepPatch (s.slice? st.slice) t x
  match s0.stackStep st sl c with
  | .ok u frame =>
    if (x.yield.isSome || (c.pop && frame.isNone)) && s.owesReply st then s else u.commitEnd st x c frame
  | .wait u => { s with walks := u.walks }
  | .trap code acc va => s.trapStrand st code 0 0xFF acc va

/-- COMMIT (R40–R42): what a quiescent instance comes to. -/
def execCommit (st : SRef) (s : State) : Host.Outcome State Fault Refusal :=
  .next (match s.slice? st.slice, s.strand? st with
  | some sl, some t => (match t.inst with
    | none => s
    | some y =>
      let x := t.settleFrames y
      if !sl.live || !s.stillBut st t x
          || s.walks.any (fun w => decide (w.who = .commit st) && w.posted) then s
      else match t.tilesAwaited x with
        | (k, i) :: r =>
          if ((k, i) :: r).any fun e => s.tileInFlight e.1 then s else s.trapStrand st 0x12 0 i 0 0
        | [] => match x.dangling with
          | some i => s.trapStrand st 0x05 1 i 0 0
          | none => match x.exit with
            | none => s.trapStrand st 0x05 2 0xFF 0 0
            | some c => s.commitInst st sl t x c)
  | _, _ => s)

/-! Anti-tokens -/

/-- Instructions that absorb an anti-token and withhold the element: sources, `MERGE`, the gates, `STEER`, `CNT`,
`GEN`, `RED`, `SCAN`, `QPACK`, `QUNPK`, and `SHUF` with IM = 1 (R36, R37, R140, R152, R154, R183, R242–R244). -/
def Node.absorbs (nd : Node) : Bool :=
  [0x00, 0x01, 0x03, 0x04, 0x08, 0x09, 0x0D, 0x0E, 0x0F, 0x12, 0x13, 0x66, 0x67, 0x80, 0x81].contains nd.op
    || (nd.op == 0x82 && nd.word.bit 43)

/-- What a station's extended state becomes when an element is cancelled whose operand carried L when `l`: b's stream of
`SHUF` has ended with it (R244). -/
def Ext.cancel (tag : Nat) (l : Bool) : Ext → Ext
  | .shuf es => if l then shufSet es (shufAt es tag).finish else .shuf es
  | e => e

/-- The walks of an element's access given up. -/
def State.dropWalks (s : State) (st : SRef) (i tag idx : Nat) : State :=
  { s with walks := s.walks.filter fun w => decide (w.who ≠ .station st i tag idx) }

/-- The pending firing of an element cancelled (R33): operands present are dropped, its walk is given up, and an
anti-token goes upstream on each slot whose operand has not arrived; of `SHUF`, only slots b and p are concerned
(R244). -/
def State.cancelFiring (s : State) (st : SRef) (i : Nat) (a : Anti) : State :=
  match s.node? st i with
  | none => s
  | some nd =>
    let slots := if nd.op = 0x82 then nd.fed.filter fun sl => decide (sl ≠ .a) else nd.fed
    let missing := slots.filter fun sl => !(nd.buf sl).any (Entry.is a.tag a.idx)
    let l := slots.any fun sl => decide (sl ≠ .p) && (tokens (nd.buf sl)).any fun e =>
      e.1.tag == a.tag && e.1.idx == a.idx && e.1.l
    let s := s.modNode st i fun n =>
      { (n.consume slots a.tag a.idx l).forget a with ext := n.ext.cancel a.tag l }
    ((s.dropReq st i a.tag a.idx).dropWalks st i a.tag a.idx).antis st i (missing.map fun sl => (⟨BitVec.ofNat 7 i, sl⟩, a))

/-- Whether a wait is that of an element. -/
def Wait.isOf (w : Wait) (i : Nat) (a : Anti) : Bool := w.node == i && w.tok.tag == a.tag && w.tok.idx == a.idx

/-- An issued load or a wait of an element given up: it has no other effect (R33, R240, R312). -/
def State.cancelOwed (s : State) (st : SRef) (i : Nat) (a : Anti) : State :=
  let gone := match s.strand? st with
    | some t => t.waits.filter fun w => w.isOf i a
    | none => []
  ((s.modStrand st fun t =>
    { t with
      pend := t.pend.filter fun p => !(p.node == i && p.tag == a.tag && p.idx == a.idx)
      waits := t.waits.filter fun w => !w.isOf i a }).modNode st i
    fun n => n.forget a).dropDeadlines gone

/-- Whether an element is owed by an access or a wait. -/
def Strand.owesElem (t : Strand) (i : Nat) (a : Anti) : Bool :=
  t.pend.any (fun p => p.node == i && p.tag == a.tag && p.idx == a.idx)
    || t.waits.any fun w => w.isOf i a

/-- ANTI_TOKEN_ARRIVAL (R32–R39): anti-token `k` of those that stand at a station, on the arc to target `tgt`. One that
meets a token already sent is discarded, at a `MERGE` that may still send another for its element too: the model's
choice between R39 and R141 (log 83). -/
def execAntiTokenArrival (st : SRef) (idx tgt k : Nat) (s : State) : Host.Outcome State Fault Refusal :=
  .next (match s.slice? st.slice, s.strand? st, s.node? st idx with
  | some x, some t, some nd => (match nd.antis[k]? with
    | none => s
    | some (g, a) =>
      if !x.live || g != tgt then s
      else
        let gone := s.modNode st idx fun n => { n with antis := dropAt n.antis k }
        if nd.sent.contains (tgt, a) then gone
        else if nd.holdsAnti (effectfulOp nd.op) a then s
        else
          let s := gone.modNode st idx fun n => { n with withheld := n.withheld ++ [(tgt, a)] }
          let all := nd.targets.all fun u => u == tgt || nd.withheld.contains (u, a)
          if nd.absorbs || !all then s
          else if !nd.fired.contains a then s.cancelFiring st idx a
          else if t.owesElem idx a then s.cancelOwed st idx a
          else s)
  | _, _, _ => s)

/-! SWITCH_ADOPT (R426) -/

/-- A station takes a pending word: the first switch token of each slot leaves it, and one goes to each target; a later one of a
slot stays for its own turn (R443). -/
def State.adopt (s : State) (st : SRef) (i gen : Nat) : State :=
  match s.node? st i with
  | none => s
  | some nd =>
    let drop := dropFirst fun (e : Entry) => match e with | .switch _ => true | .tok _ _ => false
    (s.modNode st i fun n =>
      { n.adopted with
        bufA := drop n.bufA, bufB := drop n.bufB, bufC := drop n.bufC, bufP := drop n.bufP }).out st i
      (.switch gen nd.targets)

/-- The generation that a switch token in a node's slots carries. -/
def Node.switchGen (nd : Node) : Nat :=
  ((nd.bufA ++ nd.bufB ++ nd.bufC ++ nd.bufP).filterMap fun e => match e with
    | .switch g => some g
    | .tok _ _ => none).headD 0

/-- SWITCH_ADOPT (R426): every waited slot has received the switch token and no token stands ahead of one. -/
def execSwitchAdopt (st : SRef) (idx : Nat) (s : State) : Host.Outcome State Fault Refusal :=
  .next (match s.slice? st.slice, s.inst? st, s.node? st idx with
  | some x, some y, some nd =>
    if x.live && y.canAdopt idx && nd.free then s.adopt st idx nd.switchGen else s
  | _, _, _ => s)

end Sys2Proof.Machine
end

