-- ==== Sys2Proof/Machine/Barrier.lean ====
section
/-! DEFINITION. Barriers (R202–R212, R247–R250, R459): arrivals, phases, deadlines, and the instructions 0x84 to 0x8A. -/

namespace Sys2Proof.Machine

/-! Ownership and phases -/

/-- What OWNER holds for a slice: its `sliceid`, or the job number on a pod barrier (R459); none for a slice outside a
pod job there. -/
def State.ownerOf (s : State) (b : BarKey) (x : Slice) : Option Nat :=
  if b.scope = .pod then
    if s.inJob && x.field 4 30 30 == 1 then some (s.podItem.field 15 0) else none
  else some x.id

/-- Whether a slice may arrive at a barrier or wait on it: it is not FREE and the slice owns it. -/
def State.mayUse (s : State) (b : BarKey) (x : Slice) : Bool :=
  decide ((s.bar b).state ≠ .free) && decide (s.ownerOf b x = some (s.bar b).owner)

/-- Phase a is below phase p (R206). -/
def below (a p : Nat) : Bool := decide (2 ^ 31 ≤ (a + 2 ^ 32 - p % 2 ^ 32) % 2 ^ 32)

/-- LP of a strand at a barrier (R204). -/
def State.arrivalPhase (s : State) (t : Strand) (b : BarKey) : Nat :=
  let e := Table.get (0, 0) t.phases (barEntry b)
  if e.1 = (s.bar b).gen then e.2 else (s.bar b).p

/-- LP written. -/
def State.setPhase (s : State) (st : SRef) (b : BarKey) (p : Nat) : State :=
  s.modStrand st fun t => { t with phases := Table.set (0, 0) t.phases (barEntry b) ((s.bar b).gen, p % 2 ^ 32) }

/-! Reductions -/

/-- The identity of an operator (R206): `u` is U. -/
def redIdentity : Option (Bop × Bool) → Word
  | none => 0
  | some (.add, _) => 0
  | some (.max, u) => if u then 0 else 0x8000000000000000
  | some (.min, u) => if u then 0xFFFFFFFFFFFFFFFF else 0x7FFFFFFFFFFFFFFF

/-- Two values combined (R206). -/
def redCombine (op : Option (Bop × Bool)) (a b : Word) : Word :=
  match op with
  | none => a + b
  | some (.add, _) => a + b
  | some (.max, u) => BitVec.ofNat 64 (maxLane 64 u a.toNat b.toNat)
  | some (.min, u) => BitVec.ofNat 64 (minLane 64 u a.toNat b.toNat)

/-! Releases -/

/-- The result word (R247). -/
def barResult (phase gen status : Nat) : Word := BitVec.ofNat 64 (phase % 2 ^ 32 * 2 ^ 32 + gen % 256 * 256 + status)

/-- What a released wait emits: LVAL or an empty token for `BRED`, else the result word (R248). -/
def phaseOut (red : Bool) (p status : Nat) (lval : Word) : Word × Bool :=
  if red then (if status ≤ 1 then (lval, false) else (0, true)) else (barResult p 0 status, false)

/-- Every waiter of a barrier released BROKEN. -/
def State.releaseBroken (s : State) (b : BarKey) : State :=
  s.releaseWhere fun k => match k with
    | .phase c p _ red => if c = b then some (phaseOut red p 2 0) else none
    | _ => none

/-- Phase P completes with a status (R207), and the phases after it that are complete at once, at most `fuel`. -/
def State.completePhase (s : State) (b : BarKey) : Nat → Nat → State
  | 0, _ => s
  | f + 1, st =>
    let v := s.bar b
    let p' := (v.p + 1) % 2 ^ 32
    let w := { v with last := st, lval := v.val, p := p', a := v.n, val := v.nval, n := 0, nval := redIdentity v.op,
                      dl := s.earliest b p', pl := if st = 1 then p' else v.pl }
    let s := (s.setBar b w).releaseWhere fun k => match k with
      | .phase c p _ red => if c = b ∧ p = v.p then some (phaseOut red p st v.val) else none
      | _ => none
    if w.a = w.e then s.completePhase b f 0 else s

/-- A barrier broken (R209, steps 1 and 2). -/
def State.breakBar (s : State) (b : BarKey) : State := (s.setBar b { s.bar b with state := .broken }).releaseBroken b

/-- The barriers that a slice owns become FREE (R210); pod barriers belong to the job. -/
def State.freeBarriers (s : State) (id : Nat) : State :=
  { s with
    barriers := s.barriers.map fun e =>
      if e.1 % 8 ≠ 4 ∧ e.2.owner = id then (e.1, { e.2 with state := .free }) else e
  : State }.releaseWhere fun k => match k with
      | .phase c p _ red => if c.scope ≠ .pod ∧ (s.bar c).owner = id then some (phaseOut red p 2 0) else none
      | _ => none

/-! Arrivals (R206) -/

/-- What an arrival comes to. -/
inductive Arrived where
  | trap (code : Nat) (s : State)
  | hold
  | report (ph status : Nat) (s : State)

/-- OP of a barrier as a counted arrival leaves it: the first `BRED` restarts VAL and NVAL at its identity. -/
def Barrier.settleOp (v : Barrier) (op : Option (Bop × Bool)) : Barrier :=
  match v.op, op with
  | none, some o => { v with op := some o, val := redIdentity (some o), nval := redIdentity (some o) }
  | _, _ => v

/-- A barrier with one arrival counted, for its phase or, `early`, for the next; any but a `BRED`'s adds the identity
(R206). -/
def Barrier.counted (v : Barrier) (early : Bool) (x : Option (Word × Bop × Bool)) : Barrier :=
  let w := v.settleOp (x.map fun o => o.2)
  let val := match x with | some o => o.1 | none => redIdentity w.op
  if early then { w with n := w.n + 1, nval := redCombine w.op w.nval val }
  else { w with a := w.a + 1, val := redCombine w.op w.val val }

/-- One arrival of a strand at a barrier, in one step; `v` is the value of `BRED` with its operator. -/
def State.arrive (s : State) (st : SRef) (b : BarKey) (v : Option (Word × Bop × Bool)) : Arrived :=
  match s.slice? st.slice, s.strand? st with
  | some x, some t =>
    let bar := s.bar b
    let op := v.map fun o => o.2
    let ph := s.arrivalPhase t b
    if !s.mayUse b x then .trap 0x21 s
    else if bar.state = .broken then .report ph 2 s
    else if below ph bar.p then
      if below ph bar.pl then
        .report ph 3 ((s.setBar b { bar with late := min (bar.late + 1) 65535 }).setPhase st b bar.p)
      else .trap 0x20 (s.breakBar b)
    else if ph ≠ bar.p ∧ ph ≠ (bar.p + 1) % 2 ^ 32 then .hold
    else if op.isSome && bar.op.isSome && decide (op ≠ bar.op) then .trap 0x21 s
    else
      let early := decide (ph ≠ bar.p)
      let w := bar.counted early v
      let s := (s.setBar b w).setPhase st b (ph + 1)
      if early then if w.e < w.n then .trap 0x20 (s.breakBar b) else .report ph 0 s
      else .report ph 0 (if w.a = w.e then s.completePhase b 4 0 else s)
  | _, _ => .hold

/-- What a wait for a phase finds (R208): a status at once, or none. -/
def Barrier.settled (v : Barrier) (p : Nat) : Option Nat :=
  if v.state = .broken then some 2
  else if below p v.p then some (if (p + 1) % 2 ^ 32 = v.p then v.last else 0)
  else none

/-- What a wait for a phase emits when it is settled. -/
def Barrier.outOf (v : Barrier) (p : Nat) (red : Bool) : Option (Word × Bool) :=
  (v.settled p).map fun st => phaseOut red p st v.lval

/-- A deadline of a waiter on a phase enters DL (R208). -/
def State.setDeadline (s : State) (b : BarKey) (p : Nat) (d : Option Nat) : State :=
  let v := s.bar b
  match d with
  | some d => if p = v.p then s.setBar b { v with dl := some (match v.dl with | some n => min n d | none => d) } else s
  | none => s

/-- Wait `n` of a strand, for a phase, judged on the barrier as it stands. -/
def State.judgePhase (s : State) (st : SRef) (n : Nat) (b : BarKey) (p : Nat) (d : Option Nat) (red : Bool) : State :=
  match (s.bar b).outOf p red with
  | some (w, e) => s.release st n w e
  | none => s.setDeadline b p d

/-- The place of a wait among its strand's: steps at a barrier release others before it. -/
def Strand.waitAt (t : Strand) (w : Wait) : Nat :=
  t.waits.findIdx fun v => v.node == w.node && v.tok.tag == w.tok.tag && v.tok.idx == w.tok.idx

/-- `Strand.waitAt` of a strand of the package. -/
def State.waitAt (s : State) (st : SRef) (w : Wait) : Nat :=
  match s.strand? st with
  | some t => t.waitAt w
  | none => 0

/-- What an arrival's report makes of its wait `w`: it waits on for its phase, or is released. -/
def State.reported (s : State) (st : SRef) (w : Wait) (b : BarKey) (ph status : Nat) (red hold tap : Bool) : State :=
  let n := s.waitAt st w
  if tap then s.release st n w.tok.data w.tok.e
  else if hold && status == 0 then
    let s := s.modStrand st fun t => { t with waits := modAt t.waits n fun w => { w with kind := .phase b ph none red } }
    s.judgePhase st n b ph none red
  else
    let o := phaseOut red ph status 0
    s.release st n o.1 o.2

/-- Wait `n` of a strand makes its arrival, if it need not hold. -/
def State.makeArrival (s : State) (st : SRef) (n : Nat) (b : BarKey) (v : Word) (op : Option (Bop × Bool))
    (hold tap : Bool) : State :=
  match (s.strand? st).bind fun t => t.waits[n]? with
  | none => s
  | some w => match s.arrive st b (op.map fun o => (v, o)) with
    | .hold => s
    | .report ph status u => u.reported st w b ph status op.isSome hold tap
    | .trap code u => (u.unwait st (u.waitAt st w)).trapStation st w.node code 0 w.tok.tag w.tok.idx 0 0

/-- Whether wait `n` of a strand is an arrival that holds and now may be made. -/
def State.heldAt (s : State) (st : SRef) (t : Strand) (n : Nat) :
    Option (SRef × Nat × BarKey × Word × Option (Bop × Bool) × Bool × Bool) :=
  match t.waits[n]? with
  | none => none
  | some w => match w.kind with
    | .arrive b v op hold tap => (match s.arrive st b (op.map fun o => (v, o)) with
      | .hold => none
      | _ => some (st, n, b, v, op, hold, tap))
    | _ => none

/-- An arrival that holds and now may be made. -/
def State.heldArrival (s : State) : Option (SRef × Nat × BarKey × Word × Option (Bop × Bool) × Bool × Bool) :=
  s.strands.findSome? fun (e : SRef × Strand) =>
    if !s.runs e.1 then none else (List.range e.2.waits.length).findSome? fun n => s.heldAt e.1 e.2 n

/-- Held arrivals made as phases advance, at most `fuel` of them. One whose barrier `BINIT` 0 frees is made at once too,
and traps `BARSCOPE`: the model's choice (log 85). -/
def State.retryArrivals (s : State) : Nat → State
  | 0 => s
  | f + 1 => match s.heldArrival with
    | some (st, n, b, v, op, hold, tap) => (s.makeArrival st n b v op hold tap).retryArrivals f
    | none => s

/-- Held arrivals of the package. -/
def State.retries (s : State) : State := s.retryArrivals ((s.strands.map fun e => e.2.waits.length).foldl Nat.add 0)

/-- An arrival instruction's element: it traps with its operands in place, or it is consumed and arrives. -/
def arriveEff (h : Hdr) (data : List Slot) (b : BarKey) (op : Option (Bop × Bool)) (hold : Bool) (st : SRef) (i : Nat)
    (r : Ready) (s : State) : Eff :=
  match s.arrive st b (op.map fun o => (r.v.a, o)) with
  | .trap code u => .done (u.trapStation st i code 0 r.tag r.idx 0 0).retries
  | _ =>
    let n := match s.strand? st with | some t => t.waits.length | none => 0
    .done ((s.beginWait st i h data r (.arrive b r.v.a op hold false)).makeArrival st n b r.v.a op hold false).retries

/-- The barrier of the executing strand. -/
def withBar (h : Hdr) (data : List Slot) (x : BarImm) (eff : BarKey → SRef → Nat → Ready → State → Eff) (s : State) :
    Host.Outcome State Fault Refusal :=
  fireEff h data 0 0 (fun st i r s => match s.strand? st with
    | some t => eff (barKey t.core x) st i r s
    | none => .wait s) s

/-- `BARR` (R206, R248). -/
def execBarr (h : Hdr) (x : BarImm) (s : State) : Host.Outcome State Fault Refusal :=
  withBar h [.a] x (fun b => arriveEff h [.a] b none false) s

/-- `BSYNC` (R248). -/
def execBsync (h : Hdr) (x : BarImm) (s : State) : Host.Outcome State Fault Refusal :=
  withBar h [.a] x (fun b => arriveEff h [.a] b none true) s

/-- `BRED` (R248). -/
def execBred (h : Hdr) (x : BarImm) (s : State) : Host.Outcome State Fault Refusal :=
  withBar h [.a] x (fun b => arriveEff h [.a] b (some (x.bop, x.u)) true) s

/-- A wait for phase p with an optional deadline (R208). -/
def waitEff (h : Hdr) (data : List Slot) (b : BarKey) (d : Option Nat) (st : SRef) (i : Nat) (r : Ready) (s : State) : Eff :=
  match s.slice? st.slice, s.strand? st with
  | some x, some t =>
    let p := r.v.a.field 31 0
    if !s.mayUse b x then .done (s.trapStation st i 0x21 0 r.tag r.idx 0 0)
    else .done ((s.beginWait st i h data r (.phase b p d false)).judgePhase st t.waits.length b p d false)
  | _, _ => .wait s

/-- `BWAIT` (R208). -/
def execBwait (h : Hdr) (x : BarImm) (s : State) : Host.Outcome State Fault Refusal :=
  withBar h [.a] x (fun b => waitEff h [.a] b none) s

/-- `BWAITD` (R208). -/
def execBwaitd (h : Hdr) (x : BarImm) (s : State) : Host.Outcome State Fault Refusal :=
  withBar h [.a, .b] x (fun b st i r s => waitEff h [.a, .b] b (some r.v.b.toNat) st i r s) s

/-- `TAP` (R249): every element passes; the one carrying L arrives first, whatever becomes of it. -/
def execTap (h : Hdr) (x : BarImm) (s : State) : Host.Outcome State Fault Refusal :=
  fireRaw h [.a] (fun st i l r s =>
    match settle h 0 0 l, s.strand? st, tokOf l .a with
    | some (.trap _), _, _ => .done (s.trapStation st i 0x06 0 r.tag r.idx 0 0)
    | some (.settle k _), some t, some tk =>
      if !s.outRoom st i (s.targets st i) r.tag r.idx then .wait s
      else if !r.l then .done (settleEmpty h [.a] st i k r
        (fun s => (s.consume st i h [.a] r).emitData st i r (if tk.e then 0 else tk.data)) s)
      else
        let b := barKey t.core x
        let out : Word × Bool := match k with | .go => (if tk.e then 0 else tk.data, false) | _ => (0, true)
        match s.arrive st b none with
        | .trap code u => .done (u.trapStation st i code 0 r.tag r.idx 0 0).retries
        | _ =>
          let s := (s.beginWait st i h [.a] r (.arrive b 0 none false true)).modStrand st fun t =>
            { t with waits := modAt t.waits (t.waits.length - 1) fun w =>
                { w with tok := { w.tok with data := out.1, e := out.2 } } }
          .done (s.makeArrival st t.waits.length b 0 none false true).retries
    | _, _, _ => .wait s) s

/-! BINIT (R210) -/

/-- A barrier as an opening leaves it. R210 names no LVAL: it becomes 0, the model's choice (log 84). -/
def Barrier.opened' (v : Barrier) (owner e : Nat) : Barrier :=
  { Barrier.reset with state := .opened, owner := owner, gen := (v.gen + 1) % 256, e := e }

/-- An opening by a slice of this package, if one is named: the phase-table entries of its strands are rewritten (R204). -/
def State.openBar (s : State) (id : Option Nat) (b : BarKey) (owner e : Nat) : State :=
  let v := (s.bar b).opened' owner e
  let s := s.setBar b v
  match id with
  | none => s
  | some id => s.modSlice id fun x =>
    { x with strands := x.strands.map fun t => { t with phases := Table.set (0, 0) t.phases (barEntry b) (v.gen, 0) } }

/-- The `BINIT` step of owner `o` with count e (R210); none when it traps BARSCOPE. -/
def State.initAs (s : State) (id : Option Nat) (b : BarKey) (o e : Nat) : Option State :=
  let v := s.bar b
  match v.state with
  | .free => some (if e = 0 then s else s.openBar id b o e)
  | .opened =>
    if v.owner ≠ o then none
    else if e = 0 then some ((s.setBar b { v with state := .free }).releaseBroken b)
    else
      let s := s.setBar b { v with e := e }
      some (if e ≤ v.a then s.completePhase b 4 0 else s)
  | .broken =>
    if v.owner ≠ o then none
    else if e = 0 then some (s.setBar b { v with state := .free }) else some (s.openBar id b o e)

/-- The `BINIT` step of a slice with count e (R210); none when it traps BARSCOPE. -/
def State.initBar (s : State) (x : Slice) (b : BarKey) (e : Nat) : Option State :=
  match s.ownerOf b x with
  | none => none
  | some o => s.initAs (some x.id) b o e

/-- `BINIT` (R210, R248). -/
def execBinit (h : Hdr) (x : BarImm) (s : State) : Host.Outcome State Fault Refusal :=
  withBar h [.a] x (fun b st i r s =>
    match s.slice? st.slice with
    | none => .wait s
    | some sl => match s.initBar sl b (r.v.a.field 15 0) with
      | none => .done (s.trapStation st i 0x21 0 r.tag r.idx 0 0)
      | some u =>
        let v := u.bar b
        .done ((u.consume st i h [.a] r).emitData st i r (barResult v.p v.gen 0)).retries) s

/-! Pod barriers (R459) -/

/-- What a strand of another member does at a pod barrier that stands OPEN, or at its opening. -/
def State.farBar (s : State) (b : BarKey) (f : FarBar) : State :=
  let v := s.bar b
  match f with
  | .init e => (s.initAs none b (s.podItem.field 15 0) e).getD s
  | .deadline d => if v.state = .opened then s.setDeadline b v.p (some d) else s
  | .late => if v.state = .opened then s.setBar b { v with late := min (v.late + 1) 65535 } else s
  | .over => if v.state = .opened then s.breakBar b else s
  | .arrive early x =>
    if v.state ≠ .opened ∨ (x.isSome ∧ v.op.isSome ∧ x.map (fun o => o.2) ≠ v.op) then s
    else
      let w := v.counted early x
      let s := s.setBar b w
      if early then if w.e < w.n then s.breakBar b else s
      else if w.a = w.e then s.completePhase b 4 0 else s

/-- The members of the package's job other than itself (R457). -/
def State.otherMembers (s : State) : List Nat :=
  if s.inJob then (List.range 64).filter fun n => (s.cfgItem 0 6 1 0).bit n && n != s.pkgNumber else []

/-- Device time where a barrier is kept: of a pod barrier kept by another, lower-numbered member, within 20 ns of this
package's, `ahead` saying where (R459, R460). -/
def State.keeperTime (s : State) (b : BarKey) (ahead : Nat) : Nat :=
  if b.scope = .pod ∧ s.otherMembers.any fun n => decide (n < s.pkgNumber) then s.now + min ahead 40 - 20 else s.now

/-- BARRIER_DEADLINE (R208): device time has reached DL, and the phase completes LATE. At a pod barrier, what strands of other
members have done there since comes first (R459). -/
def execBarrierDeadline (e : BarDeadline) (s : State) : Host.Outcome State Fault Refusal :=
  .next (
    let b := e.bar
    let s := if b.scope = .pod ∧ !s.otherMembers.isEmpty then (e.far.foldl (fun (s : State) f => s.farBar b f) s).retries else s
    let v := s.bar b
    match v.dl with
    | some d => if v.state = .opened ∧ d ≤ s.keeperTime b e.ahead then (s.completePhase b 4 1).retries else s
    | none => s)

end Sys2Proof.Machine
end

