-- ==== Sys2Proof/Machine/Queues.lean ====
section
/-! DEFINITION. Queues (R214–R220, R466): the publish and consumed counts, appends, errors, refusals (R225), and the
continuation table (R235). -/

namespace Sys2Proof.Machine

/-- PUB of a queue with its leaf (R215): none when it cannot be read and, for an append, written. -/
def State.pub (s : State) (e : QEnt) (acc : Nat) : Option (Xlat × Nat) :=
  (s.unitLeaf e.pubaddr acc).map fun x => (x, rdNum s.mem x.pa 8)

/-- CONS of a queue with its leaf. -/
def State.cons (s : State) (e : QEnt) : Option (Xlat × Nat) :=
  (s.unitLeaf (e.pubaddr + 64) 3).map fun x => (x, rdNum s.mem x.pa 8)

/-- PUB and CONS of a queue stand in memory. -/
def State.seeCounts (s : State) (e : QEnt) : State := (s.unitSees e.pubaddr 8).unitSees (e.pubaddr + 64) 8

/-- The virtual address of entry `j`. -/
def QEnt.entry (e : QEnt) (j : Nat) : Word := e.rbase + BitVec.ofNat 64 (64 * (j % 2 ^ e.log))

/-- A queue's own handle (R216). -/
def QEnt.handle (e : QEnt) (q : Nat) : Nat := e.gen * 65536 + q

/-- The address of a queue's table entry (R214). -/
def State.tableAt (s : State) (q : Nat) : Word := s.qtbase + BitVec.ofNat 64 (32 * q)

/-- STATE of a queue set by the timetable, in its table entry too. -/
def State.setQState (s : State) (q : Nat) (st : QState) : State :=
  let s := s.setQueue q { s.queue q with state := st }
  match s.unitLeaf (s.tableAt q + 16) 1 with
  | none => s
  | some x =>
    let code := match st with | .disabled => 0 | .enabled => 1 | .error => 2 | .paged => 3
    s.owe (.write x (leBytes (rdNum s.mem x.pa 1 / 4 * 4 + code) 1))

/-- A queue goes to ERROR (R220): cause 0 PUB below CONS, 1 overrun, 2 RBASE or PUBADDR (R410). The record's ADDR (R408)
is the address of the entry that the timetable reads next (log 70). -/
def State.queueError (s : State) (q cause : Nat) : State :=
  let e := s.queue q
  let t : Trap := { Trap.bare with addr := e.entry e.read, aux := BitVec.ofNat 64 (e.handle q) }
  (s.setQState q .error).post e.eq (recordOf 2 t 0 s.now (BitVec.ofNat 64 cause))

/-! Refusals -/

/-- A field of a descriptor (R221). -/
def descField (d : List Word) (w hi lo : Nat) : Nat := (d.getD w 0).field hi lo

/-- Continuation records of an entry (R235). -/
def State.contOf (s : State) (q num : Nat) : Option Nat :=
  (s.conts.find? fun e => decide (e.2 = some (q, num))).map fun e => e.1

/-- The record of a consumed entry freed. -/
def State.freeCont (s : State) (q num : Nat) : State :=
  match s.contOf q num with
  | some k => { s with conts := Table.set none s.conts k none }
  | none => s

/-- CONS advances over an entry; a CONS that cannot be written puts the queue in ERROR. -/
def State.consume1 (s : State) (q : Nat) (n : Snap) : State :=
  let e := s.queue q
  let s := (s.setQueue q { e with snaps := e.snaps.filter fun m => decide (m.num ≠ n.num) }).freeCont q n.num
  match s.cons e with
  | some (x, _) => s.owe (.write x (leBytes (n.num + 1) 8))
  | none => if e.state = .error then s else s.queueError q 2

/-- The queue that a refusal record goes to (R225, R410). -/
def State.refusalQueue (s : State) (d : List Word) (eq : Nat) : Nat :=
  let tq := descField d 5 63 32
  if (s.handleQueue tq).isSome then tq else eq

/-- An entry refused with a code (R225). -/
def State.refuse (s : State) (q : Nat) (n : Snap) (code : Nat) : State :=
  let e := s.queue q
  let d := n.words
  let t : Trap := { Trap.bare with sub := code, addr := e.entry n.num, aux := BitVec.ofNat 64 n.num }
  let s := s.consume1 q n
  let s := if n.counted then s.loseCount (descField d 4 39 32) else s
  s.addThen { va := d.getD 6 0, flag := true, slice := 0, tq := descField d 5 63 32, eq := e.eq, scope := none,
              record := some (s.refusalQueue d e.eq, recordOf 3 t 0 s.now (BitVec.ofNat 64 (e.handle q))) }

/-! Appends (R219, R235, R251, R466) -/

/-- What an append comes to. -/
inductive Appended where
  | wait
  | stale
  | off (s : State)
  | full
  | ok (s : State) (j : Nat)

/-- Sixty-four bytes appended to a queue by handle, while no agent but `by'` holds a byte of the entry or the counts (R189,
R219); `fix` gives them for the queue and entry number, or none while the append waits for something else. -/
def State.append (s : State) (by' : Option SRef) (h : Nat) (fix : State → Nat → Nat → Option (State × List Word)) : Appended :=
  match s.handleQueue h with
  | none => .stale
  | some q =>
    let e := s.queue q
    if e.state = .disabled ∨ e.state = .error then .off s
    else
      let s := s.seeCounts e
      match s.pub e 3, s.cons e with
      | some (pub, j), some (cons, c) => (match s.unitLeaf (e.entry j) 2 with
        | none => .off (s.queueError q 2)
        | some r =>
          if s.barred by' pub.pa 8 || s.barred by' cons.pa 8 || s.barred by' r.pa 64 then .wait
          else if c + 2 ^ e.log ≤ j then (if e.state = .paged then .full else .wait)
          else match fix s q j with
            | none => .wait
            | some (s, ws) =>
              .ok ((s.storeVia .unit r r.pa (bytesOf (ws.take 8))).storeVia .unit pub pub.pa (leBytes (j + 1) 8)) j)
      | _, _ => .off (s.queueError q 2)

/-- An append of a descriptor as it is. -/
def State.appendPlain (s : State) (by' : Option SRef) (h : Nat) (d : List Word) : Appended :=
  s.append by' h fun s _ _ => some (s, d)

/-- The refusal code of an append (R463); none for one that waits. -/
def Appended.code : Appended → Nat
  | .stale => 1 | .off _ => 2 | .full => 3 | _ => 0

/-- The lowest free continuation record (R235). -/
def State.freeRecord (s : State) : Option Nat :=
  ((List.range 65535).find? fun k => (Table.get none s.conts (k + 1)).isNone).map fun k => k + 1

/-- The words of a continuation that takes record `k` (R221, R235). -/
def keyed (d : List Word) (k : Nat) : List Word :=
  d.set 4 (BitVec.ofNat 64 ((d.getD 4 0).toNat % 2 ^ 48 + k * 2 ^ 48))

/-- A continuation appended with its record. -/
def State.appendCont (s : State) (h : Nat) (d : List Word) : Appended :=
  s.append none h fun s q j => s.freeRecord.map fun k =>
    ({ s with conts := Table.set none s.conts k (some (q, j)) }, keyed d k)

/-- A chain that ends because its continuation could not be appended (R235). It has no entry: ADDR and AUX of its record
are 0, the model's choice (log 89). -/
def State.endChain (s : State) (d : List Word) (slice queue h code : Nat) : State :=
  let eq := (s.queue queue).eq
  let t : Trap := { Trap.bare with sub := code }
  s.addThen { va := d.getD 6 0, flag := true, slice := slice, tq := descField d 5 63 32, eq := eq,
              scope := some (descField d 4 39 32),
              record := some (s.refusalQueue d eq, recordOf 3 t slice s.now (BitVec.ofNat 64 h)) }

/-- The wait of an element of a station. -/
def Strand.waitOf (t : Strand) (i tag idx : Nat) : Option Nat :=
  (List.range t.waits.length).find? fun n => match t.waits[n]? with
    | some w => w.node == i && w.tok.tag == tag && w.tok.idx == idx
    | none => false

/-- What `ENQ` emits (R251, R466). -/
def enqWord : Appended → Word
  | .stale => 0x8000000000000001
  | .off _ => 0x8000000000000002
  | .full => 0x8000000000000003
  | .wait => 0
  | .ok _ j => BitVec.ofNat 64 (j % 2 ^ 63)

/-- The state after an append. -/
def Appended.state (s : State) : Appended → State
  | .off u => u
  | .ok u _ => u
  | _ => s

/-- The append of `ENQ` made, and its wait released. -/
def State.enqStep (s : State) (n h : Nat) (d : List Word) (st : SRef) (i tag idx : Nat) : State :=
  match s.appendPlain (some st) h d with
  | .wait => s
  | r =>
    let u := r.state s
    let u := { u with appends := dropAt u.appends n }
    match u.strand? st with
    | none => u
    | some t => match t.waitOf i tag idx with
      | some k => u.release st k (enqWord r) false
      | none => u

/-- The append of a continuation made, or its chain ended. -/
def State.contStep (s : State) (n h : Nat) (d : List Word) (slice queue : Nat) : State :=
  match s.appendCont h d with
  | .wait => s
  | .ok u _ => { u with appends := dropAt u.appends n }
  | r =>
    let u := r.state s
    { u with appends := dropAt u.appends n : State }.endChain d slice queue h
      (if h / 65536 ≠ 0 ∧ r.code = 1 then 0x0A else 0x0B)

/-- Waiting append `n` made, when its ring has room (R219). -/
def State.makeAppend (s : State) (n : Nat) : State :=
  match s.appends[n]? with
  | none => s
  | some a => match a.who with
    | .station st i tag idx => if s.runs st then s.enqStep n a.handle a.desc st i tag idx else s
    | .yield slice queue => s.contStep n a.handle a.desc slice queue

/-- QUEUE_APPEND (R219). -/
def execQueueAppend (n : Nat) (s : State) : Host.Outcome State Fault Refusal := .next (s.makeAppend n)

/-- An append that begins: it is made at once if it can be. -/
def State.beginAppend (s : State) (a : Append) : State :=
  ({ s with appends := s.appends ++ [a] } : State).makeAppend s.appends.length

/-! Taking up the queue table (R214, R220, R466) -/

/-- The four words of a queue's entry; none where they cannot be read. -/
def State.tableWords (s : State) (q : Nat) : Option (List Word) :=
  (s.unitAt (s.tableAt q) 1).map fun pa => wordsOf (rdBytes s.mem pa 32) 4

/-- A queue as its table entry gives it (R214). What reserved bits of an entry hold is ignored (log 73), and fields
outside their range (LOG, GEN 0, an unaligned RBASE or PUBADDR) are taken as written (log 88): the model's choices. -/
def entryOf (ws : List Word) : QEnt :=
  { rbase := ws.getD 0 0, pubaddr := ws.getD 1 0, gen := descField ws 2 63 48, log := descField ws 2 39 32,
    state := (match descField ws 2 1 0 with | 0 => .disabled | 1 => .enabled | 2 => .error | _ => .paged),
    eq := descField ws 3 31 0, read := 0, snaps := [] }

/-- Entries already read discarded with code 0x0B (R220), at most `fuel` of them. -/
def State.discard (s : State) (q : Nat) : Nat → State
  | 0 => s
  | f + 1 => match (s.queue q).snaps with
    | [] => s
    | n :: _ => (s.refuse q n 0x0B).discard q f

/-- A change of a queue's table entry observed. -/
def State.takeUp (s : State) (q : Nat) : State :=
  let s := s.unitSees (s.tableAt q) 32
  let old := s.queue q
  let new := match s.tableWords q with
    | some ws => entryOf ws
    | none => QEnt.reset
  if new.state = .disabled then (s.discard q old.snaps.length).setQueue q { new with read := 0 }
  else if new.state = .enabled ∧ old.state ≠ .enabled then
    let kept : QEnt := { new with read := old.read, snaps := old.snaps }
    match s.cons new with
    | some (_, c) => s.setQueue q { kept with read := max c old.read }
    | none => (s.setQueue q kept).queueError q 2
  else s.setQueue q { new with read := old.read, snaps := old.snaps }

/-- QUEUE_TABLE_CHANGE (R214). -/
def execQueueTableChange (q : Nat) (s : State) : Host.Outcome State Fault Refusal :=
  .next (if q < Config.queues then s.takeUp q else s)

/-! Published entries (R218, R222) -/

/-- One snapshot counted in its finish scope, or marked. -/
def State.countSnap (s : State) (q j : Nat) (ws : List Word) : State × Snap :=
  let fs := descField ws 4 39 32
  let x := s.fscope fs
  let k := descField ws 4 63 48
  let mark := decide (x.state = .free ∨ x.state = .done)
  if (ws.getD 4 0).bit 29 then
    (s, ⟨j, ws, mark, decide (k ≠ 0) && decide (Table.get none s.conts k = some (q, j))⟩)
  else if mark then (s, ⟨j, ws, true, false⟩)
  else (s.setFscope fs { x with live := (x.live + 1) % 2 ^ 32 }, ⟨j, ws, false, true⟩)

/-- Entries read from number `j` up, `n` of them; none when one has no translation. -/
def State.readEntries (s : State) (q : Nat) : Nat → Nat → Option State
  | 0, _ => some s
  | n + 1, j =>
    let e := s.queue q
    let s := s.unitSees (e.entry j) 64
    match s.unitAt (e.entry j) 1 with
    | none => none
    | some r =>
      let (s, k) := s.countSnap q j (wordsOf (rdBytes s.mem r 64) 8)
      (s.setQueue q { e with read := j + 1, snaps := e.snaps ++ [k] }).readEntries q n (j + 1)

/-- PUB_OBSERVED (R218, R220, R222). Where a newly published entry lies on a page that cannot be read, the queue goes to
ERROR with cause 2 and none of the new entries is kept, the model's choice (log 87). -/
def execPubObserved (q : Nat) (s : State) : Host.Outcome State Fault Refusal :=
  .next (
    let e := s.queue q
    if e.state ≠ .enabled then s
    else if (s.unitAt e.rbase 1).isNone then s.queueError q 2
    else
      let s := s.seeCounts e
      match s.pub e 1, s.cons e with
      | some (_, p), some (_, c) =>
        if p < c then s.queueError q 0
        else if c + 2 ^ e.log < p then s.queueError q 1
        else (match s.readEntries q (p - max c e.read) (max c e.read) with
          | some s => s
          | none => s.queueError q 2)
      | _, _ => s.queueError q 2)

end Sys2Proof.Machine
end

