-- ==== Sys2Proof/Machine/Gather.lean ====
section
/-! DEFINITION. The gathering of operand streams by instructions that fire once for a tag (R378, R382, R253). -/

namespace Sys2Proof.Machine

/-- What a firing comes to: a new state, or a trap. -/
inductive Fired where
  | ok (s : State)
  | trap (code sub : Nat)

/-- What an element of a gathered stream brings (R378, R382). -/
inductive Piece where
  | word (w : Word)
  | skip
  | forward
  | trap
  deriving DecidableEq, Repr

/-- A token under EP, when its predicate lets it through. -/
def pieceOf (h : Hdr) (t : Tok) : Piece :=
  if !t.e then .word t.data else match h.ep with
    | .absorb => .skip
    | .forward => .forward
    | .replace => .word 0
    | .trap => .trap

/-- An element with its predicate. -/
def pieceAt (h : Hdr) (l : List (Slot × Tok)) (t : Tok) : Piece :=
  match predOf h 0 l with
  | .pass => pieceOf h t
  | .mismatch => .skip
  | .forward => .forward
  | .trap => .trap

/-- One element added to what is gathered; none when it traps EMPTYTRAP. -/
def GatherSt.add (g : GatherSt) (early : Bool) : Piece → Option GatherSt
  | .word w => some (if early then { g with early := g.early ++ [w] } else { g with elems := g.elems ++ [w] })
  | .skip => some { g with skip := true }
  | .forward => some { g with forward := true }
  | .trap => none

/-- Pieces of the earlier slots added in order. -/
def GatherSt.addAll (g : GatherSt) : List Piece → Option GatherSt
  | [] => some g
  | p :: r => match g.add true p with
    | some g => g.addAll r
    | none => none

/-- How many words an instruction gathers: at least `need`, at most `all`, counted over every slot; whether a stream of
another shape traps FORMAT. -/
structure Want where
  slots : List Slot
  need : Nat
  all : Nat
  strict : Bool
  deriving DecidableEq, Repr

/-- The data slots of an instruction that arcs feed. -/
def Want.fed (w : Want) (nd : Node) : List Slot := w.slots.filter fun sl => nd.fed.contains sl

/-- The greatest number of words for the slots that are fed. -/
def Want.most (w : Want) (fed : List Slot) : Nat := if fed.length = w.slots.length then w.all else fed.length

/-- The next element to take: its tokens, the last slot's first. -/
def Inst.nextPiece (x : Inst) (i : Nat) (nd : Node) (fed : List Slot) (h : Hdr) : Option (List (Slot × Tok)) :=
  let waited := x.waited i nd.fed
  let last := lastSlot fed
  let early := fed.filter fun sl => decide (sl ≠ last)
  (nd.visible waited last).findSome? fun e =>
    let t := e.1
    let begun := nd.ext.gathers.any fun g => g.tag == t.tag
    let pairs : Option (List (Slot × Tok)) :=
      if begun then some [] else early.foldr (fun sl acc => match findTok (nd.visible waited sl) t.tag 0, acc with
        | some (u, _), some l => some ((sl, u) :: l)
        | _, _ => none) (some [])
    let pred : Option (List (Slot × Tok)) :=
      if h.pv then (findTok (nd.visible waited .p) t.tag t.idx).map fun q => [(.p, q.1)] else some []
    if !nd.pieceAhead waited early last t.tag t.idx then none
    else match pairs, pred with
    | some l, some q => some ((last, t) :: (l ++ q))
    | _, _ => none

/-- An element of an earlier slot whose index is not 0. -/
def Inst.strayPiece (x : Inst) (i : Nat) (nd : Node) (fed : List Slot) : Option Tok :=
  let waited := x.waited i nd.fed
  (fed.filter fun sl => decide (sl ≠ lastSlot fed)).findSome? fun sl =>
    ((nd.visible waited sl).find? fun e => e.1.idx != 0).map fun e => e.1

/-- The gathered state of a tag replaced, or dropped. -/
def gatherSet (l : List GatherSt) (tag : Nat) (g : Option GatherSt) : Ext :=
  let rest := l.filter fun o => o.tag != tag
  .gather (match g with | some g => rest ++ [g] | none => rest)

/-- The element that carries L fires the instruction (R378). -/
def gatherFire (st : SRef) (i : Nat) (t : Tok) (act : SRef → Nat → Nat → List Word → State → Fired) (g : GatherSt)
    (s u : State) : State :=
  let r : Ready := ⟨t.tag, 0, true, ⟨0, 0, 0⟩⟩
  let u := u.modNode st i fun n => { n with fired := ⟨t.tag, 0⟩ :: n.fired, lasts := t.tag :: n.lasts }
  if g.skip then u.emitNothing st i r
  else if g.forward then u.emitForward st i r
  else match act st i t.tag (g.early ++ g.elems) u with
    | .ok u => u
    | .trap c sub => s.trapStation st i c sub t.tag t.idx 0 0

/-- One element taken. -/
def gatherTake (h : Hdr) (w : Want) (st : SRef) (i : Nat) (nd : Node) (fed : List Slot) (l : List (Slot × Tok)) (t : Tok)
    (act : SRef → Nat → Nat → List Word → State → Fired) (s : State) : State :=
  let old := (nd.ext.gathers.find? fun g => g.tag == t.tag).getD ⟨t.tag, [], [], false, false⟩
  let own := l.filter fun e => decide (e.1 = lastSlot fed) || decide (e.1 = .p)
  let rest := l.filter fun e => decide (e.1 ≠ lastSlot fed) && decide (e.1 ≠ .p)
  match (old.addAll (rest.map fun e => pieceAt h own e.2)).bind fun g => g.add false (pieceAt h own t) with
  | none => s.trapStation st i 0x06 0 t.tag t.idx 0 0
  | some g =>
    let full := g.early.length + g.elems.length
    let bad := w.strict && !g.skip && !g.forward && (decide (t.idx + 1 ≠ g.elems.length) || decide (w.most fed < full)
      || (t.l && decide (full < w.need)))
    if bad then s.trapStation st i 0x14 0 t.tag t.idx 0 0
    else
      let u := s.modNode st i fun n => { n.take l with ext := gatherSet n.ext.gathers t.tag (if t.l then none else some g) }
      if t.l then gatherFire st i t act g s u else u

/-- An instruction that fires once for a tag (R378): it takes its next element, and fires on the one carrying L. -/
def fireGather (h : Hdr) (w : Want) (act : SRef → Nat → Nat → List Word → State → Fired) (s : State) :
    Host.Outcome State Fault Refusal :=
  atStation s fun st i s =>
    match s.inst? st, s.node? st i with
    | some x, some nd =>
      if !nd.free then s
      else
        let fed := w.fed nd
        match x.strayPiece i nd fed with
        | some t => s.trapStation st i 0x14 0 t.tag t.idx 0 0
        | none => (match x.nextPiece i nd fed h with
          | some ((sl, t) :: l) => gatherTake h w st i nd fed ((sl, t) :: l) t act s
          | _ => s)
    | _, _ => s

end Sys2Proof.Machine
end

