-- ==== Sys2Proof/Machine/Engine.lean ====
section
/-! DEFINITION. Messages: their words (R335, R380, R381), the checks made when an instruction fires (R354, R356, R383),
issue into an inbox (R339–R341), and replies (R343–R346). -/

namespace Sys2Proof.Machine

/-! The header (R335) -/

/-- OPER. -/
def operOf (w0 : Word) : Nat := w0.field 63 56
/-- PORT. -/
def portOf (w0 : Word) : Nat := w0.field 55 52
/-- SLICE. -/
def sliceOf (w0 : Word) : Nat := w0.field 31 16
/-- CORE. -/
def coreOf (w0 : Word) : Nat := w0.field 15 9

/-- A header with the fields that the device overwrites as a message leaves its core. -/
def stampHeader (w0 : Word) (fpc slice core slot : Nat) : Word :=
  BitVec.ofNat 64 (w0.toNat / 2 ^ 52 * 2 ^ 52 + fpc % 16 * 2 ^ 48 + w0.toNat / 2 ^ 32 % 2 ^ 16 * 2 ^ 32
    + slice % 2 ^ 16 * 2 ^ 16 + core % 128 * 2 ^ 9 + slot % 8 * 2 ^ 6 + w0.toNat % 64)

/-- The header of a named instruction (R380). -/
def namedHeader (port oper : Nat) (done : Bool) : Word :=
  BitVec.ofNat 64 (oper * 2 ^ 56 + port * 2 ^ 52 + (if done then 2 ^ 47 else 0))

/-- A reply route (R344). -/
def routeWord (tag index : Nat) : Word := BitVec.ofNat 64 (tag % 65536 * 2 ^ 48 + 2 ^ 31 + index % 128 * 2 ^ 24)

/-- Whether OPER is listed for PORT (R337, R462). -/
def operListed (port oper : Nat) : Bool :=
  if port = 0 ∨ port = 5 then decide (1 ≤ oper ∧ oper ≤ 7)
  else if port = 1 then decide (0x10 ≤ oper ∧ oper ≤ 0x15)
  else if port = 2 then decide (0x20 ≤ oper ∧ oper ≤ 0x24)
  else if port = 3 then decide (0x30 ≤ oper ∧ oper ≤ 0x36)
  else if port = 4 then oper == 0x40
  else if port = 6 then decide (0x60 ≤ oper ∧ oper ≤ 0x63)
  else false

/-- Reserved fields of a port-6 operation (R462). -/
def remoteReserved (ws : List Word) : Bool :=
  let f := descField ws
  let oper := operOf (ws.getD 0 0)
  decide (f 1 63 6 ≠ 0) ||
  (if oper = 0x60 then decide (f 4 63 3 ≠ 0 ∨ f 5 63 0 ≠ 0 ∨ f 6 63 0 ≠ 0)
  else if oper = 0x61 then decide (f 3 63 32 ≠ 0 ∨ f 4 63 0 ≠ 0 ∨ f 5 63 0 ≠ 0 ∨ f 6 63 0 ≠ 0)
  else if oper = 0x62 then decide (f 4 63 0 ≠ 0 ∨ f 5 63 0 ≠ 0 ∨ f 6 63 0 ≠ 0)
  else decide (f 4 63 6 ≠ 0 ∨ 9 < f 4 3 0 ∨ f 4 5 4 = 3 ∨ f 6 2 0 ≠ 0))

/-- A malformed message (R338, R462). -/
def malformed (ws : List Word) (done : Bool) : Bool :=
  let w0 := ws.getD 0 0
  let port := portOf w0
  decide (7 ≤ port) || !operListed port (operOf w0) || decide (w0.field 5 0 ≠ 0)
    || (decide (w0.field 45 39 ≠ 0) && decide (port ≠ 5)) || (w0.bit 47 && !done)
    || (port == 6 && remoteReserved ws)

/-- The tiles that a message names by id: those it fills, those it drains (R276, R381). -/
def tilesNamed (ws : List Word) : List Nat × List Nat :=
  let w1 := ws.getD 1 0
  let oper := operOf (ws.getD 0 0)
  let lo := w1.field 3 0
  let hi := w1.field 7 4
  if portOf (ws.getD 0 0) = 0 then
    if oper = 2 then (if w1.bit 4 then ([], [lo]) else ([lo], []))
    else if oper = 3 then ([lo], [])
    else if oper = 4 then ([], [lo]) else ([], [])
  else if portOf (ws.getD 0 0) = 1 then
    if oper = 0x10 ∨ oper = 0x12 then ([], [lo])
    else if oper = 0x13 then ([hi], [])
    else if oper = 0x15 then ([hi], [lo]) else ([], [])
  else ([], [])

/-! The planes as matrix operations will find them (R354) -/

/-- Format, K and N of both planes. -/
structure Planes where
  active : Nat × Nat × Nat
  shadow : Nat × Nat × Nat
  deriving DecidableEq, Repr

/-- Bits of an element of a format (R354). -/
def fmtBits (f : Nat) : Nat :=
  if f = 1 ∨ f = 2 then 16 else if f = 3 ∨ f = 4 ∨ f = 5 then 8 else if f = 6 then 4 else 0

/-- The planes after a matrix message. -/
def State.planesAfter (s : State) (core slot : Nat) (p : Planes) (ws : List Word) : Planes :=
  let oper := operOf (ws.getD 0 0)
  if oper = 0x10 then
    let e := s.tile (128 * core + 16 * slot + (ws.getD 1 0).field 3 0)
    { p with shadow := (e.fmt, e.rows, e.cols) }
  else if oper = 0x11 then ⟨p.shadow, p.active⟩ else p

/-- The matrix unit of a core. -/
def State.unit (s : State) (core : Nat) : Mx := Table.get Mx.reset s.mx core

/-- The planes that a matrix instruction of a strand will find: every matrix operation fired before it has taken effect,
but for those that change no plane, which end with an error (R354, R384). -/
def State.planes (s : State) (t : Strand) : Planes :=
  let u := s.unit t.core
  let p : Planes := ⟨(u.active.fmt, u.active.k, u.active.n), (u.shadow.fmt, u.shadow.k, u.shadow.n)⟩
  let p := s.ops.foldl (fun p o =>
    if o.inbox = 128 + t.core ∧ o.stage ≠ .ended then
      s.planesAfter t.core ((o.words.getD 0 0).field 8 6) p o.words else p) p
  t.msgs.foldl (fun p m =>
    if m.port = 1 ∧ m.fault.isNone ∧ (m.fills ++ m.drains).all (fun k => (s.tile k).defd) then
      s.planesAfter t.core t.slot p m.words
    else p) p

/-- What the checks on a matrix message find, as a trap code: FORMAT 0x14 or SHAPE 0x10 (R354, R383, R390). -/
def matrixCheck (p : Planes) (tile : Nat → TileEnt) (ws : List Word) : Option Nat :=
  let oper := operOf (ws.getD 0 0)
  let src := tile ((ws.getD 1 0).field 3 0)
  let dst := tile ((ws.getD 1 0).field 7 4)
  let r0 := (ws.getD 2 0).toNat
  let weights : Option Nat :=
    if fmtBits src.fmt = 0 then some 0x14
    else if 4096 / fmtBits src.fmt < src.rows ∨ 256 < src.cols then some 0x10 else none
  let acts : Option Nat :=
    if fmtBits src.fmt = 0 ∨ fmtBits src.fmt ≠ fmtBits p.active.1 then some 0x14
    else if src.cols ≠ p.active.2.1 ∨ 1024 < r0 + src.rows then some 0x10 else none
  let dest : Option Nat := if 256 < dst.cols ∨ 1024 < r0 + dst.rows then some 0x10 else none
  if oper = 0x10 then weights
  else if oper = 0x12 then acts
  else if oper = 0x13 then dest
  else if oper = 0x14 then
    let n := (ws.getD 3 0).toNat
    if n = 0 ∨ 1024 < n ∨ 1024 < r0 + n then some 0x10 else none
  else if oper = 0x15 then
    match acts with
    | some c => some c
    | none => if dst.rows ≠ src.rows then some 0x10 else dest
  else none

/-- ALIAS (R356): a readout's destination is still read as an activation or weight tile. -/
def State.aliased (s : State) (t : Strand) (ws : List Word) : Bool :=
  let (fills, drains) := tilesNamed ws
  let key := fun n => t.tileKey n
  fills.any fun f => drains.contains f
    || t.msgs.any (fun m => m.port == 1 && m.drains.contains (key f))
    || s.ops.any fun o => decide (o.inbox = 128 + t.core) && o.drains.contains (key f)

/-- The trap of a named message at its firing (R383). -/
def State.messageTrap (s : State) (st : SRef) (t : Strand) (ws : List Word) : Option Nat :=
  let port := portOf (ws.getD 0 0)
  let oper := operOf (ws.getD 0 0)
  let (fills, drains) := tilesNamed ws
  let tile := fun n => s.tile (t.tileKey n)
  if port = 1 ∧ s.mxOwner t.core ≠ some st then some 0x16
  else if (fills ++ drains).any fun n => !(tile n).defd then some 0x12
  else if port = 1 then
    match matrixCheck (s.planes t) tile ws with
    | some c => some c
    | none => if (oper = 0x13 ∨ oper = 0x15) ∧ s.aliased t ws then some 0x11 else none
  else if port = 2 ∧ (oper = 0x21 ∨ oper = 0x22 ∨ oper = 0x24)
      ∧ (s.region ((ws.getD 1 0).field 7 0)).state ≠ .opened then some 0x15
  else none

/-- The status with which a message built with `SEND` ends at once (R338, R354, R384). -/
def State.messageFault (s : State) (st : SRef) (t : Strand) (ws : List Word) (done : Bool) : Option (Nat × Nat) :=
  let port := portOf (ws.getD 0 0)
  let oper := operOf (ws.getD 0 0)
  if malformed ws done then some (0x01, 0)
  else if port = 5 ∧ (2 ≤ oper ∧ oper ≤ 4) then some (0x01, 0)
  else if port = 1 then
    if s.mxOwner t.core ≠ some st then some (0x07, 1)
    else
      let (fills, drains) := tilesNamed ws
      if (fills ++ drains).any fun n => !(s.tile (t.tileKey n)).defd then none
      else match matrixCheck (s.planes t) (fun n => s.tile (t.tileKey n)) ws with
        | some c => some (if c = 0x14 then 0x04 else 0x05, 0)
        | none => none
  else none

/-! Firing (R378–R384) -/

/-- A message fired joins its strand's messages. -/
def State.fireMessage (s : State) (st : SRef) (i tag : Nat) (ws : List Word) (done named : Bool)
    (fault : Option (Nat × Nat)) : State :=
  match s.strand? st with
  | none => s
  | some t =>
    let (fills, drains) := if fault.isSome then ([], []) else tilesNamed ws
    let m : Msg := { node := i, tag := tag, words := ws, done := done, named := named, fills := fills.map t.tileKey,
                     drains := drains.map t.tileKey, fault := fault, seq := s.cycles }
    s.modStrand st fun t => { t with msgs := t.msgs ++ [m] }

/-- The captured `fpc` of a strand's instance. -/
def State.capturedFpc (s : State) (st : SRef) : Nat :=
  match s.inst? st with
  | some x => x.fpc
  | none => 0

/-- The words of a message as they leave the core: header stamped, and the reply route or counter. -/
def State.stamped (s : State) (st : SRef) (t : Strand) (i tag : Nat) (ws : List Word) (route : Bool) : List Word :=
  let w0 := stampHeader (ws.getD 0 0) (s.capturedFpc st) st.slice t.core t.slot
  w0 :: ((List.range 6).map fun k => ws.getD (k + 1) 0) ++ [if route then routeWord tag i else ws.getD 7 0]

/-- The words of a named message (R380): its header, w1 to w6, and the word that names where its reply goes. -/
def messageWords (port oper : Nat) (done : Bool) (o : List Word × Word) : List Word :=
  namedHeader port oper done :: ((List.range 6).map fun k => o.1.getD k 0) ++ [counterAt o.2]

/-- A firing that traps where a check finds a trap code. -/
def firedOr (c : Option Nat) (s : State) : Fired :=
  match c with
  | some c => .trap c 0
  | none => .ok s

/-- A named message instruction (R378–R383): `lay` gives w1 to w6 and the reply word from the operands. -/
def fireNamed (h : Hdr) (x : EngImm) (w : Want) (port oper : Nat) (lay : List Word → List Word × Word) (s : State) :
    Host.Outcome State Fault Refusal :=
  fireGather h w (fun st i tag ops s =>
    match s.strand? st with
    | none => .ok s
    | some t =>
      firedOr (s.messageTrap st t (messageWords port oper x.done (lay ops))) (s.fireMessage st i tag
        (s.stamped st t i tag (messageWords port oper x.done (lay ops)) x.done) x.done true none)) s

/-- `SEND` (R384). -/
def execSend (h : Hdr) (x : EngImm) (s : State) : Host.Outcome State Fault Refusal :=
  fireGather h ⟨[.a], 8, 8, true⟩ (fun st i tag ws s =>
    match s.strand? st with
    | none => .ok s
    | some t =>
      let rk := (ws.getD 0 0).bit 47
      .ok (s.fireMessage st i tag (s.stamped st t i tag ws (rk && x.done)) x.done false (s.messageFault st t ws x.done))) s

/-! Named instructions -/

/-- A tile id as a word. -/
def idWord (b : BitVec 4) (sh : Nat) : Word := BitVec.ofNat 64 (b.toNat * 2 ^ sh)

/-- `COPY` (R385, R386). -/
def execCopy (h : Hdr) (dec : Bool) (x : EngImm) (s : State) : Host.Outcome State Fault Refusal :=
  fireNamed h x ⟨[.a, .b, .c], 3, 4, true⟩ 0 0x01 (fun o =>
    ([o.getD 0 0, o.getD 1 0, o.getD 2 0, Word.ofBool dec], o.getD 3 0)) s

/-- `CFILL` (R385). -/
def execCfill (h : Hdr) (x : EngImm) (s : State) : Host.Outcome State Fault Refusal :=
  fireNamed h x ⟨[.a, .b, .c], 3, 4, true⟩ 0 0x05 (fun o => ([o.getD 0 0, o.getD 1 0, o.getD 2 0], o.getD 3 0)) s

/-- The operands of `PUT` and `GET`. -/
def remoteLay (o : List Word) : List Word × Word :=
  ([o.getD 0 0, o.getD 1 0, o.getD 2 0, BitVec.ofNat 64 ((o.getD 3 0).field 5 0)], o.getD 4 0)

/-- `PUT` (R385). -/
def execPut (h : Hdr) (x : EngImm) (s : State) : Host.Outcome State Fault Refusal :=
  fireNamed h x ⟨[.a, .b, .c], 4, 5, true⟩ 0 0x06 remoteLay s

/-- `GET` (R385). -/
def execGet (h : Hdr) (x : EngImm) (s : State) : Host.Outcome State Fault Refusal :=
  fireNamed h x ⟨[.a, .b, .c], 4, 5, true⟩ 0 0x07 remoteLay s

/-- `COPY2.in` (R387). -/
def execCopy2In (h : Hdr) (dec : Bool) (x : EngImm) (s : State) : Host.Outcome State Fault Refusal :=
  fireNamed h x ⟨[.a], 1, 3, true⟩ 0 0x02 (fun o =>
    ([idWord x.td 0 + (if dec then 32 else 0), o.getD 0 0, o.getD 1 0], o.getD 2 0)) s

/-- `COPY2.out` (R387). -/
def execCopy2Out (h : Hdr) (dec : Bool) (x : EngImm) (s : State) : Host.Outcome State Fault Refusal :=
  fireNamed h x ⟨[.a], 1, 3, true⟩ 0 0x02 (fun o =>
    ([idWord x.ts1 0 + 16 + (if dec then 32 else 0), o.getD 0 0, o.getD 1 0], o.getD 2 0)) s

/-- `GATH` (R388). -/
def execGath (h : Hdr) (x : EngImm) (s : State) : Host.Outcome State Fault Refusal :=
  fireNamed h x ⟨[.a, .b], 2, 4, true⟩ 0 0x03 (fun o =>
    ([idWord x.td 0, o.getD 0 0, o.getD 1 0, o.getD 2 0], o.getD 3 0)) s

/-- `SCAT` (R388). -/
def execScat (h : Hdr) (x : EngImm) (s : State) : Host.Outcome State Fault Refusal :=
  fireNamed h x ⟨[.a, .b], 2, 4, true⟩ 0 0x04 (fun o =>
    ([idWord x.ts1 0, o.getD 0 0, o.getD 1 0, o.getD 2 0], o.getD 3 0)) s

/-- Bits [hi:lo] of a word as a word. -/
def bitsOf (w : Word) (hi lo : Nat) : Word := BitVec.ofNat 64 (w.field hi lo)

/-- A matrix instruction: a, and the reply on b (R379). -/
def fireMatrix (h : Hdr) (x : EngImm) (oper : Nat) (lay : Word → List Word) (s : State) :
    Host.Outcome State Fault Refusal :=
  fireNamed h x ⟨[.a, .b], 1, 2, true⟩ 1 oper (fun o => (lay (o.getD 0 0), o.getD 1 0)) s

/-- `LDW` (R390). -/
def execLdw (h : Hdr) (x : EngImm) (s : State) : Host.Outcome State Fault Refusal :=
  fireMatrix h x 0x10 (fun _ => [idWord x.ts1 0]) s

/-- `SWAPW` (R390). -/
def execSwapw (h : Hdr) (x : EngImm) (s : State) : Host.Outcome State Fault Refusal :=
  fireMatrix h x 0x11 (fun _ => []) s

/-- `MMA` (R390). -/
def execMma (h : Hdr) (x : EngImm) (s : State) : Host.Outcome State Fault Refusal :=
  fireMatrix h x 0x12 (fun a => [idWord x.ts1 0, bitsOf a 9 0]) s

/-- `ACCRD` (R390). -/
def execAccrd (h : Hdr) (x : EngImm) (s : State) : Host.Outcome State Fault Refusal :=
  fireMatrix h x 0x13 (fun a => [idWord x.td 4, bitsOf a 9 0]) s

/-- `ACCZ` (R379, R390). -/
def execAccz (h : Hdr) (x : EngImm) (s : State) : Host.Outcome State Fault Refusal :=
  fireMatrix h x 0x14 (fun a => [0, bitsOf a 9 0, bitsOf a 20 10, bitsOf a 21 21]) s

/-- `MMAW` (R390). -/
def execMmaw (h : Hdr) (x : EngImm) (s : State) : Host.Outcome State Fault Refusal :=
  fireMatrix h x 0x15 (fun a => [idWord x.ts1 0 + idWord x.td 4, bitsOf a 9 0]) s

/-- A `YARD` sub-operation on a region with the reply on b (R379). -/
def fireYard (h : Hdr) (x : EngImm) (oper : Nat) (s : State) : Host.Outcome State Fault Refusal :=
  fireNamed h x ⟨[.a, .b], 1, 2, true⟩ 2 oper (fun o => ([bitsOf (o.getD 0 0) 7 0], o.getD 1 0)) s

/-- `YARD.define` (R392). -/
def execYardDefine (h : Hdr) (x : EngImm) (s : State) : Host.Outcome State Fault Refusal :=
  fireNamed h x ⟨[.a, .b, .c], 3, 5, true⟩ 2 0x20 (fun o =>
    ([o.getD 0 0, o.getD 1 0, o.getD 2 0, o.getD 3 0], o.getD 4 0)) s

/-- `YARD.apply` (R392). -/
def execYardApply (h : Hdr) (x : EngImm) (s : State) : Host.Outcome State Fault Refusal := fireYard h x 0x21 s

/-- `YARD.reset` (R392). -/
def execYardReset (h : Hdr) (x : EngImm) (s : State) : Host.Outcome State Fault Refusal := fireYard h x 0x22 s

/-- `YARD.stat` (R392). -/
def execYardStat (h : Hdr) (x : EngImm) (s : State) : Host.Outcome State Fault Refusal :=
  fireNamed h x ⟨[.a, .b], 1, 3, true⟩ 2 0x23 (fun o => ([bitsOf (o.getD 0 0) 7 0, o.getD 1 0], o.getD 2 0)) s

/-- `YARD.close` (R392). -/
def execYardClose (h : Hdr) (x : EngImm) (s : State) : Host.Outcome State Fault Refusal := fireYard h x 0x24 s

/-- `ROTE.open` (R394). -/
def execRoteOpen (h : Hdr) (x : EngImm) (s : State) : Host.Outcome State Fault Refusal :=
  fireNamed h x ⟨[.a, .b, .c], 3, 4, true⟩ 3 0x30 (fun o =>
    ([bitsOf (o.getD 0 0) 11 0, o.getD 1 0, o.getD 2 0], o.getD 3 0)) s

/-- `ROTE.append` (R394). -/
def execRoteAppend (h : Hdr) (x : EngImm) (s : State) : Host.Outcome State Fault Refusal :=
  fireNamed h x ⟨[.a, .b, .c], 3, 4, true⟩ 3 0x31 (fun o =>
    ([bitsOf (o.getD 0 0) 11 0, o.getD 1 0, o.getD 2 0], o.getD 3 0)) s

/-- `ROTE.propose` (R394). -/
def execRotePropose (h : Hdr) (x : EngImm) (s : State) : Host.Outcome State Fault Refusal :=
  fireNamed h x ⟨[.a, .b, .c], 3, 4, true⟩ 3 0x32 (fun o =>
    ([bitsOf (o.getD 0 0) 11 0, o.getD 1 0, o.getD 2 0], o.getD 3 0)) s

/-- A `ROTE` sub-operation with an address (R394). -/
def fireRote (h : Hdr) (x : EngImm) (oper : Nat) (s : State) : Host.Outcome State Fault Refusal :=
  fireNamed h x ⟨[.a, .b], 2, 3, true⟩ 3 oper (fun o => ([bitsOf (o.getD 0 0) 11 0, o.getD 1 0], o.getD 2 0)) s

/-- `ROTE.stat` (R394). -/
def execRoteStat (h : Hdr) (x : EngImm) (s : State) : Host.Outcome State Fault Refusal := fireRote h x 0x33 s

/-- `ROTE.save` (R394). -/
def execRoteSave (h : Hdr) (x : EngImm) (s : State) : Host.Outcome State Fault Refusal := fireRote h x 0x34 s

/-- `ROTE.load` (R394). -/
def execRoteLoad (h : Hdr) (x : EngImm) (s : State) : Host.Outcome State Fault Refusal := fireRote h x 0x35 s

/-- `ROTE.close` (R394). -/
def execRoteClose (h : Hdr) (x : EngImm) (s : State) : Host.Outcome State Fault Refusal :=
  fireNamed h x ⟨[.a, .b], 1, 2, true⟩ 3 0x36 (fun o => ([bitsOf (o.getD 0 0) 11 0], o.getD 1 0)) s

/-! Issue (R339–R341) -/

/-- The number of the inbox that a message enters (R336). -/
def inboxOf (ws : List Word) : Nat :=
  let w0 := ws.getD 0 0
  match portOf w0 with
  | 0 => coreOf w0
  | 1 => 128 + coreOf w0
  | 2 => 256 + dieOf (coreOf w0)
  | 3 => 260 + (ws.getD 1 0).field 11 10
  | 4 => 264
  | 5 => w0.field 45 39
  | _ => 265

/-- Messages that wait in an inbox. -/
def State.inboxLoad (s : State) (k : Nat) : Nat := (s.ops.filter fun o => o.inbox == k && o.stage == .inbox).length

/-- Whether every tile of a message is in its state with the message first there (R277). -/
def State.msgTurn (s : State) (t : Strand) (m : Msg) : Bool :=
  s.msgMet m && (m.fills ++ m.drains).all fun k => s.tileTurn t k m.seq m.node

/-- A message leaves its strand. -/
def State.dropMsg (s : State) (st : SRef) (n : Nat) : State := s.modStrand st fun t => { t with msgs := dropAt t.msgs n }

/-- The code of a region's state (R293). -/
def RegionState.code : RegionState → Nat
  | .free => 0 | .opened => 1 | .closing => 2

/-- Word e2 of a region entry (R293). -/
def Region.e2 (r : Region) : Word :=
  BitVec.ofNat 64 (r.spills % 2 ^ 32 * 2 ^ 32 + r.state.code * 2 ^ 30 + (if r.nv then 2 ^ 26 else 0)
    + (if r.ovf then 2 ^ 25 else 0) + (if r.inexact then 2 ^ 24 else 0) + r.anchor % 256 * 2 ^ 16 + r.type % 16 * 2 ^ 12
    + r.opr % 8)

/-- What a message reads at its fork: `YARD.stat` reads e2 there (R307). -/
def State.forkResult (s : State) (ws : List Word) : Option Word :=
  if portOf (ws.getD 0 0) = 2 ∧ operOf (ws.getD 0 0) = 0x23 then some (s.region ((ws.getD 1 0).field 7 0)).e2 else none

/-- The operation that a message begins. -/
def State.opOf (s : State) (t : Strand) (m : Msg) (stage : OpStage) (status rcode : Nat) : Op :=
  { id := s.nextOp, words := m.words, rank := t.rank, index := m.node, tag := m.tag, pc := t.pc, done := m.done && (m.words.getD 0 0).bit 47,
    inbox := inboxOf m.words, stage := stage, fills := m.fills, drains := m.drains, left := [], part := [],
    shape := (m.fills ++ m.drains).head?.map (fun k => (k, s.tile k)), bufs := [], rows := [], idxs := [],
    status := status, rcode := rcode, result := s.forkResult m.words, mxstat := 0, epoch := s.epoch, ts := s.ptOf t.core, trap := none }

/-- The done token with data 0 that a `SEND` with DONE = 1 and RK = 0 makes at its issue (R384). -/
def State.sentToken (s : State) (st : SRef) (m : Msg) : State :=
  if m.done && !(m.words.getD 0 0).bit 47 then s.emit st m.node ⟨0, m.tag, 0, true, false⟩ else s

/-- A message that goes to no engine: its reply is due. -/
def State.issueFault (s : State) (st : SRef) (t : Strand) (n : Nat) (m : Msg) (code rcode : Nat) : State :=
  let o := { s.opOf t m .ended code rcode with
    fills := [], drains := [], mxstat := if m.port = 1 then (s.unit t.core).stat else 0 }
  (({ s with ops := s.ops ++ [o], nextOp := s.nextOp + 1 } : State).dropMsg st n).sentToken st m

/-- A message enters its inbox, and its tiles move (R341). A sort-yard message seals the bin epoch of its fork. -/
def State.issueMessage (s : State) (st : SRef) (t : Strand) (n : Nat) (m : Msg) : State :=
  let o := s.opOf t m .inbox 0 0
  let s := m.fills.foldl (fun s k => s.setTile k { s.tile k with state := .filling }) s
  let s := m.drains.foldl (fun s k => s.setTile k { s.tile k with state := .draining }) s
  let s := { s with ops := s.ops ++ [o], nextOp := s.nextOp + 1,
                    epoch := if portOf (m.words.getD 0 0) = 2 then s.epoch + 1 else s.epoch }
  (s.dropMsg st n).sentToken st m

/-- Whether message `n` of a strand is ready to leave its core (R340): its tiles admit it, and of matrix messages none fired before
it waits. -/
def State.msgReady (s : State) (t : Strand) (n : Nat) (m : Msg) : Bool :=
  !(m.port == 1 && (t.msgs.take n).any fun o => o.port == 1) && (m.fault.isSome || s.msgTurn t m)

/-- The cycle since which a message that is ready has been so: that of its firing, or of the last change of one of its tiles. -/
def State.readySince (s : State) (m : Msg) : Nat :=
  (m.fills ++ m.drains).foldl (fun n k => max n (Table.get 0 s.tileSince k)) m.seq

/-- Whether a message of the strand that became ready before message `n` still has to leave (R340); one whose inbox is full waits
there (R339), and holds back only those for the same inbox. -/
def State.leavesAfter (s : State) (t : Strand) (n : Nat) (m : Msg) : Bool :=
  (List.range t.msgs.length).any fun k => match t.msgs[k]? with
    | some o => decide (k ≠ n) && s.msgReady t k o
        && decide (s.readySince o < s.readySince m ∨ (s.readySince o = s.readySince m ∧ k < n))
        && (o.fault.isSome || inboxOf o.words == inboxOf m.words || decide (s.inboxLoad (inboxOf o.words) < Config.inboxSize))
    | none => false

/-- MESSAGE_ISSUE (R339–R341): message `n` of a strand issues when its tiles, the matrix messages before it and its inbox
admit it. -/
def execMessageIssue (st : SRef) (n : Nat) (s : State) : Host.Outcome State Fault Refusal :=
  .next (match s.strand? st with
  | none => s
  | some t => match t.msgs[n]? with
    | none => s
    | some m =>
      if !s.runs st || !s.msgReady t n m || s.leavesAfter t n m then s
      else match m.fault with
        | some (c, r) => s.issueFault st t n m c r
        | none =>
          if m.named && (m.fills ++ m.drains).any fun k => !(s.tile k).defd then
            s.trapStation st m.node 0x12 0 m.tag 0 0 0
          else if Config.inboxSize ≤ s.inboxLoad (inboxOf m.words) then s
          else if (m.fills ++ m.drains).any fun k => !(s.tile k).defd then s.issueFault st t n m 0x09 0
          else s.issueMessage st t n m)

/-! Operations -/

/-- An operation. -/
def State.op? (s : State) (n : Nat) : Option Op := s.ops[n]?

/-- An operation changed. -/
def State.modOp (s : State) (n : Nat) (f : Op → Op) : State := { s with ops := modAt s.ops n f }

/-- The core whose unit performs an operation. -/
def Op.core (o : Op) : Nat := if o.inbox < 128 then o.inbox else coreOf (o.words.getD 0 0)

/-- Who makes an operation's accesses (R284): its issuing core, not below the timestamp of its fork. -/
def Op.party (o : Op) : Party := ⟨some (coreOf (o.words.getD 0 0)), o.ts⟩

/-- Whether every earlier message of an operation's inbox has started. -/
def State.opFirst (s : State) (n : Nat) (o : Op) : Bool := !(s.ops.take n).any fun p => p.inbox == o.inbox && p.stage == .inbox

/-- Whether every earlier operation of an operation's inbox has ended. -/
def State.opAlone (s : State) (n : Nat) (o : Op) : Bool := !(s.ops.take n).any fun p => p.inbox == o.inbox && p.stage != .ended

/-- The tiles of an operation move to READY and EMPTY (R341). -/
def State.releaseTiles (s : State) (o : Op) : State :=
  let s := o.fills.foldl (fun s k => s.setTile k { s.tile k with state := .ready }) s
  o.drains.foldl (fun s k =>
    s.setTile k { s.tile k with state := if (o.words.getD 0 0).bit 46 then .ready else .empty }) s

/-- An operation ends (R345): its tiles move, and its reply is due. -/
def State.endOp (s : State) (n : Nat) (status rcode : Nat) (result : Option Word) : State :=
  match s.op? n with
  | none => s
  | some o => (s.releaseTiles o).modOp n fun o =>
    { o with stage := .ended, fills := [], drains := [], left := [], part := [], bufs := [], rows := [], status := status, rcode := rcode, result := result,
             trap := if status = 0x100 then some 0x50 else o.trap }

/-- What a translation for an operation gives. -/
inductive OpGot where
  | ok (s : State) (x : Xlat)
  | wait (s : State)
  | bad (s : State) (code : Nat)

/-- An operation's translation of an address (R345, R350). -/
def State.opXlate (s : State) (o : Op) (va : Word) (acc : Nat) : OpGot :=
  let core := o.core
  let judge := fun (s : State) (x : Xlat) => if permits x.leaf acc then OpGot.ok s x else .bad s 0x03
  if !canonical va then .bad s 0x02
  else match s.tlbFind core va.toNat with
    | some e => judge s (e.at' va.toNat)
    | none =>
      if s.walks.any fun w => decide (w.who = .oper o.id ∧ w.va = va) && w.posted then .wait s
      else if !s.walkFree (dieOf core) then .wait (s.requestWalk ⟨core, va, acc, .oper o.id, false⟩)
      else match s.walkVia core va with
        | (.leaf x, u) => judge { u with walks := u.walks.filter fun w => !(decide (w.who = .oper o.id ∧ w.va = va)) } x
        | (.fault, u) => .bad u 0x02
        | (.miss, u) => .wait (u.requestWalk ⟨core, va, acc, .oper o.id, false⟩)

/-- What an element access of an operation comes to. -/
inductive Io where
  | ok (s : State) (bs : List Byte)
  | wait (s : State)
  | bad (s : State) (code : Nat)

/-- Bytes of memory read within one aligned 64-byte unit; `fmt` is the page format that the page must have. -/
def State.opReadIn (s : State) (o : Op) (fmt : Option Nat) (va : Word) (n : Nat) : Io :=
  match s.opXlate o va 1 with
  | .wait s => .wait s
  | .bad s c => .bad s c
  | .ok s x =>
    if fmt.any fun f => f != x.fmt then .bad s 0x04
    else if s.barred none x.pa n then .wait s
    else
      let s := s.loadVia o.party x x.pa n
      if s.poisoned x.pa n then .bad s 0x100 else .ok s (rdBytes s.mem x.pa n)

/-- Bytes of memory read within one aligned 64-byte unit. -/
def State.opRead1 (s : State) (o : Op) (va : Word) (n : Nat) : Io := s.opReadIn o none va n

/-- Bytes of memory written within one aligned 64-byte unit; `fmt` is the page format that the page must have. -/
def State.opWriteIn (s : State) (o : Op) (fmt : Option Nat) (va : Word) (bs : List Byte) : Io :=
  match s.opXlate o va 2 with
  | .wait s => .wait s
  | .bad s c => .bad s c
  | .ok s x =>
    if fmt.any fun f => f != x.fmt then .bad s 0x04
    else if s.barred none x.pa bs.length then .wait s
    else .ok (s.storeVia o.party x x.pa bs) []

/-- Bytes of memory written within one aligned 64-byte unit. -/
def State.opWrite1 (s : State) (o : Op) (va : Word) (bs : List Byte) : Io := s.opWriteIn o none va bs

/-- A step of an operation: it goes on, waits, or ends with an error. -/
def Io.then (r : Io) (n : Nat) (go : State → List Byte → State) : State :=
  match r with
  | .wait s => s
  | .bad s c => s.endOp n c 0 none
  | .ok s bs => go s bs

/-- Bytes of a tile row range, at a place of local space; the bank must be in SCRATCH mode (R270, R345). -/
def State.localOpen (s : State) (k n : Nat) : Bool :=
  let a := (k - 281474976710656) / 262144
  let b := (k + n - 1 - 281474976710656) / 262144
  decide ((s.bank (a / 16) (a % 16)).mode = .scratch) && decide ((s.bank (b / 16) (b % 16)).mode = .scratch)

/-- Local bytes read by an operation. -/
def State.localRead (s : State) (k n : Nat) : Io :=
  if !s.localOpen k n then .bad s 0x08
  else if s.barred none k n then .wait s
  else if s.poisoned k n then .bad s 0x100 else .ok s (s.rdAt k n)

/-- Local bytes written by an operation. -/
def State.localWrite (s : State) (k : Nat) (bs : List Byte) : Io :=
  if !s.localOpen k bs.length then .bad s 0x08
  else if s.barred none k bs.length then .wait s else .ok (s.wrAt k bs) []

/-! Element accesses: one is one event (R278, R348) -/

/-- The bytes of one element access: of memory, by virtual address, in a page of the format `fmt` if it is given, or of
local space, by place. -/
structure Span where
  inMem : Bool
  addr : Nat
  len : Nat
  fmt : Option Nat
  deriving DecidableEq, Repr

/-- The element accesses of `n` bytes at `a`. -/
def spansIn (inMem : Bool) (a n : Nat) (fmt : Option Nat) : List Span :=
  (piecesOf a n).map fun p => ⟨inMem, p.1, p.2, fmt⟩

/-- An element access that reads. -/
def State.spanRead (s : State) (o : Op) (p : Span) : Io :=
  if p.inMem then s.opReadIn o p.fmt (BitVec.ofNat 64 p.addr) p.len else s.localRead p.addr p.len

/-- An element access that writes. -/
def State.spanWrite (s : State) (o : Op) (p : Span) (bs : List Byte) : Io :=
  if p.inMem then s.opWriteIn o p.fmt (BitVec.ofNat 64 p.addr) bs else s.localWrite p.addr bs

/-- The bytes of a range laid out over its element accesses. -/
def splitOver : List Span → List Byte → List (Span × List Byte)
  | [], _ => []
  | p :: r, bs => (p, bs.take p.len) :: splitOver r (bs.drop p.len)

/-- How far a unit of an operation's work has come. -/
def Op.prog (o : Op) (u : Nat) : Prog := (o.part.find? fun p => p.unit == u).getD ⟨u, [], []⟩

/-- The progress of a unit noted. -/
def Op.setProg (o : Op) (p : Prog) : Op := { o with part := p :: o.part.filter fun q => q.unit != p.unit }

/-- A unit's work forgotten: it is done, or another part of it begins. -/
def Op.dropProg (o : Op) (u : Nat) : Op := { o with part := o.part.filter fun q => q.unit != u }

/-- The bytes that access `k` of a unit has read. -/
def Prog.read (g : Prog) (k : Nat) : Option (List Byte) := (g.got.find? fun e => e.1 == k).map fun e => e.2

/-- The first of some accesses that does not wait, with its number: one that waits has reported its miss and holds no other back
(R350). -/
def firstIo {α : Type} (act : State → α → Io) : State → List (Nat × α) → Nat × Io
  | s, [] => (0, .wait s)
  | s, (k, a) :: r => match act s a with
    | .wait u => firstIo act u r
    | .ok u bs => (k, .ok u bs)
    | .bad u c => (k, .bad u c)

/-- The accesses of a unit that are still to be made, by number. -/
def still {α : Type} (made : Nat → Bool) (l : List α) : List (Nat × α) :=
  (l.mapIdx fun k a => (k, a)).filter fun e => !made e.1

/-- The reading accesses of a unit that are still to be made, by number. -/
def Op.toRead (o : Op) (u : Nat) (ps : List Span) : List (Nat × Span) := still (fun k => ((o.prog u).read k).isSome) ps

/-- The bytes of the `n` reading accesses of a unit. -/
def Op.bytesRead (o : Op) (u n : Nat) : List Byte := (List.range n).flatMap fun k => ((o.prog u).read k).getD []

/-- The writing accesses of a unit that are still to be made, by number. -/
def Op.toWrite (o : Op) (u : Nat) (ws : List (Span × List Byte)) : List (Nat × Span × List Byte) :=
  still (o.prog u).wrote.contains ws

/-- Reading access `k` of a unit noted with its bytes. -/
def State.noteRead (s : State) (n u : Nat) (o : Op) (k : Nat) (bs : List Byte) : State :=
  s.modOp n fun q => q.setProg { o.prog u with got := (k, bs) :: (o.prog u).got }

/-- Writing access `k` of a unit noted. -/
def State.noteWrite (s : State) (n u : Nat) (o : Op) (k : Nat) : State :=
  s.modOp n fun q => q.setProg { o.prog u with wrote := k :: (o.prog u).wrote }

/-- Unit `u` of operation `n` makes the first of its reading accesses that can be made; once all are made, `go` has their
bytes. -/
def State.pull (s : State) (n u : Nat) (o : Op) (ps : List Span) (go : List Byte → State) : State :=
  match o.toRead u ps with
  | [] => go (o.bytesRead u ps.length)
  | todo =>
    let (k, r) := firstIo (fun s p => s.spanRead o p) s todo
    r.then n fun s bs => s.noteRead n u o k bs

/-- Unit `u` of operation `n` makes the first of its writing accesses that can be made; `fin` is the step of the last. -/
def State.push (s : State) (n u : Nat) (o : Op) (ws : List (Span × List Byte)) (fin : State → State) : State :=
  match o.toWrite u ws with
  | [] => fin s
  | todo =>
    let (k, r) := firstIo (fun s w => s.spanWrite o w.1 w.2) s todo
    r.then n fun s _ =>
      let s := s.noteWrite n u o k
      if (o.prog u).wrote.length + 1 = ws.length then fin s else s

/-- Unit `u` of an operation makes its next access of those that read `k` bytes of memory at `a`. -/
def State.pullMem (s : State) (n u : Nat) (o : Op) (a k : Nat) (go : List Byte → State) : State :=
  s.pull n u o (spansIn true a k none) go

/-- Unit `u` of an operation makes its next access of those that write bytes to memory at `a`. -/
def State.pushMem (s : State) (n u : Nat) (o : Op) (a : Nat) (bs : List Byte) (fin : State → State) : State :=
  s.push n u o (splitOver (spansIn true a bs.length none) bs) fin

/-! Replies (R343–R346) -/

/-- The status word of an operation (R345). -/
def Op.statusWord (o : Op) : Word :=
  let code := if o.status = 0x100 then (Config.poisonCode o.id).toNat else o.status % 256
  BitVec.ofNat 64 ((if o.status = 0 then 0 else 2 ^ 63) + (if o.inbox / 128 = 1 then o.mxstat % 256 * 2 ^ 16 else 0)
    + (if o.status = 0x07 then o.rcode % 256 * 2 ^ 8 else 0) + code)

/-- The done token's data: the result of an operation that has one and ended without error, else the status word. -/
def Op.doneData (o : Op) : Word := if o.status = 0 then o.result.getD o.statusWord else o.statusWord

/-- A done token delivered, held for a slice that is frozen, or discarded with its slice (R344, R424). -/
def State.deliverDone (s : State) (o : Op) : State :=
  let w0 := o.words.getD 0 0
  let route := o.words.getD 7 0
  match s.slice? (sliceOf w0) with
  | none => s
  | some x =>
    if x.status = .frozen ∨ x.status = .evicted then match x.strands[o.rank]? with
      | none => s
      | some t =>
        let s := match x.image with
          | some p => (match s.unitLeaf (p.addr + BitVec.ofNat 64 (p.slots + 16 * x.replies.length)) 2 with
            | some l => s.owe (.write l (bytesOf [o.doneData, route]))
            | none => s)
          | none => s
        s.modSlice x.id fun x => { x with replies := x.replies ++ [⟨t.core, t.slot, o.doneData, route⟩] }
    else s.emit ⟨x.id, o.rank⟩ o.index ⟨o.doneData, route.field 63 48, 0, true, false⟩

/-- The issuer traps for its operation (R346, R428): now when it is resident, where a slice frozen in place, whose wave is
over, has its record at once; else, or when its freeze has reported a trap or ends in a thaw, when it next runs. -/
def State.trapIssuer (s : State) (o : Op) (code acc : Nat) (addr : Word) : State :=
  let w0 := o.words.getD 0 0
  match s.slice? (sliceOf w0) with
  | none => s
  | some x =>
    let t : Trap := { code := code, sub := 0, index := o.index, core := coreOf w0, slot := w0.field 8 6, pc := o.pc, addr := addr,
                      tag := o.tag, eidx := 0, acc := acc, aux := w0, time := 0 }
    if (x.strands[o.rank]?).isNone then s
    else if x.status = .frozen ∧ ¬x.candidate ∧ x.trap.isNone then
      (s.takeTrap x.id t).post (x.field 5 63 32) (recordOf 0 t x.id s.now 0)
    else if x.status = .frozen ∨ x.status = .evicted then s.modSlice x.id fun x => { x with owedTrap := some (x.owedTrap.getD t) }
    else s.takeTrap x.id t

/-- The counter add of an operation (R343): none while it stalls. -/
def State.replyCounter (s : State) (o : Op) : Option State :=
  let va := counterAt (o.words.getD 7 0)
  if o.words.getD 7 0 = 0 then some s
  else match s.opXlate o va 3 with
    | .wait _ => none
    | .bad s c => some (s.trapIssuer o (if c = 0x02 then 0x30 else 0x31) 3 va)
    | .ok s x =>
      if s.barred none x.pa 8 then none
      else some (s.counterAdd o.party x ((o.words.getD 0 0).field 38 32 + 1) (decide (o.status ≠ 0)))

/-- Operation `n` replies. -/
def State.replyOp (s : State) (n : Nat) (o : Op) : State :=
  let gone := { s with ops := dropAt s.ops n }
  let s' := if o.done then some (gone.deliverDone o) else gone.replyCounter o
  match s' with
  | some u => match o.trap with
    | some c => u.trapIssuer o c 1 0
    | none => u
  | none => match s.opXlate o (counterAt (o.words.getD 7 0)) 3 with
    | .wait u => u
    | _ => s

/-- OPERATION_REPLY (R343–R346): ended operation `n` delivers its done token or adds to its counter. -/
def execOperationReply (n : Nat) (s : State) : Host.Outcome State Fault Refusal :=
  .next (match s.op? n with
  | some o => if o.stage = .ended then s.replyOp n o else s
  | none => s)

end Sys2Proof.Machine
end

