-- ==== Sys2Proof/Machine/Image.lean ====
section
/-! DEFINITION. Images of frozen slices (R416–R421): their configuration streams (R74–R80), bank and matrix segments,
headers, and the bytes that stand in the image pool (log 11). -/

namespace Sys2Proof.Machine

/-! Bytes laid one after another -/

/-- An image in the making: the next offset, and the nonzero bytes so far. -/
structure Build where
  pos : Nat
  cells : List Host.Cell
  deriving DecidableEq, Repr

/-- Bytes added. -/
def Build.bytes (b : Build) (bs : List Byte) : Build := ⟨b.pos + bs.length, wrBytes b.cells b.pos bs⟩

/-- Words added. -/
def Build.words (b : Build) (ws : List Word) : Build := b.bytes (bytesOf ws)

/-- A segment of `size` bytes of which only those given are not zero. -/
def Build.sparse (b : Build) (size : Nat) (l : List Host.Cell) : Build :=
  ⟨b.pos + size, l.foldl (fun m c => wrByte m (b.pos + c.1) c.2) b.cells⟩

/-- Zeros up to a multiple of 64 bytes (R416). -/
def Build.pad (b : Build) : Build := { b with pos := (b.pos + 63) / 64 * 64 }

/-! Control items (R79) -/

/-- Words written to an item of control state: a selector, then four commands for each word (R419). -/
def items (kind index : Nat) (ws : List Word) : List Nat :=
  control 3 (kind * 4096 + index % 4096) :: ws.flatMap fun w => (quarters w).mapIdx fun n v => control (4 + n) v

/-! Stations (R75–R78, R419, R421) -/

/-- The number of copy 0 of instruction `i`: stations are given in the order of instructions and copies (log 11). -/
def Inst.base (x : Inst) (i : Nat) : Nat := (x.nodes.take i).foldl (fun n nd => n + nd.copies) 0

/-- A bit at a place. -/
def bitAt (b : Bool) (n : Nat) : Nat := if b then 2 ^ n else 0

/-- The anti-tokens of one copy on the arc to target `t`, two at most. -/
def Node.antisOf (nd : Node) (copy t : Nat) : List Anti :=
  ((nd.antis.filter fun e => decide (e.1 = t ∧ e.2.idx % nd.copies = copy)).map fun e => e.2).take 2

/-- The entries of a slot that stand at one copy. -/
def Node.entriesOf (nd : Node) (copy : Nat) (sl : Slot) : List Entry := (nd.buf sl).filter (Entry.inCopy nd.copies copy)

/-- Two held tokens' words (R420). -/
def heldWords (t : Tok) : List Word :=
  [t.data, BitVec.ofNat 64 (t.tag % 65536 * 2 ^ 48 + t.idx % 65536 * 2 ^ 32 + bitAt t.l 1 + bitAt t.e 0)]

/-- The partials of a reduction as held tokens (R124), lowest level first: the index is that of its first element. -/
def partialWords (tag : Nat) : List Partial → List Word
  | [] => []
  | p :: r => heldWords ⟨p.val.getD 0, tag, covered r, false, p.val.isNone⟩ ++ partialWords tag r

/-- A node entry and a sample entry of `ACCEPT` as their tokens' data (R397, R398). -/
def nodeWord (n : NodeEnt) : Word := BitVec.ofNat 64 (n.token % 2 ^ 32 * 2 ^ 32 + n.depth % 256 * 2 ^ 8 + n.parent % 256)
def sampleWord (n : Sample) : Word := BitVec.ofNat 64 (n.token % 2 ^ 32 * 2 ^ 32 + 2 ^ 31 + n.node % 256)

/-- A mask of numbers. -/
def maskWord (l : List Nat) : Word := BitVec.ofNat 64 (l.foldl (fun m n => m ||| 2 ^ n) 0)

/-- The two tokens' words and next indices of a tag of `STEER`: those of output TA, then of TB (R421). -/
def steerWords (l : List SteerSt) (tag : Nat) : List Word :=
  [0, 1].flatMap fun out => match l.find? fun e => e.tag == tag && e.out == out with
    | some e => heldWords (e.held.getD ⟨0, tag, 0, false, false⟩) ++ [BitVec.ofNat 64 (e.next % 65536)]
    | none => heldWords ⟨0, tag, 0, false, false⟩ ++ [0]

/-- Held tokens that stand at one copy of an instruction of `n` copies. -/
def atCopy (n copy : Nat) (l : List Tok) : List Tok := l.filter fun t => t.idx % n == copy

/-- The words of an extended state at a copy of an instruction of `n` copies (R421): what a stream has come to stands at
copy 0, held tokens at the copies of their elements (log 11). -/
def Ext.words (n copy : Nat) : Ext → List Word
  | .carry held _ => (atCopy n copy held).flatMap heldWords
  | .shuf l => l.flatMap fun e => (atCopy n copy e.held).flatMap heldWords
  | .gen l => if copy ≠ 0 then [] else l.map fun g => BitVec.ofNat 64 (g.count % 131072 * 65536 + g.next % 65536)
  | .cnt l => if copy ≠ 0 then [] else l.map fun c => BitVec.ofNat 64 (c.tag % 65536 * 2 ^ 48 + c.count % 131072)
  | .steer l => if copy ≠ 0 then [] else ((l.map fun e => e.tag).eraseDups).flatMap (steerWords l)
  | .red l => if copy ≠ 0 then [] else l.flatMap fun e => partialWords e.tag e.parts
  | .tile tag => if copy ≠ 0 then [] else [match tag with | some t => BitVec.ofNat 64 (t % 65536 * 2 ^ 48 + 1) | none => 0]
  | .tree l => if copy ≠ 0 then [] else l.flatMap fun e =>
      BitVec.ofNat 64 e.sp :: (e.stack ++ List.replicate (16 - e.stack.length) 0).map (BitVec.ofNat 64) ++ e.masks
  | .accept l => if copy ≠ 0 then [] else l.flatMap fun e =>
      e.cfg.getD 0 :: e.nodes.map nodeWord ++ e.samples.map sampleWord ++ [maskWord e.accepted, maskWord e.rejected]
  | .plain => []
  | .feset _ => []
  | .pack _ => []
  | .gather _ => []

/-- The pending words of a copy. -/
def Node.pendAt (nd : Node) (copy : Nat) : List Word := (nd.pend.filter fun p => p.1 == copy).map fun p => p.2

/-- Whether an instruction is a load, which may hold a reply (R421): `LD`, `LDX`, `LDF` or `LDFK`. -/
def Node.holdsReplies (nd : Node) : Bool := [0xA0, 0xA2, 0xA4, 0xA5].contains nd.op

/-- The replies that a load holds at a copy. -/
def Node.replies (nd : Node) (copy : Nat) : List Tok :=
  if nd.holdsReplies then
    atCopy nd.copies copy (nd.outq.filterMap fun o => match o with
      | .tok k _ => some k
      | .switch _ _ => none)
  else []

/-- The messages of instruction `i` that have not issued, which stand at copy 0. -/
def Strand.unsent (t : Strand) (i copy : Nat) : List Msg := if copy = 0 then t.msgs.filter fun m => m.node == i else []

/-- The extended words of a copy of instruction `i` (R421). -/
def Strand.extWords (t : Strand) (i copy : Nat) (nd : Node) : List Word :=
  nd.pendAt copy ++ (nd.replies copy).flatMap heldWords ++ nd.ext.words nd.copies copy
    ++ (t.unsent i copy).flatMap fun m => (List.range 8).map fun k => m.words.getD k 0

/-- Whether a wait is one that a halt ends and a thaw makes again (R414). -/
def WaitKind.again : WaitKind → Bool
  | .phase _ _ _ _ => true
  | .arrive _ _ _ _ _ => true
  | .scope _ => true
  | .counter _ _ => true
  | .monitor _ _ _ => true
  | .append => false
  | .freeze _ _ => false
  | .thaw _ => false
  | .abort _ => false
  | .ready _ => false

/-- Whether a wait of a copy of instruction `i` was abandoned at the halt. -/
def Strand.abandoned (t : Strand) (i n copy : Nat) : Bool :=
  (t.waits.any fun w => w.node == i && w.tok.idx % n == copy && w.kind.again)
    || t.left.any fun e => e.1 == i && e.2 % n == copy

/-- Whether an operation of instruction `i` of a strand has issued and not completed. -/
def State.messageOut (s : State) (st : SRef) (i : Nat) : Bool :=
  s.ops.any fun o => sliceOf (o.words.getD 0 0) == st.slice && o.rank == st.rank && o.index == i

/-- Whether an output that is formed waits at a copy. -/
def Node.heldOut (nd : Node) (copy : Nat) : Bool := nd.outq.any fun o => match o with
  | .tok t _ => t.idx % nd.copies == copy
  | .switch _ _ => true

/-- Field 14 of sub-element 0 (R419). -/
def State.firingField (s : State) (st : SRef) (t : Strand) (i copy : Nat) (nd : Node) : Nat :=
  let sw := fun sl => hasSwitch (nd.buf sl)
  bitAt (sw .a) 7 + bitAt (sw .b) 8 + bitAt (sw .c) 9 + bitAt (sw .p) 10 + bitAt (!(nd.pendAt copy).isEmpty) 6
    + bitAt (nd.trapped == some copy) 5 + bitAt (t.abandoned i nd.copies copy) 4
    + bitAt (decide (copy = 0) && s.messageOut st i) 3 + bitAt (nd.heldOut copy) 2

/-- A route field and its replication field. -/
def Inst.routeFields (x : Inst) (g : Option Target) : Nat × Nat :=
  match g with
  | none => (0, 0)
  | some g =>
    let j := g.index.toNat
    (2 ^ 15 + g.slot.code.toNat * 2 ^ 13 + x.base j % 512, match x.nodes[j]? with | some c => c.copies - 1 | none => 0)

/-- A word with another RM (R51). -/
def withRm (w : Word) (rm : Nat) : Word := BitVec.ofNat 64 (w.toNat - w.field 55 50 * 2 ^ 50 + rm % 64 * 2 ^ 50)

/-- The sixteen fields of sub-element 0. -/
def State.stationFields (s : State) (st : SRef) (t : Strand) (x : Inst) (i copy : Nat) (nd : Node) : List Nat :=
  let rs := (List.range 4).map fun k => x.routeFields (nd.routes.getD k none)
  let conf := match nd.wired copy with
    | some w => quarters (withRm (nd.wordAt copy) w.rm) ++ [w.ident] ++ w.raw
    | none => quarters (nd.wordAt copy) ++ [copy * 128 + i] ++ rs.map (fun r => r.1) ++ rs.map (fun r => r.2)
  let occ := ((List.range 4).flatMap fun k => (List.range 2).map fun j => bitAt (decide (j < (nd.antisOf copy k).length)) (2 * k + j))
    |>.foldl Nat.add 0
  conf ++ [occ, s.firingField st t i copy nd, (t.extWords i copy nd).length]

/-- The thirteen fields of an input buffer (R76). -/
def bufferFields (l : List Entry) : List Nat :=
  let tok := fun (n : Nat) => match l[n]? with
    | some (.tok t _) => some t
    | _ => none
  let q := fun n => match tok n with | some t => quarters t.data | none => [0, 0, 0, 0]
  let te := fun n => match tok n with | some t => [t.tag % 65536, t.idx % 65536] | none => [0, 0]
  let vle := fun n => match tok n with | some t => 1 + bitAt t.l 1 + bitAt t.e 2 | none => 0
  q 0 ++ q 1 ++ te 0 ++ te 1 ++ [vle 0 + 16 * vle 1]

/-- The sixteen fields of sub-element 5 (R77). -/
def antiFields (nd : Node) (copy : Nat) : List Nat :=
  (List.range 4).flatMap fun k => (List.range 2).flatMap fun j => match (nd.antisOf copy k)[j]? with
    | some a => [a.tag % 65536, a.idx % 65536]
    | none => [0, 0]

/-- The 84 commands of station `n`: that of copy `copy` of an instruction. -/
def State.stationCmds (s : State) (st : SRef) (t : Strand) (x : Inst) (n i copy : Nat) (nd : Node) : List Nat :=
  fieldsAt n 0 (s.stationFields st t x i copy nd) ++ fieldsAt n 1 (bufferFields (nd.entriesOf copy .a))
    ++ fieldsAt n 2 (bufferFields (nd.entriesOf copy .b)) ++ fieldsAt n 3 (bufferFields (nd.entriesOf copy .c))
    ++ fieldsAt n 4 (bufferFields (nd.entriesOf copy .p)) ++ fieldsAt n 5 (antiFields nd copy)

/-- The word of a station that the mapping does not use: that of `NOP`, or what a patch gave it (R73, R81). -/
def Inst.spareWord (x : Inst) (n : Nat) : Word := ((x.spare.find? fun e => e.1 == n).map fun e => e.2).getD 0x1A00000000000000

/-- The 84 commands of a station that the mapping does not use. -/
def unusedCmds (n : Nat) (w : Word) : List Nat :=
  fieldsAt n 0 (quarters w ++ List.replicate 12 0) ++ fieldsAt n 1 (bufferFields []) ++ fieldsAt n 2 (bufferFields [])
    ++ fieldsAt n 3 (bufferFields []) ++ fieldsAt n 4 (bufferFields []) ++ fieldsAt n 5 (List.replicate 16 0)

/-- The stations of an instance in order: instruction and copy. -/
def Inst.stations (x : Inst) : List (Nat × Nat) :=
  (List.range x.nodes.length).flatMap fun i => match x.nodes[i]? with
    | some nd => (List.range nd.copies).map fun c => (i, c)
    | none => []

/-- The commands of the row unit of row `k`. -/
def Inst.rowCmds (x : Inst) (k : Nat) : List Nat :=
  let u := rowUnit x.stations (x.nodes.map fun nd => nd.word) k
  fieldsAt (16 * k) 6 (((x.rowUnits.find? fun e => e.1 == k).map fun e => e.2).getD ([u.1, u.2] ++ List.replicate 14 0))

/-! Control items (R419) -/

/-- KIND 2: a frame's words. -/
def frameWords : Option Frame → List Word
  | none => [0, 0, 0, 0]
  | some f => [BitVec.ofNat 64 (2 ^ 31 + (f.w - 1) % 64 * 2 ^ 24 + f.gate % 128 * 2 ^ 16 + f.outer % 65536),
      BitVec.ofNat 64 f.base, BitVec.ofNat 64 (f.final.getD 0), Word.ofBool f.final.isSome]

/-- OP of a barrier: BOP in [1:0], U in [2]. -/
def barOpCode : Option (Bop × Bool) → Nat
  | none => 0
  | some (o, u) => o.code.toNat + bitAt u 2

/-- KIND 5: a barrier's fields packed from bit 0 (R203), in seven words. -/
def Barrier.words (b : Barrier) : List Word :=
  let st := match b.state with | .free => 0 | .opened => 1 | .broken => 2
  let fields := [(2, st), (16, b.owner), (8, b.gen), (16, b.e), (32, b.p), (16, b.a), (16, b.n), (64, b.val.toNat),
    (64, b.nval.toNat), (3, barOpCode b.op), (64, b.dl.getD (2 ^ 64 - 1)), (2, b.last), (64, b.lval.toNat), (16, b.late), (32, b.pl)]
  let n := fields.foldr (fun f n => f.2 % 2 ^ f.1 + 2 ^ f.1 * n) 0
  (List.range 7).map fun k => BitVec.ofNat 64 (n / 2 ^ (64 * k))

/-- The core- and quad-scope barriers that the slice of a strand owns, with 16 × scope + id: they stand in the stream of the
lowest rank of the core or quad. -/
def State.ownedBars (s : State) (x : Slice) (t : Strand) : List (Nat × Barrier) :=
  let first := fun (n : Nat) => !x.strands.any fun u => u.core / n == t.core / n && decide (u.rank < t.rank)
  let at' := fun (sc : Scope) (n code : Nat) => if !first n then [] else (List.range 16).filterMap fun id =>
    let b := s.bar ⟨sc, id, t.core / n⟩
    if b.state ≠ .free ∧ b.owner = x.id then some (16 * code + id, b) else none
  at' .core 1 0 ++ at' .quad 4 1

/-- KIND 7: the state of an instance. -/
def instWords : Option Inst → List Word
  | none => [0, 0, 0, 0, 0, 0]
  | some x =>
    let c := x.exit
    [match c with | some c => BitVec.ofNat 64 (1 + c.exit % 8 * 2) | none => 0,
     match c with | some c => c.next | none => 0,
     match c with | some c => (match c.push with | some p => p.1 | none => 0) | none => 0,
     match c with | some c => (match c.push with | some p => BitVec.ofNat 64 p.2 | none => 0) | none => 0,
     BitVec.ofNat 64 x.flags, BitVec.ofNat 64 x.fpc]

/-- The commands of the extended words of station `n`: its selector stands without words too (R416). -/
def Strand.extCmds (t : Strand) (x : Inst) (n : Nat) (e : Option (Nat × Nat)) : List Nat :=
  items 6 n (match e with
    | some (i, c) => (match x.nodes[i]? with
      | some nd => t.extWords i c nd
      | none => [])
    | none => [])

/-- The commands of KIND 5, with one selector (R416, log 68): the words of the owned barriers from the first to the last, each
barrier at eight items, with zeros where the strand owns none. -/
def barrierCmds (l : List (Nat × Barrier)) : List Nat :=
  match l with
  | [] => items 5 0 []
  | (f, _) :: _ =>
    let last := (l.getLast?.map fun e => e.1).getD f
    items 5 (8 * f) ((List.range (last + 1 - f)).flatMap fun k =>
      let ws := match l.find? fun e => e.1 == f + k with
        | some e => e.2.words
        | none => List.replicate 7 0
      if f + k = last then ws else ws ++ [0])

/-- The configuration stream of a strand (R416). -/
def State.streamOf (s : State) (sl : Slice) (t : Strand) : List Nat :=
  let st : SRef := ⟨sl.id, t.rank⟩
  let g := sl.pages
  let x : Inst := t.inst.getD (Block.start ⟨0, 0, [], [], [], [], 0, 0, false, [], []⟩ 0 ⟨[], [], [], 0, [], 0⟩)
  let ss := x.stations
  [control 0 g]
    ++ (List.range (64 * g)).flatMap (fun n => match ss[n]? with
      | some (i, c) => (match x.nodes[i]? with
        | some nd => s.stationCmds st t x n i c nd
        | none => unusedCmds n (x.spareWord n))
      | none => unusedCmds n (x.spareWord n))
    ++ (List.range (4 * g)).flatMap x.rowCmds
    ++ items 0 0 ((List.range 64).map fun r => t.regs.getD r 0)
    ++ items 1 0 ((List.range 64).map fun r => s.readSreg sl t r)
    ++ items 2 0 ((List.range 16).flatMap fun f => frameWords (x.frames.getD f none))
    ++ items 3 0 ((List.range 16).flatMap fun k => [(s.tile (t.tileKey k)).low, (s.tile (t.tileKey k)).high])
    ++ items 4 0 ((List.range 144).map fun n =>
      let e := Table.get (0, 0) t.phases n
      BitVec.ofNat 64 (e.1 % 256 * 2 ^ 32 + e.2 % 2 ^ 32))
    ++ barrierCmds (s.ownedBars sl t)
    ++ (List.range (64 * g)).flatMap (fun n => t.extCmds x n ss[n]?)
    ++ items 7 0 (instWords t.inst)
    ++ [control 1 0]

/-! Segments (R416) -/

/-- B of a slice (R221). -/
def Slice.banksEach (x : Slice) : Nat := x.field 4 47 40

/-- Cells of local space from key `lo` to `lo + n`, by offset. -/
def cellsIn (m : List Host.Cell) (lo n : Nat) : List Host.Cell :=
  (m.filter fun c => decide (lo ≤ c.1 ∧ c.1 < lo + n)).map fun c => (c.1 - lo, c.2)

/-- The bytes of a FIFO's entries, each at its place from HEAD on; a place without an entry holds zeros (log 11). -/
def fifoCells (b : Bank) : List Host.Cell :=
  (b.fifo.mapIdx fun n e => (n, e)).foldl (fun m e => wrBytes m (32 * ((b.head + e.1) % 8192)) ((e.2 ++ List.replicate 32 0).take 32)) []

/-- The full/empty bytes of the bank whose first word is `w0`: bit w is word w. -/
def fullCells (full : Table Bool) (w0 : Nat) : List Host.Cell :=
  (full.filter fun e => e.2 && decide (w0 ≤ e.1 ∧ e.1 < w0 + 65536)).foldl (fun m e =>
    let w := e.1 - w0
    wrByte m (w / 8) (rdByte m (w / 8) ||| BitVec.ofNat 8 (2 ^ (w % 8)))) []

/-- The FIFO state words. -/
def fifoWords (b : Bank) : List Word :=
  [BitVec.ofNat 64 (b.fifo.length % 2 ^ 14 + b.head % 2 ^ 13 * 2 ^ 14),
   BitVec.ofNat 64 ((b.mask.mapIdx fun n m => bitAt m n).foldl Nat.add 0)]
    ++ wordsOf (b.staging ++ List.replicate 32 0) 4 ++ [0, 0]

/-- A bank segment of 270,400 bytes. -/
def State.bankPart (s : State) (core b : Nat) (l : Build) : Build :=
  let k := s.bank core b
  let lo := localKey core b 0
  let data := match k.mode with
    | .scratch => cellsIn s.loc lo 262144
    | .fifo => fifoCells k
    | _ => []
  let full := if k.mode = .scratch then fullCells s.full (lo / 4) else []
  ((l.sparse 262144 data).sparse 8192 full).words (if k.mode = .fifo then fifoWords k else List.replicate 8 0)

/-- A weight plane: its codes row by row of 256 columns, and after those of 4 bits the scales, eight a row (log 11). -/
def planeCells (p : Plane) : List Host.Cell :=
  let bits := fmtBits p.fmt
  let codes := p.cells.foldl (fun m e =>
    if bits = 16 then wrBytes m (2 * e.1) (leBytes e.2 2)
    else if bits = 8 then wrByte m e.1 (BitVec.ofNat 8 e.2)
    else wrByte m (e.1 / 2) (rdByte m (e.1 / 2) ||| BitVec.ofNat 8 (e.2 % 16 * 2 ^ (4 * (e.1 % 2))))) []
  if bits = 4 then p.scales.foldl (fun m e => wrByte m (32768 + e.1 / 256 * 8 + e.1 % 256) (BitVec.ofNat 8 e.2)) codes
  else codes

/-- Format, K and N of a plane as a word. -/
def planeWord (p : Plane) : Word := BitVec.ofNat 64 (p.fmt % 16 + p.k % 65536 * 2 ^ 16 + p.n % 65536 * 2 ^ 32)

/-- The matrix segment of 2,359,360 bytes. -/
def Mx.part (u : Mx) (l : Build) : Build :=
  let acc := u.acc.foldl (fun m e => wrBytes m (8 * e.1) (leBytes e.2.toNat 8)) []
  (((l.words [planeWord u.active, planeWord u.shadow, BitVec.ofNat 64 u.stat, 0, 0, 0, 0, 0]).sparse 131072
    (planeCells u.active)).sparse 131072 (planeCells u.shadow)).sparse 2097152 acc

/-! Headers and the whole image -/

/-- The slice header (R417). -/
def Slice.header (x : Slice) (size nreply : Nat) : List Word :=
  let trap := match x.trap with | some t => t.code | none => 0
  [BitVec.ofNat 64 (2 ^ 56 + x.cause % 32 * 2 ^ 40 + trap % 256 * 2 ^ 32 + x.id % 65536 * 2 ^ 16 + x.strands.length % 65536),
   BitVec.ofNat 64 size, BitVec.ofNat 64 (x.budget % 2 ^ 48), BitVec.ofNat 64 x.ftime, BitVec.ofNat 64 (nreply % 2 ^ 32), 0, 0, 0]

/-- The banks of a strand: the first of its slot's. -/
def Slice.firstBank (x : Slice) (t : Strand) : Nat := 2 + x.banksEach * t.slot

/-- MODES of a strand (R418). -/
def State.modesOf (s : State) (x : Slice) (t : Strand) : Nat :=
  ((List.range x.banksEach).map fun n => (s.bank t.core (x.firstBank t + n)).mode.code.toNat % 4 * 4 ^ n).foldl Nat.add 0

/-- A strand header (R418), with the lengths of its parts. -/
def State.strandHeader (s : State) (x : Slice) (t : Strand) (mx : Bool) (stream banks matrix : Nat) : List Word :=
  [BitVec.ofNat 64 (t.rank % 65536 * 2 ^ 16 + bitAt mx 14 + t.core % 4 * 2 ^ 12 + t.slot % 8 * 2 ^ 9 + bitAt t.ended 8
      + x.banksEach % 16 * 2 ^ 4 + x.pages % 16),
   t.pc, 0, BitVec.ofNat 64 stream, BitVec.ofNat 64 banks, BitVec.ofNat 64 matrix, BitVec.ofNat 64 (s.modesOf x t), 0]

/-- A strand's parts added to an image. -/
def State.strandPart (s : State) (x : Slice) (l : Build) (t : Strand) : Build :=
  let mx := decide (s.mxOwner t.core = some ⟨x.id, t.rank⟩)
  if t.ended then l.words (s.strandHeader x t mx 0 0 0)
  else
    let cmds := s.streamOf x t
    let l := l.words (s.strandHeader x t mx (4 * cmds.length) (270400 * x.banksEach) (if mx then 2359360 else 0))
    let l := (l.bytes (cmds.flatMap fun c => leBytes c 4)).pad
    let l := (List.range x.banksEach).foldl (fun l n => s.bankPart t.core (x.firstBank t + n) l) l
    if mx then (s.unit t.core).part l else l

/-- Done tokens owed to a slice (R416): held ones, and those of operations in progress. -/
def State.repliesOwed (s : State) (x : Slice) : Nat :=
  x.replies.length + (s.ops.filter fun o => o.done && sliceOf (o.words.getD 0 0) == x.id).length

/-- The image of a frozen slice: its size, the offset of its reply slots, and its nonzero bytes below them. -/
def State.imageOf (s : State) (x : Slice) : Nat × Nat × List Host.Cell :=
  let n := s.repliesOwed x
  let body := x.strands.foldl (fun l t => s.strandPart x l t) ((Build.mk 64 []).words (x.desc.take 8))
  let size := body.pos + (16 * n + 63) / 64 * 64
  (size, body.pos, wrBytes body.cells 0 (bytesOf (x.header size n)))

/-! The image in memory -/

/-- `n` bytes that a unit writes at once through a leaf: zero but for the cells given by offset. -/
def State.unitFill (s : State) (x : Xlat) (n : Nat) (cells : List Host.Cell) : State :=
  let pa := x.pa
  let s := s.yardFor .unit x pa n
  let m := cells.foldl (fun m c => wrByte m (pa + c.1) c.2) (Table.clear s.mem pa (pa + n))
  let u := (({ s with mem := m, poison := clearPoison s.poison pa n : State }).soil pa n).markWrite pa n
  (s.through u x pa n).storeTs .unit pa n

/-- The pages of 64 KiB that `n` bytes at a virtual address take: offset, virtual address and length. -/
def pagesOf (va : Word) (n : Nat) : List (Nat × Word × Nat) :=
  let first := 65536 - va.toNat % 65536
  let rest := (n - first + 65535) / 65536
  ((0, va, min n first) :: (List.range rest).map fun k =>
    let o := first + 65536 * k
    (o, va + BitVec.ofNat 64 o, min (n - o) 65536)).filter fun p => decide (p.2.2 ≠ 0)

/-- A unit's write of an image of `n` bytes at a virtual address, zero but for the cells given: a page with no
translation that permits it takes nothing (log 52). -/
def State.imagePut (s : State) (va : Word) (n : Nat) (cells : List Host.Cell) : State :=
  (pagesOf va n).foldl (fun s p => match s.unitLeaf p.2.1 2 with
    | some x => s.unitFill x p.2.2 (cellsIn cells p.1 p.2.2)
    | none => s) s

/-- The nonzero bytes of `n` bytes of an image at a virtual address, by offset. A page that cannot be read stands as in
`kept`, the image as the unit wrote it there, if there is one (log 52). -/
def State.imageCells (s : State) (va : Word) (n : Nat) (kept : Option (List Host.Cell)) : Option (List Host.Cell) :=
  (pagesOf va n).foldr (fun p l =>
    let page := match s.unitAt p.2.1 1 with
      | some pa => some (cellsIn s.mem pa p.2.2)
      | none => kept.map fun k => cellsIn k p.1 p.2.2
    match page, l with
    | some m, some l => some ((m.map fun c => (p.1 + c.1, c.2)) ++ l)
    | _, _ => none) (some [])

/-- A word read by a unit. -/
def State.unitWord (s : State) (va : Word) : Option Word := (s.unitAt va 1).map fun pa => rdWord s.mem pa

/-! The image pool (R425) -/

/-- Whether `[a, a + n)` is free in the image pool. -/
def State.poolFree (s : State) (a n : Nat) : Bool := !s.imgs.any fun e => overlap e.1 e.2 a n

/-- The lowest place of `n` bytes in the pool (log 11). -/
def State.poolPlace (s : State) (n : Nat) : Option Nat :=
  let lo := s.imgbase.toNat
  let hi := lo + s.imgsize.toNat
  let spots := (lo :: s.imgs.map fun e => (e.1 + e.2 + 63) / 64 * 64).filter fun a =>
    decide (lo ≤ a ∧ a + n ≤ hi) && s.poolFree a n
  spots.foldl (fun m a => match m with | some b => some (min a b) | none => some a) none

/-- Pool space freed. -/
def State.freeImage (s : State) (x : Slice) : State :=
  match x.image with
  | some p => { s with imgs := s.imgs.filter fun e => e.1 != p.pool }
  | none => s

end Sys2Proof.Machine
end

