-- ==== Sys2Proof/Machine/Sched.lean ====
section
/-! DEFINITION. Scheduling instructions, opcodes 0x8B to 0x90 (R251–R255). -/

namespace Sys2Proof.Machine

/-- The handle that `ENQ` appends to: b, or the issuing slice's own queue with its current GEN (R251). -/
def State.enqHandle (s : State) (x : Slice) (b : Option Word) : Nat :=
  match b with
  | some w => w.field 31 0
  | none => (s.queue x.queue).handle x.queue

/-- The data slots a and, when an arc feeds it, b. -/
def optB (s : State) : List Slot :=
  match s.cur with
  | none => [.a]
  | some c => match s.node? c.st c.idx with
    | some nd => if nd.fed.contains .b then [.a, .b] else [.a]
    | none => [.a]

/-- `ENQ` (R251): the descriptor is read as one event, and the append made or waited for. -/
def execEnq (h : Hdr) (s : State) : Host.Outcome State Fault Refusal :=
  let data := optB s
  fireEff h data 0 0 (fun st i r s =>
    match s.slice? st.slice, s.strand? st with
    | some x, some t =>
      let va := alignDown r.v.a 64
      (match s.translate t.core va 1 (.station st i r.tag r.idx) with
      | .trap c => .done (s.trapStation st i c 0 r.tag r.idx 1 va)
      | .wait s => .wait s
      | .ok l =>
        if s.barred (some st) l.pa 64 then .wait s
        else
          let s := (s.yardFor (.of t.core) l l.pa 64).touchLoad t.core l l.pa
          if s.poisoned l.pa 64 then .done (s.trapStation st i 0x50 0 r.tag r.idx 1 va)
          else
            let a : Append := ⟨wordsOf (rdBytes s.mem l.pa 64) 8,
              s.enqHandle x (if data.contains .b then some r.v.b else none), .station st i r.tag r.idx⟩
            .done ((s.beginWait st i h data r .append).beginAppend a))
    | _, _ => .wait s) s

/-- `YIELD` (R252): the first of an instance counts, at its commit. -/
def execYield (h : Hdr) (s : State) : Host.Outcome State Fault Refusal :=
  let data := optB s
  fireEff h data 0 0 (fun st i r s =>
    match s.slice? st.slice with
    | none => .wait s
    | some x =>
      let d := if data.contains .b then r.v.b else x.desc.getD 2 0
      let s := s.modInst st fun y => { y with yield := some (y.yield.getD (r.v.a, d)) }
      .done ((s.consume st i h data r).emitData st i r 0)) s

/-- The entry that `FOPEN` takes (R237): the lowest FREE one, or else the lowest DONE one. -/
def State.freeScope (s : State) : Option Nat :=
  match (List.range 256).find? fun n => decide ((s.fscope n).state = .free) with
  | some n => some n
  | none => (List.range 256).find? fun n => decide ((s.fscope n).state = .done)

/-- The transition of `FOPEN` (R237, R253). -/
def State.openScope (s : State) (parent : Nat) (ctr : Word) : State × Word :=
  let p := s.fscope parent
  match s.freeScope with
  | none => (s, 0x8000000000000001)
  | some n =>
    if p.state = .free ∨ p.state = .done then (s, 0x8000000000000002)
    else
      let s := s.setFscope parent { p with child := p.child + 1 }
      (s.setFscope n ⟨.opened, parent, 0, 0, ctr⟩, BitVec.ofNat 64 n)

/-- `FOPEN` (R253). -/
def execFopen (h : Hdr) (s : State) : Host.Outcome State Fault Refusal :=
  fireGather h ⟨[.a], 1, 2, false⟩ (fun st i tag ws s =>
    let (s, w) := s.openScope ((ws.getD 0 0).field 7 0) (counterAt (ws.getD 1 0))
    .ok (s.emit st i ⟨w, tag, 0, true, false⟩)) s

/-- The transition of `FCLOSE` (R237, R254). -/
def State.closeScope (s : State) (n : Nat) : State :=
  let x := s.fscope n
  if n ≠ 0 ∧ x.state = .opened then (s.setFscope n { x with state := .closed }).checkScope 256 n else s

/-- `FCLOSE` (R254). -/
def execFclose (h : Hdr) (s : State) : Host.Outcome State Fault Refusal :=
  fireEff h [.a] 0 0 (fun st i r s =>
    let n := r.v.a.field 7 0
    let u := s.closeScope n
    .done ((u.consume st i h [.a] r).emitData st i r (BitVec.ofNat 64 (u.fscope n).state.code))) s

/-- `FWAIT` (R254). -/
def execFwait (h : Hdr) (s : State) : Host.Outcome State Fault Refusal :=
  fireEff h [.a] 0 0 (fun st i r s =>
    let n := r.v.a.field 7 0
    let x := (s.fscope n).state
    match s.strand? st with
    | none => .wait s
    | some t =>
      let u := s.beginWait st i h [.a] r (.scope n)
      .done (if x = .done ∨ x = .free then u.release st t.waits.length (BitVec.ofNat 64 x.code) false else u)) s

/-! WAITC -/

/-- What a read of a counter comes to (R255). -/
inductive Polled where
  | later (s : State)
  | value (s : State) (w : Word)
  | trap (s : State) (code : Nat)

/-- One read of a counter against its target. -/
def State.poll (s : State) (st : SRef) (core i tag idx : Nat) (va target : Word) : Polled :=
  match s.translate core va 1 (.station st i tag idx) with
  | .trap c => .trap s c
  | .wait s => .later s
  | .ok l =>
    if s.barred (some st) l.pa 8 then .later s
    else
      let s := s.yardFor (.of core) l l.pa 8
      if s.poisoned l.pa 8 then .trap s 0x50
      else
        let s := s.touchLoad core l l.pa
        let w := rdWord s.mem l.pa
        if target.toNat ≤ w.toNat then .value s w else .later s

/-- Wait `n` of a strand, for a counter, read again. -/
def State.repoll (s : State) (st : SRef) (n : Nat) : State :=
  match s.strand? st with
  | none => s
  | some t => match t.waits[n]? with
    | none => s
    | some w => match w.kind with
      | .counter va target => (match s.poll st t.core w.node w.tok.tag w.tok.idx va target with
        | .later s => s
        | .value s d => s.release st n d false
        | .trap s c => (s.unwait st n).trapStation st w.node c 0 w.tok.tag w.tok.idx 1 va)
      | _ => s

/-- The first wait of instruction `i` for a counter whose element is in turn. -/
def Strand.counterWait (t : Strand) (i : Nat) : Option Nat :=
  (List.range t.waits.length).find? fun n => t.firstWait n && match t.waits[n]? with
    | some w => w.node == i && (match w.kind with | .counter _ _ => true | _ => false)
    | none => false

/-- `WAITC` (R255): a step reads again for an element that waits, and takes an element otherwise. -/
def execWaitc (h : Hdr) (s : State) : Host.Outcome State Fault Refusal :=
  match atStation s fun st i s => match s.strand? st with
    | some t => (match t.counterWait i with | some n => s.repoll st n | none => s)
    | none => s with
  | .next s => fireEff h [.a, .b] 0 0 (fun st i r s =>
      match s.strand? st with
      | none => .wait s
      | some t => .done ((s.beginWait st i h [.a, .b] r (.counter (counterAt r.v.a) r.v.b)).repoll st t.waits.length)) s
  | o => o

end Sys2Proof.Machine
end

