-- ==== Sys2Proof/Machine/Freeze.lean ====
section
/-! DEFINITION. Freezing, writing out, moving, thawing and ending a slice (R269, R412–R425, R429, R445–R447), with the
events FREEZE_WAVE, FREEZE_COMPLETE and THAW_RESUME. -/

namespace Sys2Proof.Machine

/-! Moving a slice's core state (R422): pairs of cores, old and new -/

/-- A move of cores: each old core with its new one. An evicted slice stands on cores numbered from 128 × (1 + `sliceid`),
which no core of the package is (log 11). -/
abbrev Move := List (Nat × Nat)

/-- The new core of a core. -/
def coreTo (mv : Move) (c : Nat) : Nat :=
  match mv.find? fun m => m.1 == c with
  | some m => m.2
  | none => c

/-- The new quad of a quad. -/
def quadTo (mv : Move) (q : Nat) : Nat :=
  match mv.find? fun m => m.1 / 4 == q with
  | some m => m.2 / 4
  | none => q

/-- A key of a table of `size` entries for each core, from key `off` up. -/
def keyTo (mv : Move) (off size k : Nat) : Nat :=
  if k < off then k else off + coreTo mv ((k - off) / size) * size + (k - off) % size

/-- A table moved: what stood at the new cores is gone. -/
def moveTable {α : Type} [DecidableEq α] (mv : Move) (off size : Nat) (d : α) (t : Table α) : Table α :=
  t.foldl (fun m e =>
    let c := (e.1 - off) / size
    if off ≤ e.1 ∧ (mv.any fun p => p.2 == c) ∧ !(mv.any fun p => p.1 == c) then m
    else Table.set d m (keyTo mv off size e.1) e.2) []

/-- The places in local space stand above 2⁴⁸ among places. -/
def localBase : Nat := 281474976710656

/-- A barrier's name moved, for a strand that stands on core `core` after the move. -/
def barTo (mv : Move) (core : Nat) (b : BarKey) : BarKey :=
  match b.scope with
  | .core => { b with unit := coreTo mv b.unit }
  | .quad => { b with unit := quadTo mv b.unit }
  | .die => { b with unit := core / 32 }
  | _ => b

/-- The barriers with those of core and quad scope that the slice owns moved: they become FREE where they stood. -/
def moveBars (mv : Move) (id : Nat) (t : Table Barrier) : Table Barrier :=
  let mine := fun (e : Nat × Barrier) => decide (e.1 % 8 ≤ 1 ∧ e.2.state ≠ .free ∧ e.2.owner = id)
  let unitTo := fun (k : Nat) => if k % 8 = 0 then coreTo mv (k / 512) else quadTo mv (k / 512)
  let real := fun (k : Nat) => decide (k / 512 < (if k % 8 = 0 then 128 else 32))
  let rest := t.filterMap fun e => if !mine e then some e else if real e.1 then some (e.1, { e.2 with state := .free }) else none
  (t.filter mine).foldl (fun m e => Table.set Barrier.reset m (e.1 % 512 + 512 * unitTo e.1) e.2) rest

/-- What a wait waits for, moved. -/
def WaitKind.moved (mv : Move) (core : Nat) : WaitKind → WaitKind
  | .phase b p d r => .phase (barTo mv core b) p d r
  | .arrive b v o h t => .arrive (barTo mv core b) v o h t
  | k => k

/-- A message that has not issued moved: its header names its core anew. -/
def Msg.moved (mv : Move) (m : Msg) : Msg :=
  let w0 := m.words.getD 0 0
  { m with
    words := m.words.set 0 (BitVec.ofNat 64 (w0.toNat / 2 ^ 16 * 2 ^ 16 + coreTo mv (coreOf w0) % 128 * 2 ^ 9 + w0.toNat % 2 ^ 9))
    fills := m.fills.map (keyTo mv 0 128), drains := m.drains.map (keyTo mv 0 128) }

/-- A snapshot moved. -/
def Snapshot.moved (mv : Move) (p : Snapshot) : Snapshot :=
  { p with
    loc := moveTable mv 0 4194304 Config.unwritten p.loc
    banks := moveTable mv 0 16 Bank.reset p.banks
    core := coreTo mv p.core }

/-- An instance moved. -/
def Inst.moved (mv : Move) (x : Inst) : Inst :=
  { x with
    snap := x.snap.moved mv
    frames := x.frames.map fun f => f.map fun f => { f with snap := f.snap.moved mv } }

/-- A strand moved. -/
def Strand.moved (mv : Move) (t : Strand) : Strand :=
  let core := coreTo mv t.core
  { t with
    core := core, inst := t.inst.map (Inst.moved mv), msgs := t.msgs.map (Msg.moved mv)
    waits := t.waits.map fun w => { w with kind := w.kind.moved mv core } }

/-- A slice and all that its cores hold for it moved. -/
def State.moveCores (s : State) (id : Nat) (mv : Move) : State :=
  { s with
    loc := moveTable mv 0 4194304 Config.unwritten s.loc
    full := moveTable mv 0 1048576 false s.full
    banks := moveTable mv 0 16 Bank.reset s.banks
    tiles := moveTable mv 0 128 TileEnt.reset s.tiles
    tileSince := moveTable mv 0 128 0 s.tileSince
    mx := moveTable mv 0 1 Mx.reset s.mx
    poison := moveTable mv localBase 4194304 false s.poison
    barriers := moveBars mv id s.barriers
    holds := s.holds.map fun h => if h.slice = id then { h with key := keyTo mv localBase 4194304 h.key } else h
  : State }.modSlice id fun x =>
    { x with strands := x.strands.map (Strand.moved mv), replies := x.replies.map fun r => { r with core := coreTo mv r.core } }

/-- The cores of a slice. -/
def Slice.cores (x : Slice) : List Nat := (x.strands.map fun t => t.core).eraseDups

/-- The move of a slice off its cores. -/
def Slice.away (x : Slice) : Move := x.cores.map fun c => (c, 128 * (1 + x.id) + c)

/-- Cores left with nothing on them (R269): banks in SCRATCH mode, every byte 0 and every word empty. -/
def State.clearCores (s : State) (cores : List Nat) : State :=
  let keep := fun (off size : Nat) (k : Nat) => decide (k < off) || !cores.contains ((k - off) / size)
  { s with
    loc := s.loc.filter fun e => keep 0 4194304 e.1
    full := s.full.filter fun e => keep 0 1048576 e.1
    banks := s.banks.filter fun e => keep 0 16 e.1
    tiles := s.tiles.filter fun e => keep 0 128 e.1
    tileSince := s.tileSince.filter fun e => keep 0 128 e.1
    mx := s.mx.filter fun e => keep 0 1 e.1
    poison := s.poison.filter fun e => keep localBase 4194304 e.1 }

/-! Ending a slice -/

/-- An operation whose done token has nowhere to go (R424, R447): it runs on and replies to nobody. -/
def Op.orphan (o : Op) : Op :=
  { o with done := false, words := if o.done then o.words.set 7 0 else o.words, trap := none, rank := 65536 }

/-- A slice leaves: its appends, walks, holds and done tokens go with it. -/
def State.removeSlice (s : State) (id : Nat) : State :=
  { s with
    slices := s.slices.filter fun x => x.id != id
    appends := s.appends.filter fun a => match a.who with
      | .station st _ _ _ => st.slice != id
      | .yield _ _ => true
    walks := s.walks.filter fun w => match w.who with
      | .station st _ _ _ => st.slice != id
      | .fetch st => st.slice != id
      | .commit st => st.slice != id
      | _ => true
    holds := s.holds.filter fun h => h.slice != id
    ops := s.ops.map fun o => if sliceOf (o.words.getD 0 0) = id then o.orphan else o }

/-- Refusal results of the slice instructions (R444). -/
def refusedWord (code : Nat) : Word := BitVec.ofNat 64 (2 ^ 63 + code)

/-- An abort's step on a frozen slice (R447). -/
def State.abortNow (s : State) (id : Nat) : State :=
  match s.slice? id with
  | none => s
  | some x =>
    let s := (((s.clearCores x.cores).freeBarriers id).freeImage x).loseCount (x.field 4 39 32)
    let s := s.removeSlice id
    let s := s.addThen { va := x.desc.getD 6 0, flag := true, slice := id, tq := x.field 5 63 32, eq := (s.queue x.queue).eq,
                         scope := none, record := none }
    s.releaseWhere fun k => match k with
      | .abort n => if n = id then some (0, false) else none
      | .freeze n _ => if n = id then some (refusedWord 1, false) else none
      | .thaw n => if n = id then some (refusedWord 1, false) else none
      | _ => none

/-! The freeze (R412–R415) -/

/-- Whether an operation in progress writes or reads the slice's banks, tiles or matrix unit (R413). -/
def Slice.touchedBy (x : Slice) (o : Op) : Bool :=
  decide (o.stage ≠ .ended) && ((o.fills ++ o.drains).any (fun k => x.cores.contains (k / 128))
    || (decide (128 ≤ o.inbox ∧ o.inbox < 256) && x.cores.contains (o.inbox - 128)))

/-- Whether a hold of a strand that runs no more keeps a place: it ends only after that strand's thaw (R189). -/
def State.stuckAt (s : State) (st : SRef) (k n : Nat) : Bool :=
  s.holds.any fun h => decide (h.owner ≠ st) && !s.runs h.owner && overlap h.key h.len k n && s.holdOpen h

/-- Whether an issued access of the slice still performs before the freeze completes; one that waits for another strand's
hold (R189), where that strand is halted, does not (log 71). -/
def State.stillPerforms (s : State) (x : Slice) : Bool :=
  x.strands.any fun t => (List.range t.pend.length).any fun n => match t.pend[n]? with
    | some a => s.mayPerform ⟨x.id, t.rank⟩ n a && !s.stuckAt ⟨x.id, t.rank⟩ a.place a.bytes
    | none => false

/-- The accesses of a strand that have not performed go back to not issued, the latest first. -/
def State.unissueAll (s : State) (st : SRef) : Nat → State
  | 0 => s
  | n + 1 => (s.unissue st n).unissueAll st n

/-- What the halt leaves of a slice's accesses and waits (R413, R414). -/
def State.halt (s : State) (x : Slice) : State :=
  let s := x.strands.foldl (fun (s : State) (t : Strand) =>
    (s.finishFesets ⟨x.id, t.rank⟩).unissueAll ⟨x.id, t.rank⟩ t.pend.length) s
  { s with
    walks := s.walks.filter fun w => match w.who with
      | .station st _ _ _ => st.slice != x.id
      | .fetch st => st.slice != x.id
      | .commit st => st.slice != x.id
      | _ => true
  : State }.modSlice x.id fun y => { y with strands := y.strands.map fun t =>
    { t with reqs := [], left := t.reqs.map fun q => (q.node, q.idx) } }

/-- The trap record of a slice (R410, R412). -/
def State.postTrap (s : State) (x : Slice) : State :=
  match x.trap with
  | some t => s.post (x.field 5 63 32) (recordOf 0 t x.id t.time 0)
  | none => s

/-- Whether a byte that the slice's image holds is poisoned (R429). -/
def State.holdsPoison (s : State) (x : Slice) : Bool :=
  s.poison.any fun e => decide (localBase ≤ e.1) && x.cores.contains ((e.1 - localBase) / 4194304)

/-- Whether a cause is among those of a slice. -/
def Slice.causedBy (x : Slice) (c : Cause) : Bool := x.cause.testBit (match c with
  | .trap => 0 | .freeze => 1 | .preempt => 2 | .thin => 3 | .error => 4)

/-- Whether a slice competes for placement once it is written out (R229, R425, R429): no trap and no supervisor froze it. -/
def Slice.competes (x : Slice) : Bool := !x.causedBy .trap && x.trap.isNone && !x.causedBy .freeze

/-- The bytes of held replies in their slots (R416, R424). -/
def replyBytes (l : List Reply) : List Byte := bytesOf (l.flatMap fun r => [r.data, r.route])

/-- A frozen slice written out: its image in the pool, its cores freed; none when the pool has no room for it. -/
def State.writeOut (s : State) (id : Nat) : Option State :=
  match s.slice? id with
  | none => none
  | some x =>
    let (size, slots, cells) := s.imageOf x
    (s.poolPlace size).map fun a =>
      let u := s.imagePut (BitVec.ofNat 64 a) size (wrBytes cells slots (replyBytes x.replies))
      ({ u with imgs := u.imgs ++ [(a, size)] : State }.modSlice id fun y =>
        { y with status := .evicted, candidate := y.competes, leaving := false, moving := false
                 image := some ⟨BitVec.ofNat 64 a, a, size, slots, cells⟩ }).moveCores id x.away

/-- A frozen slice that goes on where it stands: THAW_RESUME resumes it. -/
def State.markThaw (s : State) (id : Nat) : State := s.modSlice id fun x => { x with candidate := true }

/-- The waits of `FREEZE` on a slice released with a word: those that asked for the image when `write`, the others too
otherwise. -/
def State.releaseFreeze (s : State) (id : Nat) (onlyWrite : Bool) (w : Word) : State :=
  s.releaseWhere fun k => match k with
    | .freeze n b => if n = id ∧ (b || !onlyWrite) then some (w, false) else none
    | _ => none

/-- Whether an element waits that asked for the slice's image. -/
def State.wantsImage (s : State) (id : Nat) : Bool :=
  s.strands.any fun e => e.2.waits.any fun w => decide (w.kind = .freeze id true)

/-- Whether an element waits for the slice's abort. -/
def State.wantsAbort (s : State) (id : Nat) : Bool :=
  s.strands.any fun e => e.2.waits.any fun w => decide (w.kind = .abort id)

/-- The image address of a written-out slice, or 0 (R445). -/
def State.imageWord (s : State) (id : Nat) : Word :=
  match s.slice? id with
  | some x => (match x.image with | some p => p.addr | none => 0)
  | none => 0

/-- Whether an element waits for the slice's freeze alone. -/
def State.wantsFreeze (s : State) (id : Nat) : Bool :=
  s.strands.any fun e => e.2.waits.any fun w => decide (w.kind = .freeze id false)

/-- A frozen slice written out because `FREEZE` asks for it (R445); none when the pool has no room for its image. -/
def State.freezeOut (s : State) (x : Slice) : Option State :=
  (s.writeOut x.id).map fun u => u.releaseFreeze x.id false (u.imageWord x.id)

/-- `FREEZE`s that asked for an image which the pool has no room for, refused with code 3: where no other `FREEZE` waits, the
slice is not frozen by one (R444). -/
def State.refuseImage (s : State) (x : Slice) : State :=
  let stay := s.wantsFreeze x.id
  (s.releaseFreeze x.id true (refusedWord 3)).modSlice x.id fun y =>
    if stay || !y.causedBy .freeze then y else { y with cause := y.cause ^^^ Cause.freeze.bit }

/-- A slice whose freeze is complete as its causes leave it (R229, R425, R429): an error writes it out, and it waits frozen
while the pool has no room; pre-emption writes it out, or takes it up again where it stands; so does a freeze that has no cause
any more; thinning moves it. -/
def State.settleFreeze (s : State) (x : Slice) : State :=
  let s := s.releaseFreeze x.id false 0
  if x.causedBy .error then (s.writeOut x.id).getD (s.modSlice x.id fun y => { y with leaving := true })
  else if x.causedBy .preempt then match s.writeOut x.id with
    | some u => u
    | none => if x.competes then s.markThaw x.id else s
  else if x.cause = 0 then s.markThaw x.id
  else if x.causedBy .thin then s.modSlice x.id fun y => { y with moving := true }
  else s

/-- What becomes of a slice whose freeze is complete (R229, R425, R429, R444, R445, R447). -/
def State.afterFreeze (s : State) (x : Slice) : State :=
  if s.wantsAbort x.id then s.abortNow x.id
  else if x.causedBy .error && s.holdsPoison x then
    let t : Trap := { Trap.bare with code := 0x50 }
    (s.post (x.field 5 63 32) (recordOf 0 t x.id s.now 0)).abortNow x.id
  else if s.wantsImage x.id then match s.freezeOut x with
    | some u => u
    | none =>
      let s := s.refuseImage x
      (match s.slice? x.id with
      | some y => s.settleFreeze y
      | none => s)
  else s.settleFreeze x

/-- What the thaws of a slice end with. -/
def thawRelease (free id : Nat) : WaitKind → Option (Word × Bool)
  | .thaw n => if n = id then some ((Config.thawResult free).setWidth 64, false) else none
  | _ => none

/-- The elements released that wait for the thaw of a slice (R446). -/
def State.thawDone (s : State) (id : Nat) : State :=
  let u := s.releaseWhere (thawRelease s.freeSeq id)
  { u with freeSeq := u.freeSeq + 1 }

/-- A thaw that a later freeze overtakes before the slice has resumed: the thaw is complete, and the slice stands frozen by
the later cause alone. -/
def State.overtake (s : State) (x : Slice) (c : Cause) : State :=
  if !x.candidate then s
  else ((s.freeImage x).modSlice x.id fun y =>
    { y.resume y.budget with status := .frozen, cause := c.bit, ftime := s.now }).thawDone x.id

/-- FREEZE_WAVE (R413): the halt line is asserted at every core of the slice. -/
def execFreezeWave (sl : Nat) (s : State) : Host.Outcome State Fault Refusal :=
  .next (match s.slice? sl with
  | some x => if x.status = .waving then s.modSlice sl fun x => { x with status := .halting } else s
  | none => s)

/-- FREEZE_COMPLETE (R413–R415): every issued access has performed, and every operation at the slice's tiles and matrix
unit has ended. -/
def execFreezeComplete (sl : Nat) (s : State) : Host.Outcome State Fault Refusal :=
  .next (match s.slice? sl with
  | none => s
  | some x =>
    if decide (x.status ≠ .halting) || s.stillPerforms x || s.ops.any x.touchedBy then s
    else
      let s := (s.halt x).modSlice sl fun y => { y with status := .frozen, candidate := false, ftime := s.now }
      let s := ((s.dropDeadlines (x.strands.flatMap fun t => t.waits)).thawDone sl).postTrap x
      match s.slice? sl with
      | some y => s.afterFreeze y
      | none => s)

/-! The thaw (R414, R422–R424) -/

/-- Held replies delivered to their stations (R424). -/
def State.deliverReplies (s : State) (x : Slice) : State :=
  let s := s.modSlice x.id fun y => { y with replies := [] }
  x.replies.foldl (fun (s : State) (r : Reply) =>
    match x.strands.find? fun t => t.core == r.core && t.slot == r.slot with
    | some t => s.emit ⟨x.id, t.rank⟩ (r.route.field 30 24) ⟨r.data, r.route.field 63 48, 0, true, false⟩
    | none => s) s

/-- A wait of a slice that runs again, made again and judged on the state as it is (R414). -/
def State.judgeWait (s : State) (st : SRef) (k : Nat × Nat × Nat) : State :=
  match s.strand? st with
  | none => s
  | some t => match t.waitOf k.1 k.2.1 k.2.2 with
    | none => s
    | some n => match t.waits[n]? with
      | none => s
      | some w => match w.kind with
        | .phase b p d red => s.judgePhase st n b p d red
        | .scope m =>
          let c := (s.fscope m).state
          if c = .done ∨ c = .free then s.release st n (BitVec.ofNat 64 c.code) false else s
        | .monitor _ _ _ => s.release st n 3 false
        | .thaw m => (match s.slice? m with
          | some y => if y.live then s.release st n ((Config.thawResult s.freeSeq).setWidth 64) false else s
          | none => s.release st n (refusedWord 1) false)
        | .abort m => if (s.slice? m).isNone then s.release st n 0 false else s
        | .freeze m write => (match s.slice? m with
          | none => s.release st n (refusedWord 1) false
          | some y =>
            if y.live then s.beginWave m .freeze
            else if y.status = .frozen ∧ write then (s.freezeOut y).getD (s.release st n (refusedWord 3) false)
            else if y.status = .frozen ∨ y.status = .evicted then s.release st n (s.imageWord m) false
            else s)
        | _ => s

/-- The waits of a slice made again. -/
def State.judgeWaits (s : State) (x : Slice) : State :=
  (x.strands.foldl (fun (s : State) (t : Strand) => (t.waits.map fun w => (w.node, w.tok.tag, w.tok.idx)).foldl
    (fun (s : State) (k : Nat × Nat × Nat) => s.judgeWait ⟨x.id, t.rank⟩ k) s) s).retries

/-- The return from a freeze (R423): the slice runs again with its budget left, held replies are delivered, a trap that it
owes is taken (R346), and its waits are made again. Its thaw completes once a station has fired. -/
def State.restart (s : State) (id : Nat) : State :=
  match s.slice? id with
  | none => s
  | some x =>
    let s := ((s.freeImage x).modSlice id fun y => { y.resume y.budget with owedTrap := none }).deliverReplies x
    let s := match x.owedTrap with
      | some t => s.takeTrap id t
      | none => s
    s.judgeWaits x

/-- THAW_RESUME (R423): a slice that is to go on, and stands on its cores, does. -/
def execThawResume (sl : Nat) (s : State) : Host.Outcome State Fault Refusal :=
  .next (match s.slice? sl with
  | some x => if x.status = .frozen ∧ x.candidate then s.restart sl else s
  | none => s)

/-! Redirects (R423): what a thaw reads of its headers -/

/-- A strand's instance discarded, to begin with fetching at `pc`. -/
def State.redirect (s : State) (st : SRef) (pc : Word) : State :=
  let s := (s.dropHolds st).modStrand st fun t =>
    { t with inst := none, pend := [], waits := [], reqs := [], msgs := [], pc := pc, check := none }
  { s with
    appends := s.appends.filter fun a => match a.who with
      | .station x _ _ _ => decide (x ≠ st)
      | .yield _ _ => true
    ops := s.ops.map fun o =>
      if o.done && sliceOf (o.words.getD 0 0) == st.slice && o.rank == st.rank then
        { o with done := false, words := o.words.set 7 0 }
      else o }

/-- BLEFT and redirects applied: `hdrs` are words 0 to 2 of each strand's header in rank order. -/
def State.applyHeaders (s : State) (id : Nat) (bleft : Nat) (hdrs : List (List Word)) : State :=
  let s := s.modSlice id fun x => { x with budget := bleft }
  (List.range hdrs.length).foldl (fun (s : State) (k : Nat) =>
    let h := hdrs.getD k []
    let ended := match s.strand? ⟨id, k⟩ with | some t => t.ended | none => true
    if (h.getD 0 0).bit 15 && !ended then
      let s := s.redirect ⟨id, k⟩ (h.getD 2 0)
      s.modSlice id fun x => { x with replies := x.replies.filter fun r =>
        !(x.strands.any fun t => t.rank == k && t.core == r.core && t.slot == r.slot) }
    else s) s

end Sys2Proof.Machine
end

