-- ==== Sys2Proof/Machine/Sha256.lean ====
section
/-! DEFINITION. SHA-256, the hash function that R473 names, as its standard defines it (FIPS 180-4, log 12). -/

namespace Sys2Proof.Machine.Sha

/-- A word of the hash. -/
abbrev W32 := BitVec 32

/-- The round constants. -/
def rounds : List W32 :=
  [0x428a2f98, 0x71374491, 0xb5c0fbcf, 0xe9b5dba5, 0x3956c25b, 0x59f111f1, 0x923f82a4, 0xab1c5ed5]
  ++ [0xd807aa98, 0x12835b01, 0x243185be, 0x550c7dc3, 0x72be5d74, 0x80deb1fe, 0x9bdc06a7, 0xc19bf174]
  ++ [0xe49b69c1, 0xefbe4786, 0x0fc19dc6, 0x240ca1cc, 0x2de92c6f, 0x4a7484aa, 0x5cb0a9dc, 0x76f988da]
  ++ [0x983e5152, 0xa831c66d, 0xb00327c8, 0xbf597fc7, 0xc6e00bf3, 0xd5a79147, 0x06ca6351, 0x14292967]
  ++ [0x27b70a85, 0x2e1b2138, 0x4d2c6dfc, 0x53380d13, 0x650a7354, 0x766a0abb, 0x81c2c92e, 0x92722c85]
  ++ [0xa2bfe8a1, 0xa81a664b, 0xc24b8b70, 0xc76c51a3, 0xd192e819, 0xd6990624, 0xf40e3585, 0x106aa070]
  ++ [0x19a4c116, 0x1e376c08, 0x2748774c, 0x34b0bcb5, 0x391c0cb3, 0x4ed8aa4a, 0x5b9cca4f, 0x682e6ff3]
  ++ [0x748f82ee, 0x78a5636f, 0x84c87814, 0x8cc70208, 0x90befffa, 0xa4506ceb, 0xbef9a3f7, 0xc67178f2]

/-- The eight words of a hash in progress. -/
structure Hash where
  a : W32
  b : W32
  c : W32
  d : W32
  e : W32
  f : W32
  g : W32
  h : W32
  deriving DecidableEq, Repr

/-- The words before the first block. -/
def Hash.start : Hash :=
  ⟨0x6a09e667, 0xbb67ae85, 0x3c6ef372, 0xa54ff53a, 0x510e527f, 0x9b05688c, 0x1f83d9ab, 0x5be0cd19⟩

/-- One round with its constant and its word of the schedule. -/
def Hash.round (x : Hash) (kw : W32 × W32) : Hash :=
  let s1 := x.e.rotateRight 6 ^^^ x.e.rotateRight 11 ^^^ x.e.rotateRight 25
  let ch := (x.e &&& x.f) ^^^ (~~~x.e &&& x.g)
  let t1 := x.h + s1 + ch + kw.1 + kw.2
  let s0 := x.a.rotateRight 2 ^^^ x.a.rotateRight 13 ^^^ x.a.rotateRight 22
  let maj := (x.a &&& x.b) ^^^ (x.a &&& x.c) ^^^ (x.b &&& x.c)
  ⟨t1 + (s0 + maj), x.a, x.b, x.c, x.d + t1, x.e, x.f, x.g⟩

/-- The next word of a schedule whose words so far stand latest first. -/
def nextWord (l : List W32) : W32 :=
  let w2 := l.getD 1 0
  let w15 := l.getD 14 0
  (w2.rotateRight 17 ^^^ w2.rotateRight 19 ^^^ (w2 >>> 10)) + l.getD 6 0
    + (w15.rotateRight 7 ^^^ w15.rotateRight 18 ^^^ (w15 >>> 3)) + l.getD 15 0

/-- A schedule continued by `n` words, latest first. -/
def extend : Nat → List W32 → List W32
  | 0, l => l
  | n + 1, l => extend n (nextWord l :: l)

/-- One block of 16 words. -/
def Hash.block (x : Hash) (ws : List W32) : Hash :=
  let y := (rounds.zip (extend 48 ws.reverse).reverse).foldl Hash.round x
  ⟨x.a + y.a, x.b + y.b, x.c + y.c, x.d + y.d, x.e + y.e, x.f + y.f, x.g + y.g, x.h + y.h⟩

/-- A word of four bytes, the highest first. -/
def wordsBE : List Byte → List W32
  | a :: b :: c :: d :: r => BitVec.ofNat 32 (a.toNat * 2 ^ 24 + b.toNat * 2 ^ 16 + c.toNat * 2 ^ 8 + d.toNat) :: wordsBE r
  | _ => []

/-- The `n` low bytes of a number, the highest first. -/
def bytesBE (v : Nat) : Nat → List Byte
  | 0 => []
  | n + 1 => BitVec.ofNat 8 (v / 256 ^ n) :: bytesBE v n

/-- A message padded: a one bit, zeros, and its length in bits. -/
def padded (m : List Byte) : List Byte :=
  m ++ [0x80] ++ List.replicate ((119 - m.length % 64) % 64) (0 : Byte) ++ bytesBE (8 * m.length) 8

/-- The blocks of `n` times 16 words. -/
def Hash.blocks : Nat → Hash → List W32 → Hash
  | 0, x, _ => x
  | n + 1, x, l => Hash.blocks n (x.block (l.take 16)) (l.drop 16)

/-- The 32 bytes of a message's hash. -/
def sha256 (m : List Byte) : List Byte :=
  let ws := wordsBE (padded m)
  let x := Hash.blocks (ws.length / 16) Hash.start ws
  [x.a, x.b, x.c, x.d, x.e, x.f, x.g, x.h].flatMap fun w => bytesBE w.toNat 4

end Sys2Proof.Machine.Sha
end

