-- ==== Sys2Proof/Machine/HostPort.lean ====
section
/-! DEFINITION. The host's side (R289, R467–R474): accesses on the Trelene links, the mailbox and its commands; bring-up
(R475). -/

namespace Sys2Proof.Machine

/-! Host accesses (R289, R467) -/

/-- A host load of device memory: keys apply first. -/
def State.hostLoad (s : State) (link : Nat) (p : Nat × Nat) : State :=
  let s := (s.applyPhys (.of (128 + link)) p.1 p.2).loadTs (.of (128 + link)) false p.1
  { s with hostOut := s.hostOut ++ [⟨link, .data, p.1, rdBytes s.mem p.1 p.2⟩] }

/-- A host store to device memory: keys apply, and the store then overwrites. -/
def State.hostStore (s : State) (link : Nat) (p : Nat × Nat) (bs : List Byte) : State :=
  ((s.applyPhys (.of (128 + link)) p.1 p.2).poke p.1 bs).storeTs (.of (128 + link)) p.1 bs.length

/-! The mailbox (R472) -/

/-- The first byte of the mailbox in a link's window. -/
def mailboxBase : Nat := 1099511627776

/-- A word of the mailbox. -/
def State.mboxWord (s : State) (o : Nat) : Word := rdWord s.mailbox o

/-- GO. -/
def State.mboxGo (s : State) : Bool := (s.mboxWord 0).bit 63

/-- COMMAND. -/
def State.mboxCommand (s : State) : Nat := (s.mboxWord 0).field 7 0

/-- The controller is done with a command: GO is cleared and STATUS set. -/
def State.mboxDone (s : State) (status : Nat) : State :=
  let w := (s.mboxWord 0).toNat
  { s with mailbox := wrNum s.mailbox 0 8 (w % 2 ^ 63 / 2 ^ 16 * 2 ^ 16 + status % 256 * 256 + w % 256) }

/-- Bytes to the response area. -/
def State.respond (s : State) (bs : List Byte) : State := { s with mailbox := wrBytes s.mailbox 0x800 (bs.take 2048) }

/-- A host write to the mailbox: word 0 keeps its bytes while GO is set; a command that is none of R472's is done at once. -/
def State.mboxWrite (s : State) (o : Nat) (bs : List Byte) : State :=
  let go := s.mboxGo
  let m := (bs.mapIdx fun k b => (o + k, b)).foldl (fun m c =>
    if 4096 ≤ c.1 ∨ (go ∧ c.1 < 8) then m else wrByte m c.1 c.2) s.mailbox
  let s : State := { s with mailbox := m }
  if !go && s.mboxGo && decide (s.mboxCommand = 0 ∨ 7 < s.mboxCommand) then s.mboxDone 1 else s

/-- Bytes of a host access. -/
def HostReq.size (r : HostReq) : Nat := if r.write then r.bytes.length else r.len

/-- Whether another agent holds a byte of a host access to device memory (R189). -/
def State.hostBarred (s : State) (r : HostReq) : Bool :=
  decide (r.addr + r.size ≤ 2 ^ 40) && (piecesOf r.addr r.size).any fun p => s.barred none p.1 p.2

/-- A host access made: the window reaches device memory below 2⁴⁰ and the mailbox above it (R467). -/
def State.hostDo (s : State) (r : HostReq) : State :=
  let ps := piecesOf r.addr r.size
  if r.addr + r.size ≤ 2 ^ 40 then
    if r.write then
      ps.foldl (fun (s : State) (p : Nat × Nat) => s.hostStore r.link p ((r.bytes.drop (p.1 - r.addr)).take p.2)) s
    else ps.foldl (fun (s : State) (p : Nat × Nat) => s.hostLoad r.link p) s
  else if mailboxBase ≤ r.addr ∧ r.addr + r.size ≤ mailboxBase + 4096 then
    if r.write then s.mboxWrite (r.addr - mailboxBase) r.bytes
    else { s with hostOut := s.hostOut ++ [⟨r.link, .data, r.addr, rdBytes s.mailbox (r.addr - mailboxBase) r.size⟩] }
  else s

/-- The access that waits first on a link (R289). -/
def State.hostHead (s : State) (link : Nat) : Option HostReq := s.hostIn.find? fun r => r.link == link

/-- HOST_ACCESS (R289, R467): an access to held bytes waits, and those after it on its link wait behind it. The access
that waits first is made by an event that names it once nothing holds its bytes (log 57). -/
def execHostAccess (link : Nat) (write : Bool) (addr len : Nat) (bytes : List Byte) (s : State) :
    Host.Outcome State Fault Refusal :=
  .next (
    let r : HostReq := ⟨link % 2, write, addr, len, bytes⟩
    match s.hostHead (link % 2) with
    | none => if s.hostBarred r then { s with hostIn := s.hostIn ++ [r] } else s.hostDo r
    | some f =>
      if f = r ∧ s.hostBarred r = false then ({ s with hostIn := s.hostIn.erase r } : State).hostDo r
      else { s with hostIn := s.hostIn ++ [r] })

/-! Commands (R472–R474) -/

/-- A command executed when GO stands with its code: `always` when the controller accepts it without firmware (R474). -/
def State.onCommand (s : State) (code : Nat) (always : Bool) (go : State → State) : State :=
  if !(s.mboxGo && s.mboxCommand == code) then s
  else if !always && !s.fw.ran then s.mboxDone 1
  else go s

/-- Bytes cut or padded with zeros to a length. -/
def fit (n : Nat) (bs : List Byte) : List Byte := (bs ++ List.replicate n (0 : Byte)).take n

/-- SENSORS: what they read is free (log 12). -/
def execMboxSensors (s : State) : Host.Outcome State Fault Refusal :=
  .next (s.onCommand 1 false fun s =>
    ({ s with freeSeq := s.freeSeq + 1 } : State).respond ((List.range 2048).map fun k => Config.sensorByte s.freeSeq k)
      |>.mboxDone 0)

/-- Records that the event log holds (R471): 4 MiB of 64 bytes. -/
def logSlots : Nat := 65536

/-- The latest record in a place of the event log. -/
def State.logEntry (s : State) (slot : Nat) : List Word :=
  let n := s.evlog.length
  if slot < n then s.evlog.getD (slot + (n - 1 - slot) / logSlots * logSlots) [] else []

/-- Bytes of the event log from an offset. -/
def State.logBytes (s : State) (o : Nat) : List Byte :=
  ((List.range 33).flatMap fun k =>
    if o / 64 + k < logSlots then bytesOf (s.logEntry (o / 64 + k)) else []).drop (o % 64) |>.take 2048

/-- LOG. -/
def execMboxLog (s : State) : Host.Outcome State Fault Refusal :=
  .next (s.onCommand 2 true fun s => (s.respond (s.logBytes (s.mboxWord 8).toNat)).mboxDone 0)

/-- A firmware slot. -/
def State.fwSlot (s : State) (n : Nat) : List Byte := s.fw.slots.getD n []

/-- The first 96 bytes of an attestation report (R473). -/
def State.report (s : State) : List Byte :=
  rdBytes s.mailbox 8 32 ++ Sha.sha256 (fit 64 Config.identityKey)
    ++ leBytes (Config.firmwareVersion (s.fwSlot s.fw.active)) 8
    ++ leBytes (Config.firmwareVersion (s.fwSlot (1 - s.fw.active))) 8
    ++ leBytes s.svc.toNat 8 ++ leBytes s.now 8

/-- ATTEST (R473). -/
def execMboxAttest (s : State) : Host.Outcome State Fault Refusal :=
  .next (s.onCommand 3 false fun s =>
    let body := s.report
    (({ s with freeSeq := s.freeSeq + 1 } : State).respond
      (body ++ fit 64 (Config.ecdsaSign s.freeSeq (Sha.sha256 body)) ++ fit 64 Config.identityKey)).mboxDone 0)

/-- FWSTAGE: the chunk continues the inactive slot's image from its offset; an offset beyond it is refused. -/
def execMboxFwstage (s : State) : Host.Outcome State Fault Refusal :=
  .next (s.onCommand 4 true fun s =>
    let n := 1 - s.fw.active
    let old := s.fwSlot n
    let o := (s.mboxWord 0x808).toNat
    if old.length < o then s.mboxDone 1
    else ({ s with fw := { s.fw with slots := s.fw.slots.set n (old.take o ++ rdBytes s.mailbox 8 2048) } } : State).mboxDone 0)

/-- FWACTIVATE (R472, R474). -/
def execMboxFwactivate (s : State) : Host.Outcome State Fault Refusal :=
  .next (s.onCommand 5 true fun s =>
    let n := 1 - s.fw.active
    if !Config.firmwareVerifies (s.fwSlot n) then s.mboxDone 2
    else if Config.firmwareVersion (s.fwSlot n) < Config.fusedMinimum then s.mboxDone 4
    else ({ s with fw := { s.fw with nextActive := n } } : State).mboxDone 0)

/-- The package after its reset: flash and host memory stay, and so does what has been retired (log 3). -/
def State.resetPackage (s : State) : State :=
  { State.reset with
    mem := s.mem.filter fun c => hostPa c.1
    fw := { s.fw with active := s.fw.nextActive, ran := false }
    evlog := s.evlog, retired := s.retired, retiredParts := s.retiredParts, hostOut := s.hostOut
    noMatrix := s.noMatrix.filter fun e => Table.get false s.retired (3 * 2 ^ 32 + e.1)
    agenda := s.agenda, freeSeq := s.freeSeq }

/-- RESET. -/
def execMboxReset (s : State) : Host.Outcome State Fault Refusal := .next (s.onCommand 6 false State.resetPackage)

/-- TIME (R461). -/
def execMboxTime (s : State) : Host.Outcome State Fault Refusal :=
  .next (s.onCommand 7 false fun s => (s.respond (leBytes s.now 8)).mboxDone 0)

/-! Bring-up (R474, R475) -/

/-- Whether a firmware slot may run. -/
def State.fwRuns (s : State) (n : Nat) : Bool :=
  Config.firmwareVerifies (s.fwSlot n) && decide (Config.fusedMinimum ≤ Config.firmwareVersion (s.fwSlot n))

/-- POWER_GOOD (R433, R474, R475): the active firmware slot is verified, and then the other; the registers of R433 take
their reset values. -/
def execPowerGood (s : State) : Host.Outcome State Fault Refusal :=
  .next (
    if s.bring.power then s
    else
      let a := s.fw.active
      let run := if s.fwRuns a then some a else if s.fwRuns (1 - a) then some (1 - a) else none
      { s with
        bring := { s.bring with power := true }
        fw := { s.fw with active := run.getD a, nextActive := run.getD a, ran := run.isSome }
        supq := 0x00101FF0, qtbase := 0, ptroot := 0, pagerq := 0, mcq := 0, imgbase := 0, imgsize := 0, cfgsel := 0 })

/-- The core that an error's resource belongs to: banks are numbered 16 × core + bank and pages of stations 8 × core +
page (log 14). -/
def errorCore (key : Nat) : Option Nat :=
  if key / 2 ^ 32 = 1 then some (key % 2 ^ 32 / 16) else if key / 2 ^ 32 = 2 then some (key % 2 ^ 32 / 8) else none

/-- Whether a resource of a core is retired or under test (R427). -/
def State.coreHeld (s : State) (c : Nat) : Bool :=
  (s.retired.any fun e => e.2 && errorCore e.1 == some c) || s.testing.any fun k => errorCore k == some c

/-- A core joins service: its die is the one in test or has been tested, and nothing of it is retired or in test. -/
def State.joinCore (s : State) (c : Nat) : State :=
  if s.bring.firmware ∧ c < 128 ∧ c / 32 ≤ s.bring.dies.length ∧ !s.coreHeld c then
    { s with inService := Table.set false s.inService c true }
  else s

/-- BRINGUP_STAGE (R475): firmware, D0 to D3 one at a time with their cores, 8-bit and then 4-bit matrix paths. -/
def execBringupStage (what : BringUp) (s : State) : Host.Outcome State Fault Refusal :=
  .next (match what with
  | .firmware => if s.bring.power && s.fw.ran then { s with bring := { s.bring with firmware := true } } else s
  | .core n => s.joinCore n
  | .die d =>
    if s.bring.firmware ∧ d = s.bring.dies.length ∧ d < 4 then
      { s with bring := { s.bring with dies := s.bring.dies ++ [d] }, svcDies := s.svcDies ||| 2 ^ d,
               svcLevel := if d = 3 then 1 else 0 }
    else s
  | .matrix8 =>
    if s.bring.dies.length = 4 ∧ !s.bring.cal8 then { s with bring := { s.bring with cal8 := true }, svcLevel := 2 } else s
  | .matrix4 =>
    if s.bring.cal8 ∧ !s.bring.cal4 then { s with bring := { s.bring with cal4 := true }, svcLevel := 3 } else s)

end Sys2Proof.Machine
end

