-- ==== Sys2Proof/Machine/Errors.lean ====
section
/-! DEFINITION. Errors and their tests (R427–R429), and the tick of the program timestamps (R284). -/

namespace Sys2Proof.Machine

/-- PT_TICK (R284): every program timestamp advances, once for each 16 fabric cycles. -/
def execPtTick (s : State) : Host.Outcome State Fault Refusal :=
  .next (if s.ptTicks < s.cycles / 16 then
    { s with ptTicks := s.ptTicks + 1 }
  else s)

/-- The name of a resource: its class of R427 and its number in the class (log 14). -/
def resourceKey (cls unit : Nat) : Nat := cls * 2 ^ 32 + unit % 2 ^ 32

/-- Bytes poisoned by an uncorrectable error (R428). -/
def State.poisonAt (s : State) (places : List Nat) : State :=
  { s with poison := places.foldl (fun t k => Table.set false t k true) s.poison }

/-- A slice on a resource that is taken out of service (R429): it freezes; one that stands frozen, a thaw that has not resumed
it being complete, is written out, or aborted where its image would hold a poisoned byte. -/
def State.freezeForError (s : State) (x : Slice) : State :=
  if x.status ≠ .frozen then s.beginWave x.id .error
  else if s.holdsPoison x then
    let t : Trap := { Trap.bare with code := 0x50 }
    (s.post (x.field 5 63 32) (recordOf 0 t x.id s.now 0)).abortNow x.id
  else
    let s := s.overtake x .error
    match s.writeOut x.id with
    | some u => u
    | none => s.modSlice x.id fun y => { y with leaving := true }

/-- Whether a slice uses a resource: a core's bank or page, or its matrix unit; of an L2 slice, an HBM row or a link, whose
users the manual does not name, one of `users` (log 14). -/
def Slice.uses (x : Slice) (cls unit : Nat) (users : List Nat) : Bool :=
  x.resident && (match errorCore (resourceKey cls unit) with
    | some c => x.cores.contains c
    | none => if cls = 3 then x.field 4 28 28 == 1 && x.cores.contains unit else users.contains x.id)

/-- A resource taken out of service for its test (R427): a core's bank or page takes its core with it. -/
def State.takeOut (s : State) (cls unit : Nat) : State :=
  let s := { s with testing := s.testing ++ [resourceKey cls unit] }
  match errorCore (resourceKey cls unit) with
  | some c => { s with inService := Table.set false s.inService c false }
  | none => if cls = 3 then { s with noMatrix := Table.set false s.noMatrix unit true } else s

/-- ERROR_DETECTED (R427–R429): a resource fails, the poisoned bytes with it, and the slices that use it freeze. -/
def execErrorDetected (cls unit : Nat) (what : Damage) (s : State) : Host.Outcome State Fault Refusal :=
  .next (
    let s := (s.poisonAt what.poisoned).takeOut cls unit
    (s.slices.filter fun x => x.uses cls unit what.users).foldl (fun (s : State) (x : Slice) => s.freezeForError x) s)

/-- A resource back in service (R427), if nothing else of it or its core is out. -/
def State.putBack (s : State) (cls unit : Nat) : State :=
  match errorCore (resourceKey cls unit) with
  | some c => s.joinCore c
  | none => if cls = 3 then { s with noMatrix := Table.set false s.noMatrix unit false } else s

/-- A failed test (R427): an L2 slice loses `parts` sets, an HBM row goes to a spare when `parts` is not 0, a link loses
`parts` lanes, and each of these goes on; any other resource, a row without a spare, whose frames are unusable, and a link that
loses its last lane, where `parts` is 0, are retired (log 14). -/
def State.retire (s : State) (cls unit parts : Nat) : State :=
  let key := resourceKey cls unit
  if cls = 4 ∨ ((cls = 5 ∨ cls = 6) ∧ parts ≠ 0) then
    { s with retiredParts := Table.set 0 s.retiredParts key (Table.get 0 s.retiredParts key + parts) }
  else { s with retired := Table.set false s.retired key true }

/-- ERROR_TEST_DONE (R427): the resource returns or is retired, and a KIND 5 record is posted (R410). -/
def execErrorTestDone (cls unit : Nat) (e : TestEnd) (s : State) : Host.Outcome State Fault Refusal :=
  .next (
    let key := resourceKey cls unit
    if !s.testing.contains key then s
    else
      let s : State := { s with testing := s.testing.filter fun k => k != key }
      let s := match e with
        | .passed => s.putBack cls unit
        | .failed parts => s.retire cls unit parts
      let t : Trap := { Trap.bare with aux := BitVec.ofNat 64 (cls % 256 + unit % 2 ^ 24 * 256) }
      s.post s.mcq.toNat (recordOf 5 t 0 s.now (if e = .passed then 0 else 1)))

end Sys2Proof.Machine
end

