-- ==== Sys2Proof/Machine/Transfer.lean ====
section
/-! DEFINITION. The transfer unit (R348–R350, R385–R389). An operation reads its source rows and writes its destination rows, and
each unit of its work is one element access: one aligned 64-byte unit of a row (log 13). -/

namespace Sys2Proof.Machine

/-! Units of an operation -/

/-- Unit `u` taken out of ranges of units; none when it is not among them. -/
def pickUnit : List (Nat × Nat) → Nat → Option (List (Nat × Nat))
  | [], _ => none
  | (lo, hi) :: r, u =>
    if lo ≤ u ∧ u < hi then
      some ((if lo < u then [(lo, u)] else []) ++ (if u + 1 < hi then [(u + 1, hi)] else []) ++ r)
    else (pickUnit r u).map fun l => (lo, hi) :: l

/-- The part of `[start, start + len)` inside its `c`-th aligned unit of 64 bytes: first byte and length. -/
def rowChunk (start len c : Nat) : Option (Nat × Nat) :=
  let lo := max start ((start / 64 + c) * 64)
  let hi := min (start + len) ((start / 64 + c + 1) * 64)
  if lo < hi then some (lo, hi - lo) else none

/-- Units of a byte range. -/
def unitsOf (start len : Nat) : Nat := if len = 0 then 0 else (start % 64 + len + 63) / 64

/-- Whether an operation is of the transfer unit and of a kind (R336, R337). -/
def Op.transfers (o : Op) (oper : Nat) : Bool :=
  let w0 := o.words.getD 0 0
  (portOf w0 == 0 || portOf w0 == 5) && operOf w0 == oper

/-- Operations that a transfer unit holds in flight. -/
def State.inFlight (s : State) (inbox : Nat) : Nat :=
  (s.ops.filter fun o => o.inbox == inbox && o.stage == .active).length

/-- Whether an operation that waits in a transfer unit's inbox may start (R348). -/
def State.mayStart (s : State) (n : Nat) (o : Op) : Bool :=
  s.opFirst n o && decide (s.inFlight o.inbox < Config.transferSize)

/-- An operation starts with a number of units to access. -/
def State.startUnits (s : State) (n units : Nat) : State :=
  if units = 0 then s.endOp n 0 0 none else s.modOp n fun o => { o with stage := .active, left := [(0, units)] }

/-- An operation's word `k` as a number. -/
def Op.num (o : Op) (k : Nat) : Nat := (o.words.getD k 0).toNat

/-- The tile of an operation: its key and its shape at the issue. -/
def Op.tileOf (o : Op) : Nat × TileEnt := o.shape.getD (0, TileEnt.reset)

/-- Whether a transfer with a tile fills it. -/
def Op.fillsTile (o : Op) : Bool := o.transfers 3 || (o.transfers 2 && !(o.words.getD 1 0).bit 4)

/-- How the units of a transfer are numbered: first those of the index list; then, row by row, those that read the source; then
those that read what the destination keeps; then those that write it. A row has `n` elements, raw bytes counting as such; the
first `sd` units of a source row and `dd` units of a destination row are those of its elements, the others those of the scale
bytes that stand apart from them. -/
structure Layout where
  skip : Nat
  rows : Nat
  n : Nat
  sd : Nat
  ss : Nat
  kk : Nat
  dd : Nat
  ds : Nat
  deriving DecidableEq, Repr

/-- The first unit that reads what the destination keeps. -/
def Layout.keep (l : Layout) : Nat := l.skip + l.rows * l.ss
/-- The first unit that writes. -/
def Layout.dest (l : Layout) : Nat := l.keep + l.rows * l.kk
/-- The number of units. -/
def Layout.units (l : Layout) : Nat := l.dest + l.rows * l.ds

/-- Rows of `len` bytes moved raw. -/
def rawLayout (skip rows len : Nat) : Layout :=
  { skip := skip, rows := rows, n := len, sd := len / 64 + 2, ss := len / 64 + 2, kk := 0, dd := len / 64 + 2, ds := len / 64 + 2 }

/-- Rows of `n` elements converted: four bytes an element and a scale byte for 32 of them at most. -/
def convLayout (rows n : Nat) : Layout :=
  let d := n / 16 + 2
  let t := n / 2048 + 2
  { skip := 0, rows := rows, n := n, sd := d, ss := d + t, kk := t, dd := d, ds := d + t }

/-- The units of a `COPY`, whose words are destination, source, length and DEC. -/
def copyLayout (o : Op) : Layout :=
  if o.num 3 = 0 then rawLayout 0 0 0
  else if o.num 4 % 2 = 1 then convLayout 1 (o.num 3)
  else
    let a := unitsOf (o.num 2) (o.num 3)
    let b := unitsOf (o.num 1) (o.num 3)
    { skip := 0, rows := 1, n := o.num 3, sd := a, ss := a, kk := 0, dd := b, ds := b }

/-- The units of a `COPY2`. -/
def copy2Layout (o : Op) : Layout :=
  let e := o.tileOf.2
  if (o.words.getD 1 0).bit 5 then convLayout e.rows e.cols else rawLayout 0 e.rows (rowLen e.fmt e.cols)

/-- Units of an index list. -/
def Op.idxUnits (o : Op) : Nat := unitsOf (o.num 3) (4 * o.tileOf.2.rows)

/-- The units of a `GATH` or `SCAT`: its first units are those of the index list. -/
def indexLayout (o : Op) : Layout :=
  let e := o.tileOf.2
  rawLayout o.idxUnits e.rows (rowLen e.fmt e.cols)

/-- The units of a transfer with a tile. -/
def Op.tileLayout (o : Op) : Layout := if o.transfers 2 then copy2Layout o else indexLayout o

/-- The units of a transfer that access its tile. -/
def Op.tileUnits (o : Op) : Nat × Nat :=
  let l := o.tileLayout
  if o.fillsTile then (l.keep, l.units) else (l.skip, l.keep)

/-- Whether the last element access of a transfer to its tile has performed, when the units `left` remain (R341). -/
def Op.tileFree (o : Op) (left : List (Nat × Nat)) : Bool :=
  !(o.fills ++ o.drains).isEmpty && !left.any fun r => decide (r.1 < o.tileUnits.2 ∧ o.tileUnits.1 < r.2)

/-- The tiles of an operation move to READY and EMPTY, and it has no more to do with them (R341). -/
def State.freeTiles (s : State) (n : Nat) (o : Op) : State :=
  (s.releaseTiles o).modOp n fun o => { o with fills := [], drains := [] }

/-- A unit of an operation in progress is done, `rest` remaining: the operation ends with its last (R348), and its tile is free
after the last that accesses it (R341). -/
def State.unitDone (s : State) (n : Nat) (rest : List (Nat × Nat)) : State :=
  if rest.isEmpty then s.endOp n 0 0 none
  else
    let s := s.modOp n fun o => { o with left := rest }
    match s.op? n with
    | some o => if o.tileFree rest then s.freeTiles n o else s
    | none => s

/-- What a unit of a transfer does: nothing, wait, end the operation with a code, read for a row found as given, or write. -/
inductive Move1 where
  | idle (s : State) (row : Option (Nat × Run))
  | wait (s : State)
  | bad (s : State) (code : Nat)
  | read (s : State) (row : Option (Nat × Run)) (p : Span)
  | write (s : State) (p : Span) (bs : List Byte)

/-- A row noted as a transfer has found it first. -/
def Op.noteRow (o : Op) (row : Option (Nat × Run)) : Op :=
  match row with
  | some r => if o.rows.any fun e => e.1 == r.1 then o else { o with rows := r :: o.rows }
  | none => o

/-- Unit `u` of operation `n` makes its element access, as planned; `fin` is what follows. -/
def Move1.run (p : Move1) (n u : Nat) (o : Op) (fin : State → State) : State :=
  match p with
  | .idle s row => fin (s.modOp n fun o => o.noteRow row)
  | .wait s => s
  | .bad s c => s.endOp n c 0 none
  | .read s row p => (s.spanRead o p).then n fun s bs =>
      fin (s.modOp n fun o => { o.noteRow row with bufs := (u, bs) :: o.bufs })
  | .write s p bs => (s.spanWrite o p bs).then n fun s _ => fin s

/-- A transfer's step: it starts, with its units or an error code, or makes the element access of unit `u`. -/
def State.transferStep (s : State) (n u oper : Nat) (units : Op → Except Nat Nat) (plan : State → Op → Nat → Move1) : State :=
  match s.op? n with
  | none => s
  | some o =>
    if !o.transfers oper then s
    else match o.stage with
      | .inbox =>
        if s.mayStart n o then (match units o with
          | .ok k => s.startUnits n k
          | .error c => s.endOp n c 0 none)
        else s
      | .active => (match pickUnit o.left u with
        | none => s
        | some rest => (plan s o u).run n u o fun s => s.unitDone n rest)
      | .ended => s

/-! Rows (R386, R387) -/

/-- The value of an element of a format other than Q4. -/
def pageVal (c bits : Nat) : FVal :=
  if c = 5 then .fin (decide (128 ≤ bits % 256)) (sextNat 8 bits).natAbs 0 else (pageFmt c).read bits

/-- A value as an element of a format other than Q4 (R118). -/
def pageCode (v : Env) (c : Nat) (x : FVal) : Nat :=
  if c = 5 then (ftoiVal v 8 false x).1 else ((pageFmt c).put v (decide (c ≠ 7)) (x.x 0)).1

/-- Codes packed two a byte, the even element low. -/
def codeBytes (cs : List Nat) : List Byte :=
  (List.range (cs.length / 2)).map fun k =>
    BitVec.ofNat 8 (cs.getD (2 * k) 0 % 16 + 16 * (cs.getD (2 * k + 1) 0 % 16))

/-- A conversion's environment: the header's snapshot (R117). -/
def Op.env (o : Op) : Env := Env.ofSnap ((o.words.getD 0 0).field 51 48)

/-- The page format that a row's accesses must find. -/
def Run.page (r : Run) : Option Nat := if r.inMem && r.fmt != 0 then some r.fmt else none

/-- Bytes of an element of a row other than Q4. -/
def Run.width (r : Run) : Nat := if r.fmt = 0 then 1 else elemSize r.fmt

/-- The scale bytes of `n` elements of a Q4 row: first byte and number. -/
def Run.scaleBytes (r : Run) (n : Nat) : Nat × Nat :=
  if r.fmt = 6 then (r.scales + r.first / 32, (r.first + n - 1) / 32 - r.first / 32 + 1) else (0, 0)

/-- The bytes of `n` elements of a row: of a Q4 tile row with the scale bytes that follow them (R274). -/
def Run.data (r : Run) (n : Nat) : Nat × Nat :=
  if r.fmt = 6 then
    if r.inMem then (r.base + r.first / 2, (r.first + n - 1) / 2 - r.first / 2 + 1)
    else (r.base, r.scales - r.base + (r.scaleBytes n).2)
  else (r.base + r.first * r.width, n * r.width)

/-- The scale bytes that stand apart from a row's elements, as in a Q4 page (R109). -/
def Run.apart (r : Run) (n : Nat) : Nat × Nat := if r.inMem then r.scaleBytes n else (0, 0)

/-- The access of the `c`-th aligned unit of a byte range of a row. -/
def Run.span (r : Run) (g : Nat × Nat) (c : Nat) : Option Span :=
  (rowChunk g.1 g.2 c).map fun p => ⟨r.inMem, p.1, p.2, r.page⟩

/-- The access of unit `c` of a row of `n` elements, of whose units the first `d` are those of its elements. -/
def Run.unit (r : Run) (n d c : Nat) : Option Span := if c < d then r.span (r.data n) c else r.span (r.apart n) (c - d)

/-- Bytes that units from `base` on have read of a byte range; none until all have been. -/
def Op.bytesAt (o : Op) (base : Nat) (g : Nat × Nat) (a m : Nat) : Option (List Byte) :=
  ((piecesOf a m).mapM fun p => (o.bufs.find? fun e => e.1 == base + (p.1 / 64 - g.1 / 64)).map fun e =>
    (e.2.drop (p.1 - max g.1 (p.1 / 64 * 64))).take p.2).map List.flatten

/-- Bytes that have been read of a source row whose units begin at `base`. -/
def Run.got (r : Run) (l : Layout) (o : Op) (base a m : Nat) : Option (List Byte) :=
  let g := r.data l.n
  if g.1 ≤ a ∧ a < g.1 + g.2 then o.bytesAt base g a m else o.bytesAt (base + l.sd) (r.apart l.n) a m

/-- The value of element `j` of a source row, once its bytes have been read. -/
def Run.value (r : Run) (l : Layout) (o : Op) (base j : Nat) : Option FVal :=
  let k := r.first + j
  if r.fmt = 6 then
    match r.got l o base (r.base + k / 2) 1, r.got l o base (r.scales + k / 32) 1 with
    | some c, some q => some (q4Value (leNat q) (getNibble (leNat c) k))
    | _, _ => none
  else (r.got l o base (r.base + k * r.width) r.width).map fun bs => pageVal r.fmt (leNat bs)

/-- Block `b` of a Q4 destination row encoded from the source row, with the code type that its scale byte has (R107). -/
def Run.block (r : Run) (l : Layout) (o : Op) (base keep : Nat) (a : Run) (b : Nat) : Option (List Nat × Nat) :=
  match (List.range 32).mapM fun k => a.value l o base (32 * b + k - r.first),
      o.bytesAt keep (r.scaleBytes l.n) (r.scales + b) 1 with
  | some xs, some q =>
    let e := q4Encode o.env.rm (Qt.ofBits (leNat q / 64)) xs
    some (e.1, e.2.1)
  | _, _ => none

/-- The block of a Q4 row that the byte at `p` belongs to. -/
def Run.blockAt (r : Run) (n p : Nat) : Nat :=
  let s := r.scaleBytes n
  if s.1 ≤ p ∧ p < s.1 + s.2 then p - r.scales else (p - r.base) / 16

/-- The byte at `p` of a Q4 row whose block there is encoded so. -/
def Run.q4Byte (r : Run) (n p : Nat) (e : List Nat × Nat) : Byte :=
  let s := r.scaleBytes n
  if s.1 ≤ p ∧ p < s.1 + s.2 then BitVec.ofNat 8 e.2 else (codeBytes e.1).getD ((p - r.base) % 16) 0

/-- The `m` bytes at `p` of a destination row, from the source row `a`; none until what they take has been read. -/
def Run.put (r : Run) (l : Layout) (o : Op) (base keep : Nat) (a : Run) (p m : Nat) : Option (List Byte) :=
  if r.fmt = 0 then a.got l o base (a.base + (p - r.base)) m
  else if r.fmt = 6 then
    ((((List.range m).map fun k => r.blockAt l.n (p + k)).eraseDups).mapM fun b =>
      (r.block l o base keep a b).map fun e => (b, e)).map fun es =>
        (List.range m).map fun k =>
          r.q4Byte l.n (p + k) (((es.find? fun e => e.1 == r.blockAt l.n (p + k)).map fun e => e.2).getD ([], 0))
  else
    let z := r.width
    let q := p - (r.data l.n).1
    let j := q / z
    ((List.range ((q + m - 1) / z + 1 - j)).mapM fun k => a.value l o base (j + k)).map fun xs =>
      ((xs.flatMap fun x => leBytes (pageCode o.env r.fmt x) z).drop (q - j * z)).take m

/-- Where a transfer finds row `r` at one side: with what follows for it as it is found. -/
abbrev Finder := State → Nat → (State → Run → Move1) → Move1

/-- What unit `u` of a transfer does, which finds its source rows and its destination rows so. -/
def movePlan (l : Layout) (src dst : Finder) (s : State) (o : Op) (u : Nat) : Move1 :=
  if u < l.keep then
    let r := (u - l.skip) / l.ss
    src s r fun s a => match a.unit l.n l.sd ((u - l.skip) % l.ss) with
      | none => .idle s (some (r, a))
      | some p => .read s (some (r, a)) p
  else if u < l.dest then
    dst s ((u - l.keep) / l.kk) fun s b => match b.span (b.scaleBytes l.n) ((u - l.keep) % l.kk) with
      | none => .idle s none
      | some p => .read s none p
  else
    let r := (u - l.dest) / l.ds
    dst s r fun s b => match b.unit l.n l.dd ((u - l.dest) % l.ds), (o.rows.find? fun e => e.1 == r).map fun e => e.2 with
      | none, _ => .idle s none
      | some _, none => .wait s
      | some p, some a => match b.put l o (l.skip + r * l.ss) (l.keep + r * l.kk) a p.addr p.len with
        | some bs => .write s p bs
        | none => .wait s

/-- Bytes moved raw to or from the address `a`. -/
def rawRun (a : Nat) : Run := ⟨0, true, a, 0, 0⟩

/-- The row of `n` elements at `va`, in the format of the page there; each of its accesses checks that its page has that format
(log 34). `whole` says that it is a destination, which Q4 takes in whole blocks only (R386). -/
def State.runAt (s : State) (o : Op) (va : Word) (acc n : Nat) (whole : Bool) (go : State → Run → Move1) : Move1 :=
  match s.opXlate o va acc with
  | .wait s => .wait s
  | .bad s c => .bad s c
  | .ok s x =>
    if x.fmt = 0 ∨ 8 ≤ x.fmt then .bad s 0x04
    else if x.fmt = 6 then
      let f := 2 * (va.toNat - x.base)
      if (whole ∧ (n % 32 ≠ 0 ∨ f % 32 ≠ 0)) ∨ 15 * x.size / 8 < f + n then .bad s 0x04
      else go s ⟨6, true, x.base, x.base + 15 * x.size / 16, f⟩
    else go s ⟨x.fmt, true, va.toNat, 0, 0⟩

/-! COPY and CFILL -/

/-- One unit of a `COPY`. -/
def copyPlan (s : State) (o : Op) (u : Nat) : Move1 :=
  let dst := o.words.getD 1 0
  let src := o.words.getD 2 0
  let n := o.num 3
  if o.num 4 % 2 = 1 then
    movePlan (copyLayout o) (fun s _ go => s.runAt o src 1 n false go) (fun s _ go => s.runAt o dst 2 n true go) s o u
  else movePlan (copyLayout o) (fun s _ go => go s (rawRun src.toNat)) (fun s _ go => go s (rawRun dst.toNat)) s o u

/-- COPY_OP (R385, R386). -/
def execCopyOp (n u : Nat) (s : State) : Host.Outcome State Fault Refusal :=
  .next (s.transferStep n u 1 (fun o => .ok (copyLayout o).units) copyPlan)

/-- One unit of a `CFILL`. -/
def fillPlan (s : State) (o : Op) (u : Nat) : Move1 :=
  match rowChunk (o.num 1) (o.num 3) u with
  | none => .idle s none
  | some (lo, m) => .write s ⟨true, lo, m, none⟩ ((List.range m).map fun k => BitVec.ofNat 8 (o.num 2 / 256 ^ ((lo + k) % 8)))

/-- CFILL_OP (R385). -/
def execCfillOp (n u : Nat) (s : State) : Host.Outcome State Fault Refusal :=
  .next (s.transferStep n u 5 (fun o => .ok (unitsOf (o.num 1) (o.num 3))) fillPlan)

/-! Tiles and memory rows (R387, R388) -/

/-- The tile that an operation fills or drains: key, and whether it is filled. -/
def Op.tile1 (o : Op) : Nat × Bool :=
  match o.fills, o.drains with
  | k :: _, _ => (k, true)
  | [], k :: _ => (k, false)
  | [], [] => (0, false)

/-- The place of row `r` of a tile. -/
def TileEnt.rowPlace (e : TileEnt) (key r : Nat) : Nat :=
  localPlace (key / 128) (BitVec.ofNat 64 (e.base + r * e.pitch))

/-- Row `r` of the tile of an operation, moved raw or as elements of its format. -/
def Op.tileRun (o : Op) (raw : Bool) (r : Nat) : Run :=
  let (k, e) := o.tileOf
  let p := e.rowPlace k r
  if raw then ⟨0, false, p, 0, 0⟩ else ⟨e.fmt, false, p, p + e.cols / 2, 0⟩

/-- A pitch, or the row length that 0 stands for. -/
def pitchOf (p row : Nat) : Nat := if p = 0 then row else p

/-- The memory row length of a page format. -/
def memRow (fmt cols : Nat) : Nat := if fmt = 6 then cols / 2 else cols * elemSize fmt

/-- The address of a memory row. -/
def rowAddr (base : Word) (i pitch : Nat) : Word := base + BitVec.ofNat 64 (i * pitch)

/-- The pitch of a converting `COPY2`, with which `go` continues: 0 means the memory row's length. -/
def State.convPitch (s : State) (o : Op) (cols acc : Nat) (go : State → Nat → Move1) : Move1 :=
  if o.num 3 ≠ 0 then go s (o.num 3)
  else match s.opXlate o (o.words.getD 2 0) acc with
    | .wait s => .wait s
    | .bad s c => .bad s c
    | .ok s x => go s (memRow x.fmt cols)

/-- The memory rows of a `COPY2`. -/
def copy2Rows (o : Op) : Finder := fun s r go =>
  let e := o.tileOf.2
  let base := o.words.getD 2 0
  if (o.words.getD 1 0).bit 5 then
    let acc := if o.fillsTile then 1 else 2
    s.convPitch o e.cols acc fun s pitch => s.runAt o (rowAddr base r pitch) acc e.cols (!o.fillsTile) go
  else go s (rawRun (rowAddr base r (pitchOf (o.num 3) (rowLen e.fmt e.cols))).toNat)

/-- The rows of an operation's tile. -/
def tileRows (o : Op) (raw : Bool) : Finder := fun s r go => go s (o.tileRun raw r)

/-- One unit of a `COPY2`. -/
def copy2Plan (s : State) (o : Op) (u : Nat) : Move1 :=
  let t := tileRows o !(o.words.getD 1 0).bit 5
  if o.fillsTile then movePlan (copy2Layout o) (copy2Rows o) t s o u else movePlan (copy2Layout o) t (copy2Rows o) s o u

/-- Units of a `COPY2`; one that converts a tile of FMT 0 ends with FORMAT (R387). -/
def copy2Units (o : Op) : Except Nat Nat :=
  if (o.words.getD 1 0).bit 5 ∧ o.tileOf.2.fmt = 0 then .error 0x04 else .ok (copy2Layout o).units

/-- COPY2_OP (R387). -/
def execCopy2Op (n u : Nat) (s : State) : Host.Outcome State Fault Refusal :=
  .next (s.transferStep n u 2 copy2Units copy2Plan)

/-- A byte of the index list, once it has been read. -/
def Op.idxByte (o : Op) (k : Nat) : Option Byte :=
  o.idxs.findSome? fun e => if e.1 ≤ k then e.2[k - e.1]? else none

/-- The index of a row, once its bytes have been read. -/
def Op.idxOf (o : Op) (r : Nat) : Option Nat :=
  ((List.range 4).mapM fun k => o.idxByte (4 * r + k)).map leNat

/-- A unit of the index list read: an element access that precedes only the row accesses that use it (R388). -/
def State.readIndices (s : State) (n u : Nat) (o : Op) (rest : List (Nat × Nat)) : State :=
  match rowChunk (o.num 3) (4 * o.tileOf.2.rows) u with
  | none => s.unitDone n rest
  | some (lo, m) => (s.opRead1 o (BitVec.ofNat 64 lo) m).then n fun s bs =>
    (s.modOp n fun o => { o with idxs := o.idxs ++ [(lo - o.num 3, bs)] }).unitDone n rest

/-- The memory rows of a `GATH` or `SCAT`: a row is found once its index has been read. -/
def indexRows (o : Op) : Finder := fun s r go =>
  let e := o.tileOf.2
  match o.idxOf r with
  | none => .wait s
  | some j => go s (rawRun (rowAddr (o.words.getD 2 0) j (pitchOf (o.num 4) (rowLen e.fmt e.cols))).toNat)

/-- One unit of the rows of a `GATH` or `SCAT`. -/
def indexPlan (s : State) (o : Op) (u : Nat) : Move1 :=
  if o.fillsTile then movePlan (indexLayout o) (indexRows o) (tileRows o true) s o u
  else movePlan (indexLayout o) (tileRows o true) (indexRows o) s o u

/-- A `GATH` or `SCAT`. -/
def State.indexed (s : State) (n u oper : Nat) : State :=
  match s.op? n with
  | none => s
  | some o =>
    if o.transfers oper ∧ o.stage = .active ∧ u < o.idxUnits then
      match pickUnit o.left u with
      | none => s
      | some rest => s.readIndices n u o rest
    else s.transferStep n u oper (fun o => .ok (indexLayout o).units) indexPlan

/-- GATH_OP (R388). -/
def execGathOp (n u : Nat) (s : State) : Host.Outcome State Fault Refusal := .next (s.indexed n u 3)

/-- SCAT_OP (R388, R389). -/
def execScatOp (n u : Nat) (s : State) : Host.Outcome State Fault Refusal := .next (s.indexed n u 4)

/-- The number of units in some ranges. -/
def countUnits (l : List (Nat × Nat)) : Nat := (l.map fun r => r.2 - r.1).sum

/-- The `k`-th of the units in some ranges. -/
def nthUnit : List (Nat × Nat) → Nat → Option Nat
  | [], _ => none
  | r :: l, k => if k < r.2 - r.1 then some (r.1 + k) else nthUnit l (k - (r.2 - r.1))

/-- The lowest of the units left that is not below `d`. -/
def lowestFrom (d : Nat) (l : List (Nat × Nat)) : Option Nat :=
  (l.filterMap fun r => if d < r.2 then some (max d r.1) else none).foldl (fun m n => some (match m with
    | some k => min k n
    | none => n)) none

/-! PUT and GET (R385, R463, R464) -/

/-- Whether a package is a member of the job (R457). -/
def State.member (s : State) (p : Nat) : Bool := s.inJob && (s.cfgItem 0 6 1 0).bit p

/-- A channel to and from a package. -/
def State.chan (s : State) (p : Nat) : Chan := Table.get Chan.reset s.chans p

/-- A channel replaced. -/
def State.setChan (s : State) (p : Nat) (c : Chan) : State := { s with chans := Table.set Chan.reset s.chans p c }

/-- Sequenced requests to a package without a reply. -/
def State.unanswered (s : State) (p : Nat) : Nat := (s.outReqs.filter fun r => r.pkg == p && r.sq.isSome).length

/-- A request leaves for a package. -/
def State.sendOut (s : State) (p op : Nat) (seqd : Bool) (ws : List Word) : State :=
  let c := s.chan p
  let r : OutReq := { pkg := p, sq := if seqd then some c.nextOut else none, op := op, words := ws, sentAt := s.now,
                      firstAt := s.now }
  let s := { s with outReqs := s.outReqs ++ [r] }
  if seqd then s.setChan p { c with nextOut := (c.nextOut + 1) % 2 ^ 32 } else s

/-- An operation on another package ends; its requests are forgotten. -/
def State.endRemote (s : State) (n id code rcode : Nat) (result : Option Word) : State :=
  ({ s with outReqs := s.outReqs.filter fun r => r.op != id } : State).endOp n code rcode result

/-- The next free value taken. -/
def State.nextFree (s : State) : State := { s with freeSeq := s.freeSeq + 1 }

/-- What another package finds of an address that a `PUT` or `GET` names: OK, XLATE or PROT, which of them is free. -/
def remoteCode (k : Nat) : Nat := [0, 0x02, 0x03].getD ((Config.remoteStatus k).toNat % 3) 0

/-- One unit of the local range of a `PUT` read, and sent as a sequenced request. -/
def State.putUnit (s : State) (n u : Nat) (o : Op) (p : Nat) (rest : List (Nat × Nat)) : State :=
  let gone := fun (s : State) => s.modOp n fun o => { o with left := rest }
  match rowChunk (o.num 1) (o.num 3) u with
  | none => gone s
  | some (lo, m) => (s.opRead1 o (BitVec.ofNat 64 lo) m).then n fun s bs =>
    gone (s.sendOut p o.id true (o.words.take 4 ++ [BitVec.ofNat 64 u] ++ wordsOf bs 8))

/-- One unit of the local range of a `GET` answered: an error ends it without the access, else what the other package
returns, which is free, is written. -/
def State.getUnit (s : State) (n u : Nat) (o : Op) (rest : List (Nat × Nat)) : State :=
  let code := remoteCode s.freeSeq
  if code ≠ 0 then s.nextFree.endRemote n o.id code 0 none
  else
    let gone := fun (s : State) =>
      if rest.isEmpty then s.nextFree.endRemote n o.id 0 0 none else s.nextFree.modOp n fun o => { o with left := rest }
    match rowChunk (o.num 1) (o.num 3) u with
    | none => gone s
    | some (lo, m) =>
      (s.opWrite1 o (BitVec.ofNat 64 lo) ((List.range m).map fun k => Config.remoteByte s.freeSeq k)).then n fun s _ => gone s

/-- The reply to the oldest request of a `PUT`. -/
def State.putReply (s : State) (n : Nat) (o : Op) : State :=
  match s.outReqs.find? fun r => r.op == o.id with
  | none => s
  | some r =>
    let code := remoteCode s.freeSeq
    let s := ({ s with outReqs := s.outReqs.erase r } : State).nextFree
    if code ≠ 0 ∨ (o.left.isEmpty ∧ !s.outReqs.any fun r => r.op == o.id) then s.endRemote n o.id code 0 none else s

/-- One step of a `PUT` or `GET` on another package: event `u` is a unit of the local range, or the reply to the oldest
request when no unit is left. -/
def State.remoteTransfer (s : State) (n u oper : Nat) : State :=
  match s.op? n with
  | none => s
  | some o =>
    let p := o.num 4 % 64
    let units := unitsOf (o.num 1) (o.num 3)
    if !o.transfers oper then s
    else match o.stage with
      | .inbox =>
        if !s.mayStart n o then s
        else if !s.member p then s.endOp n 0x06 0 none
        else
          let s := if oper = 7 ∧ units ≠ 0 then s.sendOut p o.id false o.words else s
          s.startUnits n units
      | .active => (match pickUnit o.left u with
        | some rest =>
          if oper = 7 then s.getUnit n u o rest
          else if Config.channelWindow ≤ s.unanswered p then s
          else s.putUnit n u o p rest
        | none => s.putReply n o)
      | .ended => s

/-- The `COPY` that a `PUT` or `GET` on the issuer's own package is: destination, source, length. -/
def Op.asCopy (o : Op) (put : Bool) : Op :=
  let a := o.words.getD 1 0
  let b := o.words.getD 2 0
  { o with words := [o.words.getD 0 0, if put then b else a, if put then a else b, o.words.getD 3 0, 0] }

/-- A `PUT` or `GET`. -/
def State.putGet (s : State) (n u oper : Nat) : State :=
  match s.op? n with
  | none => s
  | some o =>
    if o.num 4 % 64 = s.pkgNumber then
      s.transferStep n u oper (fun o => .ok (copyLayout (o.asCopy (oper == 6))).units) fun s o u =>
        copyPlan s (o.asCopy (oper == 6)) u
    else s.remoteTransfer n u oper

/-- GET_OP (R385, R464). -/
def execGetOp (n u : Nat) (s : State) : Host.Outcome State Fault Refusal := .next (s.putGet n u 7)

end Sys2Proof.Machine
end

