-- ==== Sys2Proof/Machine/Matrix.lean ====
section
/-! DEFINITION. The matrix unit (R119–R122, R352–R355, R390, R391): operations take effect one at a time, in issue order,
one element access a step (log 13). -/

namespace Sys2Proof.Machine

/-! AX (R119, R120) -/

/-- The value of an AX cell. -/
def axVal (w : Word) : FVal :=
  let x := w.field 62 51
  let m := w.field 50 0
  if x = 0 then .fin false 0 0
  else if x = 0xFFF then (if m = 0 then .inf (w.bit 63) else .nan false)
  else .fin (w.bit 63) (2 ^ 51 + m) ((x : Int) - 2098)

/-- An AX word. -/
def axWord (neg : Bool) (x m : Nat) : Word := BitVec.ofNat 64 ((if neg then 2 ^ 63 else 0) + x * 2 ^ 51 + m)

/-- A finite value rounded once to AX under RNE, with MOVF when it saturates (R120). -/
def axRound (neg : Bool) (m : Nat) (e : Int) : Word × Nat :=
  if m = 0 then (0, 0)
  else
    let u : Int := e + bitLen m - 52
    let (q, c, inexact) := if u ≤ e then (m * 2 ^ (e - u).toNat, 0, false) else splitAt m (u - e).toNat false
    let q := if roundUp .rne neg q c inexact then q + 1 else q
    let (q, u) := if q = 2 ^ 52 then (2 ^ 51, u + 1) else (q, u)
    let x := u + 51 + 2047
    if x < 1 then (0, 0)
    else if 0xFFE < x then (axWord neg 0xFFE (2 ^ 51 - 1), 1)
    else (axWord neg x.toNat (q - 2 ^ 51), 0)

/-- An exact result put into AX, with the MXSTAT bits that it sets (R120, R353). -/
def axPut : XVal → Word × Nat
  | .nan _ => (axWord false 0xFFF (2 ^ 50), 2)
  | .inf neg _ => (axWord neg 0xFFF 0, 2)
  | .fin neg m e _ => axRound neg m e

/-! A pass (R121) -/

/-- The exponent at which the products of a dot product are added: below every product's. -/
def dotExp : Int := -600

/-- The exact sum of products so far: an invalid product or a NaN, infinities of each sign, the finite sum. -/
structure DotSum where
  nan : Bool
  pinf : Bool
  ninf : Bool
  sum : Int
  deriving DecidableEq, Repr

/-- One product added. -/
def DotSum.add (d : DotSum) (p : FVal) : DotSum :=
  match p with
  | .nan _ => { d with nan := true }
  | .inf neg => if neg then { d with ninf := true } else { d with pinf := true }
  | .fin neg m e => { d with sum := d.sum + scaled neg m e dotExp }

/-- The sum as a value. -/
def DotSum.value (d : DotSum) : FVal :=
  if d.nan || (d.pinf && d.ninf) then .nan false
  else if d.pinf then .inf false
  else if d.ninf then .inf true
  else .fin (decide (d.sum < 0)) d.sum.natAbs dotExp

/-- The exact dot product of two lists of values. -/
def dotOf (xs ys : List FVal) : FVal :=
  ((xs.zip ys).foldl (fun (d : DotSum) p => d.add (mulV p.1 p.2).1) ⟨false, false, false, 0⟩).value

/-- A cell after a pass: its AX value plus the dot product, rounded once. -/
def passCell (cell : Word) (p : FVal) : Word × Nat := axPut (addX .rne (axVal cell) p)

/-! Planes and accumulator -/

/-- The matrix unit of a core replaced. -/
def State.setUnit (s : State) (core : Nat) (u : Mx) : State := { s with mx := Table.set Mx.reset s.mx core u }

/-- A plane's element at row k and column n. -/
def Plane.val (p : Plane) (k n : Nat) : FVal :=
  let code := Table.get 0 p.cells (256 * k + n)
  if p.fmt = 6 then q4Value (Table.get 0 p.scales (256 * k + n / 32)) code else pageVal p.fmt code

/-- Column n of a plane. -/
def Plane.column (p : Plane) (n : Nat) : List FVal := (List.range p.k).map fun k => p.val k n

/-- An accumulator cell. -/
def Mx.cell (u : Mx) (row col : Nat) : Word := Table.get 0 u.acc (256 * row + col)

/-- One row of a pass: a row of activations added into an accumulator row (R121, R355). -/
def Mx.passRow (u : Mx) (row : Nat) (xs : List FVal) : Mx :=
  (List.range u.active.n).foldl (fun (u : Mx) n =>
    let (w, f) := passCell (u.cell row n) (dotOf xs (u.active.column n))
    { u with acc := Table.set 0 u.acc (256 * row + n) w, stat := u.stat ||| f }) u

/-! Rows of tiles -/

/-- The element accesses of row `r` of a tile. -/
def TileEnt.rowSpans (e : TileEnt) (key r : Nat) : List Span := spansIn false (e.rowPlace key r) (rowLen e.fmt e.cols) none

/-- The element accesses of a tile, row by row. -/
def TileEnt.allSpans (e : TileEnt) (key : Nat) : List Span := (List.range e.rows).flatMap fun r => e.rowSpans key r

/-- Bytes cut into rows of `n`. -/
def rowsOf (n rows : Nat) (bs : List Byte) : List (List Byte) := (List.range rows).map fun r => (bs.drop (n * r)).take n

/-- The code of element `j` of a tile row. -/
def rowCode (fmt : Nat) (bs : List Byte) (j : Nat) : Nat :=
  if fmt = 6 then getNibble (bs.getD (j / 2) 0).toNat j else leNat ((bs.drop (j * elemSize fmt)).take (elemSize fmt))

/-- The value of element `j` of a tile row. -/
def rowVal (e : TileEnt) (bs : List Byte) (j : Nat) : FVal :=
  if e.fmt = 6 then q4Value (bs.getD (e.cols / 2 + j / 32) 0).toNat (rowCode 6 bs j) else pageVal e.fmt (rowCode e.fmt bs j)

/-- The plane that a weight tile's rows load. -/
def planeOf (e : TileEnt) (rows : List (List Byte)) : Plane :=
  let cells := (rows.mapIdx fun k bs => (List.range e.cols).map fun n => (256 * k + n, rowCode e.fmt bs n)).flatten
  let scales := (rows.mapIdx fun k bs => (List.range (e.cols / 32)).map fun b =>
    (256 * k + b, (bs.getD (e.cols / 2 + b) 0).toNat)).flatten
  { fmt := e.fmt, k := e.rows, n := e.cols, cells := cells.filter fun c => decide (c.2 ≠ 0),
    scales := if e.fmt = 6 then scales.filter fun c => decide (c.2 ≠ 0) else [] }

/-- The row that a readout writes (R122): `old` holds the row's scale bytes as they stand when the readout begins. -/
def readoutRow (e : TileEnt) (v : Env) (old : List Byte) (cells : List Word) : List Byte :=
  if e.fmt = 0 then bytesOf cells
  else if e.fmt = 6 then
    let blocks := (List.range (e.cols / 32)).map fun b =>
      q4Encode v.rm (Qt.ofBits ((old.getD b 0).toNat / 64)) (((cells.drop (32 * b)).take 32).map axVal)
    codeBytes (blocks.flatMap fun c => c.1) ++ blocks.map fun c => BitVec.ofNat 8 c.2.1
  else cells.flatMap fun w => leBytes (pageCode v e.fmt (axVal w)) (elemSize e.fmt)

/-! Operations -/

/-- The key of the tile that a matrix message names in bits [hi:lo] of w1. -/
def Op.mxTile (o : Op) (hi lo : Nat) : Nat :=
  let w0 := o.words.getD 0 0
  128 * coreOf w0 + 16 * w0.field 8 6 + (o.words.getD 1 0).field hi lo

/-- The status that an operation reports is the matrix unit's as it stands (R345, R353). -/
def State.noteStat (s : State) (n core : Nat) : State := s.modOp n fun o => { o with mxstat := (s.unit core).stat }

/-- A row of a matrix operation is done, and the operation with its last. -/
def State.rowDone (n core r rows : Nat) (s : State) : State :=
  if r + 1 < rows then s.modOp n fun o => { o.dropProg 0 with left := [(r + 1, rows)] }
  else (s.noteStat n core).endOp n 0 0 none

/-- A matrix operation's step, when it is next in issue order: it starts, with `rows` rows, if its tiles still fit the
planes (R354), or `act` makes the next element access of row `r`; its last argument is the end of the row. -/
def State.matrixStep (s : State) (n oper : Nat) (rows : State → Op → Nat)
    (act : State → Op → Nat → (State → State) → State) : State :=
  match s.op? n with
  | none => s
  | some o =>
    let core := o.inbox - 128
    if o.inbox / 128 ≠ 1 ∨ operOf (o.words.getD 0 0) ≠ oper ∨ o.stage = .ended ∨ !s.opAlone n o then s
    else
      let s := s.noteStat n core
      match o.left with
      | (r, hi) :: _ => act s o r (State.rowDone n core r hi)
      | [] =>
        let u := s.unit core
        let p : Planes := ⟨(u.active.fmt, u.active.k, u.active.n), (u.shadow.fmt, u.shadow.k, u.shadow.n)⟩
        match matrixCheck p (fun t => s.tile (128 * core + 16 * (o.words.getD 0 0).field 8 6 + t)) o.words with
        | some c => s.endOp n (if c = 0x14 then 0x04 else 0x05) 0 none
        | none => s.modOp n fun o => { o with stage := .active, left := [(0, rows s o)] }

/-- A matrix operation that accesses no tile: it changes the unit of its core. -/
def State.unitOp (s : State) (n oper : Nat) (f : Op → Mx → Mx) : State :=
  s.matrixStep n oper (fun _ _ => 1) fun s o _ fin => fin (s.setUnit (o.inbox - 128) (f o (s.unit (o.inbox - 128))))

/-- Rows of the tile that a matrix message names in bits [hi:lo] of w1. -/
def mxRows (hi lo : Nat) (s : State) (o : Op) : Nat := (s.tile (o.mxTile hi lo)).rows

/-- An access of row `r` of the activation tile; its last passes the row (R121). -/
def passAct (n : Nat) (s : State) (o : Op) (r : Nat) (fin : State → State) : State :=
  let core := o.inbox - 128
  let k := o.mxTile 3 0
  let e := s.tile k
  s.pull n 0 o (e.rowSpans k r) fun bs =>
    fin (s.setUnit core ((s.unit core).passRow (o.num 2 + r) ((List.range e.cols).map fun j => rowVal e bs j)))

/-- The accesses that read a Q4 destination's scale bytes as a readout begins (R122). -/
def TileEnt.scaleSpans (e : TileEnt) (key : Nat) : List Span :=
  if e.fmt = 6 then (List.range e.rows).flatMap fun r => spansIn false (e.rowPlace key r + e.cols / 2) (e.cols / 32) none else []

/-- An access of a readout, whose row `r` is the next, into the destination tile (R122). -/
def readoutAct (n : Nat) (s : State) (o : Op) (r : Nat) (fin : State → State) : State :=
  let core := o.inbox - 128
  let k := o.mxTile 7 4
  let e := s.tile k
  s.pull n 1 o (e.scaleSpans k) fun old =>
    let cells := (List.range e.cols).map fun c => (s.unit core).cell (o.num 2 + r) c
    s.push n 0 o (splitOver (e.rowSpans k r) (readoutRow e o.env (old.drop (e.cols / 32 * r)) cells)) fin

/-- The activation tile of an operation is released: its last row has been read (R391). -/
def State.releaseRead (n : Nat) (s : State) : State :=
  match s.op? n with
  | some o => (s.releaseTiles { o with fills := [] }).modOp n fun o => { o with drains := [] }
  | none => s

/-- LDW_OP (R355): the shadow plane takes the tile once every row has been read (log 13). -/
def execLdwOp (n : Nat) (s : State) : Host.Outcome State Fault Refusal :=
  .next (s.matrixStep n 0x10 (fun _ _ => 1) fun s o _ fin =>
    let core := o.inbox - 128
    let k := o.mxTile 3 0
    let e := s.tile k
    s.pull n 0 o (e.allSpans k) fun bs =>
      fin (s.setUnit core { s.unit core with shadow := planeOf e (rowsOf (rowLen e.fmt e.cols) e.rows bs) }))

/-- SWAPW_OP (R355). -/
def execSwapwOp (n : Nat) (s : State) : Host.Outcome State Fault Refusal :=
  .next (s.unitOp n 0x11 fun _ u => { u with active := u.shadow, shadow := u.active })

/-- MMA_OP (R121, R355). -/
def execMmaOp (n : Nat) (s : State) : Host.Outcome State Fault Refusal :=
  .next (s.matrixStep n 0x12 (mxRows 3 0) (passAct n))

/-- ACCRD_OP (R122, R355). -/
def execAccrdOp (n : Nat) (s : State) : Host.Outcome State Fault Refusal :=
  .next (s.matrixStep n 0x13 (mxRows 7 4) (readoutAct n))

/-- ACCZ_OP (R355, R391). -/
def execAcczOp (n : Nat) (s : State) : Host.Outcome State Fault Refusal :=
  .next (s.unitOp n 0x14 fun o u =>
    let lo := 256 * o.num 2
    { u with acc := Table.clear u.acc lo (lo + 256 * o.num 3), stat := if (o.words.getD 4 0).bit 0 then 0 else u.stat })

/-- MMAW_OP (R355): the rows of the pass, then those of the readout. -/
def execMmawOp (n : Nat) (s : State) : Host.Outcome State Fault Refusal :=
  .next (s.matrixStep n 0x15 (fun s o => 2 * mxRows 3 0 s o) fun s o r fin =>
    let m := mxRows 3 0 s o
    if r < m then passAct n s o r fun s => fin (if r + 1 = m then s.releaseRead n else s)
    else readoutAct n s o (r - m) fin)

end Sys2Proof.Machine
end

