-- ==== Sys2Proof/Machine/Remote.lean ====
section
/-! DEFINITION. Remote operations of port 6 (R462–R464): applied on this package for one of its own operations or for a
request of another package; sent to another package and answered; sent again; given up. -/

namespace Sys2Proof.Machine

/-! Applying an operation on this package -/

/-- What applying comes to: it waits, is applied with a value, or ends with a status and refusal code. -/
inductive Applying where
  | wait (s : State)
  | ok (s : State) (w : Word)
  | err (s : State) (code rcode : Nat)

/-- Who asks: the translation that its accesses take, and the party that makes them. -/
structure Asker where
  walk : State → Word → Nat → OpGot
  party : Party

/-- The translation of a request from another package (R462): a miss stalls it under this package's pager. -/
def State.remoteXlate (s : State) (va : Word) (acc : Nat) : OpGot :=
  match s.unitXlate va acc with
  | (.leaf x, true) => .ok s x
  | (.leaf _, false) => .bad s 0x03
  | (.fault, _) => .bad s 0x02
  | (.miss, _) =>
    if s.walks.any fun w => decide (w.who = .unit ∧ w.va = va) && w.posted then .wait s
    else .wait (s.requestWalk ⟨0, va, acc, .unit, false⟩)

/-- An update of a key (R299, R462, R463). -/
def State.applyUpd (s : State) (k : Asker) (key value : Word) (t : Ty) : Applying :=
  match k.walk s key 2 with
  | .wait s => .wait s
  | .bad s c => .err s c 0
  | .ok s x => match s.updTrap key t x.y, s.regionAt false key.toNat with
    | some c, _ => if c = 0x14 then .err s 0x04 0 else .err s 0x07 3
    | none, none => .err s 0x07 3
    | none, some g =>
      let size := (s.region g).size
      let pa := x.pa / size * size
      if s.barred none pa size then .wait s
      else match s.binUpdate g (key.toNat / size * size) pa (lane t value 0) with
        | none => .wait (s.beginStall pa)
        | some u => .ok (u.storeTs k.party pa size) 0

/-- An append of 64 bytes (R463). -/
def State.applyEnq (s : State) (h : Nat) (d : List Word) : Applying :=
  match s.appendPlain none h d with
  | .wait => .wait s
  | .ok u j => .ok u (BitVec.ofNat 64 (j % 2 ^ 63))
  | r => .err (r.state s) 0x07 r.code

/-- An atomic add of a counter (R343, R462). -/
def State.applyAdd (s : State) (k : Asker) (va inc : Word) : Applying :=
  match k.walk s (counterAt va) 3 with
  | .wait s => .wait s
  | .bad s c => .err s c 0
  | .ok s x =>
    if s.barred none x.pa 8 then .wait s
    else .ok (s.counterAdd k.party x (inc.field 62 0) (inc.bit 63)) 0

/-- An atomic (R320, R462) with the flags dropped: its value is the old element. -/
def State.applyAtom (s : State) (k : Asker) (va b c : Word) (t : Ty) (op : Aop) (v : Env) : Applying :=
  let size := if t = .q then 8 else 4
  match k.walk s (alignDown va size) 3 with
  | .wait s => .wait s
  | .bad s c => .err s c 0
  | .ok s x =>
    if s.barred none x.pa size then .wait s
    else
      let s := s.loadVia k.party x x.pa size
      if s.poisoned x.pa size then .err s 0x100 0
      else
        let old := leNat (rdBytes s.mem x.pa size)
        let new := (atomNew op t v old (lane t b 0) (lane t c 0)).1
        let s := if op = .cas ∧ old ≠ lane t b 0 then s else s.storeVia k.party x x.pa (leBytes new size)
        .ok s (BitVec.ofNat 64 old)

/-- The bytes of a `PUT` request written: no piece before each has its translation. -/
def State.applyPut (k : Asker) : List (Nat × List Byte) → State → (State → State) → Applying
  | [], s, write => .ok (write s) 0
  | (va, bs) :: r, s, write => match k.walk s (BitVec.ofNat 64 va) 2 with
    | .wait s => .wait s
    | .bad s c => .err s c 0
    | .ok s x =>
      if s.barred none x.pa bs.length then .wait s
      else State.applyPut k r s fun s =>
        (write s).storeVia k.party x x.pa bs

/-! An operation of this package -/

/-- The package that an operation names. -/
def Op.package (o : Op) : Nat := o.num 1 % 64

/-- The type that RATOM names (R462). -/
def Op.atomTy (o : Op) : Ty := match (o.words.getD 4 0).field 5 4 with | 0 => .q | 1 => .d2 | _ => .f

/-- An operation with the given OPER applied here; `desc` is the descriptor that RENQ read. -/
def State.applyOwn (s : State) (o : Op) (oper : Nat) (desc : List Byte) : Applying :=
  let k : Asker := ⟨fun s va acc => s.opXlate o va acc, o.party⟩
  let w := fun k => o.words.getD k 0
  if oper = 0x60 then s.applyUpd k (w 2) (w 3) ((Ty.ofCode (BitVec.ofNat 3 (o.num 4))).getD .q)
  else if oper = 0x61 then match s.applyEnq ((w 3).field 31 0) (wordsOf desc 8) with
    | .ok s _ => .ok s 0
    | r => r
  else if oper = 0x62 then s.applyAdd k (w 2) (w 3)
  else s.applyAtom k (w 2) (w 3) (w 5) o.atomTy ((Aop.ofCode (BitVec.ofNat 4 (o.num 4))).getD .swp) o.env

/-- RENQ reads its 64 bytes at the issuer as one event (R462); `go` has them. -/
def State.withDesc (s : State) (n : Nat) (o : Op) (oper : Nat) (go : List Byte → State) : State :=
  if oper = 0x61 then s.pullMem n 0 o (alignDown (o.words.getD 2 0) 64).toNat 64 go else go []

/-- The end of an operation that has its value: RATOM with RK = 0 writes it at w6 first (R462). -/
def State.endValue (s : State) (n oper : Nat) (w : Word) : State :=
  match s.op? n with
  | none => s
  | some o =>
    let at6 := o.words.getD 6 0
    if oper ≠ 0x63 then s.endRemote n o.id 0 0 none
    else if o.done ∨ at6 = 0 then s.endRemote n o.id 0 0 (some w)
    else
      let s := s.modOp n fun o => { o with stage := .active, result := some w }
      (s.opWrite1 o at6 (leBytes w.toNat 8)).then n fun s _ => s.endRemote n o.id 0 0 none

/-- The status codes with which another package may answer an operation (R463): status and refusal code. -/
def remoteAnswers (oper : Nat) : List (Nat × Nat) :=
  if oper = 0x60 then [(0, 0), (0x02, 0), (0x03, 0), (0x04, 0), (0x07, 3)]
  else if oper = 0x61 then [(0, 0), (0x07, 1), (0x07, 2), (0x07, 3)]
  else [(0, 0), (0x02, 0), (0x03, 0)]

/-- The answer taken as free value `k`. -/
def remoteAnswer (oper k : Nat) : Nat × Nat :=
  (remoteAnswers oper).getD ((Config.remoteStatus k).toNat % (remoteAnswers oper).length) (0, 0)

/-- One step of an operation on another package: its request leaves, then its reply arrives, free in what it says. -/
def State.remoteOut (s : State) (n : Nat) (o : Op) (oper : Nat) : State :=
  let p := o.package
  match o.stage with
  | .ended => s
  | .inbox =>
    if !s.opFirst n o then s
    else if !s.member p then s.endOp n 0x06 0 none
    else if Config.channelWindow ≤ s.unanswered p then s
    else s.withDesc n o oper fun bs =>
      (s.sendOut p o.id true (o.words ++ wordsOf bs (bs.length / 8))).modOp n fun o => { o with stage := .active }
  | .active =>
    let (code, rcode) := remoteAnswer oper s.freeSeq
    let w : Word := if (o.atomTy) = .q then Config.remoteWord s.freeSeq else (Config.remoteWord s.freeSeq).setWidth 32 |>.setWidth 64
    let s := ({ s with outReqs := s.outReqs.filter fun r => r.op != o.id } : State).nextFree
    if code = 0 then s.endValue n oper w else s.endRemote n o.id code rcode none

/-- One step of this package's port-6 operation `n` of a kind. -/
def State.remoteOwn (s : State) (n oper : Nat) : State :=
  match s.op? n with
  | none => s
  | some o =>
    if portOf (o.words.getD 0 0) ≠ 6 ∨ operOf (o.words.getD 0 0) ≠ oper ∨ o.stage = .ended then s
    else match o.result with
      | some w => s.endValue n oper w
      | none =>
        if o.package ≠ s.pkgNumber then s.remoteOut n o oper
        else if !s.opFirst n o then s
        else s.withDesc n o oper fun bs => match s.applyOwn o oper bs with
          | .wait s => s.modOp n fun o => { o with stage := .active }
          | .err s c r => s.endOp n c r none
          | .ok s w => s.endValue n oper w

/-! A request of another package -/

/-- Who asks for another package's requests: no core or link of this package. -/
def inAsker : Asker := ⟨fun s va acc => s.remoteXlate va acc, .unit⟩

/-- A request of another package applied. -/
def State.applyIn (s : State) : InReq → Applying
  | .upd key value ty => s.applyUpd inAsker key value ty
  | .enq desc handle => match s.applyEnq (handle.field 31 0) ((List.range 8).map fun k => desc.getD k 0) with
    | .ok s _ => .ok s 0
    | r => r
  | .add addr inc => s.applyAdd inAsker addr inc
  | .atom addr b c ty aop fpc => s.applyAtom inAsker addr b c ty aop (Env.ofSnap fpc)
  | .put addr bs => State.applyPut inAsker
      ((piecesOf addr.toNat bs.length).map fun p => (p.1, (bs.drop (p.1 - addr.toNat)).take p.2)) s id

/-- The reply to request `sq` of a package kept; the next one's turn has come. -/
def State.replied (s : State) (src sq : Nat) (w : Word) : State :=
  let c := s.chan src
  s.setChan src { nextOut := c.nextOut, nextIn := (sq + 1) % 2 ^ 32, early := c.early.filter fun e => e.1 != sq
                  replies := ((sq, w) :: c.replies).take Config.channelWindow }

/-- The requests of a package applied in sequence order (R464), at most `fuel` of them, up to one that has not arrived or
waits. -/
def State.acceptIn (src : Nat) : Nat → State → State
  | 0, s => s
  | f + 1, s =>
    let c := s.chan src
    match c.early.find? fun e => e.1 == c.nextIn with
    | none => s
    | some (q, r) => match s.applyIn r with
      | .wait s => s
      | .ok s w => State.acceptIn src f (s.replied src q w)
      | .err s code rcode => State.acceptIn src f (s.replied src q (BitVec.ofNat 64 (2 ^ 63 + rcode * 256 + code % 256)))

/-- Request `sq` of a package arrives (R464): it is held until its turn, and one that was accepted before is answered from
the kept replies. -/
def State.inbound (s : State) (src sq : Nat) (r : InReq) : State :=
  let c := s.chan src
  if !s.member src || decide (Config.channelWindow ≤ (sq + 2 ^ 32 - c.nextIn) % 2 ^ 32) then s
  else
    let s := if c.early.any (fun e => e.1 == sq) then s else s.setChan src { c with early := c.early ++ [(sq, r)] }
    State.acceptIn src (c.early.length + 1) s

/-- RUPD (R462, R463): operation `sq` of this package, or request `sq` of package `src`. -/
def execRupd (src sq : Nat) (key value : Word) (ty : Ty) (s : State) : Host.Outcome State Fault Refusal :=
  .next (if src = s.pkgNumber then s.remoteOwn sq 0x60 else s.inbound src sq (.upd key value ty))

/-- RENQ (R462, R463). -/
def execRenq (src sq : Nat) (desc : List Word) (handle : Word) (s : State) : Host.Outcome State Fault Refusal :=
  .next (if src = s.pkgNumber then s.remoteOwn sq 0x61 else s.inbound src sq (.enq desc handle))

/-- RADD (R462, R463). -/
def execRadd (src sq : Nat) (addr inc : Word) (s : State) : Host.Outcome State Fault Refusal :=
  .next (if src = s.pkgNumber then s.remoteOwn sq 0x62 else s.inbound src sq (.add addr inc))

/-- RATOM (R50, R462, R463): another package's is applied under the FPC copy of its header. -/
def execRatom (src sq : Nat) (addr b c : Word) (ty : Ty) (aop : FarAtom) (s : State) : Host.Outcome State Fault Refusal :=
  .next (if src = s.pkgNumber then s.remoteOwn sq 0x63 else s.inbound src sq (.atom addr b c ty aop.aop aop.fpc.toNat))

/-- PUT_OP (R385, R464): unit `u` of an operation of this package, or a request of another package, which writes bytes. -/
def execPutOp (by' : PutFrom) (u : Nat) (s : State) : Host.Outcome State Fault Refusal :=
  .next (match by' with
  | .own n => s.putGet n u 6
  | .far src sq addr bs => if src = s.pkgNumber then s else s.inbound src sq (.put addr bs))

/-! Retransmission and loss (R463, R464) -/

/-- REMOTE_RETRANSMIT (R464): a sequenced request without a reply for 20 µs is sent again. -/
def execRemoteRetransmit (pkg sq : Nat) (s : State) : Host.Outcome State Fault Refusal :=
  .next { s with outReqs := s.outReqs.map fun r =>
    if r.pkg = pkg ∧ r.sq = some sq ∧ r.sentAt + 20000 ≤ s.now then { r with sentAt := s.now } else r }

/-- REMOTE_UNREACHABLE (R463): a request of operation `n` has had no reply for 1 s. -/
def execRemoteUnreachable (n : Nat) (s : State) : Host.Outcome State Fault Refusal :=
  .next (match s.op? n with
  | none => s
  | some o =>
    if o.stage = .active ∧ (s.outReqs.any fun r => r.op == o.id && decide (r.firstAt + 1000000000 ≤ s.now)) then
      s.endRemote n o.id 0x06 0 none
    else s)

end Sys2Proof.Machine
end

