-- ==== Sys2Proof/Machine/Rote.lean ====
section
/-! DEFINITION. The Rote engine (R357–R368, R394): every message for a context is processed whole, one
element access a step, before the next for that context. -/

namespace Sys2Proof.Machine

/-- The context that a message names. -/
def Op.context (o : Op) : Nat := (o.words.getD 1 0).field 11 0

/-- A context; none when it is FREE. -/
def State.ctx (s : State) (c : Nat) : Option Rote := Table.get none s.rote c

/-- A context replaced. -/
def State.setCtx (s : State) (c : Nat) (r : Option Rote) : State := { s with rote := Table.set none s.rote c r }

/-- Operation `n` when it is a Rote operation of a kind whose turn has come (R359). -/
def State.roteOp (s : State) (n oper : Nat) : Option Op :=
  match s.op? n with
  | some o =>
    let w0 := o.words.getD 0 0
    if portOf w0 = 3 ∧ operOf w0 = oper ∧ o.stage ≠ .ended
        ∧ !((s.ops.take n).any fun p => p.inbox == o.inbox && p.context == o.context && p.stage != .ended) then some o
    else none
  | none => none

/-! The store (R358) -/

/-- Bytes of a die's Rote store: its share of L2 and its area in HBM. -/
def State.roteStore (s : State) (die : Nat) : Nat := (s.readCfg die 1 0).toNat * 1048576 + (s.readCfg die 1 2).toNat

/-- The capacity that a load of an image keeps for its context while its tokens are read (R360): none before its header has been
accepted. -/
def Op.loading (o : Op) : Nat :=
  if portOf (o.words.getD 0 0) = 3 ∧ operOf (o.words.getD 0 0) = 0x35 ∧ o.stage = .active then (o.idxs.map fun e => e.1).sum else 0

/-- Bytes that a die's OPEN contexts reserve, and those that are being loaded. -/
def State.roteUsed (s : State) (die : Nat) : Nat :=
  (s.rote.filter fun e => e.1 / 1024 == die).foldl (fun n e => match e.2 with
    | some r => n + 16 * r.c
    | none => n) 0
  + ((s.ops.filter fun o => o.context / 1024 == die).map fun o => 16 * o.loading).sum

/-- Whether a context of capacity C fits its die's store. -/
def State.roteFits (s : State) (c cap : Nat) : Bool :=
  decide (s.roteUsed (c / 1024) + 16 * cap ≤ s.roteStore (c / 1024))

/-- A legal capacity. -/
def capOk (c : Nat) : Bool := (List.range 9).any fun k => c == 2 ^ (12 + k)

/-- log₂ of a legal capacity. -/
def capLog (c : Nat) : Nat := ((List.range 9).find? fun k => c == 2 ^ (12 + k)).getD 0 + 12

/-- A context just opened (R359). -/
def Rote.opened (c m : Nat) : Rote := ⟨c, m, 0, 0, [], 0, 2 ^ 64 - 1, 0⟩

/-! Appends and proposals (R361–R365) -/

/-- An eviction (R365). -/
def Rote.evict (r : Rote) : Rote :=
  { r with base := r.base + r.c / 4, hist := r.hist.drop (r.c / 4), evicts := (r.evicts + 1) % 2 ^ 64 }

/-- One token appended, after an eviction when the context is full. -/
def Rote.append1 (r : Rote) (t : Nat) : Rote :=
  let r := if r.count - r.base = r.c then r.evict else r
  { r with hist := r.hist ++ [t], count := r.count + 1 }

/-- The length of the common beginning of two lists. -/
def commonLen : List Nat → List Nat → Nat
  | a :: x, b :: y => if a = b then commonLen x y + 1 else 0
  | _, _ => 0

/-- The longest recurring suffix: its length and the distance back of its greatest place, over distances from `d` up;
`l` is the reversed history from there, `all` the whole of it. -/
def longest (all : List Nat) : Nat → List Nat → Nat × Nat
  | _, [] => (0, 0)
  | d, a :: l =>
    let (m, e) := longest all (d + 1) l
    let k := commonLen (a :: l) all
    if 1 ≤ k ∧ m ≤ k then (k, d) else (m, e)

/-- The proposal rule (R361): L, POS and the proposal of depth D. -/
def Rote.propose (r : Rote) (d : Nat) : Nat × Nat × List Nat :=
  let back := r.hist.reverse
  let (l, dist) := longest back 1 (back.drop 1)
  let p := r.count - 1 - dist
  if l = 0 then (0, 2 ^ 64 - 1, [])
  else
    let k := if l < r.m then 0 else min (p + d) (r.count - 1) - p
    (l, p, (r.hist.drop (p + 1 - r.base)).take k)

/-- The proposal record (R362). -/
def proposal (len pos : Nat) (toks : List Nat) : List Byte :=
  leBytes (toks.length + min len 65535 * 65536) 8 ++ leBytes pos 8
    ++ ((toks.flatMap fun t => leBytes t 4) ++ List.replicate 64 (0 : Byte)).take 64

/-- The status record and image header (R366). -/
def Rote.header (r : Rote) : List Byte :=
  leBytes (2 ^ 56 + capLog r.c * 256 + r.m) 8 ++ leBytes r.count 8 ++ leBytes r.base 8 ++ leBytes r.pos 8
    ++ leBytes r.len 8 ++ leBytes r.evicts 8 ++ leBytes 0 16

/-- Bytes padded with zeros to a multiple of 64. -/
def pad64 (bs : List Byte) : List Byte := bs ++ List.replicate ((64 - bs.length % 64) % 64) (0 : Byte)

/-- The image (R367). -/
def Rote.image (r : Rote) : List Byte := r.header ++ pad64 (r.hist.flatMap fun t => leBytes t 4)

/-- The context that a header gives, without its tokens; none when the header breaks R366. -/
def headerOf (bs : List Byte) : Option Rote :=
  let i := wordsOf bs 8
  let w := fun k => i.getD k (0 : Word)
  let logc := (w 0).field 12 8
  let m := (w 0).field 6 0
  let c := 2 ^ logc
  if (w 0).field 63 56 = 1 ∧ (w 0).field 55 13 = 0 ∧ (w 0).bit 7 = false ∧ 12 ≤ logc ∧ logc ≤ 20 ∧ 1 ≤ m ∧ m ≤ 64
      ∧ (w 2).toNat ≤ (w 1).toNat ∧ (w 1).toNat - (w 2).toNat ≤ c ∧ (w 4).field 63 16 = 0 ∧ w 6 = 0 ∧ w 7 = 0 then
    some ⟨c, m, (w 1).toNat, (w 2).toNat, [], (w 4).field 15 0, (w 3).toNat, (w 5).toNat⟩
  else none

/-! Operations -/

/-- An operation refused (R360). -/
def State.refuseOp (s : State) (n code : Nat) : State := s.endOp n 0x07 code none

/-- A Rote operation on an OPEN context: `go` has it; code 2 when it is FREE. -/
def State.onCtx (s : State) (n oper : Nat) (go : Op → Rote → State → State) : State :=
  match s.roteOp n oper with
  | none => s
  | some o => match s.ctx o.context with
    | none => s.refuseOp n 2
    | some r => go o r s

/-- Whether an operation's address falls short of an alignment. -/
def Op.misaligned (o : Op) (k size : Nat) : Bool := decide (o.num k % size ≠ 0)

/-- The token ids that some bytes hold. -/
def tokensOf (bs : List Byte) : List Nat := (List.range (bs.length / 4)).map fun j => leNat ((bs.drop (4 * j)).take 4)

/-- OPEN_CONTEXT (R359, R360). -/
def execOpenContext (n : Nat) (s : State) : Host.Outcome State Fault Refusal :=
  .next (match s.roteOp n 0x30 with
  | none => s
  | some o =>
    let c := o.num 2
    let m := o.num 3
    if (s.ctx o.context).isSome then s.refuseOp n 1
    else if !capOk c ∨ m = 0 ∨ 64 < m then s.refuseOp n 3
    else if !s.roteFits o.context c then s.refuseOp n 4
    else (s.setCtx o.context (some (Rote.opened c m))).endOp n 0 0 none)

/-- APPEND_TOKENS (R363, R365). -/
def execAppendTokens (n : Nat) (s : State) : Host.Outcome State Fault Refusal :=
  .next (s.onCtx n 0x31 fun o r s =>
    let k := o.num 3
    if k = 0 ∨ 65536 < k then s.refuseOp n 3
    else if o.misaligned 2 4 then s.endOp n 0x04 0 none
    else s.pullMem n 0 o (o.num 2) (4 * k) fun bs =>
      (s.setCtx o.context (some ((tokensOf bs).foldl Rote.append1 r))).endOp n 0 0 none)

/-- PROPOSE_DRAFT (R361, R362). -/
def execProposeDraft (n : Nat) (s : State) : Host.Outcome State Fault Refusal :=
  .next (s.onCtx n 0x32 fun o r s =>
    let d := o.num 2
    if d = 0 ∨ 16 < d then s.refuseOp n 3
    else if o.misaligned 3 8 then s.endOp n 0x04 0 none
    else
      let (l, p, toks) := r.propose d
      let rec' := proposal l p toks
      (s.setCtx o.context (some { r with len := min l 65535, pos := p })).pushMem n 0 o (o.num 3) rec' fun s =>
        s.endOp n 0 0 (some (wordAt rec' 0)))

/-- STAT_RECORD (R366). -/
def execStatRecord (n : Nat) (s : State) : Host.Outcome State Fault Refusal :=
  .next (s.onCtx n 0x33 fun o r s =>
    if o.misaligned 2 64 then s.endOp n 0x04 0 none
    else s.pushMem n 0 o (o.num 2) r.header fun s => s.endOp n 0 0 none)

/-- SAVE_IMAGE (R367). -/
def execSaveImage (n : Nat) (s : State) : Host.Outcome State Fault Refusal :=
  .next (s.onCtx n 0x34 fun o r s =>
    if o.misaligned 2 64 then s.endOp n 0x04 0 none
    else s.pushMem n 0 o (o.num 2) r.image fun s =>
      s.endOp n 0 0 (some (BitVec.ofNat 64 r.image.length)))

/-- The tokens of an image read, and its context opened (R368). -/
def State.loadTokens (s : State) (n : Nat) (o : Op) (r : Rote) : State :=
  s.pullMem n 1 o (o.num 2 + 64) (4 * (r.count - r.base)) fun bs =>
    (s.setCtx o.context (some { r with hist := tokensOf bs })).endOp n 0 0 none

/-- LOAD_IMAGE (R368): the header is judged once, before the address's alignment (R394), and with it the context's room, which
the load keeps from then on (R360). -/
def execLoadImage (n : Nat) (s : State) : Host.Outcome State Fault Refusal :=
  .next (match s.roteOp n 0x35 with
  | none => s
  | some o =>
    if o.stage = .active then match o.idxs with
      | (_, bs) :: _ => (match headerOf bs with
        | some r => s.loadTokens n o r
        | none => s)
      | [] => s
    else if (s.ctx o.context).isSome then s.refuseOp n 1
    else s.pullMem n 0 o (o.num 2) 64 fun bs =>
      match headerOf bs with
      | none => s.refuseOp n 5
      | some r =>
        if !s.roteFits o.context r.c then s.refuseOp n 4
        else if o.misaligned 2 64 then s.endOp n 0x04 0 none
        else (s.modOp n fun o => { o with stage := .active, idxs := [(r.c, bs)] }).loadTokens n o r)

/-- CLOSE_CONTEXT (R359). -/
def execCloseContext (n : Nat) (s : State) : Host.Outcome State Fault Refusal :=
  .next (s.onCtx n 0x36 fun o _ s => (s.setCtx o.context none).endOp n 0 0 none)

end Sys2Proof.Machine
end

