-- ==== Sys2Proof/Machine/Thaw.lean ====
section
/-! DEFINITION. What a thaw reads of an image's bytes (R416–R423, R431, R444, R446): a slice that was written out is kept as it
was, and every field of its image that has been given another value since takes effect on it (log 11). -/

namespace Sys2Proof.Machine

/-! The bytes of an image -/

/-- The offsets of the strand headers of an image, from its bytes (R416): `n` strands from offset `o`. -/
def headerOffsets (cells : List Host.Cell) : Nat → Nat → List Nat
  | 0, _ => []
  | n + 1, o =>
    let len := fun k => (rdNum cells (o + 8 * k) 8 + 63) / 64 * 64
    o :: headerOffsets cells n (o + 64 + len 3 + len 4 + len 5)

/-- The offsets of the strand headers of a picture. -/
def Picture.headers (p : Picture) (n : Nat) : List Nat := headerOffsets p.cells n 128

/-- `n` bytes from offset `o`, zero but for the cells given by rising offset. -/
def dense : Nat → Nat → List Host.Cell → List Byte
  | 0, _, _ => []
  | n + 1, o, [] => 0 :: dense n (o + 1) []
  | n + 1, o, c :: r => if c.1 = o then c.2 :: dense n (o + 1) r else 0 :: dense n (o + 1) (c :: r)

/-- `n` bytes of an image from offset `o`. -/
def bytesIn (cells : List Host.Cell) (o n : Nat) : List Byte := dense n 0 (cellsIn cells o n)

/-- The slice header without BLEFT, which a supervisor may write (R417). -/
def sliceFixed (bs : List Byte) : List Byte := bs.take 16 ++ bs.drop 22

/-- A strand header without RDV and RPC, which a supervisor may write (R418). -/
def strandFixed (bs : List Byte) : List Byte := (bs.set 1 (bs.getD 1 0 &&& 0x7F)).take 16 ++ bs.drop 24

/-! Streams (R74–R79, R416, R419) -/

/-- The commands of a stream's bytes. -/
def cmdsOf : List Byte → List Nat
  | a :: b :: c :: d :: r => leNat [a, b, c, d] :: cmdsOf r
  | _ => []

/-- `n` lists of `k` values each. -/
def chunks {α : Type} (k : Nat) : Nat → List α → List (List α)
  | 0, _ => []
  | n + 1, l => l.take k :: chunks k n (l.drop k)

/-- Lists of the lengths given, one after another. -/
def cutUp {α : Type} : List Nat → List α → List (List α)
  | [], _ => []
  | k :: r, l => l.take k :: cutUp r (l.drop k)

/-- The words of quarters (R75). -/
def wordsOfQuarters : List Nat → List Word
  | a :: b :: c :: d :: r => BitVec.ofNat 64 (a + b * 2 ^ 16 + c * 2 ^ 32 + d * 2 ^ 48) :: wordsOfQuarters r
  | _ => []

/-- The word of four quarters. -/
def wordOfQuarters (l : List Nat) : Word := (wordsOfQuarters l).headD 0

/-- The control items of a stream (R419): each selector's value with the words written after it. -/
def itemsOf (l : List Nat) : List (Nat × List Word) :=
  (l.foldl (fun (g : List (Nat × List Nat)) c =>
    if c / 65536 = 0xFFF3 then (c % 65536, []) :: g
    else match g with
      | (s, v) :: r => (s, c % 65536 :: v) :: r
      | [] => []) []).reverse.map fun e => (e.1, wordsOfQuarters e.2.reverse)

/-! Stations (R75–R77, R420, R421) -/

/-- The token of a data slot in the fields of an input buffer (R76). -/
def tokAt (f : List Nat) (n : Nat) : Option Tok :=
  let b := f.getD 12 0 / 16 ^ n
  if b % 2 = 0 then none
  else some ⟨wordOfQuarters ((f.drop (4 * n)).take 4), f.getD (8 + 2 * n) 0, f.getD (9 + 2 * n) 0, b / 2 % 2 == 1, b / 4 % 2 == 1⟩

/-- The entries of a copy's data slots as an image's fields give them: a switch token that stands there stays where no token
takes its place. -/
def entriesFrom (l : List Entry) (f : List Nat) : List (Option Entry) :=
  (List.range 2).map fun n => match tokAt f n, l[n]? with
    | some t, some (.tok _ q) => some (.tok t q)
    | some t, _ => some (.tok t 0)
    | none, some (.switch g) => some (.switch g)
    | none, _ => none

/-- The entries of one copy in a buffer replaced in order. -/
def putEntries (n copy : Nat) : List (Option Entry) → List Entry → List Entry
  | new, [] => new.filterMap id
  | new, e :: r =>
    if e.inCopy n copy then match new with
      | some d :: m => d :: putEntries n copy m r
      | none :: m => putEntries n copy m r
      | [] => e :: putEntries n copy [] r
    else e :: putEntries n copy new r

/-- A buffer of a copy as an image's fields give it. -/
def Node.restoreBuf (nd : Node) (copy : Nat) (sl : Slot) (old new : List Nat) : Node :=
  if old = new then nd
  else nd.setBuf sl (putEntries nd.copies copy (entriesFrom (nd.entriesOf copy sl) new) (nd.buf sl))

/-- The anti-tokens of a copy's slots as an image's fields give them. -/
def Node.restoreAntis (nd : Node) (copy occ : Nat) (f : List Nat) : Node :=
  let new := (List.range 4).flatMap fun k => (List.range 2).filterMap fun j =>
    if occ.testBit (2 * k + j) then some (k, (⟨f.getD (4 * k + 2 * j) 0, f.getD (4 * k + 2 * j + 1) 0⟩ : Anti)) else none
  { nd with antis := nd.antis.filter (fun e => e.2.idx % nd.copies != copy) ++ new }

/-- The word of a copy as an image gives it, but for its RM; none for a word that no instruction has. -/
def Node.restoreWord (nd : Node) (copy : Nat) (w : Word) : Option Node :=
  let v := withRm w (nd.copies - 1)
  if v = nd.wordAt copy then some nd
  else if (rawDecode v).isNone then none
  else
    let n := nd.withWords (fun k => if k = copy then v else nd.wordAt k) 0
    some (if wordOp n.word = wordOp nd.word then n else { n with ext := extOf (wordOp n.word).toNat })

/-- The target that a route field names (R75): none where it names a station that no instruction uses (log 11). -/
def targetIn (places : List (Nat × Nat)) (v : Nat) : Option Target :=
  if v / 2 ^ 15 = 1 then
    (places[v % 512]?).map fun e => ⟨BitVec.ofNat 7 e.1, (Slot.ofCode (BitVec.ofNat 2 (v / 2 ^ 13))).getD .a⟩
  else none

/-- A copy with the identity, routes, replication and RM of an image's fields (R75, R81). -/
def Node.rewire (nd : Node) (places : List (Nat × Nat)) (copy : Nat) (old new : List Nat) : Node :=
  let rm := fun (l : List Nat) => (wordOfQuarters (l.take 4)).field 55 50
  if rm old = rm new ∧ (old.drop 4).take 9 = (new.drop 4).take 9 then nd
  else
    let routes := ((new.drop 5).take 4).map fun v => v - v / 512 % 16 * 512
    { nd with
      wiring := ⟨copy, new.getD 4 0 % 8192, rm new, routes ++ ((new.drop 9).take 4).map fun v => v % 64, routes.map (targetIn places)⟩
        :: nd.wiring.filter fun w => w.copy != copy }

/-- SWIN of a slot as an image's field 14 gives it (R419): a switch token that has been received stands there, or none. -/
def Node.restoreSwitch (nd : Node) (gen : Nat) (sl : Slot) (old new : Bool) : Node :=
  if old = new then nd
  else if new then nd.setBuf sl (nd.buf sl ++ [.switch gen])
  else nd.setBuf sl ((nd.buf sl).filter fun e => match e with
    | .tok _ _ => true
    | .switch _ => false)

/-- A copy of an instruction as the 84 fields of its station give it (R75–R77, R419); `places` are the stations of the
region, and `gen` is the generation of the latest patch. None for a word that no instruction has. TRAPPED is cleared by the thaw;
ISSUED and HELDOUT report what the station's words and slots hold. -/
def Node.restore (nd : Node) (places : List (Nat × Nat)) (gen copy : Nat) (old new : List Nat) : Option Node :=
  if old = new then some nd
  else
    let part := fun (l : List Nat) (k : Nat) => (l.drop (16 + 13 * k)).take 13
    let flag := fun (l : List Nat) (n : Nat) => (l.getD 14 0).testBit n
    (nd.restoreWord copy (wordOfQuarters (new.take 4))).map fun nd =>
      let nd := (nd.rewire places copy old new).restoreBuf copy .a (part old 0) (part new 0)
      let nd := nd.restoreBuf copy .b (part old 1) (part new 1)
      let nd := nd.restoreBuf copy .c (part old 2) (part new 2)
      let nd := nd.restoreBuf copy .p (part old 3) (part new 3)
      let nd := [(Slot.a, 7), (.b, 8), (.c, 9), (.p, 10)].foldl (fun (nd : Node) e =>
        nd.restoreSwitch gen e.1 (flag old e.2) (flag new e.2)) nd
      if old.getD 13 0 = new.getD 13 0 ∧ old.drop 68 = new.drop 68 then nd
      else nd.restoreAntis copy (new.getD 13 0) (new.drop 68)

/-- The slots of each instruction that routes lead to, after an image has changed some (R19). -/
def Inst.refeed (x : Inst) : Inst :=
  if x.nodes.all fun nd => nd.wiring.isEmpty then x
  else
    let arcs := (x.nodes.mapIdx fun i nd => nd.arcs.map fun e => (i, e.2.index.toNat, e.2.slot)).flatten
    { x with nodes := x.nodes.mapIdx fun i nd => { nd with fed := fedSlots arcs i } }

/-- A held token of its two words (R420). -/
def tokOfWords (d h : Word) : Tok := ⟨d, h.field 63 48, h.field 47 32, h.bit 1, h.bit 0⟩

/-- Held tokens of pairs of words. -/
def toksOfWords : List Word → List Tok
  | d :: h :: r => tokOfWords d h :: toksOfWords r
  | _ => []

/-- The members of a list that `p` holds of replaced in order by other members, however many these are. -/
def putBack {α : Type} (p : α → Bool) : List α → List α → List α
  | new, [] => new
  | new, t :: r =>
    if p t then match new with
      | d :: m => d :: putBack p m r
      | [] => putBack p [] r
    else t :: putBack p new r

/-- The held tokens of one copy in a list replaced in order. -/
def putToks (n copy : Nat) (new l : List Tok) : List Tok := putBack (fun t => t.idx % n == copy) new l

/-- The numbers of a mask. -/
def maskList (w : Word) : List Nat := (List.range 64).filter w.bit

/-- A mask's list of numbers as a word gives it: the list kept where the mask is the same. -/
def maskAs (l : List Nat) (w : Word) : List Nat := if maskWord l = w then l else maskList w

/-- The entries of `STEER` for one tag of its six words: one that stood there holds a token as before, another holds one once it
has counted an element. -/
def steerFrom (l : List SteerSt) (ws : List Word) : List SteerSt :=
  let tag := (ws.getD 1 0).field 63 48
  [0, 1].filterMap fun out =>
    let w := ws.drop (3 * out)
    let next := (w.getD 2 0).field 15 0
    let tok := tokOfWords (w.getD 0 0) (w.getD 1 0)
    match l.find? fun e => e.tag == tag && e.out == out with
    | some e => some { e with held := e.held.map fun _ => tok, next := next }
    | none => if next = 0 then none else some ⟨tag, out, some tok, next⟩

/-- The partials of a reduction of held tokens, lowest level first (R124, R421): the lowest has the size that `sizes` gives it,
each other reaches to the next. -/
def partsFrom (tag : Nat) (sizes : List Partial) (l : List Tok) : List Partial :=
  let ts := l.filter fun t => t.tag == tag
  ts.mapIdx fun k t => ⟨if k = 0 then (sizes.head?.map fun p => p.size).getD 1 else (ts.getD (k - 1) t).idx - t.idx,
    if t.e then none else some t.data⟩

/-- An entry of `ACCEPT` with its words. -/
def AcceptSt.from (e : AcceptSt) (ws : List Word) : AcceptSt :=
  let ns := ws.drop 1
  let ss := ns.drop e.nodes.length
  let ms := ss.drop e.samples.length
  { e with
    cfg := e.cfg.map fun _ => ws.getD 0 0
    nodes := e.nodes.zipWith (fun n w => { n with token := w.field 63 32, depth := w.field 15 8, parent := w.field 7 0 }) ns
    samples := e.samples.zipWith (fun _ w => ⟨w.field 7 0, w.field 63 32⟩) ss
    accepted := maskAs e.accepted (ms.getD 0 0), rejected := maskAs e.rejected (ms.getD 1 0) }

/-- The tags of held tokens that no entry of a list has. -/
def newTags (old : List Nat) (l : List Tok) : List Nat := ((l.map fun t => t.tag).eraseDups).filter fun t => !old.contains t

/-- An extended state at a copy with its words (R421): what no word holds stays as it was. -/
def Ext.from (n copy : Nat) (x : Ext) (ws : List Word) : Ext :=
  if ws = x.words n copy then x
  else match x with
    | .carry held recs => .carry (putToks n copy (toksOfWords ws) held) recs
    | .shuf l =>
      let ts := toksOfWords ws
      .shuf ((l.map fun e => { e with held := putToks n copy (ts.filter fun t => t.tag == e.tag) e.held })
        ++ (newTags (l.map fun e => e.tag) ts).map fun g =>
          let hs := ts.filter fun t => t.tag == g
          ⟨g, hs, hs.foldl (fun m t => max m (t.idx + 1)) 0, false, false⟩)
    | .gen l => .gen (ws.mapIdx fun k w => ⟨(l[k]?.map fun g => g.tag).getD 0, w.field 32 16, w.field 15 0⟩)
    | .cnt _ => .cnt (ws.map fun w => ⟨w.field 63 48, w.field 16 0⟩)
    | .steer l => .steer ((chunks 6 (ws.length / 6) ws).flatMap (steerFrom l))
    | .red l =>
      let ts := toksOfWords ws
      .red ((l.map fun e => { e with parts := partsFrom (e.tag % 65536) e.parts ts })
        ++ (newTags (l.map fun e => e.tag % 65536) ts).map fun g => ⟨g, partsFrom g [] ts, false⟩)
    | .tile _ => .tile (if (ws.getD 0 0).bit 0 then some ((ws.getD 0 0).field 63 48) else none)
    | .tree l => .tree (((l.zip (cutUp (l.map fun e => 17 + e.masks.length) ws)).filter fun e => !e.2.isEmpty).map fun e =>
        { e.1 with sp := (e.2.getD 0 0).field 4 0, stack := ((e.2.drop 1).take 16).map BitVec.toNat, masks := e.2.drop 17 })
    | .accept l => .accept (((l.zip (cutUp (l.map fun e => 3 + e.nodes.length + e.samples.length) ws)).filter fun e =>
        !e.2.isEmpty).map fun e => e.1.from e.2)
    | .plain => .plain
    | .feset r => .feset r
    | .pack l => .pack l
    | .gather l => .gather l

/-- The replies that a load holds at a copy replaced in order, for the targets of the instruction. -/
def Node.putReplies (nd : Node) (copy : Nat) (new : List Tok) : Node :=
  { nd with outq := putBack (fun o => match o with
      | .tok t _ => t.idx % nd.copies == copy
      | .switch _ _ => false) (new.map fun t => .tok t nd.targets) nd.outq }

/-- The messages of instruction `i` that have not issued with their words, as many as are given. -/
def putMsgs (i : Nat) : List (List Word) → List Msg → List Msg
  | _, [] => []
  | new, m :: r =>
    if m.node = i then match new with
      | ws :: l => { m with words := ws } :: putMsgs i l r
      | [] => putMsgs i [] r
    else m :: putMsgs i new r

/-- A strand with the extended words of a copy of instruction `i` (R421); `pend` is SWPEND, with which the first word is the
pending one. -/
def Strand.extFrom (t : Strand) (i copy : Nat) (pend : Bool) (ws : List Word) : Strand :=
  match t.inst with
  | none => t
  | some x => match x.nodes[i]? with
    | none => t
    | some nd =>
      if ws = t.extWords i copy nd ∧ pend = !(nd.pendAt copy).isEmpty then t
      else
        let ps := if pend then ws.take 1 else []
        let rs := ws.drop ps.length
        let nd := { nd with pend := putBack (fun e => e.1 == copy) (ps.map fun w => (copy, w)) nd.pend }
        let put := fun (nd : Node) => { t with inst := some (x.modNode i fun _ => nd) }
        if nd.holdsReplies then put (nd.putReplies copy (toksOfWords rs))
        else if (t.unsent i copy).isEmpty then put { nd with ext := nd.ext.from nd.copies copy rs }
        else { put nd with msgs := putMsgs i (chunks 8 (rs.length / 8) rs) t.msgs }

/-- WAIT of a copy of instruction `i` cleared (R419): the waits that the halt abandoned there are not made again. -/
def Strand.dropWaits (t : Strand) (i n copy : Nat) : Strand :=
  { t with
    waits := t.waits.filter fun w => !(w.node == i && w.tok.idx % n == copy && w.kind.again)
    left := t.left.filter fun e => !(e.1 == i && e.2 % n == copy) }

/-! Control items (R419) -/

/-- A frame of its four words. -/
def frameFrom (kept : Option Frame) (snap : Snapshot) (ws : List Word) : Option Frame :=
  let w0 := ws.getD 0 0
  if !w0.bit 31 then none
  else some
    { outer := w0.field 15 0, gate := w0.field 22 16, w := w0.field 29 24 + 1, base := (ws.getD 1 0).toNat,
      final := if (ws.getD 3 0).bit 0 then some (ws.getD 2 0).toNat else none,
      snap := match kept with | some f => f.snap | none => snap
      low := match kept with | some f => f.low | none => 128 }

/-- A tile entry of its halves (R275). -/
def tileFrom (lo hi : Word) : TileEnt :=
  { pitch := hi.field 39 16, rows := hi.field 15 0, cols := lo.field 63 48, fmt := lo.field 47 44, base := lo.field 43 20,
    defd := lo.bit 2, state := match lo.field 1 0 with | 0 => .empty | 1 => .filling | 2 => .ready | _ => .draining }

/-- Numbers of the widths given, packed from bit 0. -/
def unpack : List Nat → Nat → List Nat
  | [], _ => []
  | w :: r, n => n % 2 ^ w :: unpack r (n / 2 ^ w)

/-- The number that words hold, the first lowest. -/
def numOfWords (ws : List Word) : Nat := ws.foldr (fun w n => w.toNat + 2 ^ 64 * n) 0

/-- A barrier of its seven words (R203). -/
def Barrier.from (b : Barrier) (ws : List Word) : Barrier :=
  if ws = b.words then b
  else
    let f := unpack [2, 16, 8, 16, 32, 16, 16, 64, 64, 3, 64, 2, 64, 16, 32] (numOfWords ws)
    let g := fun k => f.getD k 0
    { state := match g 0 with | 0 => .free | 1 => .opened | _ => .broken
      owner := g 1, gen := g 2, e := g 3, p := g 4, a := g 5, n := g 6, val := BitVec.ofNat 64 (g 7), nval := BitVec.ofNat 64 (g 8),
      op := if g 9 = barOpCode b.op then b.op else (Bop.ofCode (BitVec.ofNat 2 (g 9))).map fun o => (o, (g 9).testBit 2)
      dl := if g 10 = 2 ^ 64 - 1 then none else some (g 10), last := g 11, lval := BitVec.ofNat 64 (g 12), late := g 13, pl := g 14 }

/-- The state of an instance of its six words. -/
def Inst.stateFrom (x : Inst) (ws : List Word) : Inst :=
  let w0 := ws.getD 0 0
  let x := { x with flags := (ws.getD 4 0).field 4 0, fpc := (ws.getD 5 0).field 4 0 }
  let c := x.exit.getD ⟨0, 0, none, false, none⟩
  let f := (ws.getD 2 0, (ws.getD 3 0).field 15 0)
  { x with exit := if !w0.bit 0 then none else some { c with
      exit := w0.field 3 1, next := ws.getD 1 0, push := if c.push.isNone && f == (0, 0) then none else some f } }

/-- Special register `r` of a strand with the value of an image: those that a thaw restores from it (R431, R440). -/
def State.restoreSreg (s : State) (st : SRef) (r : Nat) (w : Word) : State :=
  match r with
  | 0 => s.writeSreg st 0 w
  | 12 => s.writeSreg st 12 w
  | 14 => s.writeSreg st 14 w
  | 16 => s.modSlice st.slice fun x => { x with sup := w.bit 0 }
  | 18 => s.modStrand st fun t => { t with csdepth := w.toNat }
  | _ => s

/-- Pairs of old and new words that differ, with their numbers. -/
def changed (old new : List Word) : List (Nat × Word) :=
  ((old.zip new).mapIdx fun n e => (n, e)).filterMap fun e => if e.2.1 = e.2.2 then none else some (e.1, e.2.2)

/-- The place of a station: instruction and copy. -/
def Strand.placeOf (t : Strand) (n : Nat) : Option (Nat × Nat) :=
  match t.inst with
  | some x => x.stations[n]?
  | none => none

/-- The barriers of which words stand from item `f` on (R419), with their words. -/
def barsIn (f : Nat) (ws : List Word) : List (Nat × List Word) :=
  ((List.range 32).filter fun b => decide (f < 8 * b + 7 ∧ 8 * b < f + ws.length)).map fun b =>
    (b, (List.range 7).map fun w => if 8 * b + w < f then 0 else ws.getD (8 * b + w - f) 0)

/-- The barrier that a number under KIND 5 names for a strand of a core. -/
def ownKey (core b : Nat) : BarKey := if b < 16 then ⟨.core, b, core⟩ else ⟨.quad, b - 16, core / 4⟩

/-- The barriers that a slice owns as an image's words give them; none where another slice owns one (R419). -/
def State.restoreBars (s : State) (id : Nat) (t : Strand) (x : Slice) (f : Nat) (ws : List Word) : Option State :=
  let old := s.ownedBars x t
  let new := (barsIn f ws).filterMap fun e =>
    let b := (((old.find? fun o => o.1 == e.1).map fun o => o.2).getD Barrier.reset).from e.2
    if b.state = .free then none else some (e.1, b)
  if new.all fun e => e.2.owner == id && (decide ((s.bar (ownKey t.core e.1)).state = BarState.free) || old.any fun o => o.1 == e.1) then
    let s := old.foldl (fun (s : State) (o : Nat × Barrier) =>
      if new.any fun e => e.1 == o.1 then s else s.setBar (ownKey t.core o.1) Barrier.reset) s
    some (new.foldl (fun (s : State) (e : Nat × Barrier) => s.setBar (ownKey t.core e.1) e.2) s)
  else none

/-- A control item of an image's stream, `old` with its words as the device wrote them; `fields` are the station fields of the
image. Under KIND 6 a station has the number of words that its field 15 gives (R419, R421). -/
def State.restoreItem (s : State) (st : SRef) (t : Strand) (fields : List (List Nat)) (old new : Nat × List Word) : Option State :=
  let ow := old.2
  let nw := new.2
  match new.1 / 4096 with
  | 5 => if old = new then some s else (s.slice? st.slice).bind fun x => s.restoreBars st.slice t x (new.1 % 4096) nw
  | 6 =>
    let f := fields.getD (new.1 % 4096) []
    if f.getD 15 0 ≠ nw.length % 65536 then none
    else (match t.placeOf (new.1 % 4096) with
      | some (i, c) => some (s.modStrand st fun t => t.extFrom i c ((f.getD 14 0).testBit 6) nw)
      | none => if nw.isEmpty then some s else none)
  | k =>
    if ow.length ≠ nw.length then none
    else if ow = nw then some s
    else match k with
      | 0 => some (s.modStrand st fun t => { t with regs := nw })
      | 1 => some ((changed ow nw).foldl (fun (s : State) (e : Nat × Word) => s.restoreSreg st e.1 e.2) s)
      | 2 => some (s.modInst st fun x => { x with
          frames := ((chunks 4 16 ow).zip (chunks 4 16 nw)).mapIdx fun f e =>
            if e.1 = e.2 then x.frames.getD f none else frameFrom (x.frames.getD f none) (s.snapshot t.core) e.2 })
      | 3 => some (((changed ow nw).map fun e => e.1 / 2).eraseDups.foldl (fun (s : State) (k : Nat) =>
          s.setTile (t.tileKey k) (tileFrom (nw.getD (2 * k) 0) (nw.getD (2 * k + 1) 0))) s)
      | 4 => some (s.modStrand st fun t => { t with
          phases := (changed ow nw).foldl (fun p e => Table.set (0, 0) p e.1 (e.2.field 39 32, e.2.field 31 0)) t.phases })
      | 7 => some (s.modInst st fun x => x.stateFrom nw)
      | _ => none

/-! Segments (R416) -/

/-- The entries of a FIFO from its place in the data bytes: `n` of them from entry `head`. -/
def fifoFrom (data : List Host.Cell) (head n : Nat) : List (List Byte) :=
  (List.range n).map fun k => bytesIn data (32 * ((head + k) % 8192)) 32

/-- Bank `b` of a core with its segment: 262,144 data bytes, 8,192 bytes of full bits, 64 of FIFO state; none for a FIFO of more
than 8,192 entries (R416). -/
def State.restoreBank (s : State) (core b : Nat) (seg : List Host.Cell) : Option State :=
  let k := s.bank core b
  let lo := localKey core b 0
  match k.mode with
  | .scratch =>
    let data := cellsIn seg 0 262144
    let full := cellsIn seg 262144 8192
    some { s with
      loc := data.foldl (fun m c => wrByte m (lo + c.1) c.2) (Table.clear s.loc lo (lo + 262144))
      full := full.foldl (fun m c => (List.range 8).foldl (fun m j => Table.set false m (lo / 4 + 8 * c.1 + j) (c.2.toNat.testBit j)) m)
        (Table.clear s.full (lo / 4) (lo / 4 + 65536)) }
  | .fifo =>
    let ws := wordsOf (bytesIn seg 270336 64) 8
    let w0 := ws.getD 0 0
    if 8192 < w0.field 13 0 then none
    else some (s.setBank core b { k with
      fifo := fifoFrom seg (w0.field 26 14) (w0.field 13 0), head := w0.field 26 14
      mask := (List.range 32).map (ws.getD 1 0).bit, staging := bytesOf ((ws.drop 2).take 4) })
  | .cache => some s

/-- Cells of bytes as a table of codes of `bits` bits each. -/
def codesFrom (bits : Nat) (cells : List Host.Cell) : Table Nat :=
  cells.foldl (fun m c =>
    if bits = 16 then
      let k := c.1 / 2
      Table.set 0 m k (Table.get 0 m k + c.2.toNat * 256 ^ (c.1 % 2))
    else if bits = 8 then Table.set 0 m c.1 c.2.toNat
    else Table.set 0 (Table.set 0 m (2 * c.1) (c.2.toNat % 16)) (2 * c.1 + 1) (c.2.toNat / 16)) []

/-- A plane of its word and its 131,072 bytes. -/
def planeFrom (w : Word) (cells : List Host.Cell) : Plane :=
  let bits := fmtBits (w.field 3 0)
  { fmt := w.field 3 0, k := w.field 31 16, n := w.field 47 32,
    cells := codesFrom bits (if bits = 4 then cellsIn cells 0 32768 else cells),
    scales := if bits = 4 then (cellsIn cells 32768 2048).foldl (fun m c =>
      Table.set 0 m (c.1 / 8 * 256 + c.1 % 8) c.2.toNat) [] else [] }

/-- A matrix unit of its segment. -/
def mxFrom (seg : List Host.Cell) : Mx :=
  let ws := wordsOf (bytesIn seg 0 64) 8
  { active := planeFrom (ws.getD 0 0) (cellsIn seg 64 131072), shadow := planeFrom (ws.getD 1 0) (cellsIn seg 131136 131072),
    stat := (ws.getD 2 0).toNat,
    acc := (cellsIn seg 262208 2097152).foldl (fun m c =>
      Table.set 0 m (c.1 / 8) (Table.get 0 m (c.1 / 8) + BitVec.ofNat 64 (c.2.toNat * 256 ^ (c.1 % 8)))) [] }

/-! Strands and slices -/

/-- The commands of control items. -/
def itemCmds (l : List (Nat × List Word)) : List Nat := l.flatMap fun e => items (e.1 / 4096) e.1 e.2

/-- Whether two streams of `n` commands before the control items have one form (R416): BEGIN, what the other commands address,
and the selectors in KIND order; under KIND 5 the items may be others, and under KIND 6 the numbers of words. -/
def sameForm (n : Nat) (old new : List Nat) : Bool :=
  let tail := fun (l : List Nat) => (l.drop n).dropLast
  let sel := fun (e : Nat × List Word) => if e.1 / 4096 = 5 then 5 * 4096 else e.1
  old.length == new.length && old.head? == new.head? && old.getLast? == new.getLast?
    && ((old.take n).zip (new.take n)).all (fun e => e.1 / 65536 == e.2 / 65536)
    && itemCmds (itemsOf (tail new)) == tail new && (itemsOf (tail old)).map sel == (itemsOf (tail new)).map sel

/-- Station `n` of a strand's region as its fields give it. -/
def State.restoreStation (s : State) (st : SRef) (n : Nat) (old new : List Nat) : Option State :=
  if old = new then some s
  else (s.strand? st).bind fun t => match t.placeOf n, t.inst with
    | some (i, c), some x => (x.nodes[i]?).bind fun nd => (nd.restore x.stations x.patchGen c old new).map fun m =>
        let s := s.modNode st i fun _ => m
        if (old.getD 14 0).testBit 4 && !(new.getD 14 0).testBit 4 then s.modStrand st fun t => t.dropWaits i nd.copies c else s
    | _, _ =>
      if (rawDecode (wordOfQuarters new)).isSome then
        some (s.modInst st fun x => { x with spare := (n, wordOfQuarters new) :: x.spare.filter fun o => o.1 != n })
      else none

/-- The row units of an instance as an image's fields give them: what a row combines depends on no row unit (R124). -/
def Inst.restoreRows (x : Inst) (old new : List (List Nat)) : Inst :=
  { x with
    rowUnits := (((old.zip new).mapIdx fun k e => (k, e)).filterMap fun e => if e.2.1 = e.2.2 then none else some (e.1, e.2.2))
      ++ x.rowUnits.filter fun r => old.getD r.1 [] == new.getD r.1 [] }

/-- A strand as its stream gives it: `old` and `new` are the commands as written and as they stand. -/
def State.restoreStream (s : State) (st : SRef) (pages : Nat) (old new : List Nat) : Option State :=
  let ns := 84 * (64 * pages)
  let nr := 16 * (4 * pages)
  let n := 1 + ns + nr
  if old = new then some s
  else if !sameForm n old new then none
  else
    let vals := fun (l : List Nat) => (l.drop 1).map fun c => c % 65536
    let stations := fun (l : List Nat) => chunks 84 (64 * pages) (vals l)
    let rows := fun (l : List Nat) => chunks 16 (4 * pages) ((vals l).drop ns)
    let rest := fun (l : List Nat) => itemsOf ((l.drop n).dropLast)
    let both := ((stations old).zip (stations new)).mapIdx fun n e => (n, e)
    let s := both.foldl (fun (s : Option State) e => s.bind fun (s : State) => s.restoreStation st e.1 e.2.1 e.2.2) (some s)
    let s := s.map fun (s : State) => s.modInst st fun x => (x.restoreRows (rows old) (rows new)).refeed
    ((rest old).zip (rest new)).foldl (fun (s : Option State) e => s.bind fun (s : State) =>
      (s.strand? st).bind fun t => s.restoreItem st t (stations new) e.1 e.2) s

/-- A strand as its parts of an image give it: its header stands at offset `o`. -/
def State.restoreStrand (s : State) (x : Slice) (t : Strand) (o : Nat) (old new : List Host.Cell) : Option State :=
  let st : SRef := ⟨x.id, t.rank⟩
  let len := fun k => rdNum old (o + 8 * k) 8
  let pad := fun n => (n + 63) / 64 * 64
  if strandFixed (bytesIn old o 64) ≠ strandFixed (bytesIn new o 64)
      ∨ !(cellsIn new (o + 64 + len 3) (pad (len 3) - len 3)).isEmpty then none
  else if t.ended then some s
  else
    let banks := o + 64 + pad (len 3)
    let mx := banks + pad (len 4)
    ((s.restoreStream st x.pages (cmdsOf (bytesIn old (o + 64) (len 3))) (cmdsOf (bytesIn new (o + 64) (len 3)))).bind fun s =>
      (List.range x.banksEach).foldl (fun (s : Option State) (k : Nat) => s.bind fun (s : State) =>
        let seg := cellsIn new (banks + 270400 * k) 270400
        if seg = cellsIn old (banks + 270400 * k) 270400 then some s else s.restoreBank t.core (x.firstBank t + k) seg) (some s)).map
      fun s =>
      let seg := cellsIn new mx (len 5)
      if seg = cellsIn old mx (len 5) then s else { s with mx := Table.set Mx.reset s.mx t.core (mxFrom seg) }

/-- The slice that an image of it gives, in place of the one kept; none where the image breaks R416 to R421: another header
than the device wrote, but for the fields that a supervisor may write, another shape in its descriptor, a stream of another
form, a word that no instruction has, another number of extended words than field 15 says, a FIFO with too many entries. -/
def State.restoreImage (s : State) (x : Slice) (p : Picture) (cells : List Host.Cell) : Option State :=
  let desc := wordsOf (bytesIn cells 64 64) 8
  if sliceFixed (bytesIn cells 0 64) ≠ sliceFixed (bytesIn p.cells 0 64) ∨ desc.getD 4 0 ≠ x.desc.getD 4 0 then none
  else
    let s := if desc = wordsOf (bytesIn p.cells 64 64) 8 then s else s.modSlice x.id fun x => { x with desc := desc }
    ((x.strands.zip (p.headers x.strands.length)).foldl (fun (s : Option State) e => s.bind fun (s : State) =>
      s.restoreStrand x e.1 e.2 p.cells cells) (some s))

/-- The reply slots of an image read back (R424). -/
def State.restoreReplies (s : State) (x : Slice) (p : Picture) : State :=
  let word := fun (n : Nat) (d : Word) => (s.unitWord (p.addr + BitVec.ofNat 64 (p.slots + n))).getD d
  s.modSlice x.id fun x => { x with
    replies := x.replies.mapIdx fun k r => { r with data := word (16 * k) r.data, route := word (16 * k + 8) r.route } }

/-- What a thaw reads of a written image (R423): a page of it that cannot be read stands as it was written, and so does the
whole where it breaks R416 to R421 by then (log 11). -/
def State.readImage (s : State) (x : Slice) : State :=
  match x.image with
  | none => s
  | some p => match s.imageCells p.addr p.slots (some p.cells) with
    | none => s
    | some cells => (((s.restoreImage x p cells).getD s).restoreReplies x p).applyHeaders x.id (rdNum cells 16 6)
        ((p.headers x.strands.length).map fun o => [rdWord cells o, rdWord cells (o + 8), rdWord cells (o + 16)])

/-- A written-out slice placed on cores (R422): THAW_RESUME resumes it. -/
def State.placeImage (s : State) (id : Nat) (mv : Move) : State :=
  match s.slice? id with
  | none => s
  | some x => ((s.readImage x).moveCores id mv).modSlice id fun y => { y with status := .frozen, candidate := true }

end Sys2Proof.Machine
end

