-- ==== Sys2Proof/Machine/Timetable.lean ====
section
/-! DEFINITION. The timetable unit (R196, R197, R221–R235, R422, R425): refusal, placement, start, pre-emption and
thinning in DISPATCH_PASS, with BUDGET, SLICE_END and APPEND (R337). -/

namespace Sys2Proof.Machine

/-! Descriptors (R196, R221, R223) -/

/-- Cores of one instance of a placement scope (R223). -/
def scopeCores (scope : Nat) : Nat := if scope = 0 then 1 else if scope = 1 then 4 else if scope = 2 then 32 else 128

/-- Cores that a descriptor takes (R224). -/
def coresFor (d : List Word) : Nat :=
  let sn := descField d 4 27 24
  (descField d 4 15 0 + sn - 1) / sn

/-- Whether S, G, B or CARVE breaks R196. -/
def badLayout (d : List Word) : Bool :=
  let f := descField d
  let sn := f 4 27 24
  let g := f 4 19 16
  let b := f 4 47 40
  !(decide (1 ≤ sn ∧ sn ≤ 8 ∧ 1 ≤ g ∧ g ≤ 8 ∧ sn * g ≤ 8 ∧ b ≤ 14 ∧ sn * b ≤ 14 ∧ f 3 63 48 ≤ 256 * b))

/-- A handle with a nonzero generation that is stale. -/
def State.staleHandle (s : State) (h : Nat) : Bool := decide (h / 65536 ≠ 0) && (s.handleQueue h).isNone

/-- The refusal code of a head (R223): the lowest that applies. -/
def State.refusalOf (s : State) (n : Snap) : Option Nat :=
  let d := n.words
  let f := descField d
  let codes : List (Nat × Bool) :=
    [(0x01, decide (f 4 15 0 = 0 ∨ 1024 < f 4 15 0)),
     (0x02, badLayout d),
     (0x03, decide (4 ≤ f 4 22 20) || decide (scopeCores (f 4 22 20) < coresFor d)),
     (0x04, decide (f 4 31 31 ≠ 0 ∨ f 4 23 23 ≠ 0)),
     (0x05, decide (f 0 5 0 ≠ 0) || !canonical (d.getD 0 0)),
     (0x06, decide (f 3 47 0 = 0)),
     (0x07, n.marked),
     (0x08, if f 4 29 29 = 1 then !n.counted else decide (f 4 63 48 ≠ 0)),
     (0x09, f 4 30 30 == 1 && !s.inJob),
     (0x0A, s.staleHandle (f 5 63 32) || s.staleHandle (f 5 31 0))]
  (codes.find? fun c => c.2).map fun c => c.1

/-! Free cores and placement (R224, R228, R422) -/

/-- A core's matrix unit in service. -/
def State.unitServes (s : State) (c : Nat) : Bool := !Table.get false s.noMatrix c

/-- A free core (R224), those of `gone` counted as held by nobody. -/
def State.coreFree (s : State) (gone : List Nat) (c : Nat) : Bool :=
  Table.get false s.inService c && match s.onCore c with
    | none => true
    | some x => gone.contains x.id

/-- The cores of instance `k` of a scope. -/
def instanceCores (scope k : Nat) : List Nat := (List.range (scopeCores scope)).map fun i => scopeCores scope * k + i

/-- Instances of a scope. -/
def instances (scope : Nat) : List Nat := List.range (128 / scopeCores scope)

/-- The free cores of an instance, lowest first. -/
def State.freeIn (s : State) (gone : List Nat) (scope k : Nat) (mx : Bool) : List Nat :=
  (instanceCores scope k).filter fun c => s.coreFree gone c && (!mx || s.unitServes c)

/-- The cores for a head (R228); none when no instance has enough. -/
def State.placeHead (s : State) (gone : List Nat) (d : List Word) : Option (List Nat) :=
  let scope := descField d 4 22 20
  let n := coresFor d
  let mx := (d.getD 4 0).bit 28
  (instances scope).findSome? fun k =>
    let l := (s.freeIn gone scope k mx).take n
    if l.length = n then some l else none

/-- A choice of new quads for the old ones, the lowest in front: each old quad in turn goes to the first quad where `ok`
lets it, such that the others can follow. -/
def chooseQuads (ok : Nat → Nat → Move → Bool) (cores : Nat → Nat → Move) (news : List Nat) : List Nat → Move → Option Move
  | [], mv => some mv
  | q :: r, mv => news.findSome? fun n =>
      if ok q n mv then chooseQuads ok cores news r (mv ++ cores q n) else none

/-- Whether the quad barriers that a slice holds in its old quad are FREE in the new one (R422), those of `gone` freed. -/
def State.quadClear (s : State) (gone : List Nat) (x : Slice) (old new : Nat) : Bool :=
  (List.range 16).all fun id =>
    let b := s.bar ⟨.quad, id, old⟩
    let c := s.bar ⟨.quad, id, new⟩
    decide (b.state = .free ∨ b.owner ≠ x.id) || decide (c.state = .free) || gone.contains c.owner || old == new

/-- The die on which a slice must stay: one where it owns an OPEN die-scope barrier (R422). -/
def State.diesOwned (s : State) (x : Slice) : List Nat :=
  (List.range 4).filter fun d => (List.range 32).any fun id =>
    let b := s.bar ⟨.die, id, d⟩
    decide (b.state = .opened ∧ b.owner = x.id)

/-- The die that a core of a slice stands on, or stood on before it was written out. -/
def homeDie (core : Nat) : Nat := core % 128 / 32

/-- New cores for a slice that is written out or moves (R228, R422): cores of `bar` are not taken. -/
def State.placeSlice (s : State) (gone : List Nat) (x : Slice) (bar : Nat → Bool) : Option Move :=
  let scope := x.field 4 22 20
  let mx := x.field 4 28 28 == 1
  let quads := (x.cores.map fun c => c / 4).eraseDups
  let cores := fun (q n : Nat) => (x.cores.filter fun c => c / 4 == q).map fun c => (c, 4 * n + c % 4)
  let dies := s.diesOwned x
  (instances scope).findSome? fun k =>
    let free := (s.freeIn gone scope k mx).filter fun c => !bar c
    let ok := fun (q n : Nat) (mv : Move) =>
      (cores q n).all (fun m => free.contains m.2 && !(mv.any fun p => p.2 == m.2)
        && (!dies.contains (homeDie m.1) || homeDie m.1 == homeDie m.2)) && s.quadClear gone x q n
    chooseQuads ok cores (free.map fun c => c / 4).eraseDups quads []

/-! Candidates (R227) -/

/-- A candidate: an evicted slice, or the head of a queue. -/
inductive Cand where
  | evicted (id : Nat)
  | head (q : Nat) (n : Snap)
  deriving DecidableEq, Repr

/-- The order of candidates: deadline, evicted before heads, freeze time or queue index. -/
def State.candKey (s : State) : Cand → Nat × Nat × Nat
  | .evicted id => (match s.slice? id with
    | some x => ((x.desc.getD 2 0).toNat, 0, x.ftime)
    | none => (0, 0, 0))
  | .head q n => ((n.words.getD 2 0).toNat, 1, q)

/-- Lexicographic order of keys. -/
def keyLt (a b : Nat × Nat × Nat) : Bool :=
  decide (a.1 < b.1) || (decide (a.1 = b.1) && (decide (a.2.1 < b.2.1) || (decide (a.2.1 = b.2.1) && decide (a.2.2 < b.2.2))))

/-- The heads of the ENABLED queues (R226). -/
def State.heads (s : State) : List (Nat × Snap) :=
  s.qtab.filterMap fun e => if e.2.state = .enabled then e.2.snaps.head?.map fun n => (e.1, n) else none

/-- The candidates of a pass. -/
def State.cands (s : State) : List Cand :=
  ((s.slices.filter fun x => decide (x.status = .evicted) && x.candidate).map fun x => Cand.evicted x.id)
    ++ s.heads.map fun h => Cand.head h.1 h.2

/-- The first candidate. Of evicted ones with one DEADLINE and one time of freezing it is the one that stands first in
`State.slices`, the model's choice (log 86). -/
def State.firstCand (s : State) : Option Cand :=
  s.cands.foldl (fun m c => match m with
    | none => some c
    | some b => if keyLt (s.candKey c) (s.candKey b) then some c else some b) none

/-- The descriptor of a candidate. -/
def State.candDesc (s : State) : Cand → List Word
  | .evicted id => (match s.slice? id with | some x => x.desc | none => [])
  | .head _ n => n.words

/-- Cores for a candidate as moves: a head's are paired with their positions. -/
def State.placeCand (s : State) (gone : List Nat) : Cand → Option Move
  | .evicted id => (match s.slice? id with
    | some x => s.placeSlice gone x fun _ => false
    | none => none)
  | .head _ n => (s.placeHead gone n.words).map fun l => l.mapIdx fun i c => (i, c)

/-! Start (R230) -/

/-- Whether a queue lies in the supervisor range (R431). -/
def State.supQueue (s : State) (q : Nat) : Bool :=
  decide (s.supq.field 15 0 ≤ q ∧ q < s.supq.field 15 0 + s.supq.field 31 16)

/-- The lowest `sliceid` that no slice holds. -/
def State.freeId (s : State) : Option Nat :=
  ((List.range 65535).find? fun k => (s.slice? (k + 1)).isNone).map fun k => k + 1

/-- A strand at its start (R10, R197). -/
def Strand.begin (d : List Word) (cores : List Nat) (rank : Nat) : Strand :=
  let sn := descField d 4 27 24
  { rank := rank, core := cores.getD (rank / sn) 0, slot := rank % sn, ended := false, pc := d.getD 0 0, check := none,
    regs := List.replicate 64 0, fpc := 0, fflags := 0, ovfptr := 0, csdepth := 0, phases := [], inst := none, pend := [],
    waits := [], reqs := [], msgs := [], left := [] }

/-- A slice at its start. -/
def Slice.begin (id q num : Nat) (sup : Bool) (svc pkgid : Word) (d : List Word) (cores : List Nat) : Slice :=
  { id := id, desc := d, queue := q, entry := num, sup := sup, svc := svc, pkgid := pkgid, status := .running, candidate := false, leaving := false, moving := false,
    budget := descField d 3 47 0, cause := 0, trap := none, owedTrap := none, ftime := 0, yield := none, image := none,
    replies := [], strands := (List.range (descField d 4 15 0)).map (Strand.begin d cores) }

/-- A head started on its cores, and its entry consumed; it waits while every number is held. -/
def State.startHead (s : State) (q : Nat) (n : Snap) (cores : List Nat) : State :=
  match s.freeId with
  | none => s
  | some id =>
    let s := s.clearCores cores
    ({ s with slices := s.slices ++ [Slice.begin id q n.num (s.supQueue q) s.svc s.pkgid n.words cores] } : State).consume1 q n

/-! Pre-emption and thinning (R227, R229, R425) -/

/-- The deadline of a slice. -/
def Slice.deadline (x : Slice) : Nat := (x.desc.getD 2 0).toNat

/-- The victims in order: resident running slices with a later deadline, latest first, then higher `sliceid` first. -/
def State.victims (s : State) (deadline : Nat) : List Slice :=
  (s.slices.filter fun x => decide (x.status = .running ∧ deadline < x.deadline)).mergeSort fun a b =>
    decide (b.deadline < a.deadline) || (decide (a.deadline = b.deadline) && decide (b.id ≤ a.id))

/-- The fewest leading victims whose cores make place succeed. -/
def State.enough (s : State) (c : Cand) (vs : List Slice) : Option (List Nat) :=
  ((List.range vs.length).map fun k => (vs.take (k + 1)).map fun x => x.id).find? fun ids => (s.placeCand ids c).isSome

/-- The instance with the most free cores, the lowest on a tie (R229). -/
def State.roomiest (s : State) (scope : Nat) (mx : Bool) : Nat :=
  (instances scope).foldl (fun m k =>
    if (s.freeIn [] scope m mx).length < (s.freeIn [] scope k mx).length then k else m) 0

/-- Whether a core lies in an instance. -/
def inInstance (scope k c : Nat) : Bool := c / scopeCores scope == k

/-- The slices that thinning may move out of an instance, in order: trap-frozen ones, then running ones with the latest
deadline first; none whose deadline is earlier than the head's. Trap-frozen ones, and running ones of one deadline,
are taken in the order of `State.slices`, the model's choice (log 86). -/
def State.movable (s : State) (d : List Word) (scope k : Nat) : List Slice :=
  let there := s.slices.filter fun x => x.resident && x.cores.any (inInstance scope k)
    && decide ((d.getD 2 0).toNat ≤ x.deadline)
  (there.filter fun x => decide (x.status = .frozen) && x.causedBy .trap && !x.candidate)
    ++ (there.filter fun x => decide (x.status = .running)).mergeSort fun a b => decide (b.deadline ≤ a.deadline)

/-- A frozen slice moved to other cores, its state with it (R229). -/
def State.relocate (s : State) (id : Nat) (mv : Move) : State := s.moveCores id mv

/-- Slices moved out of instance `k` in order, until it holds `n` free cores: frozen ones at once, running ones freeze
first. `plan` is the state as it will be once they have moved. -/
def State.moveOut (scope k n : Nat) (mx : Bool) : List Slice → State → State → State
  | [], s, _ => s
  | x :: l, s, plan =>
    if n ≤ (plan.freeIn [] scope k mx).length then s
    else match plan.placeSlice [] x (inInstance scope k) with
      | none => State.moveOut scope k n mx l s plan
      | some mv => State.moveOut scope k n mx l (if x.status = .frozen then s.relocate x.id mv else s.beginWave x.id .thin)
          (plan.relocate x.id mv)

/-- Thinning (R229): attempted when enough cores are free, though not in one instance. -/
def State.thin (s : State) (d : List Word) : State :=
  let scope := descField d 4 22 20
  let mx := (d.getD 4 0).bit 28
  let n := coresFor d
  let all := ((List.range 128).filter fun c => s.coreFree [] c && (!mx || s.unitServes c)).length
  if all < n then s
  else
    let k := s.roomiest scope mx
    State.moveOut scope k n mx (s.movable d scope k) s s

/-- Whether a pre-emption or a move is in progress. -/
def State.clearing (s : State) : Bool :=
  s.slices.any fun x => decide (x.status = .waving ∨ x.status = .halting) && (x.causedBy .preempt || x.causedBy .thin)

/-- A slice frozen to be moved, with its freeze complete. -/
def Slice.toMove (x : Slice) : Bool := decide (x.status = .frozen) && x.moving && !x.candidate

/-- A slice frozen to be moved is written out and thawed at once on other cores, away from the instance that the first
candidate needs (R229, R425): it goes on where it stands when it can no longer move, and moves without an image in the pool
when the pool has no room for one (log 72). One that a trap or a supervisor has frozen meanwhile (R415) moves as it stands, and
stays frozen. -/
def State.finishMove (s : State) (x : Slice) : State :=
  let away := match s.firstCand with
    | none => fun _ => true
    | some c =>
      let d := s.candDesc c
      let scope := descField d 4 22 20
      inInstance scope (s.roomiest scope ((d.getD 4 0).bit 28))
  let s := s.modSlice x.id fun y => { y with moving := false }
  match s.placeSlice [] x away with
  | none => if x.competes then s.markThaw x.id else s
  | some mv => if !x.competes then s.relocate x.id mv else match s.writeOut x.id with
    | none => (s.relocate x.id mv).markThaw x.id
    | some u => match u.slice? x.id with
      | none => u
      | some y => match u.placeSlice [] y away with
        | some mv => u.placeImage x.id mv
        | none => u

/-! DISPATCH_PASS -/

/-- Bits as a number, the first lowest. -/
def bitsNat (l : List Bool) : Nat := l.foldr (fun b n => 2 * n + b.toNat) 0

/-- What a pass depends on (R227): heads with their entries, free cores and evicted slices, as one list of numbers. -/
def State.view (s : State) : List Nat :=
  (s.heads.flatMap fun h => h.1 :: h.2.num :: bitsNat [h.2.marked, h.2.counted] :: h.2.words.map BitVec.toNat) ++ [2 ^ 64]
    ++ ((List.range 128).filter fun c => s.coreFree [] c) ++ [2 ^ 64]
    ++ ((List.range 128).filter fun c => s.coreFree [] c && s.unitServes c) ++ [2 ^ 64]
    ++ ((s.slices.filter fun x => decide (x.status = .evicted) && x.candidate).flatMap fun x => [x.id, x.ftime])

/-- A candidate that cannot be placed: slices are pre-empted for it, or thinned, or it waits. -/
def State.makeRoom (s : State) (c : Cand) : State :=
  match s.enough c (s.victims ((s.candDesc c).getD 2 0).toNat) with
  | some ids => ids.foldl (fun (s : State) (id : Nat) => s.beginWave id .preempt) s
  | none => s.thin (s.candDesc c)

/-- A candidate put on its cores. -/
def State.enter (s : State) (c : Cand) (mv : Move) : State :=
  match c with
  | .evicted id => s.placeImage id mv
  | .head q n => s.startHead q n (mv.map fun m => m.2)

/-- One action of the timetable (R227) for the first candidate. -/
def State.pass (s : State) : State :=
  match s.firstCand with
  | none => s
  | some c => match (match c with | .head q n => (s.refusalOf n).map fun k => (q, n, k) | .evicted _ => none) with
    | some (q, n, k) => s.refuse q n k
    | none => match s.placeCand [] c with
      | some mv => s.enter c mv
      | none => s.makeRoom c

/-- DISPATCH_PASS (R227): acts when a head, a free core or an evicted slice has changed since the last pass. -/
def execDispatchPass (s : State) : Host.Outcome State Fault Refusal :=
  .next (match s.slices.find? Slice.toMove with
  | some x => s.finishMove x
  | none => match s.slices.find? fun x => decide (x.status = .frozen) && x.leaving && (s.writeOut x.id).isSome with
  | some x => (s.writeOut x.id).getD s
  | none =>
    if s.clearing || s.view == s.passView then s
    else ({ s with passView := s.view } : State).pass)

/-! BUDGET, SLICE_END and APPEND -/

/-- BUDGET (R233): the budget left is 0. -/
def execBudget (sl : Nat) (s : State) : Host.Outcome State Fault Refusal :=
  .next (match s.slice? sl with
  | some x => if x.counts && x.budget == 0 then s.takeTrap sl { Trap.bare with code := 0x40 } else s
  | none => s)

/-- The words of a continuation (R235), before its key. -/
def contWords (d : List Word) (entry deadline : Word) : List Word :=
  ((d.set 0 entry).set 2 deadline).set 4 (BitVec.ofNat 64 ((d.getD 4 0).toNat ||| 2 ^ 29))

/-- The handle that a continuation goes to (R235): CQ, or the slice's own queue when CQ names none. -/
def State.contHandle (s : State) (x : Slice) : Nat :=
  if x.field 5 31 16 ≠ 0 then x.field 5 31 0 else (s.queue x.queue).handle x.queue

/-- Whether a slice can end (R234): its strands have ended and nothing of theirs is in progress; a slice that has trapped
freezes first (R412). -/
def State.ends (s : State) (x : Slice) : Bool :=
  x.live && x.trap.isNone && x.strands.all (fun t => t.ended && t.pend.isEmpty)
    && !s.ops.any fun o => sliceOf (o.words.getD 0 0) == x.id && decide (o.rank < 65536)

/-- What the waits for slice `id` end with when it ends (R445–R447). -/
def endRelease (free id : Nat) : WaitKind → Option (Word × Bool)
  | .freeze n _ => if n = id then some (refusedWord 1, false) else none
  | .abort n => if n = id then some (refusedWord 1, false) else none
  | .thaw n => if n = id then some ((Config.thawResult free).setWidth 64, false) else none
  | _ => none

/-- SLICE_END (R234, R235). -/
def execSliceEnd (sl : Nat) (s : State) : Host.Outcome State Fault Refusal :=
  .next (match s.slice? sl with
  | none => s
  | some x =>
    if !s.ends x then s
    else
      let h := s.contHandle x
      let s := ((s.clearCores x.cores).freeBarriers sl).removeSlice sl
      let s := match x.yield with
        | some y => s.beginAppend ⟨contWords x.desc y.1 y.2, h, .yield sl x.queue⟩
        | none => s.addThen { va := x.desc.getD 6 0, flag := false, slice := sl, tq := x.field 5 63 32,
                              eq := (s.queue x.queue).eq, scope := some (x.field 4 39 32), record := none }
      s.releaseWhere (endRelease s.freeSeq sl))

/-- The append of a port-4 operation whose descriptor has been read. -/
def State.appendFor (s : State) (n : Nat) (o : Op) (d : List Word) : State :=
  match s.appendPlain none ((o.words.getD 2 0).field 31 0) d with
  | .wait => s
  | .ok u j => u.endOp n 0 0 (some (BitVec.ofNat 64 (j % 2 ^ 63)))
  | r => (r.state s).endOp n 0x07 r.code none

/-- APPEND (R337, R384): the descriptor is read as one event, and the append is made or waits as `ENQ`'s does. -/
def execAppendOp (n : Nat) (s : State) : Host.Outcome State Fault Refusal :=
  .next (match s.op? n with
  | none => s
  | some o =>
    if portOf (o.words.getD 0 0) ≠ 4 ∨ o.stage = .ended ∨ !s.opFirst n o then s
    else s.pullMem n 0 o (alignDown (o.words.getD 1 0) 64).toNat 64 fun bs =>
      (s.modOp n fun o => { o with stage := .active }).appendFor n o (wordsOf bs 8))

end Sys2Proof.Machine
end

