-- ==== Sys2Proof/Machine/YardOps.lean ====
section
/-! DEFINITION. Sort-yard control (R296, R297, R305–R307, R392): each event is one step of an operation. -/

namespace Sys2Proof.Machine

/-- Operation `n` when it is a sort-yard operation of a kind that has not ended. -/
def State.yardOp (s : State) (n oper : Nat) : Option Op :=
  match s.op? n with
  | some o =>
    let w0 := o.words.getD 0 0
    if portOf w0 = 2 ∧ operOf w0 = oper ∧ o.stage ≠ .ended then some o else none
  | none => none

/-- The region that an operation names. -/
def Op.region (o : Op) : Nat := (o.words.getD 1 0).field 7 0

/-! define -/

/-- Whether an operator takes a type (R295). -/
def pairs (opr type : Nat) : Bool :=
  if opr = 1 then decide (type = 4 ∨ type = 5) else if opr = 2 ∨ opr = 3 then decide (type ≤ 4) else decide (type ≤ 3)

/-- The entry that a definition gives. -/
def regionOf (base len : Nat) (rec' : Word) : Region :=
  { base := base, len := len, spills := 0, state := .opened, nv := false, ovf := false, inexact := false,
    anchor := rec'.field 23 16, type := rec'.field 15 12, opr := rec'.field 2 0, extents := [] }

/-- Whether a range meets an OPEN or CLOSING region. -/
def State.regionMeets (s : State) (base len : Nat) : Bool :=
  s.regions.any fun e => decide (e.2.state ≠ .free) && overlap base len e.2.base e.2.len

/-- The lowest FREE entry. -/
def State.freeRegion (s : State) : Option Nat := (List.range 256).find? fun n => decide ((s.region n).state = .free)

/-- The refusal code of a definition (R296); none when it is accepted. -/
def State.defineCode (s : State) (base len : Nat) (rec' : Word) : Option Nat :=
  let r := regionOf base len rec'
  if s.freeRegion.isNone then some 1
  else if base % 65536 ≠ 0 ∨ len = 0 ∨ 2 ^ 40 ≤ len ∨ len % r.size ≠ 0 then some 2
  else if rec'.field 63 24 ≠ 0 ∨ rec'.field 11 3 ≠ 0 ∨ 5 < r.type ∨ !pairs r.opr r.type ∨ (r.anchor ≠ 0 ∧ r.opr ≠ 1) then
    some 3
  else if s.regionMeets base len then some 4
  else none

/-- The physical extents of a range's pages (R467), 64 KiB each, as the page tables give them. -/
def State.extentsOf (s : State) (base len : Nat) : List (Nat × Nat × Nat) :=
  (List.range ((len + 65535) / 65536)).filterMap fun k =>
    let va := base + 65536 * k
    match s.unitXlate (BitVec.ofNat 64 va) 0 with
    | (.leaf x, _) => some (va, x.pa, 65536)
    | _ => none

/-- A result written at an address that is not 0, then the end of the operation with it. -/
def State.endWith (s : State) (n : Nat) (o : Op) (addr w : Word) : State :=
  if addr = 0 then s.endOp n 0 0 (some w)
  else s.pushMem n 1 o addr.toNat (leBytes w.toNat 8) fun s => s.endOp n 0 0 (some w)

/-- DEFINE_REGION (R296, R392): the region stands in `idxs` once it is open and its number is still to be written. -/
def execDefineRegion (n : Nat) (s : State) : Host.Outcome State Fault Refusal :=
  .next (match s.yardOp n 0x20 with
  | none => s
  | some o =>
    if o.stage = .inbox ∧ !s.opFirst n o then s
    else match o.idxs with
      | (g, _) :: _ => s.endWith n o (o.words.getD 4 0) (BitVec.ofNat 64 g)
      | [] => s.pullMem n 0 o (o.num 3) 8 fun bs =>
        let rec' := wordAt bs 0
        match s.defineCode (o.num 1) (o.num 2) rec' with
        | some c => s.endOp n 0x07 c none
        | none =>
          let g := s.freeRegion.getD 0
          let s := s.setRegion g { regionOf (o.num 1) (o.num 2) rec' with extents := s.extentsOf (o.num 1) (o.num 2) }
          (s.modOp n fun o => { o with stage := .active, idxs := [(g, [])] }).endWith n o (o.words.getD 4 0) (BitVec.ofNat 64 g))

/-! apply, reset, close, stat -/

/-- An operation on an OPEN region is processed: `go` has the entry; it is refused with code 5 otherwise (R392). -/
def State.onOpen (s : State) (n : Nat) (o : Op) (go : State → Region → State) : State :=
  let r := s.region o.region
  if !s.opFirst n o then s
  else if r.state ≠ .opened then s.endOp n 0x07 5 none
  else go s r

/-- One key of an operation's region applied for the updates not later than its epoch, or the end when none is left or its
element is poisoned (R428). -/
def State.applyNext (s : State) (n : Nat) (o : Op) : State :=
  match s.allBins.find? fun b => Bin.isOf o.region b.key o.epoch b with
  | none => s.endOp n 0 0 none
  | some b =>
    if s.barred none b.pa (s.region o.region).size then s
    else if s.poisoned b.pa (s.region o.region).size then s.endOp n 0x100 0 none
    else s.applyKey o.party o.region b.key o.epoch

/-- APPLY_REGION (R305). -/
def execApplyRegion (n : Nat) (s : State) : Host.Outcome State Fault Refusal :=
  .next (match s.yardOp n 0x21 with
  | none => s
  | some o =>
    if o.stage = .inbox then s.onOpen n o fun s _ => s.modOp n fun o => { o with stage := .active }
    else s.applyNext n o)

/-- CLOSE_REGION (R297): every update made before it is processed is applied. -/
def execCloseRegion (n : Nat) (s : State) : Host.Outcome State Fault Refusal :=
  .next (match s.yardOp n 0x24 with
  | none => s
  | some o =>
    if o.stage = .inbox then s.onOpen n o fun s r =>
      ((s.setRegion o.region { r with state := .closing }).settleRegion o.region).modOp n fun o =>
        { o with stage := .active, epoch := s.epoch }
    else s.applyNext n o)

/-- Pending updates of keys in a range of virtual addresses discarded (R306). -/
def State.discardBins (s : State) (g va n : Nat) : State :=
  s.dropBins (fun b => b.region == g && decide (va ≤ b.key ∧ b.key < va + n)) s.epoch

/-- The keys of one 64-byte unit of a region written with zero. -/
def State.resetUnit (s : State) (n : Nat) (o : Op) (r : Region) (u : Nat) (rest : List (Nat × Nat)) : State :=
  let done := fun (s : State) => s.modOp n fun o => { o with left := rest }
  match rowChunk r.base r.len u with
  | none => done s
  | some (lo, m) => match s.opXlate o (BitVec.ofNat 64 lo) 2 with
    | .wait s => s
    | .bad s c => s.endOp n c 0 none
    | .ok s x =>
      if s.barred none x.pa m then s
      else ((s.discardBins o.region lo m).opWrite1 o (BitVec.ofNat 64 lo) (List.replicate m 0)).then n fun s _ => done s

/-- Flags and SPILLS cleared (R306). -/
def Region.cleared (r : Region) : Region := { r with spills := 0, nv := false, ovf := false, inexact := false }

/-- Whether unit `u` of a reset waits for the pager (R350): its access has missed, and `TLBI` has not replayed it. -/
def State.resetStalls (s : State) (o : Op) (r : Region) (u : Nat) : Bool :=
  match rowChunk r.base r.len u with
  | none => false
  | some (lo, _) => s.walks.any fun w => decide (w.who = .oper o.id ∧ w.va = BitVec.ofNat 64 lo) && w.posted

/-- The lowest unit left of a reset, from `u` on, that does not wait for the pager, of the next `fuel` ones. -/
def State.resetFrom (s : State) (o : Op) (r : Region) : Nat → Nat → Option Nat
  | 0, _ => none
  | fuel + 1, u => match lowestFrom u o.left with
    | none => none
    | some k => if s.resetStalls o r k then s.resetFrom o r fuel (k + 1) else some k

/-- The unit that a reset accesses next: the lowest left of those that do not wait for the pager. As many wait as there are
walks, at most. -/
def State.resetNext (s : State) (o : Op) (r : Region) : Option Nat := s.resetFrom o r (s.walks.length + 1) 0

/-- RESET_REGION (R306): it starts, makes the access of its next unit, or ends. A unit that misses holds back no other (R350). -/
def execResetRegion (n : Nat) (s : State) : Host.Outcome State Fault Refusal :=
  .next (match s.yardOp n 0x22 with
  | none => s
  | some o =>
    let r := s.region o.region
    if o.stage = .inbox then s.onOpen n o fun s r =>
      s.modOp n fun o => { o with stage := .active, left := [(0, unitsOf r.base r.len)] }
    else if o.left.isEmpty then (s.setRegion o.region r.cleared).endOp n 0 0 none
    else match s.resetNext o r with
      | none => s
      | some u => match pickUnit o.left u with
        | none => s
        | some rest => s.resetUnit n o r u rest)

/-- STAT_REGION (R307): e2 was read at the fork. -/
def execStatRegion (n : Nat) (s : State) : Host.Outcome State Fault Refusal :=
  .next (match s.yardOp n 0x23 with
  | none => s
  | some o => if !s.opFirst n o then s else s.endWith n o (o.words.getD 2 0) (o.result.getD 0))

/-- A stall of 2²⁰ cycles of the 1 GHz clock posts one record for the die (R303): at 600 MHz of the fabric, 629,146
fabric cycles. -/
def stallCycles : Nat := 629146

/-- Whether a die's stall has lasted, and none of its stalls has posted. -/
def State.stallDue (s : State) (die : Nat) : Bool :=
  s.yardStall.any (fun e => e.1 / 64 == die && match e.2 with
    | some w => decide (w.since + stallCycles ≤ s.cycles)
    | none => false)
  && !s.yardStall.any fun e => e.1 / 64 == die && match e.2 with
    | some w => w.posted
    | none => false

/-- YARDFULL (R303): one record for a die to the queue of group 0, item 3. -/
def execYardfull (die : Nat) (s : State) : Host.Outcome State Fault Refusal :=
  .next (if s.stallDue die then
      let mark := fun (e : Nat × Option Stall) =>
        if e.1 / 64 = die then (e.1, e.2.map fun w => { w with posted := true }) else e
      let s := { s with yardStall := s.yardStall.map mark }
      let t : Trap := { Trap.bare with code := 0x60, aux := BitVec.ofNat 64 die }
      let segs := (s.segs.filter fun (g : Seg) => g.die == die).length
      s.post (s.readCfg die 0 3).toNat (recordOf 4 t 0 s.now (BitVec.ofNat 64 segs))
    else s)

end Sys2Proof.Machine
end

