-- ==== Sys2Proof/Machine/Choices.lean ====
section
/-! DEFINITION. What may happen next (log 1): the events and firings that the device makes by itself, as a list that the
step draws on when the agenda names nothing; and the passing of fabric cycles (R233). -/

namespace Sys2Proof.Machine

/-- Fabric cycles pass: device time goes on (R461), the budgets of the slices that run count (R233), and every tick of the
program timestamps due before the last of the cycles happens (R284); one due in it is left to PT_TICK. -/
def State.elapse (s : State) (dt : Nat) : State :=
  { s with
    cycles := s.cycles + dt
    ptTicks := if dt = 0 then s.ptTicks else max s.ptTicks ((s.cycles + dt - 1) / 16)
    slices := s.slices.map fun x => if x.counts then { x with budget := x.budget - dt } else x }

/-- Bring-up as far as it has come (R475). -/
def State.nextStage (s : State) : Option BringUp :=
  let b := s.bring
  if !b.firmware then (if s.fw.ran then some .firmware else none)
  else match (List.range 128).find? fun c =>
      decide (c / 32 ≤ b.dies.length) && !Table.get false s.inService c && !s.coreHeld c with
    | some c => some (.core c)
    | none =>
      if b.dies.length < 4 then some (.die b.dies.length)
      else if !b.cal8 then some .matrix8
      else if !b.cal4 then some .matrix4 else none

/-- The command that stands in the mailbox (R472). -/
def State.mboxEvent (s : State) : List Instr :=
  if !s.mboxGo then []
  else match s.mboxCommand with
    | 1 => [.mboxSensors] | 2 => [.mboxLog] | 3 => [.mboxAttest] | 4 => [.mboxFwstage] | 5 => [.mboxFwactivate]
    | 6 => [.mboxReset] | 7 => [.mboxTime] | _ => []

/-- The events of an operation in its inbox or in progress, by PORT and OPER (R337, R462): for a transfer the lowest unit left,
the lowest of those that write, and one that the time picks, so that a unit that stalls holds back no other (R350). -/
def State.opEvent (s : State) (n : Nat) (o : Op) : List Instr :=
  let w0 := o.words.getD 0 0
  let u := (lowestFrom 0 o.left).getD 0
  let w := fun (d : Nat) =>
    if o.stage = .active then
      ([lowestFrom d o.left, nthUnit o.left (s.cycles / 1024 % countUnits o.left)].filterMap id).filter fun v => v != u
    else []
  if o.stage = .ended then [.operationReply n]
  else match portOf w0, operOf w0 with
    | 1, 0x10 => [.ldwOp n] | 1, 0x11 => [.swapwOp n] | 1, 0x12 => [.mmaOp n] | 1, 0x13 => [.accrdOp n]
    | 1, 0x14 => [.acczOp n] | 1, 0x15 => [.mmawOp n]
    | 2, 0x20 => [.defineRegion n] | 2, 0x21 => [.applyRegion n] | 2, 0x22 => [.resetRegion n]
    | 2, 0x23 => [.statRegion n] | 2, 0x24 => [.closeRegion n]
    | 3, 0x30 => [.openContext n] | 3, 0x31 => [.appendTokens n] | 3, 0x32 => [.proposeDraft n] | 3, 0x33 => [.statRecord n]
    | 3, 0x34 => [.saveImage n] | 3, 0x35 => [.loadImage n] | 3, 0x36 => [.closeContext n]
    | 4, _ => [.appendOp n]
    | 6, 0x60 => [.rupd s.pkgNumber n 0 0 .q] | 6, 0x61 => [.renq s.pkgNumber n [] 0]
    | 6, 0x62 => [.radd s.pkgNumber n 0 0] | 6, _ => [.ratom s.pkgNumber n 0 0 0 .q ⟨.cas, 0⟩]
    | _, 1 => (u :: w (copyLayout o).dest).map (.copyOp n)
    | _, 2 => (u :: w (copy2Layout o).dest).map (.copy2Op n)
    | _, 3 => (u :: w (indexLayout o).dest).map (.gathOp n)
    | _, 4 => (u :: w (indexLayout o).dest).map (.scatOp n)
    | _, 5 => (u :: w 0).map (.cfillOp n)
    | _, 6 => (u :: w (copyLayout (o.asCopy true)).dest).map (.putOp (.own n))
    | _, 7 => (u :: w (copyLayout (o.asCopy false)).dest).map (.getOp n)
    | _, _ => []

/-- The event of an issued access (R185, R299). -/
def pendEvent (st : SRef) (n : Nat) (a : Access) : Instr :=
  match a.kind with
  | .load => .loadReply st n | .ldx => .loadReply st n
  | .store => .storePerform st n | .stx => .storePerform st n
  | .upd => .updateAccept st n

/-- The event of a monitor's wait (R290). -/
def State.waitEvent (s : State) (st : SRef) (n : Nat) (w : Wait) : List Instr :=
  match w.kind with
  | .monitor _ armed seen =>
    if seen = 1 then [.waitmWake st n 1] else if armed + 1048576 ≤ s.cycles then [.waitmTimeout st n] else []
  | _ => []

/-- What may happen at an instruction's stations. -/
def nodeEvents (st : SRef) (i : Nat) (nd : Node) : List What :=
  .fire st i :: (nd.alts.map fun a => What.fireCopy st i a.1) ++ (nd.antis.mapIdx fun k a => What.event (.antiTokenArrival st i a.1 k))
    ++ [.event (.switchAdopt st i)]

/-- What may happen in a strand. -/
def State.strandEvents (s : State) (st : SRef) (t : Strand) : List What :=
  (t.pend.mapIdx fun n a => What.event (pendEvent st n a))
    ++ (match t.inst with
      | none => if t.ended then [] else [.event (.blockFetch st)]
      | some x => (x.nodes.mapIdx fun i nd => nodeEvents st i nd).flatten ++ [.event (.commit st), .settle st])
    ++ ((t.waits.mapIdx fun n w => s.waitEvent st n w).flatten ++ t.msgs.mapIdx fun n _ => Instr.messageIssue st n).map
      What.event

/-- What may happen to a slice. -/
def State.sliceEvents (s : State) (x : Slice) : List What :=
  (match x.status with
    | .waving => [What.event (.freezeWave x.id)]
    | .halting => [.event (.freezeComplete x.id)]
    | .frozen => if x.candidate then [.event (.thawResume x.id)] else []
    | _ => [])
    ++ (if x.counts && x.budget == 0 then [.event (.budget x.id)] else [])
    ++ (if s.ends x then [.event (.sliceEnd x.id)] else [])
    ++ (if x.resident then x.strands.flatMap fun t => s.strandEvents ⟨x.id, t.rank⟩ t else [])

/-- The host accesses that wait and may be made (R289). -/
def State.hostEvents (s : State) : List Instr :=
  [0, 1].filterMap fun l => match s.hostHead l with
    | some r => if s.hostBarred r then none else some (.hostAccess r.link r.write r.addr r.len r.bytes)
    | none => none

/-- What may happen to the package's units. -/
def State.unitEvents (s : State) : List Instr :=
  (s.walks.mapIdx fun n w => if w.posted then [] else [Instr.translationWalk n]).flatten
    ++ (s.ops.mapIdx fun n o => s.opEvent n o).flatten
    ++ (s.appends.mapIdx fun n _ => Instr.queueAppend n)
    ++ (s.qtab.filterMap fun e => if e.2.state = .enabled then some (Instr.pubObserved e.1) else none)
    ++ ((List.range 4).flatMap fun d => if s.stallDue d then [Instr.yardfull d] else [])
    ++ (s.outReqs.flatMap fun r => match r.sq with
      | some q => if r.sentAt + 20000 ≤ s.now then [Instr.remoteRetransmit r.pkg q] else []
      | none => [])
    ++ (s.ops.mapIdx fun n o =>
      if s.outReqs.any fun r => r.op == o.id && decide (r.firstAt + 1000000000 ≤ s.now) then [Instr.remoteUnreachable n]
      else []).flatten

/-- The scope that a key of the barrier table names. -/
def scopeAt (k : Nat) : Scope := match k % 8 with | 0 => .core | 1 => .quad | 2 => .die | 3 => .package | _ => .pod

/-- The barriers whose deadline has passed (R208). -/
def State.deadlines (s : State) : List Instr :=
  s.barriers.filterMap fun e => match e.2.dl with
    | some d => if e.2.state = .opened ∧ d ≤ s.now then
        some (.barrierDeadline ⟨⟨scopeAt e.1, e.1 / 512, e.1 / 8 % 64⟩, [], 20⟩) else none
    | none => none

/-- What may happen next. The queue table is looked at one queue at a time. -/
def State.choices (s : State) : List What :=
  if !s.bring.power then [.event .powerGood]
  else if s.ptTicks < s.cycles / 16 then [.event .ptTick]
  else
    s.slices.flatMap s.sliceEvents
      ++ ((match s.nextStage with | some b => [Instr.bringupStage b] | none => []) ++ s.mboxEvent ++ s.deadlines
        ++ s.unitEvents ++ s.hostEvents ++ [Instr.dispatchPass]).map What.event

/-- The choice of the present cycle: the list in turn, its last place for the queue table. -/
def State.choice (s : State) : What :=
  let l := s.choices
  let n := l.length + 1
  l.getD (s.cycles % n) (.event (.queueTableChange (s.cycles / n % Config.queues)))

end Sys2Proof.Machine
end

