-- ==== Sys2Proof/Machine/Gen.lean ====
section
/-! DEFINITION. Generation instructions: `KEY`, `NOISE`, `TREE`, `ACCEPT` (R370–R375, R395–R399). -/

namespace Sys2Proof.Machine

/-! KEY and NOISE -/

/-- ord of R371. -/
def ordOf (b : Nat) : Nat :=
  if (Fmt.fp32.read b).isNan then 0 else if b < 2 ^ 31 then b + 2 ^ 31 else 2 ^ 32 - 1 - b

/-- The key of R371. -/
def keyWord (a b : Word) : Word := BitVec.ofNat 64 (ordOf (a.field 31 0) * 2 ^ 32 + (2 ^ 32 - 1 - b.field 31 0))

/-- `KEY` (R395). -/
def execKey (h : Hdr) (s : State) : Host.Outcome State Fault Refusal :=
  firePure h [.a, .b] 0 0 (fun _ o => (keyWord o.a o.b, 0)) s

/-- `NOISE` (R396). -/
def execNoise (h : Hdr) (s : State) : Host.Outcome State Fault Refusal :=
  firePure h [.a, .b, .c] 0 0 (fun _ o =>
    let r := noiseBits o.a o.b o.c
    (BitVec.ofNat 64 r.1, r.2)) s

/-! TREE -/

/-- The state of one stream of `TREE` replaced, or dropped at its end. -/
def treeSet (l : List TreeSt) (e : TreeSt) (ended : Bool) : Ext :=
  let rest := l.filter fun o => o.tag != e.tag
  .tree (if ended then rest else rest ++ [e])

/-- The trap of a node (R373). -/
def treeTrap (e : TreeSt) (i d : Nat) : Option Nat :=
  if 64 ≤ i then some 0x23 else if d < 1 ∨ 16 < d ∨ e.sp + 1 < d then some 0x22 else none

/-- The parent of a node of depth d (R373). -/
def TreeSt.parent (e : TreeSt) (d : Nat) : Nat := if d = 1 then 0xFF else e.stack.getD (d - 2) 0

/-- The ancestor mask of a node (R373). -/
def TreeSt.mask (e : TreeSt) (i d : Nat) : Word :=
  (if d = 1 then 0 else e.masks.getD (e.parent d) 0) ||| BitVec.ofNat 64 (2 ^ i)

/-- The state after a node. -/
def TreeSt.push (e : TreeSt) (i d : Nat) : TreeSt :=
  { e with sp := d, stack := e.stack.set (d - 1) i, masks := e.masks ++ [e.mask i d] }

/-- The node word (R397). -/
def treeWord (tok parent d : Nat) : Word := BitVec.ofNat 64 (tok % 2 ^ 32 * 2 ^ 32 + d % 256 * 256 + parent % 256)

/-- A token for target `k` of a station, when the target is present. -/
def State.outTo (s : State) (st : SRef) (i k : Nat) (t : Tok) : State :=
  if (s.targets st i).contains k then s.out st i (.tok t [k]) else s

/-- `TREE` takes one element. -/
def treeTake (h : Hdr) (data : List Slot) (st : SRef) (i : Nat) (l : List (Slot × Tok)) (s : State) : State :=
  match s.node? st i, settle h 0 0 l, tokOf l .a with
  | some nd, some p, some ta =>
    let e := treeAt nd.ext.trees ta.tag
    let with' := fun (e : TreeSt) (r : Ready) (s : State) =>
      (s.consume st i h data { r with l := ta.l }).modNode st i fun n => { n with ext := treeSet n.ext.trees e ta.l }
    let gap : TreeSt := { e with masks := e.masks ++ [0] }
    match p with
    | .trap r => s.trapStation st i 0x06 0 r.tag r.idx 0 0
    | .settle .nothing r => (with' gap r s).emitNothing st i { r with l := ta.l }
    | .settle .forward r => (with' gap r s).emitForward st i { r with l := ta.l }
    | .settle .go r =>
      let d := r.v.a.field 7 0
      match treeTrap e r.idx d with
      | some c => s.trapStation st i c 0 r.tag r.idx 0 0
      | none =>
        let e2 := e.push r.idx d
        ((with' e2 r s).outTo st i 0 ⟨e.mask r.idx d, r.tag, r.idx, ta.l, false⟩).outTo st i 1
          ⟨treeWord (r.v.b.field 31 0) (e.parent d) d, r.tag, r.idx, ta.l, false⟩
  | _, _, _ => s

/-- Whether the outputs of a set of `TREE` have room. -/
def Inst.setRoom (x : Inst) (nd : Node) : List (Slot × Tok) → Bool
  | (_, t) :: _ => x.roomFor nd nd.targets t.tag t.idx
  | [] => false

/-- `TREE` (R373, R397). -/
def execTree (h : Hdr) (_x : EngImm) (s : State) : Host.Outcome State Fault Refusal :=
  let data := optB s
  atStation s fun st i s =>
    match s.inst? st, s.node? st i with
    | some x, some nd =>
      if !nd.free then s
      else
        let slots := usedSlots h data
        match (nd.treeSets (x.waited i slots) slots).find? (x.setRoom nd) with
        | some l => treeTake h data st i l s
        | none => s
    | _, _ => s

/-! ACCEPT -/

/-- What one tag holds. -/
def acceptAt (l : List AcceptSt) (tag : Nat) : AcceptSt :=
  (l.find? fun e => e.tag == tag).getD
    { tag := tag, cfg := none, nodes := [], complete := false, samples := [], accepted := [], rejected := [],
      verdict := none, closed := false }

/-- What one tag holds replaced. -/
def acceptSet (l : List AcceptSt) (e : AcceptSt) : Ext := .accept (l.filter (fun o => o.tag != e.tag) ++ [e])

/-- The valid kill targets of a configuration word (R398), laid out as R53. -/
def killTargets (w : Word) : List KillImm :=
  [4, 14, 24, 34].filterMap fun k =>
    if w.bit (k + 9) then
      some ⟨BitVec.ofNat 7 (w.field (k + 8) (k + 2)),
        match w.field (k + 1) k with | 0 => .a | 1 => .b | 2 => .c | _ => .p⟩
    else none

/-- Whether a kill target is one that R375 forbids. -/
def Inst.badKill (x : Inst) (k : KillImm) : Bool :=
  match x.nodes[k.index.toNat]? with
  | none => true
  | some c => effectfulOp c.op || (x.producer k.index.toNat k.slot).isNone

/-- Depths of the nodes by the chain of their parents, in index order (R399). -/
def chainDepths (nodes : List NodeEnt) : List (Nat × Nat) :=
  nodes.foldl (fun (l : List (Nat × Nat)) n =>
    let up := if n.parent = 0xFF then 0 else ((l.find? fun e => e.1 == n.parent).map fun e => e.2).getD 0
    l ++ [(n.j, up + 1)]) []

/-- The fault of a tag when `ACCEPT` fires (R399), as trap code and subcode. -/
def acceptFault (x : Inst) (w : Word) (e : AcceptSt) : Option (Nat × Nat) :=
  if w.field 63 44 ≠ 0 then some (0x01, 0x04)
  else if (killTargets w).isEmpty || (killTargets w).any x.badKill then some (0x01, 0x0F)
  else if e.nodes.any fun n => decide (64 ≤ n.j) then some (0x23, 0)
  else if (e.nodes.any fun n => decide (n.parent ≠ 0xFF ∧ n.j ≤ n.parent))
      || (chainDepths e.nodes).any fun d => decide (16 < d.2) then some (0x22, 0)
  else none

/-- The first sample of a node. -/
def AcceptSt.sample (e : AcceptSt) (node : Nat) : Option Nat :=
  (e.samples.find? fun s => s.node == node).map fun s => s.token

/-- One node decided when the inputs present settle it (R374). -/
def AcceptSt.judge (e : AcceptSt) (n : NodeEnt) : AcceptSt :=
  if e.accepted.contains n.j || e.rejected.contains n.j then e
  else if e.rejected.contains n.parent then { e with rejected := e.rejected ++ [n.j] }
  else if n.parent = 0xFF ∨ e.accepted.contains n.parent then
    match e.sample n.parent with
    | none => e
    | some t =>
      if n.token = t ∧ !e.nodes.any (fun m => m.parent == n.parent && m.token == t && decide (m.j < n.j)) then
        { e with accepted := e.accepted ++ [n.j] }
      else { e with rejected := e.rejected ++ [n.j] }
  else e

/-- Nodes by rising index. -/
def insertNode (n : NodeEnt) : List NodeEnt → List NodeEnt
  | [] => [n]
  | m :: r => if n.j ≤ m.j then n :: m :: r else m :: insertNode n r

/-- The accepted node, or the root, that ends the verdict: it has a sample and no child of it is accepted. -/
def AcceptSt.last (e : AcceptSt) : Option Nat :=
  (0xFF :: e.accepted).find? fun c => (e.sample c).isSome
    && !e.nodes.any fun n => n.parent == c && e.accepted.contains n.j

/-- Every node decided that the inputs present settle; when that makes the verdict final, every other is rejected. -/
def AcceptSt.decide' (e : AcceptSt) : AcceptSt :=
  let e := e.nodes.foldl AcceptSt.judge e
  match e.last with
  | none => e
  | some c =>
    let rest := (e.nodes.map fun n => n.j).filter fun j => !e.accepted.contains j && !e.rejected.contains j
    let mask := e.accepted.foldl (fun (w : Word) j => w ||| BitVec.ofNat 64 (2 ^ j)) 0
    { e with
      rejected := e.rejected ++ rest
      verdict := some [BitVec.ofNat 64 e.accepted.length, BitVec.ofNat 64 ((e.sample c).getD 0), mask] }

/-- The anti-tokens of the nodes that a decision step rejected, in ascending order (R375). -/
def killList (w : Word) (old new : List Nat) : List (KillImm × Anti) :=
  let fresh := (List.range 64).filter fun j => new.contains j && !old.contains j
  fresh.flatMap fun j => (killTargets w).map fun k => (k, (⟨4096 * w.field 3 0 + j, 0⟩ : Anti))

/-- What a tag holds after an entry: `ACCEPT` fires once the configuration word and the node list are there. -/
def acceptStep (st : SRef) (i : Nat) (t : Tok) (l : List (Slot × Tok)) (e : AcceptSt) (s : State) : State :=
  let keep := fun (e : AcceptSt) (s : State) => s.modNode st i fun n => { n.take l with ext := acceptSet n.ext.accepts e }
  match s.inst? st, e.cfg with
  | some x, some w =>
    if !e.complete then keep e s
    else match acceptFault x w e with
      | some (c, sub) => s.trapStation st i c sub t.tag t.idx 0 0
      | none =>
        let d := e.decide'
        (keep d s).antis st i (killList w e.rejected d.rejected)
  | _, _ => keep e s

/-- An entry of slot a (R398). -/
def AcceptSt.entry (e : AcceptSt) (t : Tok) (w : Word) : AcceptSt :=
  if w.bit 31 then
    if (e.sample (w.field 7 0)).isSome then e else { e with samples := e.samples ++ [⟨w.field 7 0, w.field 63 32⟩] }
  else if e.complete then e
  else { e with nodes := insertNode ⟨t.idx, w.field 15 8, w.field 7 0, w.field 63 32⟩ e.nodes, complete := t.l }

/-- `ACCEPT` takes one token. -/
def acceptTake (h : Hdr) (st : SRef) (i : Nat) (sl : Slot) (t : Tok) (l : List (Slot × Tok)) (s : State) : State :=
  match s.node? st i with
  | none => s
  | some nd =>
    let e := acceptAt nd.ext.accepts t.tag
    let drop := s.modNode st i fun n => n.take l
    let trap := s.trapStation st i 0x06 0 t.tag t.idx 0 0
    if e.closed || e.verdict.isSome then drop
    else if sl = .b then
      if e.cfg.isSome then drop
      else if !t.e then acceptStep st i t l { e with cfg := some t.data } s
      else match h.ep with
        | .absorb => drop
        | .forward =>
          if s.outRoom st i nd.targets t.tag 0 then
            (s.modNode st i fun n => { n.take l with ext := acceptSet n.ext.accepts { e with closed := true } }).emit st i
              ⟨0, t.tag, 0, true, true⟩
          else s
        | .replace => acceptStep st i t l { e with cfg := some 0 } s
        | .trap => trap
    else match predOf h 0 l with
      | .trap => trap
      | .mismatch => drop
      | .forward => drop
      | .pass =>
        if !t.e then acceptStep st i t l (e.entry t t.data) s
        else match h.ep with
          | .absorb => drop
          | .forward => drop
          | .replace => acceptStep st i t l (e.entry t 0) s
          | .trap => trap

/-- `ACCEPT` (R374, R375, R398, R399): a verdict that is due is emitted, else the next token is taken. -/
def execAccept (h : Hdr) (_x : EngImm) (s : State) : Host.Outcome State Fault Refusal :=
  atStation s fun st i s =>
    match s.inst? st, s.node? st i with
    | some x, some nd =>
      if !nd.free then s
      else match nd.verdictDue with
        | some e =>
          if s.outRoom st i nd.targets e.tag 0 then
            (s.modNode st i fun n => { n with ext := acceptSet n.ext.accepts { e with closed := true } }).emitList st i e.tag 0
              true (e.verdict.getD [])
          else s
        | none => match x.acceptPick i h with
          | some ((sl, t) :: r) => acceptTake h st i sl t ((sl, t) :: r) s
          | _ => s
    | _, _ => s

end Sys2Proof.Machine
end

