-- ==== Sys2Proof/Machine/System.lean ====
section
/-! DEFINITION. System instructions, opcodes 0xE0 to 0xE9 (R431–R449). -/

namespace Sys2Proof.Machine

/-! Privilege (R431) -/

/-- Whether a strand's slice is a supervisor slice. -/
def State.isSup (s : State) (st : SRef) : Bool :=
  match s.slice? st.slice with
  | some x => x.sup
  | none => false

/-- An effect that only a supervisor slice makes: any other traps PROT with ACC 0. -/
def supEff (eff : SRef → Nat → Ready → State → Eff) (st : SRef) (i : Nat) (r : Ready) (s : State) : Eff :=
  if s.isSup st then eff st i r s else .done (s.trapStation st i 0x31 0 r.tag r.idx 0 0)

/-! RDSR, WRSR, TRAP -/

/-- The effect of `RDSR` (R439). -/
def rdsrEff (h : Hdr) (r : Nat) (st : SRef) (i : Nat) (o : Ready) (s : State) : Eff :=
  match s.slice? st.slice, s.strand? st with
  | some x, some t => .done (s.answer h [.a] st i o (s.readSreg x t r))
  | _, _ => .wait s

/-- `RDSR` (R439). -/
def execRdsr (h : Hdr) (r : BitVec 6) (s : State) : Host.Outcome State Fault Refusal :=
  fireEff h [.a] 0 0 (if sregPackage r.toNat then supEff (rdsrEff h r.toNat) else rdsrEff h r.toNat) s

/-- The effect of `WRSR` (R440): the block-tag token that carries L sets the register at commit. -/
def wrsrEff (h : Hdr) (r : Nat) (st : SRef) (i : Nat) (o : Ready) (s : State) : Eff :=
  let s := s.answer h [.a] st i o 0
  .done (if o.tag = 0 ∧ o.l then s.modInst st fun x => { x with swrites := x.swrites ++ [(r, o.v.a)] } else s)

/-- `WRSR` (R440). -/
def execWrsr (h : Hdr) (r : BitVec 6) (s : State) : Host.Outcome State Fault Refusal :=
  fireEff h [.a] 0 0 (if sregPackage r.toNat then supEff (wrsrEff h r.toNat) else wrsrEff h r.toNat) s

/-- `TRAP` (R441): the firing traps SWTRAP with SUB = CODE. -/
def execTrap (h : Hdr) (code : BitVec 8) (s : State) : Host.Outcome State Fault Refusal :=
  fireEff h [.a] 0 0 (fun st i r s => .done (s.trapStation st i 0x08 code.toNat r.tag r.idx 0 0)) s

/-! PATCH and SWITCH (R442, R443) -/

/-- What reading a stream gives. -/
inductive Stream where
  | ok (s : State) (cmds : List Nat)
  | wait (s : State)
  | trap (code : Nat) (va : Word)

/-- Whether a command is END. -/
def isEnd (c : Nat) : Bool := c / 2 ^ 20 == 0xFFF && c / 2 ^ 16 % 16 == 1

/-- The commands of a stream up to END, or 4,096 and those of the unit that holds the last, read by 64-byte units, at most
`fuel` of them. -/
def State.readStream (s : State) (st : SRef) (core i tag idx : Nat) : Nat → Nat → List Nat → Stream
  | 0, _, l => .ok s l
  | f + 1, va, l =>
    let n := 64 - va % 64
    if 4096 ≤ l.length then .ok s l
    else match s.translate core (BitVec.ofNat 64 va) 1 (.station st i tag idx) with
    | .trap c => .trap c (BitVec.ofNat 64 va)
    | .wait s => .wait s
    | .ok x =>
      if s.barred (some st) x.pa n then .wait s
      else
        let s := (s.yardFor (.of core) x x.pa n).touchLoad core x x.pa
        if s.poisoned x.pa n then .trap 0x50 (BitVec.ofNat 64 va)
        else
          let new := cmdsOf (rdBytes s.mem x.pa n)
          match new.findIdx? isEnd with
          | some k => .ok s (l ++ new.take (k + 1))
          | none => s.readStream st core i tag idx f (va + n) (l ++ new)

/-- A `PATCH` stream taken apart: writes as (station, field, value), and the switch generation of a stream that carries
SWITCH; none for a stream that R442 or R81 faults. The reserved bits of the VALUE of BEGIN, END and SWITCH are ignored, the
model's choice (log 60). -/
def patchOf (pages : Nat) (cmds : List Nat) : Option (List (Nat × Nat × Nat) × Option Nat) :=
  let field := fun (c : Nat) => c / 2 ^ 16 % 16
  let elem := fun (c : Nat) => c / 2 ^ 20
  match cmds with
  | [] => none
  | b :: r =>
    let body := r.dropLast
    let last := r.getLast?.getD 0
    let bad := fun (c : Nat) =>
      if elem c = 0xFFF then field c != 2
      else decide (elem c % 8 ≠ 0 ∨ 3 < field c ∨ pages ≤ elem c / 2 ^ 9)
    if elem b ≠ 0xFFF ∨ field b ≠ 0 ∨ b / 2 ^ 15 % 2 = 0 ∨ !isEnd last ∨ 4096 < cmds.length ∨ body.any bad then none
    else some ((body.filter fun c => elem c != 0xFFF).map fun c => (elem c / 8, field c, c % 65536),
      ((body.filter fun c => elem c == 0xFFF).map fun c => c % 256).getLast?)

/-- A quarter of a word replaced (R75). -/
def setQuarter (w : Word) (f v : Nat) : Word :=
  BitVec.ofNat 64 (w.toNat - w.field (16 * f + 15) (16 * f) * 2 ^ (16 * f) + v * 2 ^ (16 * f))

/-- What a stream's writes make of a word. -/
def writesTo (ws : List (Nat × Nat × Nat)) (n : Nat) (w : Word) : Word :=
  (ws.filter fun e => e.1 == n).foldl (fun w e => setQuarter w e.2.1 e.2.2) w

/-- The words that a stream gives to the stations that it names and the block uses: instruction, copy, word (R81). -/
def Inst.withWrites (x : Inst) (ws : List (Nat × Nat × Nat)) : List (Nat × Nat × Word) :=
  (x.stations.mapIdx fun n e => if ws.any (fun w => w.1 == n) then (match x.nodes[e.1]? with
    | some nd => [(e.1, e.2, writesTo ws n (nd.wordAt e.2))]
    | none => []) else []).flatten

/-- The words that a stream gives to the other stations that it names. -/
def Inst.spareWrites (x : Inst) (ws : List (Nat × Nat × Nat)) : List (Nat × Word) :=
  let used := x.stations.length
  ((ws.map fun w => w.1).eraseDups.filter fun n => decide (used ≤ n)).map fun n => (n, writesTo ws n (x.spareWord n))

/-- The image of a block with new words, for the checks of R72. -/
def Block.asImage (b : Block) (pages : Nat) (words : List Word) : Image :=
  { hdr := ⟨b.nframe, b.pool.length, b.jtabs.length, pages, b.exits.length, words.length, b.size, b.mx⟩
    words := words, exits := b.exits, pool := b.pool, length := b.size
    jtabs := b.jtabs.map fun j => (BitVec.ofNat 64 (j.offs.length * 65536 + j.label), j.offs) }

/-- The checks of R72 that the block fails with other words. -/
def Inst.wordsFail (x : Inst) (pages : Nat) (words : List Word) : List (Nat × Nat) :=
  imageFaults (x.block.asImage pages words) pages

/-- The check of R72 that a patched word fails, as a subcode: the words of a stream are checked together in the block, a word
that only some copies get in place of the others' too, and one for a station that the block does not use as an instruction
beyond its last. -/
def Inst.patchFault (x : Inst) (pages : Nat) (new : List (Nat × Nat × Word)) (spare : List (Nat × Word)) : Option Nat :=
  let words := new.foldl (fun l e => l.set e.1 e.2.2) (x.nodes.map fun nd => nd.word)
  (leastFault (x.wordsFail pages words
    ++ (new.flatMap fun e => if words[e.1]? = some e.2.2 then [] else x.wordsFail pages (words.set e.1 e.2.2))
    ++ spare.flatMap fun e => (x.wordsFail pages (words ++ [e.2])).filter fun f => f.2 == words.length)).map fun f => f.1

/-- A stream's words set pending (R426), and adopted at once by the stations that wait on no slot; a stream without SWITCH
takes effect whole at its END (R80, log 60). -/
def State.setPending (s : State) (st : SRef) (gen : Option Nat) (new : List (Nat × Nat × Word)) (spare : List (Nat × Word)) :
    State :=
  let s := (new.foldl (fun (s : State) (e : Nat × Nat × Word) =>
    s.modNode st e.1 fun n => { n with pend := n.pend ++ [e.2] }) s).modInst st fun x =>
      { x with patchGen := gen.getD 0, spare := spare ++ x.spare.filter fun o => !spare.any fun e => e.1 == o.1 }
  (new.map fun e => e.1).eraseDups.foldl (fun (s : State) (i : Nat) => match gen, s.inst? st, s.node? st i with
    | none, _, _ => s.modNode st i Node.adopted
    | some g, some x, some nd => if (x.waited i nd.fed).isEmpty then s.adopt st i g else s
    | _, _, _ => s) s

/-- `PATCH` (R442). -/
def execPatch (h : Hdr) (s : State) : Host.Outcome State Fault Refusal :=
  fireEff h [.a] 0 0 (fun st i r s =>
    match s.slice? st.slice, s.strand? st, s.inst? st with
    | some sl, some t, some x =>
      if x.nodes.any fun nd => !nd.pend.isEmpty then .wait s
      else (match s.readStream st t.core i r.tag r.idx 257 (alignDown r.v.a 4).toNat [] with
        | .wait s => .wait s
        | .trap c va => .done (s.trapStation st i c 0 r.tag r.idx 1 va)
        | .ok s cmds => match patchOf sl.pages cmds with
          | none => .done (s.trapStation st i 0x01 0x04 r.tag r.idx 0 0)
          | some (ws, gen) =>
            let new := x.withWrites ws
            let spare := x.spareWrites ws
            match x.patchFault sl.pages new spare with
            | some c => .done (s.trapStation st i 0x01 c r.tag r.idx 0 0)
            | none => .done (((s.consume st i h [.a] r).setPending st gen new spare).emitData st i r 0))
    | _, _, _ => .wait s) s

/-- `SWITCH` (R443): one switch token to each target. -/
def execSwitch (h : Hdr) (s : State) : Host.Outcome State Fault Refusal :=
  let data := optB s
  fireEff h data 0 0 (fun st i r s =>
    match s.inst? st with
    | none => .wait s
    | some x => .done ((s.consume st i h data r).out st i (.switch x.patchGen (s.targets st i)))) s

/-! FREEZE, THAW, ABORT (R444–R447) -/

/-- The slice that a names, for an instruction of another slice: code 2 for the issuer's own, 1 when there is none. -/
def State.named (s : State) (st : SRef) (a : Word) : Except Nat Slice :=
  if a.field 15 0 = st.slice then .error 2
  else match s.slice? (a.field 15 0) with
    | some x => .ok x
    | none => .error 1

/-- The effect of `FREEZE` (R445). -/
def freezeEff (h : Hdr) (data : List Slot) (st : SRef) (i : Nat) (r : Ready) (s : State) : Eff :=
  match s.named st r.v.a with
  | .error c => .done (s.answer h data st i r (refusedWord c))
  | .ok x =>
    let write := data.contains .b && r.v.b.bit 0
    if x.status = .evicted then .done (s.answer h data st i r (refusedWord 1))
    else if x.status = .frozen then
      let u := s.overtake x .freeze
      if !write then .done (u.answer h data st i r 0)
      else match (u.beginWait st i h data r (.freeze x.id true)).freezeOut x with
        | some v => .done v
        | none => .done (s.answer h data st i r (refusedWord 3))
    else .done ((s.beginWait st i h data r (.freeze x.id write)).beginWave x.id .freeze)

/-- `FREEZE` (R445). -/
def execFreeze (h : Hdr) (s : State) : Host.Outcome State Fault Refusal :=
  fireEff h (optB s) 0 0 (supEff (freezeEff h (optB s))) s

/-- The slice that an image at an address names by its SLICEID, or a refusal code. -/
def State.imageSlice (s : State) (a : Word) : Except Nat Slice :=
  if a.toNat % 64 ≠ 0 then .error 4
  else match s.unitWord a with
    | some h0 => (match s.slice? (h0.field 31 16) with | some x => .ok x | none => .error 1)
    | none => match s.slices.find? fun x => x.image.any fun p => p.addr == a with
      | some x => .ok x
      | none => .error 4

/-- The step of `THAW` on an image (R446): the new state, or a refusal code. -/
def State.thawImage (s : State) (st : SRef) (a : Word) : Except Nat (State × Nat) :=
  match s.imageSlice a with
  | .error c => .error c
  | .ok x =>
    if x.id = st.slice then .error 2
    else match x.image with
      | none => .error 5
      | some p =>
        if x.status ≠ .evicted then .error 5
        else if x.candidate then .error 1
        else match s.imageCells a p.slots (if a = p.addr then some p.cells else none) with
          | none => .error 4
          | some cells =>
            if (s.restoreImage x p cells).isNone then .error 4
            else .ok (s.modSlice x.id fun y => { y with candidate := true, image := some { p with addr := a } }, x.id)

/-- The headers that `THAW` of a slice frozen in place reads at b. -/
inductive Headers where
  | ok (s : State) (ws : List Word)
  | wait (s : State)
  | trap (code : Nat) (va : Word)

/-- The words of a slice header and `n` strand headers. -/
def State.headersAt (s : State) (st : SRef) (t : Strand) (i : Nat) (r : Ready) (n : Nat) : Headers :=
  match s.spansOf t.core 1 (.station st i r.tag r.idx) 3 (alignDown r.v.b 8).toNat (64 * (n + 1)) [] with
  | .wait s => .wait s
  | .trap c va => .trap c va
  | .ok s l =>
    if l.any fun p => s.barred (some st) p.1 p.2.1 then .wait s
    else if l.any fun p => s.poisoned p.1 p.2.1 then .trap 0x50 r.v.b
    else
      let (s, bs) := s.readSpans t.core l
      .ok s (wordsOf bs (8 * (n + 1)))

/-- The effect of `THAW` on a slice frozen in place (R446). -/
def thawPlaceEff (h : Hdr) (data : List Slot) (st : SRef) (i : Nat) (r : Ready) (s : State) : Eff :=
  match s.named st r.v.a, s.strand? st with
  | .error c, _ => .done (s.answer h data st i r (refusedWord c))
  | .ok x, some t =>
    if x.status ≠ .frozen ∨ x.candidate then .done (s.answer h data st i r (refusedWord 1))
    else
      let go := fun (s : State) => Eff.done ((s.markThaw x.id).beginWait st i h data r (.thaw x.id))
      if !data.contains .b then go s
      else (match s.headersAt st t i r x.strands.length with
        | .wait s => .wait s
        | .trap c va => .done (s.trapStation st i c 0 r.tag r.idx 1 va)
        | .ok s ws => go (s.applyHeaders x.id ((ws.getD 2 0).field 47 0)
            ((List.range x.strands.length).map fun k => (ws.drop (8 * (k + 1))).take 3)))
  | .ok _, none => .wait s

/-- The effect of `THAW` (R446). -/
def thawEff (h : Hdr) (data : List Slot) (st : SRef) (i : Nat) (r : Ready) (s : State) : Eff :=
  if r.v.a.bit 63 then thawPlaceEff h data st i r s
  else match s.thawImage st r.v.a with
    | .error c => .done (s.answer h data st i r (refusedWord c))
    | .ok (s, id) => .done (s.answer h data st i r (BitVec.ofNat 64 id))

/-- `THAW` (R446). -/
def execThaw (h : Hdr) (s : State) : Host.Outcome State Fault Refusal :=
  fireEff h (optB s) 0 0 (supEff (thawEff h (optB s))) s

/-- The effect of `ABORT` (R447). -/
def abortEff (h : Hdr) (st : SRef) (i : Nat) (r : Ready) (s : State) : Eff :=
  match s.named st r.v.a with
  | .error c => .done (s.answer h [.a] st i r (refusedWord c))
  | .ok x =>
    if x.status = .frozen ∨ x.status = .evicted then .done ((s.abortNow x.id).answer h [.a] st i r 0)
    else .done ((s.beginWait st i h [.a] r (.abort x.id)).beginWave x.id .freeze)

/-- `ABORT` (R447). -/
def execAbort (h : Hdr) (s : State) : Host.Outcome State Fault Refusal := fireEff h [.a] 0 0 (supEff (abortEff h)) s

/-! TLBI and PMAP (R448, R449) -/

/-- The range of addresses that a translation miss on `va`'s page covers: the page that maps it now, or else 64 KiB. -/
def State.pageAround (s : State) (va : Word) : Nat × Nat :=
  match s.walkPlain va with
  | .leaf x => (x.base, x.size)
  | _ => (va.toNat / 65536 * 65536, 65536)

/-- The issued accesses that `p` holds of go back to not issued, the latest of a strand first. -/
def State.recall (s : State) (p : Access → Bool) : State :=
  s.strands.foldl (fun (s : State) (e : SRef × Strand) =>
    (List.range e.2.pend.length).foldr (fun n (s : State) => match e.2.pend[n]? with
      | some a => if p a then s.unissue e.1 n else s
      | none => s) s) s

/-- `TLBI`'s invalidation, and with `replay` the walks that stand posted for the page walked again (R411, R448). An access
that issued with an entry of the page and has not performed issues again, with a translation of its own (R261). -/
def State.invalidate (s : State) (va : Word) (all replay : Bool) : State :=
  let hit := fun (base size : Nat) => all || decide (base ≤ va.toNat ∧ va.toNat < base + size)
  let s := ({ s with tlb := s.tlb.filter fun e => !hit e.base e.size, tcache := s.tcache.filter fun e => !hit e.base e.size
            : State }).recall fun a => hit a.at'.base a.at'.size
  if !replay then s
  else
    let (base, size) := s.pageAround va
    { s with walks := s.walks.map fun w =>
        if all || decide (base ≤ w.va.toNat ∧ w.va.toNat < base + size) then { w with posted := false } else w }

/-- `TLBI` (R448). -/
def execTlbi (h : Hdr) (x : TlbiImm) (s : State) : Host.Outcome State Fault Refusal :=
  fireEff h [.a] 0 0 (supEff fun st i r s => .done ((s.invalidate r.v.a x.all x.replay).answer h [.a] st i r 0)) s

/-- The word that `PMAP` emits for the end of a walk (R449). -/
def pmapWord (w : WalkRes) (kind : Nat) : Word :=
  match w with
  | .miss => BitVec.ofNat 64 (2 ^ 63 + 1)
  | .fault => BitVec.ofNat 64 (2 ^ 63 + 2)
  | .leaf x =>
    if !permits x.leaf kind then BitVec.ofNat 64 (2 ^ 63 + 3)
    else
      let size := if x.size = 2 ^ 16 then 0 else if x.size = 2 ^ 21 then 1 else 2
      BitVec.ofNat 64 (size * 2 ^ 61 + x.leaf.field 61 58 * 2 ^ 57 + x.leaf.field 57 57 * 2 ^ 56 + x.leaf.field 55 54 * 2 ^ 54
        + x.leaf.field 56 56 * 2 ^ 53 + x.leaf.field 3 1 * 2 ^ 50 + x.pa % 2 ^ 48)

/-- The walk of `PMAP`: it reads as R261 states and fills nothing. -/
def State.pmapWalk (s : State) (core : Nat) (va : Word) : WalkRes :=
  if !canonical va then .fault
  else (walkFrom s.mem (s.tcache.filter fun e => e.unit == dieOf core) 0 va.toNat levels s.rootTable []).1

/-- `PMAP` (R449). -/
def execPmap (h : Hdr) (s : State) : Host.Outcome State Fault Refusal :=
  let data := optB s
  fireEff h data 0 0 (supEff fun st i r s => match s.strand? st with
    | none => .wait s
    | some t =>
      let kind := if data.contains .b then r.v.b.field 2 0 else 0
      .done (s.answer h data st i r (pmapWord (s.pmapWalk t.core r.v.a) kind))) s

end Sys2Proof.Machine
end

