-- ==== Sys2Proof/Machine/Dispatch.lean ====
section
/-! DEFINITION. One arm for each constructor of `Instr`: the meaning of each row of the opcode table. -/

namespace Sys2Proof.Machine

def exec (i : Instr) (s : State) : Host.Outcome State Fault Refusal :=
  match i with
  | .blockFetch st => Sys2Proof.Machine.execBlockFetch st s
  | .commit st => Sys2Proof.Machine.execCommit st s
  | .antiTokenArrival st idx tgt k => Sys2Proof.Machine.execAntiTokenArrival st idx tgt k s
  | .loadReply st n => Sys2Proof.Machine.execLoadReply st n s
  | .storePerform st n => Sys2Proof.Machine.execStorePerform st n s
  | .translationWalk n => Sys2Proof.Machine.execTranslationWalk n s
  | .ptTick => Sys2Proof.Machine.execPtTick s
  | .freezeWave sl => Sys2Proof.Machine.execFreezeWave sl s
  | .freezeComplete sl => Sys2Proof.Machine.execFreezeComplete sl s
  | .thawResume sl => Sys2Proof.Machine.execThawResume sl s
  | .switchAdopt st idx => Sys2Proof.Machine.execSwitchAdopt st idx s
  | .queueTableChange q => Sys2Proof.Machine.execQueueTableChange q s
  | .pubObserved q => Sys2Proof.Machine.execPubObserved q s
  | .queueAppend n => Sys2Proof.Machine.execQueueAppend n s
  | .dispatchPass => Sys2Proof.Machine.execDispatchPass s
  | .budget sl => Sys2Proof.Machine.execBudget sl s
  | .sliceEnd sl => Sys2Proof.Machine.execSliceEnd sl s
  | .barrierDeadline b => Sys2Proof.Machine.execBarrierDeadline b s
  | .messageIssue st n => Sys2Proof.Machine.execMessageIssue st n s
  | .operationReply n => Sys2Proof.Machine.execOperationReply n s
  | .copyOp n u => Sys2Proof.Machine.execCopyOp n u s
  | .copy2Op n u => Sys2Proof.Machine.execCopy2Op n u s
  | .gathOp n u => Sys2Proof.Machine.execGathOp n u s
  | .scatOp n u => Sys2Proof.Machine.execScatOp n u s
  | .cfillOp n u => Sys2Proof.Machine.execCfillOp n u s
  | .putOp by' u => Sys2Proof.Machine.execPutOp by' u s
  | .getOp n u => Sys2Proof.Machine.execGetOp n u s
  | .ldwOp n => Sys2Proof.Machine.execLdwOp n s
  | .swapwOp n => Sys2Proof.Machine.execSwapwOp n s
  | .mmaOp n => Sys2Proof.Machine.execMmaOp n s
  | .accrdOp n => Sys2Proof.Machine.execAccrdOp n s
  | .acczOp n => Sys2Proof.Machine.execAcczOp n s
  | .mmawOp n => Sys2Proof.Machine.execMmawOp n s
  | .defineRegion n => Sys2Proof.Machine.execDefineRegion n s
  | .applyRegion n => Sys2Proof.Machine.execApplyRegion n s
  | .resetRegion n => Sys2Proof.Machine.execResetRegion n s
  | .statRegion n => Sys2Proof.Machine.execStatRegion n s
  | .closeRegion n => Sys2Proof.Machine.execCloseRegion n s
  | .openContext n => Sys2Proof.Machine.execOpenContext n s
  | .appendTokens n => Sys2Proof.Machine.execAppendTokens n s
  | .proposeDraft n => Sys2Proof.Machine.execProposeDraft n s
  | .statRecord n => Sys2Proof.Machine.execStatRecord n s
  | .saveImage n => Sys2Proof.Machine.execSaveImage n s
  | .loadImage n => Sys2Proof.Machine.execLoadImage n s
  | .closeContext n => Sys2Proof.Machine.execCloseContext n s
  | .appendOp n => Sys2Proof.Machine.execAppendOp n s
  | .rupd src sq key value ty => Sys2Proof.Machine.execRupd src sq key value ty s
  | .renq src sq desc handle => Sys2Proof.Machine.execRenq src sq desc handle s
  | .radd src sq addr inc => Sys2Proof.Machine.execRadd src sq addr inc s
  | .ratom src sq addr b c ty aop => Sys2Proof.Machine.execRatom src sq addr b c ty aop s
  | .remoteRetransmit pkg sq => Sys2Proof.Machine.execRemoteRetransmit pkg sq s
  | .remoteUnreachable n => Sys2Proof.Machine.execRemoteUnreachable n s
  | .updateAccept st n => Sys2Proof.Machine.execUpdateAccept st n s
  | .yardfull die => Sys2Proof.Machine.execYardfull die s
  | .waitmWake st n cause => Sys2Proof.Machine.execWaitmWake st n cause s
  | .waitmTimeout st n => Sys2Proof.Machine.execWaitmTimeout st n s
  | .errorDetected cls unit what => Sys2Proof.Machine.execErrorDetected cls unit what s
  | .errorTestDone cls unit e => Sys2Proof.Machine.execErrorTestDone cls unit e s
  | .hostAccess link write addr len bytes => Sys2Proof.Machine.execHostAccess link write addr len bytes s
  | .mboxSensors => Sys2Proof.Machine.execMboxSensors s
  | .mboxLog => Sys2Proof.Machine.execMboxLog s
  | .mboxAttest => Sys2Proof.Machine.execMboxAttest s
  | .mboxFwstage => Sys2Proof.Machine.execMboxFwstage s
  | .mboxFwactivate => Sys2Proof.Machine.execMboxFwactivate s
  | .mboxReset => Sys2Proof.Machine.execMboxReset s
  | .mboxTime => Sys2Proof.Machine.execMboxTime s
  | .powerGood => Sys2Proof.Machine.execPowerGood s
  | .bringupStage what => Sys2Proof.Machine.execBringupStage what s
  | .land h label => Sys2Proof.Machine.execLand h label s
  | .read h r => Sys2Proof.Machine.execRead h r s
  | .write h r => Sys2Proof.Machine.execWrite h r s
  | .const h v => Sys2Proof.Machine.execConst h v s
  | .kpool h k => Sys2Proof.Machine.execKpool h k s
  | .mov h v => Sys2Proof.Machine.execMov h v s
  | .fork h tc td => Sys2Proof.Machine.execFork h tc td s
  | .sel h ef => Sys2Proof.Machine.execSel h ef s
  | .steer h => Sys2Proof.Machine.execSteer h s
  | .merge h => Sys2Proof.Machine.execMerge h s
  | .jand h ef => Sys2Proof.Machine.execJand h ef s
  | .jor h ef => Sys2Proof.Machine.execJor h ef s
  | .jall h => Sys2Proof.Machine.execJall h s
  | .carry h x => Sys2Proof.Machine.execCarry h x s
  | .loopin h x => Sys2Proof.Machine.execLoopin h x s
  | .loopout h x => Sys2Proof.Machine.execLoopout h x s
  | .kill h x => Sys2Proof.Machine.execKill h x s
  | .drop h => Sys2Proof.Machine.execDrop h s
  | .gen h n => Sys2Proof.Machine.execGen h n s
  | .cnt h => Sys2Proof.Machine.execCnt h s
  | .iter h => Sys2Proof.Machine.execIter h s
  | .exit h n => Sys2Proof.Machine.execExit h n s
  | .exiti h x => Sys2Proof.Machine.execExiti h x s
  | .call h n => Sys2Proof.Machine.execCall h n s
  | .calli h x => Sys2Proof.Machine.execCalli h x s
  | .ret h => Sys2Proof.Machine.execRet h s
  | .add h v => Sys2Proof.Machine.execAdd h v s
  | .sub h v => Sys2Proof.Machine.execSub h v s
  | .mul h v => Sys2Proof.Machine.execMul h v s
  | .mulh h x => Sys2Proof.Machine.execMulh h x s
  | .mad h v => Sys2Proof.Machine.execMad h v s
  | .div h x => Sys2Proof.Machine.execDiv h x s
  | .rem h x => Sys2Proof.Machine.execRem h x s
  | .neg h v => Sys2Proof.Machine.execNeg h v s
  | .abs h v => Sys2Proof.Machine.execAbs h v s
  | .min h x => Sys2Proof.Machine.execMin h x s
  | .max h x => Sys2Proof.Machine.execMax h x s
  | .and h v => Sys2Proof.Machine.execAnd h v s
  | .or h v => Sys2Proof.Machine.execOr h v s
  | .xor h v => Sys2Proof.Machine.execXor h v s
  | .andn h v => Sys2Proof.Machine.execAndn h v s
  | .not h v => Sys2Proof.Machine.execNot h v s
  | .shl h v => Sys2Proof.Machine.execShl h v s
  | .shr h x => Sys2Proof.Machine.execShr h x s
  | .rol h v => Sys2Proof.Machine.execRol h v s
  | .clz h v => Sys2Proof.Machine.execClz h v s
  | .ctz h v => Sys2Proof.Machine.execCtz h v s
  | .popc h v => Sys2Proof.Machine.execPopc h v s
  | .brev h v => Sys2Proof.Machine.execBrev h v s
  | .extr h x => Sys2Proof.Machine.execExtr h x s
  | .ins h x => Sys2Proof.Machine.execIns h x s
  | .cmp h x => Sys2Proof.Machine.execCmp h x s
  | .lea h x => Sys2Proof.Machine.execLea h x s
  | .sat h x => Sys2Proof.Machine.execSat h x s
  | .ext h x => Sys2Proof.Machine.execExt h x s
  | .pack h x => Sys2Proof.Machine.execPack h x s
  | .unpk h x => Sys2Proof.Machine.execUnpk h x s
  | .swz h sel => Sys2Proof.Machine.execSwz h sel s
  | .fadd h v => Sys2Proof.Machine.execFadd h v s
  | .fsub h v => Sys2Proof.Machine.execFsub h v s
  | .fmul h v => Sys2Proof.Machine.execFmul h v s
  | .fma h v => Sys2Proof.Machine.execFma h v s
  | .fmin h v => Sys2Proof.Machine.execFmin h v s
  | .fmax h v => Sys2Proof.Machine.execFmax h v s
  | .fabs h v => Sys2Proof.Machine.execFabs h v s
  | .fneg h v => Sys2Proof.Machine.execFneg h v s
  | .fcmp h x => Sys2Proof.Machine.execFcmp h x s
  | .fdiv h v => Sys2Proof.Machine.execFdiv h v s
  | .fsqrt h v => Sys2Proof.Machine.execFsqrt h v s
  | .frcp h v => Sys2Proof.Machine.execFrcp h v s
  | .frsq h v => Sys2Proof.Machine.execFrsq h v s
  | .fexp2 h v => Sys2Proof.Machine.execFexp2 h v s
  | .flog2 h v => Sys2Proof.Machine.execFlog2 h v s
  | .ftanh h v => Sys2Proof.Machine.execFtanh h v s
  | .fscl h v => Sys2Proof.Machine.execFscl h v s
  | .fcls h v => Sys2Proof.Machine.execFcls h v s
  | .frnd h x => Sys2Proof.Machine.execFrnd h x s
  | .fcvt h x => Sys2Proof.Machine.execFcvt h x s
  | .itof h x => Sys2Proof.Machine.execItof h x s
  | .ftoi h x => Sys2Proof.Machine.execFtoi h x s
  | .qpack h x => Sys2Proof.Machine.execQpack h x s
  | .qunpk h x => Sys2Proof.Machine.execQunpk h x s
  | .dot h => Sys2Proof.Machine.execDot h s
  | .key h => Sys2Proof.Machine.execKey h s
  | .noise h => Sys2Proof.Machine.execNoise h s
  | .red h op => Sys2Proof.Machine.execRed h op s
  | .scan h op => Sys2Proof.Machine.execScan h op s
  | .shuf h v => Sys2Proof.Machine.execShuf h v s
  | .bcast h => Sys2Proof.Machine.execBcast h s
  | .idx h => Sys2Proof.Machine.execIdx h s
  | .tap h x => Sys2Proof.Machine.execTap h x s
  | .binit h x => Sys2Proof.Machine.execBinit h x s
  | .barr h x => Sys2Proof.Machine.execBarr h x s
  | .bwait h x => Sys2Proof.Machine.execBwait h x s
  | .bsync h x => Sys2Proof.Machine.execBsync h x s
  | .bred h x => Sys2Proof.Machine.execBred h x s
  | .bwaitd h x => Sys2Proof.Machine.execBwaitd h x s
  | .enq h => Sys2Proof.Machine.execEnq h s
  | .yield h => Sys2Proof.Machine.execYield h s
  | .fopen h => Sys2Proof.Machine.execFopen h s
  | .fclose h => Sys2Proof.Machine.execFclose h s
  | .fwait h => Sys2Proof.Machine.execFwait h s
  | .waitc h => Sys2Proof.Machine.execWaitc h s
  | .ld h x => Sys2Proof.Machine.execLd h x s
  | .st h x => Sys2Proof.Machine.execSt h x s
  | .ldx h x => Sys2Proof.Machine.execLdx h x s
  | .stx h x => Sys2Proof.Machine.execStx h x s
  | .ldf h x => Sys2Proof.Machine.execLdf h x s
  | .ldfk h x => Sys2Proof.Machine.execLdfk h x s
  | .ste h x => Sys2Proof.Machine.execSte h x s
  | .stf h x => Sys2Proof.Machine.execStf h x s
  | .feset h x => Sys2Proof.Machine.execFeset h x s
  | .atom h x => Sys2Proof.Machine.execAtom h x s
  | .upd h x => Sys2Proof.Machine.execUpd h x s
  | .pref h x => Sys2Proof.Machine.execPref h x s
  | .flush h x => Sys2Proof.Machine.execFlush h x s
  | .waitm h x => Sys2Proof.Machine.execWaitm h x s
  | .tdef h x => Sys2Proof.Machine.execTdef h x s
  | .tfree h x => Sys2Proof.Machine.execTfree h x s
  | .tready h x => Sys2Proof.Machine.execTready h x s
  | .tstate h x => Sys2Proof.Machine.execTstate h x s
  | .tld h x => Sys2Proof.Machine.execTld h x s
  | .tst h x => Sys2Proof.Machine.execTst h x s
  | .bankmode h x => Sys2Proof.Machine.execBankmode h x s
  | .send h x => Sys2Proof.Machine.execSend h x s
  | .copy h dec x => Sys2Proof.Machine.execCopy h dec x s
  | .copy2In h dec x => Sys2Proof.Machine.execCopy2In h dec x s
  | .copy2Out h dec x => Sys2Proof.Machine.execCopy2Out h dec x s
  | .gath h x => Sys2Proof.Machine.execGath h x s
  | .scat h x => Sys2Proof.Machine.execScat h x s
  | .cfill h x => Sys2Proof.Machine.execCfill h x s
  | .put h x => Sys2Proof.Machine.execPut h x s
  | .get h x => Sys2Proof.Machine.execGet h x s
  | .ldw h x => Sys2Proof.Machine.execLdw h x s
  | .swapw h x => Sys2Proof.Machine.execSwapw h x s
  | .mma h x => Sys2Proof.Machine.execMma h x s
  | .accrd h x => Sys2Proof.Machine.execAccrd h x s
  | .accz h x => Sys2Proof.Machine.execAccz h x s
  | .mmaw h x => Sys2Proof.Machine.execMmaw h x s
  | .roteOpen h x => Sys2Proof.Machine.execRoteOpen h x s
  | .roteAppend h x => Sys2Proof.Machine.execRoteAppend h x s
  | .rotePropose h x => Sys2Proof.Machine.execRotePropose h x s
  | .roteStat h x => Sys2Proof.Machine.execRoteStat h x s
  | .roteSave h x => Sys2Proof.Machine.execRoteSave h x s
  | .roteLoad h x => Sys2Proof.Machine.execRoteLoad h x s
  | .roteClose h x => Sys2Proof.Machine.execRoteClose h x s
  | .yardDefine h x => Sys2Proof.Machine.execYardDefine h x s
  | .yardApply h x => Sys2Proof.Machine.execYardApply h x s
  | .yardReset h x => Sys2Proof.Machine.execYardReset h x s
  | .yardStat h x => Sys2Proof.Machine.execYardStat h x s
  | .yardClose h x => Sys2Proof.Machine.execYardClose h x s
  | .tree h x => Sys2Proof.Machine.execTree h x s
  | .accept h x => Sys2Proof.Machine.execAccept h x s
  | .trap h code => Sys2Proof.Machine.execTrap h code s
  | .rdsr h r => Sys2Proof.Machine.execRdsr h r s
  | .wrsr h r => Sys2Proof.Machine.execWrsr h r s
  | .patch h => Sys2Proof.Machine.execPatch h s
  | .switch h => Sys2Proof.Machine.execSwitch h s
  | .freeze h => Sys2Proof.Machine.execFreeze h s
  | .thaw h => Sys2Proof.Machine.execThaw h s
  | .tlbi h x => Sys2Proof.Machine.execTlbi h x s
  | .pmap h => Sys2Proof.Machine.execPmap h s
  | .abort h => Sys2Proof.Machine.execAbort h s

end Sys2Proof.Machine
end

