-- ==== Sys2Proof/Machine/Grants.lean ====
section
/-! DEFINITION. A station's step, and the round-robin grants of what the strands of a core share: its memory port, its way into
each engine inbox, and its transfer unit (R200, R213). -/

namespace Sys2Proof.Machine

/-! A station's step -/

/-- The elements that a station has fired for. -/
def State.firedAt (s : State) (st : SRef) (i : Nat) : List Anti :=
  match s.node? st i with
  | some nd => nd.fired
  | none => []

/-- What follows when station `i` has stepped from `s` to `t`: its firing completes the thaw of its slice, where an element
waits for one (R446). -/
def State.afterFire (s t : State) (st : SRef) (i : Nat) : State :=
  if (t.strands.any fun e => e.2.waits.any fun w => decide (w.kind = .thaw st.slice)) && s.firedAt st i != t.firedAt st i then
    t.thawDone st.slice
  else t

/-- A station's instruction executes: the word that the station holds is decoded. -/
def State.fireAt (s : State) (st : SRef) (i : Nat) : Host.Outcome State Fault Refusal :=
  match s.node? st i with
  | none => .next s
  | some nd => match rawDecode nd.word with
    | some (.instr k) => (match exec k { s with cur := some ⟨st, i⟩ } with
      | .next t => .next (s.afterFire t st i)
      | o => o)
    | _ => .next s

/-- An action of the device, but for the settling of a strand's accesses. -/
def State.run (s : State) : What → Host.Outcome State Fault Refusal
  | .event i => exec i { s with cur := none }
  | .fire st i => s.fireAt st i
  | .fireCopy st i c => (s.modNode st i fun n => n.turned c).fireAt st i
  | .settle _ => .next s
  | .claim _ _ _ _ => .next s

/-! Grants -/

/-- The shared resources of a core, as numbers: the memory port, an inbox, the transfer unit. -/
def portKey (core : Nat) : Nat := core
def inboxKey (core inbox : Nat) : Nat := 256 + 128 * inbox + core
def transferKey (core : Nat) : Nat := 128 + core

/-- An issued access of a strand, as a request for its core's port. -/
def State.portRequest (s : State) (st : SRef) (n : Nat) : Option (Nat × SRef) :=
  match s.strand? st with
  | some t => if n < t.pend.length then some (portKey t.core, st) else none
  | none => none

/-- A step of an operation of a transfer unit, as a request of the strand that issued it. -/
def State.unitRequest (s : State) (n : Nat) : Option (Nat × SRef) :=
  match s.op? n with
  | some o =>
    if o.inbox < 128 then some (transferKey o.inbox, ⟨sliceOf (o.words.getD 0 0), o.rank⟩) else none
  | none => none

/-- The resource and the strand of an event that needs a grant. -/
def State.request (s : State) : Instr → Option (Nat × SRef)
  | .loadReply st n => s.portRequest st n
  | .storePerform st n => s.portRequest st n
  | .updateAccept st n => s.portRequest st n
  | .messageIssue st n => match s.strand? st with
    | some t => (t.msgs[n]?).map fun m => (inboxKey t.core (inboxOf m.words), st)
    | none => none
  | .copyOp n _ => s.unitRequest n
  | .copy2Op n _ => s.unitRequest n
  | .gathOp n _ => s.unitRequest n
  | .scatOp n _ => s.unitRequest n
  | .cfillOp n _ => s.unitRequest n
  | .putOp (.own n) _ => s.unitRequest n
  | .getOp n _ => s.unitRequest n
  | _ => none

/-- Instructions that reach memory through their core's port as they fire: all but plain accesses to virtual memory, `UPD`,
`FLUSH`, and those of the tile entries and the bank modes. -/
def Node.atPort (nd : Node) : Bool :=
  [0xA4, 0xA5, 0xA6, 0xA7, 0xA8, 0xA9, 0xAB, 0xAD, 0xB2, 0xB3].contains nd.op || (decide (0xA0 ≤ nd.op ∧ nd.op ≤ 0xA3) && nd.local')

/-- A station's step as a request for its core's port. -/
def State.fireRequest (s : State) (st : SRef) (i : Nat) : Option (Nat × SRef) :=
  match s.strand? st, s.node? st i with
  | some t, some nd => if nd.atPort then some (portKey t.core, st) else none
  | _, _ => none

/-- The resource and the strand of an action that needs a grant. -/
def State.ask (s : State) : What → Option (Nat × SRef)
  | .event i => s.request i
  | .fire st i => s.fireRequest st i
  | .fireCopy st i c => (s.modNode st i fun n => n.turned c).fireRequest st i
  | .settle _ => none
  | .claim _ _ _ _ => none

/-- What the stations of an instance have fired for and hold beside their buffers. -/
def Strand.work (t : Strand) : List (List Anti × Ext) :=
  match t.inst with
  | some x => x.nodes.map fun n => (n.fired, n.ext)
  | none => []

/-- What a grant changes: the strand's accesses, its messages, what its stations have fired for, or the operations. -/
def State.granted (s t : State) (st : SRef) : Bool :=
  decide (s.ops ≠ t.ops) || match s.strand? st, t.strand? st with
    | some a, some b => decide (a.pend ≠ b.pend ∨ a.msgs ≠ b.msgs ∨ a.work ≠ b.work)
    | _, _ => true

/-- Whether an action would be granted something now. -/
def State.grants (s : State) (st : SRef) (w : What) : Bool :=
  match s.run w with
  | .next t => s.granted t st
  | _ => false

/-- The actions of a package that may need a grant. -/
def State.requests (s : State) : List What :=
  (s.strands.flatMap fun e => (e.2.pend.mapIdx fun n a => What.event (pendEvent e.1 n a))
      ++ (e.2.msgs.mapIdx fun n _ => What.event (.messageIssue e.1 n))
      ++ match e.2.inst with
        | some x => (x.nodes.mapIdx fun i nd => What.fire e.1 i :: nd.alts.map fun a => What.fireCopy e.1 i a.1).flatten
        | none => [])
    ++ (s.ops.mapIdx fun n o => (s.opEvent n o).map What.event).flatten

/-- Whether strand `u` was granted resource `k` less recently than strand `st`, or never; false when `st` never was. -/
def State.lessRecent (s : State) (k : Nat) (st u : SRef) : Bool :=
  s.served.contains (k, st) && decide (u ≠ st) && !(s.served.dropWhile fun e => decide (e ≠ (k, st))).contains (k, u)

/-- Whether a strand that was granted resource `k` less recently has a request waiting for it (R200). -/
def State.rivals (s : State) (k : Nat) (st : SRef) : Bool :=
  s.requests.any fun w => match s.ask w with
    | some (j, u) => j == k && s.lessRecent k st u && s.grants u w
    | none => false

/-- A grant noted: the strand was granted the resource last. -/
def State.serve (s : State) (k : Nat) (st : SRef) : State :=
  { s with served := (s.served.filter fun e => decide (e ≠ (k, st))) ++ [(k, st)] }

/-- An action happens, unless it needs a grant and its strand must let another be granted first (R200). -/
def State.happen (s : State) (w : What) : Host.Outcome State Fault Refusal :=
  match s.ask w with
  | none => s.run w
  | some (k, st) =>
    if s.served.contains (k, st) && s.rivals k st then .next s
    else match s.run w with
      | .next t => .next (if s.granted t st then t.serve k st else t)
      | o => o

end Sys2Proof.Machine
end

