-- ==== Sys2Proof/Machine/Settle.lean ====
section
/-! DEFINITION. What a station or a strand does by itself, and the accesses of a strand that wait for one another (R485):
an access whose output brings one that stands before it takes its place in T only after that one. The device then delays or
repeats it internally: here the strand's own work is run ahead within one step, with the output sent before the access
performs, until every such access has performed at its place with the data that it sent (log 5). -/

namespace Sys2Proof.Machine

/-! The strand's own work -/

/-- The state that an action leaves. -/
def State.act (s : State) (w : What) : State :=
  match s.run w with
  | .next t => t
  | _ => s

/-- What a strand may do by itself. -/
def State.insideActs (s : State) (st : SRef) (t : Strand) (x : Inst) : List What :=
  (x.nodes.mapIdx fun i nd => if nd.inside && (nd.memory || x.canMove i || x.canAdopt i) then nodeEvents st i nd else []).flatten
    ++ (t.pend.mapIdx fun n a => What.event (pendEvent st n a))
    ++ (s.walks.mapIdx fun n w => match w.who with
      | .station u _ _ _ => if u = st ∧ !w.posted then [What.event (.translationWalk n)] else []
      | _ => []).flatten

/-- The first action of a strand's own, `wait` cycles on, that changes something. -/
def State.insideAfter (s : State) (st : SRef) (wait : Nat) : Option State :=
  match s.strand? st with
  | none => none
  | some t => match t.inst with
    | none => none
    | some x => (s.insideActs st t x).findSome? fun w =>
      let u := { s with cycles := s.cycles + wait }.act w
      if u.strand? st = s.strand? st ∧ u.walks = s.walks then none else some { u with cycles := s.cycles }

/-- The first action of a strand's own that changes something: in this cycle, else in the next. -/
def State.insideStep (s : State) (st : SRef) : Option State := (s.insideAfter st 0) <|> (s.insideAfter st 1)

/-! Outputs sent ahead -/

/-- L of a held element. -/
def Strand.lastOf (t : Strand) (x : Inst) (h : Held) : Bool :=
  if h.issued then t.pend.any fun a => a.node == h.node && a.tag == h.tag && a.idx == h.idx && a.l
  else match x.nodes[h.node]? with
    | some nd => (nd.data.any fun sl => (tokens (nd.buf sl)).any fun e => e.1.tag == h.tag && e.1.idx == h.idx && e.1.l)
    | none => false

/-- Instructions whose output carries no data: `ST`, `STX`, `STE`, `STF`, `FESET`, `UPD`, `TDEF`, `TST`. -/
def dataless (op : Nat) : Bool := [0xA1, 0xA3, 0xA6, 0xA7, 0xA8, 0xAA, 0xAE, 0xB3].contains op

/-- The event in which a held access performs, for a strand that has no other issued access. -/
def Held.what (h : Held) (st : SRef) (nd : Node) (k : AccKind) : What :=
  if h.issued then .event (match k with
    | .load => .loadReply st 0 | .ldx => .loadReply st 0
    | .store => .storePerform st 0 | .stx => .storePerform st 0
    | .upd => .updateAccept st 0)
  else if nd.alts.isEmpty then .fire st h.node else .fireCopy st h.node (h.idx % nd.copies)

/-- The data that a held access would send if it performed now; none when it cannot. -/
def State.peek (s : State) (st : SRef) (h : Held) : Option Word :=
  match s.strand? st, s.node? st h.node with
  | some t, some nd =>
    if dataless nd.op then some 0
    else
      let mine := t.pend.filter fun a => a.node == h.node && a.tag == h.tag && a.idx == h.idx
      let u := (s.modStrand st fun t => { t with
        pend := mine
        inst := t.inst.map fun x =>
          { x with told := [⟨h.node, h.tag, h.idx, 0⟩], wrong := none, claims := [⟨h.node, h.tag, h.idx, true, []⟩] } }).act
        (h.what st nd ((mine.head?.map fun a => a.kind).getD .load))
      match u.inst? st with
      | some y => if y.hasTold h.node h.tag h.idx then none else some ((y.wrong.map fun w => w.data).getD 0)
      | none => none
  | _, _ => none

/-- The output of a held access sent ahead: with the data guessed for it, else with what memory holds. -/
def State.tell (s : State) (st : SRef) (guess : List Told) (h : Held) : Option State :=
  match s.strand? st with
  | none => none
  | some t => match t.inst with
    | none => none
    | some x =>
      let w := match guess.find? fun g => g.node == h.node && g.tag == h.tag && g.idx == h.idx with
        | some g => some g.data
        | none => s.peek st h
      w.map fun w => (s.emit st h.node ⟨w, h.tag, h.idx, t.lastOf x h, false⟩).modInst st fun y =>
        { y with told := y.told ++ [⟨h.node, h.tag, h.idx, w⟩] }

/-- The held accesses whose output has not left and may leave next: the first of their instruction and tag. -/
def State.untold (s : State) (st : SRef) (t : Strand) (x : Inst) : List Held :=
  firstOf [] ((s.heldBack st t x).filter fun h => !x.hasTold h.node h.tag h.idx)
where
  firstOf : List (Nat × Nat) → List Held → List Held
    | _, [] => []
    | seen, h :: r =>
      if seen.contains (h.node, h.tag) then firstOf seen r else h :: firstOf ((h.node, h.tag) :: seen) r

/-- The accesses among `hs` that hold back one of `l`, or one that does, in `n` rounds. -/
def Strand.behind (t : Strand) (x : Inst) (live : List Nat) (hs : List Held) : Nat → List Held → List Held
  | 0, l => l
  | n + 1, l =>
    let new := hs.filter fun k => !l.contains k && l.any fun h => t.holdsBack x live k h
    if new.isEmpty then l else t.behind x live hs n (l ++ new)

/-- Every access among `hs` that holds an access back. -/
def Strand.holders (t : Strand) (x : Inst) (live : List Nat) (hs : List Held) (h : Held) : List Held :=
  t.behind x live hs hs.length (hs.filter fun k => t.holdsBack x live k h)

/-- Those of `l` that wait for nothing among `hs` but what waits for them, in nominal order. -/
def Strand.knots (t : Strand) (x : Inst) (live : List Nat) (hs l : List Held) : List Held :=
  (l.filter fun h => (t.holders x live hs h).all fun k => (t.holders x live hs k).contains h).mergeSort fun a b =>
    !before (x.place live b.node b.tag b.idx) (x.place live a.node a.tag a.idx)

/-- The access whose output leaves next: of those that hold back one whose output has left. -/
def State.nextTold (s : State) (st : SRef) : Option Held :=
  match s.strand? st with
  | none => none
  | some t => match t.inst with
    | none => none
    | some x =>
      let live := s.live st t x
      let hs := s.untold st t x
      let told : List Held := x.told.map fun a =>
        ⟨a.node, a.tag, a.idx, t.pend.any fun p => p.node == a.node && p.tag == a.tag && p.idx == a.idx⟩
      (t.knots x live hs ((told.flatMap fun h => t.holders x live hs h).eraseDups)).head?

/-! Running ahead -/

/-- How a strand's own work run ahead comes out: every access whose output had left has performed, or the slice has taken a
trap; one of them should have sent other data; or nothing more goes on. -/
inductive Ahead where
  | done (s : State)
  | wrong (t : Told)
  | stuck (s : State)

/-- A strand's own work run ahead, at most `fuel` steps of it. With `lax`, data that was wrong stays as it was sent. -/
def State.runAhead (st : SRef) (guess : List Told) (lax : Bool) : Nat → State → Ahead
  | 0, s => .stuck s
  | f + 1, s =>
    match s.inst? st, s.slice? st.slice with
    | some x, some sl =>
      match (if lax then none else x.wrong) with
      | some w => .wrong w
      | none =>
        if x.told.isEmpty || decide (sl.status ≠ .running) then .done s
        else match s.insideStep st with
          | some u => State.runAhead st guess lax f u
          | none => match (s.nextTold st).bind (s.tell st guess) with
            | some u => State.runAhead st guess lax f u
            | none => .stuck s
    | _, _ => .done s

/-- Steps that are run ahead at most. -/
def aheadFuel : Nat := 65536

/-- The accesses that wait for held access `h` and for which it waits take their places: its output leaves first. Data that was
wrong is sent anew, at most `n` times; where no data is right, no total order exists, and what memory held stands (log 5). -/
def State.solve (s : State) (st : SRef) (h : Held) : Nat → List Told → Ahead
  | 0, _ => match s.tell st [] h with
    | some u => State.runAhead st [] true aheadFuel u
    | none => .stuck s
  | n + 1, guess => match s.tell st guess h with
    | none => .stuck s
    | some u => match State.runAhead st guess false aheadFuel u with
      | .wrong w => s.solve st h n (w :: guess.filter fun g => !(g.node == w.node && g.tag == w.tag && g.idx == w.idx))
      | o => o

/-- Whether the accesses of a strand wait for one another and nothing else in it goes on. -/
def State.knotted (s : State) (st : SRef) : List Held :=
  match s.slice? st.slice, s.strand? st with
  | some sl, some t => match t.inst with
    | none => []
    | some x =>
      let x := t.settleFrames x
      if decide (sl.status ≠ .running) || !x.told.isEmpty || (s.heldBack st t x).isEmpty then []
      else
        let live := s.live st t x
        if s.progress st t x live then []
        else
          let hs := (s.untold st t x).filter fun h => !s.goesLast st t x live h.node h.tag h.idx
          t.knots x live hs hs
  | _, _ => []

/-- Whether something from outside may still bring an access before a held one. -/
def State.awaits (s : State) (st : SRef) (h : Held) : Bool :=
  match s.strand? st with
  | none => false
  | some t => match t.inst with
    | none => false
    | some x => s.waitsOut st t x (s.live st t x) h.node h.tag h.idx

/-- An access goes on the word that nothing nominally earlier will come. -/
def State.claimAt (s : State) (st : SRef) (i tag idx : Nat) : State :=
  let p := s.placeOf st i tag idx
  s.modInst st fun x => { x with claims := x.claims ++ [⟨i, tag, idx, true, p⟩] }

/-- The walks that a run ahead asked for are asked for. -/
def State.askWalks (s u : State) (st : SRef) : State :=
  (u.walks.filter fun w => match w.who with | .station v _ _ _ => decide (v = st) | _ => false).foldl
    (fun s w => s.requestWalk { w with posted := false }) s

/-- The accesses `l` tried in turn: one that can be settled is; else one goes whose output must first leave its strand, where
nothing from outside is awaited (log 5). -/
def State.settleFirst (s : State) (st : SRef) : List Held → State
  | [] => s
  | h :: r => match s.solve st h 256 [] with
    | .done u => u.modInst st fun x => { x with wrong := none }
    | .wrong _ => s.settleFirst st r
    | .stuck u =>
      if s.awaits st h || u.awaits st h then (s.askWalks u st).settleFirst st r else s.claimAt st h.node h.tag h.idx

/-- The accesses of a strand that wait for one another take their places in T in one step (R485, log 5). -/
def State.settleAccesses (s : State) (st : SRef) : State := (s.settleFrames st).settleFirst st (s.knotted st)

/-- A held access that no access stands before may go on the word that none will (R485, log 5): the agenda says so. -/
def State.claimAccess (s : State) (st : SRef) (i tag idx : Nat) : State :=
  match s.strand? st with
  | none => s
  | some t => match t.inst with
    | none => s
    | some x =>
      let x := t.settleFrames x
      let live := s.live st t x
      let hs := s.heldBack st t x ++ t.reqs.map fun q => ⟨q.node, q.tag, q.idx, false⟩
      if ((s.heldBack st t x).any fun h => decide (h.node = i ∧ h.tag = tag ∧ h.idx = idx))
          && !hs.any fun h => !decide (h.node = i ∧ h.tag = tag ∧ h.idx = idx) && x.comesBefore live h.node h.tag h.idx i tag idx
      then s.claimAt st i tag idx else s

end Sys2Proof.Machine
end

