-- ==== Sys2Proof/Machine/Step.lean ====
section
/-! DEFINITION. One step of the package: the next entry of the agenda, or what the device does by itself (log 1). -/

namespace Sys2Proof.Machine

/-- An event happens, a station's instruction executes, or accesses take their places. -/
def State.perform (s : State) : What → Host.Outcome State Fault Refusal
  | .settle st => .next (s.settleAccesses st)
  | .claim st i tag idx => .next (s.claimAccess st i tag idx)
  | w => s.happen w

/-- Fabric cycles pass, and what units have put off is taken up again (R189). -/
def State.goOn (s : State) (dt : Nat) : State := (s.elapse dt).takeUpOwed

/-- One step. The default choice takes one fabric cycle. -/
def step (s : State) : Host.Outcome State Fault Refusal :=
  match s.agenda with
  | a :: r => ({ s with agenda := r } : State).goOn a.dt |>.perform a.what
  | [] => (s.goOn 1).perform s.choice

/-! The host's question: an instruction as the first after reset (log 4) -/

/-- The slots that an instruction needs fed. -/
def slotsNeeded : Item → List Slot
  | .nop _ => []
  | .instr i => match i.info, i.hdr with
    | some p, some h =>
      (if h.im then p.req.filter fun sl => decide (sl ≠ .b) else p.req)
        ++ (match i with | .atom _ x => if x.aop = .cas then [.c] else [] | _ => [])
        ++ (if h.pv then [.p] else [])
    | _, _ => []

/-- The station of a word with one element in each slot that it needs. -/
def readyNode (w : Word) : Node :=
  match rawDecode w with
  | none => nodeOf w []
  | some it =>
    let fed := slotsNeeded it
    let pred : Word := if w.bit 41 then 1 else 0
    fed.foldl (fun n sl => n.setBuf sl [.tok ⟨if sl = .p then pred else 0, 0, 0, true, false⟩ 0]) (nodeOf w fed)

/-- A descriptor of one strand on one core, with a page of stations, a bank, the matrix unit and a budget. -/
def oneStrand : List Word := [0, 0, 0, 0xFFFFFFFFFFFF, 0x11110001 + 2 ^ 40, 0, 0, 0]

/-- A supervisor's slice 1 on core 0 whose strand runs the block of a `LAND` and the word. -/
def oneWord (w : Word) : Slice :=
  let land : Word := 0
  let x := Slice.begin 1 0 0 true 0 0 oneStrand [0]
  let b : Block := ⟨0, 64, [land, w], [], [], [], 0, 16, true, [], []⟩
  let i : Inst := { Block.start b 0 ⟨[], [], [], 0, [], 0⟩ with nodes := [nodeOf land [], readyNode w] }
  { x with strands := x.strands.map fun t => { t with inst := some i } }

/-- The instruction of a word stands at station 1 of slice 1's strand with its operands, and the next step executes it. -/
def State.withFetchWord (s : State) (nbits w : Nat) : State :=
  { s with
    slices := oneWord (BitVec.ofNat 64 (w % 2 ^ nbits)) :: s.slices.filter fun x => x.id != 1
    agenda := ⟨0, .fire ⟨1, 0⟩ 1⟩ :: s.agenda }

end Sys2Proof.Machine
end

