-- ==== Sys2Proof/Safety.lean ====
section
/-! DEFINITION. What claims call a safe state and a safe run, and the terms in which they say that a station acts on the
operands that stand at it. -/

namespace Sys2Proof.Machine

/-! Safe states and runs -/

/-- Memory and local space stand in the one canonical form. -/
def State.memOk (s : State) : Prop := Memory.wf s.mem = true ∧ Memory.wf s.loc = true

/-- A step that goes on: it is no fault and no refusal. -/
def goesOn (r : Host.Outcome State Fault Refusal) : Prop := ∃ t, r = .next t

/-- A run that never stops. -/
def runsOn (s : State) : Prop := ∀ n, goesOn (Sys2Proof.core.run n s)

/-- The step that comes next is no instruction row put among the events: instruction rows run by `fire` only (log 1). -/
def State.agendaOk (s : State) : Prop :=
  ∀ a ∈ s.agenda, ∀ i, a.what = .event i → i.isWord = false

/-! A station that acts -/

/-- Station `i` of strand `st` acts: `cur` names it, its slice is not halted (R413), and its strand runs an instance. -/
def State.acts (s : State) (st : SRef) (i : Nat) : Prop :=
  s.cur = some ⟨st, i⟩ ∧ (∃ x, s.slice? st.slice = some x ∧ x.live = true) ∧ (s.inst? st).isSome = true

/-- What the station does next, of the elements whose operands are there and whose output has room (R18, R20–R23). -/
def State.pick (s : State) (st : SRef) (i : Nat) (h : Hdr) (data : List Slot) (repl imm : Word) : Option Pick :=
  match (s.drain st i).inst? st with
  | some x => (x.readies i h data repl imm true).head?
  | none => none

/-- The station acts and fires normally on the operands `r`: all are there, the predicate lets them through, none is
empty under a policy that stops the firing, and the output has room (R18, R20–R23). -/
def State.goes (s : State) (st : SRef) (i : Nat) (h : Hdr) (data : List Slot) (repl imm : Word) (r : Ready) : Prop :=
  s.acts st i ∧ s.pick st i h data repl imm = some (.settle .go r)

/-- The first complete set of operands of a station that holds no output (R20, R21). -/
def State.firstSet (s : State) (st : SRef) (i : Nat) (h : Hdr) (data : List Slot) : Option (List (Slot × Tok)) :=
  match (s.drain st i).inst? st, (s.drain st i).node? st i with
  | some x, some nd =>
    if nd.free then (nd.sets (x.waited i (usedSlots h data)) (usedSlots h data)).head? else none
  | _, _ => none

/-- The operands of a set. -/
def readyOf (l : List (Slot × Tok)) (t : Tok) : Ready :=
  ⟨t.tag, t.idx, (l.filter fun e => decide (e.1 ≠ Slot.p)).any fun e => e.2.l,
    ⟨operandOf 0 l .a 0, operandOf 0 l .b 0, operandOf 0 l .c 0⟩⟩

/-- The station acts and takes the set `(sl, t) :: l` under its own rule for predicates and empty operands. -/
def State.takes (s : State) (st : SRef) (i : Nat) (h : Hdr) (data : List Slot) (sl : Slot) (t : Tok)
    (l : List (Slot × Tok)) : Prop :=
  s.acts st i ∧ s.firstSet st i h data = some ((sl, t) :: l)

/-- The station acts and takes the element that carries L of the operand stream that an instruction gathers (R378), with
which its words are `ws`: none was skipped or forwarded, and their number is one that it takes. The operands taken and the
firing noted leave `v`. -/
def State.gathers (s : State) (st : SRef) (i : Nat) (h : Hdr) (w : Want) (tag : Nat) (ws : List Word) (v : State) : Prop :=
  s.acts st i ∧ ∃ (x : Inst) (nd : Node) (sl : Slot) (t : Tok) (l : List (Slot × Tok)) (g : GatherSt),
    let u := s.drain st i
    let fed := w.fed nd
    let all := (sl, t) :: l
    let own := all.filter fun e => decide (e.1 = lastSlot fed) || decide (e.1 = .p)
    let rest := all.filter fun e => decide (e.1 ≠ lastSlot fed) && decide (e.1 ≠ .p)
    u.inst? st = some x ∧ u.node? st i = some nd ∧ nd.free = true ∧ x.strayPiece i nd fed = none ∧
      x.nextPiece i nd fed h = some all ∧ t.l = true ∧ t.tag = tag ∧
      ((((nd.ext.gathers.find? fun g => g.tag == tag).getD ⟨tag, [], [], false, false⟩).addAll
        (rest.map fun e => pieceAt h own e.2)).bind fun g => g.add false (pieceAt h own t)) = some g ∧
      g.skip = false ∧ g.forward = false ∧ g.early ++ g.elems = ws ∧
      (w.strict = true → t.idx + 1 = g.elems.length ∧ w.need ≤ ws.length ∧ ws.length ≤ w.most fed) ∧
      v = (u.modNode st i fun n => { n.take all with ext := gatherSet n.ext.gathers tag none }).modNode st i fun n =>
        { n with fired := ⟨tag, 0⟩ :: n.fired, lasts := tag :: n.lasts }

/-- The state after a firing with result `w` and flags `fl`: the operands are consumed, the flags raised, and the result
emitted with the operands' tag, element index and L (R116, R129). -/
def State.fired (s : State) (st : SRef) (i : Nat) (h : Hdr) (data : List Slot) (r : Ready) (w : Word) (fl : Nat) : State :=
  (((s.drain st i).consume st i h data r).raise st fl).emitData st i r w

/-- Everything but the slices and the holds is as in `s`. -/
def State.sameBut (s t : State) : Prop := ∃ sl hd, t = { s with slices := sl, holds := hd }

end Sys2Proof.Machine
end

