-- ==== Sys2Proof/Certificates/Slice0/Obligations.lean ====
section
/-! DEFINITION. The statements for the provers. A statement that an instruction completes says so for every state and
operands with which its station acts and may go: `State.goes` and `State.takes` say that the operands are there, and
`Obligations.CompleteSetFires` and `Obligations.CompleteSetTaken` say when they are. -/

open Sys2Proof Sys2Proof.Machine

/-! Encoding and decoding -/

/-- R52 to R63: the word of every well-formed instruction decodes to it, every field at every value. -/
def Obligations.EncodeRoundTrip : Prop :=
  ∀ i : Instr, i.isWord = true → i.wf = true → ∃ w, encode i = [w] ∧ decode w = some i

/-- R52 to R63, R64, R171: words that the manual writes out decode to the instructions that they stand for. -/
def Obligations.DecodeManualWords : Prop :=
  decode 0x3900890A001FFFD6 = some (.cmp ⟨0, .d2, .absorb, true, false, false, some ⟨5, .a⟩, none⟩ ⟨0x1FFFD, .lo⟩) ∧
  decode 0x521D091880080000 = some (.fmul ⟨7, .f2, .absorb, true, false, false, some ⟨12, .b⟩, none⟩ 0x80000) ∧
  decode 0xA01D011600001000 = some (.ld ⟨7, .f2, .absorb, false, false, false, some ⟨11, .a⟩, none⟩
    ⟨0, .streaming, false, 0⟩)

/-- R58, R72: an unassigned opcode is refused by its name, and a word that the layouts do not give by its own; and an accepted
word is the very word that its instruction encodes, so that a word with a reserved immediate bit or code set, or any bit that
no field holds, is refused. -/
def Obligations.ReservedRefused : Prop :=
  (∀ w : Word, opAssigned (wordOp w).toNat = false → decodeWord w = .error .opcode) ∧
  (∀ w : Word, opAssigned (wordOp w).toNat = true → rawDecode w = none → decodeWord w = .error .reserved) ∧
  (∀ (w : Word) (i : Instr), decode w = some i → encode i = [w])

/-! Steps and reset -/

/-- The next entry of the agenda is what a step does, after the time it names: the word that a station holds, in front or at
one of its copies, is decoded and executed with `cur` at that station, a firing completing a thaw that waits for it
(R446); and an event row is executed with no station. Where what the strands of a core share must be granted (R200), the
action waits for a strand that was granted it less recently, and its grant is noted: the order of the grants, and which actions
need one, are the model's choice (log 75), as are the two further kinds of entry, which place accesses in T (log 5). With no entry, one cycle passes and the step is the model's own choice (log 1). -/
def Obligations.StepRunsDecoded : Prop :=
  (∀ (s : State) (dt : Nat) (st : SRef) (i : Nat) (r : List Act) (copy : Option Nat) (nd : Node) (k : Instr),
    let u := ({ s with agenda := r } : State).goOn dt
    let v := match copy with
      | none => u
      | some c => u.modNode st i fun n => n.turned c
    let w : What := match copy with | none => .fire st i | some c => .fireCopy st i c
    s.agenda = ⟨dt, w⟩ :: r → v.node? st i = some nd → rawDecode nd.word = some (.instr k) →
    (∀ t, exec k { v with cur := some ⟨st, i⟩ } = .next t → u.run w = .next (v.afterFire t st i)) ∧
    ((∀ t, exec k { v with cur := some ⟨st, i⟩ } ≠ .next t) → u.run w = exec k { v with cur := some ⟨st, i⟩ }) ∧
    (nd.atPort = false → step s = u.run w)) ∧
  (∀ (s : State) (dt : Nat) (r : List Act) (k : Instr), s.agenda = ⟨dt, .event k⟩ :: r →
    let u := ({ s with agenda := r } : State).goOn dt
    u.run (.event k) = exec k { u with cur := none } ∧ (u.request k = none → step s = exec k { u with cur := none })) ∧
  (∀ (s : State) (dt : Nat) (r : List Act) (w : What) (n : Nat) (st : SRef), s.agenda = ⟨dt, w⟩ :: r →
    let u := ({ s with agenda := r } : State).goOn dt
    u.ask w = some (n, st) →
    ((u.served.contains (n, st) = false ∨ u.rivals n st = false) →
      ∀ t, u.run w = .next t → step s = .next (if u.granted t st then t.serve n st else t)) ∧
    (u.served.contains (n, st) = true → u.rivals n st = true → step s = .next u)) ∧
  (∀ (s : State) (dt : Nat) (r : List Act) (st : SRef), s.agenda = ⟨dt, .settle st⟩ :: r →
    step s = .next ((({ s with agenda := r } : State).goOn dt).settleAccesses st)) ∧
  (∀ (s : State) (dt : Nat) (r : List Act) (st : SRef) (i tag idx : Nat), s.agenda = ⟨dt, .claim st i tag idx⟩ :: r →
    step s = .next ((({ s with agenda := r } : State).goOn dt).claimAccess st i tag idx)) ∧
  (∀ s : State, s.agenda = [] → step s = (s.goOn 1).perform s.choice) ∧
  (∀ (s t : State) (st : SRef) (i : Nat), (∀ e ∈ t.strands, ∀ w ∈ e.2.waits, w.kind ≠ .thaw st.slice) →
    s.afterFire t st i = t)

/-- R203, R236, R269, R433, R475: at reset the package registers hold what R433 gives, every barrier is FREE with its fields 0,
finish scope 0 is OPEN and its own parent and every other one is FREE, banks 0 and 1 of a core are CACHE and every other one
is in SCRATCH mode (R198, R267), with its bytes 0 and its words empty, no core is in service, and no slice runs. -/
def Obligations.ResetState : Prop :=
  (∀ r : Nat, 33 ≤ r → r ≤ 39 → State.reset.packageReg r = 0) ∧ State.reset.packageReg 32 = 0x00101FF0 ∧
  (∀ b : BarKey, State.reset.bar b = Barrier.reset) ∧
  State.reset.fscope 0 = ⟨.opened, 0, 0, 0, 0⟩ ∧
  (∀ n : Nat, n ≠ 0 → State.reset.fscope n = FScope.reset) ∧
  (∀ core b : Nat, State.reset.bank core b = if b < 2 then Bank.cache else Bank.reset) ∧
  (∀ k : Nat, rdByte State.reset.loc k = 0) ∧
  (∀ k : Nat, Table.get false State.reset.full k = false) ∧
  (∀ k : Nat, Table.get false State.reset.inService k = false) ∧
  State.reset.slices = []

/-- Memory and local space stand in canonical form at reset: the form is the model's own (log 2). -/
def Obligations.MemoryCanonicalAtReset : Prop := State.reset.memOk

/-- From every state whose memory and local space are canonical, a step leaves them canonical, so that equal memories stay
equal data: the form is the model's own (log 2). -/
def Obligations.MemoryStaysCanonical : Prop :=
  ∀ s t : State, s.memOk → step s = .next t → t.memOk

/-- No step stops the machine: every instruction row and every event row has its effect, whatever the state, where no
instruction row stands among the events of the agenda, and none then stands there after the step. That the agenda names what
happens next and that it holds no instruction row among its events are the model's choices (logs 1 and 65). -/
def Obligations.EveryStepGoesOn : Prop :=
  ∀ s : State, s.agendaOk → ∃ t, step s = .next t ∧ t.agendaOk

/-- R413: an instruction row executed where no station is named is the model's one fault (its choice, log 65); and a slice whose halt line is
asserted, or which is frozen or written out, fires nothing. -/
def Obligations.NothingFires : Prop :=
  (∀ (i : Instr) (s : State), i.isWord = true → s.cur = none → exec i s = .fault .noStation) ∧
  (∀ (i : Instr) (s : State) (st : SRef) (n : Nat) (x : Slice) (y : Inst), i.isWord = true → s.cur = some ⟨st, n⟩ →
    s.slice? st.slice = some x → s.inst? st = some y → (x.status = .halting ∨ x.status = .frozen ∨ x.status = .evicted) →
    exec i s = .next s)

/-! Firing -/

/-- R20 to R22: a station of a running instance whose every used slot holds one token of one tag and element index, none of
them empty, and whose predicate lets them through, fires on them when the element has not fired, the copy that takes it holds the word in front, and its output has
room. L is set when a data operand carries it (R129), and an operand slot that is not used has the immediate or 0. -/
def Obligations.CompleteSetFires : Prop :=
  ∀ (s : State) (st : SRef) (i : Nat) (h : Hdr) (data : List Slot) (repl imm : Word) (x : Inst) (nd : Node)
    (tag idx : Nat) (tk : Slot → Tok),
    s.acts st i → s.inst? st = some x → x.nodes[i]? = some nd → nd.outq = [] → nd.antiOut = [] →
    data ≠ [] → Slot.p ∉ data →
    (∀ sl ∈ usedSlots h data, ∃ n, nd.buf sl = [.tok (tk sl) n]) →
    (∀ sl ∈ usedSlots h data, (tk sl).tag = tag ∧ (tk sl).idx = idx ∧ (tk sl).e = false) →
    (h.pv = true → (tk .p).data.bit 0 = h.pp) →
    nd.serves idx = true → nd.fired.contains ⟨tag, idx⟩ = false → x.roomFor nd nd.targets tag idx = true →
    s.goes st i h data repl imm ⟨tag, idx, data.any fun sl => (tk sl).l,
      ⟨if .a ∈ data then (tk .a).data else 0, if .b ∈ data then (tk .b).data else imm,
       if .c ∈ data then (tk .c).data else 0⟩⟩

/-- R20, R21: such a set is also what an instruction with its own rule for empty operands takes, empty tokens and failing
predicates included. -/
def Obligations.CompleteSetTaken : Prop :=
  ∀ (s : State) (st : SRef) (i : Nat) (h : Hdr) (data : List Slot) (x : Inst) (nd : Node) (tag idx : Nat) (tk : Slot → Tok)
    (sl : Slot) (rest : List Slot),
    s.acts st i → s.inst? st = some x → x.nodes[i]? = some nd → nd.outq = [] → nd.antiOut = [] →
    usedSlots h data = sl :: rest →
    (∀ sl ∈ usedSlots h data, ∃ n, nd.buf sl = [.tok (tk sl) n]) →
    (∀ sl ∈ usedSlots h data, (tk sl).tag = tag ∧ (tk sl).idx = idx) →
    nd.serves idx = true → nd.fired.contains ⟨tag, idx⟩ = false →
    s.takes st i h data sl (tk sl) (rest.map fun sl => (sl, tk sl))

/-- R22, R23: what a predicate and the empty policy make of a complete set, whose first token is `t`. -/
def Obligations.PredicateAndEmptyPolicy : Prop :=
  ∀ (h : Hdr) (repl imm : Word) (sl : Slot) (t : Tok) (l : List (Slot × Tok)),
    let all := (sl, t) :: l
    let data := all.filter fun e => decide (e.1 ≠ Slot.p)
    let r : Ready := ⟨t.tag, t.idx, data.any fun e => e.2.l,
      ⟨operandOf repl all .a 0, operandOf repl all .b imm, operandOf repl all .c 0⟩⟩
    (∀ p : Tok, tokOf all .p = some p → p.e = false → p.data.bit 0 ≠ h.pp →
      settle h repl imm all = some (.settle .nothing r)) ∧
    (∀ p : Tok, tokOf all .p = some p → p.e = true → h.ep = .absorb → settle h repl imm all = some (.settle .nothing r)) ∧
    (∀ p : Tok, tokOf all .p = some p → p.e = true → h.ep = .forward → settle h repl imm all = some (.settle .forward r)) ∧
    (∀ p : Tok, tokOf all .p = some p → p.e = true → h.ep = .trap → settle h repl imm all = some (.trap r)) ∧
    (tokOf all .p = none → (data.any fun e => e.2.e) = true →
      settle h repl imm all = some (match h.ep with
        | .absorb => .settle .nothing r | .forward => .settle .forward r
        | .replace => .settle .go r | .trap => .trap r)) ∧
    (tokOf all .p = none → (data.any fun e => e.2.e) = false → settle h repl imm all = some (.settle .go r))

/-- R18, R32, R34, R129: a token formed at a station whose one target is another instruction's slot with room stands at the end
of that slot's buffer, when no anti-token or withheld element meets it. One that meets its anti-token at its producer, or
that its target has withheld, enters no buffer, and the anti-token or the note is gone. -/
def Obligations.TokenDelivery : Prop :=
  (∀ (s : State) (st : SRef) (i : Nat) (t : Tok) (x : Inst) (nd c : Node) (g : Target),
    s.inst? st = some x → x.nodes[i]? = some nd → nd.outq = [] → nd.antiOut = [] → nd.routes = [some g] →
    g.index.toNat ≠ i → x.nodes[g.index.toNat]? = some c → c.room g.slot t.idx = true →
    nd.cancelled 0 t.tag t.idx = false →
    ∃ c', (s.emit st i t).node? st g.index.toNat = some c' ∧ c'.buf g.slot = c.buf g.slot ++ [.tok t s.cycles] ∧
      ∀ sl, sl ≠ g.slot → c'.buf sl = c.buf sl) ∧
  (∀ (x : Inst) (nd : Node) (seq i k : Nat) (t : Tok), x.nodes[i]? = some nd → nd.cancelled k t.tag t.idx = true →
    ∃ nd', (x.deliverTok seq i t k).nodes = modAt x.nodes i (fun _ => nd') ∧ nd'.bufA = nd.bufA ∧ nd'.bufB = nd.bufB ∧
      nd'.bufC = nd.bufC ∧ nd'.bufP = nd.bufP ∧
      nd'.antis.length + nd'.withheld.length + 1 = nd.antis.length + nd.withheld.length)

/-! Integer instructions -/

/-- The operand slots of a pure instruction, its replacement value and immediate operand, and its result and flags. -/
structure Sys2Proof.Machine.PureRule where
  hdr : Hdr
  data : List Slot
  repl : Word
  imm : Word
  res : Env → Vals → Word × Nat

/-- A two-operand instruction of the value layout (R59, R164). -/
def Sys2Proof.Machine.valRule (h : Hdr) (v : BitVec 21) (f : Word → Word → Word) : PureRule :=
  ⟨h, if h.im then [.a] else [.a, .b], valOperand h.ty v, valOperand h.ty v, fun _ o => (f o.a o.b, 0)⟩

/-- A one-operand instruction of the value layout. -/
def Sys2Proof.Machine.valRule1 (h : Hdr) (v : BitVec 21) (f : Word → Word) : PureRule :=
  ⟨h, [.a], valOperand h.ty v, 0, fun _ o => (f o.a, 0)⟩

/-- A two-operand instruction of the signed value layout. -/
def Sys2Proof.Machine.svalRule (h : Hdr) (x : SValImm) (f : Word → Word → Word) : PureRule :=
  ⟨h, if h.im then [.a] else [.a, .b], svalOperand h.ty x, svalOperand h.ty x, fun _ o => (f o.a o.b, 0)⟩

/-- A one-operand instruction of the signed value layout. -/
def Sys2Proof.Machine.svalRule1 (h : Hdr) (x : SValImm) (f : Word → Word) : PureRule :=
  ⟨h, [.a], svalOperand h.ty x, 0, fun _ o => (f o.a, 0)⟩

/-- What R164 to R171 give the integer and address instructions. -/
def Sys2Proof.Machine.intRule : Instr → Option PureRule
  | .add h v => some (valRule h v (map2 h.ty fun a b => a + b))
  | .sub h v => some (valRule h v (map2 h.ty fun a b => a + 2 ^ h.ty.width - b))
  | .mul h v => some (valRule h v (map2 h.ty fun a b => a * b))
  | .and h v => some (valRule h v fun a b => a &&& b)
  | .or h v => some (valRule h v fun a b => a ||| b)
  | .xor h v => some (valRule h v fun a b => a ^^^ b)
  | .andn h v => some (valRule h v fun a b => a &&& ~~~b)
  | .shl h v => some (valRule h v (map2 h.ty fun a b => a * 2 ^ (b % h.ty.width) % 2 ^ h.ty.width))
  | .rol h v => some (valRule h v (map2 h.ty (rolLane h.ty.width)))
  | .mad h v => some ⟨h, if h.im then [.a, .c] else [.a, .b, .c], valOperand h.ty v, valOperand h.ty v,
      fun _ o => (map3 h.ty (fun a b c => a * b + c) o.a o.b o.c, 0)⟩
  | .mulh h x => some (svalRule h x (map2 h.ty (mulhLane h.ty.width x.z)))
  | .div h x => some (svalRule h x (map2 h.ty (divLane h.ty.width x.z)))
  | .rem h x => some (svalRule h x (map2 h.ty (remLane h.ty.width x.z)))
  | .min h x => some (svalRule h x (map2 h.ty (minLane h.ty.width x.z)))
  | .max h x => some (svalRule h x (map2 h.ty (maxLane h.ty.width x.z)))
  | .shr h x => some (svalRule h x (map2 h.ty (shrLane h.ty.width x.z)))
  | .pack h x => some (svalRule h x (packWord h.ty x.z))
  | .neg h v => some (valRule1 h v (map1 h.ty fun a => 2 ^ h.ty.width - a))
  | .abs h v => some (valRule1 h v (map1 h.ty (absLane h.ty.width)))
  | .not h v => some (valRule1 h v fun a => ~~~a)
  | .clz h v => some (valRule1 h v (map1 h.ty (clzLane h.ty.width)))
  | .ctz h v => some (valRule1 h v (map1 h.ty (ctzLane h.ty.width)))
  | .popc h v => some (valRule1 h v (map1 h.ty (popcLane h.ty.width)))
  | .brev h v => some (valRule1 h v (map1 h.ty (brevLane h.ty.width)))
  | .sat h x => some (svalRule1 h x (map1 h.ty (satLane h.ty.width x.z)))
  | .ext h x => some (svalRule1 h x (map1 h.ty (extLane h.ty.width x.z)))
  | .unpk h x => some (svalRule1 h x (unpkWord h.ty x.z))
  | .extr h x => some ⟨h, [.a], 0, 0, fun _ o => (map1 h.ty (extrLane x.pos.toNat (x.lenM1.toNat + 1)) o.a, 0)⟩
  | .ins h x => some ⟨h, [.a, .b], 0, 0,
      fun _ o => (map2 h.ty (insLane h.ty.width x.pos.toNat (x.lenM1.toNat + 1)) o.a o.b, 0)⟩
  | .cmp h x => some ⟨h, if h.im then [.a] else [.a, .b], cmpOperand h.ty x, cmpOperand h.ty x, fun _ o =>
      (map2 h.ty (fun a b => if condInt h.ty.width x.cond a b then 2 ^ h.ty.width - 1 else 0) o.a o.b, 0)⟩
  | .lea h x => some ⟨h, if h.im then [.a] else [.a, .b], 0, 0, fun _ o =>
      (if h.im then o.a + BitVec.ofInt 64 (sextNat 18 x.disp.toNat * 2 ^ x.scale.toNat)
        else o.a + o.b * BitVec.ofNat 64 (2 ^ x.scale.toNat) + BitVec.ofInt 64 (sextNat 18 x.disp.toNat), 0)⟩
  | _ => none

/-- R162, R164 to R171: `ADD`, `SUB`, `MUL`, `AND`, `OR`, `XOR`, `ANDN`, `SHL`, `ROL`, `MAD`, `MULH`, `DIV`, `REM`, `MIN`,
`MAX`, `SHR`, `PACK`, `NEG`, `ABS`, `NOT`, `CLZ`, `CTZ`, `POPC`, `BREV`, `SAT`, `EXT`, `UNPK`, `EXTR`, `INS`, `CMP` and
`LEA` consume their operands and emit the result of `intRule`, and raise no flag. -/
def Obligations.IntegerCompletes : Prop :=
  ∀ (i : Instr) (p : PureRule) (s : State) (st : SRef) (n : Nat) (r : Ready), intRule i = some p →
    s.goes st n p.hdr p.data p.repl p.imm r →
    exec i s = .next (s.fired st n p.hdr p.data r (p.res ((s.drain st n).env st) r.v).1 0)

/-- R172: `SWZ` moves lanes. Slot b is required for `.o8`, and used otherwise when an arc feeds it. -/
def Obligations.SwizzleCompletes : Prop :=
  ∀ (h : Hdr) (q : BitVec 8) (s : State) (st : SRef) (n : Nat) (r : Ready) (nd : Node), s.node? st n = some nd →
    s.goes st n h (if h.ty = .o8 ∨ nd.fed.contains .b = true then [.a, .b] else [.a]) 0 0 r →
    exec (.swz h q) s = .next (s.fired st n h (if h.ty = .o8 ∨ nd.fed.contains .b = true then [.a, .b] else [.a]) r
      (ofLanes h.ty fun k => lane h.ty r.v.a (match h.ty with
        | .d2 | .f2 => q.toNat / 2 ^ k % 2
        | .o8 => r.v.b.toNat / 2 ^ (3 * k) % 8
        | _ => q.toNat / 4 ^ k % 4)) 0)

/-- R164 to R167: on `.q` the results are those of 64-bit words: sum, difference, product and its high half, quotient and
remainder with their corners, shifts and rotation by b mod 64, absolute value. -/
def Obligations.QuadIntegerResults : Prop :=
  ∀ a b : Word,
    map2 .q (fun a b => a + b) a b = a + b ∧
    map2 .q (fun a b => a + 2 ^ 64 - b) a b = a - b ∧
    map2 .q (fun a b => a * b) a b = a * b ∧
    map2 .q (mulhLane 64 true) a b = ((a.zeroExtend 128 * b.zeroExtend 128) >>> 64).truncate 64 ∧
    map2 .q (mulhLane 64 false) a b = ((a.signExtend 128 * b.signExtend 128) >>> 64).truncate 64 ∧
    map2 .q (divLane 64 true) a b = (if b = 0 then BitVec.allOnes 64 else a / b) ∧
    map2 .q (remLane 64 true) a b = (if b = 0 then a else a % b) ∧
    map2 .q (divLane 64 false) a b = (if b = 0 then BitVec.allOnes 64 else a.sdiv b) ∧
    map2 .q (remLane 64 false) a b = (if b = 0 then a else a.srem b) ∧
    map2 .q (shlLane 64) a b = a <<< (b.toNat % 64) ∧
    map2 .q (shrLane 64 true) a b = a >>> (b.toNat % 64) ∧
    map2 .q (shrLane 64 false) a b = a.sshiftRight (b.toNat % 64) ∧
    map2 .q (rolLane 64) a b = a.rotateLeft (b.toNat % 64) ∧
    map1 .q (fun a => 2 ^ 64 - a) a = -a ∧
    map1 .q (absLane 64) a = (if a.msb then -a else a)

/-- R171: `LEA` emits a plus b shifted left by SCALE plus the sign-extended DISP, modulo 2⁶⁴; with IM = 1, a plus the
sign-extended DISP shifted left by SCALE. It reads no memory and checks no translation: nothing but its firing happens. -/
def Obligations.LeaForms : Prop :=
  ∀ (h : Hdr) (x : AddrImm) (s : State) (st : SRef) (n : Nat) (r : Ready),
    (h.im = false → s.goes st n h [.a, .b] 0 0 r → exec (.lea h x) s =
      .next (s.fired st n h [.a, .b] r (r.v.a + r.v.b <<< x.scale.toNat + x.disp.signExtend 64) 0)) ∧
    (h.im = true → s.goes st n h [.a] 0 0 r → exec (.lea h x) s =
      .next (s.fired st n h [.a] r (r.v.a + x.disp.signExtend 64 <<< x.scale.toNat) 0))

/-- R167, R168: leading and trailing zeros and one bits of a lane, and its bits in reverse order; `SAT` gives the value nearest
to the lane's that half the width can hold, read back at the full width; `EXT` extends the low half. -/
def Obligations.BitsOfLanes : Prop :=
  (∀ w a : Nat, a < 2 ^ w →
    (a ≠ 0 → clzLane w a = w - 1 - Nat.log2 a ∧ ctzLane w a < w ∧ 2 ^ ctzLane w a ∣ a ∧ ¬ 2 ^ (ctzLane w a + 1) ∣ a) ∧
    (a = 0 → clzLane w a = w ∧ ctzLane w a = w) ∧
    popcLane w a = ((List.range w).filter fun k => a.testBit k).length ∧
    (∀ k, k < w → (brevLane w a).testBit k = a.testBit (w - 1 - k))) ∧
  (∀ v a : Nat, 0 < v → a < 2 ^ (2 * v) →
    satLane (2 * v) true a = min a (2 ^ v - 1) ∧
    sextNat (2 * v) (satLane (2 * v) false a) =
      max (-(2 ^ (v - 1) : Nat) : Int) (min (sextNat (2 * v) a) ((2 ^ (v - 1) : Nat) - 1)) ∧
    extLane (2 * v) true a = a % 2 ^ v ∧
    sextNat (2 * v) (extLane (2 * v) false a) = sextNat v a)

/-- R54: a datum built lane by lane has the lanes it was built from, and a datum of a packed type is its lanes; `.f` has
zeros above its lane. -/
def Obligations.LanesOfDatum : Prop :=
  (∀ (t : Ty) (f : Nat → Nat) (k : Nat), k < t.lanes → lane t (ofLanes t f) k = f k % 2 ^ t.width) ∧
  (∀ (t : Ty) (w : Word), t ≠ .f → ofLanes t (lane t w) = w) ∧
  (∀ f : Nat → Nat, (ofLanes .f f).toNat < 2 ^ 32)

/-! Float instructions -/

/-- A one-operand float instruction: a function of format, environment and the lane's bits. -/
def Sys2Proof.Machine.fRule1 (h : Hdr) (v : BitVec 21) (g : Fmt → Env → Nat → Nat × Nat) : PureRule :=
  ⟨h, [.a], valOperand h.ty v, 0, fun e o => mapF h.ty fun k => g (Ty.fmt h.ty) e (lane h.ty o.a k)⟩

/-- A two-operand float instruction. -/
def Sys2Proof.Machine.fRule2 (h : Hdr) (v : BitVec 21) (g : Fmt → Env → Nat → Nat → Nat × Nat) : PureRule :=
  ⟨h, if h.im then [.a] else [.a, .b], valOperand h.ty v, valOperand h.ty v,
    fun e o => mapF h.ty fun k => g (Ty.fmt h.ty) e (lane h.ty o.a k) (lane h.ty o.b k)⟩

/-- A conversion: lane k of the destination takes lane k of the source, and a lane with no source is zero (R179). -/
def Sys2Proof.Machine.cvtRule (h : Hdr) (x : CvtImm) (g : Env → Nat → Nat × Nat) : PureRule :=
  ⟨h, [.a], 0, 0, fun e o => mapF h.ty fun k =>
    if k < x.src.lanes then g (e.withRnd x.rnd) (lane x.src o.a k) else (0, 0)⟩

/-- What R173 to R180 give the float instructions: each result is the exact one of the operands' values rounded once into
the format (R111 to R117). -/
def Sys2Proof.Machine.floatRule : Instr → Option PureRule
  | .fadd h v => some (fRule2 h v fun f e a b => f.put e false (addX e.rm (f.operand e a) (f.operand e b)))
  | .fsub h v => some (fRule2 h v fun f e a b => f.put e false (addX e.rm (f.operand e a) (f.operand e b).neg))
  | .fmul h v => some (fRule2 h v fun f e a b =>
      f.put e false ((mulV (f.operand e a) (f.operand e b)).1.x (mulV (f.operand e a) (f.operand e b)).2))
  | .fdiv h v => some (fRule2 h v fun f e a b => f.put e false (divX (f.operand e a) (f.operand e b)))
  | .fma h v => some ⟨h, if h.im then [.a, .c] else [.a, .b, .c], valOperand h.ty v, valOperand h.ty v, fun e o =>
      mapF h.ty fun k => (Ty.fmt h.ty).put e false (fmaX e.rm ((Ty.fmt h.ty).operand e (lane h.ty o.a k))
        ((Ty.fmt h.ty).operand e (lane h.ty o.b k)) ((Ty.fmt h.ty).operand e (lane h.ty o.c k)))⟩
  | .fmin h v => some (fRule2 h v fun f e => f.minmax e false)
  | .fmax h v => some (fRule2 h v fun f e => f.minmax e true)
  | .fabs h v => some (fRule1 h v fun f e => fsignLane f e fun _ => false)
  | .fneg h v => some (fRule1 h v fun f e => fsignLane f e fun n => !n)
  | .fsqrt h v => some (fRule1 h v fun f e a => f.put e false (sqrtX (f.operand e a)))
  | .frcp h v => some (fRule1 h v fun f e a => f.put e false (divX (.fin false 1 0) (f.operand e a)))
  | .frsq h v => some (fRule1 h v fun f e a => f.put e false (rsqX (f.operand e a)))
  | .fexp2 h v => some (fRule1 h v fun f e a => f.put e false (exp2X (f.operand e a)))
  | .flog2 h v => some (fRule1 h v fun f e a => f.put e false (log2X (f.operand e a)))
  | .ftanh h v => some (fRule1 h v fun f e a => f.put e false (tanhX (f.operand e a)))
  | .fscl h v => some (fRule2 h v fsclLane)
  | .fcls h v => some (fRule1 h v fun f _ a => (fclsLane f a, 0))
  | .fcmp h x => some ⟨h, if h.im then [.a] else [.a, .b], cmpOperand h.ty x, cmpOperand h.ty x, fun e o =>
      mapF h.ty fun k =>
        (if (fcmpLane (Ty.fmt h.ty) e x.cond (lane h.ty o.a k) (lane h.ty o.b k)).1 then 2 ^ h.ty.width - 1 else 0,
          (fcmpLane (Ty.fmt h.ty) e x.cond (lane h.ty o.a k) (lane h.ty o.b k)).2)⟩
  | .frnd h x => some (cvtRule h x (frndLane (Ty.fmt h.ty)))
  | .fcvt h x => some (cvtRule h x fun e a =>
      if x.src = .o8 then convLane (if x.u then .e5m2 else .e4m3) (Ty.fmt h.ty) e a
      else convLane (Ty.fmt x.src) (Ty.fmt h.ty) e a)
  | .itof h x => some (cvtRule h x fun e a => itofLane (Ty.fmt h.ty) e (laneInt x.src x.u a))
  | .ftoi h x => some (cvtRule h x fun e a => ftoiVal e h.ty.width x.u ((Ty.fmt x.src).operand e a))
  | .dot h => some ⟨h, [.a, .b, .c], 0, 0, fun e o => dotWord e o.a o.b o.c⟩
  | .key h => some ⟨h, [.a, .b], 0, 0, fun _ o => (keyWord o.a o.b, 0)⟩
  | .noise h => some ⟨h, [.a, .b, .c], 0, 0, fun _ o =>
      (BitVec.ofNat 64 (noiseBits o.a o.b o.c).1, (noiseBits o.a o.b o.c).2)⟩
  | _ => none

/-- R173 to R180, R395, R396: `FADD`, `FSUB`, `FMUL`, `FDIV`, `FMA`, `FMIN`, `FMAX`, `FABS`, `FNEG`, `FSQRT`, `FRCP`, `FRSQ`,
`FEXP2`, `FLOG2`, `FTANH`, `FSCL`, `FCLS`, `FCMP`, `FRND`, `FCVT`, `ITOF`, `FTOI`, `DOT`, `KEY` and `NOISE` consume their
operands, raise the flags and emit the result of `floatRule` under the instance's captured `fpc`. -/
def Obligations.FloatCompletes : Prop :=
  ∀ (i : Instr) (p : PureRule) (s : State) (st : SRef) (n : Nat) (r : Ready), floatRule i = some p →
    s.goes st n p.hdr p.data p.repl p.imm r →
    exec i s = .next (s.fired st n p.hdr p.data r (p.res ((s.drain st n).env st) r.v).1
      (p.res ((s.drain st n).env st) r.v).2)

/-- R22, R23: an integer or float instruction whose next element produces nothing consumes it and keeps its stream's end;
one that is forwarded consumes it and emits an empty token; one with an empty operand under EP 11 traps EMPTYTRAP with its
operands in place. -/
def Obligations.PureOtherwise : Prop :=
  ∀ (i : Instr) (p : PureRule) (s : State) (st : SRef) (n : Nat) (r : Ready),
    (intRule i = some p ∨ floatRule i = some p) → s.acts st n →
    (s.pick st n p.hdr p.data p.repl p.imm = some (.settle .nothing r) →
      exec i s = .next (((s.drain st n).consume st n p.hdr p.data r).emitNothing st n r)) ∧
    (s.pick st n p.hdr p.data p.repl p.imm = some (.settle .forward r) →
      exec i s = .next (((s.drain st n).consume st n p.hdr p.data r).emitForward st n r)) ∧
    (s.pick st n p.hdr p.data p.repl p.imm = some (.trap r) →
      exec i s = .next ((s.drain st n).trapStation st n 0x06 0 r.tag r.idx 0 0)) ∧
    (s.pick st n p.hdr p.data p.repl p.imm = none → exec i s = .next (s.drain st n))

/-- R100, R111, R113, R117, R173, R178: a finite result that its format holds exactly is given exactly and raises no flag: an
FP32 number read and put back is itself, and the sum of a number with its own opposite is +0 unless the mode rounds
toward −∞. An operation on a NaN gives the canonical quiet NaN 0x7FC00000, and an ordered comparison is false. -/
def Obligations.FloatEdges : Prop :=
  (∀ (v : Env) (a : Nat) (n : Bool) (m : Nat) (e : Int), a < 2 ^ 32 → v.fz = false → v.daz = false →
    Fmt.fp32.operand v a = .fin n m e → Fmt.fp32.put v false ((Fmt.fp32.operand v a).x 0) = (a, 0)) ∧
  (∀ (v : Env) (a : Nat) (n : Bool) (m : Nat) (e : Int), a < 2 ^ 32 → Fmt.fp32.operand v a = .fin n m e →
    m ≠ 0 → Fmt.fp32.put v false (addX v.rm (Fmt.fp32.operand v a) (Fmt.fp32.operand v a).neg) =
      (if v.rm = .rdn then 0x80000000 else 0, 0)) ∧
  (∀ (v : Env) (a b : Nat), ((Fmt.fp32.operand v a).isNan = true ∨ (Fmt.fp32.operand v b).isNan = true) →
    (Fmt.fp32.put v false (addX v.rm (Fmt.fp32.operand v a) (Fmt.fp32.operand v b))).1 = 0x7FC00000 ∧
    (Fmt.fp32.put v false (divX (Fmt.fp32.operand v a) (Fmt.fp32.operand v b))).1 = 0x7FC00000 ∧
    (∀ c : Cond, c ≠ .ne → c ≠ .un → (fcmpLane Fmt.fp32 v c a b).1 = false) ∧
    (fcmpLane Fmt.fp32 v .un a b).1 = true ∧ (fcmpLane Fmt.fp32 v .ne a b).1 = true)

/-! Flow and control -/

/-- R130 to R133: `LAND`, `READ`, `CONST` and `KPOOL` fire once, by themselves, under the block tag with L: the label, the
register as the instance began, VAL in every lane, the pool entry. -/
def Obligations.StartFiredComplete : Prop :=
  ∀ (s : State) (st : SRef) (i : Nat) (h : Hdr) (nd : Node) (x : Inst) (t : Strand), s.acts st i →
    s.strand? st = some t → t.inst = some x → x.nodes[i]? = some nd → nd.outq = [] → nd.antiOut = [] →
    nd.fired.contains ⟨0, 0⟩ = false → x.roomFor nd nd.targets 0 0 = true →
    let emits := fun (w : Word) => Host.Outcome.next
      (((s.drain st i).modNode st i fun n => { n with fired := [⟨0, 0⟩] }).emit st i ⟨w, 0, 0, true, false⟩)
    (∀ label, exec (.land h label) s = emits (label.setWidth 64)) ∧
    (∀ r, exec (.read h r) s = emits (t.regs.getD r.toNat 0)) ∧
    (∀ v, exec (.const h v) s = emits (valOperand h.ty v)) ∧
    (∀ k, exec (.kpool h k) s = emits (x.block.pool.getD k.toNat 0))

/-- The data slots of a join: c is used when an arc feeds it (R142). -/
def Sys2Proof.Machine.joinData (nd : Node) : List Slot := if nd.fed.contains .c then [.a, .b, .c] else [.a, .b]

/-- R134 to R136, R142, R155, R245, R246: `MOV` and `FORK` emit their operand, `DROP` none; `JAND`, `JOR` and `JALL` without
`.e` the conjunction, the disjunction and a's data; `ITER` the iteration number, `BCAST` lane 0 in every lane, `IDX` the
index of each lane. -/
def Obligations.MoversComplete : Prop :=
  ∀ (s : State) (st : SRef) (i : Nat) (h : Hdr) (r : Ready),
    (∀ v, s.goes st i h [.a] (valOperand h.ty v) 0 r → exec (.mov h v) s = .next (s.fired st i h [.a] r r.v.a 0)) ∧
    (s.goes st i h [.a] 0 0 r →
      (∀ tc td, exec (.fork h tc td) s = .next (s.fired st i h [.a] r r.v.a 0)) ∧
      exec (.drop h) s = .next (s.fired st i h [.a] r 0 0) ∧
      exec (.bcast h) s = .next (s.fired st i h [.a] r (ofLanes h.ty fun _ => lane h.ty r.v.a 0) 0) ∧
      exec (.idx h) s = .next (s.fired st i h [.a] r (mapF h.ty (idxLane (s.env st) h.ty r.idx)).1 (mapF h.ty (idxLane (s.env st) h.ty r.idx)).2) ∧
      (∀ x, ((s.drain st i).settleFrames st).inst? st = some x → exec (.iter h) s =
        .next (((s.drain st i).consume st i h [.a] r).emitData st i r (BitVec.ofNat 64 (match x.frameOf r.tag with
          | some fr => fr.full (r.tag % 4096)
          | none => r.tag % 4096))))) ∧
    (∀ nd, s.node? st i = some nd → s.goes st i h (joinData nd) 0 0 r →
      exec (.jand h false) s = .next (s.fired st i h (joinData nd) r
        (Word.ofBool (r.v.a.bit 0 && r.v.b.bit 0 && (!(joinData nd).contains .c || r.v.c.bit 0))) 0) ∧
      exec (.jor h false) s = .next (s.fired st i h (joinData nd) r
        (Word.ofBool (r.v.a.bit 0 || r.v.b.bit 0 || ((joinData nd).contains .c && r.v.c.bit 0))) 0) ∧
      exec (.jall h) s = .next (s.fired st i h (joinData nd) r r.v.a 0))

/-- R138, R139, R141: `SEL` emits the operand that the selector chooses, with the selector's L; `STEER` sends a's element to
TA or TB by the selector, and closes both streams with the element that carries L; `MERGE` passes each token by itself, one of
b not before the cycle in which it arrived is over. -/
def Obligations.ChoosersComplete : Prop :=
  ∀ (s : State) (st : SRef) (i : Nat) (h : Hdr) (sl : Slot) (t : Tok) (l : List (Slot × Tok)),
    let u := s.drain st i
    let all := (sl, t) :: l
    let r := readyOf all t
    (∀ tc tx, s.takes st i h [.a, .b, .c] sl t l → predOf h 0 all = .pass → tokOf all .c = some tc → tc.e = false →
      tokOf all (if tc.data.bit 0 then .a else .b) = some tx → tx.e = false →
      u.outRoom st i (u.targets st i) r.tag r.idx = true →
      exec (.sel h false) s =
        .next ((u.consume st i h [.a, .b, .c] r).emit st i ⟨tx.data, r.tag, r.idx, tc.l, false⟩)) ∧
    (∀ ta tc, s.takes st i h [.a, .c] sl t l → predOf h 0 all = .pass → tokOf all .a = some ta → ta.e = false →
      tokOf all .c = some tc → tc.e = false →
      u.steerRoom st i r.tag (some (if tc.data.bit 0 then 0 else 1)) r.l = true →
      let v := (u.consume st i h [.a, .c] r).steerPut st i r.tag (if tc.data.bit 0 then 0 else 1) ta.data false
      exec (.steer h) s = .next (if r.l then v.steerEnd st i r.tag else v)) ∧
    (∀ x nd, s.acts st i → u.inst? st = some x → u.node? st i = some nd → nd.free = true →
      x.mergePick i h = some all → nd.mergeDue u.cycles all = true → sl = .a ∨ sl = .b → predOf h 0 all = .pass → t.e = false →
      exec (.merge h) s = .next ((u.modNode st i fun n => n.take all).emit st i ⟨t.data, t.tag, t.idx, t.l, false⟩))

/-- R31, R138, R142, R143: an early `SEL`, `JAND` or `JOR` whose inputs present settle an element emits it at once, and sends an
anti-token up every data slot that has not delivered. One input of 0 settles `JAND.e` of two to 0 and one of 1 settles
`JOR.e` to 1, whatever else is there; without one, both inputs are awaited. -/
def Obligations.EarlyComplete : Prop :=
  (∀ (s : State) (st : SRef) (i : Nat) (h : Hdr) (x : Inst) (nd : Node) (tag idx : Nat) (l : List Present) (w : Word)
    (f : Bool),
    let u := s.drain st i
    let early := fun (data : List Slot) => Host.Outcome.next
      (((u.consume st i h data ⟨tag, idx, f, ⟨0, 0, 0⟩⟩).antis st i
        ((data.filter fun sl => !l.any fun p => decide (p.slot = sl)).map fun sl =>
          (⟨BitVec.ofNat 7 i, sl⟩, ⟨tag, idx⟩))).emit st i ⟨w, tag, idx, f, false⟩)
    s.acts st i → s.node? st i = some nd → nd.outq = [] → nd.antiOut = [] → u.inst? st = some x →
    (x.earlyPick i h [.a, .b, .c] selLast (selRule h) = some (tag, idx, l, .data w f) →
      exec (.sel h true) s = early [.a, .b, .c]) ∧
    (x.earlyPick i h (joinData nd) anyLast (joinRule h false (joinData nd).length) = some (tag, idx, l, .data w f) →
      exec (.jand h true) s = early (joinData nd)) ∧
    (x.earlyPick i h (joinData nd) anyLast (joinRule h true (joinData nd).length) = some (tag, idx, l, .data w f) →
      exec (.jor h true) s = early (joinData nd))) ∧
  (∀ (ep : Ep) (d l : Bool) (t v : Tok), t.e = false → v.e = false →
    (t.data.bit 0 = d → joinVerdict ep d 2 l [t] = .data (Word.ofBool d) l) ∧
    (t.data.bit 0 ≠ d → joinVerdict ep d 2 l [t] = .wait) ∧
    (t.data.bit 0 ≠ d → v.data.bit 0 ≠ d → joinVerdict ep d 2 l [t, v] = .data (Word.ofBool (!d)) l) ∧
    joinVerdict ep d 2 l [] = .wait)

/-- R145 to R149: `LOOPIN` retags an element into iteration 0 of its frame, `CARRY` keeps an element whose continue bit is 1
for the next iteration and emits what the window admits, and `LOOPOUT` gives an element its outer tag back. -/
def Obligations.LoopsComplete : Prop :=
  ∀ (s : State) (st : SRef) (i : Nat) (h : Hdr) (x : LoopImm) (sl : Slot) (t : Tok) (l : List (Slot × Tok)),
    let u := s.drain st i
    let all := (sl, t) :: l
    let r := readyOf all t
    (∀ f v, s.takes st i h [.a] sl t l → tokOf all .a = some t → t.e = false →
      (u.settleFrames st).enterFrame st i x r.tag = some (f, v) →
      v.outRoom st i (v.targets st i) (iterTag f 0) r.idx = true →
      exec (.loopin h x) s = .next ((v.consume st i h [.a] r).emit st i ⟨t.data, iterTag f 0, r.idx, r.l, false⟩)) ∧
    (∀ ta tb nd, (u.carryEmit st i).takes st i h [.a, .b] sl t l → s.acts st i →
      let v := (u.carryEmit st i).drain st i
      v.node? st i = some nd → tokOf all .a = some ta → ta.e = false → tokOf all .b = some tb → tb.e = false →
      (nd.ext.carries.1.any fun t => t.idx % nd.copies == r.idx % nd.copies) = false →
      let kept : Tok := ⟨ta.data, r.tag / 4096 * 4096 + (r.tag + 1) % 4096, r.idx, ta.l, false⟩
      exec (.carry h x) s = .next (((v.consume st i h [.a, .b] r).modNode st i fun n =>
        { n with ext := .carry (if tb.data.bit 0 then nd.ext.carries.1 ++ [kept] else nd.ext.carries.1)
                   (carryNote nd.ext.carries.2 r.tag r.l (tb.data.bit 0)) }).carryEmit st i)) ∧
    (∀ y fr, s.takes st i h [.a] sl t l → tokOf all .a = some t → t.e = false → (u.settleFrames st).inst? st = some y →
      y.frameOf r.tag = some fr → u.outRoom st i (u.targets st i) fr.outer r.idx = true →
      exec (.loopout h x) s =
        .next (((u.consume st i h [.a] r).emit st i ⟨t.data, fr.outer, r.idx, r.l, false⟩).settleFrames st))

/-- R153, R154: `GEN` without a fires once and generates N elements; with a it generates as many as the element that carries L
says, at most 65,536; element k holds k in every lane, the last carries L, and a count of 0 gives one empty token. `CNT`
counts its elements and emits the count with the one that carries L. -/
def Obligations.GeneratorsComplete : Prop :=
  (∀ (s : State) (st : SRef) (i : Nat) (h : Hdr) (nd : Node) (sl : Slot) (t : Tok) (l : List (Slot × Tok)),
    let u := s.drain st i
    let v := u.drain st i
    let all := (sl, t) :: l
    let r := readyOf all t
    s.acts st i → s.node? st i = some nd → nd.outq = [] → nd.antiOut = [] →
    (∀ n : BitVec 16, nd.ext.gens = [] → nd.fed.contains .a = false → nd.fired.contains ⟨0, 0⟩ = false →
      exec (.gen h n) s = .next ((v.modNode st i fun m =>
        { m with fired := [⟨0, 0⟩], ext := .gen [⟨0, n.toNat + 1, 0⟩] }).genEmit st i h.ty)) ∧
    (∀ n : BitVec 16, nd.ext.gens = [] → nd.fed.contains .a = true → u.takes st i h [.a] sl t l → predOf h 0 all = .pass →
      tokOf all .a = some t → t.e = false → r.l = true →
      exec (.gen h n) s = .next (((v.consume st i h [.a] r).modNode st i fun m =>
        { m with ext := .gen [⟨r.tag, min t.data.toNat 65536, 0⟩] }).genEmit st i h.ty)) ∧
    (s.takes st i h [.a] sl t l → predOf h 0 all = .pass → tokOf all .a = some t → t.e = false →
      (r.l = true → u.outRoom st i nd.targets r.tag 0 = true) →
      let n := ((nd.ext.cnts.find? fun c => c.tag == r.tag).getD ⟨r.tag, 0⟩).count + 1
      let rest := nd.ext.cnts.filter fun c => c.tag != r.tag
      let w := (u.consume st i h [.a] r).modNode st i fun m =>
        { m with ext := .cnt (if r.l then rest else rest ++ [⟨r.tag, n⟩]) }
      exec (.cnt h) s = .next (if r.l then w.emit st i ⟨BitVec.ofNat 64 n, r.tag, 0, true, false⟩ else w))) ∧
  (∀ (ty : Ty) (g : GenSt),
    (g.count = 0 → genTok ty g = ⟨0, g.tag, 0, true, true⟩) ∧
    (g.next < g.count → (genTok ty g).tag = g.tag ∧ (genTok ty g).idx = g.next ∧ (genTok ty g).e = false ∧
      ((genTok ty g).l = true ↔ g.next + 1 = g.count) ∧
      ∀ k, k < ty.lanes → lane ty (genTok ty g).data k = g.next % 2 ^ ty.width))

/-- R42, R45, R156, R157, R159: `KILL` sends one anti-token up the arc it names; `WRITE` notes its register and value for the
commit, for the block-tag token that carries L; `EXIT`, `EXITI`, `CALL`, `CALLI` and `RET` note where the strand goes, once:
a second exit firing, whichever it is, traps MULTIEXIT, and an index of `EXITI` or `CALLI` outside its jump table traps
JTBOUND, with the operand in place. Where both hold JTBOUND comes, the model's choice (log 74). -/
def Obligations.ExitsComplete : Prop :=
  (∀ (s : State) (st : SRef) (i : Nat) (h : Hdr) (r : Ready) (x : Inst), s.goes st i h [.a] 0 0 r →
    (s.drain st i).inst? st = some x →
    let u := (s.drain st i).consume st i h [.a] r
    let goesTo := fun (c : Choice) => Host.Outcome.next (φ := Fault) (ρ := Refusal)
      (u.modInst st fun y => { y with exit := some c })
    (∀ k : KillImm, exec (.kill h k) s = .next (u.antis st i [(k, ⟨r.tag, r.idx⟩)])) ∧
    (∀ n : BitVec 6, exec (.write h n) s = .next (if r.tag = 0 ∧ r.l = true then
      u.modInst st fun y => { y with writes := y.writes ++ [(n.toNat, r.v.a)] } else u)) ∧
    (x.exit = none →
      (∀ n : BitVec 3, exec (.exit h n) s = goesTo ⟨n.toNat, x.block.target n.toNat, none, false, none⟩) ∧
      (∀ n : BitVec 3, exec (.call h n) s = goesTo ⟨n.toNat, x.block.target n.toNat,
        some (x.block.target (n.toNat + 1), x.block.exitLabel (n.toNat + 1)), false, none⟩) ∧
      exec (.ret h) s = goesTo ⟨0, 0, none, true, none⟩ ∧
      (∀ (j : JumpImm) (tab : JTab) (o : Word), x.block.jtabs[j.table.toNat]? = some tab →
        tab.offs[r.v.a.toNat]? = some o →
        exec (.exiti h j) s = goesTo ⟨0, x.block.image + o, none, false, some tab.label⟩ ∧
        exec (.calli h j) s = goesTo ⟨0, x.block.image + o,
          some (x.block.target j.ret.toNat, x.block.exitLabel j.ret.toNat), false, some tab.label⟩))) ∧
  (∀ (s : State) (st : SRef) (i : Nat) (h : Hdr) (r : Ready) (x : Inst), s.goes st i h [.a] 0 0 r →
    (s.drain st i).inst? st = some x →
    let traps := fun (code : Nat) => Host.Outcome.next (φ := Fault) (ρ := Refusal)
      ((s.drain st i).trapStation st i code 0 r.tag r.idx 0 0)
    (x.exit.isSome = true →
      (∀ n : BitVec 3, exec (.exit h n) s = traps 0x04 ∧ exec (.call h n) s = traps 0x04) ∧ exec (.ret h) s = traps 0x04 ∧
      (∀ (j : JumpImm) (tab : JTab), x.block.jtabs[j.table.toNat]? = some tab → r.v.a.toNat < tab.offs.length →
        exec (.exiti h j) s = traps 0x04 ∧ exec (.calli h j) s = traps 0x04)) ∧
    (∀ (j : JumpImm) (tab : JTab), x.block.jtabs[j.table.toNat]? = some tab → tab.offs.length ≤ r.v.a.toNat →
      exec (.exiti h j) s = traps 0x03 ∧ exec (.calli h j) s = traps 0x03))

/-! Streams -/

/-- R181, R182, R241 to R244, R397 to R399: an element of `RED`, `SCAN`, `QPACK`, `QUNPK`, `SHUF`, `TREE` or `ACCEPT` is taken
into its stream's state, and what it completes is emitted: the tree's value, the prefix, the codes and scales, the 32
values of a block, the element that b selects, the mask and the node, the verdict. What the model reads into the rules: a value of
a block that never came decodes as +0 (log 80), and the predicate of `SHUF` goes with b, that of `TREE` and `ACCEPT` with a
(log 23). -/
def Obligations.StreamsComplete : Prop :=
  ∀ (s : State) (st : SRef) (i : Nat) (h : Hdr) (sl : Slot) (t : Tok) (l : List (Slot × Tok)) (nd : Node) (y : Inst),
    let u := s.drain st i
    let all := (sl, t) :: l
    let r := readyOf all t
    u.node? st i = some nd → u.inst? st = some y →
    (∀ (op : Opr), s.acts st i → ∀ e, nd.ext.reds.find? (fun e => due e.parts) = some e →
      exec (.red h op) s = .next ((u.modNode st i fun n =>
        { n with ext := redKeep n.ext.reds { e with parts := (joinDue op h.ty (u.env st) e.parts).1 } false }).raise st
          (joinDue op h.ty (u.env st) e.parts).2)) ∧
    (∀ (op : Opr) (x : Option Word × Bool × Nat), s.takes st i h [.a] sl t l → redInput h (u.env st) all = some x →
      let took := fun (e : RedSt × Nat) => ((u.consume st i h [.a] r).raise st (x.2.2 ||| e.2)).modNode st i fun n =>
        { n with ext := redKeep n.ext.reds e.1 r.l }
      let e := redStep op h.ty (u.env st) r (x.1, x.2.1) nd.ext.reds
      let o := redValue op h.ty (u.env st) e.1
      ((nd.ext.reds.any fun e => due e.parts) = false →
        (r.l = false → exec (.red h op) s = .next (took (redTake op h.ty (u.env st) r (x.1, x.2.1) nd.ext.reds))) ∧
        (r.l = true → u.outRoom st i nd.targets r.tag 0 = true →
          (e.1.empty = true ∨ o.1 = none → exec (.red h op) s = .next ((took e).emit st i ⟨0, r.tag, 0, true, true⟩)) ∧
          ∀ d, e.1.empty = false → o.1 = some d → exec (.red h op) s = .next (((took e).raise st
            (o.2 ||| (redResult h.ty (u.env st) d).2)).emit st i
              ⟨(redResult h.ty (u.env st) d).1, r.tag, 0, true, false⟩))) ∧
      (u.outRoom st i nd.targets r.tag r.idx = true →
        (x.1 = none → x.2.1 = false → exec (.scan h op) s = .next ((took e).emitNothing st i r)) ∧
        (x.1.isSome = true ∨ x.2.1 = true →
          (e.1.empty = true ∨ o.1 = none → exec (.scan h op) s = .next ((took e).emitForward st i r)) ∧
          ∀ d, e.1.empty = false → o.1 = some d → exec (.scan h op) s = .next (((took e).raise st
            (o.2 ||| (redResult h.ty (u.env st) d).2)).emitData st i r (redResult h.ty (u.env st) d).1)))) ∧
    (∀ (x : CvtImm) (d : Option Word), s.takes st i h [.a] sl t l → packInput h all = some d →
      (r.l = true → u.outRoom st i nd.targets r.tag 0 = true) →
      let e := packAt nd.ext.packs r.tag
      let vals := e.vals ++ List.replicate (r.idx - e.vals.length) 0 ++ [d.getD 0]
      let w := (u.consume st i h [.a] r).modNode st i fun n =>
        { n with ext := packSet n.ext.packs { e with vals := vals } r.l }
      let v := (w.env st).withRnd x.rnd
      let fs := vals.flatMap fun w => (List.range x.src.lanes).map fun k => (Ty.fmt x.src).operand v (lane x.src w k)
      let o := packBlocks v.rm x.qt ((fs.length + 31) / 32) fs
      exec (.qpack h x) s = .next (if r.l then (w.raise st o.2).emitList st i r.tag 0 true o.1 else w)) ∧
    (∀ (x : CvtImm) (d : Option Word), s.takes st i h [.a] sl t l → packInput h all = some d →
      let e := packAt nd.ext.packs r.tag
      let gap := unpackGap h.ty e r.idx
      let scale := (d.getD 0).toNat % 256
      let o := if r.idx % 3 = 2 then unpackBlock h.ty ((u.env st).withRnd x.rnd) (gap.2.getD 0 0) (gap.2.getD 1 0) scale
        else ([], 0)
      let ws := gap.1 ++ o.1
      (r.l = true → r.idx % 3 = 2) → (r.idx % 3 = 2 → d.isSome = true → scale / 64 = Qt.bits x.qt) →
      e.out + ws.length ≤ 65536 → (ws ≠ [] → u.outRoom st i nd.targets r.tag e.out = true) →
      let kept : PackSt := ⟨r.tag, if r.idx % 3 = 2 then [] else gap.2 ++ [d.getD 0], e.out + ws.length⟩
      exec (.qunpk h x) s = .next ((((u.consume st i h [.a] r).modNode st i fun n =>
        { n with ext := packSet n.ext.packs kept r.l }).raise st o.2).emitList st i
              r.tag e.out r.l ws)) ∧
    (∀ (v : BitVec 21), s.acts st i → nd.free = true →
      let repl := valOperand h.ty v
      let waited := y.waited i (usedSlots h (if h.im then [.a] else [.a, .b]))
      let e := shufAt nd.ext.shufs t.tag
      let kept := fun (keep : Bool) => ({ e with
        held := if keep then e.held ++ [t] else e.held, got := t.idx + 1, ended := e.ended || t.l } : ShufSt)
      let keep := decide (t.idx < 256) && !e.done
      ((nd.singles waited h h.im .a).head? = some all →
        (predOf h repl all = .pass → (h.im && t.l) = false →
          exec (.shuf h v) s =
            .next (u.modNode st i fun n => { n.take all with ext := shufSet n.ext.shufs (kept keep) })) ∧
        (∀ d f, predOf h repl all = .pass → h.im = true → t.l = true → u.outRoom st i nd.targets t.tag 0 = true →
          shufSelect h repl (kept keep) repl.toNat true = .data d f →
          exec (.shuf h v) s = .next ((u.modNode st i fun n =>
            { n.take all with ext := shufSet n.ext.shufs (kept keep).finish }).emit st i ⟨d, t.tag, 0, f, false⟩))) ∧
      (∀ d f, h.im = false → nd.singles waited h false .a = [] → (nd.singles waited h true .b).head? = some all →
        shufVerdict h repl e all t = .data d f → u.outRoom st i nd.targets t.tag t.idx = true →
        exec (.shuf h v) s = .next ((u.modNode st i fun n =>
          { n.take all with
            fired := ⟨t.tag, t.idx⟩ :: n.fired
            ext := shufSet n.ext.shufs (if t.l then e.finish else e) }).emit st i ⟨d, t.tag, t.idx, f, false⟩))) ∧
    (∀ (x : EngImm) (p : Ready) (ta : Tok), s.acts st i → nd.free = true →
      let data := optB s
      let e := treeAt nd.ext.trees ta.tag
      let d := p.v.a.field 7 0
      (nd.treeSets (y.waited i (usedSlots h data)) (usedSlots h data)).find? (y.setRoom nd) = some all →
      settle h 0 0 all = some (.settle .go p) → tokOf all .a = some ta → treeTrap e p.idx d = none →
      exec (.tree h x) s = .next (((((u.consume st i h data { p with l := ta.l }).modNode st i fun n =>
        { n with ext := treeSet n.ext.trees (e.push p.idx d) ta.l }).outTo st i 0
          ⟨e.mask p.idx d, p.tag, p.idx, ta.l, false⟩).outTo st i 1
          ⟨treeWord (p.v.b.field 31 0) (e.parent d) d, p.tag, p.idx, ta.l, false⟩))) ∧
    (∀ (x : EngImm), s.acts st i → nd.free = true →
      (∀ e, nd.verdictDue = some e → u.outRoom st i nd.targets e.tag 0 = true →
        exec (.accept h x) s = .next ((u.modNode st i fun n =>
          { n with ext := acceptSet n.ext.accepts { e with closed := true } }).emitList st i e.tag 0 true (e.verdict.getD []))) ∧
      (∀ cfg, nd.verdictDue = none → y.acceptPick i h = some all → sl = .a → predOf h 0 all = .pass → t.e = false →
        let e := (acceptAt nd.ext.accepts t.tag).entry t t.data
        (acceptAt nd.ext.accepts t.tag).closed = false → (acceptAt nd.ext.accepts t.tag).verdict = none →
        e.cfg = some cfg → e.complete = true → acceptFault y cfg e = none →
        exec (.accept h x) s = .next ((u.modNode st i fun n =>
          { n.take all with ext := acceptSet n.ext.accepts e.decide' }).antis st i
            (killList cfg e.rejected e.decide'.rejected))))

/-- R124: the combination tree of elements in index order: the left part has the largest power of two of them below their
number. -/
def Sys2Proof.Machine.treeFold (f : Word → Word → Word) : Nat → List Word → Word
  | 0, _ => 0
  | n + 1, xs =>
    if xs.length ≤ 1 then xs.headD 0
    else f (treeFold f n (xs.take (2 ^ Nat.log2 (xs.length - 1)))) (treeFold f n (xs.drop (2 ^ Nat.log2 (xs.length - 1))))

/-- R124: the value that `RED` emits for a stream, and `SCAN` for a prefix, is that of the fixed tree over its elements,
whatever the operator. -/
def Obligations.ReductionTree : Prop :=
  ∀ (op : Opr) (t : Ty) (v : Env) (tag : Nat) (xs : List Word), xs ≠ [] →
    let e := (xs.zipIdx.foldl (fun (o : Ext) (x : Word × Nat) =>
      redKeep o.reds (redStep op t v ⟨tag, x.2, false, ⟨0, 0, 0⟩⟩ (some x.1, false) o.reds).1 false) (.red [])).reds
    ∃ d, e = [d] ∧ d.empty = false ∧ (redValue op t v d).1 =
      some (treeFold (fun a b => (mapF t fun k => oprLane op t v (lane t a k) (lane t b k)).1) xs.length xs)

/-- R245: `BCAST` emits each element of a with lane 0 copied into every lane; on `.q` it emits a unchanged, and on `.f` a with
bits [63:32] zero. -/
def Obligations.BroadcastMoves : Prop :=
  ∀ (s : State) (st : SRef) (i : Nat) (h : Hdr) (r : Ready), s.goes st i h [.a] 0 0 r →
    ∃ w, exec (.bcast h) s = .next (s.fired st i h [.a] r w 0) ∧
      (∀ k, k < h.ty.lanes → lane h.ty w k = lane h.ty r.v.a 0) ∧
      (h.ty = .q → w = r.v.a) ∧ (h.ty = .f → w.toNat = r.v.a.toNat % 2 ^ 32)

/-! Barriers and scheduling -/

/-- R206, R208, R210, R247 to R249: `BARR`, `BSYNC`, `BRED` and `TAP` make their arrival when it does not trap, `BWAIT` and
`BWAITD` wait for their phase at a barrier that the slice may use, and `BINIT` opens, resizes or frees one and reports its
phase and generation. -/
def Obligations.BarriersComplete : Prop :=
  ∀ (s : State) (st : SRef) (i : Nat) (h : Hdr) (x : BarImm) (r : Ready) (t : Strand) (sl : Slice),
    let u := s.drain st i
    let b := barKey t.core x
    let n := t.waits.length
    let arrives := fun (op : Option (Bop × Bool)) (hold : Bool) => Host.Outcome.next (φ := Fault) (ρ := Refusal)
      ((u.beginWait st i h [.a] r (.arrive b r.v.a op hold false)).makeArrival st n b r.v.a op hold false).retries
    u.strand? st = some t → u.slice? st.slice = some sl →
    (s.goes st i h [.a] 0 0 r →
      ((∀ c w, u.arrive st b none ≠ .trap c w) →
        exec (.barr h x) s = arrives none false ∧ exec (.bsync h x) s = arrives none true) ∧
      ((∀ c w, u.arrive st b (some (r.v.a, x.bop, x.u)) ≠ .trap c w) →
        exec (.bred h x) s = arrives (some (x.bop, x.u)) true) ∧
      (u.mayUse b sl = true → exec (.bwait h x) s =
        .next ((u.beginWait st i h [.a] r (.phase b (r.v.a.field 31 0) none false)).judgePhase st n b
          (r.v.a.field 31 0) none false)) ∧
      (∀ v, u.initBar sl b (r.v.a.field 15 0) = some v → exec (.binit h x) s =
        .next ((v.consume st i h [.a] r).emitData st i r (barResult (v.bar b).p (v.bar b).gen 0)).retries)) ∧
    (s.goes st i h [.a, .b] 0 0 r → u.mayUse b sl = true → exec (.bwaitd h x) s =
      .next ((u.beginWait st i h [.a, .b] r (.phase b (r.v.a.field 31 0) (some r.v.b.toNat) false)).judgePhase st n b
        (r.v.a.field 31 0) (some r.v.b.toNat) false)) ∧
    (∀ (z : Slot) (tk : Tok) (l : List (Slot × Tok)) (q : Ready), s.takes st i h [.a] z tk l →
      settle h 0 0 ((z, tk) :: l) = some (.settle .go q) → tokOf ((z, tk) :: l) .a = some tk → tk.e = false →
      let r := readyOf ((z, tk) :: l) tk
      u.outRoom st i (u.targets st i) r.tag r.idx = true →
      (r.l = false → exec (.tap h x) s = .next ((u.consume st i h [.a] r).emitData st i r tk.data)) ∧
      (r.l = true → (∀ c w, u.arrive st b none ≠ .trap c w) → exec (.tap h x) s =
        .next ((((u.beginWait st i h [.a] r (.arrive b 0 none false true)).modStrand st fun t =>
          { t with waits := modAt t.waits (t.waits.length - 1) fun w =>
              { w with tok := { w.tok with data := tk.data, e := false } } }).makeArrival st n b 0 none false true).retries)))

/-- R204, R206, R207: an arrival of a strand in the current phase of an OPEN barrier that its slice owns counts there, and
puts the strand one phase on; the arrival that makes A equal to E completes the phase with OK: A takes N, LVAL the
combined value, and P goes on. No other barrier changes, a BROKEN one reports BROKEN, and a slice that does not own a
barrier traps BARSCOPE. -/
def Obligations.ArrivalCounts : Prop :=
  ∀ (s : State) (st : SRef) (b : BarKey) (x : Slice) (t : Strand), s.slice? st.slice = some x → s.strand? st = some t →
    let v := s.bar b
    (s.mayUse b x = false → s.arrive st b none = .trap 0x21 s) ∧
    (s.mayUse b x = true → v.state = .broken → s.arrive st b none = .report (s.arrivalPhase t b) 2 s) ∧
    (s.mayUse b x = true → v.state = .opened → v.p < 2 ^ 32 → s.arrivalPhase t b = v.p →
      ∃ u, s.arrive st b none = .report v.p 0 u ∧ (∀ c, barNum c ≠ barNum b → u.bar c = s.bar c) ∧
        (∃ t', u.strand? st = some t' ∧ Table.get (0, 0) t'.phases (barEntry b) = (v.gen, (v.p + 1) % 2 ^ 32)) ∧
        (v.a + 1 ≠ v.e → u.bar b = { v with a := v.a + 1, val := redCombine v.op v.val (redIdentity v.op) }) ∧
        (v.a + 1 = v.e → v.n ≠ v.e → (u.bar b).p = (v.p + 1) % 2 ^ 32 ∧ (u.bar b).a = v.n ∧ (u.bar b).n = 0 ∧
          (u.bar b).last = 0 ∧ (u.bar b).lval = redCombine v.op v.val (redIdentity v.op) ∧
          (u.bar b).val = v.nval ∧ (u.bar b).nval = redIdentity v.op ∧ (u.bar b).e = v.e ∧ (u.bar b).state = .opened))

/-- R251 to R255: `ENQ` reads its descriptor and makes its append or waits for it, `YIELD` is noted for the commit, `FOPEN`
and `FCLOSE` make their transition and report it, and `FWAIT` and `WAITC` wait. `FWAIT` is released when the scope is DONE or
FREE; a `WAITC` that waits reads its counter again at its station's steps, and the read that finds at least its target ends the
wait and emits the value read. That `FOPEN` ignores elements after the second is the model's choice (log 41). -/
def Obligations.SchedulingComplete : Prop :=
  ∀ (s : State) (st : SRef) (i : Nat) (h : Hdr) (r : Ready) (t : Strand) (x : Slice),
    let u := s.drain st i
    u.strand? st = some t → u.slice? st.slice = some x →
    (s.goes st i h (optB s) 0 0 r →
      (∀ l, u.translate t.core (alignDown r.v.a 64) 1 (.station st i r.tag r.idx) = .ok l →
        u.barred (some st) l.pa 64 = false →
        let v := (u.yardFor (.of t.core) l l.pa 64).touchLoad t.core l l.pa
        v.poisoned l.pa 64 = false → exec (.enq h) s =
          .next ((v.beginWait st i h (optB s) r .append).beginAppend ⟨wordsOf (rdBytes v.mem l.pa 64) 8,
            v.enqHandle x (if (optB s).contains .b then some r.v.b else none), .station st i r.tag r.idx⟩)) ∧
      exec (.yield h) s = .next (((u.modInst st fun y =>
        { y with yield := some (y.yield.getD
          (r.v.a, if (optB s).contains .b then r.v.b else x.desc.getD 2 0)) }).consume st i h (optB s) r).emitData st i r 0)) ∧
    (∀ tag ws v, s.gathers st i h ⟨[.a], 1, 2, false⟩ tag ws v →
      let o := v.openScope ((ws.getD 0 0).field 7 0) (counterAt (ws.getD 1 0))
      exec (.fopen h) s = .next (o.1.emit st i ⟨o.2, tag, 0, true, false⟩)) ∧
    (s.goes st i h [.a] 0 0 r →
      let n := r.v.a.field 7 0
      let w := u.beginWait st i h [.a] r (.scope n)
      exec (.fclose h) s = .next (((u.closeScope n).consume st i h [.a] r).emitData st i r
        (BitVec.ofNat 64 ((u.closeScope n).fscope n).state.code)) ∧
      ((u.fscope n).state = .opened ∨ (u.fscope n).state = .closed → exec (.fwait h) s = .next w) ∧
      ((u.fscope n).state = .done ∨ (u.fscope n).state = .free → exec (.fwait h) s =
        .next (w.release st t.waits.length (BitVec.ofNat 64 (u.fscope n).state.code) false))) ∧
    (t.counterWait i = none → (u.goes st i h [.a, .b] 0 0 r) → ∀ t', (u.drain st i).strand? st = some t' →
      s.acts st i → exec (.waitc h) s =
        .next (((u.drain st i).beginWait st i h [.a, .b] r (.counter (counterAt r.v.a) r.v.b)).repoll st t'.waits.length)) ∧
    (∀ n y, t.counterWait i = some n → s.acts st i → (u.repoll st n).acts st i →
      let v := (u.repoll st n).drain st i
      v.inst? st = some y → y.readies i h [.a, .b] 0 0 true = [] → exec (.waitc h) s = .next v) ∧
    (∀ (n : Nat) (w : Wait) (va target : Word) (l : Xlat) (t' : Strand), t.waits[n]? = some w →
      w.kind = .counter va target → u.translate t.core va 1 (.station st w.node w.tok.tag w.tok.idx) = .ok l →
      u.barred (some st) l.pa 8 = false →
      let y := u.yardFor (.of t.core) l l.pa 8
      let v := y.touchLoad t.core l l.pa
      let d := rdWord v.mem l.pa
      y.poisoned l.pa 8 = false → v.strand? st = some t' → t'.waits[n]? = some w → t'.firstWait n = true →
      (∀ (m : Nat) (z : Wait) (e : Bool), t'.waits[m]? = some z → z.kind ≠ .ready e) →
      (d < target → u.repoll st n = v) ∧
      (target ≤ d → u.repoll st n = (v.modStrand st fun t => { t with waits := dropAt t.waits n }).emit st w.node
        { w.tok with data := d, e := false }))

/-- R237, R253: `FOPEN` takes the lowest FREE entry, else the lowest DONE one, and opens it under its parent, whose CHILD goes up
by 1, unless the parent is FREE or DONE; the entry of every other scope stays. With no entry FREE or DONE, and with a parent
that is, it changes nothing and says so. -/
def Obligations.ScopeOpens : Prop :=
  ∀ (s : State) (p : Nat) (ctr : Word), p < 256 →
    (∀ n, s.freeScope = some n →
      n < 256 ∧ ((s.fscope n).state = .free ∨ (s.fscope n).state = .done) ∧
      (∀ k, k < n → (s.fscope k).state ≠ .free) ∧
      ((s.fscope n).state = .done → (∀ k, k < 256 → (s.fscope k).state ≠ .free) ∧ ∀ k, k < n → (s.fscope k).state ≠ .done)) ∧
    (∀ n, s.freeScope = some n → (s.fscope p).state = .opened ∨ (s.fscope p).state = .closed →
      let u := (s.openScope p ctr).1
      (s.openScope p ctr).2 = BitVec.ofNat 64 n ∧
        u.fscope n = ⟨.opened, p, 0, 0, ctr⟩ ∧ u.fscope p = { s.fscope p with child := (s.fscope p).child + 1 } ∧
        ∀ k, k ≠ n → k ≠ p → u.fscope k = s.fscope k) ∧
    (∀ n, s.freeScope = some n → (s.fscope p).state = .free ∨ (s.fscope p).state = .done →
      s.openScope p ctr = (s, 0x8000000000000002)) ∧
    (s.freeScope = none → s.openScope p ctr = (s, 0x8000000000000001)) ∧
    (s.freeScope = none ↔ ∀ k, k < 256 → (s.fscope k).state = .opened ∨ (s.fscope k).state = .closed)

/-! Memory -/

/-- R184 to R187, R311 to R316, R322: `LD`, `ST`, `LDX`, `STX` and `UPD` without `.l` issue when their effective address has a
translation that permits the access and their leaf takes the type; with `.l` they reach a SCRATCH bank of the slice's own,
or for `LDX` and `STX` a FIFO, and are done as they fire; a streaming load finds the bank's mode and bytes as they were at its
region's start (R271, R283). -/
def Obligations.AccessesIssue : Prop :=
  ∀ (s : State) (st : SRef) (i : Nat) (h : Hdr) (x : MemImm) (r : Ready) (t : Strand) (y : Inst),
    let u := s.drain st i
    let size := accSize h.ty
    let a := effAddr r.v.a 11 x.off.toNat size
    let e := effAddr r.v.a 11 x.off.toNat 1
    let access := fun (kind : AccKind) (cls : Cls) (va : Word) (l : Xlat) (z : Nat) => ({
      node := i, tag := r.tag, idx := r.idx, l := r.l, ops := [], kind := kind, va := va, data := r.v.b, ty := h.ty,
      cls := cls, at' := { l with pa := if z = 0 then l.pa else l.pa / z * z } } : Access)
    u.strand? st = some t → u.inst? st = some y →
    (s.goes st i h [.a] 0 0 r → x.l = false → ∀ l,
      (u.translate t.core (alignDown a size) 1 (.station st i r.tag r.idx) = .ok l →
        exec (.ld h x) s = .next (u.issue st i h [.a] r (access .load x.cls (alignDown a size) l size))) ∧
      (u.translate t.core e 1 (.station st i r.tag r.idx) = .ok l → l.takes h.ty = true →
        exec (.ldx h x) s = .next (u.issue st i h [.a] r (access .ldx x.cls e l 0)))) ∧
    (s.goes st i h [.a, .b] 0 0 r → x.l = false → ∀ l,
      (u.translate t.core (alignDown a size) 2 (.station st i r.tag r.idx) = .ok l →
        exec (.st h x) s = .next (u.issue st i h [.a, .b] r (access .store x.cls (alignDown a size) l size))) ∧
      (u.translate t.core e 2 (.station st i r.tag r.idx) = .ok l → l.takes h.ty = true →
        exec (.stx h x) s = .next (u.issue st i h [.a, .b] r (access .stx x.cls e l 0))) ∧
      (let va := effAddr r.v.a 11 x.off.toNat (laneSize h.ty)
       u.translate t.core va 2 (.station st i r.tag r.idx) = .ok l → u.updTrap va h.ty l.y = none →
        exec (.upd h x) s = .next (u.issue st i h [.a, .b] r (access .upd .random va l 0)))) ∧
    (s.goes st i h [.a] 0 0 r → x.l = true →
      let loads := fun (va : Word) (out : Host.Outcome State Fault Refusal) =>
        let k := localPlace t.core (alignDown va size)
        u.poisoned k size = false →
        (x.cls = .streaming → u.streamMode st (y.snapFor r.tag i) t.core va = some .scratch → out = .next (((u.noteAt st i r.tag).consume st i h [.a] r).emitData st i r
          (rawWord h.ty (leNat ((y.snapFor r.tag i).rdAt k size))))) ∧
        (x.cls ≠ .streaming → u.localMode st t.core va = some .scratch → u.mayGo st i r.tag r.idx = true →
          u.barred (some st) k size = false →
          let v := u.takePlace st i r.tag r.idx
          let w := (v.consume st i h [.a] r).emitData st i r (rawWord h.ty (leNat (u.rdAt k size)))
          out = .next (if x.cls = .ordered then w.hold st i r.tag r.idx k size else w))
      loads a (exec (.ld h x) s) ∧ loads e (exec (.ldx h x) s) ∧
      (u.mayGo st i r.tag r.idx = true → u.localMode st t.core e = some .fifo →
        (x.cls = .streaming → u.streamMode st (y.snapFor r.tag i) t.core e = some .fifo) → ∀ f rest,
        let k := u.bank (localCore t.core e) (localBank e)
        let p := e.field 4 0 / size * size
        let v := u.takePlace st i r.tag r.idx
        k.fifo = f :: rest → exec (.ldx h x) s = .next (((if p + size = 32 then
          v.setBank (localCore t.core e) (localBank e) k.pop else v).consume st i h [.a] r).emitData st i r
            (rawWord h.ty (leNat (((entry32 f).drop p).take size)))))) ∧
    (s.goes st i h [.a, .b] 0 0 r → x.l = true → u.mayGo st i r.tag r.idx = true →
      let stores := fun (va : Word) (out : Host.Outcome State Fault Refusal) =>
        let k := localPlace t.core (alignDown va size)
        u.localMode st t.core va = some .scratch → u.barred (some st) k size = false →
        out = .next (((((u.takePlace st i r.tag r.idx).wrAt k (leBytes r.v.b.toNat size)).consume st i h [.a, .b] r).emitData st i r 0).pairDone st x.cls r.tag r.idx k)
      stores a (exec (.st h x) s) ∧ stores e (exec (.stx h x) s) ∧
      (u.localMode st t.core e = some .fifo → ∀ k,
        (u.bank (localCore t.core e) (localBank e)).stage (e.field 4 0 / size * size) (leBytes r.v.b.toNat size) = some k →
        exec (.stx h x) s = .next ((((u.takePlace st i r.tag r.idx).setBank (localCore t.core e) (localBank e) k).consume
          st i h [.a, .b] r).emitData st i r 0)))

/-- R185, R299, R314: an issued load replies with the bytes of memory, and an issued store writes them, when its place in
nominal order has come; an issued update is accepted into the bin of its key's home slice. -/
def Obligations.AccessesPerform : Prop :=
  ∀ (s : State) (st : SRef) (n : Nat) (t : Strand) (a : Access), s.strand? st = some t → t.pend[n]? = some a →
    s.mayPerform st n a = true →
    (a.kind = .load ∨ a.kind = .ldx → a.cls = .streaming ∨ s.heldOff st a = false →
      let u := s.arriveLoad st t.core a
      u.poisoned a.place a.bytes = false → u.poisoned a.scales.1 a.scales.2 = false →
      let o := a.value (u.env st) (u.reader st a)
      let v := (u.complete st n a o.1).raise st o.2
      exec (.loadReply st n) s = .next (if a.cls = .ordered then v.hold st a.node a.tag a.idx a.place a.bytes else v)) ∧
    (a.kind = .store ∨ a.kind = .stx → s.heldOff st a = false →
      let u := (s.takePlace st a.node a.tag a.idx).yardFor (.of t.core) a.at' a.place a.bytes
      let o := a.writes (u.env st) (u.reader st a)
      let v := u.through (o.1.foldl (fun (s : State) w => s.wrAt w.1 w.2) u) a.at' a.place a.bytes
      exec (.storePerform st n) s =
        .next ((((v.touchStore t.core a.place a.bytes).complete st n a 0).raise st o.2).pairDone st a.cls a.tag a.idx a.place)) ∧
    (∀ g, a.kind = .upd → s.updTrap a.va a.ty a.at'.y = none → s.regionAt false a.va.toNat = some g →
      let size := (s.region g).size
      let pa := a.at'.pa / size * size
      s.barred (some st) pa size = false → ∀ u,
      (s.takePlace st a.node a.tag a.idx).binUpdate g (a.va.toNat / size * size) pa (lane a.ty a.data 0) = some u →
      exec (.updateAccept st n) s = .next ((u.touchStore t.core pa size).complete st n a 0))

/-- R184 to R187, R314, R316, R317, R320, R327: a plain load reads as many bytes as its type has, little-endian, and `.f` leaves bits [63:32] zero; what
a plain store writes at an address, a plain load there reads back. A plain store changes the bytes of its access, which
start at its translated address aligned to its size, and no other byte of memory; it changes no byte of local space, no
other strand's instance or issued accesses, no package register, and no register of a strand. Through a page of CA = 10 its
bytes stand under the other name of their HBM cells too (R266). It holds on pages outside the sort yard. There a load's reply changes no byte, an `STX` only the bytes of
the elements that it writes, and an `ATOM` only those of its element; a store to local space, `STE` and `STF` change only the
bytes of their access, and `TST` only those of its element. -/
def Obligations.StoreFrame : Prop :=
  (∀ (s : State) (k : Nat) (ty : Ty) (w : Word), k + 8 ≤ 281474976710656 →
    let bs := leBytes w.toNat (accSize ty)
    bs.length = accSize ty ∧ rawWord ty (leNat bs) = (if ty = .f then BitVec.ofNat 64 (w.toNat % 2 ^ 32) else w) ∧
      (s.wrAt k bs).rdAt k (accSize ty) = bs ∧
      ∀ a n, a + n ≤ k ∨ k + accSize ty ≤ a → a + n ≤ 281474976710656 → (s.wrAt k bs).rdAt a n = s.rdAt a n) ∧
  (∀ (s t : State) (st : SRef) (n : Nat) (x : Strand) (a : Access), s.strand? st = some x → x.pend[n]? = some a →
    a.kind = .store → a.at'.y = false →
    a.at'.pa < 281474976710656 → exec (.storePerform st n) s = .next t →
    let k := a.at'.pa / accSize a.ty * accSize a.ty
    (s.mayPerform st n a = true → s.heldOff st a = false →
      rdBytes t.mem k (accSize a.ty) = leBytes a.data.toNat (accSize a.ty)) ∧
    (∀ b, b < k ∨ k + accSize a.ty ≤ b →
      (a.at'.ca = 2 → ∀ k2, otherName k = some k2 → b < k2 ∨ k2 + accSize a.ty ≤ b) → rdByte t.mem b = rdByte s.mem b) ∧ t.loc = s.loc ∧
    (∀ r, t.packageReg r = s.packageReg r) ∧
    (∀ q z z', s.strand? q = some z → t.strand? q = some z' → (q ≠ st → z'.inst = z.inst ∧ z'.pend = z.pend) ∧
      z'.regs = z.regs ∧ z'.fpc = z.fpc ∧ z'.fflags = z.fflags ∧ z'.pc = z.pc ∧ z'.csdepth = z.csdepth ∧ z'.ovfptr = z.ovfptr)) ∧
  (∀ (s t : State) (st : SRef) (n : Nat) (x : Strand) (a : Access), s.strand? st = some x → x.pend[n]? = some a →
    a.at'.y = false →
    let u := s.takePlace st a.node a.tag a.idx
    let ws := (a.writes (u.env st) (u.reader st a)).1
    (exec (.loadReply st n) s = .next t → (∀ b, rdByte t.mem b = rdByte s.mem b) ∧ t.loc = s.loc) ∧
    (exec (.storePerform st n) s = .next t → a.at'.pa < 281474976710656 → (∀ w ∈ ws, w.1 < 281474976710656) →
      (∀ b, (∀ w ∈ ws, b < w.1 ∨ w.1 + w.2.length ≤ b) →
        (a.at'.ca = 2 → ∀ k2, otherName a.place = some k2 → b < k2 ∨ k2 + a.bytes ≤ b) → rdByte t.mem b = rdByte s.mem b) ∧
      t.loc = s.loc)) ∧
  (∀ (s t : State) (st : SRef) (i : Nat) (h : Hdr) (x : AtomImm) (r : Ready) (z : Strand) (l : Xlat),
    let u := s.drain st i
    let size := if h.ty = .q then 8 else 4
    u.strand? st = some z → s.goes st i h (if x.aop = .cas then [.a, .b, .c] else [.a, .b]) 0 0 r →
    u.translate z.core (alignDown (effAddr r.v.a 10 x.off.toNat size) size) 3 (.station st i r.tag r.idx) = .ok l →
    l.y = false → l.pa < 281474976710656 → exec (.atom h x) s = .next t →
    (∀ b, b < l.pa ∨ l.pa + size ≤ b →
      (l.ca = 2 → ∀ k2, otherName l.pa = some k2 → b < k2 ∨ k2 + size ≤ b) → rdByte t.mem b = rdByte s.mem b) ∧ t.loc = s.loc) ∧
  (∀ (s t : State) (st : SRef) (i : Nat) (h : Hdr) (r : Ready) (z : Strand), (s.drain st i).strand? st = some z →
    s.goes st i h [.a, .b] 0 0 r →
    let outside := fun (k n : Nat) => ∀ b, b + 281474976710656 < k ∨ k + n ≤ b + 281474976710656 →
      rdByte t.loc b = rdByte s.loc b
    let size := accSize h.ty
    (∀ x : MemImm,
      let a := alignDown (effAddr r.v.a 11 x.off.toNat size) size
      let e := alignDown (effAddr r.v.a 11 x.off.toNat 1) size
      (exec (.st h x) s = .next t ∨ exec (.ste h x) s = .next t ∨ exec (.stf h x) s = .next t →
        outside (localPlace z.core a) size) ∧
      (exec (.stx h x) s = .next t → outside (localPlace z.core e) size)) ∧
    (∀ x : TileImm, exec (.tst h x) s = .next t →
      let e := (s.drain st i).tile (z.tileKey x.tile.toNat)
      let sp := e.span h.ty (e.at' z.core r.v.a.toNat)
      outside sp.1 sp.2))

/-- R273, R317, R318: `LDF`, `LDFK`, `STE` and `STF` act when every word that they cover is in the state that they need and their
turn has come, and leave the words empty, full, full and full; each step of a `FESET` sets the bit of the next of its b
words from bit 0 of c, and the last one, or b = 0, ends it. -/
def Obligations.FullEmptyComplete : Prop :=
  ∀ (s : State) (st : SRef) (i : Nat) (h : Hdr) (x : MemImm) (r : Ready) (t : Strand),
    let u := s.drain st i
    let size := accSize h.ty
    let a := alignDown (effAddr r.v.a 11 x.off.toNat size) size
    let k := localPlace t.core a
    let ws := (List.range (size / 4)).map fun n => (k - 281474976710656) / 4 + n
    let q := fun (want : Nat) => (t.reqOf i r.tag r.idx).getD ⟨i, r.tag, r.idx, ws, want, u.cycles⟩
    let leaves := fun (v : State) (data : List Slot) (full : Bool) (w : Word) => Host.Outcome.next (φ := Fault) (ρ := Refusal)
      ((((v.setFull full ws).dropReq st i r.tag r.idx).consume st i h data r).emitData st i r w)
    let v := u.takePlace st i r.tag r.idx
    let loaded := rawWord h.ty (leNat (v.rdAt k size))
    let stored := v.wrAt k (leBytes r.v.b.toNat size)
    u.strand? st = some t →
    (u.localMode st t.core a = some .scratch → u.barred (some st) k size = false →
      ((t.reqOf i r.tag r.idx).isSome = true ∨ u.mayGo st i r.tag r.idx = true) →
      (s.goes st i h [.a] 0 0 r → u.poisoned k size = false → u.reqMet (q 1) = true → u.servedLater st t (q 1) = false →
        exec (.ldf h x) s = leaves v [.a] false loaded ∧ exec (.ldfk h x) s = leaves v [.a] true loaded) ∧
      (s.goes st i h [.a, .b] 0 0 r → exec (.stf h x) s = leaves stored [.a, .b] true 0 ∧
        (u.reqMet (q 0) = true → u.servedLater st t (q 0) = false →
          exec (.ste h x) s = leaves stored [.a, .b] true 0))) ∧
    (∀ nd, s.goes st i h [.a, .b, .c] 0 0 r → u.node? st i = some nd →
      let run := nd.fesetDone r.tag r.idx
      run.isSome = true ∨ (nd.ext.fesetRun = none ∧ u.mayGo st i r.tag r.idx = true) →
      let f := alignDown (effAddr r.v.a 11 x.off.toNat 4) 4
      let n := r.v.b.field 31 0
      let ends := fun (v : State) => (v.consume st i h [.a, .b, .c] r).emitData st i r 0
      (n = 0 → exec (.feset h x) s = .next (ends u)) ∧
      (u.localMode st t.core f = some .scratch → 0 < n → n ≤ 65536 → f.field 17 0 + 4 * n ≤ 262144 →
        let k := run.getD 0
        let w := (if run.isNone then u.takePlace st i r.tag r.idx else u).setFull (r.v.c.bit 0)
          [(localPlace t.core f - 281474976710656) / 4 + k]
        exec (.feset h x) s = .next (if k + 1 < n then w.modNode st i fun m => { m with ext := .feset (some (r.tag, r.idx, k + 1)) }
          else ends (w.modNode st i fun m => { m with ext := .feset none }))))

/-- R320, R321, R323 to R325, R290: `ATOM` reads, writes and emits the old element in one step; `PREF` and `FLUSH` emit their
completion token; `WAITM` arms with a load of its sector, or answers 3 when its core has no monitor free; a watch ends with the cause of its wake, or with 4 after 2²⁰
cycles. -/
def Obligations.AtomicsComplete : Prop :=
  ∀ (s : State) (st : SRef) (i : Nat) (h : Hdr) (r : Ready) (t : Strand),
    let u := s.drain st i
    u.strand? st = some t →
    (∀ (x : AtomImm) (l : Xlat),
      let data := if x.aop = .cas then [Slot.a, .b, .c] else [.a, .b]
      let size := if h.ty = .q then 8 else 4
      let v := ((u.takePlace st i r.tag r.idx).yardFor (.of t.core) l l.pa size).hostSend .read l.pa []
      let old := leNat (v.rdAt l.pa size)
      let o := atomNew x.aop h.ty (v.env st) old (lane h.ty r.v.b 0) (lane h.ty r.v.c 0)
      let w := if x.aop = .cas ∧ old ≠ lane h.ty r.v.b 0 then v
        else v.through (v.wrAt l.pa (leBytes o.1 size)) l l.pa size
      s.goes st i h data 0 0 r →
      u.translate t.core (alignDown (effAddr r.v.a 10 x.off.toNat size) size) 3 (.station st i r.tag r.idx) = .ok l →
      u.mayGo st i r.tag r.idx = true → u.barred (some st) l.pa size = false → v.poisoned l.pa size = false →
      exec (.atom h x) s = .next ((((w.touchStore t.core l.pa size).consume st i h data r).raise st o.2).emitData st i r
        (BitVec.ofNat 64 old))) ∧
    (∀ (x : MemImm), s.goes st i h [.a] 0 0 r →
      let va := fun (n : Nat) => alignDown (effAddr r.v.a 11 x.off.toNat n) n
      exec (.pref h x) s = .next (((if x.cls = .random then u.prefetch t.core (va 64) else u).consume st i h [.a]
        r).emitData st i r 0) ∧
      (∀ l, u.translateBy t.core (va 64) 0 (fun leaf => decide (leaf.field 3 1 ≠ 0)) (.station st i r.tag r.idx) = .ok l →
        exec (.flush h x) s = .next ((({ u.writeBack l.pa with
          cfgCache := (u.writeBack l.pa).cfgCache.filter fun c =>
            !(c.core == t.core && overlap c.block.image.toNat c.block.size (va 64).toNat 64) } : State).consume st i h [.a]
              r).emitData st i r 0)) ∧
      (∀ l, u.translate t.core (va 32) 1 (.station st i r.tag r.idx) = .ok l → u.mayGo st i r.tag r.idx = true →
        u.barred (some st) l.pa 32 = false →
        let y := (u.takePlace st i r.tag r.idx).yardFor (.of t.core) l l.pa 32
        let v := y.touchLoad t.core l l.pa
        y.poisoned l.pa 32 = false →
        (v.watches t.core < Config.watchSize → v.hasTold st i r.tag r.idx = false →
          exec (.waitm h x) s = .next (v.beginWait st i h [.a] r (.monitor (l.pa / 32) u.cycles 0))) ∧
        (Config.watchSize ≤ v.watches t.core → v.owesTag st i r.tag = false →
          exec (.waitm h x) s = .next ((v.consume st i h [.a] r).emitData st i r 3)))) ∧
    (∀ (n sec armed seen : Nat) (w : Wait) (z : Strand), s.strand? st = some z → z.waits[n]? = some w →
      w.kind = .monitor sec armed seen → s.runs st = true → z.firstWait n = true →
      (∀ c, c = 2 ∨ c = 3 ∨ (c = 1 ∧ seen = 1) →
        exec (.waitmWake st n c) s = .next (s.endWait st n (BitVec.ofNat 64 c) false)) ∧
      (armed + 1048576 ≤ s.cycles → exec (.waitmTimeout st n) s = .next (s.endWait st n 4 false)))

/-! Tiles and banks -/

/-- Whether the turn of an element that waits for a tile has come (R277). -/
def Sys2Proof.Machine.atTurn (s : State) (t : Strand) (i : Nat) (r : Ready) (k want : Nat) : Bool :=
  tileMet want (s.tile k) &&
    s.tileTurn t k ((t.reqOf i r.tag r.idx).getD ⟨i, r.tag, r.idx, [tileReq k], want, s.cycles⟩).seq i

/-- R274 to R277, R326 to R329: `TDEF`, `TFREE` and `TREADY` change an entry that is neither FILLING nor DRAINING when their turn has
come, `TSTATE` reads it, `TLD` and `TST` access an element of a tile that their stream has taken or now takes, and `BANKMODE` changes the
mode of a bank that its strand owns and that holds nothing, and emits the mode that it had. A bank that
enters a mode has every byte 0 and every word empty, and no other bank changes (R268, R269). -/
def Obligations.TilesComplete : Prop :=
  (∀ (s : State) (st : SRef) (i : Nat) (h : Hdr) (r : Ready) (t : Strand),
    let u := s.drain st i
    u.strand? st = some t →
    (∀ (x : TileImm), s.goes st i h [.a] 0 0 r →
      let k := t.tileKey x.tile.toNat
      let changes := fun (v : State) (e : TileEnt) => Host.Outcome.next (φ := Fault) (ρ := Refusal)
        (((v.setTile k e).consume st i h [.a] r).emitData st i r 0)
      let free := u.dropReq st i r.tag r.idx
      exec (.tstate h x) s = .next (((u.noteAt st i r.tag).consume st i h [.a] r).emitData st i r (u.tile k).low) ∧
      ((u.tile k).defd = true → atTurn u t i r k 5 = true →
        exec (.tfree h x) s = changes (free.noteAt st i r.tag) TileEnt.reset ∧
        exec (.tready h x) s = changes (free.noteAt st i r.tag) { free.tile k with state := .ready }) ∧
      (∀ l e, u.translate t.core (alignDown r.v.a 16) 1 (.station st i r.tag r.idx) = .ok l →
        ((t.reqOf i r.tag r.idx).isSome = true ∨ u.mayGo st i r.tag r.idx = true) →
        u.barred (some st) l.pa 16 = false →
        let v := u.yardFor (.of t.core) l l.pa 16
        let ws := wordsOf (v.rdAt l.pa 16) 2
        v.poisoned l.pa 16 = false →
        shapeOf (ws.getD 0 0) (ws.getD 1 0) = some e →
        v.tileFits st t e = true → atTurn v t i r k 5 = true →
        exec (.tdef h x) s = changes (((v.dropReq st i r.tag r.idx).takePlace st i r.tag r.idx).touchLoad t.core l l.pa) e)) ∧
    (∀ (x : TileImm) (nd : Node) (fill : Bool), u.node? st i = some nd →
      ((t.reqOf i r.tag r.idx).isSome = true ∨ u.mayGo st i r.tag r.idx = true) →
      let k := t.tileKey x.tile.toNat
      let e := u.tile k
      let first := decide (nd.ext.tileTag = none)
      nd.ext.tileTag = some r.tag ∨ (nd.ext.tileTag = none ∧ atTurn u t i r k (if fill then 0 else 2) = true) →
      let b := if first then u.dropReq st i r.tag r.idx else u
      let w := e.at' t.core r.v.a.toNat
      let span := e.span h.ty w
      let q := w.scaleBytes e.fmt h.ty
      let p := b.takePlace st i r.tag r.idx
      let v := if first then (p.setTile k { e with state := if fill then .filling else .draining }).modNode st i fun m =>
        { m with ext := .tile (some r.tag) } else p
      e.defd = true → e.trapOf h.ty r.v.a.toNat = none → e.open' b st t.core h.ty w = true →
      b.barred (some st) span.1 span.2 = false → b.barred (some st) q.1 q.2 = false →
      (fill = false → s.goes st i h [.a] 0 0 r → b.poisoned span.1 span.2 = false → b.poisoned q.1 q.2 = false →
        let rd := v.tileReader
        let o := if e.fmt = 0 then (rawWord h.ty (rd (w.base + 8 * w.first) (accSize h.ty)), 0)
          else loadElems rd e.fmt h.ty (v.env st) w
        exec (.tld h x) s = tileSettled x (if x.keep then .ready else .empty)
          (.next (((v.consume st i h [.a] r).raise st o.2).emitData st i r o.1))) ∧
      (fill = true → s.goes st i h [.a, .b] 0 0 r →
        let o := if e.fmt = 0 then ([(w.base + 8 * w.first, leBytes r.v.b.toNat (accSize h.ty))], 0)
          else storeElems v.tileReader e.fmt h.ty (v.env st) w r.v.b
        exec (.tst h x) s = tileSettled x .ready (.next ((((o.1.foldl (fun (s : State) p =>
          s.wrAt p.1 p.2) v).consume st i h [.a, .b] r).raise st o.2).emitData st i r 0)))) ∧
    (∀ (x : BankImm) (o : Strand), s.goes st i h [.a] 0 0 r → u.bankOwner t.core x.bank.toNat = some (st, o) →
      u.mayGo st i r.tag r.idx = true →
      let k := u.bank t.core x.bank.toNat
      let v := u.takePlace st i r.tag r.idx
      let done := fun (v : State) => Host.Outcome.next (φ := Fault) (ρ := Refusal)
        ((v.consume st i h [.a] r).emitData st i r (k.mode.code.setWidth 64))
      (k.mode = x.mode → exec (.bankmode h x) s = done v) ∧
      (k.mode ≠ x.mode → k.holds = false → exec (.bankmode h x) s = done (v.enterMode t.core x.bank.toNat x.mode)))) ∧
  (∀ (s : State) (core b : Nat) (m : Mode), 2 ≤ b → b < 16 →
    (∀ k, k < 262144 → rdByte (s.enterMode core b m).loc (localKey core b k) = 0) ∧
    (∀ k, k < 65536 → (s.enterMode core b m).fullBit (localKey core b 0 / 4 + k) = false) ∧
    (s.enterMode core b m).bank core b = ⟨m, [], [], [], 0⟩ ∧
    (∀ c d, c ≠ core ∨ d ≠ b → d < 16 → (s.enterMode core b m).bank c d = s.bank c d ∧
      ∀ k, k < 262144 → rdByte (s.enterMode core b m).loc (localKey c d k) = rdByte s.loc (localKey c d k)))

/-! Messages -/

/-- What a named message instruction sends (R378 to R394): header fields, the operands it gathers, port and operation, and the
words that it lays out with the reply word. -/
structure Sys2Proof.Machine.MsgRule where
  hdr : Hdr
  imm : EngImm
  want : Want
  port : Nat
  oper : Nat
  lay : List Word → List Word × Word

/-- Words in order, from operand `k` on. -/
def Sys2Proof.Machine.opnds (o : List Word) (n : Nat) : List Word := (List.range n).map fun k => o.getD k 0

/-- R385 to R394: the message instructions. -/
def Sys2Proof.Machine.msgRule : Instr → Option MsgRule
  | .copy h dec x => some ⟨h, x, ⟨[.a, .b, .c], 3, 4, true⟩, 0, 0x01, fun o => (opnds o 3 ++ [Word.ofBool dec], o.getD 3 0)⟩
  | .cfill h x => some ⟨h, x, ⟨[.a, .b, .c], 3, 4, true⟩, 0, 0x05, fun o => (opnds o 3, o.getD 3 0)⟩
  | .put h x => some ⟨h, x, ⟨[.a, .b, .c], 4, 5, true⟩, 0, 0x06, fun o =>
      (opnds o 3 ++ [BitVec.ofNat 64 ((o.getD 3 0).toNat % 64)], o.getD 4 0)⟩
  | .get h x => some ⟨h, x, ⟨[.a, .b, .c], 4, 5, true⟩, 0, 0x07, fun o =>
      (opnds o 3 ++ [BitVec.ofNat 64 ((o.getD 3 0).toNat % 64)], o.getD 4 0)⟩
  | .copy2In h dec x => some ⟨h, x, ⟨[.a], 1, 3, true⟩, 0, 0x02, fun o =>
      ([BitVec.ofNat 64 (x.td.toNat + if dec then 32 else 0), o.getD 0 0, o.getD 1 0], o.getD 2 0)⟩
  | .copy2Out h dec x => some ⟨h, x, ⟨[.a], 1, 3, true⟩, 0, 0x02, fun o =>
      ([BitVec.ofNat 64 (x.ts1.toNat + 16 + if dec then 32 else 0), o.getD 0 0, o.getD 1 0], o.getD 2 0)⟩
  | .gath h x => some ⟨h, x, ⟨[.a, .b], 2, 4, true⟩, 0, 0x03, fun o => (BitVec.ofNat 64 x.td.toNat :: opnds o 3, o.getD 3 0)⟩
  | .scat h x => some ⟨h, x, ⟨[.a, .b], 2, 4, true⟩, 0, 0x04, fun o => (BitVec.ofNat 64 x.ts1.toNat :: opnds o 3, o.getD 3 0)⟩
  | .ldw h x => some ⟨h, x, ⟨[.a, .b], 1, 2, true⟩, 1, 0x10, fun o => ([BitVec.ofNat 64 x.ts1.toNat], o.getD 1 0)⟩
  | .swapw h x => some ⟨h, x, ⟨[.a, .b], 1, 2, true⟩, 1, 0x11, fun o => ([], o.getD 1 0)⟩
  | .mma h x => some ⟨h, x, ⟨[.a, .b], 1, 2, true⟩, 1, 0x12, fun o =>
      ([BitVec.ofNat 64 x.ts1.toNat, BitVec.ofNat 64 ((o.getD 0 0).field 9 0)], o.getD 1 0)⟩
  | .accrd h x => some ⟨h, x, ⟨[.a, .b], 1, 2, true⟩, 1, 0x13, fun o =>
      ([BitVec.ofNat 64 (16 * x.td.toNat), BitVec.ofNat 64 ((o.getD 0 0).field 9 0)], o.getD 1 0)⟩
  | .accz h x => some ⟨h, x, ⟨[.a, .b], 1, 2, true⟩, 1, 0x14, fun o =>
      ([0, BitVec.ofNat 64 ((o.getD 0 0).field 9 0), BitVec.ofNat 64 ((o.getD 0 0).field 20 10),
        BitVec.ofNat 64 ((o.getD 0 0).field 21 21)], o.getD 1 0)⟩
  | .mmaw h x => some ⟨h, x, ⟨[.a, .b], 1, 2, true⟩, 1, 0x15, fun o =>
      ([BitVec.ofNat 64 (x.ts1.toNat + 16 * x.td.toNat), BitVec.ofNat 64 ((o.getD 0 0).field 9 0)], o.getD 1 0)⟩
  | .yardDefine h x => some ⟨h, x, ⟨[.a, .b, .c], 3, 5, true⟩, 2, 0x20, fun o => (opnds o 4, o.getD 4 0)⟩
  | .yardApply h x => some ⟨h, x, ⟨[.a, .b], 1, 2, true⟩, 2, 0x21, fun o => ([BitVec.ofNat 64 ((o.getD 0 0).field 7 0)], o.getD 1 0)⟩
  | .yardReset h x => some ⟨h, x, ⟨[.a, .b], 1, 2, true⟩, 2, 0x22, fun o => ([BitVec.ofNat 64 ((o.getD 0 0).field 7 0)], o.getD 1 0)⟩
  | .yardStat h x => some ⟨h, x, ⟨[.a, .b], 1, 3, true⟩, 2, 0x23, fun o =>
      ([BitVec.ofNat 64 ((o.getD 0 0).field 7 0), o.getD 1 0], o.getD 2 0)⟩
  | .yardClose h x => some ⟨h, x, ⟨[.a, .b], 1, 2, true⟩, 2, 0x24, fun o => ([BitVec.ofNat 64 ((o.getD 0 0).field 7 0)], o.getD 1 0)⟩
  | .roteOpen h x => some ⟨h, x, ⟨[.a, .b, .c], 3, 4, true⟩, 3, 0x30, fun o =>
      ([BitVec.ofNat 64 ((o.getD 0 0).field 11 0), o.getD 1 0, o.getD 2 0], o.getD 3 0)⟩
  | .roteAppend h x => some ⟨h, x, ⟨[.a, .b, .c], 3, 4, true⟩, 3, 0x31, fun o =>
      ([BitVec.ofNat 64 ((o.getD 0 0).field 11 0), o.getD 1 0, o.getD 2 0], o.getD 3 0)⟩
  | .rotePropose h x => some ⟨h, x, ⟨[.a, .b, .c], 3, 4, true⟩, 3, 0x32, fun o =>
      ([BitVec.ofNat 64 ((o.getD 0 0).field 11 0), o.getD 1 0, o.getD 2 0], o.getD 3 0)⟩
  | .roteStat h x => some ⟨h, x, ⟨[.a, .b], 2, 3, true⟩, 3, 0x33, fun o =>
      ([BitVec.ofNat 64 ((o.getD 0 0).field 11 0), o.getD 1 0], o.getD 2 0)⟩
  | .roteSave h x => some ⟨h, x, ⟨[.a, .b], 2, 3, true⟩, 3, 0x34, fun o =>
      ([BitVec.ofNat 64 ((o.getD 0 0).field 11 0), o.getD 1 0], o.getD 2 0)⟩
  | .roteLoad h x => some ⟨h, x, ⟨[.a, .b], 2, 3, true⟩, 3, 0x35, fun o =>
      ([BitVec.ofNat 64 ((o.getD 0 0).field 11 0), o.getD 1 0], o.getD 2 0)⟩
  | .roteClose h x => some ⟨h, x, ⟨[.a, .b], 1, 2, true⟩, 3, 0x36, fun o =>
      ([BitVec.ofNat 64 ((o.getD 0 0).field 11 0)], o.getD 1 0)⟩
  | _ => none

/-- R378 to R394: the 26 named message instructions and `SEND` fire when they have gathered their operands and no check of R383
traps, and their message stands among the strand's messages: the header stamped with the issuer and the captured
rounding mode, the words as `msgRule` lays them out, and the reply route or the counter. -/
def Obligations.MessagesFire : Prop :=
  ∀ (s v : State) (st : SRef) (i : Nat) (tag : Nat) (ws : List Word) (t : Strand), v.strand? st = some t →
    (∀ (k : Instr) (m : MsgRule), msgRule k = some m → s.gathers st i m.hdr m.want tag ws v →
      let msg := messageWords m.port m.oper m.imm.done (m.lay ws)
      v.messageTrap st t msg = none →
      exec k s = .next (v.fireMessage st i tag (v.stamped st t i tag msg m.imm.done) m.imm.done true none)) ∧
    (∀ (h : Hdr) (x : EngImm), s.gathers st i h ⟨[.a], 8, 8, true⟩ tag ws v →
      exec (.send h x) s = .next (v.fireMessage st i tag (v.stamped st t i tag ws ((ws.getD 0 0).bit 47 && x.done)) x.done
        false (v.messageFault st t ws x.done)))

/-- R378, R382: where each slot of an instruction that fires once for a tag holds the one-element stream of that tag, and
there is no predicate, its operands are gathered: the words are the slots' in order. -/
def Obligations.OperandsGathered : Prop :=
  ∀ (s : State) (st : SRef) (i : Nat) (h : Hdr) (w : Want) (x : Inst) (nd : Node) (tag : Nat) (d : Slot → Word) (n : Slot → Nat),
    s.acts st i → s.inst? st = some x → x.nodes[i]? = some nd → nd.outq = [] → nd.antiOut = [] → h.pv = false →
    w.slots = [.a] ∨ w.slots = [.a, .b] ∨ w.slots = [.a, .b, .c] → nd.fed = w.slots →
    (∀ sl ∈ w.slots, nd.buf sl = [.tok ⟨d sl, tag, 0, true, false⟩ (n sl)]) → nd.serves 0 = true → nd.ext.gathers = [] →
    w.need ≤ w.slots.length → w.slots.length ≤ w.all →
    ∃ v, s.gathers st i h w tag (w.slots.map d) v

/-- R339 to R341, R343, R344: a message whose tiles are in their states and first there enters its inbox when the inbox has
room and no message of the strand that became ready before it still has to leave, its tiles FILLING and DRAINING; and an ended operation leaves with its reply: its done token, or its counter add. The add
takes the count up in bits [62:0], and bit 63 is set by an error and stays. -/
def Obligations.MessagesRun : Prop :=
  (∀ (s : State) (st : SRef) (n : Nat) (t : Strand) (m : Msg), s.strand? st = some t → t.msgs[n]? = some m →
    s.runs st = true → (m.port = 1 → ∀ o ∈ t.msgs.take n, o.port ≠ 1) → m.fault = none → s.msgTurn t m = true →
    s.leavesAfter t n m = false →
    (∀ k ∈ m.fills ++ m.drains, (s.tile k).defd = true) → s.inboxLoad (inboxOf m.words) < Config.inboxSize →
    exec (.messageIssue st n) s = .next (s.issueMessage st t n m) ∧
      ((m.done = true → (m.words.getD 0 0).bit 47 = true) →
        (s.issueMessage st t n m).ops = s.ops ++ [s.opOf t m .inbox 0 0])) ∧
  (∀ (s : State) (n : Nat) (o : Op), s.op? n = some o → o.stage = .ended → o.trap = none →
    let gone := { s with ops := dropAt s.ops n }
    (o.done = true → exec (.operationReply n) s = .next (gone.deliverDone o)) ∧
    (∀ v, o.done = false → gone.replyCounter o = some v → exec (.operationReply n) s = .next v)) ∧
  (∀ (w inc : Nat) (flag : Bool), w < 2 ^ 64 →
    counterWord w inc flag < 2 ^ 64 ∧ counterWord w inc flag % 2 ^ 63 = (w % 2 ^ 63 + inc) % 2 ^ 63 ∧
    ((counterWord w inc flag).testBit 63 = true ↔ flag = true ∨ w.testBit 63 = true) ∧
    ∀ (s : State) (by' : Party) (x : Xlat), x.pa + 8 ≤ 2 ^ 40 → rdNum (s.counterAdd by' x inc flag).mem x.pa 8 =
      counterWord (rdNum (s.yardFor by' x x.pa 8).mem x.pa 8) inc flag)

/-! System instructions -/

/-- R439 to R443, R448, R449: `TRAP` traps SWTRAP with its code, `RDSR` emits its register, `WRSR` notes its write for the
commit when its operand is the block-tag token that carries L, `SWITCH` sends a switch token to each target, `PATCH` leaves
its words pending, or without SWITCH has them take effect at its END (R80), `TLBI` invalidates, and `PMAP` emits what its walk ends in. -/
def Obligations.SystemComplete : Prop :=
  ∀ (s : State) (st : SRef) (i : Nat) (h : Hdr) (r : Ready) (x : Slice) (t : Strand) (y : Inst),
    let u := s.drain st i
    u.slice? st.slice = some x → u.strand? st = some t → u.inst? st = some y →
    (s.goes st i h [.a] 0 0 r →
      (∀ c, exec (.trap h c) s = .next (u.trapStation st i 0x08 c.toNat r.tag r.idx 0 0)) ∧
      (∀ k : BitVec 6, x.sup = true ∨ k.toNat < 32 →
        exec (.rdsr h k) s = .next (u.answer h [.a] st i r (u.readSreg x t k.toNat)) ∧
        exec (.wrsr h k) s = .next (if r.tag = 0 ∧ r.l = true then
          (u.answer h [.a] st i r 0).modInst st fun z => { z with swrites := z.swrites ++ [(k.toNat, r.v.a)] }
          else u.answer h [.a] st i r 0)) ∧
      (∀ v cmds ws gen, (y.nodes.any fun nd => !nd.pend.isEmpty) = false →
        u.readStream st t.core i r.tag r.idx 257 (alignDown r.v.a 4).toNat [] = .ok v cmds →
        patchOf x.pages cmds = some (ws, gen) →
        y.patchFault x.pages (y.withWrites ws) (y.spareWrites ws) = none → exec (.patch h) s =
          .next (((v.consume st i h [.a] r).setPending st gen (y.withWrites ws) (y.spareWrites ws)).emitData st i r 0)) ∧
      (∀ z : TlbiImm, x.sup = true →
        exec (.tlbi h z) s = .next ((u.invalidate r.v.a z.all z.replay).answer h [.a] st i r 0))) ∧
    (s.goes st i h (optB s) 0 0 r →
      exec (.switch h) s = .next ((u.consume st i h (optB s) r).out st i (.switch y.patchGen (u.targets st i)))) ∧
    (s.goes st i h (optB s) 0 0 r → x.sup = true →
      exec (.pmap h) s = .next (u.answer h (optB s) st i r (pmapWord (u.pmapWalk t.core r.v.a)
        (if (optB s).contains .b then r.v.b.field 2 0 else 0))))

/-- R444 to R447: `FREEZE` of a slice that runs begins its wave and waits, and on one that stands frozen is done, or writes it
out where it asks for the image; `THAW` of an image makes its slice a candidate and emits its `sliceid`, and of a slice frozen in place lets it go on and waits; `ABORT`
of a frozen slice ends it, and of one that runs begins its wave and waits; each refuses what R444 to R447 refuse with bit
63 and the code. That code 1 answers `FREEZE` of a slice written out is the model's reading (log 48), and so is which of its
codes `THAW` gives where several apply (log 47). -/
def Obligations.SliceControlComplete : Prop :=
  ∀ (s : State) (st : SRef) (i : Nat) (h : Hdr) (r : Ready) (x : Slice) (t : Strand),
    let u := s.drain st i
    let emits := fun (v : State) (d : List Slot) (w : Word) => Host.Outcome.next (φ := Fault) (ρ := Refusal)
      (v.answer h d st i r w)
    u.slice? st.slice = some x → x.sup = true → u.strand? st = some t →
    (s.goes st i h (optB s) 0 0 r →
      let d := optB s
      let write := d.contains .b && r.v.b.bit 0
      (∀ c, u.named st r.v.a = .error c → exec (.freeze h) s = emits u d (refusedWord c)) ∧
      (∀ z, u.named st r.v.a = .ok z →
        (z.live = true ∨ z.status = .halting → exec (.freeze h) s =
          .next ((u.beginWait st i h d r (.freeze z.id write)).beginWave z.id .freeze)) ∧
        (z.status = .evicted → exec (.freeze h) s = emits u d (refusedWord 1)) ∧
        (z.status = .frozen → write = false → exec (.freeze h) s = emits (u.overtake z .freeze) d 0) ∧
        (z.status = .frozen → write = true →
          let asked := ((u.overtake z .freeze).beginWait st i h d r (.freeze z.id true)).freezeOut z
          (∀ v, asked = some v → exec (.freeze h) s = .next v) ∧
          (asked = none → exec (.freeze h) s = emits u d (refusedWord 3)))) ∧
      (∀ v id, r.v.a.bit 63 = false → u.thawImage st r.v.a = .ok (v, id) →
        exec (.thaw h) s = emits v d (BitVec.ofNat 64 id)) ∧
      (∀ c, r.v.a.bit 63 = false → u.thawImage st r.v.a = .error c → exec (.thaw h) s = emits u d (refusedWord c)) ∧
      (∀ c, r.v.a.bit 63 = true → u.named st r.v.a = .error c → exec (.thaw h) s = emits u d (refusedWord c)) ∧
      (∀ z, r.v.a.bit 63 = true → u.named st r.v.a = .ok z → z.status ≠ .frozen ∨ z.candidate = true →
        exec (.thaw h) s = emits u d (refusedWord 1)) ∧
      (∀ z, r.v.a.bit 63 = true → u.named st r.v.a = .ok z → z.status = .frozen → z.candidate = false →
        (d.contains .b = false → exec (.thaw h) s = .next ((u.markThaw z.id).beginWait st i h d r (.thaw z.id))) ∧
        (∀ v ws, d.contains .b = true → u.headersAt st t i r z.strands.length = .ok v ws → exec (.thaw h) s =
          .next (((v.applyHeaders z.id ((ws.getD 2 0).field 47 0) ((List.range z.strands.length).map fun k =>
            (ws.drop (8 * (k + 1))).take 3)).markThaw z.id).beginWait st i h d r (.thaw z.id))))) ∧
    (s.goes st i h [.a] 0 0 r →
      (∀ c, u.named st r.v.a = .error c → exec (.abort h) s = emits u [.a] (refusedWord c)) ∧
      (∀ z, u.named st r.v.a = .ok z →
        (z.status = .frozen ∨ z.status = .evicted → exec (.abort h) s = emits (u.abortNow z.id) [.a] 0) ∧
        (z.live = true ∨ z.status = .halting → exec (.abort h) s =
          .next ((u.beginWait st i h [.a] r (.abort z.id)).beginWave z.id .freeze))))

/-- R431: a slice that is no supervisor slice traps PROT, with ACC 0, where it fires `FREEZE`, `THAW`, `ABORT`, `TLBI` or
`PMAP`, or `RDSR` or `WRSR` on registers 32 to 63. -/
def Obligations.PrivilegeTraps : Prop :=
  ∀ (s : State) (st : SRef) (i : Nat) (h : Hdr) (r : Ready), (s.drain st i).isSup st = false →
    let traps := Host.Outcome.next (φ := Fault) (ρ := Refusal)
      ((s.drain st i).trapStation st i 0x31 0 r.tag r.idx 0 0)
    (s.goes st i h (optB s) 0 0 r → exec (.freeze h) s = traps ∧ exec (.thaw h) s = traps ∧ exec (.pmap h) s = traps) ∧
    (s.goes st i h [.a] 0 0 r → exec (.abort h) s = traps ∧ (∀ z : TlbiImm, exec (.tlbi h z) s = traps) ∧
      ∀ k : BitVec 6, 32 ≤ k.toNat → exec (.rdsr h k) s = traps ∧ exec (.wrsr h k) s = traps)

/-- R458: register 17, `pkgid`, reads NUMBER, INJOB and JOB of the package's job word in its places, bits [63:23] zero; it
may be read. That `WRSR` of it is refused is the model's reading (log 53). -/
def Obligations.PkgidRegister : Prop :=
  (∀ (s : State) (x : Slice) (t : Strand),
    let w := s.readSreg x t 17
    w.field 63 23 = 0 ∧ w.bit 22 = s.inJob ∧ w.field 21 16 = s.pkgNumber ∧ w.field 15 0 = s.podItem.field 15 0) ∧
  (∃ h, decode 0xE100010600000011 = some (.rdsr h 17)) ∧ decode 0xE200000000000011 = none

/-- R412, R415, R423: a trap begins its slice's freeze wave with cause trap, or joins the causes of one under way, records what
it reports, and marks its station; only the first of a wave is reported; no operand leaves its buffer, and no memory, register or program counter changes. When
the slice runs again, causes, the reported trap and the marks are cleared, and its strands are as they froze. -/
def Obligations.TrapAndReturn : Prop :=
  (∀ (s : State) (st : SRef) (i code sub tag idx acc : Nat) (addr : Word) (x : Slice) (t : Strand),
    s.slice? st.slice = some x → s.strand? st = some t →
    let u := s.trapStation st i code sub tag idx acc addr
    s.sameBut u ∧ ∃ y, u.slice? st.slice = some y ∧
      y.status = (if x.status = .running then .waving else x.status) ∧
      (x.status = .running ∨ x.status = .waving ∨ x.status = .halting → y.cause.testBit 0 = true) ∧
      (x.status = .frozen ∨ x.status = .evicted → y.cause = x.cause) ∧
      (x.trap = none → y.trap = some ⟨code, sub, i, t.core, t.slot, t.pc, addr, tag, idx, acc, 0, s.now⟩) ∧
      (∀ p, x.trap = some p → y.trap = some p) ∧
      (∀ id, id ≠ st.slice → u.slice? id = s.slice? id) ∧
      (∀ q, q ≠ st → u.strand? q = s.strand? q) ∧
      ∀ z, u.strand? st = some z → ({ z with inst := t.inst } : Strand) = t ∧
        (∀ j, j ≠ i → u.node? st j = s.node? st j) ∧
        ∀ nd nd', s.node? st i = some nd → u.node? st i = some nd' → ({ nd' with trapped := nd.trapped } : Node) = nd ∧
          (x.trap = none → nd'.trapped = some (idx % nd.copies))) ∧
  (∀ (x : Slice) (b : Nat), (x.resume b).status = .running ∧ (x.resume b).cause = 0 ∧ (x.resume b).trap = none ∧
    (x.resume b).budget = b ∧ (x.resume b).strands.length = x.strands.length ∧
    ∀ (k : Nat) (t t' : Strand), x.strands[k]? = some t → (x.resume b).strands[k]? = some t' →
      ({ t' with inst := t.inst, left := t.left } : Strand) = t ∧ (t.inst = none → t'.inst = none) ∧
      ∀ y, t.inst = some y → ∃ y', t'.inst = some y' ∧ y'.nodes.length = y.nodes.length ∧
        ∀ (j : Nat) (n n' : Node), y.nodes[j]? = some n → y'.nodes[j]? = some n' →
          n'.trapped = none ∧ ({ n' with trapped := n.trapped } : Node) = n)

/-! Instances, slices and queues -/

/-- The event `i` of operation `n` makes one of some reading accesses of unit `u`: the first of those still to be made that does
not wait. With none left it comes to what `go` gives of all their bytes. -/
def Sys2Proof.Machine.readsThen (i : Instr) (s v : State) (n u : Nat) (o : Op) (ps : List Span) (go : List Byte → State) :
    Prop :=
  (∀ k w bs, firstIo (fun s p => s.spanRead o p) v (o.toRead u ps) = (k, .ok w bs) →
    exec i s = .next (w.noteRead n u o k bs)) ∧
  (o.toRead u ps = [] → exec i s = .next (go (o.bytesRead u ps.length)))

/-- The event `i` of operation `n` makes one of some writing accesses of unit `u`; the step of the last is `fin`. -/
def Sys2Proof.Machine.writesThen (i : Instr) (s v : State) (n u : Nat) (o : Op) (ws : List (Span × List Byte))
    (fin : State → State) : Prop :=
  (∀ k w cs, firstIo (fun s w => s.spanWrite o w.1 w.2) v (o.toWrite u ws) = (k, .ok w cs) →
    let t := w.noteWrite n u o k
    exec i s = .next (if (o.prog u).wrote.length + 1 = ws.length then fin t else t)) ∧
  (o.toWrite u ws = [] → exec i s = .next (fin v))

/-- The event `i` of operation `n` does with unit `u` what a transfer's plan says; `fin` is what follows. -/
def Sys2Proof.Machine.movesBy (i : Instr) (s : State) (n u : Nat) (o : Op) (p : Move1) (fin : State → State) : Prop :=
  (∀ v row, p = .idle v row → exec i s = .next (fin (v.modOp n fun q => q.noteRow row))) ∧
  (∀ v, p = .wait v → exec i s = .next v) ∧
  (∀ v c, p = .bad v c → exec i s = .next (v.endOp n c 0 none)) ∧
  (∀ v row q w bs, p = .read v row q → v.spanRead o q = .ok w bs →
    exec i s = .next (fin (w.modOp n fun q => { q.noteRow row with bufs := (u, bs) :: q.bufs }))) ∧
  (∀ v q bs w cs, p = .write v q bs → v.spanWrite o q bs = .ok w cs → exec i s = .next (fin w))

/-- The value that the last of some register writes gives register `r`. -/
def Sys2Proof.Machine.lastWrite (l : List (Nat × Word)) (r : Nat) : Option Word :=
  ((l.filter fun w => w.1 == r).getLast?).map fun w => w.2

/-- R14 to R16, R33, R34, R40, R41, R47, R259, R260, R411, R426, R440: a fetch starts the block cached for its region, with no new
fetch or check of its pages, which is the model's choice (log 6), or the image that
it reads and checks; a quiescent instance with one exit commits. Each special register then holds what the last `WRSR` of it
wrote, and a configuration item what was written to it through `cfgdata` where its condition holds; a call pushes its frame at
the depth of the carve-out, or beyond it at `ovfptr`, and a return pops the frame pushed last, a frame of the carve-out from a
bank that is not in SCRATCH mode trapping. An anti-token is withheld, or cancels a pending firing or an
access that has not performed when every target has cancelled it; a station adopts its pending word once every waited slot
has the switch token; a walk that its die runs ends in its leaf, traps, or posts one record for its page. -/
def Obligations.InstancesComplete : Prop :=
  (∀ (s : State) (st : SRef) (x : Slice) (t : Strand), s.slice? st.slice = some x → s.strand? st = some t →
    x.live = true → t.ended = false → t.inst = none → (∀ w ∈ s.walks, w.who = .fetch st → w.posted = false) →
    (∀ b, s.cached x t = some b → exec (.blockFetch st) s = .next (s.startBlock st x t b)) ∧
    (∀ (v w v2 w2 : State) (l l2 : List (Nat × Nat × Xlat)) (bs bs2 : List Byte),
      let h := imageHdr (wordAt bs 0) (wordAt bs 8)
      s.cached x t = none → t.pc.toNat % 64 = 0 →
      s.spansOf t.core 4 (.fetch st) 4 t.pc.toNat 32 [] = .ok v l → (∀ p ∈ l, v.barred (some st) p.1 p.2.1 = false) →
      (∀ p ∈ l, v.poisoned p.1 p.2.1 = false) → v.readSpans t.core l = (w, bs) →
      hdrOk (wordsOf bs 4) = true → h.fixed ≤ h.size → h.size ≤ h.most →
      w.spansOf t.core 4 (.fetch st) 4 t.pc.toNat h.size [] = .ok v2 l2 →
      (∀ p ∈ l2, v2.barred (some st) p.1 p.2.1 = false) → (∀ p ∈ l2, v2.poisoned p.1 p.2.1 = false) →
      v2.readSpans t.core l2 = (w2, bs2) → leastFault (imageFaults (imageOf bs2) x.pages) = none →
      exec (.blockFetch st) s = .next (w2.startBlock st x t ((imageOf bs2).block x.pages t.pc))) ∧
    (∀ b : Block, t.check = none ∨ t.check = some b.label →
      (s.startBlock st x t b).inst? st = some (b.start t.fpc (s.snapshot t.core)))) ∧
  (∀ (s : State) (st : SRef) (x : Slice) (t : Strand) (y : Inst), s.slice? st.slice = some x → s.strand? st = some t →
    t.inst = some y → x.live = true →
    (∀ (c : Choice) (u : State) (f : Option (Word × Nat)),
      let z := t.settleFrames y
      s.stillBut st t z = true → (∀ w ∈ s.walks, w.who = .commit st → w.posted = false) → t.tilesAwaited z = [] →
      z.dangling = none → z.exit = some c → ((s.commitRegs st z).keepPatch (some x) t z).stackStep st x c = .ok u f →
      (z.yield.isSome || (c.pop && f.isNone)) = false ∨ s.owesReply st = false →
      exec (.commit st) s = .next (u.commitEnd st z c f) ∧
      ∃ t', (u.commitEnd st z c f).strand? st = some t' ∧ t'.regs = z.writes.foldl (fun l w => l.set w.1 w.2) t.regs ∧
        t'.fflags = orFlags (((lastWrite z.swrites 14).map fun w => w.toNat % 32).getD t.fflags) z.flags ∧
        t'.pc = (if c.pop then (f.map fun g => g.1).getD t.pc else c.next) ∧
        t'.check = (if c.pop then f.map fun g => g.2 else c.check) ∧
        t'.inst = none ∧ t'.ended = (z.yield.isSome || (c.pop && f.isNone))) ∧
    (∀ (i tgt k : Nat) (nd : Node) (a : Anti), s.node? st i = some nd → nd.antis[k]? = some (tgt, a) →
      nd.sent.contains (tgt, a) = false → nd.holdsAnti (effectfulOp nd.op) a = false →
      let u := (s.modNode st i fun n => { n with antis := dropAt n.antis k }).modNode st i fun n =>
        { n with withheld := n.withheld ++ [(tgt, a)] }
      let all := nd.targets.all fun g => g == tgt || nd.withheld.contains (g, a)
      (nd.absorbs = true ∨ all = false → exec (.antiTokenArrival st i tgt k) s = .next u) ∧
      (nd.absorbs = false → all = true → nd.fired.contains a = false →
        exec (.antiTokenArrival st i tgt k) s = .next (u.cancelFiring st i a)) ∧
      (nd.absorbs = false → all = true → nd.fired.contains a = true → t.owesElem i a = true →
        exec (.antiTokenArrival st i tgt k) s = .next (u.cancelOwed st i a))) ∧
    (∀ (i : Nat) (nd : Node), s.node? st i = some nd → nd.free = true → y.canAdopt i = true →
      exec (.switchAdopt st i) s = .next (s.adopt st i nd.switchGen))) ∧
  (∀ (s : State) (st : SRef) (t : Strand) (y : Inst), s.strand? st = some t →
    let u := s.commitRegs st y
    let new := lastWrite y.swrites
    u.strand? st = some { t with
      regs := y.writes.foldl (fun l w => l.set w.1 w.2) t.regs
      fpc := ((new 0).map fun w => w.toNat % 32).getD t.fpc
      ovfptr := (new 12).getD t.ovfptr
      fflags := orFlags (((new 14).map fun w => w.toNat % 32).getD t.fflags) y.flags } ∧
    (∀ r : Nat, 32 ≤ r ∧ r ≤ 39 → u.packageReg r = ((new r).map fun w =>
      if r = 32 then BitVec.ofNat 64 (w.toNat % 2 ^ 32) else if r = 39 then BitVec.ofNat 64 (w.toNat % 2 ^ 16) else w).getD
        (s.packageReg r)) ∧
    (∀ w : Word, (y.swrites.filter fun e => e.1 == 40) = [(40, w)] → ∀ d g n : Nat, u.selected = (d, g, n) →
      u.readCfg d g n = if cfgListed d g n && s.cfgOk d g n w then cfgMask g n w else s.readCfg d g n) ∧
    (new 40 = none → u.cfg = s.cfg)) ∧
  (∀ (s : State) (st : SRef) (x : Slice) (t : Strand) (c : Choice), s.strand? st = some t →
    let cap := x.carveSize / 16
    let d := t.csdepth
    (c.pop = false → c.push = none → s.stackStep st x c = .ok s none) ∧
    (∀ f : Word × Nat, c.pop = false → c.push = some f →
      (d < cap → s.carveOpen x t d = false → s.stackStep st x c = .trap 0x13 2 0) ∧
      (d < cap → s.carveOpen x t d = true → ∃ u, s.stackStep st x c = .ok u none ∧
        u.strand? st = some { t with csdepth := d + 1 } ∧ u.rdAt (x.carveAt t d) 16 = frameBytes f ∧
        (∀ a, a < x.carveAt t d ∨ x.carveAt t d + 16 ≤ a → u.rdAt a 1 = s.rdAt a 1) ∧
        ∀ e : Choice, e.pop = true → f.2 < 65536 →
          ∃ v, u.stackStep st x e = .ok v (some f) ∧ v.strand? st = some t ∧ v.mem = s.mem) ∧
      (cap ≤ d → ∀ (v : State) (l : List (Nat × Nat × Xlat)), s.spansOf t.core 2 (.commit st) 2 t.ovfptr.toNat 16 [] = .ok v l →
        (∀ p ∈ l, v.barred (some st) p.1 p.2.1 = false) → ∃ u t', s.stackStep st x c = .ok u none ∧
          u.mem = (v.writeSpans t.core l (frameBytes f)).mem ∧ u.strand? st = some t' ∧ t'.csdepth = d + 1 ∧
          t'.ovfptr = t.ovfptr + 16) ∧
      (cap ≤ d → ∀ (code : Nat) (va : Word), s.spansOf t.core 2 (.commit st) 2 t.ovfptr.toNat 16 [] = .trap code va →
        s.stackStep st x c = .trap code 2 va)) ∧
    (c.pop = true →
      (d = 0 → s.stackStep st x c = .ok s none) ∧
      (0 < d → d ≤ cap → s.carveOpen x t (d - 1) = false → s.stackStep st x c = .trap 0x13 1 0) ∧
      (0 < d → d ≤ cap → s.carveOpen x t (d - 1) = true → s.poisoned (x.carveAt t (d - 1)) 16 = false →
        ∃ u, s.stackStep st x c = .ok u (some (frameOfBytes (s.rdAt (x.carveAt t (d - 1)) 16))) ∧
          u.strand? st = some { t with csdepth := d - 1 } ∧ u.mem = s.mem ∧ u.loc = s.loc) ∧
      (cap < d → ∀ (v w : State) (l : List (Nat × Nat × Xlat)) (bs : List Byte),
        s.spansOf t.core 1 (.commit st) 2 (t.ovfptr - 16).toNat 16 [] = .ok v l →
        (∀ p ∈ l, v.barred (some st) p.1 p.2.1 = false ∧ v.poisoned p.1 p.2.1 = false) → v.readSpans t.core l = (w, bs) →
        ∃ u t', s.stackStep st x c = .ok u (some (frameOfBytes bs)) ∧ u.mem = w.mem ∧ u.strand? st = some t' ∧
          t'.csdepth = d - 1 ∧ t'.ovfptr = t.ovfptr - 16))) ∧
  (∀ (s u : State) (n : Nat) (w : Walk), s.walks[n]? = some w → w.posted = false → s.walkRuns w = true →
    (∀ x, w.who ≠ .unit → s.walkVia w.core w.va = (.leaf x, u) →
      exec (.translationWalk n) s = .next { u with walks := dropAt u.walks n }) ∧
    (∀ st i tag idx, w.who = .station st i tag idx → s.walkVia w.core w.va = (.fault, u) → exec (.translationWalk n) s =
      .next (({ u with walks := dropAt u.walks n } : State).trapStation st i 0x30 0 tag idx w.acc w.va)) ∧
    (s.walkVia w.core w.va = (.miss, u) →
      (∀ v ∈ u.walks, v.va.toNat / 65536 = w.va.toNat / 65536 → v.posted = false) →
      let v : State := { u with walks := modAt u.walks n fun w => { w with posted := true } }
      exec (.translationWalk n) s =
        .next (v.post v.pagerq.toNat (recordOf 1 (v.walkTrap w).1 (v.walkTrap w).2 v.now 0))))

/-- R208, R233, R234, R235, R284, R413, R414, R423: the halt line of a wave is asserted; a freeze completes once the slice's
accesses have performed and its operations have ended; a frozen slice that is to go on resumes; a budget of 0 traps
BUDGET; a slice whose strands have ended ends, with its counter's add or its continuation; a barrier's deadline
completes its phase LATE, at a pod barrier after what other members have done there, by the time of its keeper (R459); and
program timestamps advance once each 16 cycles. The model's choices: what other members do at a pod barrier comes with the event,
and how far the keeper's time is ahead (log 17); an access that waits for what no longer comes, or for a pair held by a halted
strand, does not keep a freeze from completing (logs 19 and 71). -/
def Obligations.SliceEvents : Prop :=
  (∀ (s : State) (id : Nat) (x : Slice), s.slice? id = some x →
    (x.status = .waving → exec (.freezeWave id) s = .next (s.modSlice id fun x => { x with status := .halting })) ∧
    (x.status = .halting → s.stillPerforms x = false → s.ops.any x.touchedBy = false →
      let u := ((s.halt x).modSlice id fun y => { y with status := .frozen, candidate := false, ftime := s.now })
      let v := ((u.dropDeadlines (x.strands.flatMap fun t => t.waits)).thawDone id).postTrap x
      ∃ y, v.slice? id = some y ∧ y.status = .frozen ∧ exec (.freezeComplete id) s = .next (v.afterFreeze y)) ∧
    (x.status = .frozen → x.candidate = true → exec (.thawResume id) s = .next (s.restart id)) ∧
    (x.counts = true → x.budget = 0 → exec (.budget id) s = .next (s.takeTrap id { Trap.bare with code := 0x40 })) ∧
    (s.ends x = true →
      let u := ((s.clearCores x.cores).freeBarriers id).removeSlice id
      let ended := fun (v : State) => Host.Outcome.next (φ := Fault) (ρ := Refusal) (v.releaseWhere (endRelease v.freeSeq id))
      (x.yield = none → exec (.sliceEnd id) s = ended (u.addThen ⟨x.desc.getD 6 0, false, id, x.field 5 63 32,
        (u.queue x.queue).eq, some (x.field 4 39 32), none⟩)) ∧
      (∀ y, x.yield = some y → exec (.sliceEnd id) s = ended (u.beginAppend ⟨contWords x.desc y.1 y.2, s.contHandle x,
        .yield id x.queue⟩)))) ∧
  (∀ (s : State) (b : BarKey) (d : Nat) (far : List FarBar) (ahead : Nat),
    let u := if b.scope = .pod ∧ s.otherMembers ≠ [] then (far.foldl (fun (s : State) f => s.farBar b f) s).retries else s
    (u.bar b).dl = some d → (u.bar b).state = .opened →
    (d ≤ (if b.scope = .pod ∧ (∃ n ∈ u.otherMembers, n < u.pkgNumber) then u.now + min ahead 40 - 20 else u.now)) →
    exec (.barrierDeadline ⟨b, far, ahead⟩) s = .next (u.completePhase b 4 1).retries) ∧
  (∀ s : State, s.ptTicks < s.cycles / 16 → ∃ t, exec .ptTick s = .next t ∧ t.ptTicks = s.ptTicks + 1 ∧
    ∀ w, w < 130 → t.ptOf w = s.ptOf w + 1)

/-- R214, R218 to R220, R222, R226 to R230, R235, R251, R384: a change of a queue's table entry is taken up; published entries
are read and counted; an append that can be made is made, and its wait released with the entry's number; a pass of the
timetable moves a slice that is frozen to be moved, or else refuses its first candidate, or places and starts it, or makes
room; and a port-4 message reads its descriptor and appends it. That a queue that becomes DISABLED drops its snapshots (log 43) and
that a pass makes one of these moves (log 20) are the model's choices. -/
def Obligations.QueueEvents : Prop :=
  (∀ (s : State) (q : Nat) (ws : List Word), q < Config.queues →
    let v := s.unitSees (s.tableAt q) 32
    v.tableWords q = some ws →
    let old := v.queue q
    let new := entryOf ws
    (new.state = .disabled → exec (.queueTableChange q) s =
      .next ((v.discard q old.snaps.length).setQueue q { new with read := 0 })) ∧
    (∀ p c, new.state = .enabled → old.state ≠ .enabled → v.cons new = some (p, c) → exec (.queueTableChange q) s =
      .next (v.setQueue q { new with read := max c old.read, snaps := old.snaps })) ∧
    (new.state = .error ∨ new.state = .paged ∨ (new.state = .enabled ∧ old.state = .enabled) →
      exec (.queueTableChange q) s = .next (v.setQueue q { new with read := old.read, snaps := old.snaps }))) ∧
  (∀ (s u : State) (q a p c : Nat) (b d : Xlat), (s.queue q).state = .enabled → s.unitAt (s.queue q).rbase 1 = some a →
    let v := s.seeCounts (s.queue q)
    v.pub (s.queue q) 1 = some (b, p) → v.cons (s.queue q) = some (d, c) → c ≤ p → p ≤ c + 2 ^ (s.queue q).log →
    v.readEntries q (p - max c (s.queue q).read) (max c (s.queue q).read) = some u →
    exec (.pubObserved q) s = .next u) ∧
  (∀ (s u : State) (n j : Nat) (a : Append), s.appends[n]? = some a →
    (∀ st i tag idx t k, a.who = .station st i tag idx → s.runs st = true → s.appendPlain (some st) a.handle a.desc = .ok u j →
      u.strand? st = some t → t.waitOf i tag idx = some k → exec (.queueAppend n) s =
        .next (({ u with appends := dropAt u.appends n } : State).release st k (BitVec.ofNat 64 (j % 2 ^ 63)) false)) ∧
    (∀ sl q, a.who = .yield sl q → s.appendCont a.handle a.desc = .ok u j →
      exec (.queueAppend n) s = .next { u with appends := dropAt u.appends n })) ∧
  (∀ (s : State) (x : Slice), s.slices.find? Slice.toMove = some x → exec .dispatchPass s = .next (s.finishMove x)) ∧
  (∀ (s : State) (c : Cand), s.slices.find? Slice.toMove = none →
    (∀ x ∈ s.slices, x.status = .frozen → x.leaving = true → s.writeOut x.id = none) →
    s.clearing = false → s.view ≠ s.passView →
    let u : State := { s with passView := s.view }
    u.firstCand = some c →
    (∀ q n k, c = .head q n → u.refusalOf n = some k → exec .dispatchPass s = .next (u.refuse q n k)) ∧
    (∀ q n mv, c = .head q n → u.refusalOf n = none → u.placeCand [] c = some mv →
      exec .dispatchPass s = .next (u.startHead q n (mv.map fun m => m.2))) ∧
    (∀ id mv, c = .evicted id → u.placeCand [] c = some mv → exec .dispatchPass s = .next (u.placeImage id mv)) ∧
    ((∀ q n, c = .head q n → u.refusalOf n = none) → u.placeCand [] c = none →
      exec .dispatchPass s = .next (u.makeRoom c))) ∧
  (∀ (s : State) (n : Nat) (o : Op), s.op? n = some o → portOf (o.words.getD 0 0) = 4 → o.stage ≠ .ended →
    s.opFirst n o = true → let va := (alignDown (o.words.getD 1 0) 64).toNat
    readsThen (.appendOp n) s s n 0 o (spansIn true va 64 none) fun bs =>
      (s.modOp n fun o => { o with stage := .active }).appendFor n o (wordsOf bs 8)) ∧
  (∀ (s v : State) (n j : Nat) (o : Op) (d : List Word),
    s.appendPlain none ((o.words.getD 2 0).field 31 0) d = .ok v j →
      s.appendFor n o d = v.endOp n 0 0 (some (BitVec.ofNat 64 (j % 2 ^ 63))))

/-! Engines -/

/-- R341, R348 to R350, R385 to R389, R463, R464: a transfer starts with its units when its turn has come, and each step makes
the element access of one unit as its plan has it: a unit of a row read, or one written with what was read. `COPY`, `CFILL`,
`COPY2`, `GATH` and `SCAT` move between memory and tiles, an index being read before only the rows that use it; a raw `COPY`
reads aligned units of its source and writes aligned units of its destination with the source's bytes. `PUT` and `GET` on the
issuer's own package are as `COPY`, and on another member of the job requests and replies of its local range. That a step makes
one element access is the model's choice (log 13), and so is that what other members answer is free (logs 12 and 17). -/
def Obligations.TransfersComplete : Prop :=
  ∀ (s : State) (n u : Nat) (o : Op), s.op? n = some o →
    let p := o.num 4 % 64
    let own := p = s.pkgNumber
    let units := unitsOf (o.num 1) (o.num 3)
    let put := Instr.putOp (.own n) u
    (o.stage = .inbox → s.mayStart n o = true →
      (o.transfers 1 = true → exec (.copyOp n u) s = .next (s.startUnits n (copyLayout o).units)) ∧
      (o.transfers 5 = true → exec (.cfillOp n u) s = .next (s.startUnits n units)) ∧
      (o.transfers 2 = true → (∀ k, copy2Units o = .ok k → exec (.copy2Op n u) s = .next (s.startUnits n k)) ∧
        ∀ c, copy2Units o = .error c → exec (.copy2Op n u) s = .next (s.endOp n c 0 none)) ∧
      (o.transfers 3 = true → exec (.gathOp n u) s = .next (s.startUnits n (indexLayout o).units)) ∧
      (o.transfers 4 = true → exec (.scatOp n u) s = .next (s.startUnits n (indexLayout o).units)) ∧
      (o.transfers 6 = true → (own → exec put s = .next (s.startUnits n (copyLayout (o.asCopy true)).units)) ∧
        (¬own → exec put s = .next (if s.member p = true then s.startUnits n units else s.endOp n 0x06 0 none))) ∧
      (o.transfers 7 = true → (own → exec (.getOp n u) s = .next (s.startUnits n (copyLayout (o.asCopy false)).units)) ∧
        (¬own → exec (.getOp n u) s = .next (if s.member p = true
          then (if units ≠ 0 then s.sendOut p o.id false o.words else s).startUnits n units
          else s.endOp n 0x06 0 none)))) ∧
    (∀ rest, o.stage = .active → pickUnit o.left u = some rest →
      let fin := fun (t : State) => t.unitDone n rest
      let ends := fun (t : State) => if rest.isEmpty then t.nextFree.endRemote n o.id 0 0 none
        else t.nextFree.modOp n fun o => { o with left := rest }
      (o.transfers 1 = true → movesBy (.copyOp n u) s n u o (copyPlan s o u) fin ∧
        ∀ lo m, o.num 4 % 2 = 0 →
          let l := copyLayout o
          let src := rawRun (o.num 2)
          (∀ w bs, u < l.dest → rowChunk (o.num 2) (o.num 3) u = some (lo, m) →
            s.spanRead o ⟨true, lo, m, none⟩ = .ok w bs → exec (.copyOp n u) s =
              .next (fin (w.modOp n fun q => { q.noteRow (some (0, src)) with bufs := (u, bs) :: q.bufs }))) ∧
          (∀ bs w cs, l.dest ≤ u → u < l.units → rowChunk (o.num 1) (o.num 3) (u - l.dest) = some (lo, m) →
            o.rows.find? (fun e => e.1 == 0) = some (0, src) →
            src.got l o 0 (o.num 2 + (lo - o.num 1)) m = some bs → s.spanWrite o ⟨true, lo, m, none⟩ bs = .ok w cs →
            exec (.copyOp n u) s = .next (fin w))) ∧
      (o.transfers 5 = true → movesBy (.cfillOp n u) s n u o (fillPlan s o u) fin ∧
        ∀ lo m w cs, rowChunk (o.num 1) (o.num 3) u = some (lo, m) →
          s.spanWrite o ⟨true, lo, m, none⟩ ((List.range m).map fun k => BitVec.ofNat 8 (o.num 2 / 256 ^ ((lo + k) % 8)))
            = .ok w cs → exec (.cfillOp n u) s = .next (fin w)) ∧
      (o.transfers 2 = true → movesBy (.copy2Op n u) s n u o (copy2Plan s o u) fin) ∧
      (∀ i, (o.transfers 3 = true ∧ i = .gathOp n u) ∨ (o.transfers 4 = true ∧ i = .scatOp n u) →
        (∀ lo m v bs, u < o.idxUnits → rowChunk (o.num 3) (4 * o.tileOf.2.rows) u = some (lo, m) →
          s.opRead1 o (BitVec.ofNat 64 lo) m = .ok v bs →
          exec i s = .next (fin (v.modOp n fun o => { o with idxs := o.idxs ++ [(lo - o.num 3, bs)] }))) ∧
        (o.idxUnits ≤ u → movesBy i s n u o (indexPlan s o u) fin)) ∧
      (own → (o.transfers 6 = true → movesBy put s n u o (copyPlan s (o.asCopy true) u) fin) ∧
        (o.transfers 7 = true → movesBy (.getOp n u) s n u o (copyPlan s (o.asCopy false) u) fin)) ∧
      (∀ lo m, ¬own → rowChunk (o.num 1) (o.num 3) u = some (lo, m) →
        (∀ v bs, o.transfers 6 = true → s.unanswered p < Config.channelWindow →
          s.opRead1 o (BitVec.ofNat 64 lo) m = .ok v bs → exec put s = .next ((v.sendOut p o.id true
            (o.words.take 4 ++ [BitVec.ofNat 64 u] ++ wordsOf bs 8)).modOp n fun o => { o with left := rest })) ∧
        (o.transfers 7 = true →
          (remoteCode s.freeSeq ≠ 0 →
            exec (.getOp n u) s = .next (s.nextFree.endRemote n o.id (remoteCode s.freeSeq) 0 none)) ∧
          ∀ v cs, remoteCode s.freeSeq = 0 →
            s.opWrite1 o (BitVec.ofNat 64 lo) ((List.range m).map fun k => Config.remoteByte s.freeSeq k) = .ok v cs →
            exec (.getOp n u) s = .next (ends v)))) ∧
    (∀ r, ¬own → o.transfers 6 = true → o.stage = .active → pickUnit o.left u = none →
      s.outReqs.find? (fun r => r.op == o.id) = some r →
      let v := ({ s with outReqs := s.outReqs.erase r } : State).nextFree
      exec put s = .next (if remoteCode s.freeSeq ≠ 0 ∨ (o.left = [] ∧ ∀ r ∈ v.outReqs, r.op ≠ o.id)
        then v.endRemote n o.id (remoteCode s.freeSeq) 0 none else v))

/-- R121, R122, R354, R355, R391: a matrix operation that is next in issue order starts when its tiles fit the planes, and each
step of a row makes one element access: the shadow plane takes the weight tile, the planes change places, a row of the
activation tile is added, a row of accumulators is read out, rows and MXSTAT are cleared, and `MMAW` adds and then
reads out. That a step makes one element access, and that `LDW` loads its plane after its last row, are the model's choices
(log 13). -/
def Obligations.MatrixComplete : Prop :=
  ∀ (s : State) (n : Nat) (o : Op), s.op? n = some o → o.inbox / 128 = 1 → o.stage ≠ .ended → s.opAlone n o = true →
    let core := o.inbox - 128
    let v := s.noteStat n core
    let u := s.unit core
    let oper := operOf (o.words.getD 0 0)
    let a := s.tile (o.mxTile 3 0)
    let d := s.tile (o.mxTile 7 4)
    let p : Planes := ⟨(u.active.fmt, u.active.k, u.active.n), (u.shadow.fmt, u.shadow.k, u.shadow.n)⟩
    let rows : List (Nat × Instr × Nat) := [(0x10, .ldwOp n, 1), (0x11, .swapwOp n, 1), (0x12, .mmaOp n, a.rows),
      (0x13, .accrdOp n, d.rows), (0x14, .acczOp n, 1), (0x15, .mmawOp n, 2 * a.rows)]
    (o.left = [] →
      matrixCheck p (fun t => s.tile (128 * core + 16 * (o.words.getD 0 0).field 8 6 + t)) o.words = none →
      ∀ e ∈ rows, oper = e.1 → exec e.2.1 s = .next (v.modOp n fun o => { o with stage := .active, left := [(0, e.2.2)] })) ∧
    (∀ r hi l, o.left = (r, hi) :: l →
      let fin := State.rowDone n core r hi
      let passes := fun (i : Instr) (fin : State → State) =>
        readsThen i s v n 0 o (a.rowSpans (o.mxTile 3 0) r) fun bs =>
          fin (v.setUnit core (u.passRow (o.num 2 + r) ((List.range a.cols).map fun j => rowVal a bs j)))
      let readsOut := fun (i : Instr) (r : Nat) =>
        (∀ k w bs, firstIo (fun s p => s.spanRead o p) v (o.toRead 1 (d.scaleSpans (o.mxTile 7 4))) = (k, .ok w bs) →
          exec i s = .next (w.noteRead n 1 o k bs)) ∧
        (o.toRead 1 (d.scaleSpans (o.mxTile 7 4)) = [] →
          writesThen i s v n 0 o (splitOver (d.rowSpans (o.mxTile 7 4) r) (readoutRow d o.env
            ((o.bytesRead 1 (d.scaleSpans (o.mxTile 7 4)).length).drop (d.cols / 32 * r)) ((List.range d.cols).map fun c => u.cell (o.num 2 + r) c))) fin)
      (oper = 0x10 → readsThen (.ldwOp n) s v n 0 o (a.allSpans (o.mxTile 3 0)) fun bs =>
        fin (v.setUnit core { u with shadow := planeOf a (rowsOf (rowLen a.fmt a.cols) a.rows bs) })) ∧
      (oper = 0x11 → exec (.swapwOp n) s = .next (fin (v.setUnit core { u with active := u.shadow, shadow := u.active }))) ∧
      (oper = 0x12 → passes (.mmaOp n) fin) ∧
      (oper = 0x13 → readsOut (.accrdOp n) r) ∧
      (oper = 0x14 → exec (.acczOp n) s = .next (fin (v.setUnit core { u with
        acc := Table.clear u.acc (256 * o.num 2) (256 * o.num 2 + 256 * o.num 3)
        stat := if (o.words.getD 4 0).bit 0 then 0 else u.stat }))) ∧
      (oper = 0x15 → (r < a.rows → passes (.mmawOp n) fun t => fin (if r + 1 = a.rows then t.releaseRead n else t)) ∧
        (a.rows ≤ r → readsOut (.mmawOp n) (r - a.rows))))

/-- R119 to R121: a pass adds to each accumulator cell of its row, in columns 0 to N − 1, the exact dot product of the row of
activations and the column of weights, rounded once to AX, and changes no other cell and no plane. -/
def Obligations.MatrixPass : Prop :=
  ∀ (u : Mx) (row : Nat) (xs : List FVal), u.active.n ≤ 256 →
    (∀ n, n < u.active.n → (u.passRow row xs).cell row n = (passCell (u.cell row n) (dotOf xs (u.active.column n))).1) ∧
    (∀ r n, n < 256 → r ≠ row ∨ u.active.n ≤ n → (u.passRow row xs).cell r n = u.cell r n) ∧
    (u.passRow row xs).active = u.active ∧ (u.passRow row xs).shadow = u.shadow

/-- Whether a spill segment is a die's. -/
def Sys2Proof.Machine.segOf (d : Nat) (g : Seg) : Bool := g.die == d

/-- R296, R297, R303, R305 to R307, R359 to R368, R392, R394: the sort yard defines the region of a record that it accepts in
the lowest FREE entry, applies pending keys and ends when none is left, resets an OPEN region unit by unit, closes it,
and reports its entry; YARDFULL posts one record; and the Rote engine opens, appends, proposes, reports, saves, loads and
closes a context. That each step of what reads or writes memory makes one element access is the model's choice (log 13), and which
code is given where several apply, and what a step cut short leaves, its readings (logs 35 and 36). -/
def Obligations.YardAndRoteComplete : Prop :=
  (∀ (s : State) (n : Nat) (o : Op),
    (s.yardOp n 0x20 = some o → (o.stage = .inbox → s.opFirst n o = true) →
      (o.idxs = [] → readsThen (.defineRegion n) s s n 0 o (spansIn true (o.num 3) 8 none) fun bs =>
        match s.defineCode (o.num 1) (o.num 2) (wordAt bs 0) with
        | some c => s.endOp n 0x07 c none
        | none =>
          let g := s.freeRegion.getD 0
          ((s.setRegion g { regionOf (o.num 1) (o.num 2) (wordAt bs 0) with
            extents := s.extentsOf (o.num 1) (o.num 2) }).modOp n fun o =>
              { o with stage := .active, idxs := [(g, [])] }).endWith n o (o.words.getD 4 0) (BitVec.ofNat 64 g)) ∧
      ∀ g bs l, o.idxs = (g, bs) :: l →
        exec (.defineRegion n) s = .next (s.endWith n o (o.words.getD 4 0) (BitVec.ofNat 64 g))) ∧
    (∀ i oper, (oper = 0x21 ∧ i = .applyRegion n) ∨ (oper = 0x24 ∧ i = .closeRegion n) →
      s.yardOp n oper = some o → o.stage = .active →
      let next := s.allBins.find? fun b => Bin.isOf o.region b.key o.epoch b
      (∀ b, next = some b → s.barred none b.pa (s.region o.region).size = false →
        s.poisoned b.pa (s.region o.region).size = false →
        exec i s = .next (s.applyKey o.party o.region b.key o.epoch)) ∧
      (next = none → exec i s = .next (s.endOp n 0 0 none))) ∧
    (s.yardOp n 0x21 = some o → o.stage = .inbox → s.opFirst n o = true → (s.region o.region).state = .opened →
      exec (.applyRegion n) s = .next (s.modOp n fun o => { o with stage := .active })) ∧
    (s.yardOp n 0x22 = some o →
      let g := s.region o.region
      (o.stage = .inbox → s.opFirst n o = true → g.state = .opened → exec (.resetRegion n) s =
        .next (s.modOp n fun o => { o with stage := .active, left := [(0, unitsOf g.base g.len)] })) ∧
      (∀ k rest lo m t x v cs, o.stage = .active → o.left ≠ [] → s.resetNext o g = some k → pickUnit o.left k = some rest →
        rowChunk g.base g.len k = some (lo, m) → s.opXlate o (BitVec.ofNat 64 lo) 2 = .ok t x →
        t.barred none x.pa m = false →
        (t.discardBins o.region lo m).opWrite1 o (BitVec.ofNat 64 lo) (List.replicate m 0) = .ok v cs →
        exec (.resetRegion n) s = .next (v.modOp n fun o => { o with left := rest })) ∧
      (o.stage = .active → o.left = [] → exec (.resetRegion n) s =
        .next ((s.setRegion o.region g.cleared).endOp n 0 0 none))) ∧
    (s.yardOp n 0x23 = some o → s.opFirst n o = true → exec (.statRegion n) s =
      .next (s.endWith n o (o.words.getD 2 0) (o.result.getD 0))) ∧
    (s.yardOp n 0x24 = some o → o.stage = .inbox → s.opFirst n o = true → (s.region o.region).state = .opened →
      exec (.closeRegion n) s = .next (((s.setRegion o.region { s.region o.region with state := .closing }).settleRegion
        o.region).modOp n fun o => { o with stage := .active, epoch := s.epoch })) ∧
    (∀ d, s.stallDue d = true → ∃ u : State, exec (.yardfull d) s = .next
      (u.post (u.readCfg d 0 3).toNat (recordOf 4 { Trap.bare with code := 0x60, aux := BitVec.ofNat 64 d } 0 u.now
        (BitVec.ofNat 64 (u.segs.filter (segOf d)).length))) ∧ u.stallDue d = false ∧
        ({ u with yardStall := s.yardStall } : State) = s)) ∧
  (∀ (s : State) (n : Nat) (o : Op),
    (s.roteOp n 0x30 = some o → s.ctx o.context = none → capOk (o.num 2) = true → 1 ≤ o.num 3 → o.num 3 ≤ 64 →
      s.roteFits o.context (o.num 2) = true → exec (.openContext n) s =
        .next ((s.setCtx o.context (some (Rote.opened (o.num 2) (o.num 3)))).endOp n 0 0 none)) ∧
    (s.roteOp n 0x35 = some o →
      let head := spansIn true (o.num 2) 64 none
      let bs := o.bytesRead 0 head.length
      (o.stage ≠ .active → s.ctx o.context = none →
        (∀ k w cs, firstIo (fun s p => s.spanRead o p) s (o.toRead 0 head) = (k, .ok w cs) → exec (.loadImage n) s =
          .next (w.noteRead n 0 o k cs)) ∧
        ∀ r, o.toRead 0 head = [] → headerOf bs = some r → s.roteFits o.context r.c = true → o.num 2 % 64 = 0 →
          exec (.loadImage n) s =
            .next ((s.modOp n fun o => { o with stage := .active, idxs := [(r.c, bs)] }).loadTokens n o r)) ∧
      ∀ k bs l r, o.stage = .active → o.idxs = (k, bs) :: l → headerOf bs = some r →
        readsThen (.loadImage n) s s n 1 o (spansIn true (o.num 2 + 64) (4 * (r.count - r.base)) none) fun bs =>
          (s.setCtx o.context (some { r with hist := tokensOf bs })).endOp n 0 0 none) ∧
    (∀ r, s.ctx o.context = some r →
      let writes := fun (i : Instr) (v : State) (at' : Nat) (bs : List Byte) (w : Option Word) =>
        writesThen i s v n 0 o (splitOver (spansIn true at' bs.length none) bs) fun t => t.endOp n 0 0 w
      (s.roteOp n 0x31 = some o → 1 ≤ o.num 3 → o.num 3 ≤ 65536 → o.num 2 % 4 = 0 →
        readsThen (.appendTokens n) s s n 0 o (spansIn true (o.num 2) (4 * o.num 3) none) fun bs =>
          (s.setCtx o.context (some ((tokensOf bs).foldl Rote.append1 r))).endOp n 0 0 none) ∧
      (∀ l p toks, s.roteOp n 0x32 = some o → 1 ≤ o.num 2 → o.num 2 ≤ 16 → o.num 3 % 8 = 0 →
        r.propose (o.num 2) = (l, p, toks) →
        writes (.proposeDraft n) (s.setCtx o.context (some { r with len := min l 65535, pos := p })) (o.num 3)
          (proposal l p toks) (some (wordAt (proposal l p toks) 0))) ∧
      (s.roteOp n 0x33 = some o → o.num 2 % 64 = 0 → writes (.statRecord n) s (o.num 2) r.header none) ∧
      (s.roteOp n 0x34 = some o → o.num 2 % 64 = 0 →
        writes (.saveImage n) s (o.num 2) r.image (some (BitVec.ofNat 64 r.image.length))) ∧
      (s.roteOp n 0x36 = some o → exec (.closeContext n) s = .next ((s.setCtx o.context none).endOp n 0 0 none))))

/-! Other packages, the host, errors -/

/-- R50, R457, R462 to R464: a port-6 operation on its own package is applied and ends, `RATOM` with its value; one on another
member sends its request and takes the reply; a request of another member in its turn is applied and its reply kept, an
`RATOM` under the FPC copy of its header, one that comes early is held, and one that was accepted before is not applied again;
a request unanswered for 20 µs is sent again, and one unanswered for 1 s ends its operation as unreachable. That requests and
answers of other members come with the events or are free is the model's choice (logs 17 and 12), and the place and width of
`RATOM`'s value its reading (log 54). -/
def Obligations.RemoteComplete : Prop :=
  (∀ (s v : State) (n : Nat) (o : Op) (w k1 k2 k3 : Word) (d : List Word) (ty : Ty) (op : Aop) (fpc : BitVec 4),
    s.op? n = some o → portOf (o.words.getD 0 0) = 6 → o.stage ≠ .ended → o.result = none → s.opFirst n o = true →
    let oper := operOf (o.words.getD 0 0)
    let src := spansIn true (alignDown (o.words.getD 2 0) 64).toNat 64 none
    let bs := if oper = 0x61 then o.bytesRead 0 src.length else []
    let rows := fun (t : State) =>
      (oper = 0x60 → exec (.rupd s.pkgNumber n k1 k2 ty) s = .next t) ∧
      (oper = 0x61 → exec (.renq s.pkgNumber n d k1) s = .next t) ∧
      (oper = 0x62 → exec (.radd s.pkgNumber n k1 k2) s = .next t) ∧
      (oper = 0x63 → exec (.ratom s.pkgNumber n k1 k2 k3 ty ⟨op, fpc⟩) s = .next t)
    let sends := o.package ≠ s.pkgNumber ∧ o.stage = .inbox ∧ s.member o.package = true ∧
      s.unanswered o.package < Config.channelWindow
    (∀ k u cs, oper = 0x61 → o.package = s.pkgNumber ∨ sends →
      firstIo (fun s p => s.spanRead o p) s (o.toRead 0 src) = (k, .ok u cs) → rows (u.noteRead n 0 o k cs)) ∧
    ((oper = 0x61 → o.toRead 0 src = []) →
      (o.package = s.pkgNumber → s.applyOwn o oper bs = .ok v w → rows (v.endValue n oper w)) ∧
      (sends → rows ((s.sendOut o.package o.id true (o.words ++ wordsOf bs (bs.length / 8))).modOp n fun o =>
        { o with stage := .active })))) ∧
  (∀ (s : State) (n : Nat) (o : Op) (k1 k2 k3 : Word) (d : List Word) (ty : Ty) (op : Aop) (fpc : BitVec 4),
    s.op? n = some o → portOf (o.words.getD 0 0) = 6 → o.stage = .active → o.result = none → o.package ≠ s.pkgNumber →
    let oper := operOf (o.words.getD 0 0)
    let u := ({ s with outReqs := s.outReqs.filter fun r => r.op != o.id } : State).nextFree
    let a := remoteAnswer oper s.freeSeq
    let w := if o.atomTy = .q then Config.remoteWord s.freeSeq
      else ((Config.remoteWord s.freeSeq).setWidth 32).setWidth 64
    (∀ e ∈ [(0x60, Instr.rupd s.pkgNumber n k1 k2 ty), (0x61, .renq s.pkgNumber n d k1), (0x62, .radd s.pkgNumber n k1 k2)],
      oper = e.1 → exec e.2 s = .next (u.endRemote n o.id a.1 a.2 none)) ∧
    (oper = 0x63 → exec (.ratom s.pkgNumber n k1 k2 k3 ty ⟨op, fpc⟩) s =
      .next (if a.1 = 0 then u.endValue n 0x63 w else u.endRemote n o.id a.1 a.2 none))) ∧
  (∀ (s v : State) (src u : Nat) (w k1 k2 k3 : Word) (d : List Word) (bs : List Byte) (ty : Ty) (op : Aop) (fpc : BitVec 4),
    src ≠ s.pkgNumber → s.member src = true →
    let c := s.chan src
    let rows : Nat → List (InReq × Instr) := fun sq => [(.upd k1 k2 ty, .rupd src sq k1 k2 ty),
      (.enq d k1, .renq src sq d k1), (.add k1 k2, .radd src sq k1 k2),
      (.atom k1 k2 k3 ty op fpc.toNat, .ratom src sq k1 k2 k3 ty ⟨op, fpc⟩), (.put k1 bs, .putOp (.far src sq k1 bs) u)]
    (∀ e ∈ rows c.nextIn, c.early = [] →
      (s.setChan src { c with early := [(c.nextIn, e.1)] }).applyIn e.1 = .ok v w →
      exec e.2 s = .next (v.replied src c.nextIn w)) ∧
    (∀ sq, ∀ e ∈ rows sq, (sq + 2 ^ 32 - c.nextIn) % 2 ^ 32 < Config.channelWindow →
      (∀ f ∈ c.early, f.1 ≠ sq ∧ f.1 ≠ c.nextIn) → sq ≠ c.nextIn →
      exec e.2 s = .next (s.setChan src { c with early := c.early ++ [(sq, e.1)] })) ∧
    ∀ sq, ∀ e ∈ rows sq, Config.channelWindow ≤ (sq + 2 ^ 32 - c.nextIn) % 2 ^ 32 → exec e.2 s = .next s) ∧
  (∀ (s : State) (pkg sq : Nat), ∃ t : State, exec (.remoteRetransmit pkg sq) s = .next t ∧
    t.outReqs.length = s.outReqs.length ∧ ({ t with outReqs := s.outReqs } : State) = s ∧
    ∀ (k : Nat) (r : OutReq), s.outReqs[k]? = some r → t.outReqs[k]? =
      some (if r.pkg = pkg ∧ r.sq = some sq ∧ r.sentAt + 20000 ≤ s.now then { r with sentAt := s.now } else r)) ∧
  (∀ (s : State) (n : Nat) (o : Op), s.op? n = some o → o.stage = .active →
    (∃ r ∈ s.outReqs, r.op = o.id ∧ r.firstAt + 1000000000 ≤ s.now) →
    exec (.remoteUnreachable n) s = .next (s.endRemote n o.id 0x06 0 none))

/-- R189, R289, R427, R461, R467, R472 to R475: on a link on which no access waits, the host reads and writes device memory
below 2⁴⁰ through its windows and the mailbox above it, and an access to bytes that a pair holds waits; each mailbox command that stands with GO, and is accepted, responds and is done; power-good verifies
the firmware and sets the registers of R433; each stage of bring-up follows the one before; an error takes its
resource out of service, and its test's end puts it back or retires it, with one KIND 5 record. The line of accesses that wait on a
link (log 57), and the numbers of units and who uses them (log 14), are the model's choices. -/
def Obligations.HostComplete : Prop :=
  (∀ (s : State) (link addr len : Nat) (bs : List Byte), s.hostHead (link % 2) = none →
    (addr + len ≤ 2 ^ 40 → ((piecesOf addr len).any fun p => s.barred none p.1 p.2) = false →
      exec (.hostAccess link false addr len bs) s =
        .next ((piecesOf addr len).foldl (fun (s : State) (p : Nat × Nat) => s.hostLoad (link % 2) p) s)) ∧
    (addr + bs.length ≤ 2 ^ 40 → ((piecesOf addr bs.length).any fun p => s.barred none p.1 p.2) = false →
      exec (.hostAccess link true addr len bs) s = .next ((piecesOf addr bs.length).foldl
        (fun (s : State) (p : Nat × Nat) => s.hostStore (link % 2) p ((bs.drop (p.1 - addr)).take p.2)) s)) ∧
    (2 ^ 40 ≤ addr → addr + bs.length ≤ 2 ^ 40 + 4096 → 1 ≤ bs.length →
      exec (.hostAccess link true addr len bs) s = .next (s.mboxWrite (addr - 2 ^ 40) bs)) ∧
    ∀ write, s.hostBarred ⟨link % 2, write, addr, len, bs⟩ = true → exec (.hostAccess link write addr len bs) s =
      .next { s with hostIn := s.hostIn ++ [⟨link % 2, write, addr, len, bs⟩] }) ∧
  (∀ (s : State) (code : Nat), s.mboxGo = true → s.mboxCommand = code →
    let inactive := 1 - s.fw.active
    let free : State := { s with freeSeq := s.freeSeq + 1 }
    (code = 2 → exec .mboxLog s = .next ((s.respond (s.logBytes (s.mboxWord 8).toNat)).mboxDone 0)) ∧
    (code = 4 → (s.mboxWord 0x808).toNat ≤ (s.fwSlot inactive).length →
      let image := (s.fwSlot inactive).take (s.mboxWord 0x808).toNat ++ rdBytes s.mailbox 8 2048
      let fw := { s.fw with slots := s.fw.slots.set inactive image }
      exec .mboxFwstage s = .next (({ s with fw := fw } : State).mboxDone 0)) ∧
    (code = 5 → exec .mboxFwactivate s = .next (
      if Config.firmwareVerifies (s.fwSlot inactive) = false then s.mboxDone 2
      else if Config.firmwareVersion (s.fwSlot inactive) < Config.fusedMinimum then s.mboxDone 4
      else ({ s with fw := { s.fw with nextActive := inactive } } : State).mboxDone 0)) ∧
    (s.fw.ran = true →
      (code = 1 → exec .mboxSensors s =
        .next ((free.respond ((List.range 2048).map fun k => Config.sensorByte s.freeSeq k)).mboxDone 0)) ∧
      (code = 3 → exec .mboxAttest s = .next ((free.respond (s.report ++
        fit 64 (Config.ecdsaSign s.freeSeq (Sha.sha256 s.report)) ++ fit 64 Config.identityKey)).mboxDone 0)) ∧
      (code = 6 → exec .mboxReset s = .next s.resetPackage) ∧
      (code = 7 → exec .mboxTime s = .next ((s.respond (leBytes s.now 8)).mboxDone 0)))) ∧
  (∀ s : State, (s.bring.power = false → ∃ t : State, exec .powerGood s = .next t ∧ t.bring.power = true ∧
      t.fw.ran = (s.fwRuns s.fw.active || s.fwRuns (1 - s.fw.active)) ∧
      t.packageReg 32 = 0x00101FF0 ∧ ∀ r, 33 ≤ r → r ≤ 39 → t.packageReg r = 0) ∧
    (s.bring.power = true → s.fw.ran = true → exec (.bringupStage .firmware) s =
      .next { s with bring := { s.bring with firmware := true } }) ∧
    (∀ c, s.bring.firmware = true → c < 128 → c / 32 ≤ s.bring.dies.length → s.coreHeld c = false →
      exec (.bringupStage (.core c)) s = .next { s with inService := Table.set false s.inService c true }) ∧
    (s.bring.firmware = true → s.bring.dies.length < 4 → ∃ t, exec (.bringupStage (.die s.bring.dies.length)) s = .next t ∧
      t.bring.dies = s.bring.dies ++ [s.bring.dies.length] ∧ t.svcDies = s.svcDies ||| 2 ^ s.bring.dies.length) ∧
    (s.bring.dies.length = 4 → s.bring.cal8 = false → exec (.bringupStage .matrix8) s =
      .next { s with bring := { s.bring with cal8 := true }, svcLevel := 2 }) ∧
    (s.bring.cal8 = true → s.bring.cal4 = false → exec (.bringupStage .matrix4) s =
      .next { s with bring := { s.bring with cal4 := true }, svcLevel := 3 })) ∧
  (∀ (s : State) (cls unit : Nat),
    (∀ l users, (s.slices.any fun x => x.uses cls unit users) = false →
      exec (.errorDetected cls unit ⟨l, users⟩) s = .next ((s.poisonAt l).takeOut cls unit)) ∧
    (∀ e, s.testing.contains (resourceKey cls unit) = true →
      let u : State := { s with testing := s.testing.filter fun k => k != resourceKey cls unit }
      let v := match e with | .passed => u.putBack cls unit | .failed parts => u.retire cls unit parts
      exec (.errorTestDone cls unit e) s = .next (v.post v.mcq.toNat (recordOf 5
        { Trap.bare with aux := BitVec.ofNat 64 (cls % 256 + unit % 2 ^ 24 * 256) } 0 v.now (if e = .passed then 0 else 1)))))

/-! Frames -/

/-- The instruction rows that act within their instance alone: flow, integer, float and stream rows, `YIELD`, `IDX`, `TSTATE`,
`TREE`, `ACCEPT`, `TRAP`, `RDSR`, `WRSR` and `SWITCH`. -/
def Sys2Proof.Machine.staysInside (i : Instr) : Bool :=
  match i.info with
  | some p => decide (p.op ≤ 0x83) || [0x8C, 0x91, 0xB1, 0xCE, 0xCF, 0xE0, 0xE1, 0xE2, 0xE4].contains p.op
  | none => false

/-- Whether an instruction row's opcode is among those given. -/
def Sys2Proof.Machine.rowIn (l : List Nat) (i : Instr) : Bool :=
  match i.info with
  | some p => l.contains p.op
  | none => false

/-- The rows that write memory as they fire, or have keys of the sort yard applied: `ENQ`, `FCLOSE`, `WAITC`, `ATOM`, `FLUSH`,
`WAITM`, `TDEF`, `PATCH`, `FREEZE` and `ABORT`. -/
def Sys2Proof.Machine.memRows : List Nat := [0x8B, 0x8E, 0x90, 0xA9, 0xAC, 0xAD, 0xAE, 0xE3, 0xE5, 0xE9]

/-- The rows that write local space as they fire: `ST`, `STX`, `STE`, `STF`, `TST`, `BANKMODE`, `FREEZE` and `ABORT`. -/
def Sys2Proof.Machine.localRows : List Nat := [0xA1, 0xA3, 0xA6, 0xA7, 0xB3, 0xB4, 0xE5, 0xE9]

/-- The rows that change a full/empty bit: `LDF`, `LDFK`, `STE`, `STF`, `FESET`, `BANKMODE`, `FREEZE` and `ABORT`. -/
def Sys2Proof.Machine.fullRows : List Nat := [0xA4, 0xA5, 0xA6, 0xA7, 0xA8, 0xB4, 0xE5, 0xE9]

/-- R16 to R24, R41, R162, R412: an instruction that acts within its instance changes nothing but that instance, and, where it
traps, its slice's status, causes and reported trap and the strand's holds: no byte of memory or of local space, no unit
of the package, no other slice or strand, and no register, status, flag or program counter of its own strand. No instruction
row but `THAW` changes a register, status, flag, program counter or call depth of any strand as it fires, nor a package
register or configuration item; memory, local space, full/empty bits, banks, tiles, matrix units with their accumulators
and barriers are changed by the rows alone that the statement names for each. -/
def Obligations.FiringFrame : Prop :=
  (∀ (i : Instr) (s t : State), staysInside i = true → exec i s = .next t → ∃ c, s.cur = some c ∧ s.sameBut t ∧
    (∀ a, rdByte t.mem a = rdByte s.mem a) ∧
    (∀ h ∈ t.holds, h ∈ s.holds) ∧ (∀ h ∈ s.holds, h ∈ t.holds ∨ (h.slice = c.st.slice ∧ h.rank = c.st.rank)) ∧
    (∀ id, id ≠ c.st.slice → t.slice? id = s.slice? id) ∧ (∀ q, q ≠ c.st → t.strand? q = s.strand? q) ∧
    (∀ x y, s.slice? c.st.slice = some x → t.slice? c.st.slice = some y →
      ({ y with status := x.status, cause := x.cause, trap := x.trap, strands := x.strands } : Slice) = x) ∧
    (∀ k k', s.strand? c.st = some k → t.strand? c.st = some k' → ({ k' with inst := k.inst } : Strand) = k)) ∧
  (∀ (i : Instr) (s t : State), i.isWord = true → rowIn [0xE6] i = false → exec i s = .next t →
    (∀ r, t.packageReg r = s.packageReg r) ∧ t.cfg = s.cfg ∧
    (∀ q z z', s.strand? q = some z → t.strand? q = some z' → z'.regs = z.regs ∧ z'.fpc = z.fpc ∧ z'.fflags = z.fflags ∧
      z'.pc = z.pc ∧ z'.csdepth = z.csdepth ∧ z'.ovfptr = z.ovfptr ∧ z'.ended = z.ended ∧ z'.check = z.check) ∧
    (rowIn memRows i = false → ∀ a, rdByte t.mem a = rdByte s.mem a) ∧
    (rowIn localRows i = false → ∀ a, rdByte t.loc a = rdByte s.loc a) ∧
    (rowIn fullRows i = false → t.full = s.full) ∧
    (rowIn [0xA2, 0xA3, 0xB4, 0xE5, 0xE9] i = false → t.banks = s.banks) ∧
    (rowIn [0xAE, 0xAF, 0xB0, 0xB2, 0xB3, 0xE5, 0xE9] i = false → t.tiles = s.tiles) ∧
    (rowIn [0xE5, 0xE9] i = false → t.mx = s.mx) ∧
    (rowIn [0x84, 0x85, 0x86, 0x87, 0x88, 0x89, 0x8A, 0xE5, 0xE9] i = false → t.barriers = s.barriers))
end

