-- ==== Sys2Proof/Laws/Fire.lean ====
section
/-! SUPPORT. What the shared shapes of a firing do on the operands that stand there: one lemma per shape. -/

namespace Sys2Proof.Machine

/-- A step at a station whose slice is not halted. -/
theorem atStation_acts {s : State} {st : SRef} {i : Nat} (h : s.acts st i) (k : SRef → Nat → State → State) :
    atStation s k = .next (k st i (s.drain st i)) := by
  obtain ⟨hc, ⟨x, hx, hl⟩, hi⟩ := h
  obtain ⟨y, hy⟩ := Option.isSome_iff_exists.mp hi
  simp [atStation, hc, hx, hy, hl]

/-- No station: the one fault of the model. -/
theorem atStation_none {s : State} (h : s.cur = none) (k : SRef → Nat → State → State) :
    atStation s k = .fault .noStation := by
  simp [atStation, h]

/-- A halted slice fires nothing (R413). -/
theorem atStation_halted {s : State} {st : SRef} {i : Nat} {x : Slice} {y : Inst} (hc : s.cur = some ⟨st, i⟩)
    (hx : s.slice? st.slice = some x) (hy : s.inst? st = some y) (hl : x.live = false) (k : SRef → Nat → State → State) :
    atStation s k = .next s := by
  simp [atStation, hc, hx, hy, hl]

/-- A pure instruction fires on its operands. -/
theorem firePure_goes {s : State} {st : SRef} {i : Nat} {h : Hdr} {data : List Slot} {repl imm : Word} {r : Ready}
    (hg : s.goes st i h data repl imm r) (g : Env → Vals → Word × Nat) :
    firePure h data repl imm g s =
      .next (s.fired st i h data r (g ((s.drain st i).env st) r.v).1 (g ((s.drain st i).env st) r.v).2) := by
  obtain ⟨ha, hp⟩ := hg
  rw [firePure, fireWith, atStation_acts ha]
  unfold State.pick at hp
  cases hx : (s.drain st i).inst? st with
  | none => simp [hx] at hp
  | some x =>
    simp only [hx] at hp
    cases hr : x.readies i h data repl imm true with
    | nil => simp [hr] at hp
    | cons p ps =>
      simp only [hr, List.head?_cons, Option.some.injEq] at hp
      subst hp
      simp [hr, settleEmpty, State.fired]

/-- A pure-shaped instruction whose `go` the caller gives. -/
theorem fireWith_goes {s : State} {st : SRef} {i : Nat} {h : Hdr} {data : List Slot} {repl imm : Word} {r : Ready}
    (hg : s.goes st i h data repl imm r) (act : SRef → Nat → Kind → Ready → State → State) :
    fireWith h data repl imm true act s = .next (act st i .go r (s.drain st i)) := by
  obtain ⟨ha, hp⟩ := hg
  rw [fireWith, atStation_acts ha]
  unfold State.pick at hp
  cases hx : (s.drain st i).inst? st with
  | none => simp [hx] at hp
  | some x =>
    simp only [hx] at hp
    cases hr : x.readies i h data repl imm true with
    | nil => simp [hr] at hp
    | cons p ps =>
      simp only [hr, List.head?_cons, Option.some.injEq] at hp
      subst hp
      simp [hr]

/-- An instruction with an effect that can be made. -/
theorem fireEff_goes {s t : State} {st : SRef} {i : Nat} {h : Hdr} {data : List Slot} {repl imm : Word} {r : Ready}
    (hg : s.goes st i h data repl imm r) {eff : SRef → Nat → Ready → State → Eff}
    (he : eff st i r (s.drain st i) = .done t) :
    fireEff h data repl imm eff s = .next t := by
  obtain ⟨ha, hp⟩ := hg
  rw [fireEff, atStation_acts ha]
  unfold State.pick at hp
  cases hx : (s.drain st i).inst? st with
  | none => simp [hx] at hp
  | some x =>
    simp only [hx] at hp
    cases hr : x.readies i h data repl imm true with
    | nil => simp [hr] at hp
    | cons p ps =>
      simp only [hr, List.head?_cons, Option.some.injEq] at hp
      subst hp
      simp [hr, tryPicks, he]

/-- An instruction with its own rule for a set that it can take. -/
theorem fireRaw_takes {s u : State} {st : SRef} {i : Nat} {h : Hdr} {data : List Slot} {sl : Slot} {t : Tok}
    {l : List (Slot × Tok)} (hk : s.takes st i h data sl t l)
    {act : SRef → Nat → List (Slot × Tok) → Ready → State → Eff}
    (he : act st i ((sl, t) :: l) (readyOf ((sl, t) :: l) t) (s.drain st i) = .done u) :
    fireRaw h data act s = .next u := by
  obtain ⟨ha, hs⟩ := hk
  rw [fireRaw, atStation_acts ha]
  unfold State.firstSet at hs
  cases hx : (s.drain st i).inst? st with
  | none => simp [hx] at hs
  | some x =>
    cases hn : (s.drain st i).node? st i with
    | none => simp [hx, hn] at hs
    | some nd =>
      simp only [hx, hn] at hs
      by_cases hf : nd.free = true
      · simp only [hf, if_true] at hs ⊢
        cases hr : nd.sets (x.waited i (usedSlots h data)) (usedSlots h data) with
        | nil => simp [hr] at hs
        | cons p ps =>
          simp only [hr, List.head?_cons, Option.some.injEq] at hs
          subst hs
          simp only [trySets, List.contains_nil, Bool.false_eq_true, if_false]
          unfold readyOf at he
          rw [he]
      · simp [hf] at hs

/-- A start-fired instruction fires once (R16, R129). -/
theorem fireStart_next {s : State} {st : SRef} {i : Nat} {nd : Node} (ha : s.acts st i)
    (hn : (s.drain st i).node? st i = some nd) (hf : nd.fired.contains ⟨0, 0⟩ = false) (hfr : nd.free = true)
    (hr : (s.drain st i).outRoom st i nd.targets 0 0 = true) (val : SRef → State → Word) :
    fireStart val s = .next (((s.drain st i).modNode st i fun n => { n with fired := [⟨0, 0⟩] }).emit st i
      ⟨val st (s.drain st i), 0, 0, true, false⟩) := by
  rw [fireStart, atStation_acts ha]
  have hf' : (⟨0, 0⟩ : Anti) ∉ nd.fired := by simpa using hf
  simp [hn, hf', hfr, hr]

/-- An instruction that fires once for a tag, on what it has gathered (R378). -/
theorem fireGather_gathers {s v z : State} {st : SRef} {i : Nat} {h : Hdr} {w : Want} {tag : Nat} {ws : List Word}
    (hg : s.gathers st i h w tag ws v) {act : SRef → Nat → Nat → List Word → State → Fired}
    (ha : act st i tag ws v = .ok z) : fireGather h w act s = .next z := by
  obtain ⟨hs, x, nd, sl, t, l, g, hx, hn, hf, hst, hp, hl, ht, hadd, h1, h2, hw, hb, hv⟩ := hg
  subst ht hw hv
  rw [fireGather, atStation_acts hs]
  simp only [hx, hn, hf, Bool.not_true, Bool.false_eq_true, if_false, hst, hp]
  rw [gatherTake]
  simp only [hadd, h1, h2, hl]
  have hbad : (w.strict && !false && !false && (decide (t.idx + 1 ≠ g.elems.length) ||
      decide (w.most (w.fed nd) < g.early.length + g.elems.length) ||
      (true && decide (g.early.length + g.elems.length < w.need)))) = false := by
    cases hs : w.strict with
    | false => rfl
    | true =>
      obtain ⟨a, b, c⟩ := hb hs
      simp only [List.length_append] at b c
      simp [a]
      omega
  simp only [hbad, Bool.false_eq_true, if_false, if_true]
  unfold gatherFire
  simp only [h1, h2, Bool.false_eq_true, if_false, ha]

/-- A firing in which no check finds a trap is made. -/
theorem firedOr_none {c : Option Nat} (h : c = none) (s : State) : firedOr c s = .ok s := by subst h; rfl

/-- A named message that no check traps is fired. -/
theorem fireNamed_gathers {s v : State} {st : SRef} {i tag : Nat} {h : Hdr} {x : EngImm} {w : Want} {port oper : Nat}
    {lay : List Word → List Word × Word} {ws : List Word} {o : List Word × Word} {t : Strand}
    (ht : v.strand? st = some t) (hg : s.gathers st i h w tag ws v) (ho : lay ws = o)
    (hm : v.messageTrap st t (messageWords port oper x.done o) = none) :
    fireNamed h x w port oper lay s =
      .next (v.fireMessage st i tag (v.stamped st t i tag (messageWords port oper x.done o) x.done) x.done true none) := by
  subst ho
  rw [fireNamed]
  refine fireGather_gathers hg ?_
  rw [ht]
  exact firedOr_none hm _

end Sys2Proof.Machine
end

