-- ==== Sys2Proof/Laws/Memory.lean ====
section
/-! SUPPORT. Sparse tables and memory: what a write leaves to be read, and that every memory operation keeps the
canonical form. -/

namespace Sys2Proof.Machine

/-! Tables -/

variable {α : Type}

/-- Keys below those of a table read the default. -/
theorem table_get_below [DecidableEq α] {d : α} {lo : Nat} {t : Table α} (h : Table.wfFrom d lo t = true) {k : Nat}
    (hk : k < lo) : Table.get d t k = d := by
  induction t generalizing lo with
  | nil => rfl
  | cons e r ih =>
    obtain ⟨j, v⟩ := e
    simp only [Table.wfFrom, Bool.and_eq_true, decide_eq_true_eq] at h
    have hj : j ≠ k := by omega
    simp only [Table.get, if_neg hj]
    exact ih h.2 (by omega)

/-- A table is canonical from a lower key as well. -/
theorem table_wf_mono [DecidableEq α] {d : α} {lo lo' : Nat} {t : Table α} (h : Table.wfFrom d lo t = true)
    (hl : lo' ≤ lo) : Table.wfFrom d lo' t = true := by
  cases t with
  | nil => rfl
  | cons e r =>
    simp only [Table.wfFrom, Bool.and_eq_true, decide_eq_true_eq] at h ⊢
    exact ⟨⟨by omega, h.1.2⟩, h.2⟩

/-- A table without a key reads the default there. -/
theorem table_get_drop_same {d : α} (t : Table α) (k : Nat) : Table.get d (t.filter fun e => decide (e.1 ≠ k)) k = d := by
  induction t with
  | nil => rfl
  | cons e r ih =>
    by_cases he : e.1 = k
    · simpa [List.filter_cons, he] using ih
    · simpa [List.filter_cons, he, Table.get] using ih

/-- A table without a key reads as before elsewhere. -/
theorem table_get_drop_other {d : α} (t : Table α) {k k' : Nat} (hk : k' ≠ k) :
    Table.get d (t.filter fun e => decide (e.1 ≠ k)) k' = Table.get d t k' := by
  induction t with
  | nil => rfl
  | cons e r ih =>
    by_cases he : e.1 = k
    · simpa [List.filter_cons, he, Table.get, Ne.symm hk] using ih
    · simp only [List.filter_cons, he, Table.get, ne_eq, not_false_eq_true, decide_true, if_true, ih]

/-- A value put at a key is read there. -/
theorem table_get_put_same {d : α} (t : Table α) (k : Nat) (v : α) : Table.get d (Table.put t k v) k = v := by
  induction t with
  | nil => simp [Table.put, Table.get]
  | cons e r ih =>
    obtain ⟨j, w⟩ := e
    by_cases hj : j < k
    · have : j ≠ k := by omega
      simp only [Table.put, if_pos hj, Table.get, if_neg this, ih]
    · by_cases he : j = k <;> simp [Table.put, hj, he, Table.get]

/-- A value put at a key leaves every other key alone. -/
theorem table_get_put_other {d : α} (t : Table α) {k k' : Nat} (hk : k' ≠ k) (v : α) :
    Table.get d (Table.put t k v) k' = Table.get d t k' := by
  induction t with
  | nil => simp [Table.put, Table.get, Ne.symm hk]
  | cons e r ih =>
    obtain ⟨j, w⟩ := e
    by_cases hj : j < k
    · simp only [Table.put, if_pos hj, Table.get, ih]
    · by_cases he : j = k
      · subst he
        simp [Table.put, Table.get, Ne.symm hk]
      · simp [Table.put, hj, he, Table.get, Ne.symm hk]

/-- A read after a write to the same key. -/
theorem table_get_set_same [DecidableEq α] (d : α) (t : Table α) (k : Nat) (v : α) :
    Table.get d (Table.set d t k v) k = v := by
  by_cases hv : v = d
  · subst hv
    simpa [Table.set] using table_get_drop_same t k
  · simpa [Table.set, hv] using table_get_put_same t k v

/-- A write leaves every other key alone. -/
theorem table_get_set_other [DecidableEq α] (d : α) (t : Table α) {k k' : Nat} (hk : k' ≠ k) (v : α) :
    Table.get d (Table.set d t k v) k' = Table.get d t k' := by
  by_cases hv : v = d
  · simpa [Table.set, hv] using table_get_drop_other t hk
  · simpa [Table.set, hv] using table_get_put_other t hk v

/-- Entries left out keep the canonical form. -/
theorem table_filter_wf [DecidableEq α] {d : α} {lo : Nat} {t : Table α} (p : Nat × α → Bool)
    (h : Table.wfFrom d lo t = true) : Table.wfFrom d lo (t.filter p) = true := by
  induction t generalizing lo with
  | nil => rfl
  | cons e r ih =>
    obtain ⟨j, v⟩ := e
    simp only [Table.wfFrom, Bool.and_eq_true, decide_eq_true_eq] at h
    by_cases hp : p (j, v) = true
    · simp only [List.filter_cons, hp, if_true, Table.wfFrom, Bool.and_eq_true, decide_eq_true_eq]
      exact ⟨h.1, ih h.2⟩
    · simp only [List.filter_cons, hp]
      exact table_wf_mono (ih h.2) (by omega)

/-- A value other than the default put at a key keeps the canonical form. -/
theorem table_put_wf [DecidableEq α] {d : α} {lo : Nat} {t : Table α} (h : Table.wfFrom d lo t = true) {k : Nat}
    (hk : lo ≤ k) {v : α} (hv : v ≠ d) : Table.wfFrom d lo (Table.put t k v) = true := by
  induction t generalizing lo with
  | nil => simp [Table.put, Table.wfFrom, hv, hk]
  | cons e r ih =>
    obtain ⟨j, w⟩ := e
    simp only [Table.wfFrom, Bool.and_eq_true, decide_eq_true_eq] at h
    by_cases hj : j < k
    · simp only [Table.put, if_pos hj, Table.wfFrom, Bool.and_eq_true, decide_eq_true_eq]
      exact ⟨h.1, ih h.2 (by omega)⟩
    · by_cases he : j = k
      · subst he
        simp [Table.put, Table.wfFrom, hv, hk, h.2]
      · have hkj : k + 1 ≤ j := by omega
        simp [Table.put, hj, he, Table.wfFrom, hv, hk, h.1.2, h.2, hkj]

/-- A write keeps the canonical form. -/
theorem table_set_wf [DecidableEq α] {d : α} {lo : Nat} {t : Table α} (h : Table.wfFrom d lo t = true) {k : Nat}
    (hk : lo ≤ k) (v : α) : Table.wfFrom d lo (Table.set d t k v) = true := by
  by_cases hv : v = d
  · simpa [Table.set, hv] using table_filter_wf _ h
  · simpa [Table.set, hv] using table_put_wf h hk hv

/-- Two canonical tables that read alike are equal. -/
theorem table_ext [DecidableEq α] {d : α} {lo : Nat} {t u : Table α} (ht : Table.wfFrom d lo t = true)
    (hu : Table.wfFrom d lo u = true) (h : ∀ k, Table.get d t k = Table.get d u k) : t = u := by
  induction t generalizing lo u with
  | nil =>
    cases u with
    | nil => rfl
    | cons e r =>
      obtain ⟨j, v⟩ := e
      simp only [Table.wfFrom, Bool.and_eq_true, decide_eq_true_eq] at hu
      have := h j
      simp only [Table.get, if_true] at this
      exact absurd this.symm hu.1.2
  | cons e r ih =>
    obtain ⟨j, v⟩ := e
    have ht' := ht
    simp only [Table.wfFrom, Bool.and_eq_true, decide_eq_true_eq] at ht
    cases u with
    | nil =>
      have := h j
      simp only [Table.get, if_true] at this
      exact absurd this ht.1.2
    | cons f q =>
      obtain ⟨i, w⟩ := f
      have hu' := hu
      simp only [Table.wfFrom, Bool.and_eq_true, decide_eq_true_eq] at hu
      have hij : i = j := by
        rcases Nat.lt_trichotomy i j with hlt | heq | hgt
        · have := h i
          simp only [Table.get, if_true] at this
          have hne : j ≠ i := by omega
          rw [if_neg hne, table_get_below ht.2 (by omega)] at this
          exact absurd this.symm hu.1.2
        · exact heq
        · have := h j
          simp only [Table.get, if_true] at this
          have hne : i ≠ j := by omega
          rw [if_neg hne, table_get_below hu.2 (by omega)] at this
          exact absurd this ht.1.2
      subst hij
      have hv : v = w := by simpa [Table.get] using h i
      subst hv
      congr 1
      apply ih ht.2 hu.2
      intro k
      by_cases hk : k = i
      · subst hk
        rw [table_get_below ht.2 (Nat.lt_succ_self _), table_get_below hu.2 (Nat.lt_succ_self _)]
      · have := h k
        have hne : i ≠ k := Ne.symm hk
        simpa only [Table.get, if_neg hne] using this

/-! Memory -/

/-- The byte read after it is written. -/
theorem rdByte_wrByte_same (m : List Host.Cell) (a : Nat) (b : Byte) : rdByte (wrByte m a b) a = b :=
  table_get_set_same _ m a b

/-- A byte elsewhere is as before. -/
theorem rdByte_wrByte_other (m : List Host.Cell) {a a' : Nat} (h : a' ≠ a) (b : Byte) :
    rdByte (wrByte m a b) a' = rdByte m a' :=
  table_get_set_other _ m h b

/-- One byte written keeps the canonical form. -/
theorem wrByte_wf {m : List Host.Cell} (h : Memory.wf m = true) (a : Nat) (b : Byte) : Memory.wf (wrByte m a b) = true :=
  table_set_wf h (Nat.zero_le a) b

/-- Bytes written keep the canonical form. -/
theorem wrBytes_wf {m : List Host.Cell} (h : Memory.wf m = true) (a : Nat) (bs : List Byte) :
    Memory.wf (wrBytes m a bs) = true := by
  induction bs generalizing m a with
  | nil => exact h
  | cons b bs ih => exact ih (wrByte_wf h a b) (a + 1)

/-- A number written keeps the canonical form. -/
theorem wrNum_wf {m : List Host.Cell} (h : Memory.wf m = true) (a n v : Nat) : Memory.wf (wrNum m a n v) = true :=
  wrBytes_wf h a _

/-- A byte outside those written is as before. -/
theorem rdByte_wrBytes_other (m : List Host.Cell) (a : Nat) (bs : List Byte) {k : Nat}
    (h : k < a ∨ a + bs.length ≤ k) : rdByte (wrBytes m a bs) k = rdByte m k := by
  induction bs generalizing m a with
  | nil => rfl
  | cons b bs ih =>
    simp only [List.length_cons] at h
    rw [wrBytes, ih, rdByte_wrByte_other m (by omega)]
    omega

/-- The byte at a written place is the one written. -/
theorem rdByte_wrBytes_same (m : List Host.Cell) (a : Nat) (bs : List Byte) {k : Nat}
    (hk : k < bs.length) : rdByte (wrBytes m a bs) (a + k) = bs[k] := by
  induction bs generalizing m a k with
  | nil => simp at hk
  | cons b bs ih =>
    cases k with
    | zero =>
      rw [wrBytes, rdByte_wrBytes_other _ _ _ (by omega)]
      simpa using rdByte_wrByte_same m a b
    | succ k =>
      have hk' : k < bs.length := by simpa using hk
      rw [wrBytes, show a + (k + 1) = a + 1 + k by omega, ih (wrByte m a b) (a + 1) hk']
      rfl

/-- Bytes written are read back. -/
theorem rdBytes_wrBytes_same (m : List Host.Cell) (a : Nat) (bs : List Byte) :
    rdBytes (wrBytes m a bs) a bs.length = bs := by
  induction bs generalizing m a with
  | nil => rfl
  | cons b bs ih =>
    simp only [List.length_cons, rdBytes, wrBytes]
    rw [ih (wrByte m a b) (a + 1), rdByte_wrBytes_other _ _ _ (by omega), rdByte_wrByte_same]

/-- A cleared range keeps the canonical form. -/
theorem clear_wf {m : List Host.Cell} (h : Memory.wf m = true) (lo hi : Nat) : Memory.wf (Table.clear m lo hi) = true :=
  table_filter_wf _ h

/-- Cells left out keep the canonical form. -/
theorem filter_wf {m : List Host.Cell} (h : Memory.wf m = true) (p : Host.Cell → Bool) : Memory.wf (m.filter p) = true :=
  table_filter_wf p h

/-- Cells written one by one keep the canonical form. -/
theorem foldl_wrByte_wf {m : List Host.Cell} (h : Memory.wf m = true) (f : Host.Cell → Nat) (l : List Host.Cell) :
    Memory.wf (l.foldl (fun m c => wrByte m (f c) c.2) m) = true := by
  induction l generalizing m with
  | nil => exact h
  | cons c l ih => exact ih (wrByte_wf h _ _)

/-- A table built by writes from the empty one is canonical. -/
theorem moveTable_wf [DecidableEq α] (mv : Move) (off size : Nat) (d : α) (t : Table α) :
    Table.wf d (moveTable mv off size d t) = true := by
  unfold moveTable Table.wf
  suffices h : ∀ (l m : Table α), Table.wfFrom d 0 m = true → Table.wfFrom d 0 (l.foldl (fun m e =>
      if off ≤ e.1 ∧ (mv.any fun p => p.2 == (e.1 - off) / size) ∧ !(mv.any fun p => p.1 == (e.1 - off) / size) then m
      else Table.set d m (keyTo mv off size e.1) e.2) m) = true from h t [] rfl
  intro l
  induction l with
  | nil => exact fun m h => h
  | cons e l ih =>
    intro m h
    apply ih
    dsimp only
    split
    · exact h
    · exact table_set_wf h (Nat.zero_le _) _

/-! The places of the model that write memory or local space keep the canonical form of both -/

/-- A slice changed leaves memory alone. -/
theorem modSlice_memOk {s : State} (h : s.memOk) (id : Nat) (f : Slice → Slice) : (s.modSlice id f).memOk := h

/-- Bytes written at a physical address, and nothing else. -/
theorem pokeMem_memOk {s : State} (h : s.memOk) (pa : Nat) (bs : List Byte) : (s.pokeMem pa bs).memOk := by
  obtain ⟨hm, hl⟩ := h
  unfold State.pokeMem State.soil State.markWrite State.memOk
  split <;> exact ⟨wrBytes_wf hm pa bs, hl⟩

/-- What leaves on a link. -/
theorem hostSend_memOk {s : State} (h : s.memOk) (k : HostMsgKind) (pa : Nat) (bs : List Byte) : (s.hostSend k pa bs).memOk := by
  unfold State.hostSend
  split <;> exact h

/-- Bytes written at a physical address. -/
theorem poke_memOk {s : State} (h : s.memOk) (pa : Nat) (bs : List Byte) : (s.poke pa bs).memOk :=
  hostSend_memOk (pokeMem_memOk h pa bs) _ _ _

/-- Bytes of local space written. -/
theorem pokeLocal_memOk {s : State} (h : s.memOk) (key : Nat) (bs : List Byte) : (s.pokeLocal key bs).memOk :=
  ⟨h.1, wrBytes_wf h.2 key bs⟩

/-- Bytes at the other name of their cells. -/
theorem mirror_memOk {s : State} (h : s.memOk) (pa n : Nat) : (s.mirror pa n).memOk := by
  unfold State.mirror
  split
  · exact h
  · exact ⟨wrBytes_wf h.1 _ _, h.2⟩

/-- A store through a leaf. -/
theorem through_memOk {u : State} (h : u.memOk) (s : State) (x : Xlat) (pa n : Nat) : (s.through u x pa n).memOk := by
  unfold State.through
  split
  · exact mirror_memOk h pa n
  · exact h

/-- A unit written back. -/
theorem writeBack_memOk {s : State} (h : s.memOk) (pa : Nat) : (s.writeBack pa).memOk := by
  unfold State.writeBack
  dsimp only
  split
  · exact mirror_memOk h _ _
  · exact h

/-- A bank cleared. -/
theorem clearBank_memOk {s : State} (h : s.memOk) (core b : Nat) : (s.clearBank core b).memOk :=
  ⟨h.1, clear_wf h.2 _ _⟩

/-- Cores cleared. -/
theorem clearCores_memOk {s : State} (h : s.memOk) (cores : List Nat) : (s.clearCores cores).memOk :=
  ⟨h.1, filter_wf h.2 _⟩

/-- A slice moved between cores. -/
theorem moveCores_memOk {s : State} (h : s.memOk) (id : Nat) (mv : Move) : (s.moveCores id mv).memOk :=
  ⟨h.1, moveTable_wf _ _ _ _ _⟩

/-- Reset lists no byte. -/
theorem reset_memOk : State.reset.memOk := ⟨rfl, rfl⟩

end Sys2Proof.Machine
end

