-- ==== Sys2Proof/Laws/Ops.lean ====
section
/-! SUPPORT. Reading a slice, a strand, an instance or a station after one of them is changed, and what sending the held
outputs of a station does. -/

namespace Sys2Proof.Machine

/-! Lists -/

/-- The changed entry. -/
theorem modAt_get_same {α : Type} (l : List α) (n : Nat) (f : α → α) : (modAt l n f)[n]? = l[n]?.map f := by
  induction l generalizing n with
  | nil => simp [modAt]
  | cons a r ih => cases n with
    | zero => simp [modAt]
    | succ n => simpa [modAt] using ih n

/-- Every other entry. -/
theorem modAt_get_other {α : Type} (l : List α) {n k : Nat} (h : k ≠ n) (f : α → α) : (modAt l n f)[k]? = l[k]? := by
  induction l generalizing n k with
  | nil => simp [modAt]
  | cons a r ih => cases n with
    | zero => cases k with
      | zero => exact absurd rfl h
      | succ k => simp [modAt]
    | succ n => cases k with
      | zero => simp [modAt]
      | succ k => simpa [modAt] using ih (by omega : k ≠ n)

/-- The length stays. -/
theorem modAt_length {α : Type} (l : List α) (n : Nat) (f : α → α) : (modAt l n f).length = l.length := by
  induction l generalizing n with
  | nil => rfl
  | cons a r ih => cases n <;> simp [modAt, ih]

/-- A change that changes nothing. -/
theorem modAt_id {α : Type} (l : List α) (n : Nat) {f : α → α} (h : ∀ a, l[n]? = some a → f a = a) : modAt l n f = l := by
  induction l generalizing n with
  | nil => rfl
  | cons a r ih => cases n with
    | zero => simp [modAt, h a (by simp)]
    | succ n => simp [modAt, ih n (by simpa using h)]

/-! Slices -/

/-- A slice read after a change that keeps names. -/
theorem slice?_modSlice (s : State) (id k : Nat) {f : Slice → Slice} (hf : ∀ x, (f x).id = x.id) :
    (s.modSlice id f).slice? k = (s.slice? k).map fun x => if x.id = id then f x else x := by
  unfold State.slice? State.modSlice
  induction s.slices with
  | nil => rfl
  | cons x r ih =>
    by_cases hx : x.id = id
    · by_cases hk : x.id = k <;> simp_all
    · by_cases hk : x.id = k <;> simp_all

/-- A slice is found under its name. -/
theorem slice?_id {s : State} {k : Nat} {x : Slice} (h : s.slice? k = some x) : x.id = k := by
  unfold State.slice? at h
  simpa using List.find?_some h

/-- The changed slice. -/
theorem slice?_modSlice_same (s : State) (id : Nat) {f : Slice → Slice} (hf : ∀ x, (f x).id = x.id) :
    (s.modSlice id f).slice? id = (s.slice? id).map f := by
  rw [slice?_modSlice s id id hf]
  cases h : s.slice? id with
  | none => rfl
  | some x => simp [slice?_id h]

/-- Every other slice. -/
theorem slice?_modSlice_other (s : State) {id k : Nat} (hk : k ≠ id) {f : Slice → Slice} (hf : ∀ x, (f x).id = x.id) :
    (s.modSlice id f).slice? k = s.slice? k := by
  rw [slice?_modSlice s id k hf]
  cases h : s.slice? k with
  | none => rfl
  | some x => simp [slice?_id h, hk]

/-! Strands -/

/-- The changed strand. -/
theorem strand?_modStrand_same (s : State) (st : SRef) (f : Strand → Strand) :
    (s.modStrand st f).strand? st = (s.strand? st).map f := by
  unfold State.strand? State.modStrand
  rw [slice?_modSlice_same s st.slice]
  · cases s.slice? st.slice with
    | none => rfl
    | some x => simp [modAt_get_same]
  · exact fun _ => rfl

/-- Every other strand. -/
theorem strand?_modStrand_other (s : State) {st k : SRef} (hk : k ≠ st) (f : Strand → Strand) :
    (s.modStrand st f).strand? k = s.strand? k := by
  unfold State.strand? State.modStrand
  by_cases hs : k.slice = st.slice
  · have hr : k.rank ≠ st.rank := by
      intro h
      apply hk
      cases k; cases st
      simp_all
    rw [hs, slice?_modSlice_same s st.slice]
    · cases s.slice? st.slice with
      | none => rfl
      | some x => simp [modAt_get_other _ hr]
    · exact fun _ => rfl
  · rw [slice?_modSlice_other s hs]
    exact fun _ => rfl

/-- The status, the descriptor and the like of a slice whose strand is changed. -/
theorem slice?_modStrand (s : State) (st : SRef) (k : Nat) (f : Strand → Strand) :
    (s.modStrand st f).slice? k = (s.slice? k).map fun x =>
      if x.id = st.slice then { x with strands := modAt x.strands st.rank f } else x :=
  slice?_modSlice s st.slice k (fun _ => rfl)

/-! Instances and stations -/

/-- The changed instance. -/
theorem inst?_modInst_same (s : State) (st : SRef) (f : Inst → Inst) :
    (s.modInst st f).inst? st = (s.inst? st).map f := by
  unfold State.inst? State.modInst
  rw [strand?_modStrand_same]
  cases s.strand? st <;> rfl

/-- Every other instance. -/
theorem inst?_modInst_other (s : State) {st k : SRef} (hk : k ≠ st) (f : Inst → Inst) :
    (s.modInst st f).inst? k = s.inst? k := by
  unfold State.inst? State.modInst
  rw [strand?_modStrand_other s hk]

/-- The changed station. -/
theorem node?_modNode_same (s : State) (st : SRef) (i : Nat) (f : Node → Node) :
    (s.modNode st i f).node? st i = (s.node? st i).map f := by
  unfold State.node? State.modNode
  rw [inst?_modInst_same]
  cases s.inst? st with
  | none => rfl
  | some x => simp [Inst.modNode, modAt_get_same]

/-- Every other station of the strand. -/
theorem node?_modNode_other (s : State) (st : SRef) {i j : Nat} (hj : j ≠ i) (f : Node → Node) :
    (s.modNode st i f).node? st j = s.node? st j := by
  unfold State.node? State.modNode
  rw [inst?_modInst_same]
  cases s.inst? st with
  | none => rfl
  | some x => simp [Inst.modNode, modAt_get_other _ hj]

/-- An instance's stations after one is changed. -/
@[simp] theorem modNode_nodes (x : Inst) (i : Nat) (f : Node → Node) : (x.modNode i f).nodes = modAt x.nodes i f := rfl

/-! Sending -/

/-- A station that holds nothing sends nothing. -/
theorem drain_free {x : Inst} {nd : Node} {i : Nat} (seq : Nat) (hn : x.nodes[i]? = some nd) (ho : nd.outq = [])
    (ha : nd.antiOut = []) : x.drain seq i = x := by
  have h1 : x.modNode i (fun n => { n with antiOut := [] }) = x := by
    unfold Inst.modNode
    rw [modAt_id]
    intro a hx
    rw [hn] at hx
    cases hx
    rw [← ha]
  have h2 : x.modNode i (fun n => { n with outq := [] }) = x := by
    unfold Inst.modNode
    rw [modAt_id]
    intro a hx
    rw [hn] at hx
    cases hx
    rw [← ho]
  simp [Inst.drain, hn, ho, ha, Inst.drainAntis, Inst.drainList, h1, h2]

/-- The instance of a strand whose station holds nothing, after it sends. -/
theorem inst?_drain_free {s : State} {st : SRef} {i : Nat} {x : Inst} {nd : Node} (hx : s.inst? st = some x)
    (hn : x.nodes[i]? = some nd) (ho : nd.outq = []) (ha : nd.antiOut = []) :
    (s.drain st i).inst? st = some x := by
  have : (s.drain st i).inst? st = (s.modInst st fun x => x.drain s.cycles i).inst? st := rfl
  rw [this, inst?_modInst_same, hx]
  simp [drain_free s.cycles hn ho ha]

/-- Sending changes nothing but the slices. -/
theorem drain_sameBut (s : State) (st : SRef) (i : Nat) : s.sameBut (s.drain st i) := ⟨_, s.holds, rfl⟩

/-! Taking a trap, and what follows it -/

/-- A cause of freeze leaves a slice's number as it is. -/
theorem joinCause_id (x : Slice) (c : Cause) : (x.joinCause c).id = x.id := by
  unfold Slice.joinCause
  split <;> rfl

/-- A slice that takes a trap: a running slice's wave begins, a wave under way takes the cause up, and the first trap is the
one reported, with the time at which it was taken (R408, R412, R415). -/
theorem takeTrap_slice {s : State} {id : Nat} {x : Slice} (h : s.slice? id = some x) (t : Trap) :
    (s.takeTrap id t).slice? id = some { x.joinCause .trap with
      trap := some ((x.joinCause .trap).trap.getD { t with time := s.now }) } := by
  unfold State.takeTrap State.beginWave
  rw [slice?_modSlice_same, slice?_modSlice_same, h]
  · rfl
  · exact fun x => joinCause_id x _
  · exact fun _ => rfl

/-- The other slices are as before. -/
theorem takeTrap_other (s : State) {id k : Nat} (hk : k ≠ id) (t : Trap) : (s.takeTrap id t).slice? k = s.slice? k := by
  unfold State.takeTrap State.beginWave
  rw [slice?_modSlice_other _ hk, slice?_modSlice_other _ hk]
  · exact fun x => joinCause_id x _
  · exact fun _ => rfl

end Sys2Proof.Machine
end

