-- ==== Sys2Proof/Laws/PerInstr.lean ====
section
/-! SUPPORT. Per instruction: where the word of each row has its opcode and header (R52, R53, R63). An event row has no
word. -/

namespace Sys2Proof.Laws

/-- A field above the low part of a concatenation. -/
theorem field_above {n k : Nat} (x : BitVec n) (y : BitVec k) (start len : Nat) (h : k ≤ start) :
    (x ++ y).extractLsb' start len = x.extractLsb' (start - k) len := by
  apply BitVec.eq_of_getLsbD_eq
  intro i hi
  have e : ¬ start + i < k := by omega
  have f : start + i - k = start - k + i := by omega
  simp [BitVec.getLsbD_append, e, f]

/-- A field within the low part of a concatenation. -/
theorem field_within {n k : Nat} (x : BitVec n) (y : BitVec k) (start len : Nat) (h : start + len ≤ k) :
    (x ++ y).extractLsb' start len = y.extractLsb' start len := by
  apply BitVec.eq_of_getLsbD_eq
  intro i hi
  have e : start + i < k := by omega
  simp [BitVec.getLsbD_append, e, hi]

/-- The whole of a bit vector. -/
theorem field_whole {n : Nat} (x : BitVec n) : x.extractLsb' 0 n = x := by
  apply BitVec.eq_of_getLsbD_eq
  intro i hi
  simp [hi]

/-- A target's ten bits give it back. -/
theorem target_of_bits (t : Option Target) : Target.ofBits (Target.bits t) = some t := by
  cases t with
  | none => decide
  | some t =>
    obtain ⟨i, sl⟩ := t
    have hb : (Target.bits (some ⟨i, sl⟩)).getLsbD 9 = true := by
      simp only [Target.bits, BitVec.getLsbD_append]
      simp
    have hs : (Target.bits (some ⟨i, sl⟩)).extractLsb' 0 2 = sl.code := by
      unfold Target.bits
      rw [field_within _ _ _ _ (by decide), field_whole]
    have hi : (Target.bits (some ⟨i, sl⟩)).extractLsb' 2 7 = i := by
      unfold Target.bits
      rw [field_above _ _ _ _ (by decide), field_within _ _ _ _ (by decide)]; exact field_whole i
    rw [Target.ofBits, if_pos hb, hs, hi]
    cases sl <;> rfl

/-- A one-bit field. -/
theorem bitBool_bit (b : Bool) : bitBool (boolBit b) = b := by cases b <;> rfl

/-- TY. -/
theorem ty_of_code (t : Ty) : Ty.ofCode t.code = some t := by cases t <;> rfl

/-- EP. -/
theorem ep_of_code (e : Ep) : Ep.ofCode e.code = some e := by cases e <;> rfl

/-- OP stands in bits [63:56]. -/
theorem assemble_op (op : BitVec 8) (h : Hdr) (ef : Bool) (imm : BitVec 21) :
    wordOp (assemble op h ef imm) = op := by
  unfold wordOp assemble
  simp (disch := decide) only [field_above]
  exact field_whole op

/-- The header fields stand in their places. -/
theorem assemble_hdr (op : BitVec 8) (h : Hdr) (ef : Bool) (imm : BitVec 21) :
    wordHdr (assemble op h ef imm) = some h := by
  have e : ∀ {n : Nat} (x : BitVec n) (k : Nat), k = 0 → x.extractLsb' k n = x :=
    fun x k h => by subst h; exact field_whole x
  obtain ⟨rm, ty, ep, im, pv, pp, ta, tb⟩ := h
  unfold wordHdr assemble
  simp (disch := decide) only [field_above, field_within, e, ty_of_code, ep_of_code, target_of_bits, bitBool_bit]

/-- One word, with the row's assigned opcode and the instruction's header in the places of R52. -/
def HeaderPlaced.Statement (i : Instr) : Prop :=
  ∀ (p : OpInfo) (h : Hdr), i.info = some p → i.hdr = some h →
    ∃ w, encode i = [w] ∧ (wordOp w).toNat = p.op ∧ wordHdr w = some h ∧ opAssigned p.op = true

/-- An instruction row whose word is assembled from its opcode and header. -/
theorem header_placed {i : Instr} {q : OpInfo} {k : Hdr} (op : BitVec 8) (ef : Bool) (imm : BitVec 21) (hi : i.info = some q)
    (hk : i.hdr = some k) (he : encode i = [assemble op k ef imm]) (hq : op.toNat = q.op) (ha : opAssigned q.op = true) :
    HeaderPlaced.Statement i := by
  intro p h hp hh
  cases hi.symm.trans hp
  cases hk.symm.trans hh
  exact ⟨_, he, by rw [assemble_op, hq], assemble_hdr op k ef imm, ha⟩

/-- A row without a word. -/
theorem header_none {i : Instr} (hi : i.info = none) : HeaderPlaced.Statement i := by
  intro p h hp
  cases hi.symm.trans hp

theorem HeaderPlaced.blockFetch (st : SRef) : HeaderPlaced.Statement (.blockFetch st) :=
  header_none rfl
theorem HeaderPlaced.commit (st : SRef) : HeaderPlaced.Statement (.commit st) :=
  header_none rfl
theorem HeaderPlaced.antiTokenArrival (st : SRef) (idx tgt k : Nat) : HeaderPlaced.Statement (.antiTokenArrival st idx tgt k) :=
  header_none rfl
theorem HeaderPlaced.loadReply (st : SRef) (n : Nat) : HeaderPlaced.Statement (.loadReply st n) :=
  header_none rfl
theorem HeaderPlaced.storePerform (st : SRef) (n : Nat) : HeaderPlaced.Statement (.storePerform st n) :=
  header_none rfl
theorem HeaderPlaced.translationWalk (n : Nat) : HeaderPlaced.Statement (.translationWalk n) :=
  header_none rfl
theorem HeaderPlaced.ptTick : HeaderPlaced.Statement .ptTick := header_none rfl
theorem HeaderPlaced.freezeWave (sl : Nat) : HeaderPlaced.Statement (.freezeWave sl) :=
  header_none rfl
theorem HeaderPlaced.freezeComplete (sl : Nat) : HeaderPlaced.Statement (.freezeComplete sl) :=
  header_none rfl
theorem HeaderPlaced.thawResume (sl : Nat) : HeaderPlaced.Statement (.thawResume sl) :=
  header_none rfl
theorem HeaderPlaced.switchAdopt (st : SRef) (idx : Nat) : HeaderPlaced.Statement (.switchAdopt st idx) :=
  header_none rfl
theorem HeaderPlaced.queueTableChange (q : Nat) : HeaderPlaced.Statement (.queueTableChange q) :=
  header_none rfl
theorem HeaderPlaced.pubObserved (q : Nat) : HeaderPlaced.Statement (.pubObserved q) :=
  header_none rfl
theorem HeaderPlaced.queueAppend (n : Nat) : HeaderPlaced.Statement (.queueAppend n) :=
  header_none rfl
theorem HeaderPlaced.dispatchPass : HeaderPlaced.Statement .dispatchPass := header_none rfl
theorem HeaderPlaced.budget (sl : Nat) : HeaderPlaced.Statement (.budget sl) :=
  header_none rfl
theorem HeaderPlaced.sliceEnd (sl : Nat) : HeaderPlaced.Statement (.sliceEnd sl) :=
  header_none rfl
theorem HeaderPlaced.barrierDeadline (b : BarDeadline) : HeaderPlaced.Statement (.barrierDeadline b) :=
  header_none rfl
theorem HeaderPlaced.messageIssue (st : SRef) (n : Nat) : HeaderPlaced.Statement (.messageIssue st n) :=
  header_none rfl
theorem HeaderPlaced.operationReply (n : Nat) : HeaderPlaced.Statement (.operationReply n) :=
  header_none rfl
theorem HeaderPlaced.copyOp (n u : Nat) : HeaderPlaced.Statement (.copyOp n u) :=
  header_none rfl
theorem HeaderPlaced.copy2Op (n u : Nat) : HeaderPlaced.Statement (.copy2Op n u) :=
  header_none rfl
theorem HeaderPlaced.gathOp (n u : Nat) : HeaderPlaced.Statement (.gathOp n u) :=
  header_none rfl
theorem HeaderPlaced.scatOp (n u : Nat) : HeaderPlaced.Statement (.scatOp n u) :=
  header_none rfl
theorem HeaderPlaced.cfillOp (n u : Nat) : HeaderPlaced.Statement (.cfillOp n u) :=
  header_none rfl
theorem HeaderPlaced.putOp (by' : PutFrom) (u : Nat) : HeaderPlaced.Statement (.putOp by' u) :=
  header_none rfl
theorem HeaderPlaced.getOp (n u : Nat) : HeaderPlaced.Statement (.getOp n u) :=
  header_none rfl
theorem HeaderPlaced.ldwOp (n : Nat) : HeaderPlaced.Statement (.ldwOp n) :=
  header_none rfl
theorem HeaderPlaced.swapwOp (n : Nat) : HeaderPlaced.Statement (.swapwOp n) :=
  header_none rfl
theorem HeaderPlaced.mmaOp (n : Nat) : HeaderPlaced.Statement (.mmaOp n) :=
  header_none rfl
theorem HeaderPlaced.accrdOp (n : Nat) : HeaderPlaced.Statement (.accrdOp n) :=
  header_none rfl
theorem HeaderPlaced.acczOp (n : Nat) : HeaderPlaced.Statement (.acczOp n) :=
  header_none rfl
theorem HeaderPlaced.mmawOp (n : Nat) : HeaderPlaced.Statement (.mmawOp n) :=
  header_none rfl
theorem HeaderPlaced.defineRegion (n : Nat) : HeaderPlaced.Statement (.defineRegion n) :=
  header_none rfl
theorem HeaderPlaced.applyRegion (n : Nat) : HeaderPlaced.Statement (.applyRegion n) :=
  header_none rfl
theorem HeaderPlaced.resetRegion (n : Nat) : HeaderPlaced.Statement (.resetRegion n) :=
  header_none rfl
theorem HeaderPlaced.statRegion (n : Nat) : HeaderPlaced.Statement (.statRegion n) :=
  header_none rfl
theorem HeaderPlaced.closeRegion (n : Nat) : HeaderPlaced.Statement (.closeRegion n) :=
  header_none rfl
theorem HeaderPlaced.openContext (n : Nat) : HeaderPlaced.Statement (.openContext n) :=
  header_none rfl
theorem HeaderPlaced.appendTokens (n : Nat) : HeaderPlaced.Statement (.appendTokens n) :=
  header_none rfl
theorem HeaderPlaced.proposeDraft (n : Nat) : HeaderPlaced.Statement (.proposeDraft n) :=
  header_none rfl
theorem HeaderPlaced.statRecord (n : Nat) : HeaderPlaced.Statement (.statRecord n) :=
  header_none rfl
theorem HeaderPlaced.saveImage (n : Nat) : HeaderPlaced.Statement (.saveImage n) :=
  header_none rfl
theorem HeaderPlaced.loadImage (n : Nat) : HeaderPlaced.Statement (.loadImage n) :=
  header_none rfl
theorem HeaderPlaced.closeContext (n : Nat) : HeaderPlaced.Statement (.closeContext n) :=
  header_none rfl
theorem HeaderPlaced.appendOp (n : Nat) : HeaderPlaced.Statement (.appendOp n) :=
  header_none rfl
theorem HeaderPlaced.rupd (src sq : Nat) (key value : Word) (ty : Ty) : HeaderPlaced.Statement (.rupd src sq key value ty) :=
  header_none rfl
theorem HeaderPlaced.renq (src sq : Nat) (desc : List Word) (handle : Word) : HeaderPlaced.Statement (.renq src sq desc handle) :=
  header_none rfl
theorem HeaderPlaced.radd (src sq : Nat) (addr inc : Word) : HeaderPlaced.Statement (.radd src sq addr inc) :=
  header_none rfl
theorem HeaderPlaced.ratom (src sq : Nat) (addr b c : Word) (ty : Ty) (aop : FarAtom) : HeaderPlaced.Statement (.ratom src sq addr b c ty aop) :=
  header_none rfl
theorem HeaderPlaced.remoteRetransmit (pkg sq : Nat) : HeaderPlaced.Statement (.remoteRetransmit pkg sq) :=
  header_none rfl
theorem HeaderPlaced.remoteUnreachable (n : Nat) : HeaderPlaced.Statement (.remoteUnreachable n) :=
  header_none rfl
theorem HeaderPlaced.updateAccept (st : SRef) (n : Nat) : HeaderPlaced.Statement (.updateAccept st n) :=
  header_none rfl
theorem HeaderPlaced.yardfull (die : Nat) : HeaderPlaced.Statement (.yardfull die) :=
  header_none rfl
theorem HeaderPlaced.waitmWake (st : SRef) (n cause : Nat) : HeaderPlaced.Statement (.waitmWake st n cause) :=
  header_none rfl
theorem HeaderPlaced.waitmTimeout (st : SRef) (n : Nat) : HeaderPlaced.Statement (.waitmTimeout st n) :=
  header_none rfl
theorem HeaderPlaced.errorDetected (cls unit : Nat) (what : Damage) : HeaderPlaced.Statement (.errorDetected cls unit what) :=
  header_none rfl
theorem HeaderPlaced.errorTestDone (cls unit : Nat) (e : TestEnd) : HeaderPlaced.Statement (.errorTestDone cls unit e) :=
  header_none rfl
theorem HeaderPlaced.hostAccess (link : Nat) (write : Bool) (addr len : Nat) (bytes : List Byte) : HeaderPlaced.Statement (.hostAccess link write addr len bytes) :=
  header_none rfl
theorem HeaderPlaced.mboxSensors : HeaderPlaced.Statement .mboxSensors := header_none rfl
theorem HeaderPlaced.mboxLog : HeaderPlaced.Statement .mboxLog := header_none rfl
theorem HeaderPlaced.mboxAttest : HeaderPlaced.Statement .mboxAttest := header_none rfl
theorem HeaderPlaced.mboxFwstage : HeaderPlaced.Statement .mboxFwstage := header_none rfl
theorem HeaderPlaced.mboxFwactivate : HeaderPlaced.Statement .mboxFwactivate := header_none rfl
theorem HeaderPlaced.mboxReset : HeaderPlaced.Statement .mboxReset := header_none rfl
theorem HeaderPlaced.mboxTime : HeaderPlaced.Statement .mboxTime := header_none rfl
theorem HeaderPlaced.powerGood : HeaderPlaced.Statement .powerGood := header_none rfl
theorem HeaderPlaced.bringupStage (what : BringUp) : HeaderPlaced.Statement (.bringupStage what) :=
  header_none rfl
theorem HeaderPlaced.land (h : Hdr) (label : BitVec 16) : HeaderPlaced.Statement (.land h label) :=
  header_placed _ _ _ rfl rfl rfl rfl rfl
theorem HeaderPlaced.read (h : Hdr) (r : BitVec 6) : HeaderPlaced.Statement (.read h r) :=
  header_placed _ _ _ rfl rfl rfl rfl rfl
theorem HeaderPlaced.write (h : Hdr) (r : BitVec 6) : HeaderPlaced.Statement (.write h r) :=
  header_placed _ _ _ rfl rfl rfl rfl rfl
theorem HeaderPlaced.const (h : Hdr) (v : BitVec 21) : HeaderPlaced.Statement (.const h v) :=
  header_placed _ _ _ rfl rfl rfl rfl rfl
theorem HeaderPlaced.kpool (h : Hdr) (k : BitVec 5) : HeaderPlaced.Statement (.kpool h k) :=
  header_placed _ _ _ rfl rfl rfl rfl rfl
theorem HeaderPlaced.mov (h : Hdr) (v : BitVec 21) : HeaderPlaced.Statement (.mov h v) :=
  header_placed _ _ _ rfl rfl rfl rfl rfl
theorem HeaderPlaced.fork (h : Hdr) (tc td : Option Target) : HeaderPlaced.Statement (.fork h tc td) :=
  header_placed _ _ _ rfl rfl rfl rfl rfl
theorem HeaderPlaced.sel (h : Hdr) (ef : Bool) : HeaderPlaced.Statement (.sel h ef) :=
  header_placed _ _ _ rfl rfl rfl rfl rfl
theorem HeaderPlaced.steer (h : Hdr) : HeaderPlaced.Statement (.steer h) :=
  header_placed _ _ _ rfl rfl rfl rfl rfl
theorem HeaderPlaced.merge (h : Hdr) : HeaderPlaced.Statement (.merge h) :=
  header_placed _ _ _ rfl rfl rfl rfl rfl
theorem HeaderPlaced.jand (h : Hdr) (ef : Bool) : HeaderPlaced.Statement (.jand h ef) :=
  header_placed _ _ _ rfl rfl rfl rfl rfl
theorem HeaderPlaced.jor (h : Hdr) (ef : Bool) : HeaderPlaced.Statement (.jor h ef) :=
  header_placed _ _ _ rfl rfl rfl rfl rfl
theorem HeaderPlaced.jall (h : Hdr) : HeaderPlaced.Statement (.jall h) :=
  header_placed _ _ _ rfl rfl rfl rfl rfl
theorem HeaderPlaced.carry (h : Hdr) (x : LoopImm) : HeaderPlaced.Statement (.carry h x) :=
  header_placed _ _ _ rfl rfl rfl rfl rfl
theorem HeaderPlaced.loopin (h : Hdr) (x : LoopImm) : HeaderPlaced.Statement (.loopin h x) :=
  header_placed _ _ _ rfl rfl rfl rfl rfl
theorem HeaderPlaced.loopout (h : Hdr) (x : LoopImm) : HeaderPlaced.Statement (.loopout h x) :=
  header_placed _ _ _ rfl rfl rfl rfl rfl
theorem HeaderPlaced.kill (h : Hdr) (x : KillImm) : HeaderPlaced.Statement (.kill h x) :=
  header_placed _ _ _ rfl rfl rfl rfl rfl
theorem HeaderPlaced.drop (h : Hdr) : HeaderPlaced.Statement (.drop h) :=
  header_placed _ _ _ rfl rfl rfl rfl rfl
theorem HeaderPlaced.gen (h : Hdr) (n : BitVec 16) : HeaderPlaced.Statement (.gen h n) :=
  header_placed _ _ _ rfl rfl rfl rfl rfl
theorem HeaderPlaced.cnt (h : Hdr) : HeaderPlaced.Statement (.cnt h) :=
  header_placed _ _ _ rfl rfl rfl rfl rfl
theorem HeaderPlaced.iter (h : Hdr) : HeaderPlaced.Statement (.iter h) :=
  header_placed _ _ _ rfl rfl rfl rfl rfl
theorem HeaderPlaced.exit (h : Hdr) (n : BitVec 3) : HeaderPlaced.Statement (.exit h n) :=
  header_placed _ _ _ rfl rfl rfl rfl rfl
theorem HeaderPlaced.exiti (h : Hdr) (x : JumpImm) : HeaderPlaced.Statement (.exiti h x) :=
  header_placed _ _ _ rfl rfl rfl rfl rfl
theorem HeaderPlaced.call (h : Hdr) (n : BitVec 3) : HeaderPlaced.Statement (.call h n) :=
  header_placed _ _ _ rfl rfl rfl rfl rfl
theorem HeaderPlaced.calli (h : Hdr) (x : JumpImm) : HeaderPlaced.Statement (.calli h x) :=
  header_placed _ _ _ rfl rfl rfl rfl rfl
theorem HeaderPlaced.ret (h : Hdr) : HeaderPlaced.Statement (.ret h) :=
  header_placed _ _ _ rfl rfl rfl rfl rfl
theorem HeaderPlaced.add (h : Hdr) (v : BitVec 21) : HeaderPlaced.Statement (.add h v) :=
  header_placed _ _ _ rfl rfl rfl rfl rfl
theorem HeaderPlaced.sub (h : Hdr) (v : BitVec 21) : HeaderPlaced.Statement (.sub h v) :=
  header_placed _ _ _ rfl rfl rfl rfl rfl
theorem HeaderPlaced.mul (h : Hdr) (v : BitVec 21) : HeaderPlaced.Statement (.mul h v) :=
  header_placed _ _ _ rfl rfl rfl rfl rfl
theorem HeaderPlaced.mulh (h : Hdr) (x : SValImm) : HeaderPlaced.Statement (.mulh h x) :=
  header_placed _ _ _ rfl rfl rfl rfl rfl
theorem HeaderPlaced.mad (h : Hdr) (v : BitVec 21) : HeaderPlaced.Statement (.mad h v) :=
  header_placed _ _ _ rfl rfl rfl rfl rfl
theorem HeaderPlaced.div (h : Hdr) (x : SValImm) : HeaderPlaced.Statement (.div h x) :=
  header_placed _ _ _ rfl rfl rfl rfl rfl
theorem HeaderPlaced.rem (h : Hdr) (x : SValImm) : HeaderPlaced.Statement (.rem h x) :=
  header_placed _ _ _ rfl rfl rfl rfl rfl
theorem HeaderPlaced.neg (h : Hdr) (v : BitVec 21) : HeaderPlaced.Statement (.neg h v) :=
  header_placed _ _ _ rfl rfl rfl rfl rfl
theorem HeaderPlaced.abs (h : Hdr) (v : BitVec 21) : HeaderPlaced.Statement (.abs h v) :=
  header_placed _ _ _ rfl rfl rfl rfl rfl
theorem HeaderPlaced.min (h : Hdr) (x : SValImm) : HeaderPlaced.Statement (.min h x) :=
  header_placed _ _ _ rfl rfl rfl rfl rfl
theorem HeaderPlaced.max (h : Hdr) (x : SValImm) : HeaderPlaced.Statement (.max h x) :=
  header_placed _ _ _ rfl rfl rfl rfl rfl
theorem HeaderPlaced.and (h : Hdr) (v : BitVec 21) : HeaderPlaced.Statement (.and h v) :=
  header_placed _ _ _ rfl rfl rfl rfl rfl
theorem HeaderPlaced.or (h : Hdr) (v : BitVec 21) : HeaderPlaced.Statement (.or h v) :=
  header_placed _ _ _ rfl rfl rfl rfl rfl
theorem HeaderPlaced.xor (h : Hdr) (v : BitVec 21) : HeaderPlaced.Statement (.xor h v) :=
  header_placed _ _ _ rfl rfl rfl rfl rfl
theorem HeaderPlaced.andn (h : Hdr) (v : BitVec 21) : HeaderPlaced.Statement (.andn h v) :=
  header_placed _ _ _ rfl rfl rfl rfl rfl
theorem HeaderPlaced.not (h : Hdr) (v : BitVec 21) : HeaderPlaced.Statement (.not h v) :=
  header_placed _ _ _ rfl rfl rfl rfl rfl
theorem HeaderPlaced.shl (h : Hdr) (v : BitVec 21) : HeaderPlaced.Statement (.shl h v) :=
  header_placed _ _ _ rfl rfl rfl rfl rfl
theorem HeaderPlaced.shr (h : Hdr) (x : SValImm) : HeaderPlaced.Statement (.shr h x) :=
  header_placed _ _ _ rfl rfl rfl rfl rfl
theorem HeaderPlaced.rol (h : Hdr) (v : BitVec 21) : HeaderPlaced.Statement (.rol h v) :=
  header_placed _ _ _ rfl rfl rfl rfl rfl
theorem HeaderPlaced.clz (h : Hdr) (v : BitVec 21) : HeaderPlaced.Statement (.clz h v) :=
  header_placed _ _ _ rfl rfl rfl rfl rfl
theorem HeaderPlaced.ctz (h : Hdr) (v : BitVec 21) : HeaderPlaced.Statement (.ctz h v) :=
  header_placed _ _ _ rfl rfl rfl rfl rfl
theorem HeaderPlaced.popc (h : Hdr) (v : BitVec 21) : HeaderPlaced.Statement (.popc h v) :=
  header_placed _ _ _ rfl rfl rfl rfl rfl
theorem HeaderPlaced.brev (h : Hdr) (v : BitVec 21) : HeaderPlaced.Statement (.brev h v) :=
  header_placed _ _ _ rfl rfl rfl rfl rfl
theorem HeaderPlaced.extr (h : Hdr) (x : FieldImm) : HeaderPlaced.Statement (.extr h x) :=
  header_placed _ _ _ rfl rfl rfl rfl rfl
theorem HeaderPlaced.ins (h : Hdr) (x : FieldImm) : HeaderPlaced.Statement (.ins h x) :=
  header_placed _ _ _ rfl rfl rfl rfl rfl
theorem HeaderPlaced.cmp (h : Hdr) (x : CmpImm) : HeaderPlaced.Statement (.cmp h x) :=
  header_placed _ _ _ rfl rfl rfl rfl rfl
theorem HeaderPlaced.lea (h : Hdr) (x : AddrImm) : HeaderPlaced.Statement (.lea h x) :=
  header_placed _ _ _ rfl rfl rfl rfl rfl
theorem HeaderPlaced.sat (h : Hdr) (x : SValImm) : HeaderPlaced.Statement (.sat h x) :=
  header_placed _ _ _ rfl rfl rfl rfl rfl
theorem HeaderPlaced.ext (h : Hdr) (x : SValImm) : HeaderPlaced.Statement (.ext h x) :=
  header_placed _ _ _ rfl rfl rfl rfl rfl
theorem HeaderPlaced.pack (h : Hdr) (x : SValImm) : HeaderPlaced.Statement (.pack h x) :=
  header_placed _ _ _ rfl rfl rfl rfl rfl
theorem HeaderPlaced.unpk (h : Hdr) (x : SValImm) : HeaderPlaced.Statement (.unpk h x) :=
  header_placed _ _ _ rfl rfl rfl rfl rfl
theorem HeaderPlaced.swz (h : Hdr) (sel : BitVec 8) : HeaderPlaced.Statement (.swz h sel) :=
  header_placed _ _ _ rfl rfl rfl rfl rfl
theorem HeaderPlaced.fadd (h : Hdr) (v : BitVec 21) : HeaderPlaced.Statement (.fadd h v) :=
  header_placed _ _ _ rfl rfl rfl rfl rfl
theorem HeaderPlaced.fsub (h : Hdr) (v : BitVec 21) : HeaderPlaced.Statement (.fsub h v) :=
  header_placed _ _ _ rfl rfl rfl rfl rfl
theorem HeaderPlaced.fmul (h : Hdr) (v : BitVec 21) : HeaderPlaced.Statement (.fmul h v) :=
  header_placed _ _ _ rfl rfl rfl rfl rfl
theorem HeaderPlaced.fma (h : Hdr) (v : BitVec 21) : HeaderPlaced.Statement (.fma h v) :=
  header_placed _ _ _ rfl rfl rfl rfl rfl
theorem HeaderPlaced.fmin (h : Hdr) (v : BitVec 21) : HeaderPlaced.Statement (.fmin h v) :=
  header_placed _ _ _ rfl rfl rfl rfl rfl
theorem HeaderPlaced.fmax (h : Hdr) (v : BitVec 21) : HeaderPlaced.Statement (.fmax h v) :=
  header_placed _ _ _ rfl rfl rfl rfl rfl
theorem HeaderPlaced.fabs (h : Hdr) (v : BitVec 21) : HeaderPlaced.Statement (.fabs h v) :=
  header_placed _ _ _ rfl rfl rfl rfl rfl
theorem HeaderPlaced.fneg (h : Hdr) (v : BitVec 21) : HeaderPlaced.Statement (.fneg h v) :=
  header_placed _ _ _ rfl rfl rfl rfl rfl
theorem HeaderPlaced.fcmp (h : Hdr) (x : CmpImm) : HeaderPlaced.Statement (.fcmp h x) :=
  header_placed _ _ _ rfl rfl rfl rfl rfl
theorem HeaderPlaced.fdiv (h : Hdr) (v : BitVec 21) : HeaderPlaced.Statement (.fdiv h v) :=
  header_placed _ _ _ rfl rfl rfl rfl rfl
theorem HeaderPlaced.fsqrt (h : Hdr) (v : BitVec 21) : HeaderPlaced.Statement (.fsqrt h v) :=
  header_placed _ _ _ rfl rfl rfl rfl rfl
theorem HeaderPlaced.frcp (h : Hdr) (v : BitVec 21) : HeaderPlaced.Statement (.frcp h v) :=
  header_placed _ _ _ rfl rfl rfl rfl rfl
theorem HeaderPlaced.frsq (h : Hdr) (v : BitVec 21) : HeaderPlaced.Statement (.frsq h v) :=
  header_placed _ _ _ rfl rfl rfl rfl rfl
theorem HeaderPlaced.fexp2 (h : Hdr) (v : BitVec 21) : HeaderPlaced.Statement (.fexp2 h v) :=
  header_placed _ _ _ rfl rfl rfl rfl rfl
theorem HeaderPlaced.flog2 (h : Hdr) (v : BitVec 21) : HeaderPlaced.Statement (.flog2 h v) :=
  header_placed _ _ _ rfl rfl rfl rfl rfl
theorem HeaderPlaced.ftanh (h : Hdr) (v : BitVec 21) : HeaderPlaced.Statement (.ftanh h v) :=
  header_placed _ _ _ rfl rfl rfl rfl rfl
theorem HeaderPlaced.fscl (h : Hdr) (v : BitVec 21) : HeaderPlaced.Statement (.fscl h v) :=
  header_placed _ _ _ rfl rfl rfl rfl rfl
theorem HeaderPlaced.fcls (h : Hdr) (v : BitVec 21) : HeaderPlaced.Statement (.fcls h v) :=
  header_placed _ _ _ rfl rfl rfl rfl rfl
theorem HeaderPlaced.frnd (h : Hdr) (x : CvtImm) : HeaderPlaced.Statement (.frnd h x) :=
  header_placed _ _ _ rfl rfl rfl rfl rfl
theorem HeaderPlaced.fcvt (h : Hdr) (x : CvtImm) : HeaderPlaced.Statement (.fcvt h x) :=
  header_placed _ _ _ rfl rfl rfl rfl rfl
theorem HeaderPlaced.itof (h : Hdr) (x : CvtImm) : HeaderPlaced.Statement (.itof h x) :=
  header_placed _ _ _ rfl rfl rfl rfl rfl
theorem HeaderPlaced.ftoi (h : Hdr) (x : CvtImm) : HeaderPlaced.Statement (.ftoi h x) :=
  header_placed _ _ _ rfl rfl rfl rfl rfl
theorem HeaderPlaced.qpack (h : Hdr) (x : CvtImm) : HeaderPlaced.Statement (.qpack h x) :=
  header_placed _ _ _ rfl rfl rfl rfl rfl
theorem HeaderPlaced.qunpk (h : Hdr) (x : CvtImm) : HeaderPlaced.Statement (.qunpk h x) :=
  header_placed _ _ _ rfl rfl rfl rfl rfl
theorem HeaderPlaced.dot (h : Hdr) : HeaderPlaced.Statement (.dot h) :=
  header_placed _ _ _ rfl rfl rfl rfl rfl
theorem HeaderPlaced.key (h : Hdr) : HeaderPlaced.Statement (.key h) :=
  header_placed _ _ _ rfl rfl rfl rfl rfl
theorem HeaderPlaced.noise (h : Hdr) : HeaderPlaced.Statement (.noise h) :=
  header_placed _ _ _ rfl rfl rfl rfl rfl
theorem HeaderPlaced.red (h : Hdr) (op : Opr) : HeaderPlaced.Statement (.red h op) :=
  header_placed _ _ _ rfl rfl rfl rfl rfl
theorem HeaderPlaced.scan (h : Hdr) (op : Opr) : HeaderPlaced.Statement (.scan h op) :=
  header_placed _ _ _ rfl rfl rfl rfl rfl
theorem HeaderPlaced.shuf (h : Hdr) (v : BitVec 21) : HeaderPlaced.Statement (.shuf h v) :=
  header_placed _ _ _ rfl rfl rfl rfl rfl
theorem HeaderPlaced.bcast (h : Hdr) : HeaderPlaced.Statement (.bcast h) :=
  header_placed _ _ _ rfl rfl rfl rfl rfl
theorem HeaderPlaced.idx (h : Hdr) : HeaderPlaced.Statement (.idx h) :=
  header_placed _ _ _ rfl rfl rfl rfl rfl
theorem HeaderPlaced.tap (h : Hdr) (x : BarImm) : HeaderPlaced.Statement (.tap h x) :=
  header_placed _ _ _ rfl rfl rfl rfl rfl
theorem HeaderPlaced.binit (h : Hdr) (x : BarImm) : HeaderPlaced.Statement (.binit h x) :=
  header_placed _ _ _ rfl rfl rfl rfl rfl
theorem HeaderPlaced.barr (h : Hdr) (x : BarImm) : HeaderPlaced.Statement (.barr h x) :=
  header_placed _ _ _ rfl rfl rfl rfl rfl
theorem HeaderPlaced.bwait (h : Hdr) (x : BarImm) : HeaderPlaced.Statement (.bwait h x) :=
  header_placed _ _ _ rfl rfl rfl rfl rfl
theorem HeaderPlaced.bsync (h : Hdr) (x : BarImm) : HeaderPlaced.Statement (.bsync h x) :=
  header_placed _ _ _ rfl rfl rfl rfl rfl
theorem HeaderPlaced.bred (h : Hdr) (x : BarImm) : HeaderPlaced.Statement (.bred h x) :=
  header_placed _ _ _ rfl rfl rfl rfl rfl
theorem HeaderPlaced.bwaitd (h : Hdr) (x : BarImm) : HeaderPlaced.Statement (.bwaitd h x) :=
  header_placed _ _ _ rfl rfl rfl rfl rfl
theorem HeaderPlaced.enq (h : Hdr) : HeaderPlaced.Statement (.enq h) :=
  header_placed _ _ _ rfl rfl rfl rfl rfl
theorem HeaderPlaced.yield (h : Hdr) : HeaderPlaced.Statement (.yield h) :=
  header_placed _ _ _ rfl rfl rfl rfl rfl
theorem HeaderPlaced.fopen (h : Hdr) : HeaderPlaced.Statement (.fopen h) :=
  header_placed _ _ _ rfl rfl rfl rfl rfl
theorem HeaderPlaced.fclose (h : Hdr) : HeaderPlaced.Statement (.fclose h) :=
  header_placed _ _ _ rfl rfl rfl rfl rfl
theorem HeaderPlaced.fwait (h : Hdr) : HeaderPlaced.Statement (.fwait h) :=
  header_placed _ _ _ rfl rfl rfl rfl rfl
theorem HeaderPlaced.waitc (h : Hdr) : HeaderPlaced.Statement (.waitc h) :=
  header_placed _ _ _ rfl rfl rfl rfl rfl
theorem HeaderPlaced.ld (h : Hdr) (x : MemImm) : HeaderPlaced.Statement (.ld h x) :=
  header_placed _ _ _ rfl rfl rfl rfl rfl
theorem HeaderPlaced.st (h : Hdr) (x : MemImm) : HeaderPlaced.Statement (.st h x) :=
  header_placed _ _ _ rfl rfl rfl rfl rfl
theorem HeaderPlaced.ldx (h : Hdr) (x : MemImm) : HeaderPlaced.Statement (.ldx h x) :=
  header_placed _ _ _ rfl rfl rfl rfl rfl
theorem HeaderPlaced.stx (h : Hdr) (x : MemImm) : HeaderPlaced.Statement (.stx h x) :=
  header_placed _ _ _ rfl rfl rfl rfl rfl
theorem HeaderPlaced.ldf (h : Hdr) (x : MemImm) : HeaderPlaced.Statement (.ldf h x) :=
  header_placed _ _ _ rfl rfl rfl rfl rfl
theorem HeaderPlaced.ldfk (h : Hdr) (x : MemImm) : HeaderPlaced.Statement (.ldfk h x) :=
  header_placed _ _ _ rfl rfl rfl rfl rfl
theorem HeaderPlaced.ste (h : Hdr) (x : MemImm) : HeaderPlaced.Statement (.ste h x) :=
  header_placed _ _ _ rfl rfl rfl rfl rfl
theorem HeaderPlaced.stf (h : Hdr) (x : MemImm) : HeaderPlaced.Statement (.stf h x) :=
  header_placed _ _ _ rfl rfl rfl rfl rfl
theorem HeaderPlaced.feset (h : Hdr) (x : MemImm) : HeaderPlaced.Statement (.feset h x) :=
  header_placed _ _ _ rfl rfl rfl rfl rfl
theorem HeaderPlaced.atom (h : Hdr) (x : AtomImm) : HeaderPlaced.Statement (.atom h x) :=
  header_placed _ _ _ rfl rfl rfl rfl rfl
theorem HeaderPlaced.upd (h : Hdr) (x : MemImm) : HeaderPlaced.Statement (.upd h x) :=
  header_placed _ _ _ rfl rfl rfl rfl rfl
theorem HeaderPlaced.pref (h : Hdr) (x : MemImm) : HeaderPlaced.Statement (.pref h x) :=
  header_placed _ _ _ rfl rfl rfl rfl rfl
theorem HeaderPlaced.flush (h : Hdr) (x : MemImm) : HeaderPlaced.Statement (.flush h x) :=
  header_placed _ _ _ rfl rfl rfl rfl rfl
theorem HeaderPlaced.waitm (h : Hdr) (x : MemImm) : HeaderPlaced.Statement (.waitm h x) :=
  header_placed _ _ _ rfl rfl rfl rfl rfl
theorem HeaderPlaced.tdef (h : Hdr) (x : TileImm) : HeaderPlaced.Statement (.tdef h x) :=
  header_placed _ _ _ rfl rfl rfl rfl rfl
theorem HeaderPlaced.tfree (h : Hdr) (x : TileImm) : HeaderPlaced.Statement (.tfree h x) :=
  header_placed _ _ _ rfl rfl rfl rfl rfl
theorem HeaderPlaced.tready (h : Hdr) (x : TileImm) : HeaderPlaced.Statement (.tready h x) :=
  header_placed _ _ _ rfl rfl rfl rfl rfl
theorem HeaderPlaced.tstate (h : Hdr) (x : TileImm) : HeaderPlaced.Statement (.tstate h x) :=
  header_placed _ _ _ rfl rfl rfl rfl rfl
theorem HeaderPlaced.tld (h : Hdr) (x : TileImm) : HeaderPlaced.Statement (.tld h x) :=
  header_placed _ _ _ rfl rfl rfl rfl rfl
theorem HeaderPlaced.tst (h : Hdr) (x : TileImm) : HeaderPlaced.Statement (.tst h x) :=
  header_placed _ _ _ rfl rfl rfl rfl rfl
theorem HeaderPlaced.bankmode (h : Hdr) (x : BankImm) : HeaderPlaced.Statement (.bankmode h x) :=
  header_placed _ _ _ rfl rfl rfl rfl rfl
theorem HeaderPlaced.send (h : Hdr) (x : EngImm) : HeaderPlaced.Statement (.send h x) :=
  header_placed _ _ _ rfl rfl rfl rfl rfl
theorem HeaderPlaced.copy (h : Hdr) (dec : Bool) (x : EngImm) : HeaderPlaced.Statement (.copy h dec x) :=
  header_placed _ _ _ rfl rfl rfl rfl rfl
theorem HeaderPlaced.copy2In (h : Hdr) (dec : Bool) (x : EngImm) : HeaderPlaced.Statement (.copy2In h dec x) :=
  header_placed _ _ _ rfl rfl rfl rfl rfl
theorem HeaderPlaced.copy2Out (h : Hdr) (dec : Bool) (x : EngImm) : HeaderPlaced.Statement (.copy2Out h dec x) :=
  header_placed _ _ _ rfl rfl rfl rfl rfl
theorem HeaderPlaced.gath (h : Hdr) (x : EngImm) : HeaderPlaced.Statement (.gath h x) :=
  header_placed _ _ _ rfl rfl rfl rfl rfl
theorem HeaderPlaced.scat (h : Hdr) (x : EngImm) : HeaderPlaced.Statement (.scat h x) :=
  header_placed _ _ _ rfl rfl rfl rfl rfl
theorem HeaderPlaced.cfill (h : Hdr) (x : EngImm) : HeaderPlaced.Statement (.cfill h x) :=
  header_placed _ _ _ rfl rfl rfl rfl rfl
theorem HeaderPlaced.put (h : Hdr) (x : EngImm) : HeaderPlaced.Statement (.put h x) :=
  header_placed _ _ _ rfl rfl rfl rfl rfl
theorem HeaderPlaced.get (h : Hdr) (x : EngImm) : HeaderPlaced.Statement (.get h x) :=
  header_placed _ _ _ rfl rfl rfl rfl rfl
theorem HeaderPlaced.ldw (h : Hdr) (x : EngImm) : HeaderPlaced.Statement (.ldw h x) :=
  header_placed _ _ _ rfl rfl rfl rfl rfl
theorem HeaderPlaced.swapw (h : Hdr) (x : EngImm) : HeaderPlaced.Statement (.swapw h x) :=
  header_placed _ _ _ rfl rfl rfl rfl rfl
theorem HeaderPlaced.mma (h : Hdr) (x : EngImm) : HeaderPlaced.Statement (.mma h x) :=
  header_placed _ _ _ rfl rfl rfl rfl rfl
theorem HeaderPlaced.accrd (h : Hdr) (x : EngImm) : HeaderPlaced.Statement (.accrd h x) :=
  header_placed _ _ _ rfl rfl rfl rfl rfl
theorem HeaderPlaced.accz (h : Hdr) (x : EngImm) : HeaderPlaced.Statement (.accz h x) :=
  header_placed _ _ _ rfl rfl rfl rfl rfl
theorem HeaderPlaced.mmaw (h : Hdr) (x : EngImm) : HeaderPlaced.Statement (.mmaw h x) :=
  header_placed _ _ _ rfl rfl rfl rfl rfl
theorem HeaderPlaced.roteOpen (h : Hdr) (x : EngImm) : HeaderPlaced.Statement (.roteOpen h x) :=
  header_placed _ _ _ rfl rfl rfl rfl rfl
theorem HeaderPlaced.roteAppend (h : Hdr) (x : EngImm) : HeaderPlaced.Statement (.roteAppend h x) :=
  header_placed _ _ _ rfl rfl rfl rfl rfl
theorem HeaderPlaced.rotePropose (h : Hdr) (x : EngImm) : HeaderPlaced.Statement (.rotePropose h x) :=
  header_placed _ _ _ rfl rfl rfl rfl rfl
theorem HeaderPlaced.roteStat (h : Hdr) (x : EngImm) : HeaderPlaced.Statement (.roteStat h x) :=
  header_placed _ _ _ rfl rfl rfl rfl rfl
theorem HeaderPlaced.roteSave (h : Hdr) (x : EngImm) : HeaderPlaced.Statement (.roteSave h x) :=
  header_placed _ _ _ rfl rfl rfl rfl rfl
theorem HeaderPlaced.roteLoad (h : Hdr) (x : EngImm) : HeaderPlaced.Statement (.roteLoad h x) :=
  header_placed _ _ _ rfl rfl rfl rfl rfl
theorem HeaderPlaced.roteClose (h : Hdr) (x : EngImm) : HeaderPlaced.Statement (.roteClose h x) :=
  header_placed _ _ _ rfl rfl rfl rfl rfl
theorem HeaderPlaced.yardDefine (h : Hdr) (x : EngImm) : HeaderPlaced.Statement (.yardDefine h x) :=
  header_placed _ _ _ rfl rfl rfl rfl rfl
theorem HeaderPlaced.yardApply (h : Hdr) (x : EngImm) : HeaderPlaced.Statement (.yardApply h x) :=
  header_placed _ _ _ rfl rfl rfl rfl rfl
theorem HeaderPlaced.yardReset (h : Hdr) (x : EngImm) : HeaderPlaced.Statement (.yardReset h x) :=
  header_placed _ _ _ rfl rfl rfl rfl rfl
theorem HeaderPlaced.yardStat (h : Hdr) (x : EngImm) : HeaderPlaced.Statement (.yardStat h x) :=
  header_placed _ _ _ rfl rfl rfl rfl rfl
theorem HeaderPlaced.yardClose (h : Hdr) (x : EngImm) : HeaderPlaced.Statement (.yardClose h x) :=
  header_placed _ _ _ rfl rfl rfl rfl rfl
theorem HeaderPlaced.tree (h : Hdr) (x : EngImm) : HeaderPlaced.Statement (.tree h x) :=
  header_placed _ _ _ rfl rfl rfl rfl rfl
theorem HeaderPlaced.accept (h : Hdr) (x : EngImm) : HeaderPlaced.Statement (.accept h x) :=
  header_placed _ _ _ rfl rfl rfl rfl rfl
theorem HeaderPlaced.trap (h : Hdr) (code : BitVec 8) : HeaderPlaced.Statement (.trap h code) :=
  header_placed _ _ _ rfl rfl rfl rfl rfl
theorem HeaderPlaced.rdsr (h : Hdr) (r : BitVec 6) : HeaderPlaced.Statement (.rdsr h r) :=
  header_placed _ _ _ rfl rfl rfl rfl rfl
theorem HeaderPlaced.wrsr (h : Hdr) (r : BitVec 6) : HeaderPlaced.Statement (.wrsr h r) :=
  header_placed _ _ _ rfl rfl rfl rfl rfl
theorem HeaderPlaced.patch (h : Hdr) : HeaderPlaced.Statement (.patch h) :=
  header_placed _ _ _ rfl rfl rfl rfl rfl
theorem HeaderPlaced.switch (h : Hdr) : HeaderPlaced.Statement (.switch h) :=
  header_placed _ _ _ rfl rfl rfl rfl rfl
theorem HeaderPlaced.freeze (h : Hdr) : HeaderPlaced.Statement (.freeze h) :=
  header_placed _ _ _ rfl rfl rfl rfl rfl
theorem HeaderPlaced.thaw (h : Hdr) : HeaderPlaced.Statement (.thaw h) :=
  header_placed _ _ _ rfl rfl rfl rfl rfl
theorem HeaderPlaced.tlbi (h : Hdr) (x : TlbiImm) : HeaderPlaced.Statement (.tlbi h x) :=
  header_placed _ _ _ rfl rfl rfl rfl rfl
theorem HeaderPlaced.pmap (h : Hdr) : HeaderPlaced.Statement (.pmap h) :=
  header_placed _ _ _ rfl rfl rfl rfl rfl
theorem HeaderPlaced.abort (h : Hdr) : HeaderPlaced.Statement (.abort h) :=
  header_placed _ _ _ rfl rfl rfl rfl rfl

end Sys2Proof.Laws
end

