-- ==== Sys2Proof/Laws/State.lean ====
section
/-! SUPPORT. What each named update of State leaves in each field, by `rfl`. -/

namespace Sys2Proof.Machine

/-! `State.modSlice` -/

@[simp] theorem State.modSlice_mem (s : State) (id : Nat) (f : Slice → Slice) : (s.modSlice id f).mem = s.mem := rfl
@[simp] theorem State.modSlice_loc (s : State) (id : Nat) (f : Slice → Slice) : (s.modSlice id f).loc = s.loc := rfl
@[simp] theorem State.modSlice_full (s : State) (id : Nat) (f : Slice → Slice) : (s.modSlice id f).full = s.full := rfl
@[simp] theorem State.modSlice_banks (s : State) (id : Nat) (f : Slice → Slice) : (s.modSlice id f).banks = s.banks := rfl
@[simp] theorem State.modSlice_tiles (s : State) (id : Nat) (f : Slice → Slice) : (s.modSlice id f).tiles = s.tiles := rfl
@[simp] theorem State.modSlice_tileSince (s : State) (id : Nat) (f : Slice → Slice) : (s.modSlice id f).tileSince = s.tileSince := rfl
@[simp] theorem State.modSlice_mx (s : State) (id : Nat) (f : Slice → Slice) : (s.modSlice id f).mx = s.mx := rfl
@[simp] theorem State.modSlice_tlb (s : State) (id : Nat) (f : Slice → Slice) : (s.modSlice id f).tlb = s.tlb := rfl
@[simp] theorem State.modSlice_tcache (s : State) (id : Nat) (f : Slice → Slice) : (s.modSlice id f).tcache = s.tcache := rfl
@[simp] theorem State.modSlice_walks (s : State) (id : Nat) (f : Slice → Slice) : (s.modSlice id f).walks = s.walks := rfl
@[simp] theorem State.modSlice_cfgCache (s : State) (id : Nat) (f : Slice → Slice) : (s.modSlice id f).cfgCache = s.cfgCache := rfl
@[simp] theorem State.modSlice_pt (s : State) (id : Nat) (f : Slice → Slice) : (s.modSlice id f).pt = s.pt := rfl
@[simp] theorem State.modSlice_blockTs (s : State) (id : Nat) (f : Slice → Slice) : (s.modSlice id f).blockTs = s.blockTs := rfl
@[simp] theorem State.modSlice_copies (s : State) (id : Nat) (f : Slice → Slice) : (s.modSlice id f).copies = s.copies := rfl
@[simp] theorem State.modSlice_holds (s : State) (id : Nat) (f : Slice → Slice) : (s.modSlice id f).holds = s.holds := rfl
@[simp] theorem State.modSlice_poison (s : State) (id : Nat) (f : Slice → Slice) : (s.modSlice id f).poison = s.poison := rfl
@[simp] theorem State.modSlice_dirty (s : State) (id : Nat) (f : Slice → Slice) : (s.modSlice id f).dirty = s.dirty := rfl
@[simp] theorem State.modSlice_regions (s : State) (id : Nat) (f : Slice → Slice) : (s.modSlice id f).regions = s.regions := rfl
@[simp] theorem State.modSlice_bins (s : State) (id : Nat) (f : Slice → Slice) : (s.modSlice id f).bins = s.bins := rfl
@[simp] theorem State.modSlice_segs (s : State) (id : Nat) (f : Slice → Slice) : (s.modSlice id f).segs = s.segs := rfl
@[simp] theorem State.modSlice_epoch (s : State) (id : Nat) (f : Slice → Slice) : (s.modSlice id f).epoch = s.epoch := rfl
@[simp] theorem State.modSlice_yardStall (s : State) (id : Nat) (f : Slice → Slice) : (s.modSlice id f).yardStall = s.yardStall := rfl
@[simp] theorem State.modSlice_rote (s : State) (id : Nat) (f : Slice → Slice) : (s.modSlice id f).rote = s.rote := rfl
@[simp] theorem State.modSlice_ops (s : State) (id : Nat) (f : Slice → Slice) : (s.modSlice id f).ops = s.ops := rfl
@[simp] theorem State.modSlice_nextOp (s : State) (id : Nat) (f : Slice → Slice) : (s.modSlice id f).nextOp = s.nextOp := rfl
@[simp] theorem State.modSlice_appends (s : State) (id : Nat) (f : Slice → Slice) : (s.modSlice id f).appends = s.appends := rfl
@[simp] theorem State.modSlice_qtab (s : State) (id : Nat) (f : Slice → Slice) : (s.modSlice id f).qtab = s.qtab := rfl
@[simp] theorem State.modSlice_conts (s : State) (id : Nat) (f : Slice → Slice) : (s.modSlice id f).conts = s.conts := rfl
@[simp] theorem State.modSlice_fscopes (s : State) (id : Nat) (f : Slice → Slice) : (s.modSlice id f).fscopes = s.fscopes := rfl
@[simp] theorem State.modSlice_ctrAdds (s : State) (id : Nat) (f : Slice → Slice) : (s.modSlice id f).ctrAdds = s.ctrAdds := rfl
@[simp] theorem State.modSlice_dues (s : State) (id : Nat) (f : Slice → Slice) : (s.modSlice id f).dues = s.dues := rfl
@[simp] theorem State.modSlice_passView (s : State) (id : Nat) (f : Slice → Slice) : (s.modSlice id f).passView = s.passView := rfl
@[simp] theorem State.modSlice_barriers (s : State) (id : Nat) (f : Slice → Slice) : (s.modSlice id f).barriers = s.barriers := rfl
@[simp] theorem State.modSlice_supq (s : State) (id : Nat) (f : Slice → Slice) : (s.modSlice id f).supq = s.supq := rfl
@[simp] theorem State.modSlice_qtbase (s : State) (id : Nat) (f : Slice → Slice) : (s.modSlice id f).qtbase = s.qtbase := rfl
@[simp] theorem State.modSlice_ptroot (s : State) (id : Nat) (f : Slice → Slice) : (s.modSlice id f).ptroot = s.ptroot := rfl
@[simp] theorem State.modSlice_pagerq (s : State) (id : Nat) (f : Slice → Slice) : (s.modSlice id f).pagerq = s.pagerq := rfl
@[simp] theorem State.modSlice_mcq (s : State) (id : Nat) (f : Slice → Slice) : (s.modSlice id f).mcq = s.mcq := rfl
@[simp] theorem State.modSlice_imgbase (s : State) (id : Nat) (f : Slice → Slice) : (s.modSlice id f).imgbase = s.imgbase := rfl
@[simp] theorem State.modSlice_imgsize (s : State) (id : Nat) (f : Slice → Slice) : (s.modSlice id f).imgsize = s.imgsize := rfl
@[simp] theorem State.modSlice_cfgsel (s : State) (id : Nat) (f : Slice → Slice) : (s.modSlice id f).cfgsel = s.cfgsel := rfl
@[simp] theorem State.modSlice_cfg (s : State) (id : Nat) (f : Slice → Slice) : (s.modSlice id f).cfg = s.cfg := rfl
@[simp] theorem State.modSlice_cycles (s : State) (id : Nat) (f : Slice → Slice) : (s.modSlice id f).cycles = s.cycles := rfl
@[simp] theorem State.modSlice_timeOff (s : State) (id : Nat) (f : Slice → Slice) : (s.modSlice id f).timeOff = s.timeOff := rfl
@[simp] theorem State.modSlice_ptTicks (s : State) (id : Nat) (f : Slice → Slice) : (s.modSlice id f).ptTicks = s.ptTicks := rfl
@[simp] theorem State.modSlice_svcDies (s : State) (id : Nat) (f : Slice → Slice) : (s.modSlice id f).svcDies = s.svcDies := rfl
@[simp] theorem State.modSlice_svcLevel (s : State) (id : Nat) (f : Slice → Slice) : (s.modSlice id f).svcLevel = s.svcLevel := rfl
@[simp] theorem State.modSlice_bring (s : State) (id : Nat) (f : Slice → Slice) : (s.modSlice id f).bring = s.bring := rfl
@[simp] theorem State.modSlice_inService (s : State) (id : Nat) (f : Slice → Slice) : (s.modSlice id f).inService = s.inService := rfl
@[simp] theorem State.modSlice_retired (s : State) (id : Nat) (f : Slice → Slice) : (s.modSlice id f).retired = s.retired := rfl
@[simp] theorem State.modSlice_retiredParts (s : State) (id : Nat) (f : Slice → Slice) : (s.modSlice id f).retiredParts = s.retiredParts := rfl
@[simp] theorem State.modSlice_testing (s : State) (id : Nat) (f : Slice → Slice) : (s.modSlice id f).testing = s.testing := rfl
@[simp] theorem State.modSlice_noMatrix (s : State) (id : Nat) (f : Slice → Slice) : (s.modSlice id f).noMatrix = s.noMatrix := rfl
@[simp] theorem State.modSlice_mailbox (s : State) (id : Nat) (f : Slice → Slice) : (s.modSlice id f).mailbox = s.mailbox := rfl
@[simp] theorem State.modSlice_fw (s : State) (id : Nat) (f : Slice → Slice) : (s.modSlice id f).fw = s.fw := rfl
@[simp] theorem State.modSlice_evlog (s : State) (id : Nat) (f : Slice → Slice) : (s.modSlice id f).evlog = s.evlog := rfl
@[simp] theorem State.modSlice_chans (s : State) (id : Nat) (f : Slice → Slice) : (s.modSlice id f).chans = s.chans := rfl
@[simp] theorem State.modSlice_outReqs (s : State) (id : Nat) (f : Slice → Slice) : (s.modSlice id f).outReqs = s.outReqs := rfl
@[simp] theorem State.modSlice_served (s : State) (id : Nat) (f : Slice → Slice) : (s.modSlice id f).served = s.served := rfl
@[simp] theorem State.modSlice_hostIn (s : State) (id : Nat) (f : Slice → Slice) : (s.modSlice id f).hostIn = s.hostIn := rfl
@[simp] theorem State.modSlice_hostOut (s : State) (id : Nat) (f : Slice → Slice) : (s.modSlice id f).hostOut = s.hostOut := rfl
@[simp] theorem State.modSlice_imgs (s : State) (id : Nat) (f : Slice → Slice) : (s.modSlice id f).imgs = s.imgs := rfl
@[simp] theorem State.modSlice_slices (s : State) (id : Nat) (f : Slice → Slice) : (s.modSlice id f).slices = s.slices.map fun x => if x.id = id then f x else x := rfl
@[simp] theorem State.modSlice_agenda (s : State) (id : Nat) (f : Slice → Slice) : (s.modSlice id f).agenda = s.agenda := rfl
@[simp] theorem State.modSlice_cur (s : State) (id : Nat) (f : Slice → Slice) : (s.modSlice id f).cur = s.cur := rfl
@[simp] theorem State.modSlice_freeSeq (s : State) (id : Nat) (f : Slice → Slice) : (s.modSlice id f).freeSeq = s.freeSeq := rfl

/-! `State.modStrand` -/

@[simp] theorem State.modStrand_mem (s : State) (st : SRef) (f : Strand → Strand) : (s.modStrand st f).mem = s.mem := rfl
@[simp] theorem State.modStrand_loc (s : State) (st : SRef) (f : Strand → Strand) : (s.modStrand st f).loc = s.loc := rfl
@[simp] theorem State.modStrand_full (s : State) (st : SRef) (f : Strand → Strand) : (s.modStrand st f).full = s.full := rfl
@[simp] theorem State.modStrand_banks (s : State) (st : SRef) (f : Strand → Strand) : (s.modStrand st f).banks = s.banks := rfl
@[simp] theorem State.modStrand_tiles (s : State) (st : SRef) (f : Strand → Strand) : (s.modStrand st f).tiles = s.tiles := rfl
@[simp] theorem State.modStrand_tileSince (s : State) (st : SRef) (f : Strand → Strand) : (s.modStrand st f).tileSince = s.tileSince := rfl
@[simp] theorem State.modStrand_mx (s : State) (st : SRef) (f : Strand → Strand) : (s.modStrand st f).mx = s.mx := rfl
@[simp] theorem State.modStrand_tlb (s : State) (st : SRef) (f : Strand → Strand) : (s.modStrand st f).tlb = s.tlb := rfl
@[simp] theorem State.modStrand_tcache (s : State) (st : SRef) (f : Strand → Strand) : (s.modStrand st f).tcache = s.tcache := rfl
@[simp] theorem State.modStrand_walks (s : State) (st : SRef) (f : Strand → Strand) : (s.modStrand st f).walks = s.walks := rfl
@[simp] theorem State.modStrand_cfgCache (s : State) (st : SRef) (f : Strand → Strand) : (s.modStrand st f).cfgCache = s.cfgCache := rfl
@[simp] theorem State.modStrand_pt (s : State) (st : SRef) (f : Strand → Strand) : (s.modStrand st f).pt = s.pt := rfl
@[simp] theorem State.modStrand_blockTs (s : State) (st : SRef) (f : Strand → Strand) : (s.modStrand st f).blockTs = s.blockTs := rfl
@[simp] theorem State.modStrand_copies (s : State) (st : SRef) (f : Strand → Strand) : (s.modStrand st f).copies = s.copies := rfl
@[simp] theorem State.modStrand_holds (s : State) (st : SRef) (f : Strand → Strand) : (s.modStrand st f).holds = s.holds := rfl
@[simp] theorem State.modStrand_poison (s : State) (st : SRef) (f : Strand → Strand) : (s.modStrand st f).poison = s.poison := rfl
@[simp] theorem State.modStrand_dirty (s : State) (st : SRef) (f : Strand → Strand) : (s.modStrand st f).dirty = s.dirty := rfl
@[simp] theorem State.modStrand_regions (s : State) (st : SRef) (f : Strand → Strand) : (s.modStrand st f).regions = s.regions := rfl
@[simp] theorem State.modStrand_bins (s : State) (st : SRef) (f : Strand → Strand) : (s.modStrand st f).bins = s.bins := rfl
@[simp] theorem State.modStrand_segs (s : State) (st : SRef) (f : Strand → Strand) : (s.modStrand st f).segs = s.segs := rfl
@[simp] theorem State.modStrand_epoch (s : State) (st : SRef) (f : Strand → Strand) : (s.modStrand st f).epoch = s.epoch := rfl
@[simp] theorem State.modStrand_yardStall (s : State) (st : SRef) (f : Strand → Strand) : (s.modStrand st f).yardStall = s.yardStall := rfl
@[simp] theorem State.modStrand_rote (s : State) (st : SRef) (f : Strand → Strand) : (s.modStrand st f).rote = s.rote := rfl
@[simp] theorem State.modStrand_ops (s : State) (st : SRef) (f : Strand → Strand) : (s.modStrand st f).ops = s.ops := rfl
@[simp] theorem State.modStrand_nextOp (s : State) (st : SRef) (f : Strand → Strand) : (s.modStrand st f).nextOp = s.nextOp := rfl
@[simp] theorem State.modStrand_appends (s : State) (st : SRef) (f : Strand → Strand) : (s.modStrand st f).appends = s.appends := rfl
@[simp] theorem State.modStrand_qtab (s : State) (st : SRef) (f : Strand → Strand) : (s.modStrand st f).qtab = s.qtab := rfl
@[simp] theorem State.modStrand_conts (s : State) (st : SRef) (f : Strand → Strand) : (s.modStrand st f).conts = s.conts := rfl
@[simp] theorem State.modStrand_fscopes (s : State) (st : SRef) (f : Strand → Strand) : (s.modStrand st f).fscopes = s.fscopes := rfl
@[simp] theorem State.modStrand_ctrAdds (s : State) (st : SRef) (f : Strand → Strand) : (s.modStrand st f).ctrAdds = s.ctrAdds := rfl
@[simp] theorem State.modStrand_dues (s : State) (st : SRef) (f : Strand → Strand) : (s.modStrand st f).dues = s.dues := rfl
@[simp] theorem State.modStrand_passView (s : State) (st : SRef) (f : Strand → Strand) : (s.modStrand st f).passView = s.passView := rfl
@[simp] theorem State.modStrand_barriers (s : State) (st : SRef) (f : Strand → Strand) : (s.modStrand st f).barriers = s.barriers := rfl
@[simp] theorem State.modStrand_supq (s : State) (st : SRef) (f : Strand → Strand) : (s.modStrand st f).supq = s.supq := rfl
@[simp] theorem State.modStrand_qtbase (s : State) (st : SRef) (f : Strand → Strand) : (s.modStrand st f).qtbase = s.qtbase := rfl
@[simp] theorem State.modStrand_ptroot (s : State) (st : SRef) (f : Strand → Strand) : (s.modStrand st f).ptroot = s.ptroot := rfl
@[simp] theorem State.modStrand_pagerq (s : State) (st : SRef) (f : Strand → Strand) : (s.modStrand st f).pagerq = s.pagerq := rfl
@[simp] theorem State.modStrand_mcq (s : State) (st : SRef) (f : Strand → Strand) : (s.modStrand st f).mcq = s.mcq := rfl
@[simp] theorem State.modStrand_imgbase (s : State) (st : SRef) (f : Strand → Strand) : (s.modStrand st f).imgbase = s.imgbase := rfl
@[simp] theorem State.modStrand_imgsize (s : State) (st : SRef) (f : Strand → Strand) : (s.modStrand st f).imgsize = s.imgsize := rfl
@[simp] theorem State.modStrand_cfgsel (s : State) (st : SRef) (f : Strand → Strand) : (s.modStrand st f).cfgsel = s.cfgsel := rfl
@[simp] theorem State.modStrand_cfg (s : State) (st : SRef) (f : Strand → Strand) : (s.modStrand st f).cfg = s.cfg := rfl
@[simp] theorem State.modStrand_cycles (s : State) (st : SRef) (f : Strand → Strand) : (s.modStrand st f).cycles = s.cycles := rfl
@[simp] theorem State.modStrand_timeOff (s : State) (st : SRef) (f : Strand → Strand) : (s.modStrand st f).timeOff = s.timeOff := rfl
@[simp] theorem State.modStrand_ptTicks (s : State) (st : SRef) (f : Strand → Strand) : (s.modStrand st f).ptTicks = s.ptTicks := rfl
@[simp] theorem State.modStrand_svcDies (s : State) (st : SRef) (f : Strand → Strand) : (s.modStrand st f).svcDies = s.svcDies := rfl
@[simp] theorem State.modStrand_svcLevel (s : State) (st : SRef) (f : Strand → Strand) : (s.modStrand st f).svcLevel = s.svcLevel := rfl
@[simp] theorem State.modStrand_bring (s : State) (st : SRef) (f : Strand → Strand) : (s.modStrand st f).bring = s.bring := rfl
@[simp] theorem State.modStrand_inService (s : State) (st : SRef) (f : Strand → Strand) : (s.modStrand st f).inService = s.inService := rfl
@[simp] theorem State.modStrand_retired (s : State) (st : SRef) (f : Strand → Strand) : (s.modStrand st f).retired = s.retired := rfl
@[simp] theorem State.modStrand_retiredParts (s : State) (st : SRef) (f : Strand → Strand) : (s.modStrand st f).retiredParts = s.retiredParts := rfl
@[simp] theorem State.modStrand_testing (s : State) (st : SRef) (f : Strand → Strand) : (s.modStrand st f).testing = s.testing := rfl
@[simp] theorem State.modStrand_noMatrix (s : State) (st : SRef) (f : Strand → Strand) : (s.modStrand st f).noMatrix = s.noMatrix := rfl
@[simp] theorem State.modStrand_mailbox (s : State) (st : SRef) (f : Strand → Strand) : (s.modStrand st f).mailbox = s.mailbox := rfl
@[simp] theorem State.modStrand_fw (s : State) (st : SRef) (f : Strand → Strand) : (s.modStrand st f).fw = s.fw := rfl
@[simp] theorem State.modStrand_evlog (s : State) (st : SRef) (f : Strand → Strand) : (s.modStrand st f).evlog = s.evlog := rfl
@[simp] theorem State.modStrand_chans (s : State) (st : SRef) (f : Strand → Strand) : (s.modStrand st f).chans = s.chans := rfl
@[simp] theorem State.modStrand_outReqs (s : State) (st : SRef) (f : Strand → Strand) : (s.modStrand st f).outReqs = s.outReqs := rfl
@[simp] theorem State.modStrand_served (s : State) (st : SRef) (f : Strand → Strand) : (s.modStrand st f).served = s.served := rfl
@[simp] theorem State.modStrand_hostIn (s : State) (st : SRef) (f : Strand → Strand) : (s.modStrand st f).hostIn = s.hostIn := rfl
@[simp] theorem State.modStrand_hostOut (s : State) (st : SRef) (f : Strand → Strand) : (s.modStrand st f).hostOut = s.hostOut := rfl
@[simp] theorem State.modStrand_imgs (s : State) (st : SRef) (f : Strand → Strand) : (s.modStrand st f).imgs = s.imgs := rfl
@[simp] theorem State.modStrand_agenda (s : State) (st : SRef) (f : Strand → Strand) : (s.modStrand st f).agenda = s.agenda := rfl
@[simp] theorem State.modStrand_cur (s : State) (st : SRef) (f : Strand → Strand) : (s.modStrand st f).cur = s.cur := rfl
@[simp] theorem State.modStrand_freeSeq (s : State) (st : SRef) (f : Strand → Strand) : (s.modStrand st f).freeSeq = s.freeSeq := rfl

/-! `State.modInst` -/

@[simp] theorem State.modInst_mem (s : State) (st : SRef) (f : Inst → Inst) : (s.modInst st f).mem = s.mem := rfl
@[simp] theorem State.modInst_loc (s : State) (st : SRef) (f : Inst → Inst) : (s.modInst st f).loc = s.loc := rfl
@[simp] theorem State.modInst_full (s : State) (st : SRef) (f : Inst → Inst) : (s.modInst st f).full = s.full := rfl
@[simp] theorem State.modInst_banks (s : State) (st : SRef) (f : Inst → Inst) : (s.modInst st f).banks = s.banks := rfl
@[simp] theorem State.modInst_tiles (s : State) (st : SRef) (f : Inst → Inst) : (s.modInst st f).tiles = s.tiles := rfl
@[simp] theorem State.modInst_tileSince (s : State) (st : SRef) (f : Inst → Inst) : (s.modInst st f).tileSince = s.tileSince := rfl
@[simp] theorem State.modInst_mx (s : State) (st : SRef) (f : Inst → Inst) : (s.modInst st f).mx = s.mx := rfl
@[simp] theorem State.modInst_tlb (s : State) (st : SRef) (f : Inst → Inst) : (s.modInst st f).tlb = s.tlb := rfl
@[simp] theorem State.modInst_tcache (s : State) (st : SRef) (f : Inst → Inst) : (s.modInst st f).tcache = s.tcache := rfl
@[simp] theorem State.modInst_walks (s : State) (st : SRef) (f : Inst → Inst) : (s.modInst st f).walks = s.walks := rfl
@[simp] theorem State.modInst_cfgCache (s : State) (st : SRef) (f : Inst → Inst) : (s.modInst st f).cfgCache = s.cfgCache := rfl
@[simp] theorem State.modInst_pt (s : State) (st : SRef) (f : Inst → Inst) : (s.modInst st f).pt = s.pt := rfl
@[simp] theorem State.modInst_blockTs (s : State) (st : SRef) (f : Inst → Inst) : (s.modInst st f).blockTs = s.blockTs := rfl
@[simp] theorem State.modInst_copies (s : State) (st : SRef) (f : Inst → Inst) : (s.modInst st f).copies = s.copies := rfl
@[simp] theorem State.modInst_holds (s : State) (st : SRef) (f : Inst → Inst) : (s.modInst st f).holds = s.holds := rfl
@[simp] theorem State.modInst_poison (s : State) (st : SRef) (f : Inst → Inst) : (s.modInst st f).poison = s.poison := rfl
@[simp] theorem State.modInst_dirty (s : State) (st : SRef) (f : Inst → Inst) : (s.modInst st f).dirty = s.dirty := rfl
@[simp] theorem State.modInst_regions (s : State) (st : SRef) (f : Inst → Inst) : (s.modInst st f).regions = s.regions := rfl
@[simp] theorem State.modInst_bins (s : State) (st : SRef) (f : Inst → Inst) : (s.modInst st f).bins = s.bins := rfl
@[simp] theorem State.modInst_segs (s : State) (st : SRef) (f : Inst → Inst) : (s.modInst st f).segs = s.segs := rfl
@[simp] theorem State.modInst_epoch (s : State) (st : SRef) (f : Inst → Inst) : (s.modInst st f).epoch = s.epoch := rfl
@[simp] theorem State.modInst_yardStall (s : State) (st : SRef) (f : Inst → Inst) : (s.modInst st f).yardStall = s.yardStall := rfl
@[simp] theorem State.modInst_rote (s : State) (st : SRef) (f : Inst → Inst) : (s.modInst st f).rote = s.rote := rfl
@[simp] theorem State.modInst_ops (s : State) (st : SRef) (f : Inst → Inst) : (s.modInst st f).ops = s.ops := rfl
@[simp] theorem State.modInst_nextOp (s : State) (st : SRef) (f : Inst → Inst) : (s.modInst st f).nextOp = s.nextOp := rfl
@[simp] theorem State.modInst_appends (s : State) (st : SRef) (f : Inst → Inst) : (s.modInst st f).appends = s.appends := rfl
@[simp] theorem State.modInst_qtab (s : State) (st : SRef) (f : Inst → Inst) : (s.modInst st f).qtab = s.qtab := rfl
@[simp] theorem State.modInst_conts (s : State) (st : SRef) (f : Inst → Inst) : (s.modInst st f).conts = s.conts := rfl
@[simp] theorem State.modInst_fscopes (s : State) (st : SRef) (f : Inst → Inst) : (s.modInst st f).fscopes = s.fscopes := rfl
@[simp] theorem State.modInst_ctrAdds (s : State) (st : SRef) (f : Inst → Inst) : (s.modInst st f).ctrAdds = s.ctrAdds := rfl
@[simp] theorem State.modInst_dues (s : State) (st : SRef) (f : Inst → Inst) : (s.modInst st f).dues = s.dues := rfl
@[simp] theorem State.modInst_passView (s : State) (st : SRef) (f : Inst → Inst) : (s.modInst st f).passView = s.passView := rfl
@[simp] theorem State.modInst_barriers (s : State) (st : SRef) (f : Inst → Inst) : (s.modInst st f).barriers = s.barriers := rfl
@[simp] theorem State.modInst_supq (s : State) (st : SRef) (f : Inst → Inst) : (s.modInst st f).supq = s.supq := rfl
@[simp] theorem State.modInst_qtbase (s : State) (st : SRef) (f : Inst → Inst) : (s.modInst st f).qtbase = s.qtbase := rfl
@[simp] theorem State.modInst_ptroot (s : State) (st : SRef) (f : Inst → Inst) : (s.modInst st f).ptroot = s.ptroot := rfl
@[simp] theorem State.modInst_pagerq (s : State) (st : SRef) (f : Inst → Inst) : (s.modInst st f).pagerq = s.pagerq := rfl
@[simp] theorem State.modInst_mcq (s : State) (st : SRef) (f : Inst → Inst) : (s.modInst st f).mcq = s.mcq := rfl
@[simp] theorem State.modInst_imgbase (s : State) (st : SRef) (f : Inst → Inst) : (s.modInst st f).imgbase = s.imgbase := rfl
@[simp] theorem State.modInst_imgsize (s : State) (st : SRef) (f : Inst → Inst) : (s.modInst st f).imgsize = s.imgsize := rfl
@[simp] theorem State.modInst_cfgsel (s : State) (st : SRef) (f : Inst → Inst) : (s.modInst st f).cfgsel = s.cfgsel := rfl
@[simp] theorem State.modInst_cfg (s : State) (st : SRef) (f : Inst → Inst) : (s.modInst st f).cfg = s.cfg := rfl
@[simp] theorem State.modInst_cycles (s : State) (st : SRef) (f : Inst → Inst) : (s.modInst st f).cycles = s.cycles := rfl
@[simp] theorem State.modInst_timeOff (s : State) (st : SRef) (f : Inst → Inst) : (s.modInst st f).timeOff = s.timeOff := rfl
@[simp] theorem State.modInst_ptTicks (s : State) (st : SRef) (f : Inst → Inst) : (s.modInst st f).ptTicks = s.ptTicks := rfl
@[simp] theorem State.modInst_svcDies (s : State) (st : SRef) (f : Inst → Inst) : (s.modInst st f).svcDies = s.svcDies := rfl
@[simp] theorem State.modInst_svcLevel (s : State) (st : SRef) (f : Inst → Inst) : (s.modInst st f).svcLevel = s.svcLevel := rfl
@[simp] theorem State.modInst_bring (s : State) (st : SRef) (f : Inst → Inst) : (s.modInst st f).bring = s.bring := rfl
@[simp] theorem State.modInst_inService (s : State) (st : SRef) (f : Inst → Inst) : (s.modInst st f).inService = s.inService := rfl
@[simp] theorem State.modInst_retired (s : State) (st : SRef) (f : Inst → Inst) : (s.modInst st f).retired = s.retired := rfl
@[simp] theorem State.modInst_retiredParts (s : State) (st : SRef) (f : Inst → Inst) : (s.modInst st f).retiredParts = s.retiredParts := rfl
@[simp] theorem State.modInst_testing (s : State) (st : SRef) (f : Inst → Inst) : (s.modInst st f).testing = s.testing := rfl
@[simp] theorem State.modInst_noMatrix (s : State) (st : SRef) (f : Inst → Inst) : (s.modInst st f).noMatrix = s.noMatrix := rfl
@[simp] theorem State.modInst_mailbox (s : State) (st : SRef) (f : Inst → Inst) : (s.modInst st f).mailbox = s.mailbox := rfl
@[simp] theorem State.modInst_fw (s : State) (st : SRef) (f : Inst → Inst) : (s.modInst st f).fw = s.fw := rfl
@[simp] theorem State.modInst_evlog (s : State) (st : SRef) (f : Inst → Inst) : (s.modInst st f).evlog = s.evlog := rfl
@[simp] theorem State.modInst_chans (s : State) (st : SRef) (f : Inst → Inst) : (s.modInst st f).chans = s.chans := rfl
@[simp] theorem State.modInst_outReqs (s : State) (st : SRef) (f : Inst → Inst) : (s.modInst st f).outReqs = s.outReqs := rfl
@[simp] theorem State.modInst_served (s : State) (st : SRef) (f : Inst → Inst) : (s.modInst st f).served = s.served := rfl
@[simp] theorem State.modInst_hostIn (s : State) (st : SRef) (f : Inst → Inst) : (s.modInst st f).hostIn = s.hostIn := rfl
@[simp] theorem State.modInst_hostOut (s : State) (st : SRef) (f : Inst → Inst) : (s.modInst st f).hostOut = s.hostOut := rfl
@[simp] theorem State.modInst_imgs (s : State) (st : SRef) (f : Inst → Inst) : (s.modInst st f).imgs = s.imgs := rfl
@[simp] theorem State.modInst_agenda (s : State) (st : SRef) (f : Inst → Inst) : (s.modInst st f).agenda = s.agenda := rfl
@[simp] theorem State.modInst_cur (s : State) (st : SRef) (f : Inst → Inst) : (s.modInst st f).cur = s.cur := rfl
@[simp] theorem State.modInst_freeSeq (s : State) (st : SRef) (f : Inst → Inst) : (s.modInst st f).freeSeq = s.freeSeq := rfl

/-! `State.modNode` -/

@[simp] theorem State.modNode_mem (s : State) (st : SRef) (i : Nat) (f : Node → Node) : (s.modNode st i f).mem = s.mem := rfl
@[simp] theorem State.modNode_loc (s : State) (st : SRef) (i : Nat) (f : Node → Node) : (s.modNode st i f).loc = s.loc := rfl
@[simp] theorem State.modNode_full (s : State) (st : SRef) (i : Nat) (f : Node → Node) : (s.modNode st i f).full = s.full := rfl
@[simp] theorem State.modNode_banks (s : State) (st : SRef) (i : Nat) (f : Node → Node) : (s.modNode st i f).banks = s.banks := rfl
@[simp] theorem State.modNode_tiles (s : State) (st : SRef) (i : Nat) (f : Node → Node) : (s.modNode st i f).tiles = s.tiles := rfl
@[simp] theorem State.modNode_tileSince (s : State) (st : SRef) (i : Nat) (f : Node → Node) : (s.modNode st i f).tileSince = s.tileSince := rfl
@[simp] theorem State.modNode_mx (s : State) (st : SRef) (i : Nat) (f : Node → Node) : (s.modNode st i f).mx = s.mx := rfl
@[simp] theorem State.modNode_tlb (s : State) (st : SRef) (i : Nat) (f : Node → Node) : (s.modNode st i f).tlb = s.tlb := rfl
@[simp] theorem State.modNode_tcache (s : State) (st : SRef) (i : Nat) (f : Node → Node) : (s.modNode st i f).tcache = s.tcache := rfl
@[simp] theorem State.modNode_walks (s : State) (st : SRef) (i : Nat) (f : Node → Node) : (s.modNode st i f).walks = s.walks := rfl
@[simp] theorem State.modNode_cfgCache (s : State) (st : SRef) (i : Nat) (f : Node → Node) : (s.modNode st i f).cfgCache = s.cfgCache := rfl
@[simp] theorem State.modNode_pt (s : State) (st : SRef) (i : Nat) (f : Node → Node) : (s.modNode st i f).pt = s.pt := rfl
@[simp] theorem State.modNode_blockTs (s : State) (st : SRef) (i : Nat) (f : Node → Node) : (s.modNode st i f).blockTs = s.blockTs := rfl
@[simp] theorem State.modNode_copies (s : State) (st : SRef) (i : Nat) (f : Node → Node) : (s.modNode st i f).copies = s.copies := rfl
@[simp] theorem State.modNode_holds (s : State) (st : SRef) (i : Nat) (f : Node → Node) : (s.modNode st i f).holds = s.holds := rfl
@[simp] theorem State.modNode_poison (s : State) (st : SRef) (i : Nat) (f : Node → Node) : (s.modNode st i f).poison = s.poison := rfl
@[simp] theorem State.modNode_dirty (s : State) (st : SRef) (i : Nat) (f : Node → Node) : (s.modNode st i f).dirty = s.dirty := rfl
@[simp] theorem State.modNode_regions (s : State) (st : SRef) (i : Nat) (f : Node → Node) : (s.modNode st i f).regions = s.regions := rfl
@[simp] theorem State.modNode_bins (s : State) (st : SRef) (i : Nat) (f : Node → Node) : (s.modNode st i f).bins = s.bins := rfl
@[simp] theorem State.modNode_segs (s : State) (st : SRef) (i : Nat) (f : Node → Node) : (s.modNode st i f).segs = s.segs := rfl
@[simp] theorem State.modNode_epoch (s : State) (st : SRef) (i : Nat) (f : Node → Node) : (s.modNode st i f).epoch = s.epoch := rfl
@[simp] theorem State.modNode_yardStall (s : State) (st : SRef) (i : Nat) (f : Node → Node) : (s.modNode st i f).yardStall = s.yardStall := rfl
@[simp] theorem State.modNode_rote (s : State) (st : SRef) (i : Nat) (f : Node → Node) : (s.modNode st i f).rote = s.rote := rfl
@[simp] theorem State.modNode_ops (s : State) (st : SRef) (i : Nat) (f : Node → Node) : (s.modNode st i f).ops = s.ops := rfl
@[simp] theorem State.modNode_nextOp (s : State) (st : SRef) (i : Nat) (f : Node → Node) : (s.modNode st i f).nextOp = s.nextOp := rfl
@[simp] theorem State.modNode_appends (s : State) (st : SRef) (i : Nat) (f : Node → Node) : (s.modNode st i f).appends = s.appends := rfl
@[simp] theorem State.modNode_qtab (s : State) (st : SRef) (i : Nat) (f : Node → Node) : (s.modNode st i f).qtab = s.qtab := rfl
@[simp] theorem State.modNode_conts (s : State) (st : SRef) (i : Nat) (f : Node → Node) : (s.modNode st i f).conts = s.conts := rfl
@[simp] theorem State.modNode_fscopes (s : State) (st : SRef) (i : Nat) (f : Node → Node) : (s.modNode st i f).fscopes = s.fscopes := rfl
@[simp] theorem State.modNode_ctrAdds (s : State) (st : SRef) (i : Nat) (f : Node → Node) : (s.modNode st i f).ctrAdds = s.ctrAdds := rfl
@[simp] theorem State.modNode_dues (s : State) (st : SRef) (i : Nat) (f : Node → Node) : (s.modNode st i f).dues = s.dues := rfl
@[simp] theorem State.modNode_passView (s : State) (st : SRef) (i : Nat) (f : Node → Node) : (s.modNode st i f).passView = s.passView := rfl
@[simp] theorem State.modNode_barriers (s : State) (st : SRef) (i : Nat) (f : Node → Node) : (s.modNode st i f).barriers = s.barriers := rfl
@[simp] theorem State.modNode_supq (s : State) (st : SRef) (i : Nat) (f : Node → Node) : (s.modNode st i f).supq = s.supq := rfl
@[simp] theorem State.modNode_qtbase (s : State) (st : SRef) (i : Nat) (f : Node → Node) : (s.modNode st i f).qtbase = s.qtbase := rfl
@[simp] theorem State.modNode_ptroot (s : State) (st : SRef) (i : Nat) (f : Node → Node) : (s.modNode st i f).ptroot = s.ptroot := rfl
@[simp] theorem State.modNode_pagerq (s : State) (st : SRef) (i : Nat) (f : Node → Node) : (s.modNode st i f).pagerq = s.pagerq := rfl
@[simp] theorem State.modNode_mcq (s : State) (st : SRef) (i : Nat) (f : Node → Node) : (s.modNode st i f).mcq = s.mcq := rfl
@[simp] theorem State.modNode_imgbase (s : State) (st : SRef) (i : Nat) (f : Node → Node) : (s.modNode st i f).imgbase = s.imgbase := rfl
@[simp] theorem State.modNode_imgsize (s : State) (st : SRef) (i : Nat) (f : Node → Node) : (s.modNode st i f).imgsize = s.imgsize := rfl
@[simp] theorem State.modNode_cfgsel (s : State) (st : SRef) (i : Nat) (f : Node → Node) : (s.modNode st i f).cfgsel = s.cfgsel := rfl
@[simp] theorem State.modNode_cfg (s : State) (st : SRef) (i : Nat) (f : Node → Node) : (s.modNode st i f).cfg = s.cfg := rfl
@[simp] theorem State.modNode_cycles (s : State) (st : SRef) (i : Nat) (f : Node → Node) : (s.modNode st i f).cycles = s.cycles := rfl
@[simp] theorem State.modNode_timeOff (s : State) (st : SRef) (i : Nat) (f : Node → Node) : (s.modNode st i f).timeOff = s.timeOff := rfl
@[simp] theorem State.modNode_ptTicks (s : State) (st : SRef) (i : Nat) (f : Node → Node) : (s.modNode st i f).ptTicks = s.ptTicks := rfl
@[simp] theorem State.modNode_svcDies (s : State) (st : SRef) (i : Nat) (f : Node → Node) : (s.modNode st i f).svcDies = s.svcDies := rfl
@[simp] theorem State.modNode_svcLevel (s : State) (st : SRef) (i : Nat) (f : Node → Node) : (s.modNode st i f).svcLevel = s.svcLevel := rfl
@[simp] theorem State.modNode_bring (s : State) (st : SRef) (i : Nat) (f : Node → Node) : (s.modNode st i f).bring = s.bring := rfl
@[simp] theorem State.modNode_inService (s : State) (st : SRef) (i : Nat) (f : Node → Node) : (s.modNode st i f).inService = s.inService := rfl
@[simp] theorem State.modNode_retired (s : State) (st : SRef) (i : Nat) (f : Node → Node) : (s.modNode st i f).retired = s.retired := rfl
@[simp] theorem State.modNode_retiredParts (s : State) (st : SRef) (i : Nat) (f : Node → Node) : (s.modNode st i f).retiredParts = s.retiredParts := rfl
@[simp] theorem State.modNode_testing (s : State) (st : SRef) (i : Nat) (f : Node → Node) : (s.modNode st i f).testing = s.testing := rfl
@[simp] theorem State.modNode_noMatrix (s : State) (st : SRef) (i : Nat) (f : Node → Node) : (s.modNode st i f).noMatrix = s.noMatrix := rfl
@[simp] theorem State.modNode_mailbox (s : State) (st : SRef) (i : Nat) (f : Node → Node) : (s.modNode st i f).mailbox = s.mailbox := rfl
@[simp] theorem State.modNode_fw (s : State) (st : SRef) (i : Nat) (f : Node → Node) : (s.modNode st i f).fw = s.fw := rfl
@[simp] theorem State.modNode_evlog (s : State) (st : SRef) (i : Nat) (f : Node → Node) : (s.modNode st i f).evlog = s.evlog := rfl
@[simp] theorem State.modNode_chans (s : State) (st : SRef) (i : Nat) (f : Node → Node) : (s.modNode st i f).chans = s.chans := rfl
@[simp] theorem State.modNode_outReqs (s : State) (st : SRef) (i : Nat) (f : Node → Node) : (s.modNode st i f).outReqs = s.outReqs := rfl
@[simp] theorem State.modNode_served (s : State) (st : SRef) (i : Nat) (f : Node → Node) : (s.modNode st i f).served = s.served := rfl
@[simp] theorem State.modNode_hostIn (s : State) (st : SRef) (i : Nat) (f : Node → Node) : (s.modNode st i f).hostIn = s.hostIn := rfl
@[simp] theorem State.modNode_hostOut (s : State) (st : SRef) (i : Nat) (f : Node → Node) : (s.modNode st i f).hostOut = s.hostOut := rfl
@[simp] theorem State.modNode_imgs (s : State) (st : SRef) (i : Nat) (f : Node → Node) : (s.modNode st i f).imgs = s.imgs := rfl
@[simp] theorem State.modNode_agenda (s : State) (st : SRef) (i : Nat) (f : Node → Node) : (s.modNode st i f).agenda = s.agenda := rfl
@[simp] theorem State.modNode_cur (s : State) (st : SRef) (i : Nat) (f : Node → Node) : (s.modNode st i f).cur = s.cur := rfl
@[simp] theorem State.modNode_freeSeq (s : State) (st : SRef) (i : Nat) (f : Node → Node) : (s.modNode st i f).freeSeq = s.freeSeq := rfl

/-! `State.setBar` -/

@[simp] theorem State.setBar_mem (s : State) (b : BarKey) (v : Barrier) : (s.setBar b v).mem = s.mem := rfl
@[simp] theorem State.setBar_loc (s : State) (b : BarKey) (v : Barrier) : (s.setBar b v).loc = s.loc := rfl
@[simp] theorem State.setBar_full (s : State) (b : BarKey) (v : Barrier) : (s.setBar b v).full = s.full := rfl
@[simp] theorem State.setBar_banks (s : State) (b : BarKey) (v : Barrier) : (s.setBar b v).banks = s.banks := rfl
@[simp] theorem State.setBar_tiles (s : State) (b : BarKey) (v : Barrier) : (s.setBar b v).tiles = s.tiles := rfl
@[simp] theorem State.setBar_tileSince (s : State) (b : BarKey) (v : Barrier) : (s.setBar b v).tileSince = s.tileSince := rfl
@[simp] theorem State.setBar_mx (s : State) (b : BarKey) (v : Barrier) : (s.setBar b v).mx = s.mx := rfl
@[simp] theorem State.setBar_tlb (s : State) (b : BarKey) (v : Barrier) : (s.setBar b v).tlb = s.tlb := rfl
@[simp] theorem State.setBar_tcache (s : State) (b : BarKey) (v : Barrier) : (s.setBar b v).tcache = s.tcache := rfl
@[simp] theorem State.setBar_walks (s : State) (b : BarKey) (v : Barrier) : (s.setBar b v).walks = s.walks := rfl
@[simp] theorem State.setBar_cfgCache (s : State) (b : BarKey) (v : Barrier) : (s.setBar b v).cfgCache = s.cfgCache := rfl
@[simp] theorem State.setBar_pt (s : State) (b : BarKey) (v : Barrier) : (s.setBar b v).pt = s.pt := rfl
@[simp] theorem State.setBar_blockTs (s : State) (b : BarKey) (v : Barrier) : (s.setBar b v).blockTs = s.blockTs := rfl
@[simp] theorem State.setBar_copies (s : State) (b : BarKey) (v : Barrier) : (s.setBar b v).copies = s.copies := rfl
@[simp] theorem State.setBar_holds (s : State) (b : BarKey) (v : Barrier) : (s.setBar b v).holds = s.holds := rfl
@[simp] theorem State.setBar_poison (s : State) (b : BarKey) (v : Barrier) : (s.setBar b v).poison = s.poison := rfl
@[simp] theorem State.setBar_dirty (s : State) (b : BarKey) (v : Barrier) : (s.setBar b v).dirty = s.dirty := rfl
@[simp] theorem State.setBar_regions (s : State) (b : BarKey) (v : Barrier) : (s.setBar b v).regions = s.regions := rfl
@[simp] theorem State.setBar_bins (s : State) (b : BarKey) (v : Barrier) : (s.setBar b v).bins = s.bins := rfl
@[simp] theorem State.setBar_segs (s : State) (b : BarKey) (v : Barrier) : (s.setBar b v).segs = s.segs := rfl
@[simp] theorem State.setBar_epoch (s : State) (b : BarKey) (v : Barrier) : (s.setBar b v).epoch = s.epoch := rfl
@[simp] theorem State.setBar_yardStall (s : State) (b : BarKey) (v : Barrier) : (s.setBar b v).yardStall = s.yardStall := rfl
@[simp] theorem State.setBar_rote (s : State) (b : BarKey) (v : Barrier) : (s.setBar b v).rote = s.rote := rfl
@[simp] theorem State.setBar_ops (s : State) (b : BarKey) (v : Barrier) : (s.setBar b v).ops = s.ops := rfl
@[simp] theorem State.setBar_nextOp (s : State) (b : BarKey) (v : Barrier) : (s.setBar b v).nextOp = s.nextOp := rfl
@[simp] theorem State.setBar_appends (s : State) (b : BarKey) (v : Barrier) : (s.setBar b v).appends = s.appends := rfl
@[simp] theorem State.setBar_qtab (s : State) (b : BarKey) (v : Barrier) : (s.setBar b v).qtab = s.qtab := rfl
@[simp] theorem State.setBar_conts (s : State) (b : BarKey) (v : Barrier) : (s.setBar b v).conts = s.conts := rfl
@[simp] theorem State.setBar_fscopes (s : State) (b : BarKey) (v : Barrier) : (s.setBar b v).fscopes = s.fscopes := rfl
@[simp] theorem State.setBar_ctrAdds (s : State) (b : BarKey) (v : Barrier) : (s.setBar b v).ctrAdds = s.ctrAdds := rfl
@[simp] theorem State.setBar_dues (s : State) (b : BarKey) (v : Barrier) : (s.setBar b v).dues = s.dues := rfl
@[simp] theorem State.setBar_passView (s : State) (b : BarKey) (v : Barrier) : (s.setBar b v).passView = s.passView := rfl
@[simp] theorem State.setBar_barriers (s : State) (b : BarKey) (v : Barrier) : (s.setBar b v).barriers = Table.set Barrier.reset s.barriers (barNum b) v := rfl
@[simp] theorem State.setBar_supq (s : State) (b : BarKey) (v : Barrier) : (s.setBar b v).supq = s.supq := rfl
@[simp] theorem State.setBar_qtbase (s : State) (b : BarKey) (v : Barrier) : (s.setBar b v).qtbase = s.qtbase := rfl
@[simp] theorem State.setBar_ptroot (s : State) (b : BarKey) (v : Barrier) : (s.setBar b v).ptroot = s.ptroot := rfl
@[simp] theorem State.setBar_pagerq (s : State) (b : BarKey) (v : Barrier) : (s.setBar b v).pagerq = s.pagerq := rfl
@[simp] theorem State.setBar_mcq (s : State) (b : BarKey) (v : Barrier) : (s.setBar b v).mcq = s.mcq := rfl
@[simp] theorem State.setBar_imgbase (s : State) (b : BarKey) (v : Barrier) : (s.setBar b v).imgbase = s.imgbase := rfl
@[simp] theorem State.setBar_imgsize (s : State) (b : BarKey) (v : Barrier) : (s.setBar b v).imgsize = s.imgsize := rfl
@[simp] theorem State.setBar_cfgsel (s : State) (b : BarKey) (v : Barrier) : (s.setBar b v).cfgsel = s.cfgsel := rfl
@[simp] theorem State.setBar_cfg (s : State) (b : BarKey) (v : Barrier) : (s.setBar b v).cfg = s.cfg := rfl
@[simp] theorem State.setBar_cycles (s : State) (b : BarKey) (v : Barrier) : (s.setBar b v).cycles = s.cycles := rfl
@[simp] theorem State.setBar_timeOff (s : State) (b : BarKey) (v : Barrier) : (s.setBar b v).timeOff = s.timeOff := rfl
@[simp] theorem State.setBar_ptTicks (s : State) (b : BarKey) (v : Barrier) : (s.setBar b v).ptTicks = s.ptTicks := rfl
@[simp] theorem State.setBar_svcDies (s : State) (b : BarKey) (v : Barrier) : (s.setBar b v).svcDies = s.svcDies := rfl
@[simp] theorem State.setBar_svcLevel (s : State) (b : BarKey) (v : Barrier) : (s.setBar b v).svcLevel = s.svcLevel := rfl
@[simp] theorem State.setBar_bring (s : State) (b : BarKey) (v : Barrier) : (s.setBar b v).bring = s.bring := rfl
@[simp] theorem State.setBar_inService (s : State) (b : BarKey) (v : Barrier) : (s.setBar b v).inService = s.inService := rfl
@[simp] theorem State.setBar_retired (s : State) (b : BarKey) (v : Barrier) : (s.setBar b v).retired = s.retired := rfl
@[simp] theorem State.setBar_retiredParts (s : State) (b : BarKey) (v : Barrier) : (s.setBar b v).retiredParts = s.retiredParts := rfl
@[simp] theorem State.setBar_testing (s : State) (b : BarKey) (v : Barrier) : (s.setBar b v).testing = s.testing := rfl
@[simp] theorem State.setBar_noMatrix (s : State) (b : BarKey) (v : Barrier) : (s.setBar b v).noMatrix = s.noMatrix := rfl
@[simp] theorem State.setBar_mailbox (s : State) (b : BarKey) (v : Barrier) : (s.setBar b v).mailbox = s.mailbox := rfl
@[simp] theorem State.setBar_fw (s : State) (b : BarKey) (v : Barrier) : (s.setBar b v).fw = s.fw := rfl
@[simp] theorem State.setBar_evlog (s : State) (b : BarKey) (v : Barrier) : (s.setBar b v).evlog = s.evlog := rfl
@[simp] theorem State.setBar_chans (s : State) (b : BarKey) (v : Barrier) : (s.setBar b v).chans = s.chans := rfl
@[simp] theorem State.setBar_outReqs (s : State) (b : BarKey) (v : Barrier) : (s.setBar b v).outReqs = s.outReqs := rfl
@[simp] theorem State.setBar_served (s : State) (b : BarKey) (v : Barrier) : (s.setBar b v).served = s.served := rfl
@[simp] theorem State.setBar_hostIn (s : State) (b : BarKey) (v : Barrier) : (s.setBar b v).hostIn = s.hostIn := rfl
@[simp] theorem State.setBar_hostOut (s : State) (b : BarKey) (v : Barrier) : (s.setBar b v).hostOut = s.hostOut := rfl
@[simp] theorem State.setBar_imgs (s : State) (b : BarKey) (v : Barrier) : (s.setBar b v).imgs = s.imgs := rfl
@[simp] theorem State.setBar_slices (s : State) (b : BarKey) (v : Barrier) : (s.setBar b v).slices = s.slices := rfl
@[simp] theorem State.setBar_agenda (s : State) (b : BarKey) (v : Barrier) : (s.setBar b v).agenda = s.agenda := rfl
@[simp] theorem State.setBar_cur (s : State) (b : BarKey) (v : Barrier) : (s.setBar b v).cur = s.cur := rfl
@[simp] theorem State.setBar_freeSeq (s : State) (b : BarKey) (v : Barrier) : (s.setBar b v).freeSeq = s.freeSeq := rfl

/-! `State.setFscope` -/

@[simp] theorem State.setFscope_mem (s : State) (n : Nat) (v : FScope) : (s.setFscope n v).mem = s.mem := rfl
@[simp] theorem State.setFscope_loc (s : State) (n : Nat) (v : FScope) : (s.setFscope n v).loc = s.loc := rfl
@[simp] theorem State.setFscope_full (s : State) (n : Nat) (v : FScope) : (s.setFscope n v).full = s.full := rfl
@[simp] theorem State.setFscope_banks (s : State) (n : Nat) (v : FScope) : (s.setFscope n v).banks = s.banks := rfl
@[simp] theorem State.setFscope_tiles (s : State) (n : Nat) (v : FScope) : (s.setFscope n v).tiles = s.tiles := rfl
@[simp] theorem State.setFscope_tileSince (s : State) (n : Nat) (v : FScope) : (s.setFscope n v).tileSince = s.tileSince := rfl
@[simp] theorem State.setFscope_mx (s : State) (n : Nat) (v : FScope) : (s.setFscope n v).mx = s.mx := rfl
@[simp] theorem State.setFscope_tlb (s : State) (n : Nat) (v : FScope) : (s.setFscope n v).tlb = s.tlb := rfl
@[simp] theorem State.setFscope_tcache (s : State) (n : Nat) (v : FScope) : (s.setFscope n v).tcache = s.tcache := rfl
@[simp] theorem State.setFscope_walks (s : State) (n : Nat) (v : FScope) : (s.setFscope n v).walks = s.walks := rfl
@[simp] theorem State.setFscope_cfgCache (s : State) (n : Nat) (v : FScope) : (s.setFscope n v).cfgCache = s.cfgCache := rfl
@[simp] theorem State.setFscope_pt (s : State) (n : Nat) (v : FScope) : (s.setFscope n v).pt = s.pt := rfl
@[simp] theorem State.setFscope_blockTs (s : State) (n : Nat) (v : FScope) : (s.setFscope n v).blockTs = s.blockTs := rfl
@[simp] theorem State.setFscope_copies (s : State) (n : Nat) (v : FScope) : (s.setFscope n v).copies = s.copies := rfl
@[simp] theorem State.setFscope_holds (s : State) (n : Nat) (v : FScope) : (s.setFscope n v).holds = s.holds := rfl
@[simp] theorem State.setFscope_poison (s : State) (n : Nat) (v : FScope) : (s.setFscope n v).poison = s.poison := rfl
@[simp] theorem State.setFscope_dirty (s : State) (n : Nat) (v : FScope) : (s.setFscope n v).dirty = s.dirty := rfl
@[simp] theorem State.setFscope_regions (s : State) (n : Nat) (v : FScope) : (s.setFscope n v).regions = s.regions := rfl
@[simp] theorem State.setFscope_bins (s : State) (n : Nat) (v : FScope) : (s.setFscope n v).bins = s.bins := rfl
@[simp] theorem State.setFscope_segs (s : State) (n : Nat) (v : FScope) : (s.setFscope n v).segs = s.segs := rfl
@[simp] theorem State.setFscope_epoch (s : State) (n : Nat) (v : FScope) : (s.setFscope n v).epoch = s.epoch := rfl
@[simp] theorem State.setFscope_yardStall (s : State) (n : Nat) (v : FScope) : (s.setFscope n v).yardStall = s.yardStall := rfl
@[simp] theorem State.setFscope_rote (s : State) (n : Nat) (v : FScope) : (s.setFscope n v).rote = s.rote := rfl
@[simp] theorem State.setFscope_ops (s : State) (n : Nat) (v : FScope) : (s.setFscope n v).ops = s.ops := rfl
@[simp] theorem State.setFscope_nextOp (s : State) (n : Nat) (v : FScope) : (s.setFscope n v).nextOp = s.nextOp := rfl
@[simp] theorem State.setFscope_appends (s : State) (n : Nat) (v : FScope) : (s.setFscope n v).appends = s.appends := rfl
@[simp] theorem State.setFscope_qtab (s : State) (n : Nat) (v : FScope) : (s.setFscope n v).qtab = s.qtab := rfl
@[simp] theorem State.setFscope_conts (s : State) (n : Nat) (v : FScope) : (s.setFscope n v).conts = s.conts := rfl
@[simp] theorem State.setFscope_fscopes (s : State) (n : Nat) (v : FScope) : (s.setFscope n v).fscopes = Table.set FScope.reset s.fscopes n v := rfl
@[simp] theorem State.setFscope_ctrAdds (s : State) (n : Nat) (v : FScope) : (s.setFscope n v).ctrAdds = s.ctrAdds := rfl
@[simp] theorem State.setFscope_dues (s : State) (n : Nat) (v : FScope) : (s.setFscope n v).dues = s.dues := rfl
@[simp] theorem State.setFscope_passView (s : State) (n : Nat) (v : FScope) : (s.setFscope n v).passView = s.passView := rfl
@[simp] theorem State.setFscope_barriers (s : State) (n : Nat) (v : FScope) : (s.setFscope n v).barriers = s.barriers := rfl
@[simp] theorem State.setFscope_supq (s : State) (n : Nat) (v : FScope) : (s.setFscope n v).supq = s.supq := rfl
@[simp] theorem State.setFscope_qtbase (s : State) (n : Nat) (v : FScope) : (s.setFscope n v).qtbase = s.qtbase := rfl
@[simp] theorem State.setFscope_ptroot (s : State) (n : Nat) (v : FScope) : (s.setFscope n v).ptroot = s.ptroot := rfl
@[simp] theorem State.setFscope_pagerq (s : State) (n : Nat) (v : FScope) : (s.setFscope n v).pagerq = s.pagerq := rfl
@[simp] theorem State.setFscope_mcq (s : State) (n : Nat) (v : FScope) : (s.setFscope n v).mcq = s.mcq := rfl
@[simp] theorem State.setFscope_imgbase (s : State) (n : Nat) (v : FScope) : (s.setFscope n v).imgbase = s.imgbase := rfl
@[simp] theorem State.setFscope_imgsize (s : State) (n : Nat) (v : FScope) : (s.setFscope n v).imgsize = s.imgsize := rfl
@[simp] theorem State.setFscope_cfgsel (s : State) (n : Nat) (v : FScope) : (s.setFscope n v).cfgsel = s.cfgsel := rfl
@[simp] theorem State.setFscope_cfg (s : State) (n : Nat) (v : FScope) : (s.setFscope n v).cfg = s.cfg := rfl
@[simp] theorem State.setFscope_cycles (s : State) (n : Nat) (v : FScope) : (s.setFscope n v).cycles = s.cycles := rfl
@[simp] theorem State.setFscope_timeOff (s : State) (n : Nat) (v : FScope) : (s.setFscope n v).timeOff = s.timeOff := rfl
@[simp] theorem State.setFscope_ptTicks (s : State) (n : Nat) (v : FScope) : (s.setFscope n v).ptTicks = s.ptTicks := rfl
@[simp] theorem State.setFscope_svcDies (s : State) (n : Nat) (v : FScope) : (s.setFscope n v).svcDies = s.svcDies := rfl
@[simp] theorem State.setFscope_svcLevel (s : State) (n : Nat) (v : FScope) : (s.setFscope n v).svcLevel = s.svcLevel := rfl
@[simp] theorem State.setFscope_bring (s : State) (n : Nat) (v : FScope) : (s.setFscope n v).bring = s.bring := rfl
@[simp] theorem State.setFscope_inService (s : State) (n : Nat) (v : FScope) : (s.setFscope n v).inService = s.inService := rfl
@[simp] theorem State.setFscope_retired (s : State) (n : Nat) (v : FScope) : (s.setFscope n v).retired = s.retired := rfl
@[simp] theorem State.setFscope_retiredParts (s : State) (n : Nat) (v : FScope) : (s.setFscope n v).retiredParts = s.retiredParts := rfl
@[simp] theorem State.setFscope_testing (s : State) (n : Nat) (v : FScope) : (s.setFscope n v).testing = s.testing := rfl
@[simp] theorem State.setFscope_noMatrix (s : State) (n : Nat) (v : FScope) : (s.setFscope n v).noMatrix = s.noMatrix := rfl
@[simp] theorem State.setFscope_mailbox (s : State) (n : Nat) (v : FScope) : (s.setFscope n v).mailbox = s.mailbox := rfl
@[simp] theorem State.setFscope_fw (s : State) (n : Nat) (v : FScope) : (s.setFscope n v).fw = s.fw := rfl
@[simp] theorem State.setFscope_evlog (s : State) (n : Nat) (v : FScope) : (s.setFscope n v).evlog = s.evlog := rfl
@[simp] theorem State.setFscope_chans (s : State) (n : Nat) (v : FScope) : (s.setFscope n v).chans = s.chans := rfl
@[simp] theorem State.setFscope_outReqs (s : State) (n : Nat) (v : FScope) : (s.setFscope n v).outReqs = s.outReqs := rfl
@[simp] theorem State.setFscope_served (s : State) (n : Nat) (v : FScope) : (s.setFscope n v).served = s.served := rfl
@[simp] theorem State.setFscope_hostIn (s : State) (n : Nat) (v : FScope) : (s.setFscope n v).hostIn = s.hostIn := rfl
@[simp] theorem State.setFscope_hostOut (s : State) (n : Nat) (v : FScope) : (s.setFscope n v).hostOut = s.hostOut := rfl
@[simp] theorem State.setFscope_imgs (s : State) (n : Nat) (v : FScope) : (s.setFscope n v).imgs = s.imgs := rfl
@[simp] theorem State.setFscope_slices (s : State) (n : Nat) (v : FScope) : (s.setFscope n v).slices = s.slices := rfl
@[simp] theorem State.setFscope_agenda (s : State) (n : Nat) (v : FScope) : (s.setFscope n v).agenda = s.agenda := rfl
@[simp] theorem State.setFscope_cur (s : State) (n : Nat) (v : FScope) : (s.setFscope n v).cur = s.cur := rfl
@[simp] theorem State.setFscope_freeSeq (s : State) (n : Nat) (v : FScope) : (s.setFscope n v).freeSeq = s.freeSeq := rfl

/-! `State.setQueue` -/

@[simp] theorem State.setQueue_mem (s : State) (q : Nat) (e : QEnt) : (s.setQueue q e).mem = s.mem := rfl
@[simp] theorem State.setQueue_loc (s : State) (q : Nat) (e : QEnt) : (s.setQueue q e).loc = s.loc := rfl
@[simp] theorem State.setQueue_full (s : State) (q : Nat) (e : QEnt) : (s.setQueue q e).full = s.full := rfl
@[simp] theorem State.setQueue_banks (s : State) (q : Nat) (e : QEnt) : (s.setQueue q e).banks = s.banks := rfl
@[simp] theorem State.setQueue_tiles (s : State) (q : Nat) (e : QEnt) : (s.setQueue q e).tiles = s.tiles := rfl
@[simp] theorem State.setQueue_tileSince (s : State) (q : Nat) (e : QEnt) : (s.setQueue q e).tileSince = s.tileSince := rfl
@[simp] theorem State.setQueue_mx (s : State) (q : Nat) (e : QEnt) : (s.setQueue q e).mx = s.mx := rfl
@[simp] theorem State.setQueue_tlb (s : State) (q : Nat) (e : QEnt) : (s.setQueue q e).tlb = s.tlb := rfl
@[simp] theorem State.setQueue_tcache (s : State) (q : Nat) (e : QEnt) : (s.setQueue q e).tcache = s.tcache := rfl
@[simp] theorem State.setQueue_walks (s : State) (q : Nat) (e : QEnt) : (s.setQueue q e).walks = s.walks := rfl
@[simp] theorem State.setQueue_cfgCache (s : State) (q : Nat) (e : QEnt) : (s.setQueue q e).cfgCache = s.cfgCache := rfl
@[simp] theorem State.setQueue_pt (s : State) (q : Nat) (e : QEnt) : (s.setQueue q e).pt = s.pt := rfl
@[simp] theorem State.setQueue_blockTs (s : State) (q : Nat) (e : QEnt) : (s.setQueue q e).blockTs = s.blockTs := rfl
@[simp] theorem State.setQueue_copies (s : State) (q : Nat) (e : QEnt) : (s.setQueue q e).copies = s.copies := rfl
@[simp] theorem State.setQueue_holds (s : State) (q : Nat) (e : QEnt) : (s.setQueue q e).holds = s.holds := rfl
@[simp] theorem State.setQueue_poison (s : State) (q : Nat) (e : QEnt) : (s.setQueue q e).poison = s.poison := rfl
@[simp] theorem State.setQueue_dirty (s : State) (q : Nat) (e : QEnt) : (s.setQueue q e).dirty = s.dirty := rfl
@[simp] theorem State.setQueue_regions (s : State) (q : Nat) (e : QEnt) : (s.setQueue q e).regions = s.regions := rfl
@[simp] theorem State.setQueue_bins (s : State) (q : Nat) (e : QEnt) : (s.setQueue q e).bins = s.bins := rfl
@[simp] theorem State.setQueue_segs (s : State) (q : Nat) (e : QEnt) : (s.setQueue q e).segs = s.segs := rfl
@[simp] theorem State.setQueue_epoch (s : State) (q : Nat) (e : QEnt) : (s.setQueue q e).epoch = s.epoch := rfl
@[simp] theorem State.setQueue_yardStall (s : State) (q : Nat) (e : QEnt) : (s.setQueue q e).yardStall = s.yardStall := rfl
@[simp] theorem State.setQueue_rote (s : State) (q : Nat) (e : QEnt) : (s.setQueue q e).rote = s.rote := rfl
@[simp] theorem State.setQueue_ops (s : State) (q : Nat) (e : QEnt) : (s.setQueue q e).ops = s.ops := rfl
@[simp] theorem State.setQueue_nextOp (s : State) (q : Nat) (e : QEnt) : (s.setQueue q e).nextOp = s.nextOp := rfl
@[simp] theorem State.setQueue_appends (s : State) (q : Nat) (e : QEnt) : (s.setQueue q e).appends = s.appends := rfl
@[simp] theorem State.setQueue_qtab (s : State) (q : Nat) (e : QEnt) : (s.setQueue q e).qtab = Table.set QEnt.reset s.qtab q e := rfl
@[simp] theorem State.setQueue_conts (s : State) (q : Nat) (e : QEnt) : (s.setQueue q e).conts = s.conts := rfl
@[simp] theorem State.setQueue_fscopes (s : State) (q : Nat) (e : QEnt) : (s.setQueue q e).fscopes = s.fscopes := rfl
@[simp] theorem State.setQueue_ctrAdds (s : State) (q : Nat) (e : QEnt) : (s.setQueue q e).ctrAdds = s.ctrAdds := rfl
@[simp] theorem State.setQueue_dues (s : State) (q : Nat) (e : QEnt) : (s.setQueue q e).dues = s.dues := rfl
@[simp] theorem State.setQueue_passView (s : State) (q : Nat) (e : QEnt) : (s.setQueue q e).passView = s.passView := rfl
@[simp] theorem State.setQueue_barriers (s : State) (q : Nat) (e : QEnt) : (s.setQueue q e).barriers = s.barriers := rfl
@[simp] theorem State.setQueue_supq (s : State) (q : Nat) (e : QEnt) : (s.setQueue q e).supq = s.supq := rfl
@[simp] theorem State.setQueue_qtbase (s : State) (q : Nat) (e : QEnt) : (s.setQueue q e).qtbase = s.qtbase := rfl
@[simp] theorem State.setQueue_ptroot (s : State) (q : Nat) (e : QEnt) : (s.setQueue q e).ptroot = s.ptroot := rfl
@[simp] theorem State.setQueue_pagerq (s : State) (q : Nat) (e : QEnt) : (s.setQueue q e).pagerq = s.pagerq := rfl
@[simp] theorem State.setQueue_mcq (s : State) (q : Nat) (e : QEnt) : (s.setQueue q e).mcq = s.mcq := rfl
@[simp] theorem State.setQueue_imgbase (s : State) (q : Nat) (e : QEnt) : (s.setQueue q e).imgbase = s.imgbase := rfl
@[simp] theorem State.setQueue_imgsize (s : State) (q : Nat) (e : QEnt) : (s.setQueue q e).imgsize = s.imgsize := rfl
@[simp] theorem State.setQueue_cfgsel (s : State) (q : Nat) (e : QEnt) : (s.setQueue q e).cfgsel = s.cfgsel := rfl
@[simp] theorem State.setQueue_cfg (s : State) (q : Nat) (e : QEnt) : (s.setQueue q e).cfg = s.cfg := rfl
@[simp] theorem State.setQueue_cycles (s : State) (q : Nat) (e : QEnt) : (s.setQueue q e).cycles = s.cycles := rfl
@[simp] theorem State.setQueue_timeOff (s : State) (q : Nat) (e : QEnt) : (s.setQueue q e).timeOff = s.timeOff := rfl
@[simp] theorem State.setQueue_ptTicks (s : State) (q : Nat) (e : QEnt) : (s.setQueue q e).ptTicks = s.ptTicks := rfl
@[simp] theorem State.setQueue_svcDies (s : State) (q : Nat) (e : QEnt) : (s.setQueue q e).svcDies = s.svcDies := rfl
@[simp] theorem State.setQueue_svcLevel (s : State) (q : Nat) (e : QEnt) : (s.setQueue q e).svcLevel = s.svcLevel := rfl
@[simp] theorem State.setQueue_bring (s : State) (q : Nat) (e : QEnt) : (s.setQueue q e).bring = s.bring := rfl
@[simp] theorem State.setQueue_inService (s : State) (q : Nat) (e : QEnt) : (s.setQueue q e).inService = s.inService := rfl
@[simp] theorem State.setQueue_retired (s : State) (q : Nat) (e : QEnt) : (s.setQueue q e).retired = s.retired := rfl
@[simp] theorem State.setQueue_retiredParts (s : State) (q : Nat) (e : QEnt) : (s.setQueue q e).retiredParts = s.retiredParts := rfl
@[simp] theorem State.setQueue_testing (s : State) (q : Nat) (e : QEnt) : (s.setQueue q e).testing = s.testing := rfl
@[simp] theorem State.setQueue_noMatrix (s : State) (q : Nat) (e : QEnt) : (s.setQueue q e).noMatrix = s.noMatrix := rfl
@[simp] theorem State.setQueue_mailbox (s : State) (q : Nat) (e : QEnt) : (s.setQueue q e).mailbox = s.mailbox := rfl
@[simp] theorem State.setQueue_fw (s : State) (q : Nat) (e : QEnt) : (s.setQueue q e).fw = s.fw := rfl
@[simp] theorem State.setQueue_evlog (s : State) (q : Nat) (e : QEnt) : (s.setQueue q e).evlog = s.evlog := rfl
@[simp] theorem State.setQueue_chans (s : State) (q : Nat) (e : QEnt) : (s.setQueue q e).chans = s.chans := rfl
@[simp] theorem State.setQueue_outReqs (s : State) (q : Nat) (e : QEnt) : (s.setQueue q e).outReqs = s.outReqs := rfl
@[simp] theorem State.setQueue_served (s : State) (q : Nat) (e : QEnt) : (s.setQueue q e).served = s.served := rfl
@[simp] theorem State.setQueue_hostIn (s : State) (q : Nat) (e : QEnt) : (s.setQueue q e).hostIn = s.hostIn := rfl
@[simp] theorem State.setQueue_hostOut (s : State) (q : Nat) (e : QEnt) : (s.setQueue q e).hostOut = s.hostOut := rfl
@[simp] theorem State.setQueue_imgs (s : State) (q : Nat) (e : QEnt) : (s.setQueue q e).imgs = s.imgs := rfl
@[simp] theorem State.setQueue_slices (s : State) (q : Nat) (e : QEnt) : (s.setQueue q e).slices = s.slices := rfl
@[simp] theorem State.setQueue_agenda (s : State) (q : Nat) (e : QEnt) : (s.setQueue q e).agenda = s.agenda := rfl
@[simp] theorem State.setQueue_cur (s : State) (q : Nat) (e : QEnt) : (s.setQueue q e).cur = s.cur := rfl
@[simp] theorem State.setQueue_freeSeq (s : State) (q : Nat) (e : QEnt) : (s.setQueue q e).freeSeq = s.freeSeq := rfl

/-! `State.setRegion` -/

@[simp] theorem State.setRegion_mem (s : State) (n : Nat) (r : Region) : (s.setRegion n r).mem = s.mem := rfl
@[simp] theorem State.setRegion_loc (s : State) (n : Nat) (r : Region) : (s.setRegion n r).loc = s.loc := rfl
@[simp] theorem State.setRegion_full (s : State) (n : Nat) (r : Region) : (s.setRegion n r).full = s.full := rfl
@[simp] theorem State.setRegion_banks (s : State) (n : Nat) (r : Region) : (s.setRegion n r).banks = s.banks := rfl
@[simp] theorem State.setRegion_tiles (s : State) (n : Nat) (r : Region) : (s.setRegion n r).tiles = s.tiles := rfl
@[simp] theorem State.setRegion_tileSince (s : State) (n : Nat) (r : Region) : (s.setRegion n r).tileSince = s.tileSince := rfl
@[simp] theorem State.setRegion_mx (s : State) (n : Nat) (r : Region) : (s.setRegion n r).mx = s.mx := rfl
@[simp] theorem State.setRegion_tlb (s : State) (n : Nat) (r : Region) : (s.setRegion n r).tlb = s.tlb := rfl
@[simp] theorem State.setRegion_tcache (s : State) (n : Nat) (r : Region) : (s.setRegion n r).tcache = s.tcache := rfl
@[simp] theorem State.setRegion_walks (s : State) (n : Nat) (r : Region) : (s.setRegion n r).walks = s.walks := rfl
@[simp] theorem State.setRegion_cfgCache (s : State) (n : Nat) (r : Region) : (s.setRegion n r).cfgCache = s.cfgCache := rfl
@[simp] theorem State.setRegion_pt (s : State) (n : Nat) (r : Region) : (s.setRegion n r).pt = s.pt := rfl
@[simp] theorem State.setRegion_blockTs (s : State) (n : Nat) (r : Region) : (s.setRegion n r).blockTs = s.blockTs := rfl
@[simp] theorem State.setRegion_copies (s : State) (n : Nat) (r : Region) : (s.setRegion n r).copies = s.copies := rfl
@[simp] theorem State.setRegion_holds (s : State) (n : Nat) (r : Region) : (s.setRegion n r).holds = s.holds := rfl
@[simp] theorem State.setRegion_poison (s : State) (n : Nat) (r : Region) : (s.setRegion n r).poison = s.poison := rfl
@[simp] theorem State.setRegion_dirty (s : State) (n : Nat) (r : Region) : (s.setRegion n r).dirty = s.dirty := rfl
@[simp] theorem State.setRegion_regions (s : State) (n : Nat) (r : Region) : (s.setRegion n r).regions = Table.set Region.reset s.regions n r := rfl
@[simp] theorem State.setRegion_bins (s : State) (n : Nat) (r : Region) : (s.setRegion n r).bins = s.bins := rfl
@[simp] theorem State.setRegion_segs (s : State) (n : Nat) (r : Region) : (s.setRegion n r).segs = s.segs := rfl
@[simp] theorem State.setRegion_epoch (s : State) (n : Nat) (r : Region) : (s.setRegion n r).epoch = s.epoch := rfl
@[simp] theorem State.setRegion_yardStall (s : State) (n : Nat) (r : Region) : (s.setRegion n r).yardStall = s.yardStall := rfl
@[simp] theorem State.setRegion_rote (s : State) (n : Nat) (r : Region) : (s.setRegion n r).rote = s.rote := rfl
@[simp] theorem State.setRegion_ops (s : State) (n : Nat) (r : Region) : (s.setRegion n r).ops = s.ops := rfl
@[simp] theorem State.setRegion_nextOp (s : State) (n : Nat) (r : Region) : (s.setRegion n r).nextOp = s.nextOp := rfl
@[simp] theorem State.setRegion_appends (s : State) (n : Nat) (r : Region) : (s.setRegion n r).appends = s.appends := rfl
@[simp] theorem State.setRegion_qtab (s : State) (n : Nat) (r : Region) : (s.setRegion n r).qtab = s.qtab := rfl
@[simp] theorem State.setRegion_conts (s : State) (n : Nat) (r : Region) : (s.setRegion n r).conts = s.conts := rfl
@[simp] theorem State.setRegion_fscopes (s : State) (n : Nat) (r : Region) : (s.setRegion n r).fscopes = s.fscopes := rfl
@[simp] theorem State.setRegion_ctrAdds (s : State) (n : Nat) (r : Region) : (s.setRegion n r).ctrAdds = s.ctrAdds := rfl
@[simp] theorem State.setRegion_dues (s : State) (n : Nat) (r : Region) : (s.setRegion n r).dues = s.dues := rfl
@[simp] theorem State.setRegion_passView (s : State) (n : Nat) (r : Region) : (s.setRegion n r).passView = s.passView := rfl
@[simp] theorem State.setRegion_barriers (s : State) (n : Nat) (r : Region) : (s.setRegion n r).barriers = s.barriers := rfl
@[simp] theorem State.setRegion_supq (s : State) (n : Nat) (r : Region) : (s.setRegion n r).supq = s.supq := rfl
@[simp] theorem State.setRegion_qtbase (s : State) (n : Nat) (r : Region) : (s.setRegion n r).qtbase = s.qtbase := rfl
@[simp] theorem State.setRegion_ptroot (s : State) (n : Nat) (r : Region) : (s.setRegion n r).ptroot = s.ptroot := rfl
@[simp] theorem State.setRegion_pagerq (s : State) (n : Nat) (r : Region) : (s.setRegion n r).pagerq = s.pagerq := rfl
@[simp] theorem State.setRegion_mcq (s : State) (n : Nat) (r : Region) : (s.setRegion n r).mcq = s.mcq := rfl
@[simp] theorem State.setRegion_imgbase (s : State) (n : Nat) (r : Region) : (s.setRegion n r).imgbase = s.imgbase := rfl
@[simp] theorem State.setRegion_imgsize (s : State) (n : Nat) (r : Region) : (s.setRegion n r).imgsize = s.imgsize := rfl
@[simp] theorem State.setRegion_cfgsel (s : State) (n : Nat) (r : Region) : (s.setRegion n r).cfgsel = s.cfgsel := rfl
@[simp] theorem State.setRegion_cfg (s : State) (n : Nat) (r : Region) : (s.setRegion n r).cfg = s.cfg := rfl
@[simp] theorem State.setRegion_cycles (s : State) (n : Nat) (r : Region) : (s.setRegion n r).cycles = s.cycles := rfl
@[simp] theorem State.setRegion_timeOff (s : State) (n : Nat) (r : Region) : (s.setRegion n r).timeOff = s.timeOff := rfl
@[simp] theorem State.setRegion_ptTicks (s : State) (n : Nat) (r : Region) : (s.setRegion n r).ptTicks = s.ptTicks := rfl
@[simp] theorem State.setRegion_svcDies (s : State) (n : Nat) (r : Region) : (s.setRegion n r).svcDies = s.svcDies := rfl
@[simp] theorem State.setRegion_svcLevel (s : State) (n : Nat) (r : Region) : (s.setRegion n r).svcLevel = s.svcLevel := rfl
@[simp] theorem State.setRegion_bring (s : State) (n : Nat) (r : Region) : (s.setRegion n r).bring = s.bring := rfl
@[simp] theorem State.setRegion_inService (s : State) (n : Nat) (r : Region) : (s.setRegion n r).inService = s.inService := rfl
@[simp] theorem State.setRegion_retired (s : State) (n : Nat) (r : Region) : (s.setRegion n r).retired = s.retired := rfl
@[simp] theorem State.setRegion_retiredParts (s : State) (n : Nat) (r : Region) : (s.setRegion n r).retiredParts = s.retiredParts := rfl
@[simp] theorem State.setRegion_testing (s : State) (n : Nat) (r : Region) : (s.setRegion n r).testing = s.testing := rfl
@[simp] theorem State.setRegion_noMatrix (s : State) (n : Nat) (r : Region) : (s.setRegion n r).noMatrix = s.noMatrix := rfl
@[simp] theorem State.setRegion_mailbox (s : State) (n : Nat) (r : Region) : (s.setRegion n r).mailbox = s.mailbox := rfl
@[simp] theorem State.setRegion_fw (s : State) (n : Nat) (r : Region) : (s.setRegion n r).fw = s.fw := rfl
@[simp] theorem State.setRegion_evlog (s : State) (n : Nat) (r : Region) : (s.setRegion n r).evlog = s.evlog := rfl
@[simp] theorem State.setRegion_chans (s : State) (n : Nat) (r : Region) : (s.setRegion n r).chans = s.chans := rfl
@[simp] theorem State.setRegion_outReqs (s : State) (n : Nat) (r : Region) : (s.setRegion n r).outReqs = s.outReqs := rfl
@[simp] theorem State.setRegion_served (s : State) (n : Nat) (r : Region) : (s.setRegion n r).served = s.served := rfl
@[simp] theorem State.setRegion_hostIn (s : State) (n : Nat) (r : Region) : (s.setRegion n r).hostIn = s.hostIn := rfl
@[simp] theorem State.setRegion_hostOut (s : State) (n : Nat) (r : Region) : (s.setRegion n r).hostOut = s.hostOut := rfl
@[simp] theorem State.setRegion_imgs (s : State) (n : Nat) (r : Region) : (s.setRegion n r).imgs = s.imgs := rfl
@[simp] theorem State.setRegion_slices (s : State) (n : Nat) (r : Region) : (s.setRegion n r).slices = s.slices := rfl
@[simp] theorem State.setRegion_agenda (s : State) (n : Nat) (r : Region) : (s.setRegion n r).agenda = s.agenda := rfl
@[simp] theorem State.setRegion_cur (s : State) (n : Nat) (r : Region) : (s.setRegion n r).cur = s.cur := rfl
@[simp] theorem State.setRegion_freeSeq (s : State) (n : Nat) (r : Region) : (s.setRegion n r).freeSeq = s.freeSeq := rfl

/-! `State.setTile` -/

@[simp] theorem State.setTile_mem (s : State) (k : Nat) (e : TileEnt) : (s.setTile k e).mem = s.mem := rfl
@[simp] theorem State.setTile_loc (s : State) (k : Nat) (e : TileEnt) : (s.setTile k e).loc = s.loc := rfl
@[simp] theorem State.setTile_full (s : State) (k : Nat) (e : TileEnt) : (s.setTile k e).full = s.full := rfl
@[simp] theorem State.setTile_banks (s : State) (k : Nat) (e : TileEnt) : (s.setTile k e).banks = s.banks := rfl
@[simp] theorem State.setTile_tiles (s : State) (k : Nat) (e : TileEnt) : (s.setTile k e).tiles = Table.set TileEnt.reset s.tiles k e := rfl
@[simp] theorem State.setTile_tileSince (s : State) (k : Nat) (e : TileEnt) : (s.setTile k e).tileSince = if s.tile k = e then s.tileSince else Table.set 0 s.tileSince k s.cycles := rfl
@[simp] theorem State.setTile_mx (s : State) (k : Nat) (e : TileEnt) : (s.setTile k e).mx = s.mx := rfl
@[simp] theorem State.setTile_tlb (s : State) (k : Nat) (e : TileEnt) : (s.setTile k e).tlb = s.tlb := rfl
@[simp] theorem State.setTile_tcache (s : State) (k : Nat) (e : TileEnt) : (s.setTile k e).tcache = s.tcache := rfl
@[simp] theorem State.setTile_walks (s : State) (k : Nat) (e : TileEnt) : (s.setTile k e).walks = s.walks := rfl
@[simp] theorem State.setTile_cfgCache (s : State) (k : Nat) (e : TileEnt) : (s.setTile k e).cfgCache = s.cfgCache := rfl
@[simp] theorem State.setTile_pt (s : State) (k : Nat) (e : TileEnt) : (s.setTile k e).pt = s.pt := rfl
@[simp] theorem State.setTile_blockTs (s : State) (k : Nat) (e : TileEnt) : (s.setTile k e).blockTs = s.blockTs := rfl
@[simp] theorem State.setTile_copies (s : State) (k : Nat) (e : TileEnt) : (s.setTile k e).copies = s.copies := rfl
@[simp] theorem State.setTile_holds (s : State) (k : Nat) (e : TileEnt) : (s.setTile k e).holds = s.holds := rfl
@[simp] theorem State.setTile_poison (s : State) (k : Nat) (e : TileEnt) : (s.setTile k e).poison = s.poison := rfl
@[simp] theorem State.setTile_dirty (s : State) (k : Nat) (e : TileEnt) : (s.setTile k e).dirty = s.dirty := rfl
@[simp] theorem State.setTile_regions (s : State) (k : Nat) (e : TileEnt) : (s.setTile k e).regions = s.regions := rfl
@[simp] theorem State.setTile_bins (s : State) (k : Nat) (e : TileEnt) : (s.setTile k e).bins = s.bins := rfl
@[simp] theorem State.setTile_segs (s : State) (k : Nat) (e : TileEnt) : (s.setTile k e).segs = s.segs := rfl
@[simp] theorem State.setTile_epoch (s : State) (k : Nat) (e : TileEnt) : (s.setTile k e).epoch = s.epoch := rfl
@[simp] theorem State.setTile_yardStall (s : State) (k : Nat) (e : TileEnt) : (s.setTile k e).yardStall = s.yardStall := rfl
@[simp] theorem State.setTile_rote (s : State) (k : Nat) (e : TileEnt) : (s.setTile k e).rote = s.rote := rfl
@[simp] theorem State.setTile_ops (s : State) (k : Nat) (e : TileEnt) : (s.setTile k e).ops = s.ops := rfl
@[simp] theorem State.setTile_nextOp (s : State) (k : Nat) (e : TileEnt) : (s.setTile k e).nextOp = s.nextOp := rfl
@[simp] theorem State.setTile_appends (s : State) (k : Nat) (e : TileEnt) : (s.setTile k e).appends = s.appends := rfl
@[simp] theorem State.setTile_qtab (s : State) (k : Nat) (e : TileEnt) : (s.setTile k e).qtab = s.qtab := rfl
@[simp] theorem State.setTile_conts (s : State) (k : Nat) (e : TileEnt) : (s.setTile k e).conts = s.conts := rfl
@[simp] theorem State.setTile_fscopes (s : State) (k : Nat) (e : TileEnt) : (s.setTile k e).fscopes = s.fscopes := rfl
@[simp] theorem State.setTile_ctrAdds (s : State) (k : Nat) (e : TileEnt) : (s.setTile k e).ctrAdds = s.ctrAdds := rfl
@[simp] theorem State.setTile_dues (s : State) (k : Nat) (e : TileEnt) : (s.setTile k e).dues = s.dues := rfl
@[simp] theorem State.setTile_passView (s : State) (k : Nat) (e : TileEnt) : (s.setTile k e).passView = s.passView := rfl
@[simp] theorem State.setTile_barriers (s : State) (k : Nat) (e : TileEnt) : (s.setTile k e).barriers = s.barriers := rfl
@[simp] theorem State.setTile_supq (s : State) (k : Nat) (e : TileEnt) : (s.setTile k e).supq = s.supq := rfl
@[simp] theorem State.setTile_qtbase (s : State) (k : Nat) (e : TileEnt) : (s.setTile k e).qtbase = s.qtbase := rfl
@[simp] theorem State.setTile_ptroot (s : State) (k : Nat) (e : TileEnt) : (s.setTile k e).ptroot = s.ptroot := rfl
@[simp] theorem State.setTile_pagerq (s : State) (k : Nat) (e : TileEnt) : (s.setTile k e).pagerq = s.pagerq := rfl
@[simp] theorem State.setTile_mcq (s : State) (k : Nat) (e : TileEnt) : (s.setTile k e).mcq = s.mcq := rfl
@[simp] theorem State.setTile_imgbase (s : State) (k : Nat) (e : TileEnt) : (s.setTile k e).imgbase = s.imgbase := rfl
@[simp] theorem State.setTile_imgsize (s : State) (k : Nat) (e : TileEnt) : (s.setTile k e).imgsize = s.imgsize := rfl
@[simp] theorem State.setTile_cfgsel (s : State) (k : Nat) (e : TileEnt) : (s.setTile k e).cfgsel = s.cfgsel := rfl
@[simp] theorem State.setTile_cfg (s : State) (k : Nat) (e : TileEnt) : (s.setTile k e).cfg = s.cfg := rfl
@[simp] theorem State.setTile_cycles (s : State) (k : Nat) (e : TileEnt) : (s.setTile k e).cycles = s.cycles := rfl
@[simp] theorem State.setTile_timeOff (s : State) (k : Nat) (e : TileEnt) : (s.setTile k e).timeOff = s.timeOff := rfl
@[simp] theorem State.setTile_ptTicks (s : State) (k : Nat) (e : TileEnt) : (s.setTile k e).ptTicks = s.ptTicks := rfl
@[simp] theorem State.setTile_svcDies (s : State) (k : Nat) (e : TileEnt) : (s.setTile k e).svcDies = s.svcDies := rfl
@[simp] theorem State.setTile_svcLevel (s : State) (k : Nat) (e : TileEnt) : (s.setTile k e).svcLevel = s.svcLevel := rfl
@[simp] theorem State.setTile_bring (s : State) (k : Nat) (e : TileEnt) : (s.setTile k e).bring = s.bring := rfl
@[simp] theorem State.setTile_inService (s : State) (k : Nat) (e : TileEnt) : (s.setTile k e).inService = s.inService := rfl
@[simp] theorem State.setTile_retired (s : State) (k : Nat) (e : TileEnt) : (s.setTile k e).retired = s.retired := rfl
@[simp] theorem State.setTile_retiredParts (s : State) (k : Nat) (e : TileEnt) : (s.setTile k e).retiredParts = s.retiredParts := rfl
@[simp] theorem State.setTile_testing (s : State) (k : Nat) (e : TileEnt) : (s.setTile k e).testing = s.testing := rfl
@[simp] theorem State.setTile_noMatrix (s : State) (k : Nat) (e : TileEnt) : (s.setTile k e).noMatrix = s.noMatrix := rfl
@[simp] theorem State.setTile_mailbox (s : State) (k : Nat) (e : TileEnt) : (s.setTile k e).mailbox = s.mailbox := rfl
@[simp] theorem State.setTile_fw (s : State) (k : Nat) (e : TileEnt) : (s.setTile k e).fw = s.fw := rfl
@[simp] theorem State.setTile_evlog (s : State) (k : Nat) (e : TileEnt) : (s.setTile k e).evlog = s.evlog := rfl
@[simp] theorem State.setTile_chans (s : State) (k : Nat) (e : TileEnt) : (s.setTile k e).chans = s.chans := rfl
@[simp] theorem State.setTile_outReqs (s : State) (k : Nat) (e : TileEnt) : (s.setTile k e).outReqs = s.outReqs := rfl
@[simp] theorem State.setTile_served (s : State) (k : Nat) (e : TileEnt) : (s.setTile k e).served = s.served := rfl
@[simp] theorem State.setTile_hostIn (s : State) (k : Nat) (e : TileEnt) : (s.setTile k e).hostIn = s.hostIn := rfl
@[simp] theorem State.setTile_hostOut (s : State) (k : Nat) (e : TileEnt) : (s.setTile k e).hostOut = s.hostOut := rfl
@[simp] theorem State.setTile_imgs (s : State) (k : Nat) (e : TileEnt) : (s.setTile k e).imgs = s.imgs := rfl
@[simp] theorem State.setTile_slices (s : State) (k : Nat) (e : TileEnt) : (s.setTile k e).slices = s.slices := rfl
@[simp] theorem State.setTile_agenda (s : State) (k : Nat) (e : TileEnt) : (s.setTile k e).agenda = s.agenda := rfl
@[simp] theorem State.setTile_cur (s : State) (k : Nat) (e : TileEnt) : (s.setTile k e).cur = s.cur := rfl
@[simp] theorem State.setTile_freeSeq (s : State) (k : Nat) (e : TileEnt) : (s.setTile k e).freeSeq = s.freeSeq := rfl

end Sys2Proof.Machine
end

