-- ==== Sys2Proof/Laws/Units.lean ====
section
/-! SUPPORT. What the shared operations of units and grants do: a write that a unit owes (R189, R409), and an action that needs a
grant (R200). -/

namespace Sys2Proof.Machine

/-! Writes of units -/

/-- A unit's write is made at once where nothing is owed and no other agent holds its bytes. -/
theorem owe_now {s : State} {w : Owed} (hd : s.dues = []) (hb : s.owedBarred w = false) : s.owe w = s.pay w := by
  simp [State.owe, hd, hb]

/-- Otherwise it is owed, after what is owed already, and nothing else changes. -/
theorem owe_later {s : State} {w : Owed} (h : s.dues ≠ [] ∨ s.owedBarred w = true) :
    s.owe w = { s with dues := s.dues ++ [w] } := by
  unfold State.owe
  rcases h with h | h <;> simp [h]

/-- Owed writes are made in order, up to the first whose bytes are held. -/
theorem payAll_made {s : State} {w : Owed} (l : List Owed) (h : s.owedBarred w = false) :
    State.payAll (w :: l) s = State.payAll l (s.pay w) := by
  simp [State.payAll, h]

/-- From a write whose bytes are held on, all stay owed. -/
theorem payAll_held {s : State} {w : Owed} (l : List Owed) (h : s.owedBarred w = true) :
    State.payAll (w :: l) s = { s with dues := w :: l } := by
  simp [State.payAll, h]

/-- What stays owed is an end of what was owed. -/
theorem payAll_dues (l : List Owed) (s : State) : ∃ done rest, l = done ++ rest ∧ (State.payAll l s).dues = rest := by
  induction l generalizing s with
  | nil => exact ⟨[], [], rfl, rfl⟩
  | cons w l ih =>
    cases h : s.owedBarred w with
    | true => exact ⟨[], w :: l, rfl, by rw [payAll_held l h]⟩
    | false =>
      obtain ⟨done, rest, rfl, hr⟩ := ih (s.pay w)
      exact ⟨w :: done, rest, rfl, by rw [payAll_made _ h, hr]⟩

/-! Grants -/

/-- An action that needs no grant happens. -/
theorem happen_free {s : State} {w : What} (h : s.ask w = none) : s.happen w = s.run w := by
  simp [State.happen, h]

/-- An action gives way where its strand was granted the resource and another, granted less recently, has a request. -/
theorem happen_waits {s : State} {w : What} {k : Nat} {st : SRef} (ha : s.ask w = some (k, st))
    (hs : s.served.contains (k, st) = true) (hr : s.rivals k st = true) : s.happen w = .next s := by
  simp only [State.happen, ha, hs, hr, Bool.and_self, if_true]

/-- Otherwise it happens, and its strand stands last among those granted the resource if it was granted something. -/
theorem happen_granted {s t : State} {w : What} {k : Nat} {st : SRef} (ha : s.ask w = some (k, st))
    (hr : (s.served.contains (k, st) && s.rivals k st) = false) (ht : s.run w = .next t) :
    s.happen w = .next (if s.granted t st then t.serve k st else t) := by
  simp only [State.happen, ha, hr, ht, Bool.false_eq_true, if_false]

/-- A strand never gives way to itself. -/
theorem lessRecent_self (s : State) (k : Nat) (st : SRef) : s.lessRecent k st st = false := by
  simp [State.lessRecent]

/-- A grant stands last in the order of grants. -/
theorem served_serve (s : State) (k : Nat) (st : SRef) : (s.serve k st).served.getLast? = some (k, st) := by
  simp [State.serve]

end Sys2Proof.Machine
end

