-- ==== Sys2Proof/Tests/Slice0.lean ====
section
/-! SUPPORT. The model's own tests: ill-formed words, one decoded word of each instruction, results of single steps, and a
witness for each statement's hypotheses. -/

open Sys2Proof Sys2Proof.Machine

set_option Elab.async false

/-! Small states -/

namespace Sys2Proof.Tests

/-- The strand that the tests use. -/
def home : SRef := ⟨1, 0⟩

/-- A station of a word whose slots hold one-element streams of the block tag. -/
def fedNode (w : Word) (l : List (Slot × Word)) : Node :=
  l.foldl (fun n p => n.setBuf p.1 [.tok ⟨p.2, 0, 0, true, false⟩ 0]) (nodeOf w (l.map fun p => p.1))

/-- Station 1 of slice 1's strand acts, and stands as given. -/
def here (nd : Node) : State :=
  ({ State.reset.withFetchWord 64 nd.word.toNat with agenda := [], cur := some ⟨home, 1⟩ } : State).modNode home 1 fun _ => nd

/-- Station 1 acts on one-element operands under the block tag. -/
def at' (w : Word) (l : List (Slot × Word)) : State := here (fedNode w l)

/-- The operands of a firing under the block tag with L. -/
def ready (a b c : Word) : Ready := ⟨0, 0, true, ⟨a, b, c⟩⟩

/-- Whether station 1 acts. -/
def actsHere (s : State) : Bool :=
  decide (s.cur = some ⟨home, 1⟩) && (s.slice? home.slice).any Slice.live && (s.inst? home).isSome

/-- A station that acts, by evaluation. -/
theorem acts_here {s : State} (h : actsHere s = true) : s.acts home 1 := by
  simp only [actsHere, Bool.and_eq_true, decide_eq_true_eq, Option.any_eq_true] at h
  obtain ⟨⟨hc, hx⟩, hi⟩ := h
  exact ⟨hc, hx, hi⟩

/-- A station that fires on its operands, by evaluation. -/
theorem goes_here {s : State} {h : Hdr} {data : List Slot} {repl imm : Word} {r : Ready}
    (hd : (actsHere s && decide (s.pick home 1 h data repl imm = some (.settle .go r))) = true) :
    s.goes home 1 h data repl imm r := by
  simp only [Bool.and_eq_true, decide_eq_true_eq] at hd
  exact ⟨acts_here hd.1, hd.2⟩

/-- A station that takes a set, by evaluation. -/
theorem takes_here {s : State} {h : Hdr} {data : List Slot} {sl : Slot} {t : Tok} {l : List (Slot × Tok)}
    (hd : (actsHere s && decide (s.firstSet home 1 h data = some ((sl, t) :: l))) = true) :
    s.takes home 1 h data sl t l := by
  simp only [Bool.and_eq_true, decide_eq_true_eq] at hd
  exact ⟨acts_here hd.1, hd.2⟩

/-- A header of element type `ty` with nothing else set. -/
def hd (ty : Ty) : Hdr := ⟨0, ty, .absorb, false, false, false, none, none⟩

/-- A token of a one-element stream under the block tag. -/
def one (w : Word) : Tok := ⟨w, 0, 0, true, false⟩

/-- Virtual page 0 of 64 KiB stands at physical address 0x10000, with every access. -/
def mapped (s : State) : State := { s with tlb := [⟨0, 0, 65536, 0x1000F⟩] }

/-- A page table at 0x1000 that maps virtual page 0 to 0x10000, and bytes from 0x10000 up. -/
def paged (s : State) (l : List Host.Cell) : State :=
  { s with
    ptroot := 0x1000
    mem := [(0x1000, 1), (0x1001, 0x20), (0x2000, 1), (0x2001, 0x30), (0x3000, 1), (0x3001, 0x40), (0x4000, 1), (0x4001, 0x50),
      (0x5000, 0x0F), (0x5002, 1)] ++ l }

/-- An operation of slice 1's strand with these words, that names no tile. -/
def op (inbox : Nat) (ws : List Word) (z : OpStage) : Op := 
  ⟨0, ws, 0, 1, 0, 0, false, inbox, z, [], [], [], [], none, [], [], [], 0, 0, none, 0, 0, 0, none⟩

/-- What a translation is, when it is one. -/
def okIs (g : Got) (f : Xlat → Bool) : Bool := match g with | .ok l => f l | _ => false

/-- A step that goes on, by evaluation. -/
theorem goes_on {r : Host.Outcome State Fault Refusal} (h : (match r with | .next _ => true | _ => false) = true) : goesOn r := by
  cases r <;> simp at h
  exact ⟨_, rfl⟩

end Sys2Proof.Tests

open Sys2Proof.Tests

/-! WellFormed refuses an ill-formed term of each check for that check alone, and accepts the same term without its fault -/

/-- R128: an empty policy without an operand. -/
theorem test_wf_policy :
    (Instr.const ⟨0, .q, .forward, false, false, false, none, none⟩ 0).rejects = [0x04] := by decide

/-- The TY column: `DOT` takes `.b4` only, `FADD` a float type, `ADD` an integer type. -/
theorem test_wf_type :
    (Instr.dot ⟨0, .q, .absorb, false, false, false, none, none⟩).rejects = [0x05] ∧
    (Instr.fadd ⟨0, .d2, .absorb, false, false, false, none, none⟩ 0).rejects = [0x05] ∧
    (Instr.add ⟨0, .f2, .absorb, false, false, false, none, none⟩ 0).rejects = [0x05] := by decide

/-- R55 to R57: IM where the instruction has no immediate form, a predicate on an instruction that takes none, PP without PV. -/
theorem test_wf_immediate_predicate :
    (Instr.not ⟨0, .q, .absorb, true, false, false, none, none⟩ 0).rejects = [0x06] ∧
    (Instr.land ⟨0, .q, .absorb, false, true, false, none, none⟩ 0).rejects = [0x06] ∧
    (Instr.add ⟨0, .q, .absorb, false, false, true, none, none⟩ 0).rejects = [0x06] := by decide

/-- R52, R377: a copy count on a control instruction and on a message instruction. -/
theorem test_wf_replication :
    (Instr.exit ⟨1, .q, .absorb, false, false, false, none, none⟩ 0).rejects = [0x06] ∧
    (Instr.copy ⟨1, .q, .absorb, false, false, false, none, none⟩ false ⟨false, 0, 0⟩).rejects = [0x06] := by decide

/-- R53: TB without TA, one target twice, a target of an instruction without output, targets 0 and 96. -/
theorem test_wf_targets :
    (Instr.add ⟨0, .q, .absorb, false, false, false, none, some ⟨5, .a⟩⟩ 0).rejects = [0x07] ∧
    (Instr.add ⟨0, .q, .absorb, false, false, false, some ⟨5, .a⟩, some ⟨5, .a⟩⟩ 0).rejects = [0x07] ∧
    (Instr.drop ⟨0, .q, .absorb, false, false, false, some ⟨5, .a⟩, none⟩).rejects = [0x07] ∧
    (Instr.add ⟨0, .q, .absorb, false, false, false, some ⟨0, .a⟩, none⟩ 0).rejects = [0x07] ∧
    (Instr.add ⟨0, .q, .absorb, false, false, false, some ⟨5, .a⟩, some ⟨96, .a⟩⟩ 0).rejects = [0x07] := by decide

/-- R59: VAL that nothing uses, and VAL wider than the lane. -/
theorem test_wf_value :
    (Instr.add ⟨0, .q, .absorb, false, false, false, none, none⟩ 1).rejects = [0x04] ∧
    (Instr.add ⟨0, .w4, .absorb, true, false, false, none, none⟩ 0x10000).rejects = [0x04] ∧
    (Instr.const ⟨0, .o8, .absorb, false, false, false, none, none⟩ 0x100).rejects = [0x04] := by decide

/-- R53, R62: TD without TC, a repeated target, TC without TB. -/
theorem test_wf_fork :
    (Instr.fork ⟨0, .q, .absorb, false, false, false, some ⟨5, .a⟩, some ⟨6, .b⟩⟩ none (some ⟨7, .a⟩)).rejects = [0x07] ∧
    (Instr.fork ⟨0, .q, .absorb, false, false, false, some ⟨5, .a⟩, some ⟨6, .b⟩⟩ (some ⟨6, .b⟩) none).rejects = [0x07] ∧
    (Instr.fork ⟨0, .q, .absorb, false, false, false, some ⟨5, .a⟩, none⟩ (some ⟨7, .a⟩) none).rejects = [0x07] := by decide

/-- R62, R202: U or BOP outside `BRED`, and an id past the scope's count. -/
theorem test_wf_barrier :
    (Instr.barr ⟨0, .q, .absorb, false, false, false, none, none⟩ ⟨.core, 0, .add, true⟩).rejects = [0x04] ∧
    (Instr.bsync ⟨0, .q, .absorb, false, false, false, none, none⟩ ⟨.core, 0, .max, false⟩).rejects = [0x04] ∧
    (Instr.bred ⟨0, .q, .absorb, false, false, false, none, none⟩ ⟨.core, 16, .add, false⟩).rejects = [0x12] ∧
    (Instr.bwait ⟨0, .q, .absorb, false, false, false, none, none⟩ ⟨.die, 32, .add, false⟩).rejects = [0x12] := by decide

/-- R64, R311: L and the class that each instruction takes. -/
theorem test_wf_memory :
    (Instr.ldf ⟨0, .q, .absorb, false, false, false, none, none⟩ ⟨0, .random, false, 0⟩).rejects = [0x06] ∧
    (Instr.upd ⟨0, .q, .absorb, false, false, false, none, none⟩ ⟨0, .random, true, 0⟩).rejects = [0x06] ∧
    (Instr.st ⟨0, .q, .absorb, false, false, false, none, none⟩ ⟨0, .streaming, false, 0⟩).rejects = [0x06] ∧
    (Instr.ldx ⟨0, .q, .absorb, false, false, false, none, none⟩ ⟨0, .ordered, false, 0⟩).rejects = [0x06] := by decide

/-- R61: `.f` takes five operations. -/
theorem test_wf_atomic :
    (Instr.atom ⟨0, .f, .absorb, false, false, false, none, none⟩ ⟨0, .and, 0⟩).rejects = [0x05] := by decide

/-- R311: KEEP outside `TLD`; a bank below 2. -/
theorem test_wf_tile :
    (Instr.tst ⟨0, .q, .absorb, false, false, false, none, none⟩ ⟨0, true, 0⟩).rejects = [0x04] ∧
    (Instr.bankmode ⟨0, .q, .absorb, false, false, false, none, none⟩ ⟨0, .scratch, 1⟩).rejects = [0x04] := by decide

/-- R62, R376, R377: a tile field that the instruction does not use, and DONE apart from V of TA. -/
theorem test_wf_engine :
    (Instr.copy ⟨0, .q, .absorb, false, false, false, none, none⟩ false ⟨false, 1, 0⟩).rejects = [0x04] ∧
    (Instr.copy2In ⟨0, .q, .absorb, false, false, false, none, none⟩ false ⟨false, 0, 1⟩).rejects = [0x04] ∧
    (Instr.mma ⟨0, .q, .absorb, false, false, false, none, none⟩ ⟨true, 0, 0⟩).rejects = [0x04] := by decide

/-- R62: a gate on `LOOPIN` without J, WIN on one with J, J and WIN on the others. -/
theorem test_wf_loop :
    (Instr.loopin ⟨0, .q, .absorb, false, false, false, none, none⟩ ⟨false, 9, 0⟩).rejects = [0x04] ∧
    (Instr.loopin ⟨0, .q, .absorb, false, false, false, none, none⟩ ⟨true, 9, 3⟩).rejects = [0x04] ∧
    (Instr.carry ⟨0, .q, .absorb, false, false, false, none, none⟩ ⟨true, 9, 0⟩).rejects = [0x04] ∧
    (Instr.loopout ⟨0, .q, .absorb, false, false, false, none, none⟩ ⟨false, 9, 1⟩).rejects = [0x04] := by decide

/-- R179, R181: FROM that the row does not list, and QT where it is not used. -/
theorem test_wf_convert :
    (Instr.frnd ⟨0, .f, .absorb, false, false, false, none, none⟩ ⟨.f2, false, .fpc, .uniform⟩).rejects = [0x05] ∧
    (Instr.itof ⟨0, .f, .absorb, false, false, false, none, none⟩ ⟨.f, false, .fpc, .uniform⟩).rejects = [0x05] ∧
    (Instr.fcvt ⟨0, .f, .absorb, false, false, false, none, none⟩ ⟨.f, false, .fpc, .e2m1⟩).rejects = [0x04] := by decide

/-- R241: a float operator on an integer type and the reverse. -/
theorem test_wf_operator :
    (Instr.red ⟨0, .q, .absorb, false, false, false, none, none⟩ .fadd).rejects = [0x05] ∧
    (Instr.scan ⟨0, .f, .absorb, false, false, false, none, none⟩ .add).rejects = [0x05] ∧
    (Instr.red ⟨0, .f2, .absorb, false, false, false, none, none⟩ .and).rejects = [0x05] := by decide

/-- R60: `un` and `or` on `CMP`; lower on `FCMP`. -/
theorem test_wf_compare :
    (Instr.cmp ⟨0, .q, .absorb, false, false, false, none, none⟩ ⟨0, .un⟩).rejects = [0x04] ∧
    (Instr.fcmp ⟨0, .f, .absorb, false, false, false, none, none⟩ ⟨0, .lo⟩).rejects = [0x04] := by decide

/-- R62: POS and LEN − 1 below the width. -/
theorem test_wf_field :
    (Instr.extr ⟨0, .d2, .absorb, false, false, false, none, none⟩ ⟨0, 32⟩).rejects = [0x04] ∧
    (Instr.ins ⟨0, .w4, .absorb, false, false, false, none, none⟩ ⟨16, 0⟩).rejects = [0x04] := by decide

/-- R62: a selector of a two-lane type above 3, RET on `EXITI`, an absent register and one that is only read. -/
theorem test_wf_other :
    (Instr.swz ⟨0, .d2, .absorb, false, false, false, none, none⟩ 4).rejects = [0x04] ∧
    (Instr.swz ⟨0, .o8, .absorb, false, false, false, none, none⟩ 1).rejects = [0x04] ∧
    (Instr.exiti ⟨0, .q, .absorb, false, false, false, none, none⟩ ⟨1, 0⟩).rejects = [0x04] ∧
    (Instr.rdsr ⟨0, .q, .absorb, false, false, false, none, none⟩ 19).rejects = [0x04] ∧
    (Instr.wrsr ⟨0, .q, .absorb, false, false, false, none, none⟩ 17).rejects = [0x04] := by decide

/-- What is rejected is not well formed. -/
theorem test_wf_is_no_rejection : ∀ i : Instr, i.wf = true ↔ i.rejects = [] := by
  intro i; simp [Instr.wf]

/-- Terms that differ from those above only in the refused field. -/
theorem test_wf_accepts :
    (Instr.add ⟨0, .q, .absorb, true, false, false, some ⟨5, .a⟩, none⟩ 1).wf = true ∧
    (Instr.dot ⟨0, .b4, .absorb, false, false, false, none, none⟩).wf = true ∧
    (Instr.fork ⟨0, .q, .absorb, false, false, false, some ⟨5, .a⟩, some ⟨6, .b⟩⟩ (some ⟨7, .a⟩) none).wf = true ∧
    (Instr.bred ⟨0, .q, .absorb, false, false, false, none, none⟩ ⟨.core, 15, .max, true⟩).wf = true ∧
    (Instr.ldf ⟨0, .q, .absorb, false, false, false, none, none⟩ ⟨0, .random, true, 0⟩).wf = true ∧
    (Instr.copy2In ⟨0, .q, .absorb, false, false, false, some ⟨5, .a⟩, none⟩ false ⟨true, 1, 0⟩).wf = true ∧
    (Instr.loopin ⟨0, .q, .absorb, false, false, false, none, none⟩ ⟨true, 9, 0⟩).wf = true ∧
    (Instr.cmp ⟨0, .q, .absorb, false, false, false, none, none⟩ ⟨0, .lo⟩).wf = true ∧
    (Instr.extr ⟨0, .d2, .absorb, false, false, false, none, none⟩ ⟨31, 31⟩).wf = true ∧
    (Instr.wrsr ⟨0, .q, .absorb, false, false, false, none, none⟩ 14).wf = true := by decide

/-! Decoding -/

/-- R52 to R64: words of the flow instructions, written out field by field from the tables. -/
theorem test_decode_flow :
    decode 0x000001024120BEEF = some (.land ⟨0, .q, .absorb, false, false, false, some ⟨1, .a⟩, some ⟨2, .b⟩⟩ 0xBEEF) ∧
    decode 0x0100010A0000003F = some (.read ⟨0, .q, .absorb, false, false, false, some ⟨5, .a⟩, none⟩ 63) ∧
    decode 0x0200000000000001 = some (.write ⟨0, .q, .absorb, false, false, false, none, none⟩ 1) ∧
    decode 0x030081BF00012345 = some (.const ⟨0, .d2, .absorb, false, false, false, some ⟨95, .c⟩, none⟩ 0x12345) ∧
    decode 0x0400010780000011 = some (.kpool ⟨0, .q, .absorb, false, false, false, some ⟨3, .p⟩, none⟩ 17) ∧
    decode 0x05FC210A001FFFFF = some (.mov ⟨63, .q, .replace, false, false, false, some ⟨5, .a⟩, none⟩ 0x1FFFFF) ∧
    decode 0x0600010A43287A23 = some (.fork ⟨0, .q, .absorb, false, false, false, some ⟨5, .a⟩, some ⟨6, .b⟩⟩ (some ⟨7, .c⟩) (some ⟨8, .p⟩)) ∧
    decode 0x0700470A00000000 = some (.sel ⟨0, .q, .absorb, false, true, true, some ⟨5, .a⟩, none⟩ true) ∧
    decode 0x0800010A43000000 = some (.steer ⟨0, .q, .absorb, false, false, false, some ⟨5, .a⟩, some ⟨6, .a⟩⟩) ∧
    decode 0x0900110A00000000 = some (.merge ⟨0, .q, .forward, false, false, false, some ⟨5, .a⟩, none⟩) ∧
    decode 0x0A00410A00000000 = some (.jand ⟨0, .q, .absorb, false, false, false, some ⟨5, .a⟩, none⟩ true) ∧
    decode 0x0B00310A00000000 = some (.jor ⟨0, .q, .trap, false, false, false, some ⟨5, .a⟩, none⟩ false) ∧
    decode 0x0C00010A00000000 = some (.jall ⟨0, .q, .absorb, false, false, false, some ⟨5, .a⟩, none⟩) ∧
    decode 0x0D00010A00012000 = some (.carry ⟨0, .q, .absorb, false, false, false, some ⟨5, .a⟩, none⟩ ⟨false, 9, 0⟩) ∧
    decode 0x0E00010A0000000F = some (.loopin ⟨0, .q, .absorb, false, false, false, some ⟨5, .a⟩, none⟩ ⟨false, 0, 15⟩) ∧
    decode 0x0F00010A0009A000 = some (.loopout ⟨0, .q, .absorb, false, false, false, some ⟨5, .a⟩, none⟩ ⟨false, 77, 0⟩) ∧
    decode 0x1000000000000087 = some (.kill ⟨0, .q, .absorb, false, false, false, none, none⟩ ⟨33, .p⟩) ∧
    decode 0x1100040000000000 = some (.drop ⟨0, .q, .absorb, false, true, false, none, none⟩) ∧
    decode 0x1203010A0000FFFF = some (.gen ⟨0, .o8, .absorb, false, false, false, some ⟨5, .a⟩, none⟩ 0xFFFF) ∧
    decode 0x1300010A00000000 = some (.cnt ⟨0, .q, .absorb, false, false, false, some ⟨5, .a⟩, none⟩) ∧
    decode 0x1400010A00000000 = some (.iter ⟨0, .q, .absorb, false, false, false, some ⟨5, .a⟩, none⟩) ∧
    decode 0x1500000000000007 = some (.exit ⟨0, .q, .absorb, false, false, false, none, none⟩ 7) ∧
    decode 0x160000000000000B = some (.exiti ⟨0, .q, .absorb, false, false, false, none, none⟩ ⟨0, 11⟩) ∧
    decode 0x1700000000000002 = some (.call ⟨0, .q, .absorb, false, false, false, none, none⟩ 2) ∧
    decode 0x1800000000000503 = some (.calli ⟨0, .q, .absorb, false, false, false, none, none⟩ ⟨5, 3⟩) ∧
    decode 0x1900000000000000 = some (.ret ⟨0, .q, .absorb, false, false, false, none, none⟩) := by
  decide +kernel

/-- R52 to R64: words of the integer instructions, written out field by field from the tables. -/
theorem test_decode_int :
    decode 0x2000090A001FFFFD = some (.add ⟨0, .q, .absorb, true, false, false, some ⟨5, .a⟩, none⟩ 0x1FFFFD) ∧
    decode 0x2100810A43200000 = some (.sub ⟨0, .d2, .absorb, false, false, false, some ⟨5, .a⟩, some ⟨6, .b⟩⟩ 0) ∧
    decode 0x2202890A0000FFFF = some (.mul ⟨0, .w4, .absorb, true, false, false, some ⟨5, .a⟩, none⟩ 0xFFFF) ∧
    decode 0x2300090A00100007 = some (.mulh ⟨0, .q, .absorb, true, false, false, some ⟨5, .a⟩, none⟩ ⟨true, 7⟩) ∧
    decode 0x2403090A000000FF = some (.mad ⟨0, .o8, .absorb, true, false, false, some ⟨5, .a⟩, none⟩ 0xFF) ∧
    decode 0x2500890A000FFFFF = some (.div ⟨0, .d2, .absorb, true, false, false, some ⟨5, .a⟩, none⟩ ⟨false, 0xFFFFF⟩) ∧
    decode 0x2600010A00100000 = some (.rem ⟨0, .q, .absorb, false, false, false, some ⟨5, .a⟩, none⟩ ⟨true, 0⟩) ∧
    decode 0x2700210A00000005 = some (.neg ⟨0, .q, .replace, false, false, false, some ⟨5, .a⟩, none⟩ 5) ∧
    decode 0x2802810A00000000 = some (.abs ⟨0, .w4, .absorb, false, false, false, some ⟨5, .a⟩, none⟩ 0) ∧
    decode 0x2900810A00000000 = some (.min ⟨0, .d2, .absorb, false, false, false, some ⟨5, .a⟩, none⟩ ⟨false, 0⟩) ∧
    decode 0x2A03010A00100000 = some (.max ⟨0, .o8, .absorb, false, false, false, some ⟨5, .a⟩, none⟩ ⟨true, 0⟩) ∧
    decode 0x2B00090A000000FF = some (.and ⟨0, .q, .absorb, true, false, false, some ⟨5, .a⟩, none⟩ 0xFF) ∧
    decode 0x2C00810A00000000 = some (.or ⟨0, .d2, .absorb, false, false, false, some ⟨5, .a⟩, none⟩ 0) ∧
    decode 0x2D02810A00000000 = some (.xor ⟨0, .w4, .absorb, false, false, false, some ⟨5, .a⟩, none⟩ 0) ∧
    decode 0x2E03010A00000000 = some (.andn ⟨0, .o8, .absorb, false, false, false, some ⟨5, .a⟩, none⟩ 0) ∧
    decode 0x2F00010A00000000 = some (.not ⟨0, .q, .absorb, false, false, false, some ⟨5, .a⟩, none⟩ 0) ∧
    decode 0x3000090A0000003F = some (.shl ⟨0, .q, .absorb, true, false, false, some ⟨5, .a⟩, none⟩ 63) ∧
    decode 0x3100890A0010001F = some (.shr ⟨0, .d2, .absorb, true, false, false, some ⟨5, .a⟩, none⟩ ⟨true, 31⟩) ∧
    decode 0x3202890A0000000F = some (.rol ⟨0, .w4, .absorb, true, false, false, some ⟨5, .a⟩, none⟩ 15) ∧
    decode 0x330C010A00000000 = some (.clz ⟨3, .q, .absorb, false, false, false, some ⟨5, .a⟩, none⟩ 0) ∧
    decode 0x340C010A00000000 = some (.ctz ⟨3, .q, .absorb, false, false, false, some ⟨5, .a⟩, none⟩ 0) ∧
    decode 0x350C010A00000000 = some (.popc ⟨3, .q, .absorb, false, false, false, some ⟨5, .a⟩, none⟩ 0) ∧
    decode 0x360C010A00000000 = some (.brev ⟨3, .q, .absorb, false, false, false, some ⟨5, .a⟩, none⟩ 0) ∧
    decode 0x3700010A000001F8 = some (.extr ⟨0, .q, .absorb, false, false, false, some ⟨5, .a⟩, none⟩ ⟨7, 56⟩) ∧
    decode 0x3800810A000007C0 = some (.ins ⟨0, .d2, .absorb, false, false, false, some ⟨5, .a⟩, none⟩ ⟨31, 0⟩) ∧
    decode 0x3900890A001FFFD9 = some (.cmp ⟨0, .d2, .absorb, true, false, false, some ⟨5, .a⟩, none⟩ ⟨0x1FFFD, .hs⟩) ∧
    decode 0x3A00010A001E0000 = some (.lea ⟨0, .q, .absorb, false, false, false, some ⟨5, .a⟩, none⟩ ⟨7, 0x20000⟩) ∧
    decode 0x3B00810A00100000 = some (.sat ⟨0, .d2, .absorb, false, false, false, some ⟨5, .a⟩, none⟩ ⟨true, 0⟩) ∧
    decode 0x3C00010A00000000 = some (.ext ⟨0, .q, .absorb, false, false, false, some ⟨5, .a⟩, none⟩ ⟨false, 0⟩) ∧
    decode 0x3D02810A00100000 = some (.pack ⟨0, .w4, .absorb, false, false, false, some ⟨5, .a⟩, none⟩ ⟨true, 0⟩) ∧
    decode 0x3E03010A00000000 = some (.unpk ⟨0, .o8, .absorb, false, false, false, some ⟨5, .a⟩, none⟩ ⟨false, 0⟩) ∧
    decode 0x3F02010A0000001B = some (.swz ⟨0, .h4, .absorb, false, false, false, some ⟨5, .a⟩, none⟩ 0x1B) := by
  decide +kernel

/-- R52 to R64: words of the float instructions, written out field by field from the tables. -/
theorem test_decode_float :
    decode 0x5001090A00003F80 = some (.fadd ⟨0, .f2, .absorb, true, false, false, some ⟨5, .a⟩, none⟩ 0x3F80) ∧
    decode 0x5101890A00003F80 = some (.fsub ⟨0, .b4, .absorb, true, false, false, some ⟨5, .a⟩, none⟩ 0x3F80) ∧
    decode 0x5202090A00003F80 = some (.fmul ⟨0, .h4, .absorb, true, false, false, some ⟨5, .a⟩, none⟩ 0x3F80) ∧
    decode 0x5303890A00003F80 = some (.fma ⟨0, .f, .absorb, true, false, false, some ⟨5, .a⟩, none⟩ 0x3F80) ∧
    decode 0x5401090A00003F80 = some (.fmin ⟨0, .f2, .absorb, true, false, false, some ⟨5, .a⟩, none⟩ 0x3F80) ∧
    decode 0x5501890A00003F80 = some (.fmax ⟨0, .b4, .absorb, true, false, false, some ⟨5, .a⟩, none⟩ 0x3F80) ∧
    decode 0x5902090A00003F80 = some (.fdiv ⟨0, .h4, .absorb, true, false, false, some ⟨5, .a⟩, none⟩ 0x3F80) ∧
    decode 0x6003890A00003F80 = some (.fscl ⟨0, .f, .absorb, true, false, false, some ⟨5, .a⟩, none⟩ 0x3F80) ∧
    decode 0x5601010A43400000 = some (.fabs ⟨0, .f2, .absorb, false, false, false, some ⟨5, .a⟩, some ⟨6, .c⟩⟩ 0) ∧
    decode 0x5701810A43400000 = some (.fneg ⟨0, .b4, .absorb, false, false, false, some ⟨5, .a⟩, some ⟨6, .c⟩⟩ 0) ∧
    decode 0x5A02010A43400000 = some (.fsqrt ⟨0, .h4, .absorb, false, false, false, some ⟨5, .a⟩, some ⟨6, .c⟩⟩ 0) ∧
    decode 0x5B03810A43400000 = some (.frcp ⟨0, .f, .absorb, false, false, false, some ⟨5, .a⟩, some ⟨6, .c⟩⟩ 0) ∧
    decode 0x5C01010A43400000 = some (.frsq ⟨0, .f2, .absorb, false, false, false, some ⟨5, .a⟩, some ⟨6, .c⟩⟩ 0) ∧
    decode 0x5D01810A43400000 = some (.fexp2 ⟨0, .b4, .absorb, false, false, false, some ⟨5, .a⟩, some ⟨6, .c⟩⟩ 0) ∧
    decode 0x5E02010A43400000 = some (.flog2 ⟨0, .h4, .absorb, false, false, false, some ⟨5, .a⟩, some ⟨6, .c⟩⟩ 0) ∧
    decode 0x5F03810A43400000 = some (.ftanh ⟨0, .f, .absorb, false, false, false, some ⟨5, .a⟩, some ⟨6, .c⟩⟩ 0) ∧
    decode 0x6101010A43400000 = some (.fcls ⟨0, .f2, .absorb, false, false, false, some ⟨5, .a⟩, some ⟨6, .c⟩⟩ 0) ∧
    decode 0x5803810A0000000A = some (.fcmp ⟨0, .f, .absorb, false, false, false, some ⟨5, .a⟩, none⟩ ⟨0, .un⟩) ∧
    decode 0x6201010A00094000 = some (.frnd ⟨0, .f2, .absorb, false, false, false, some ⟨5, .a⟩, none⟩ ⟨.f2, false, .rtz, .uniform⟩) ∧
    decode 0x6302010A001A0000 = some (.fcvt ⟨0, .h4, .absorb, false, false, false, some ⟨5, .a⟩, none⟩ ⟨.o8, true, .fpc, .uniform⟩) ∧
    decode 0x6401010A00078000 = some (.itof ⟨0, .f2, .absorb, false, false, false, some ⟨5, .a⟩, none⟩ ⟨.d2, true, .rup, .uniform⟩) ∧
    decode 0x6502810A000DC000 = some (.ftoi ⟨0, .w4, .absorb, false, false, false, some ⟨5, .a⟩, none⟩ ⟨.b4, false, .rdn, .uniform⟩) ∧
    decode 0x6603010A001D3000 = some (.qpack ⟨0, .o8, .absorb, false, false, false, some ⟨5, .a⟩, none⟩ ⟨.f, false, .rne, .hybrid⟩) ∧
    decode 0x6701010A00181000 = some (.qunpk ⟨0, .f2, .absorb, false, false, false, some ⟨5, .a⟩, none⟩ ⟨.o8, false, .fpc, .e2m1⟩) ∧
    decode 0x6801810A00000000 = some (.dot ⟨0, .b4, .absorb, false, false, false, some ⟨5, .a⟩, none⟩) ∧
    decode 0x6903810A00000000 = some (.key ⟨0, .f, .absorb, false, false, false, some ⟨5, .a⟩, none⟩) ∧
    decode 0x6A03810A00000000 = some (.noise ⟨0, .f, .absorb, false, false, false, some ⟨5, .a⟩, none⟩) := by
  decide +kernel

/-- R52 to R64: words of the parallel instructions, written out field by field from the tables. -/
theorem test_decode_parallel :
    decode 0x8001010A000A0000 = some (.red ⟨0, .f2, .absorb, false, false, false, some ⟨5, .a⟩, none⟩ .fmax) ∧
    decode 0x8100810A00030000 = some (.scan ⟨0, .d2, .absorb, false, false, false, some ⟨5, .a⟩, none⟩ .minZ) ∧
    decode 0x8200090A000000FF = some (.shuf ⟨0, .q, .absorb, true, false, false, some ⟨5, .a⟩, none⟩ 255) ∧
    decode 0x8301810A00000000 = some (.bcast ⟨0, .b4, .absorb, false, false, false, some ⟨5, .a⟩, none⟩) ∧
    decode 0x9102810A00000000 = some (.idx ⟨0, .w4, .absorb, false, false, false, some ⟨5, .a⟩, none⟩) ∧
    decode 0x8400010A0000F000 = some (.tap ⟨0, .q, .absorb, false, false, false, some ⟨5, .a⟩, none⟩ ⟨.core, 15, .add, false⟩) ∧
    decode 0x8500010A0009F000 = some (.binit ⟨0, .q, .absorb, false, false, false, some ⟨5, .a⟩, none⟩ ⟨.die, 31, .add, false⟩) ∧
    decode 0x8600010A0004F000 = some (.barr ⟨0, .q, .absorb, false, false, false, some ⟨5, .a⟩, none⟩ ⟨.quad, 15, .add, false⟩) ∧
    decode 0x8700010A000FF000 = some (.bwait ⟨0, .q, .absorb, false, false, false, some ⟨5, .a⟩, none⟩ ⟨.package, 63, .add, false⟩) ∧
    decode 0x8800010A0010F000 = some (.bsync ⟨0, .q, .absorb, false, false, false, some ⟨5, .a⟩, none⟩ ⟨.pod, 15, .add, false⟩) ∧
    decode 0x8900010A000C1A00 = some (.bred ⟨0, .q, .absorb, false, false, false, some ⟨5, .a⟩, none⟩ ⟨.package, 1, .min, true⟩) ∧
    decode 0x8A00010A00000000 = some (.bwaitd ⟨0, .q, .absorb, false, false, false, some ⟨5, .a⟩, none⟩ ⟨.core, 0, .add, false⟩) ∧
    decode 0x8B00010A00000000 = some (.enq ⟨0, .q, .absorb, false, false, false, some ⟨5, .a⟩, none⟩) ∧
    decode 0x8C00010A00000000 = some (.yield ⟨0, .q, .absorb, false, false, false, some ⟨5, .a⟩, none⟩) ∧
    decode 0x8D00010A00000000 = some (.fopen ⟨0, .q, .absorb, false, false, false, some ⟨5, .a⟩, none⟩) ∧
    decode 0x8E00010A00000000 = some (.fclose ⟨0, .q, .absorb, false, false, false, some ⟨5, .a⟩, none⟩) ∧
    decode 0x8F00010A00000000 = some (.fwait ⟨0, .q, .absorb, false, false, false, some ⟨5, .a⟩, none⟩) ∧
    decode 0x9000010A00000000 = some (.waitc ⟨0, .q, .absorb, false, false, false, some ⟨5, .a⟩, none⟩) := by
  decide +kernel

/-- R52 to R64: words of the memory instructions, written out field by field from the tables. -/
theorem test_decode_memory :
    decode 0xA001010A001FEFFF = some (.ld ⟨0, .f2, .absorb, false, false, false, some ⟨5, .a⟩, none⟩ ⟨127, .ordered, true, 0x7FF⟩) ∧
    decode 0xA100000000004400 = some (.st ⟨0, .q, .absorb, false, false, false, none, none⟩ ⟨1, .random, false, 0x400⟩) ∧
    decode 0xA201810A00009001 = some (.ldx ⟨0, .b4, .absorb, false, false, false, some ⟨5, .a⟩, none⟩ ⟨2, .streaming, false, 1⟩) ∧
    decode 0xA302010A0000C802 = some (.stx ⟨0, .h4, .absorb, false, false, false, some ⟨5, .a⟩, none⟩ ⟨3, .random, true, 2⟩) ∧
    decode 0xA400010A00010803 = some (.ldf ⟨0, .q, .absorb, false, false, false, some ⟨5, .a⟩, none⟩ ⟨4, .random, true, 3⟩) ∧
    decode 0xA500010A00014803 = some (.ldfk ⟨0, .q, .absorb, false, false, false, some ⟨5, .a⟩, none⟩ ⟨5, .random, true, 3⟩) ∧
    decode 0xA600010A00018803 = some (.ste ⟨0, .q, .absorb, false, false, false, some ⟨5, .a⟩, none⟩ ⟨6, .random, true, 3⟩) ∧
    decode 0xA700010A0001C803 = some (.stf ⟨0, .q, .absorb, false, false, false, some ⟨5, .a⟩, none⟩ ⟨7, .random, true, 3⟩) ∧
    decode 0xA800010A00020803 = some (.feset ⟨0, .q, .absorb, false, false, false, some ⟨5, .a⟩, none⟩ ⟨8, .random, true, 3⟩) ∧
    decode 0xA900010A000267FF = some (.atom ⟨0, .q, .absorb, false, false, false, some ⟨5, .a⟩, none⟩ ⟨9, .maxZ, 0x3FF⟩) ∧
    decode 0xAA03810A00028004 = some (.upd ⟨0, .f, .absorb, false, false, false, some ⟨5, .a⟩, none⟩ ⟨10, .random, false, 4⟩) ∧
    decode 0xAB00010A0002D005 = some (.pref ⟨0, .q, .absorb, false, false, false, some ⟨5, .a⟩, none⟩ ⟨11, .streaming, false, 5⟩) ∧
    decode 0xAC00010A00030006 = some (.flush ⟨0, .q, .absorb, false, false, false, some ⟨5, .a⟩, none⟩ ⟨12, .random, false, 6⟩) ∧
    decode 0xAD00010A00034007 = some (.waitm ⟨0, .q, .absorb, false, false, false, some ⟨5, .a⟩, none⟩ ⟨13, .random, false, 7⟩) ∧
    decode 0xAE00010A0003800F = some (.tdef ⟨0, .q, .absorb, false, false, false, some ⟨5, .a⟩, none⟩ ⟨14, false, 15⟩) ∧
    decode 0xAF00010A0003C00E = some (.tfree ⟨0, .q, .absorb, false, false, false, some ⟨5, .a⟩, none⟩ ⟨15, false, 14⟩) ∧
    decode 0xB000010A0004000D = some (.tready ⟨0, .q, .absorb, false, false, false, some ⟨5, .a⟩, none⟩ ⟨16, false, 13⟩) ∧
    decode 0xB100010A0004400C = some (.tstate ⟨0, .q, .absorb, false, false, false, some ⟨5, .a⟩, none⟩ ⟨17, false, 12⟩) ∧
    decode 0xB300010A0004800B = some (.tst ⟨0, .q, .absorb, false, false, false, some ⟨5, .a⟩, none⟩ ⟨18, false, 11⟩) ∧
    decode 0xB200010A00050012 = some (.tld ⟨0, .q, .absorb, false, false, false, some ⟨5, .a⟩, none⟩ ⟨20, true, 2⟩) ∧
    decode 0xB400010A0005402F = some (.bankmode ⟨0, .q, .absorb, false, false, false, some ⟨5, .a⟩, none⟩ ⟨21, .fifo, 15⟩) := by
  decide +kernel

/-- R52 to R64: words of the message instructions, written out field by field from the tables. -/
theorem test_decode_message :
    decode 0xC000010A00008000 = some (.send ⟨0, .q, .absorb, false, false, false, some ⟨5, .a⟩, none⟩ ⟨true, 0, 0⟩) ∧
    decode 0xC100010A00018000 = some (.copy ⟨0, .q, .absorb, false, false, false, some ⟨5, .a⟩, none⟩ true ⟨true, 0, 0⟩) ∧
    decode 0xC200000000020900 = some (.copy2In ⟨0, .q, .absorb, false, false, false, none, none⟩ true ⟨false, 9, 0⟩) ∧
    decode 0xC200000000010004 = some (.copy2Out ⟨0, .q, .absorb, false, false, false, none, none⟩ false ⟨false, 0, 4⟩) ∧
    decode 0xC300010A00008300 = some (.gath ⟨0, .q, .absorb, false, false, false, some ⟨5, .a⟩, none⟩ ⟨true, 3, 0⟩) ∧
    decode 0xC400010A00008003 = some (.scat ⟨0, .q, .absorb, false, false, false, some ⟨5, .a⟩, none⟩ ⟨true, 0, 3⟩) ∧
    decode 0xC500000000000000 = some (.cfill ⟨0, .q, .absorb, false, false, false, none, none⟩ ⟨false, 0, 0⟩) ∧
    decode 0xD000000000000000 = some (.put ⟨0, .q, .absorb, false, false, false, none, none⟩ ⟨false, 0, 0⟩) ∧
    decode 0xD100000000000000 = some (.get ⟨0, .q, .absorb, false, false, false, none, none⟩ ⟨false, 0, 0⟩) ∧
    decode 0xC700000000000000 = some (.swapw ⟨0, .q, .absorb, false, false, false, none, none⟩ ⟨false, 0, 0⟩) ∧
    decode 0xCA00000000000000 = some (.accz ⟨0, .q, .absorb, false, false, false, none, none⟩ ⟨false, 0, 0⟩) ∧
    decode 0xC60000000000000F = some (.ldw ⟨0, .q, .absorb, false, false, false, none, none⟩ ⟨false, 0, 15⟩) ∧
    decode 0xC800010A0000800E = some (.mma ⟨0, .q, .absorb, false, false, false, some ⟨5, .a⟩, none⟩ ⟨true, 0, 14⟩) ∧
    decode 0xC900000000000D00 = some (.accrd ⟨0, .q, .absorb, false, false, false, none, none⟩ ⟨false, 13, 0⟩) ∧
    decode 0xCB00000000000C0B = some (.mmaw ⟨0, .q, .absorb, false, false, false, none, none⟩ ⟨false, 12, 11⟩) ∧
    decode 0xCC00000000000000 = some (.roteOpen ⟨0, .q, .absorb, false, false, false, none, none⟩ ⟨false, 0, 0⟩) ∧
    decode 0xCC00000000010000 = some (.roteAppend ⟨0, .q, .absorb, false, false, false, none, none⟩ ⟨false, 0, 0⟩) ∧
    decode 0xCC00000000020000 = some (.rotePropose ⟨0, .q, .absorb, false, false, false, none, none⟩ ⟨false, 0, 0⟩) ∧
    decode 0xCC00000000030000 = some (.roteStat ⟨0, .q, .absorb, false, false, false, none, none⟩ ⟨false, 0, 0⟩) ∧
    decode 0xCC00000000040000 = some (.roteSave ⟨0, .q, .absorb, false, false, false, none, none⟩ ⟨false, 0, 0⟩) ∧
    decode 0xCC00000000050000 = some (.roteLoad ⟨0, .q, .absorb, false, false, false, none, none⟩ ⟨false, 0, 0⟩) ∧
    decode 0xCC00000000060000 = some (.roteClose ⟨0, .q, .absorb, false, false, false, none, none⟩ ⟨false, 0, 0⟩) ∧
    decode 0xCD00010A00008000 = some (.yardDefine ⟨0, .q, .absorb, false, false, false, some ⟨5, .a⟩, none⟩ ⟨true, 0, 0⟩) ∧
    decode 0xCD00010A00018000 = some (.yardApply ⟨0, .q, .absorb, false, false, false, some ⟨5, .a⟩, none⟩ ⟨true, 0, 0⟩) ∧
    decode 0xCD00010A00028000 = some (.yardReset ⟨0, .q, .absorb, false, false, false, some ⟨5, .a⟩, none⟩ ⟨true, 0, 0⟩) ∧
    decode 0xCD00010A00038000 = some (.yardStat ⟨0, .q, .absorb, false, false, false, some ⟨5, .a⟩, none⟩ ⟨true, 0, 0⟩) ∧
    decode 0xCD00010A00048000 = some (.yardClose ⟨0, .q, .absorb, false, false, false, some ⟨5, .a⟩, none⟩ ⟨true, 0, 0⟩) ∧
    decode 0xCE00010A00008000 = some (.tree ⟨0, .q, .absorb, false, false, false, some ⟨5, .a⟩, none⟩ ⟨true, 0, 0⟩) ∧
    decode 0xCF00010A00008000 = some (.accept ⟨0, .q, .absorb, false, false, false, some ⟨5, .a⟩, none⟩ ⟨true, 0, 0⟩) := by
  decide +kernel

/-- R52 to R64: words of the system instructions, written out field by field from the tables. -/
theorem test_decode_system :
    decode 0xE0000000000000A5 = some (.trap ⟨0, .q, .absorb, false, false, false, none, none⟩ 0xA5) ∧
    decode 0xE100010A00000028 = some (.rdsr ⟨0, .q, .absorb, false, false, false, some ⟨5, .a⟩, none⟩ 40) ∧
    decode 0xE20000000000000E = some (.wrsr ⟨0, .q, .absorb, false, false, false, none, none⟩ 14) ∧
    decode 0xE300010A00000000 = some (.patch ⟨0, .q, .absorb, false, false, false, some ⟨5, .a⟩, none⟩) ∧
    decode 0xE400010A00000000 = some (.switch ⟨0, .q, .absorb, false, false, false, some ⟨5, .a⟩, none⟩) ∧
    decode 0xE500010A00000000 = some (.freeze ⟨0, .q, .absorb, false, false, false, some ⟨5, .a⟩, none⟩) ∧
    decode 0xE600010A00000000 = some (.thaw ⟨0, .q, .absorb, false, false, false, some ⟨5, .a⟩, none⟩) ∧
    decode 0xE800010A00000000 = some (.pmap ⟨0, .q, .absorb, false, false, false, some ⟨5, .a⟩, none⟩) ∧
    decode 0xE900010A00000000 = some (.abort ⟨0, .q, .absorb, false, false, false, some ⟨5, .a⟩, none⟩) ∧
    decode 0xE700010A00000003 = some (.tlbi ⟨0, .q, .absorb, false, false, false, some ⟨5, .a⟩, none⟩ ⟨true, true⟩) := by
  decide +kernel

namespace Sys2Proof.Tests

/-- Station 1 sends to slot a of a `DROP` at station 2, and the next step is its firing. -/
def linked (w : Word) (l : List (Slot × Word)) : State :=
  let s := (at' w l).modInst home fun x => { x with nodes := x.nodes ++ [nodeOf 0x1100000000000000 [.a]] }
  { s with agenda := [⟨0, .fire home 1⟩] }

/-- What one step brings to station 2: the data of each token. -/
def result (w : Word) (l : List (Slot × Word)) : List Word :=
  match step (linked w l) with
  | .next t => match t.node? home 2 with
    | some n => n.bufA.map fun e => match e with | .tok t _ => t.data | _ => 0xDEAD
    | none => []
  | _ => []

/-- The flags that one step raises in the instance. -/
def raised (w : Word) (l : List (Slot × Word)) : Option Nat :=
  match step (linked w l) with
  | .next t => (t.inst? home).map fun x => x.flags
  | _ => none

end Sys2Proof.Tests

/-! Results worked by hand from the rules that each test cites: one step each -/

/-- R164: the sum is taken modulo 2⁶⁴. -/
theorem test_add_wraps : result 0x2000010400000000 [(.a, 0xFFFFFFFFFFFFFFFF), (.b, 2)] = [1] := by decide +kernel

/-- R162, R164: no carry leaves a lane. -/
theorem test_add_lanes : result 0x2003010400000000 [(.a, 0xFF01FFFF), (.b, 0x1010101)] = [0x20000] := by decide +kernel

/-- R59, R164: VAL of `.q` is signed: 5 + −3. -/
theorem test_add_imm_signed : result 0x20000904001FFFFD [(.a, 5)] = [2] := by decide +kernel

/-- R164: 0 − 1 in each of four lanes. -/
theorem test_sub_w4 : result 0x2102810400000000 [(.a, 0), (.b, 0x1000100010001)] = [0xFFFFFFFFFFFFFFFF] := by decide +kernel

/-- R164: 2³² × 2³² has no low part. -/
theorem test_mul_low : result 0x2200010400000000 [(.a, 0x100000000), (.b, 0x100000000)] = [0] := by decide +kernel

/-- R164: −1 × −1 is 1, whose high half is 0. -/
theorem test_mulh_signed : result 0x2300010400000000 [(.a, 0xFFFFFFFFFFFFFFFF), (.b, 0xFFFFFFFFFFFFFFFF)] = [0] := by decide +kernel

/-- R164: (2⁶⁴ − 1)² has the high half 2⁶⁴ − 2. -/
theorem test_mulh_unsigned : result 0x2300010400100000 [(.a, 0xFFFFFFFFFFFFFFFF), (.b, 0xFFFFFFFFFFFFFFFF)] = [0xFFFFFFFFFFFFFFFE] := by decide +kernel

/-- R164: 3 × 4 + 5. -/
theorem test_mad_adds : result 0x2400010400000000 [(.a, 3), (.b, 4), (.c, 5)] = [0x11] := by decide +kernel

/-- R165: all ones, and the remainder is a. -/
theorem test_div_by_zero : result 0x2500010400000000 [(.a, 7), (.b, 0)] = [0xFFFFFFFFFFFFFFFF] := by decide +kernel

/-- R165: the most negative value by −1 is itself. -/
theorem test_div_overflow : result 0x2500010400000000 [(.a, 0x8000000000000000), (.b, 0xFFFFFFFFFFFFFFFF)] = [0x8000000000000000] := by decide +kernel

/-- R165: −7 by 2 leaves −1. -/
theorem test_rem_sign : result 0x2600010400000000 [(.a, 0xFFFFFFFFFFFFFFF9), (.b, 2)] = [0xFFFFFFFFFFFFFFFF] := by decide +kernel

/-- R167: the most negative value stays itself. -/
theorem test_neg_least : result 0x2700010400000000 [(.a, 0x8000000000000000)] = [0x8000000000000000] := by decide +kernel

/-- R167: in two lanes, −5 and the most negative value. -/
theorem test_abs_lanes : result 0x2800810400000000 [(.a, 0xFFFFFFFB80000000)] = [0x580000000] := by decide +kernel

/-- R164: −1 is below 1. -/
theorem test_min_signed : result 0x2900010400000000 [(.a, 0xFFFFFFFFFFFFFFFF), (.b, 1)] = [0xFFFFFFFFFFFFFFFF] := by decide +kernel

/-- R164: 2⁶⁴ − 1 is above 1. -/
theorem test_max_unsigned : result 0x2A00010400100000 [(.a, 0xFFFFFFFFFFFFFFFF), (.b, 1)] = [0xFFFFFFFFFFFFFFFF] := by decide +kernel

/-- R164: a AND NOT b. -/
theorem test_andn_clears : result 0x2E00010400000000 [(.a, 0xFF), (.b, 0xF)] = [0xF0] := by decide +kernel

/-- R166: the amount 65 is 1. -/
theorem test_shl_modulo : result 0x3000010400000000 [(.a, 3), (.b, 0x41)] = [6] := by decide +kernel

/-- R166: copies of the sign bit enter under `.s`. -/
theorem test_shr_sign : result 0x3100810400000000 [(.a, 0x80000000), (.b, 4)] = [0xF8000000] := by decide +kernel

/-- R166: zeros enter under `.z`. -/
theorem test_shr_zeros : result 0x3100010400100000 [(.a, 0x8000000000000000), (.b, 0x3F)] = [1] := by decide +kernel

/-- R166: the top bit comes round in each lane. -/
theorem test_rol_wraps : result 0x3202810400000000 [(.a, 0x8001), (.b, 1)] = [3] := by decide +kernel

/-- R167: 64 zeros lead 0. -/
theorem test_clz_zero : result 0x3300010400000000 [(.a, 0)] = [0x40] := by decide +kernel

/-- R167: 32 zeros end an empty lane. -/
theorem test_ctz_lane : result 0x3400810400000000 [(.a, 8)] = [0x2000000003] := by decide +kernel

/-- R167: each byte is counted by itself. -/
theorem test_popc_bytes : result 0x3503010400000000 [(.a, 0xFF01)] = [0x801] := by decide +kernel

/-- R167: bit 0 moves to bit 63. -/
theorem test_brev_word : result 0x3600010400000000 [(.a, 1)] = [0x8000000000000000] := by decide +kernel

/-- R169: eight bits from bit 56. -/
theorem test_extr_top : result 0x37000104000001F8 [(.a, 0xAB00000000000000)] = [0xAB] := by decide +kernel

/-- R169: bits 15 to 8 are replaced. -/
theorem test_ins_middle : result 0x38000104000001C8 [(.a, 0xFFFFFF), (.b, 0x12)] = [0xFF12FF] := by decide +kernel

/-- R170: lane 0 holds 1, below 2 unsigned; lane 1 holds −1, which is not. -/
theorem test_cmp_lo : result 0x3900810400000006 [(.a, 0xFFFFFFFF00000001), (.b, 0x200000002)] = [0xFFFFFFFF] := by decide +kernel

/-- R171: 0x1000 + (3 << 3) − 8. -/
theorem test_lea_scale : result 0x3A000104000FFFF8 [(.a, 0x1000), (.b, 3)] = [0x1010] := by decide +kernel

/-- R168: clamped to a 16-bit integer: 0x12345 gives 32,767 and −0x12345 gives −32,768. -/
theorem test_sat_signed : result 0x3B00810400000000 [(.a, 0xFFFEDCBB00012345)] = [0xFFFF800000007FFF] := by decide +kernel

/-- R168: the low half of each lane, with zeros above. -/
theorem test_ext_zero : result 0x3C02810400100000 [(.a, 0x12FF34FE)] = [0xFF00FE] := by decide +kernel

/-- R168: 2⁴⁰ is clamped to 2³¹ − 1 and stands below −2. -/
theorem test_pack_q : result 0x3D00010400000000 [(.a, 0x10000000000), (.b, 0xFFFFFFFFFFFFFFFE)] = [0xFFFFFFFE7FFFFFFF] := by decide +kernel

/-- R168: the halves of bits 31 to 0, sign-extended. -/
theorem test_unpk_d2 : result 0x3E00810400000000 [(.a, 0xFFFF0003)] = [0xFFFFFFFF00000003] := by decide +kernel

/-- R172: lanes=3,2,1,0 is 0x1B and reverses the four lanes. -/
theorem test_swz_reverses : result 0x3F0281040000001B [(.a, 0x4000300020001)] = [0x1000200030004] := by decide +kernel

/-- R132: `CONST.f2 #1.5`. -/
theorem test_const_fp32 : result 0x030101040007F800 [] = [0x3FC000003FC00000] := by decide +kernel

/-- R134: no NaN is made canonical. -/
theorem test_mov_keeps_nan : result 0x0503810400000000 [(.a, 0x7F800001)] = [0x7F800001] := by decide +kernel

/-- R138: a selector of 0 chooses b. -/
theorem test_sel_takes_b : result 0x0700010400000000 [(.a, 5), (.b, 6), (.c, 0)] = [6] := by decide +kernel

/-- R142: bits 0 are joined. -/
theorem test_jand_bit0 : result 0x0A00010400000000 [(.a, 3), (.b, 2)] = [0] := by decide +kernel

/-- R173: 1 + 2 is 3, with no flag. -/
theorem test_fadd_exact : result 0x5003810400000000 [(.a, 0x3F800000), (.b, 0x40000000)] = [0x40400000] ∧ raised 0x5003810400000000 [(.a, 0x3F800000), (.b, 0x40000000)] = some 0 := by decide +kernel

/-- R54: `.f` gives zeros above its lane. -/
theorem test_fadd_upper_zero : result 0x5003810400000000 [(.a, 0xDEAD00003F800000), (.b, 0xBF800000)] = [0] := by decide +kernel

/-- R173: (1 + 2⁻²³)² − (1 + 2⁻²²) is 2⁻⁴⁶, which two roundings would lose. -/
theorem test_fma_one_rounding : result 0x5303810400000000 [(.a, 0x3F800001), (.b, 0x3F800001), (.c, 0xBF800002)] = [0x28800000] ∧ raised 0x5303810400000000 [(.a, 0x3F800001), (.b, 0x3F800001), (.c, 0xBF800002)] = some 0 := by decide +kernel

/-- R173: 1/0 is +∞ and raises DZ. -/
theorem test_fdiv_by_zero : result 0x5903810400000000 [(.a, 0x3F800000), (.b, 0)] = [0x7F800000] := by decide +kernel

/-- R175: two lanes, √4 and √−0. -/
theorem test_fsqrt_four : result 0x5A01010400000000 [(.a, 0x8000000040800000)] = [0x8000000040000000] ∧ raised 0x5A01010400000000 [(.a, 0x8000000040800000)] = some 0 := by decide +kernel

/-- R173: four BF16 lanes, 2 × 3. -/
theorem test_fmul_bf16 : result 0x5201810400000000 [(.a, 0x4000400040004000), (.b, 0x4040404040404040)] = [0x40C040C040C040C0] ∧ raised 0x5201810400000000 [(.a, 0x4000400040004000), (.b, 0x4040404040404040)] = some 0 := by decide +kernel

/-- R175: log₂ 8 is 3 and is exact. -/
theorem test_flog2_eight : result 0x5E03810400000000 [(.a, 0x41000000)] = [0x40400000] ∧ raised 0x5E03810400000000 [(.a, 0x41000000)] = some 0 := by decide +kernel

/-- R175: 2^0.5 rounds to 0x3FB504F3. -/
theorem test_fexp2_half : result 0x5D03810400000000 [(.a, 0x3F000000)] = [0x3FB504F3] := by decide +kernel

/-- R177: bit 5 for a positive subnormal. -/
theorem test_fcls_subnormal : result 0x6103810400000000 [(.a, 1)] = [0x20] ∧ raised 0x6103810400000000 [(.a, 1)] = some 0 := by decide +kernel

/-- R178: `ne` holds of a NaN and 1. -/
theorem test_fcmp_unordered : result 0x5803810400000001 [(.a, 0x7FC00000), (.b, 0x3F800000)] = [0xFFFFFFFF] ∧ raised 0x5803810400000001 [(.a, 0x7FC00000), (.b, 0x3F800000)] = some 0 := by decide +kernel

/-- R179, as R103 lists E5M2: 0x3D is 1.25 and 0x78 is 32,768, two bytes into two FP32 lanes. -/
theorem test_fcvt_e5m2 : result 0x63010104001A0000 [(.a, 0x783D)] = [0x470000003FA00000] ∧ raised 0x63010104001A0000 [(.a, 0x783D)] = some 0 := by decide +kernel

/-- R179: −1 and 16,777,217, which rounds to 16,777,216. -/
theorem test_itof_lanes : result 0x6401010400040000 [(.a, 0x1000001FFFFFFFF)] = [0x4B800000BF800000] := by decide +kernel

/-- R180, quad 15 of the manual's program: 1 × 17 + 16 × 4 is 81. -/
theorem test_dot_sddmm : result 0x6801810400000000 [(.a, 0x41803F80), (.b, 0x40804188), (.c, 0)] = [0x42A20000] ∧ raised 0x6801810400000000 [(.a, 0x41803F80), (.b, 0x40804188), (.c, 0)] = some 0 := by decide +kernel

/-! Witnesses: encoding, steps and reset -/

/-- Fields at their greatest values. -/
theorem witness_EncodeRoundTrip :
    (Instr.mov ⟨63, .q, .replace, false, true, true, some ⟨95, .p⟩, some ⟨1, .c⟩⟩ 0x1FFFFF).isWord = true ∧
    (Instr.mov ⟨63, .q, .replace, false, true, true, some ⟨95, .p⟩, some ⟨1, .c⟩⟩ 0x1FFFFF).wf = true := by decide +kernel

/-- Opcodes 0x1B and 0xFF, `RET` with IMM bit 20 set, and a word that is accepted. -/
theorem witness_ReservedRefused : opAssigned (wordOp 0x1B00000000000000).toNat = false ∧
    opAssigned (wordOp 0xFF00000000000000).toNat = false ∧
    opAssigned (wordOp 0x1900000000100000).toNat = true ∧ rawDecode 0x1900000000100000 = none ∧
    decode 0x1100000000000000 = some (.drop (hd .q)) := by decide +kernel

/-- Two strands of slice 1 on core 0, whose issued loads ask for its port. -/
def Sys2Proof.Tests.sharing : State :=
  let a : Access := ⟨1, 0, 0, true, [], .load, 0x100, 5, .q, .random, ⟨0x10100, 0, 65536, 0x1000F⟩⟩
  let s := (here (fedNode 0xA000000000000000 [])).modSlice 1 fun x =>
    { x with strands := x.strands ++ x.strands.map fun t => { t with rank := 1 } }
  { (s.modStrand home fun t => { t with pend := [a] }).modStrand ⟨1, 1⟩ fun t => { t with pend := [a] } with
    agenda := [⟨1, .event (.loadReply home 0)⟩] }

/-- A request that none was granted before, one that was granted last, and one that was granted least recently: the port of core
0; an access to settle and one to claim; strands that wait for no thaw. -/
theorem witness_StepRunsDecoded_grants :
    let u := fun (l : List (Nat × SRef)) => ({ sharing with agenda := [], served := l } : State).goOn 1
    sharing.agenda = ⟨1, .event (.loadReply home 0)⟩ :: [] ∧ (u []).ask (.event (.loadReply home 0)) = some (0, home) ∧
    (u []).served.contains (0, home) = false ∧
    (u [(0, ⟨1, 1⟩), (0, home)]).served.contains (0, home) = true ∧ (u [(0, ⟨1, 1⟩), (0, home)]).rivals 0 home = true ∧
    (u [(0, home), (0, ⟨1, 1⟩)]).rivals 0 home = false ∧
    (match (u []).run (.event (.loadReply home 0)) with | .next t => (u []).granted t home | _ => false) = true ∧
    (∀ w ∈ [What.settle home, .claim home 1 0 0], ({ State.reset with agenda := [⟨0, w⟩] } : State).agenda = ⟨0, w⟩ :: []) ∧
    (sharing.strands.all fun e => e.2.waits.isEmpty) = true := by decide +kernel

/-- A `DROP` that stands at its station, an event row, and an empty agenda. -/
theorem witness_StepRunsDecoded :
    (∃ nd k, ({ State.reset.withFetchWord 64 0x1100000000000000 with agenda := [] } : State).elapse 0 |>.node? home 1
      |>.any fun n => decide (n = nd ∧ rawDecode n.word = some (.instr k))) ∧
    (State.reset.withFetchWord 64 0x1100000000000000).agenda = ⟨0, .fire home 1⟩ :: [] ∧
    ({ State.reset with agenda := [⟨3, .event .ptTick⟩] } : State).agenda = ⟨3, .event .ptTick⟩ :: [] ∧
    State.reset.agenda = [] := by
  refine ⟨⟨readyNode 0x1100000000000000, .drop (hd .q), ?_⟩, ?_⟩ <;> decide +kernel

theorem witness_MemoryStaysCanonical : State.reset.memOk ∧ goesOn (step State.reset) := by
  refine ⟨⟨by decide, by decide⟩, goes_on (by decide +kernel)⟩

theorem witness_EveryStepGoesOn : (State.reset.withFetchWord 64 0x1100000000000000).agendaOk ∧
    ({ State.reset with agenda := [⟨0, .event .ptTick⟩] } : State).agendaOk := by
  refine ⟨?_, ?_⟩ <;> intro a ha i hi <;> simp [State.withFetchWord, State.reset] at ha <;> subst ha <;> simp at hi
  subst hi; rfl

/-- No station; and a slice in each state in which it fires nothing. -/
theorem witness_NothingFires : (Instr.drop (hd .q)).isWord = true ∧ State.reset.cur = none ∧
    ∀ z ∈ [Status.halting, .frozen, .evicted],
      let s := (at' 0x1100000000000000 [(.a, 0)]).modSlice 1 fun x => { x with status := z }
      s.cur = some ⟨home, 1⟩ ∧ (s.slice? 1).any (fun x => decide (x.status = z)) = true ∧ (s.inst? home).isSome = true := by
  decide +kernel

/-! Witnesses: firing -/

/-- `ADD` under a predicate, both operands there. -/
theorem witness_CompleteSetFires :
    let h : Hdr := ⟨0, .q, .absorb, false, true, true, none, none⟩
    let tk : Slot → Tok := fun sl => one (match sl with | .a => 5 | .b => 6 | .c => 0 | .p => 1)
    let nd := fedNode 0x2000060000000000 [(.a, 5), (.b, 6), (.p, 1)]
    let s := here nd
    s.acts home 1 ∧ (∃ x, s.inst? home = some x ∧ x.nodes[1]? = some nd ∧ nd.outq = [] ∧ nd.antiOut = [] ∧
      Slot.p ∉ [Slot.a, .b] ∧ (∀ sl ∈ usedSlots h [.a, .b], ∃ n, nd.buf sl = [.tok (tk sl) n]) ∧
      (∀ sl ∈ usedSlots h [.a, .b], (tk sl).tag = 0 ∧ (tk sl).idx = 0 ∧ (tk sl).e = false) ∧
      (tk .p).data.bit 0 = h.pp ∧ nd.fired.contains ⟨0, 0⟩ = false ∧ x.roomFor nd nd.targets 0 0 = true) := by
  refine ⟨acts_here (by decide +kernel), _, rfl, by decide +kernel, by decide +kernel, by decide +kernel, by decide,
    fun sl hs => ⟨0, (by decide +kernel : ∀ sl ∈ [Slot.a, .b, .p], (fedNode 0x2000060000000000
      [(.a, 5), (.b, 6), (.p, 1)]).buf sl = [.tok (one (match sl with | .a => 5 | .b => 6 | .c => 0 | .p => 1)) 0]) sl hs⟩,
    by decide +kernel, by decide +kernel, by decide +kernel, by decide +kernel⟩

/-- `SEL` with its three operands. -/
theorem witness_CompleteSetTaken :
    let nd := fedNode 0x0700000000000000 [(.a, 5), (.b, 6), (.c, 1)]
    let s := here nd
    s.acts home 1 ∧ (∃ x, s.inst? home = some x ∧ x.nodes[1]? = some nd) ∧ nd.outq = [] ∧ nd.antiOut = [] ∧
      usedSlots (hd .q) [.a, .b, .c] = .a :: [.b, .c] ∧
      (∀ sl ∈ [Slot.a, .b, .c], ∃ n w, nd.buf sl = [.tok (one w) n]) ∧ nd.fired.contains ⟨0, 0⟩ = false := by
  refine ⟨acts_here (by decide +kernel), ⟨_, rfl, by decide +kernel⟩, by decide +kernel, by decide +kernel, rfl, ?_,
    by decide +kernel⟩
  intro sl hs
  simp at hs
  rcases hs with rfl | rfl | rfl
  · exact ⟨0, 5, by decide +kernel⟩
  · exact ⟨0, 6, by decide +kernel⟩
  · exact ⟨0, 1, by decide +kernel⟩

/-- A predicate that fails, an empty predicate, and no predicate with and without an empty operand. -/
theorem witness_PredicateAndEmptyPolicy :
    let e : Tok := ⟨0, 0, 0, true, true⟩
    tokOf [(Slot.a, one 5), (.p, one 1)] .p = some (one 1) ∧ (one 1).e = false ∧ (one 1).data.bit 0 ≠ (hd .q).pp ∧
    tokOf [(Slot.a, one 5), (.p, e)] .p = some e ∧ e.e = true ∧
    tokOf [(Slot.a, e)] .p = none ∧ ([(Slot.a, e)].filter fun e => decide (e.1 ≠ Slot.p)).any (fun e => e.2.e) = true ∧
    tokOf [(Slot.a, one 5)] .p = none ∧
      ([(Slot.a, one 5)].filter fun e => decide (e.1 ≠ Slot.p)).any (fun e => e.2.e) = false := by decide +kernel

/-- Station 0 sends to station 1's slot a, which holds one token of two; and a producer with an anti-token. -/
theorem witness_TokenDelivery :
    let s := (at' 0x1100000000000000 [(.a, 9)]).modNode home 0 fun n => { n with routes := [some ⟨1, .a⟩] }
    let u := s.modNode home 0 fun n => { n with antis := [(0, ⟨0, 7⟩)] }
    (s.inst? home).any (fun x => x.nodes[0]?.any fun nd => x.nodes[1]?.any fun c =>
      decide (nd.outq = [] ∧ nd.antiOut = [] ∧ nd.routes = [some ⟨1, .a⟩] ∧ c.room .a 0 = true ∧ nd.cancelled 0 0 0 = false)) ∧
    (u.inst? home).any (fun x => x.nodes[0]?.any fun nd => nd.cancelled 0 0 7) := by
  decide +kernel

/-! Witnesses: integer and float instructions -/

/-- One, two and three operands, and an immediate operand of −1. -/
theorem witness_IntegerCompletes :
    (∃ p, intRule (.neg (hd .q) 0) = some p ∧
      (at' 0x2700000000000000 [(.a, 5)]).goes home 1 p.hdr p.data p.repl p.imm (ready 5 0 0)) ∧
    (∃ p, intRule (.div (hd .q) ⟨true, 0⟩) = some p ∧
      (at' 0x2500000000100000 [(.a, 5), (.b, 0)]).goes home 1 p.hdr p.data p.repl p.imm (ready 5 0 0)) ∧
    (∃ p, intRule (.mad (hd .o8) 0) = some p ∧
      (at' 0x2403000000000000 [(.a, 5), (.b, 6), (.c, 7)]).goes home 1 p.hdr p.data p.repl p.imm (ready 5 6 7)) ∧
    (∃ p, intRule (.add ⟨0, .q, .absorb, true, false, false, none, none⟩ 0x1FFFFF) = some p ∧
      (at' 0x20000800001FFFFF [(.a, 5)]).goes home 1 p.hdr p.data p.repl p.imm (ready 5 0xFFFFFFFFFFFFFFFF 0)) := by
  refine ⟨⟨_, rfl, goes_here ?_⟩, ⟨_, rfl, goes_here ?_⟩, ⟨_, rfl, goes_here ?_⟩, ⟨_, rfl, goes_here ?_⟩⟩ <;> decide +kernel

/-- `SWZ.o8` with b, and `SWZ.w4` without. -/
theorem witness_SwizzleCompletes :
    (∃ nd, (at' 0x3F03000000000000 [(.a, 5), (.b, 7)]).node? home 1 = some nd ∧
      (at' 0x3F03000000000000 [(.a, 5), (.b, 7)]).goes home 1 (hd .o8) [.a, .b] 0 0 (ready 5 7 0)) ∧
    (∃ nd, (at' 0x3F0280000000001B [(.a, 5)]).node? home 1 = some nd ∧ nd.fed.contains .b = false ∧
      (at' 0x3F0280000000001B [(.a, 5)]).goes home 1 (hd .w4) [.a] 0 0 (ready 5 0 0)) := by
  refine ⟨⟨fedNode 0x3F03000000000000 [(.a, 5), (.b, 7)], ?_, goes_here ?_⟩,
    ⟨fedNode 0x3F0280000000001B [(.a, 5)], ?_, ?_, goes_here ?_⟩⟩ <;> decide +kernel

theorem witness_LeaForms :
    (at' 0x3A000000001E0000 [(.a, 5), (.b, 7)]).goes home 1 (hd .q) [.a, .b] 0 0 (ready 5 7 0) ∧
    (at' 0x3A000800001DFFFF [(.a, 5)]).goes home 1 ⟨0, .q, .absorb, true, false, false, none, none⟩ [.a] 0 0
      (ready 5 0 0) := by
  refine ⟨goes_here ?_, goes_here ?_⟩ <;> decide +kernel

/-- Lanes of one bit and of eight, with their least and greatest values. -/
theorem witness_BitsOfLanes : (1 < 2 ^ 1 ∧ 1 ≠ 0) ∧ (255 < 2 ^ 8 ∧ 255 ≠ 0) ∧ 0 < 2 ^ 8 ∧ 7 < 8 ∧ (0 < 1 ∧ 3 < 2 ^ (2 * 1)) ∧
    (0 < 32 ∧ 2 ^ 64 - 1 < 2 ^ (2 * 32)) := by decide

theorem witness_LanesOfDatum : 7 < Ty.o8.lanes ∧ 0 < Ty.f.lanes ∧ Ty.q ≠ .f := by decide

/-- One, two and three operands: `FSQRT`, `FDIV`, `DOT`. -/
theorem witness_FloatCompletes :
    (∃ p, floatRule (.fsqrt (hd .f) 0) = some p ∧
      (at' 0x5A03800000000000 [(.a, 0x40800000)]).goes home 1 p.hdr p.data p.repl p.imm (ready 0x40800000 0 0)) ∧
    (∃ p, floatRule (.fdiv (hd .f2) 0) = some p ∧
      (at' 0x5901000000000000 [(.a, 0x40800000), (.b, 0)]).goes home 1 p.hdr p.data p.repl p.imm (ready 0x40800000 0 0)) ∧
    (∃ p, floatRule (.dot (hd .b4)) = some p ∧
      (at' 0x6801800000000000 [(.a, 5), (.b, 6), (.c, 7)]).goes home 1 p.hdr p.data p.repl p.imm (ready 5 6 7)) := by
  refine ⟨⟨_, rfl, goes_here ?_⟩, ⟨_, rfl, goes_here ?_⟩, ⟨_, rfl, goes_here ?_⟩⟩ <;> decide +kernel

/-- `ABS` of an empty token under EP 00, 01 and 11, and with no token. -/
theorem witness_PureOtherwise :
    let e := fun (w : Word) => here ((fedNode w [(.a, 0)]).setBuf .a [.tok ⟨0, 0, 0, true, true⟩ 0])
    let h := fun (ep : Ep) => ({ hd .q with ep := ep } : Hdr)
    (∀ ep, ∃ p, intRule (.abs (h ep) 0) = some p ∧ p.hdr = h ep ∧ p.data = [.a]) ∧
    actsHere (e 0x2800000000000000) = true ∧ actsHere (e 0x2800100000000000) = true ∧ actsHere (e 0x2800300000000000) = true ∧
    (e 0x2800000000000000).pick home 1 (h .absorb) [.a] 0 0 = some (.settle .nothing (ready 0 0 0)) ∧
    (e 0x2800100000000000).pick home 1 (h .forward) [.a] 0 0 = some (.settle .forward (ready 0 0 0)) ∧
    (e 0x2800300000000000).pick home 1 (h .trap) [.a] 0 0 = some (.trap (ready 0 0 0)) ∧
    (here (nodeOf 0x2800000000000000 [.a])).pick home 1 (h .absorb) [.a] 0 0 = none := by
  refine ⟨fun ep => ⟨_, rfl, rfl, rfl⟩, ?_⟩
  decide +kernel

/-- FP32: the greatest number, the least subnormal, and the canonical NaN. -/
theorem witness_FloatEdges :
    let v := Env.ofFpc 0
    v.fz = false ∧ v.daz = false ∧
    (∀ a ∈ [0x7F7FFFFF, 1, 0x80000001], a < 2 ^ 32 ∧ ∃ n m e, Fmt.fp32.operand v a = .fin n m e ∧ m ≠ 0) ∧
    (Fmt.fp32.operand v 0x7FC00000).isNan = true := by
  refine ⟨by decide +kernel, by decide +kernel, ?_, by decide +kernel⟩
  intro a ha
  simp only [List.mem_cons, List.not_mem_nil, or_false] at ha
  rcases ha with rfl | rfl | rfl <;> exact ⟨by decide, _, _, _, rfl, by decide⟩

/-! Witnesses: flow -/

theorem witness_StartFiredComplete :
    let s := here (nodeOf 0x0000000000000007 [])
    actsHere s = true ∧ (s.strand? home).any (fun t => t.inst.any fun x => x.nodes[1]?.any fun nd =>
      nd.outq.isEmpty && nd.antiOut.isEmpty && !nd.fired.contains ⟨0, 0⟩ && x.roomFor nd nd.targets 0 0) = true := by
  decide +kernel

theorem witness_MoversComplete :
    (at' 0x0500000000000000 [(.a, 5)]).goes home 1 (hd .q) [.a] (valOperand .q 0) 0 (ready 5 0 0) ∧
    ((at' 0x1400000000000000 [(.a, 5)]).goes home 1 (hd .q) [.a] 0 0 (ready 5 0 0) ∧
      ((((at' 0x1400000000000000 [(.a, 5)]).drain home 1).settleFrames home).inst? home).isSome = true) ∧
    (∃ nd, (at' 0x0A00000000000000 [(.a, 1), (.b, 0)]).node? home 1 = some nd ∧ joinData nd = [.a, .b] ∧
      (at' 0x0A00000000000000 [(.a, 1), (.b, 0)]).goes home 1 (hd .q) [.a, .b] 0 0 (ready 1 0 0)) ∧
    (∃ nd, (at' 0x0A00000000000000 [(.a, 1), (.b, 0), (.c, 1)]).node? home 1 = some nd ∧ joinData nd = [.a, .b, .c] ∧
      (at' 0x0A00000000000000 [(.a, 1), (.b, 0), (.c, 1)]).goes home 1 (hd .q) [.a, .b, .c] 0 0 (ready 1 0 1)) := by
  refine ⟨goes_here ?_, ⟨goes_here ?_, ?_⟩, ⟨fedNode 0x0A00000000000000 [(.a, 1), (.b, 0)], ?_, ?_, goes_here ?_⟩,
    ⟨fedNode 0x0A00000000000000 [(.a, 1), (.b, 0), (.c, 1)], ?_, ?_, goes_here ?_⟩⟩ <;> decide +kernel

theorem witness_ChoosersComplete :
    (let s := at' 0x0700000000000000 [(.a, 5), (.b, 6), (.c, 1)]
     let all := [(Slot.a, one 5), (.b, one 6), (.c, one 1)]
     s.takes home 1 (hd .q) [.a, .b, .c] .a (one 5) [(.b, one 6), (.c, one 1)] ∧ predOf (hd .q) 0 all = .pass ∧
      tokOf all .c = some (one 1) ∧ (one 1).e = false ∧ tokOf all .a = some (one 5) ∧
      (s.drain home 1).outRoom home 1 ((s.drain home 1).targets home 1) 0 0 = true) ∧
    (let s := at' 0x0800000000000000 [(.a, 5), (.c, 0)]
     let all := [(Slot.a, one 5), (.c, one 0)]
     s.takes home 1 (hd .q) [.a, .c] .a (one 5) [(.c, one 0)] ∧ predOf (hd .q) 0 all = .pass ∧
      tokOf all .a = some (one 5) ∧ tokOf all .c = some (one 0) ∧
      (s.drain home 1).steerRoom home 1 0 (some 1) true = true) ∧
    (let s : State := { at' 0x0900000000000000 [(.b, 6)] with cycles := 1 }
     actsHere s = true ∧ ((s.drain home 1).inst? home).any (fun x => x.nodes[1]?.any fun nd =>
      nd.free && nd.mergeDue (s.drain home 1).cycles [(.b, one 6)] &&
      decide (x.mergePick 1 (hd .q) = some [(.b, one 6)] ∧ predOf (hd .q) 0 [(.b, one 6)] = .pass)) = true) := by
  refine ⟨⟨takes_here ?_, ?_⟩, ⟨takes_here ?_, ?_⟩, ?_⟩ <;> decide +kernel

/-- Each early row on its deciding inputs alone. -/
theorem witness_EarlyComplete :
    let sees := fun (s : State) (data : List Slot) (last : List (Slot × Tok) → Bool) (rule : EarlyRule) (l : List Present)
        (w : Word) =>
      actsHere s && ((s.drain home 1).inst? home).any fun x => x.nodes[1]?.any fun nd =>
        nd.free && decide (x.earlyPick 1 (hd .q) data last rule = some (0, 0, l, .data w true))
    sees (at' 0x0700400000000000 [(.a, 5), (.c, 1)]) [.a, .b, .c] selLast (selRule (hd .q)) [⟨.a, one 5, 0⟩, ⟨.c, one 1, 0⟩] 5 = true ∧
    sees (at' 0x0A00400000000000 [(.a, 0)]) [.a, .b] anyLast (joinRule (hd .q) false 2) [⟨.a, one 0, 0⟩] 0 = true ∧
    sees (at' 0x0B00400000000000 [(.b, 1)]) [.a, .b] anyLast (joinRule (hd .q) true 2) [⟨.b, one 1, 0⟩] 1 = true ∧
    (one 0).e = false ∧ (one 0).data.bit 0 = false ∧ (one 1).data.bit 0 ≠ false := by decide +kernel

/-- A new frame; the first iteration's end; and frame 1 held for the block tag. -/
theorem witness_LoopsComplete :
    (let s := at' 0x0E0000000000000F [(.a, 5)]
     s.takes home 1 (hd .q) [.a] .a (one 5) [] ∧ (∃ f v, ((s.drain home 1).settleFrames home).enterFrame home 1
       ⟨false, 0, 15⟩ 0 = some (f, v) ∧ v.outRoom home 1 (v.targets home 1) (iterTag f 0) 0 = true)) ∧
    (let s := at' 0x0D00000000002000 [(.a, 5), (.b, 1)]
     actsHere s = true ∧ ((s.drain home 1).carryEmit home 1).takes home 1 (hd .q) [.a, .b] .a (one 5) [(.b, one 1)] ∧
     ((((s.drain home 1).carryEmit home 1).drain home 1).node? home 1).any (fun nd =>
       !nd.ext.carries.1.any fun t => t.idx % nd.copies == 0 % nd.copies) = true) ∧
    (let t : Tok := ⟨5, 4096, 0, true, false⟩
     let s := (here ((fedNode 0x0F00000000002000 [(.a, 5)]).setBuf .a [.tok t 0])).modInst home fun x =>
       { x with frames := x.frames.set 1 (some ⟨0, 1, 1, 0, none, ⟨[], [], [], 0, [], 0⟩, 0⟩) }
     s.takes home 1 (hd .q) [.a] .a t [] ∧ (((s.drain home 1).settleFrames home).inst? home).any (fun y => (y.frameOf 4096).any fun fr =>
       (s.drain home 1).outRoom home 1 ((s.drain home 1).targets home 1) fr.outer 0) = true) := by
  refine ⟨⟨takes_here ?_, ⟨_, _, rfl, ?_⟩⟩, ⟨?_, takes_here ?_, ?_⟩, ⟨takes_here ?_, ?_⟩⟩ <;> decide +kernel

theorem witness_GeneratorsComplete :
    (let s := here (nodeOf 0x120000000000FFFF [])
     actsHere s = true ∧ (s.node? home 1).any (fun nd => decide (nd.outq = [] ∧ nd.antiOut = [] ∧ nd.ext.gens = [] ∧
       nd.fed.contains .a = false ∧ nd.fired.contains ⟨0, 0⟩ = false)) = true) ∧
    (let s := at' 0x1200000000000000 [(.a, 0)]
     (s.drain home 1).takes home 1 (hd .q) [.a] .a (one 0) [] ∧ (s.node? home 1).any (fun nd =>
       decide (nd.ext.gens = [] ∧ nd.fed.contains .a = true)) = true ∧ predOf (hd .q) 0 [(.a, one 0)] = .pass ∧
       (readyOf [(.a, one 0)] (one 0)).l = true) ∧
    (let s := at' 0x1300000000000000 [(.a, 5)]
     s.takes home 1 (hd .q) [.a] .a (one 5) [] ∧ predOf (hd .q) 0 [(.a, one 5)] = .pass ∧
      (s.drain home 1).outRoom home 1 ((s.drain home 1).targets home 1) 0 0 = true) ∧
    (GenSt.mk 0 0 0).count = 0 ∧ (GenSt.mk 0 65536 65535).next < (GenSt.mk 0 65536 65535).count ∧ 7 < Ty.o8.lanes := by
  refine ⟨?_, ⟨takes_here ?_, ?_⟩, ⟨takes_here ?_, ?_⟩, ?_⟩ <;> decide +kernel

/-- A first exit, a second one, and an index at the end of its jump table. -/
theorem witness_ExitsComplete :
    let s := at' 0x160000000000000 [(.a, 1)]
    let tab := fun (y : Inst) => { y with block := { y.block with jtabs := [⟨7, [64, 128]⟩] } }
    let u := s.modInst home tab
    let v := u.modInst home fun y => { y with exit := some ⟨0, 0, none, false, none⟩ }
    let w := (at' 0x160000000000000 [(.a, 2)]).modInst home tab
    u.goes home 1 (hd .q) [.a] 0 0 (ready 1 0 0) ∧ ((u.drain home 1).inst? home).any (fun x => decide (x.exit = none) &&
      x.block.jtabs[0]?.any fun t => decide (t.offs[1]? = some 128)) = true ∧
    v.goes home 1 (hd .q) [.a] 0 0 (ready 1 0 0) ∧ ((v.drain home 1).inst? home).any (fun x => x.exit.isSome &&
      x.block.jtabs[0]?.any fun t => decide ((1 : Word).toNat < t.offs.length)) = true ∧
    w.goes home 1 (hd .q) [.a] 0 0 (ready 2 0 0) ∧ ((w.drain home 1).inst? home).any (fun x =>
      x.block.jtabs[0]?.any fun t => decide (t.offs.length ≤ 2)) = true := by
  refine ⟨goes_here ?_, ?_, goes_here ?_, ?_, goes_here ?_, ?_⟩ <;> decide +kernel

/-! Witnesses: streams -/

theorem witness_StreamsComplete_red :
    let s := at' 0x8000000000000000 [(.a, 5)]
    s.takes home 1 (hd .q) [.a] .a (one 5) [] ∧ redInput (hd .q) ((s.drain home 1).env home) [(.a, one 5)] = some (some 5, false, 0) ∧
    ((s.drain home 1).node? home 1).any (fun nd =>
      (s.drain home 1).outRoom home 1 nd.targets 0 0 && !(nd.ext.reds.any fun e => due e.parts) &&
      let e := redStep .add .q ((s.drain home 1).env home) (readyOf [(.a, one 5)] (one 5)) (some 5, false) nd.ext.reds
      !e.1.empty && decide ((redValue .add .q ((s.drain home 1).env home) e.1).1 = some 5)) = true := by
  refine ⟨takes_here ?_, ?_⟩ <;> decide +kernel

/-- `QUNPK` at the first and at the third element of a block. -/
theorem witness_StreamsComplete_pack :
    (at' 0x6603000000080000 [(.a, 5)]).takes home 1 (hd .o8) [.a] .a (one 5) [] ∧
    packInput (hd .o8) [(.a, one 5)] = some (some 5) ∧
    (let t : Tok := ⟨5, 0, 0, false, false⟩
     let s := here ((fedNode 0x6701000000180000 [(.a, 5)]).setBuf .a [.tok t 0])
     s.takes home 1 (hd .f2) [.a] .a t [] ∧ packInput (hd .f2) [(.a, t)] = some (some 5) ∧
     ((s.drain home 1).node? home 1).any (fun nd =>
       decide ((unpackGap .f2 (packAt nd.ext.packs 0) 0).1 = [] ∧ 0 % 3 ≠ 2)) = true) ∧
    (let t : Tok := ⟨5, 0, 2, true, false⟩
     let s := here ((fedNode 0x6701000000180000 [(.a, 5)]).setBuf .a [.tok t 0])
     let v := s.modNode home 1 fun n => { n with ext := .pack [⟨0, [1, 2], 0⟩] }
     v.takes home 1 (hd .f2) [.a] .a t [] ∧ ((v.drain home 1).node? home 1).any (fun nd =>
       decide ((unpackGap .f2 (packAt nd.ext.packs 0) 2).2 = [1, 2] ∧ 2 % 3 = 2 ∧ 5 % 256 / 64 = Qt.bits .uniform ∧
         (packAt nd.ext.packs 0).out + 32 / Ty.f2.lanes ≤ 65536) &&
       (v.drain home 1).outRoom home 1 nd.targets 0 0) = true) := by
  refine ⟨takes_here ?_, ?_, ⟨takes_here ?_, ?_, ?_⟩, ⟨takes_here ?_, ?_⟩⟩ <;> decide +kernel

/-- `SHUF` takes an element of a, and then selects it with b. -/
theorem witness_StreamsComplete_shuf :
    let s := at' 0x8200000000000000 [(.a, 5)]
    let u := (at' 0x8200000000000000 [(.b, 0)]).modNode home 1 fun n =>
      { n with ext := .shuf [⟨0, [⟨5, 0, 0, true, false⟩], 1, true, false⟩] }
    actsHere s = true ∧ actsHere u = true ∧ ((s.drain home 1).node? home 1).any (fun nd =>
      nd.free && decide ((nd.singles [] (hd .q) false .a).head? = some [(.a, one 5)] ∧ predOf (hd .q) 0 [(.a, one 5)] = .pass)) = true ∧
    ((u.drain home 1).node? home 1).any (fun nd => nd.free && decide (nd.singles [] (hd .q) false .a = [] ∧
      (nd.singles [] (hd .q) true .b).head? = some [(.b, one 0)] ∧
      shufVerdict (hd .q) 0 (shufAt nd.ext.shufs 0) [(.b, one 0)] (one 0) = .data 5 true ∧
      (u.drain home 1).outRoom home 1 nd.targets 0 0 = true)) = true ∧
    ((u.drain home 1).inst? home).any (fun y => decide (y.waited 1 [.a, .b] = [])) = true := by decide +kernel

theorem witness_StreamsComplete_tree :
    let s := at' 0xCE00000000000000 [(.a, 1)]
    actsHere s = true ∧ optB s = [.a] ∧ ((s.drain home 1).node? home 1).any (fun nd =>
      nd.free && decide (nd.treeSets [] [.a] = [[(.a, one 1)]] ∧
        settle (hd .q) 0 0 [(.a, one 1)] = some (.settle .go (ready 1 0 0)) ∧
        treeTrap (treeAt nd.ext.trees 0) 0 1 = none)) = true ∧
    ((s.drain home 1).inst? home).any (fun y => y.nodes[1]?.any fun nd => y.setRoom nd [(.a, one 1)]) = true := by
  decide +kernel

/-- `ACCEPT`: the node list of one child of the root ends, the configuration word known; and a verdict that is due. -/
theorem witness_StreamsComplete_accept :
    let w : Word := 0x00000007000001FF
    let cfg : AcceptSt := { acceptAt [] 0 with cfg := some 0x2080 }
    let s := ((at' 0xCF00000000000000 [(.a, w)]).modInst home fun x => { x with nodes := x.nodes ++ [nodeOf 0x1400000000000000 [.a]] })
      |>.modNode home 0 (fun n => { n with routes := [some ⟨2, .a⟩] }) |>.modNode home 1 fun n => { n with ext := .accept [cfg] }
    let due := (here (nodeOf 0xCF00000000000000 [.a, .b])).modNode home 1 fun n =>
      { n with ext := .accept [{ cfg with verdict := some [1, 2, 3] }] }
    actsHere s = true ∧ actsHere due = true ∧ predOf (hd .q) 0 [(.a, one w)] = .pass ∧
    ((s.drain home 1).inst? home).any (fun y => y.nodes[1]?.any fun nd =>
      nd.free && decide (nd.verdictDue = none ∧ y.acceptPick 1 (hd .q) = some [(.a, one w)] ∧
        (acceptAt nd.ext.accepts 0).closed = false ∧ (acceptAt nd.ext.accepts 0).verdict = none ∧
        ((acceptAt nd.ext.accepts 0).entry (one w) w).cfg = some 0x2080 ∧
        ((acceptAt nd.ext.accepts 0).entry (one w) w).complete = true ∧
        acceptFault y 0x2080 ((acceptAt nd.ext.accepts 0).entry (one w) w) = none)) = true ∧
    ((due.drain home 1).node? home 1).any (fun nd => nd.free && nd.verdictDue.any fun e =>
      (due.drain home 1).outRoom home 1 nd.targets e.tag 0) = true := by decide +kernel

/-- Streams of one element and of six. -/
theorem witness_ReductionTree : ([5] : List Word) ≠ [] ∧ ([1, 2, 3, 4, 5, 6] : List Word) ≠ [] := by decide

theorem witness_BroadcastMoves :
    (at' 0x8303000000000000 [(.a, 5)]).goes home 1 (hd .o8) [.a] 0 0 (ready 5 0 0) ∧ 7 < Ty.o8.lanes ∧
    (at' 0x8300000000000000 [(.a, 5)]).goes home 1 (hd .q) [.a] 0 0 (ready 5 0 0) ∧
    (at' 0x8303800000000000 [(.a, 5)]).goes home 1 (hd .f) [.a] 0 0 (ready 5 0 0) := by
  refine ⟨goes_here ?_, ?_, goes_here ?_, goes_here ?_⟩ <;> decide +kernel

/-! Witnesses: barriers and scheduling -/

/-- Barrier 3 of the core is OPEN for slice 1, which awaits two arrivals. -/
def Sys2Proof.Tests.withBar (s : State) (b : BarKey) : State :=
  s.setBar b { Barrier.reset with state := .opened, owner := 1, gen := 1, e := 2 }

/-- The barrier rows on barrier 3 of the core; `BINIT` of a FREE one; `TAP` before and at its stream's end. -/
theorem witness_BarriersComplete :
    let b : BarKey := ⟨.core, 0, 3⟩
    let s := withBar (at' 0x8600000000003000 [(.a, 0)]) b
    let d := withBar (at' 0x8A00000000003000 [(.a, 0), (.b, 1000)]) b
    let arrives := fun (u : State) (op : Option (Word × Bop × Bool)) => match u.arrive home b op with | .trap _ _ => false | _ => true
    let tap := fun (l : Bool) => withBar (here ((fedNode 0x8400000000003000 [(.a, 0)]).setBuf .a [.tok ⟨5, 0, 0, l, false⟩ 0])) b
    s.goes home 1 (hd .q) [.a] 0 0 (ready 0 0 0) ∧ ((s.drain home 1).strand? home).any (fun t =>
      decide (barKey t.core ⟨.core, 3, .add, false⟩ = b)) = true ∧
    arrives (s.drain home 1) none = true ∧ arrives (s.drain home 1) (some (0, .max, true)) = true ∧
    ((s.drain home 1).slice? 1).any (fun x => (s.drain home 1).mayUse b x &&
      ((s.drain home 1).initBar x ⟨.core, 0, 4⟩ 65535).isSome && ((s.drain home 1).initBar x b 0).isSome) = true ∧
    d.goes home 1 (hd .q) [.a, .b] 0 0 (ready 0 1000 0) ∧ ((d.drain home 1).slice? 1).any ((d.drain home 1).mayUse b) = true ∧
    (∀ l : Bool, (tap l).takes home 1 (hd .q) [.a] .a ⟨5, 0, 0, l, false⟩ []) ∧
    ∀ l ∈ [true, false], settle (hd .q) 0 0 [(.a, ⟨5, 0, 0, l, false⟩)] = some (.settle .go ⟨0, 0, l, ⟨5, 0, 0⟩⟩) ∧
      ((tap l).drain home 1).outRoom home 1 (((tap l).drain home 1).targets home 1) 0 0 = true ∧
      arrives ((tap l).drain home 1) none = true := by
  refine ⟨goes_here ?_, ?_, ?_, ?_, ?_, goes_here ?_, ?_, ?_, ?_⟩
  case refine_8 => intro l; cases l <;> exact takes_here (by decide +kernel)
  all_goals decide +kernel

/-- The first and the second arrival of two, one at a BROKEN barrier, and one of a slice that is no owner. -/
theorem witness_ArrivalCounts :
    let b : BarKey := ⟨.core, 0, 3⟩
    let s := withBar (at' 0x8600000000003000 [(.a, 0)]) b
    let u := s.setBar b { s.bar b with a := 1 }
    let v := s.setBar b { s.bar b with state := .broken }
    let w := s.setBar b { s.bar b with owner := 2 }
    (s.slice? 1).any (fun x => (s.strand? home).any fun t =>
      s.mayUse b x && decide ((s.bar b).state = .opened ∧ (s.bar b).p < 2 ^ 32 ∧ s.arrivalPhase t b = (s.bar b).p ∧
        (s.bar b).a + 1 ≠ (s.bar b).e) && u.mayUse b x && decide ((u.bar b).state = .opened ∧
        u.arrivalPhase t b = (u.bar b).p ∧ (u.bar b).a + 1 = (u.bar b).e ∧ (u.bar b).n ≠ (u.bar b).e) &&
      v.mayUse b x && decide ((v.bar b).state = .broken) && !w.mayUse b x) = true ∧ barNum ⟨.core, 0, 4⟩ ≠ barNum b := by
  decide +kernel

theorem witness_SchedulingComplete :
    let s := mapped (at' 0x8B00000000000000 [(.a, 64)])
    let w := mapped (at' 0x9000000000000000 [(.a, 64), (.b, 2)])
    let f := (at' 0x8E00000000000000 [(.a, 255)])
    s.goes home 1 (hd .q) [.a] 0 0 (ready 64 0 0) ∧ optB s = [.a] ∧ ((s.drain home 1).slice? 1).isSome = true ∧
    okIs ((s.drain home 1).translate 0 (alignDown 64 64) 1 (.station home 1 0 0)) (fun l =>
      !(s.drain home 1).barred (some home) l.pa 64 &&
      !(((s.drain home 1).yardFor (.of 0) l l.pa 64).touchLoad 0 l l.pa).poisoned l.pa 64) = true ∧
    f.goes home 1 (hd .q) [.a] 0 0 (ready 255 0 0) ∧ ((f.drain home 1).fscope 255).state = .free ∧
    ((f.drain home 1).fscope 0).state = .opened ∧
    (w.drain home 1).goes home 1 (hd .q) [.a, .b] 0 0 (ready 64 2 0) ∧ actsHere w = true ∧
    ((w.drain home 1).strand? home).any (fun t => decide (t.counterWait 1 = none)) = true := by
  refine ⟨goes_here ?_, ?_, ?_, ?_, goes_here ?_, ?_, ?_, goes_here ?_, ?_, ?_⟩ <;> decide +kernel

/-- A `WAITC` that waits for 2, as its counter holds 1 and 2. -/
theorem witness_SchedulingComplete_waitc :
    let s := fun (n : Byte) => (({ mapped (here (nodeOf 0x9000000000000000 [.a, .b])) with mem := [(0x10040, n)] } : State).modStrand home
      fun t => { t with waits := [⟨1, one 0, [], .counter 64 2⟩] })
    ∀ p ∈ [((1 : Byte), true), (2, false)], let u := (s p.1).drain home 1
      okIs (u.translate 0 64 1 (.station home 1 0 0)) (fun l =>
        let y := u.yardFor (.of 0) l l.pa 8
        let v := y.touchLoad 0 l l.pa
        !u.barred (some home) l.pa 8 && !y.poisoned l.pa 8 && decide (rdWord v.mem l.pa < 2) == p.2 &&
        (v.strand? home).any fun t => t.firstWait 0 && (t.waits.map fun w => w.kind) == [.counter 64 2]) = true ∧
      (u.strand? home).any (fun t => decide (t.counterWait 1 = some 0) && decide (t.waits[0]?.map (fun w => w.kind) = some (.counter 64 2))) = true ∧
      actsHere (s p.1) = true ∧ actsHere (u.repoll home 0) = true ∧
      ((u.repoll home 0).drain home 1 |>.inst? home).any (fun y => (y.readies 1 (hd .q) [.a, .b] 0 0 true).isEmpty) = true := by
  decide +kernel

/-- The parent scopes 0 and 255, OPEN and FREE; an entry that is FREE, one that is DONE with none FREE, and none of either. -/
theorem witness_ScopeOpens :
    let full := fun (l : List (Nat × FScope)) => ({ State.reset with
      fscopes := (0, ⟨.opened, 0, 0, 0, 0⟩) :: (List.range 254).map (fun k => (k + 1, ⟨.closed, 0, 0, 0, 0⟩)) ++ l } : State)
    let done := full [(255, ⟨.done, 0, 0, 0, 0⟩)]
    State.reset.freeScope = some 1 ∧ 255 < 256 ∧ (State.reset.fscope 0).state = .opened ∧ (State.reset.fscope 255).state = .free ∧
    done.freeScope = some 255 ∧ (done.fscope 255).state = .done ∧ (full [(255, ⟨.closed, 0, 0, 0, 0⟩)]).freeScope = none := by
  decide +kernel

/-! Witnesses: memory -/

theorem witness_AccessesIssue_ld :
    let s := mapped (at' 0xA000000000000000 [(.a, 64)])
    s.goes home 1 (hd .q) [.a] 0 0 (ready 64 0 0) ∧ ((s.drain home 1).strand? home).isSome = true ∧
    okIs ((s.drain home 1).translate 0 (alignDown (effAddr 64 11 0 8) 8) 1 (.station home 1 0 0)) (fun _ => true) = true := by
  refine ⟨goes_here ?_, ?_, ?_⟩ <;> decide +kernel

theorem witness_AccessesIssue_ldx :
    let s := mapped (at' 0xA203800000000000 [(.a, 0xFFF8)])
    s.goes home 1 (hd .f) [.a] 0 0 (ready 0xFFF8 0 0) ∧
    okIs ((s.drain home 1).translate 0 (effAddr 0xFFF8 11 0 1) 1 (.station home 1 0 0)) (fun l => l.takes .f) = true := by
  refine ⟨goes_here ?_, ?_⟩ <;> decide +kernel

/-- `ST`, `STX` and, through a leaf with Y in an OPEN region, `UPD`. -/
theorem witness_AccessesIssue_st :
    let s := mapped (at' 0xA103800000000000 [(.a, 0xFFFC), (.b, 5)])
    let y : State := { (at' 0xAA03800000000000 [(.a, 0x100), (.b, 5)]) with tlb := [⟨0, 0, 65536, 0x20000000001000F⟩], regions := [(0, { Region.reset with base := 0, len := 4096, state := .opened, type := 4, opr := 2 })] }
    s.goes home 1 (hd .f) [.a, .b] 0 0 (ready 0xFFFC 5 0) ∧
    okIs ((s.drain home 1).translate 0 (alignDown (effAddr 0xFFFC 11 0 4) 4) 2 (.station home 1 0 0)) (fun l => l.takes .f) = true ∧
    y.goes home 1 (hd .f) [.a, .b] 0 0 (ready 0x100 5 0) ∧
    okIs ((y.drain home 1).translate 0 (effAddr 0x100 11 0 4) 2 (.station home 1 0 0)) (fun l =>
      decide ((y.drain home 1).updTrap (effAddr 0x100 11 0 4) .f l.y = none)) = true := by
  refine ⟨goes_here ?_, ?_, goes_here ?_, ?_⟩ <;> decide +kernel

/-- Bank 2 of the slice's own, its last word; and a FIFO with one entry. -/
theorem witness_AccessesIssue_local :
    let s := at' 0xA000000000000800 [(.a, 0xBFFF8)]
    let t := at' 0xA300000000000800 [(.a, 0xBFFF8), (.b, 5)]
    let f := (at' 0xA200000000000800 [(.a, 0x80018)]).setBank 0 2 ⟨.fifo, [List.replicate 32 7], [], [], 0⟩
    s.goes home 1 (hd .q) [.a] 0 0 (ready 0xBFFF8 0 0) ∧ (s.drain home 1).mayGo home 1 0 0 = true ∧
    (s.drain home 1).localMode home 0 (effAddr 0xBFFF8 11 0 8) = some .scratch ∧
    (s.drain home 1).barred (some home) (localPlace 0 0xBFFF8) 8 = false ∧
    (s.drain home 1).poisoned (localPlace 0 0xBFFF8) 8 = false ∧
    t.goes home 1 (hd .q) [.a, .b] 0 0 (ready 0xBFFF8 5 0) ∧ (t.drain home 1).mayGo home 1 0 0 = true ∧
    (t.drain home 1).localMode home 0 (effAddr 0xBFFF8 11 0 1) = some .scratch ∧
    ((s.drain home 1).inst? home).any (fun y => decide ((s.drain home 1).streamMode home (y.snapFor 0 1) 0 (effAddr 0xBFFF8 11 0 8) = some .scratch)) = true ∧
    (let g := f.modInst home fun y => { y with snap := f.snapshot 0 }
     ((g.drain home 1).inst? home).any (fun y => decide ((g.drain home 1).streamMode home (y.snapFor 0 1) 0 (effAddr 0x80018 11 0 1) = some .fifo)) = true) ∧
    f.goes home 1 (hd .q) [.a] 0 0 (ready 0x80018 0 0) ∧ (f.drain home 1).mayGo home 1 0 0 = true ∧
    (f.drain home 1).localMode home 0 (effAddr 0x80018 11 0 1) = some .fifo ∧
    ((f.drain home 1).bank (localCore 0 0x80018) (localBank 0x80018)).fifo = [List.replicate 32 7] ∧
    (0x80018 : Word).field 4 0 / 8 * 8 + 8 = 32 := by
  refine ⟨goes_here ?_, ?_, ?_, ?_, ?_, goes_here ?_, ?_, ?_, ?_, ?_, goes_here ?_, ?_, ?_, ?_, ?_⟩ <;> decide +kernel

/-- An access that has issued and not performed. -/
def Sys2Proof.Tests.issued (w : Word) (kind : AccKind) (ty : Ty) (leaf : Word) : State :=
  (here (fedNode w [])).modStrand home fun t => { t with pend := [⟨1, 0, 0, true, [], kind, 0x100, 5, ty, .random, ⟨0x10100, 0, 65536, leaf⟩⟩] }

theorem witness_AccessesPerform :
    (∀ p ∈ [(0xA000000000000000, AccKind.load), (0xA100000000000000, .store)], let s := issued p.1 p.2 .q 0x1000F
      (s.strand? home).any (fun t => t.pend[0]?.any fun a => s.mayPerform home 0 a && decide (a.kind = p.2 ∧ a.cls ≠ .streaming) &&
        !s.heldOff home a && !s.poisoned a.place a.bytes && !(s.arriveLoad home 0 a).poisoned a.scales.1 a.scales.2) = true) ∧
    (let s : State := { issued 0xAA03800000000000 .upd .f 0x20000000001000F with
      regions := [(0, { Region.reset with base := 0, len := 4096, state := .opened, type := 4, opr := 2 })], svcDies := 1, cfg := [] }
     (s.strand? home).any (fun t => t.pend[0]?.any fun a => s.mayPerform home 0 a && decide (a.kind = .upd ∧
       s.updTrap a.va a.ty a.at'.y = none ∧ s.regionAt false a.va.toNat = some 0 ∧ s.barred (some home) 0x10100 4 = false) &&
       ((s.takePlace home a.node a.tag a.idx).binUpdate 0 0x100 0x10100 5).isSome) = true) := by decide +kernel

theorem witness_StoreFrame :
    281474976710648 + 8 ≤ 281474976710656 ∧ (0 + 8 ≤ 8 ∧ 8 + 8 ≤ 281474976710656) ∧
    (let s := issued 0xA100000000000000 .store .q 0x1000F
     (s.strand? home).any (fun x => x.inst.any fun y => x.pend[0]?.any fun a =>
       decide (y.told = [] ∧ a.kind = .store ∧ a.at'.y = false ∧ a.at'.pa < 281474976710656) &&
       s.mayPerform home 0 a && !s.heldOff home a) = true ∧
     goesOn (exec (.storePerform home 0) s)) := by
  refine ⟨by decide, by decide, by decide +kernel, goes_on (by decide +kernel)⟩

/-- A load's reply, an `STX` through a page of CA = 10, and an `ATOM` of 8 bytes. -/
theorem witness_StoreFrame_others :
    (let s := issued 0xA000000000000000 .load .q 0x1000F
     (s.strand? home).any (fun x => x.pend[0]?.any fun a => !a.at'.y) = true ∧ goesOn (exec (.loadReply home 0) s)) ∧
    (let s := issued 0xA301800000000000 .stx .b4 0x8000000001000F
     (s.strand? home).any (fun x => x.pend[0]?.any fun a => let u := s.takePlace home a.node a.tag a.idx
       decide (a.at'.y = false ∧ a.at'.ca = 2 ∧ a.at'.pa < 281474976710656 ∧ (otherName a.place).isSome) &&
       (let ws := (a.writes (u.env home) (u.reader home a)).1
        !ws.isEmpty && ws.all fun w => decide (w.1 < 281474976710656))) = true ∧ goesOn (exec (.storePerform home 0) s)) ∧
    (let s := mapped (at' 0xA900000000000000 [(.a, 64), (.b, 0), (.c, 1)])
     s.goes home 1 (hd .q) [.a, .b, .c] 0 0 (ready 64 0 1) ∧ ((s.drain home 1).strand? home).any (fun z => decide (z.core = 0)) = true ∧
     okIs ((s.drain home 1).translate 0 (alignDown (effAddr 64 10 0 8) 8) 3 (.station home 1 0 0)) (fun l =>
       decide (l.y = false ∧ l.pa < 281474976710656)) = true ∧ goesOn (exec (.atom (hd .q) ⟨0, .cas, 0⟩) s)) := by
  refine ⟨⟨by decide +kernel, goes_on (by decide +kernel)⟩, ⟨by decide +kernel, goes_on (by decide +kernel)⟩,
    ⟨goes_here (by decide +kernel), by decide +kernel, by decide +kernel, goes_on (by decide +kernel)⟩⟩

namespace Sys2Proof.Tests

/-- Whether station 1 takes the last element of what it gathers, with these words. -/
def gathersB (s : State) (h : Hdr) (w : Want) (tag : Nat) (ws : List Word) : Bool :=
  let u := s.drain home 1
  actsHere s && match u.inst? home, u.node? home 1 with
  | some x, some nd => match x.nextPiece 1 nd (w.fed nd) h with
    | some ((sl, t) :: l) =>
      let all := (sl, t) :: l
      let own := all.filter fun e => decide (e.1 = lastSlot (w.fed nd)) || decide (e.1 = .p)
      let rest := all.filter fun e => decide (e.1 ≠ lastSlot (w.fed nd)) && decide (e.1 ≠ .p)
      match ((((nd.ext.gathers.find? fun g => g.tag == tag).getD ⟨tag, [], [], false, false⟩).addAll
        (rest.map fun e => pieceAt h own e.2)).bind fun g => g.add false (pieceAt h own t)) with
      | some g => nd.free && (x.strayPiece 1 nd (w.fed nd)).isNone && t.l && decide (t.tag = tag) && !g.skip && !g.forward &&
        decide (g.early ++ g.elems = ws) &&
        (!w.strict || decide (t.idx + 1 = g.elems.length ∧ w.need ≤ ws.length ∧ ws.length ≤ w.most (w.fed nd)))
      | none => false
    | _ => false
  | _, _ => false

/-- A station that gathers, by evaluation. -/
theorem gathers_here {s : State} {h : Hdr} {w : Want} {tag : Nat} {ws : List Word} (hd : gathersB s h w tag ws = true) :
    ∃ v, s.gathers home 1 h w tag ws v := by
  simp only [gathersB, Bool.and_eq_true] at hd
  obtain ⟨ha, hd⟩ := hd
  split at hd
  · rename_i x nd hx hn
    split at hd
    · rename_i sl t l hp
      split at hd
      · rename_i g hg
        simp only [Bool.and_eq_true, Bool.not_eq_true', decide_eq_true_eq, Bool.or_eq_true, Option.isNone_iff_eq_none] at hd
        obtain ⟨⟨⟨⟨⟨⟨⟨hf, hst⟩, hl⟩, ht⟩, hs⟩, hw⟩, he⟩, hk⟩ := hd
        refine ⟨_, acts_here ha, x, nd, sl, t, l, g, hx, hn, hf, hst, hp, hl, ht, hg, hs, hw, he, ?_, rfl⟩
        intro hstrict
        rcases hk with hk | hk
        · rw [hk] at hstrict; cases hstrict
        · exact hk
      · cases hd
    · cases hd
  · cases hd

end Sys2Proof.Tests

/-- `FOPEN` gathers the parent scope from its one-element stream. -/
theorem witness_SchedulingComplete_fopen :
    ∃ v, (at' 0x8D00000000000000 [(.a, 0)]).gathers home 1 (hd .q) ⟨[.a], 1, 2, false⟩ 0 [0] v := gathers_here (by decide +kernel)

/-- Slot a at the last word of bank 2, whose word is full for a load and empty for `STE`; `FESET` of the greatest count. -/
theorem witness_FullEmptyComplete :
    let k := localPlace 0 0xBFFF8
    let ws := (List.range 2).map fun n => (k - 281474976710656) / 4 + n
    let l := (at' 0xA400000000000800 [(.a, 0xBFFF8)]).setFull true ws
    let e := at' 0xA600000000000800 [(.a, 0xBFFF8), (.b, 5)]
    let f := at' 0xA800000000000800 [(.a, 0x80000), (.b, 65536), (.c, 1)]
    let ready' := fun (s : State) (want : Nat) => (s.strand? home).any fun t =>
      let q := (t.reqOf 1 0 0).getD ⟨1, 0, 0, ws, want, s.cycles⟩
      s.reqMet q && !s.servedLater home t q && decide (s.localMode home t.core 0xBFFF8 = some .scratch) && !s.barred (some home) k 8 &&
        s.mayGo home 1 0 0
    l.goes home 1 (hd .q) [.a] 0 0 (ready 0xBFFF8 0 0) ∧ ready' (l.drain home 1) 1 = true ∧ (l.drain home 1).poisoned k 8 = false ∧
    e.goes home 1 (hd .q) [.a, .b] 0 0 (ready 0xBFFF8 5 0) ∧ ready' (e.drain home 1) 0 = true ∧
    f.goes home 1 (hd .q) [.a, .b, .c] 0 0 (ready 0x80000 65536 1) ∧
    ((f.drain home 1).node? home 1).any (fun nd => decide (nd.ext.fesetRun = none)) = true ∧ (f.drain home 1).mayGo home 1 0 0 = true ∧
    (f.drain home 1).localMode home 0 0x80000 = some .scratch ∧ (0x80000 : Word).field 17 0 + 4 * 65536 ≤ 262144 := by
  refine ⟨goes_here ?_, ?_, ?_, goes_here ?_, ?_, goes_here ?_, ?_, ?_, ?_, ?_⟩ <;> decide +kernel

theorem witness_AtomicsComplete :
    let c := mapped (at' 0xA900000000000000 [(.a, 64), (.b, 0), (.c, 1)])
    let m := mapped (at' 0xAD00000000000000 [(.a, 64)])
    let free := fun (s : State) (l : Xlat) (n : Nat) => s.mayGo home 1 0 0 && !s.barred (some home) l.pa n &&
      !(s.yardFor (.of 0) l l.pa n).poisoned l.pa n
    c.goes home 1 (hd .q) [.a, .b, .c] 0 0 (ready 64 0 1) ∧
    okIs ((c.drain home 1).translate 0 (alignDown (effAddr 64 10 0 8) 8) 3 (.station home 1 0 0)) (fun l => free (c.drain home 1) l 8) = true ∧
    m.goes home 1 (hd .q) [.a] 0 0 (ready 64 0 0) ∧
    okIs ((m.drain home 1).translate 0 (alignDown (effAddr 64 11 0 32) 32) 1 (.station home 1 0 0)) (fun l =>
      let y := ((m.drain home 1).takePlace home 1 0 0).yardFor (.of 0) l l.pa 32
      free (m.drain home 1) l 32 && !y.poisoned l.pa 32 && !(y.touchLoad 0 l l.pa).hasTold home 1 0 0 && !(y.touchLoad 0 l l.pa).owesTag home 1 0 &&
        decide ((y.touchLoad 0 l l.pa).watches 0 < Config.watchSize)) = true ∧
    okIs ((m.drain home 1).translateBy 0 (alignDown (effAddr 64 11 0 64) 64) 0 (fun leaf => decide (leaf.field 3 1 ≠ 0))
      (.station home 1 0 0)) (fun _ => true) = true := by
  refine ⟨goes_here ?_, ?_, goes_here ?_, ?_, ?_⟩ <;> decide +kernel

/-- A watch that has seen a store, and one that has waited 2²⁰ cycles. -/
theorem witness_AtomicsComplete_watch :
    let s := (at' 0xAD00000000000000 [(.a, 64)]).modStrand home fun t =>
      { t with waits := [⟨1, one 0, [], .monitor 8 0 1⟩] }
    s.runs home = true ∧ (s.strand? home).any (fun z => z.firstWait 0 && z.waits[0]?.any fun w => decide (w.kind = .monitor 8 0 1)) = true ∧
    0 + 1048576 ≤ ({ s with cycles := 1048576 } : State).cycles := by decide +kernel

/-! Witnesses: tiles and messages -/

/-- Tile 15 of slot 0, 4 × 4 BF16 at the base of bank 2. -/
def Sys2Proof.Tests.tiled (s : State) (z : TileState) : State :=
  s.setTile 15 ⟨8, 4, 4, 2, 524288, true, z⟩

theorem witness_TilesComplete :
    let s := tiled (at' 0xAF0000000000000F [(.a, 0)]) .ready
    s.goes home 1 (hd .q) [.a] 0 0 (ready 0 0 0) ∧ ((s.drain home 1).strand? home).any (fun t =>
      decide (t.tileKey 15 = 15) && ((s.drain home 1).tile 15).defd && atTurn (s.drain home 1) t 1 (ready 0 0 0) 15 5) = true ∧
    (let d : State := { mapped (at' 0xAE0000000000000F [(.a, 0)]) with
       mem := [(0x10002, 8), (0x10003, 0x20), (0x10004, 4), (0x10006, 4), (0x10008, 8)] }
     d.goes home 1 (hd .q) [.a] 0 0 (ready 0 0 0) ∧ okIs ((d.drain home 1).translate 0 (alignDown 0 16) 1 (.station home 1 0 0)) (fun l =>
       let v := (d.drain home 1).yardFor (.of 0) l l.pa 16
       (d.drain home 1).mayGo home 1 0 0 && !(d.drain home 1).barred (some home) l.pa 16 && !v.poisoned l.pa 16 &&
       (v.strand? home).any fun t => atTurn v t 1 (ready 0 0 0) 15 5 &&
         (shapeOf ((wordsOf (v.rdAt l.pa 16) 2).getD 0 0) ((wordsOf (v.rdAt l.pa 16) 2).getD 1 0)).any
           (v.tileFits home t)) = true) ∧
    (let e := (tiled (at' 0xB20180000000000F [(.a, 12)]) .draining).modNode home 1 fun n => { n with ext := .tile (some 0) }
     let w := (tiled (at' 0xB30180000000000F [(.a, 12), (.b, 5)]) .filling).modNode home 1 fun n => { n with ext := .tile (some 0) }
     e.goes home 1 (hd .b4) [.a] 0 0 (ready 12 0 0) ∧ w.goes home 1 (hd .b4) [.a, .b] 0 0 (ready 12 5 0) ∧
     ∀ s ∈ [e, w], ((s.drain home 1).node? home 1).any (fun nd => decide (nd.ext.tileTag = some 0)) = true ∧
       (s.drain home 1).mayGo home 1 0 0 = true ∧ ((s.drain home 1).tile 15).trapOf .b4 12 = none ∧
       (let p := ((s.drain home 1).tile 15).span .b4 (((s.drain home 1).tile 15).at' 0 12)
        (s.drain home 1).spanOpen home 0 p.1 p.2 = true ∧ (s.drain home 1).barred (some home) p.1 p.2 = false ∧
          (s.drain home 1).poisoned p.1 p.2 = false)) := by
  refine ⟨goes_here ?_, ?_, ⟨goes_here ?_, ?_⟩, ⟨goes_here ?_, goes_here ?_, ?_⟩⟩ <;> decide +kernel

/-- `BANKMODE` of the strand's one bank, to the mode that it has and to another; bank 15 of another core. -/
theorem witness_TilesComplete_bank :
    let s := at' 0xB400000000000022 [(.a, 0)]
    s.goes home 1 (hd .q) [.a] 0 0 (ready 0 0 0) ∧
    ((s.drain home 1).bankOwner 0 2).any (fun o => decide (o.1 = home)) = true ∧ (s.drain home 1).mayGo home 1 0 0 = true ∧
    ((s.drain home 1).bank 0 2).mode = .scratch ∧ Mode.scratch ≠ .fifo ∧ ((s.drain home 1).bank 0 2).holds = false ∧
    (15 < 16 ∧ 262143 < 262144 ∧ 65535 < 65536 ∧ (127 ≠ 0 ∨ 2 ≠ 2)) := by
  refine ⟨goes_here ?_, ?_⟩ <;> decide +kernel

/-- `COPY` with its four operands gathered, no trap of R383; and `SEND` of eight words. -/
theorem witness_MessagesFire :
    (let s := (at' 0xC100000000000000 [(.a, 0x100), (.b, 0x200), (.c, 64)]).modNode home 1 fun n =>
       { n with bufC := [.tok ⟨64, 0, 0, false, false⟩ 0, .tok ⟨0x300, 0, 1, true, false⟩ 1] }
     let k : Ext := .gather [⟨0, [0x100, 0x200], [64], false, false⟩]
     let g := s.modNode home 1 fun n => { n with bufA := [], bufB := [], bufC := [.tok ⟨0x300, 0, 1, true, false⟩ 1], ext := k }
     (∃ m, msgRule (.copy (hd .q) false ⟨false, 0, 0⟩) = some m ∧ ∃ v, g.gathers home 1 m.hdr m.want 0 [0x100, 0x200, 64, 0x300] v)) ∧
    (let k : Ext := .gather [⟨0, [], [1, 2, 3, 4, 5, 6, 7], false, false⟩]
     let s := (at' 0xC000000000000000 [(.a, 0)]).modNode home 1 fun n => { n with bufA := [.tok ⟨8, 0, 7, true, false⟩ 0], ext := k }
     ∃ v, s.gathers home 1 (hd .q) ⟨[.a], 8, 8, true⟩ 0 [1, 2, 3, 4, 5, 6, 7, 8] v) ∧
    (let s := at' 0xC100000000000000 []
     (s.strand? home).any (fun t => decide (s.messageTrap home t (messageWords 0 1 false ([0x100, 0x200, 64, 0], 0x300)) = none)) = true) := by
  refine ⟨⟨_, rfl, gathers_here ?_⟩, gathers_here ?_, ?_⟩ <;> decide +kernel

theorem witness_OperandsGathered :
    let w : Want := ⟨[.a, .b], 2, 3, true⟩
    let nd := fedNode 0xCC00000000040000 [(.a, 7), (.b, 64)]
    let s := here nd
    s.acts home 1 ∧ (s.inst? home).any (fun x => decide (x.nodes[1]? = some nd)) = true ∧ nd.outq = [] ∧ nd.antiOut = [] ∧
    (hd .q).pv = false ∧ w.slots = [.a, .b] ∧ nd.fed = w.slots ∧ nd.buf .a = [.tok (one 7) 0] ∧ nd.buf .b = [.tok (one 64) 0] ∧
    nd.ext.gathers = [] ∧ w.need ≤ w.slots.length ∧ w.slots.length ≤ w.all := by
  refine ⟨acts_here ?_, ?_⟩ <;> decide +kernel

/-- A message that issues, an operation that has ended with a done token and one with a counter. -/
theorem witness_MessagesRun :
    let ws := messageWords 0 1 false ([0x100, 0x200, 64, 0], 64)
    let s := (at' 0xC100000000000000 []).modStrand home fun t => { t with msgs := [⟨1, 0, ws, false, true, [], [], none, 0⟩] }
    let o : Op := op 0 ws .ended
    let u : State := { s with ops := [o] }
    (s.strand? home).any (fun t => t.msgs[0]?.any fun m => s.runs home && decide (m.fault = none ∧ m.done = false ∧ s.leavesAfter t 0 m = false ∧
      m.fills ++ m.drains = [] ∧ s.inboxLoad (inboxOf m.words) < Config.inboxSize) && s.msgTurn t m) = true ∧
    (u.op? 0).any (fun o => decide (o.stage = .ended ∧ o.trap = none ∧ o.done = false) &&
      (({ u with ops := [] } : State).replyCounter { o with words := ws.set 7 0 }).isSome) = true ∧
    ({ o with done := true } : Op).done = true ∧ 2 ^ 64 - 1 < 2 ^ 64 ∧ (2 ^ 40 - 8) + 8 ≤ 2 ^ 40 := by decide +kernel

/-- R82: the block of One Strand on One Core maps on a one-page region with 186 commands; its first is BEGIN of one page, its last
END, and station 10, which it does not use, has the upper quarter of `NOP`. -/
theorem test_mapping_stream :
    let ws : List Word := [0x0000000000000100, 0x0100010600000001, 0x0100010843800002, 0x3900090C00000000, 0xA000010A43A00000,
      0x3900090C80000054, 0x0A00411044800000, 0xA100000000004001, 0x0200000000000003, 0x1500000000000000]
    (mapStream 1 ws).length = 186 ∧ (mapStream 1 ws).head? = some 0xFFF00001 ∧ (mapStream 1 ws).getLast? = some 0xFFF10000 ∧
    (mapStream 1 ws)[131]? = some 0x05031A00 := by decide +kernel

/-! Witnesses: system -/

/-- A slice beside slice 1, without strands, with an image. -/
def Sys2Proof.Tests.beside (s : State) (z : Status) : State :=
  { s with slices := s.slices ++ [{ Slice.begin 2 0 0 false 0 0 [] [] with status := z, image := some ⟨0x40, 0, 64, 8, [(2, 2)]⟩ }] }

/-- `at'` with slice 2 frozen by `FREEZE` beside slice 1, and a pool of `n` bytes at virtual address 0x400. -/
def Sys2Proof.Tests.besideFrozen (w : Word) (l : List (Slot × Word)) (n : Word) : State :=
  let s := paged (at' w l) []
  let z := { Slice.begin 2 0 0 false 0 0 (List.replicate 8 0) [] with status := .frozen, cause := 2 }
  { s with slices := s.slices ++ [z], imgbase := 0x400, imgsize := n }

theorem witness_SystemComplete :
    let s := at' 0xE10000000000003F [(.a, 0)]
    let p := mapped (at' 0xE300000000000000 [(.a, 0)])
    s.goes home 1 (hd .q) [.a] 0 0 (ready 0 0 0) ∧ ((s.drain home 1).slice? 1).any (fun x => x.sup) = true ∧
    ((s.drain home 1).inst? home).isSome = true ∧
    (let land := nodeOf 0x0000010241000000 []
     let x3 := fun (y : Inst) => { y with nodes := [land, fedNode 0xE300000000000000 [(.a, 0)], nodeOf 0x1500000000000000 [.a]], block := { y.block with exits := [0] } }
     let q := ({ p with mem := [(0x10001, 0x80), (0x10002, 0xF0), (0x10003, 0xFF), (0x10006, 0xF1), (0x10007, 0xFF)] } : State).modInst home x3
     q.goes home 1 (hd .q) [.a] 0 0 (ready 0 0 0) ∧ ((q.drain home 1).inst? home).any (fun y =>
       !(y.nodes.any fun nd => !nd.pend.isEmpty) && match (q.drain home 1).readStream home 0 1 0 0 257 0 [] with
       | .ok _ cmds => (match patchOf 1 cmds with
         | some (ws, _) => decide (y.patchFault 1 (y.withWrites ws) (y.spareWrites ws) = none)
         | none => false)
       | _ => false) = true) ∧
    (let t := at' 0xE400000000000000 [(.a, 0), (.b, 0)]
     t.goes home 1 (hd .q) (optB t) 0 0 (ready 0 0 0) ∧ (optB t).contains .b = true) ∧
    (at' 0xE800000000000000 [(.a, 0)]).goes home 1 (hd .q) (optB (at' 0xE800000000000000 [(.a, 0)])) 0 0 (ready 0 0 0) := by
  refine ⟨goes_here ?_, ?_, ?_, ⟨goes_here ?_, ?_⟩, ⟨goes_here ?_, ?_⟩, goes_here ?_⟩ <;> decide +kernel

/-- A slice in each status; its own number and one that no slice has; `FREEZE` of a frozen slice that asks for the image, with
room in the pool and without; `THAW` of a written image, of an address that holds none, and of a slice frozen in place. -/
theorem witness_SliceControlComplete :
    let is := fun (s : State) (a : Word) (z : Status) => match (s.drain home 1).named home a with
      | .ok x => decide (x.status = z ∧ x.candidate = false)
      | .error _ => false
    let no := fun (s : State) (a : Word) (c : Nat) => match (s.drain home 1).named home a with | .ok _ => false | .error k => k == c
    let f := fun (z : Status) (a : Word) => beside (at' 0xE500000000000000 [(.a, a)]) z
    (∀ z, (f z 2).goes home 1 (hd .q) [.a] 0 0 (ready 2 0 0) ∧ optB (f z 2) = [.a] ∧ is (f z 2) 2 z = true) ∧
    no (f .running 1) 1 2 = true ∧ no (f .running 3) 3 1 = true ∧ ((f .running 2).slice? 1).any (fun x => x.sup) = true ∧
    (let w := fun (n : Word) => besideFrozen 0xE500000000000000 [(.a, 2), (.b, 1)] n
     let out := fun (n : Word) => ((w n).drain home 1).slice? 2 |>.bind fun z =>
       (((((w n).drain home 1).overtake z .freeze).beginWait home 1 (hd .q) [.a, .b] (ready 2 1 0) (.freeze 2 true)).freezeOut z).map fun _ => ()
     (w 0x400).goes home 1 (hd .q) [.a, .b] 0 0 (ready 2 1 0) ∧ optB (w 0x400) = [.a, .b] ∧ is (w 0x400) 2 .frozen = true ∧
     out 0x400 = some () ∧ (w 0).goes home 1 (hd .q) [.a, .b] 0 0 (ready 2 1 0) ∧ is (w 0) 2 .frozen = true ∧ out 0 = none) ∧
    (let i := ((besideFrozen 0xE600000000000000 [(.a, 0x400)] 0x400).writeOut 2).getD State.reset
     i.goes home 1 (hd .q) (optB i) 0 0 (ready 0x400 0 0) ∧
     (match (i.drain home 1).thawImage home 0x400 with | .ok (_, id) => id == 2 | .error _ => false) = true ∧
     (match (i.drain home 1).thawImage home 0x401 with | .ok _ => false | .error c => c == 4) = true) ∧
    no (beside (at' 0xE600000000000000 [(.a, 0x8000000000000003)]) .running) 0x8000000000000003 1 = true ∧
    is (beside (at' 0xE600000000000000 [(.a, 0x8000000000000002)]) .running) 0x8000000000000002 .running = true ∧
    (let b := mapped (beside (at' 0xE600000000000000 [(.a, 0x8000000000000002), (.b, 64)]) .frozen)
     b.goes home 1 (hd .q) [.a, .b] 0 0 (ready 0x8000000000000002 64 0) ∧ is b 0x8000000000000002 .frozen = true ∧
     ((b.drain home 1).strand? home).any (fun t => match (b.drain home 1).headersAt home t 1 (ready 0x8000000000000002 64 0) 0 with
       | .ok _ _ => true | _ => false) = true) := by
  refine ⟨?_, ?_, ?_, ?_, ⟨goes_here ?_, ?_, ?_, ?_, goes_here ?_, ?_, ?_⟩, ⟨goes_here ?_, ?_, ?_⟩, ?_, ?_, ⟨goes_here ?_, ?_, ?_⟩⟩
  case refine_1 => intro z; cases z <;> exact ⟨goes_here (by decide +kernel), by decide +kernel, by decide +kernel⟩
  all_goals decide +kernel

theorem witness_PrivilegeTraps :
    let s := (at' 0xE100000000000020 [(.a, 0)]).modSlice 1 fun x => { x with sup := false }
    (s.drain home 1).isSup home = false ∧ optB s = [.a] ∧ s.goes home 1 (hd .q) [.a] 0 0 (ready 0 0 0) ∧
    32 ≤ (32 : BitVec 6).toNat := by
  refine ⟨?_, ?_, goes_here ?_, ?_⟩ <;> decide +kernel

/-- A first trap and a second one; a frozen slice whose strand runs an instance. -/
theorem witness_TrapAndReturn :
    let s := at' 0xE0000000000000A5 [(.a, 0)]
    (s.slice? 1).any (fun x => decide (x.trap = none ∧ x.status = .running)) = true ∧ (s.strand? home).any (fun t => t.inst.isSome) = true ∧
    ((s.trapStation home 1 0x08 0 0 0 0 0).slice? 1).any (fun x => x.trap.isSome) = true := by decide +kernel

/-! Witnesses: instances, slices and queues -/

/-- The block of the instance, in its core's cache, and an image of one `EXIT` at virtual address 0. -/
theorem witness_InstancesComplete_fetch :
    let s := (at' 0x1100000000000000 []).modStrand home fun t => { t with inst := none }
    let b : Block := ⟨0, 64, [0], [], [], [], 0, 0, false, [], []⟩
    let c : State := { s with cfgCache := [⟨0, 0, 1, b⟩] }
    let i : State := { mapped s with mem := [(0x10000, 2), (0x10001, 0x11), (0x10007, 1), (0x10008, 64), (0x10024, 2), (0x10025, 1), (0x1002F, 0x15)] }
    (c.slice? 1).any (fun x => x.live && (c.strand? home).any (fun t =>
      !t.ended && t.inst.isNone && decide (c.walks = []) && (c.cached x t).isSome && decide (t.check = none))) = true ∧
    (i.slice? 1).any (fun x => (i.strand? home).any fun t => (i.cached x t).isNone && decide (t.pc.toNat % 64 = 0) &&
      match i.spansOf t.core 4 (.fetch home) 4 t.pc.toNat 32 [] with
      | .ok v l => l.all (fun p => !v.barred (some home) p.1 p.2.1 && !v.poisoned p.1 p.2.1) && match v.readSpans t.core l with
        | (w, bs) =>
          let h := imageHdr (wordAt bs 0) (wordAt bs 8)
          hdrOk (wordsOf bs 4) && decide (h.fixed ≤ h.size ∧ h.size ≤ h.most) &&
          match w.spansOf t.core 4 (.fetch home) 4 t.pc.toNat h.size [] with
          | .ok v2 l2 => l2.all (fun p => !v2.barred (some home) p.1 p.2.1 && !v2.poisoned p.1 p.2.1) &&
              match v2.readSpans t.core l2 with
              | (_, bs2) => decide (leastFault (imageFaults (imageOf bs2) 1) = none)
          | _ => false
      | _ => false) = true := by decide +kernel

/-- A quiescent instance whose exit has fired. -/
theorem witness_InstancesComplete_commit :
    let s := (here (nodeOf 0x1100000000000000 [.a])).modInst home fun y => { y with exit := some ⟨0, 64, none, false, none⟩ }
    let u := s.modNode home 0 fun n => { n with fired := [⟨0, 0⟩] }
    (u.slice? 1).any (fun x => x.live && (u.strand? home).any fun t => t.inst.any fun y =>
      let z := t.settleFrames y
      u.stillBut home t z && decide (u.walks = [] ∧ t.tilesAwaited z = [] ∧ z.dangling = none) && z.exit.any fun c =>
        (match ((u.commitRegs home z).keepPatch (some x) t z).stackStep home x c with | .ok _ _ => true | _ => false) &&
        decide (z.yield = none ∧ c.pop = false)) = true := by decide +kernel

/-- A block that writes registers 0, 12, 14, 32, 39 and 40, the last an item of the job's that its condition accepts. -/
theorem witness_InstancesComplete_registers :
    let s := (here (nodeOf 0x1100000000000000 [.a])).modSlice 1 fun x => { x with desc := x.desc.set 4 0 }
    let u := s.modInst home fun y => { y with swrites := [(40, 0x400000), (39, 0x600), (0, 1), (12, 0x100), (14, 0), (32, 5)] }
    (u.strand? home).any (fun t => t.inst.any fun y => decide ((y.swrites.filter fun e => e.1 == 40) = [(40, 0x400000)] ∧
      (u.commitRegs home y).selected = (0, 6, 0) ∧ cfgListed 0 6 0 = true ∧ u.cfgOk 0 6 0 0x400000 = true ∧
      lastWrite y.swrites 12 = some 0x100 ∧ lastWrite y.swrites 35 = none)) = true := by decide +kernel

/-- A carve-out of 64 frames: a push of its last frame and of one beyond it, a pop of each, and both stops of a bank in CACHE mode. -/
theorem witness_InstancesComplete_stack :
    let s := mapped ((here (nodeOf 0x1100000000000000 [.a])).modSlice 1 fun x => { x with desc := x.desc.set 3 0x0001FFFFFFFFFFFF })
    let at' := fun (d : Nat) (p : Word) => s.modStrand home fun t => { t with csdepth := d, ovfptr := p }
    let call : Choice := ⟨0, 64, some (128, 7), false, none⟩
    let ret : Choice := ⟨0, 0, none, true, none⟩
    let look := fun (s : State) (f : Slice → Strand → Bool) => (s.slice? 1).any fun x => (s.strand? home).any (f x)
    let spans := fun (s : State) (acc va : Nat) => match s.spansOf 0 acc (.commit home) 2 va 16 [] with
      | .ok v l => l.all fun p => !v.barred (some home) p.1 p.2.1 && !v.poisoned p.1 p.2.1
      | _ => false
    let traps := fun (s : State) (va : Nat) => match s.spansOf 0 2 (.commit home) 2 va 16 [] with | .trap _ _ => true | _ => false
    call.pop = false ∧ call.push = some (128, 7) ∧ ret.pop = true ∧ 7 < 65536 ∧
    look (at' 63 0) (fun x t => decide (x.carveSize / 16 = 64 ∧ t.csdepth < 64) && (at' 63 0).carveOpen x t 63) = true ∧
    look (at' 64 0x100) (fun x t => decide (64 ≤ t.csdepth) && (at' 64 0x100).carveOpen x t 63 &&
      !(at' 64 0x100).poisoned (x.carveAt t 63) 16) = true ∧ spans (at' 64 0x100) 2 0x100 = true ∧
    look (at' 65 0x110) (fun _ t => decide (64 < t.csdepth ∧ (t.ovfptr - 16).toNat = 0x100)) = true ∧ spans (at' 65 0x110) 1 0x100 = true ∧
    look ((at' 63 0).setBank 0 2 Bank.cache) (fun x t => !((at' 63 0).setBank 0 2 Bank.cache).carveOpen x t 63) = true ∧
    traps ({ at' 64 0 with tlb := [⟨0, 0, 65536, 0x10003⟩] } : State) 0 = true := by decide +kernel

/-- An anti-token at a station whose one target has cancelled; and a station whose switch token has come. -/
theorem witness_InstancesComplete_anti :
    let s := (at' 0x0500000000000000 [(.a, 5)]).modNode home 1 fun n => { n with routes := [some ⟨0, .a⟩], antis := [(0, ⟨0, 0⟩)] }
    let u := (at' 0x0500000000000000 []).modNode home 1 fun n => { n with fed := [.a], bufA := [.switch 1] }
    let v := u.modNode home 0 fun n => { n with word := 0x0500000000000000, routes := [some ⟨1, .a⟩] }
    let a : Anti := ⟨0, 0⟩
    let o := (s.modNode home 1 fun n => { n with fired := [a] }).modStrand home fun t => { t with waits := [⟨1, one 0, [], .append⟩] }
    (s.node? home 1).any (fun nd => nd.antis[0]?.any fun p => decide (p = (0, ⟨0, 0⟩) ∧ nd.sent.contains p = false ∧
      nd.holdsAnti (effectfulOp nd.op) p.2 = false ∧ nd.absorbs = false ∧ nd.fired.contains p.2 = false) &&
      nd.targets.all fun g => g == 0 || nd.withheld.contains (g, p.2)) = true ∧
    (s.node? home 0).any (fun nd => nd.absorbs) = true ∧
    (o.node? home 1).any (fun nd => nd.antis[0]?.any fun p => decide (p = (0, a) ∧ nd.sent.contains p = false ∧
      nd.holdsAnti (effectfulOp nd.op) a = false ∧ nd.absorbs = false ∧ nd.fired.contains a = true) &&
      (nd.targets.all fun g => g == 0 || nd.withheld.contains (g, a)) && (o.strand? home).any fun t => t.owesElem 1 a) = true ∧
    (v.inst? home).any (fun y => y.canAdopt 1 && y.nodes[1]?.any fun nd => nd.free) = true := by decide +kernel

/-- A walk that ends in a leaf, one that faults, and one that misses with no record posted. -/
theorem witness_InstancesComplete_walk :
    let w : Walk := ⟨0, 0x10, 1, .station home 1 0 0, false⟩
    let s : State := { paged State.reset [] with walks := [w] }
    let m : State := { State.reset with walks := [w] }
    let f : State := { s with mem := wrBytes s.mem 0x5000 [0x8F] }
    s.walks[0]? = some w ∧ w.posted = false ∧ w.who ≠ .unit ∧ s.walkRuns w = true ∧ f.walkRuns w = true ∧ m.walkRuns w = true ∧
    (match f.walkVia 0 0x10 with | (.fault, _) => true | _ => false) = true ∧
    (match s.walkVia 0 0x10 with | (.leaf _, _) => true | _ => false) = true ∧
    (match m.walkVia 0 0x10 with | (.miss, u) => u.walks.all fun v => !v.posted | _ => false) = true := by decide +kernel

theorem witness_SliceEvents :
    let s := at' 0x1100000000000000 []
    let z := fun (t : Status) => s.modSlice 1 fun x => { x with status := t }
    let e := s.modStrand home fun t => { t with ended := true, inst := none }
    let k := e.modSlice 1 fun x => { x with yield := some (0, 0) }
    ((z .waving).slice? 1).any (fun x => decide (x.status = .waving)) = true ∧
    ((z .halting).slice? 1).any (fun x => decide (x.status = .halting) && !(z .halting).stillPerforms x &&
      !(z .halting).ops.any x.touchedBy) = true ∧
    (((z .frozen).modSlice 1 fun x => { x with candidate := true }).slice? 1).any (fun x =>
      decide (x.status = .frozen ∧ x.candidate = true)) = true ∧
    ((s.modSlice 1 fun x => { x with budget := 0 }).slice? 1).any (fun x => x.live && decide (x.budget = 0)) = true ∧
    (e.slice? 1).any (fun x => e.ends x && decide (x.yield = none)) = true ∧
    (k.slice? 1).any (fun x => k.ends x && decide (x.yield = some (0, 0))) = true ∧
    (let b : BarKey := ⟨.core, 0, 3⟩
     let d := (s.setBar b { Barrier.reset with state := .opened, e := 2, dl := some 5 })
     (d.bar b).dl = some 5 ∧ (d.bar b).state = .opened ∧ b.scope ≠ .pod ∧ 5 ≤ ({ d with cycles := 3 } : State).now) ∧
    ({ s with cycles := 16 } : State).ptTicks < 16 / 16 ∧ 129 < 130 := by decide +kernel

namespace Sys2Proof.Tests

/-- Queue 0, of generation 1, as its table entry at virtual address 0 gives it: four entries from 0x400, PUB at 0x200. -/
def queued (s : State) (z : QState) (l : List Snap) : State :=
  s.setQueue 0 ⟨0x400, 0x200, 1, 2, z, 0, 0, l⟩

/-- The table entry of queue 0 with a state code, and PUB. -/
def tableOf (code pub : Byte) : List Host.Cell :=
  [(0x10001, 4), (0x10009, 2)] ++ (if code = 0 then [] else [(0x10010, code)]) ++ [(0x10014, 2)] ++
    (if pub = 0 then [] else [(0x10200, pub)])

/-- Whether an append is made. -/
def isMade (a : Appended) : Bool := match a with | .ok _ _ => true | _ => false

/-- Whether an element access is made. -/
def isMadeIo (r : Io) : Bool := match r with | .ok _ _ => true | _ => false

/-- A package whose one operation stands in inbox `k` with these words. -/
def withOp (k : Nat) (ws : List Word) (z : OpStage) : State := { mapped (at' 0x1100000000000000 []) with ops := [op k ws z] }

/-- The one operation with the units that it has left. -/
def going (s : State) (l : List (Nat × Nat)) : State := s.modOp 0 fun o => { o with left := l }

/-- Unit `u` of the one operation has read `n` bytes of zero. -/
def hasRead (s : State) (u n : Nat) : State := s.modOp 0 fun o => o.setProg ⟨u, [(0, List.replicate n 0)], []⟩

/-- Whether the next access of a unit is a read that is made. -/
def readMade (s : State) (o : Op) (u : Nat) (ps : List Span) : Bool :=
  !(o.toRead u ps).isEmpty && isMadeIo (firstIo (fun s p => s.spanRead o p) s (o.toRead u ps)).2

/-- Whether all reads of a unit are made, and the first of its writes can be. -/
def writeMade (s : State) (o : Op) (u : Nat) (ps : List Span) (ws : List (Span × List Byte)) : Bool :=
  (o.toRead u ps).isEmpty && !(o.toWrite u ws).isEmpty
    && isMadeIo (firstIo (fun s w => s.spanWrite o w.1 w.2) s (o.toWrite u ws)).2

/-- Whether unit `u` of the one operation, which is under way, can make its access, a read. -/
def planReads (s : State) (oper u : Nat) (plan : State → Op → Nat → Move1) : Bool :=
  (s.op? 0).any fun o => o.transfers oper && decide (o.stage = .active) && (pickUnit o.left u).isSome && match plan s o u with
    | .read v _ p => isMadeIo (v.spanRead o p)
    | _ => false

/-- Whether it can make its access, a write. -/
def planWrites (s : State) (oper u : Nat) (plan : State → Op → Nat → Move1) : Bool :=
  (s.op? 0).any fun o => o.transfers oper && decide (o.stage = .active) && (pickUnit o.left u).isSome && match plan s o u with
    | .write v p bs => isMadeIo (v.spanWrite o p bs)
    | _ => false

/-- The one operation with all its units left, and with what its units up to `k` leave once they have made their accesses. -/
def moved (s : State) (units k : Nat) (plan : State → Op → Nat → Move1) : State :=
  (List.range k).foldl (fun s u => (s.op? 0).elim s fun o => (plan s o u).run 0 u o id) (going s [(0, units)])

/-- Whether the one operation may start as one of a kind. -/
def starts (s : State) (oper : Nat) : Bool := (s.op? 0).any fun o => decide (o.stage = .inbox) && o.transfers oper && s.mayStart 0 o

end Sys2Proof.Tests

theorem witness_QueueEvents_table :
    (∀ p ∈ [((0 : Byte), QState.disabled), (1, .enabled), (2, .error), (3, .paged)],
      let s := paged State.reset (tableOf p.1 0)
      (s.tableWords 0).any (fun ws => decide ((entryOf ws).state = p.2)) = true ∧
      (s.cons ((s.tableWords 0).elim QEnt.reset entryOf)).isSome = true) ∧ (State.reset.queue 0).state ≠ .enabled ∧
    8191 < Config.queues := by decide +kernel

theorem witness_QueueEvents_read :
    let s := queued (paged State.reset (tableOf 1 4)) .enabled []
    (s.queue 0).state = .enabled ∧ (s.unitAt (s.queue 0).rbase 1).isSome = true ∧
    (s.pub (s.queue 0) 1).any (fun b => (s.cons (s.queue 0)).any fun d => decide (d.2 ≤ b.2 ∧ b.2 = d.2 + 2 ^ (s.queue 0).log) &&
      (s.readEntries 0 (b.2 - max d.2 (s.queue 0).read) (max d.2 (s.queue 0).read)).isSome) = true := by decide +kernel

theorem witness_QueueEvents_append :
    let s := (queued (paged (at' 0x8B00000000000000 []) (tableOf 1 3)) .enabled []).modStrand home fun t =>
      { t with waits := [⟨1, one 0, [], .append⟩] }
    s.runs home = true ∧ isMade (s.appendPlain (some home) 0x10000 [0, 0, 0, 0, 0, 0, 0, 0]) = true ∧
    (match s.appendPlain (some home) 0x10000 [0] with | .ok u _ => (u.strand? home).any fun t => decide (t.waitOf 1 0 0 = some 0) | _ => false) = true ∧
    isMade (s.appendCont 0x10000 [0]) = true := by decide +kernel

/-- An entry of zeros is refused; `oneStrand` starts on core 0, or finds no core; an evicted slice is placed. -/
theorem witness_QueueEvents_pass :
    let n : Snap := ⟨0, oneStrand, false, false⟩
    let q := fun (m : Snap) (s : State) => queued (paged s []) .enabled [m]
    let served : State := { State.reset with inService := [(0, true)] }
    let idle := fun (s : State) => decide (s.slices.find? Slice.toMove = none ∧ (∀ x ∈ s.slices, x.leaving = false) ∧ s.clearing = false ∧ s.view ≠ s.passView)
    let cand := fun (s : State) => ({ s with passView := s.view } : State).firstCand
    let z : Snap := ⟨0, List.replicate 8 0, false, false⟩
    let on := fun (l : List Nat) => Slice.begin 2 0 0 false 0 0 oneStrand l
    let ev := { on [0] with status := .evicted, candidate := true, strands := (on [128 * 3]).strands }
    let mv : State := { State.reset with slices := [{ on [0] with status := .frozen, cause := Cause.thin.bit, moving := true }] }
    let e : State := { served with slices := [ev] }
    (mv.slices.find? Slice.toMove).isSome = true ∧ idle (q z served) = true ∧ cand (q z served) = some (.head 0 z) ∧ (served.refusalOf z).isSome = true ∧
    idle (q n served) = true ∧ cand (q n served) = some (.head 0 n) ∧ (q n served).refusalOf n = none ∧
    ((q n served).placeCand [] (.head 0 n)).isSome = true ∧ ((q n State.reset).placeCand [] (.head 0 n)).isNone = true ∧
    idle (q n State.reset) = true ∧ cand (q n State.reset) = some (.head 0 n) ∧ (q n State.reset).refusalOf n = none ∧
    idle e = true ∧ cand e = some (.evicted 2) ∧ (e.placeCand [] (.evicted 2)).isSome = true := by decide +kernel

theorem witness_QueueEvents_port4 :
    let s := { queued (paged (at' 0xC000000000000000 []) (tableOf 1 0)) .enabled [] with
      tlb := [⟨0, 0, 65536, 0x1000F⟩], ops := [op 264 (messageWords 4 0x40 false ([0x800, 0x10000], 64)) .inbox] }
    let r := s.modOp 0 fun o => { o with part := [⟨0, [(0, List.replicate 64 0)], []⟩] }
    let ps := spansIn true 0x800 64 none
    (s.op? 0).any (fun o => decide (portOf (o.words.getD 0 0) = 4 ∧ o.stage = .inbox ∧
      (alignDown (o.words.getD 1 0) 64).toNat = 0x800) && s.opFirst 0 o && readMade s o 0 ps) = true ∧
    (r.op? 0).any (fun o => decide (o.toRead 0 ps = [] ∧ (o.words.getD 2 0).field 31 0 = 0x10000) &&
      r.opFirst 0 o) = true ∧ isMade (r.appendPlain none 0x10000 (List.replicate 8 0)) = true := by decide +kernel

/-! Witnesses: engines -/

/-- `COPY` of 100 bytes across units, raw, `CFILL`, and `COPY` with DEC between BF16 pages: each starts, reads and writes. -/
theorem witness_TransfersComplete_copy :
    let c := fun (z : OpStage) => withOp 0 (messageWords 0 1 false ([0x120, 0x200, 100, 0], 64)) z
    let f := fun (z : OpStage) => withOp 0 (messageWords 0 5 false ([0x120, 7, 100], 64)) z
    let d : State := { withOp 0 (messageWords 0 1 false ([0x120, 0x200, 33, 1], 64)) .active with tlb := [⟨0, 0, 65536, 0x080000000001000F⟩] }
    let on := moved (c .active) 5 2 copyPlan
    let kind := fun (s : State) (u : Nat) => (s.op? 0).elim 9 fun o => match copyPlan s o u with
      | .idle _ _ => 0 | .wait _ => 1 | .bad _ _ => 2 | .read _ _ _ => 3 | .write _ _ _ => 4
    starts (c .inbox) 1 = true ∧ starts (f .inbox) 5 = true ∧ planReads (going (c .active) [(0, 5)]) 1 1 copyPlan = true ∧
    (on.op? 0).any (fun o => decide ((copyLayout o).dest = 2 ∧ (copyLayout o).units = 5 ∧ rowChunk 0x200 100 1 = some (0x240, 36) ∧
      rowChunk 0x120 100 2 = some (0x180, 4) ∧ o.rows.find? (fun e => e.1 == 0) = some (0, rawRun 0x200)) &&
      ((rawRun 0x200).got (copyLayout o) o 0 (0x200 + (0x180 - 0x120)) 4).isSome) = true ∧
    planWrites on 1 4 copyPlan = true ∧ planWrites (going (f .active) [(0, 3)]) 5 2 fillPlan = true ∧ rowChunk 0x120 100 2 = some (0x180, 4) ∧
    planReads (going d [(0, 14)]) 1 1 copyPlan = true ∧ planWrites (moved d 14 8 copyPlan) 1 8 copyPlan = true ∧
    kind d 2 = 0 ∧ kind d 8 = 1 ∧ kind ({ d with tlb := [⟨0, 0, 65536, 0x1000F⟩] } : State) 0 = 2 := by decide +kernel

/-- `COPY2` raw and converting, one of a tile that holds FMT 0, `GATH` with its indices still to read and with its rows, and
`SCAT`, at tile 15. -/
theorem witness_TransfersComplete_tile :
    let e : TileState → Option (Nat × TileEnt) := fun z => some (15, ⟨8, 4, 4, 2, 524288, true, z⟩)
    let fill := fun (s : State) => ({ tiled s .filling with ops := s.ops.map fun o => { o with fills := [15], shape := e .filling } } : State)
    let drain := fun (s : State) => ({ tiled s .draining with ops := s.ops.map fun o => { o with drains := [15], shape := e .draining } } : State)
    let at2 := fun (k : Word) (z : OpStage) => fill (withOp 0 (messageWords 0 2 false ([k, 0x200, 0], 64)) z)
    let c := going (at2 15 .active) [(0, 16)]
    let d : State := { going (at2 47 .active) [(0, 40)] with tlb := [⟨0, 0, 65536, 0x080000000001000F⟩] }
    let g := fun (z : OpStage) => fill (withOp 0 (messageWords 0 3 false ([15, 0x200, 0x300, 8], 64)) z)
    let i : State := going ((g .active).modOp 0 fun o => { o with idxs := [(0, List.replicate 16 1)] }) [(1, 17)]
    let x := drain (withOp 0 (messageWords 0 4 false ([15, 0x200, 0x300, 8], 64)) .inbox)
    let two := fun (s : State) => (s.op? 0).any fun o => match copy2Units o with | .ok k => decide (0 < k) | .error _ => false
    let none' := (at2 47 .inbox).modOp 0 fun o => { o with shape := some (15, ⟨8, 4, 4, 0, 524288, true, .filling⟩) }
    starts (at2 15 .inbox) 2 = true ∧ two (at2 15 .inbox) = true ∧ starts (g .inbox) 3 = true ∧ starts x 4 = true ∧
    (none'.op? 0).any (fun o => match copy2Units o with | .ok _ => false | .error k => k == 4) = true ∧
    planReads c 2 6 copy2Plan = true ∧ planWrites (moved c 16 8 copy2Plan) 2 14 copy2Plan = true ∧
    planReads d 2 12 copy2Plan = true ∧ planWrites (moved d 40 24 copy2Plan) 2 36 copy2Plan = true ∧
    ((going (g .active) [(0, 17)]).op? 0).any (fun o => o.transfers 3 && (pickUnit o.left 0).isSome && decide (o.idxUnits = 1 ∧
      rowChunk (o.num 3) (4 * o.tileOf.2.rows) 0 = some (0x300, 16)) &&
      isMadeIo ((g .active).opRead1 o 0x300 16)) = true ∧
    (i.op? 0).any (fun o => decide (o.idxOf 0 = some 0x01010101)) = true := by
  decide +kernel

/-- The index list of `GATH` has come: its rows follow. -/
theorem witness_TransfersComplete_rows :
    let is := fun (s : State) (f : Bool) (z : TileState) => ({ tiled s z with ops := s.ops.map fun o => { o with
      fills := if f then [15] else [], drains := if f then [] else [15], shape := some (15, ⟨8, 4, 4, 2, 524288, true, z⟩),
      idxs := [(0, List.replicate 16 0)] } } : State)
    let i := is (withOp 0 (messageWords 0 3 false ([15, 0x200, 0x300, 8], 64)) .active) true .filling
    let x := is (withOp 0 (messageWords 0 4 false ([15, 0x200, 0x300, 8], 64)) .active) false .draining
    (i.op? 0).any (fun o => decide (o.idxUnits ≤ 7 ∧ (indexLayout o).units = 17)) = true ∧
    planReads (going i [(1, 17)]) 3 7 indexPlan = true ∧ planWrites (moved i 17 9 indexPlan) 3 15 indexPlan = true ∧
    planReads (going x [(1, 17)]) 4 1 indexPlan = true ∧ planWrites (moved x 17 9 indexPlan) 4 15 indexPlan = true := by decide +kernel

/-- `PUT` on the package itself, and `PUT` and `GET` on member 1. The status of a `GET`'s data is free, and may be 0. -/
theorem witness_TransfersComplete_put :
    let p := fun (oper : Nat) (pkg : Word) (z : OpStage) => withOp 0 (messageWords 0 oper false ([0x120, 0x200, 100, pkg], 64)) z
    let r := fun (oper : Nat) (z : OpStage) => ({ p oper 1 z with cfg := [(cfgKey 0 6 0, some 0x400000), (cfgKey 0 6 1, some 2)] } : State)
    let on := going (p 6 0 .active) [(0, 5)]
    let far := fun (oper : Nat) (l : List (Nat × Nat)) => going (r oper .active) l
    let q : OutReq := ⟨1, some 0, 0, [], 0, 0⟩
    starts (p 6 0 .inbox) 6 = true ∧ starts (p 7 0 .inbox) 7 = true ∧ starts (r 6 .inbox) 6 = true ∧ starts (r 7 .inbox) 7 = true ∧
    (r 6 .inbox).member 1 = true ∧ (p 6 0 .inbox).pkgNumber = 0 ∧ planReads on 6 1 (fun s o u => copyPlan s (o.asCopy true) u) = true ∧
    ((far 6 [(0, 3)]).op? 0).any (fun o => o.transfers 6 && (pickUnit o.left 2).isSome && decide (o.num 4 % 64 ≠ (r 6 .active).pkgNumber ∧
      (far 6 [(0, 3)]).unanswered 1 < Config.channelWindow ∧ rowChunk (o.num 1) (o.num 3) 2 = some (0x180, 4)) &&
      isMadeIo ((far 6 [(0, 3)]).opRead1 o 0x180 4)) = true ∧
    ((far 7 [(0, 3)]).op? 0).any (fun o => o.transfers 7 && (pickUnit o.left 2).isSome &&
      isMadeIo ((far 7 [(0, 3)]).opWrite1 o 0x180 [0, 0, 0, 0])) = true ∧
    ({ far 6 [] with outReqs := [q] } : State).outReqs.find? (fun r => r.op == 0) = some q ∧ pickUnit [] 2 = none := by decide +kernel

/-- A weight tile, an activation tile and a destination tile of 4 × 4 FP32 in bank 2, with the active plane loaded. -/
def Sys2Proof.Tests.matrixAt (oper : Nat) (ws : List Word) : State :=
  let t := TileEnt.mk 16 4 4 3 524288 true .ready
  let s := withOp 128 (messageWords 1 oper false (ws, 64)) .active
  let p : Plane := ⟨2, 4, 4, [], []⟩
  ((s.setTile 1 { t with pitch := 8, fmt := 2 }).setTile 2 t).setUnit 0 ⟨p, p, [], 0⟩

theorem witness_MatrixComplete :
    let turn := fun (s : State) => (s.op? 0).any fun o => decide (o.inbox / 128 = 1 ∧ o.stage ≠ .ended) && s.opAlone 0 o
    let ok := fun (s : State) => turn s && (s.op? 0).any fun o =>
      let u := s.unit (o.inbox - 128)
      decide (o.left = [] ∧ matrixCheck ⟨(u.active.fmt, u.active.k, u.active.n), (u.shadow.fmt, u.shadow.k, u.shadow.n)⟩
        (fun t => s.tile (128 * (o.inbox - 128) + 16 * (o.words.getD 0 0).field 8 6 + t)) o.words = none)
    let row := fun (s : State) (oper r : Nat) => going (s.noteStat 0 0) [(r, 8)] |> fun s => (turn s && (s.op? 0).any fun o =>
      operOf (o.words.getD 0 0) == oper, s)
    let spans := fun (s : State) (hi lo r : Nat) => (s.op? 0).elim [] fun o => (s.tile (o.mxTile hi lo)).rowSpans (o.mxTile hi lo) r
    let reads := fun (s : State) (oper r k : Nat) =>
      let p := row s oper r
      p.1 && (p.2.op? 0).any fun o => readMade p.2 o 0 (spans p.2 3 0 k)
    let writes := fun (s : State) (oper r k : Nat) =>
      let p := row s oper r
      p.1 && (p.2.op? 0).any fun o => writeMade p.2 o 0 [] (splitOver (spans p.2 7 4 k) (List.replicate 32 0))
    ok (matrixAt 0x10 [1]) = true ∧ reads (matrixAt 0x10 [1]) 0x10 0 0 = true ∧
    ok (matrixAt 0x11 []) = true ∧ (row (matrixAt 0x11 []) 0x11 0).1 = true ∧
    ok (matrixAt 0x12 [1, 255]) = true ∧ reads (matrixAt 0x12 [1, 255]) 0x12 3 3 = true ∧
    ok (matrixAt 0x13 [32, 255]) = true ∧ writes (matrixAt 0x13 [32, 255]) 0x13 3 3 = true ∧
    ok (matrixAt 0x14 [0, 255, 769, 1]) = true ∧ (row (matrixAt 0x14 [0, 255, 769, 1]) 0x14 0).1 = true ∧
    ok (matrixAt 0x15 [33, 255]) = true ∧ reads (matrixAt 0x15 [33, 255]) 0x15 3 3 = true ∧
    writes (matrixAt 0x15 [33, 255]) 0x15 7 3 = true := by
  decide +kernel

theorem witness_MatrixPass : (Mx.reset).active.n ≤ 256 ∧ (Mx.mk ⟨2, 4, 256, [], []⟩ .reset [] 0).active.n ≤ 256 ∧
    255 < (Mx.mk ⟨2, 4, 256, [], []⟩ .reset [] 0).active.n ∧ (0 ≠ 1023 ∨ 4 ≤ 3) := by decide

/-- A definition that is accepted; an application with a bin and without; reset, status and close of an OPEN region; a
stall that is due. -/
theorem witness_YardAndRoteComplete_yard :
    let g : Region := { Region.reset with base := 65536, len := 4096, state := .opened, type := 4, opr := 2 }
    let y := fun (oper : Nat) (ws : List Word) (z : OpStage) => ({ withOp 256 (messageWords 2 oper false (ws, 64)) z with regions := [(0, g)] } : State)
    let d : State := { withOp 256 (messageWords 2 0x20 false ([0x10000, 4096, 0x100, 0], 64)) .inbox with mem := [(0x10100, 2), (0x10101, 0x40)] }
    let b : Bin := ⟨0, 0, 0, 0x10000, 0x20000, [⟨0, 0, false, false, false, 5, 1⟩]⟩
    let r : State := { going (y 0x22 [0] .active) [(0, 64)] with tlb := [⟨0, 65536, 65536, 0x2000F⟩] }
    let is := fun (s : State) (oper : Nat) (z : OpStage) => (s.yardOp 0 oper).any fun o => decide (o.stage = z) && s.opFirst 0 o &&
      decide (o.region = 0 ∧ (s.region 0).state = .opened)
    (d.yardOp 0 0x20).any (fun o => decide (o.stage = .inbox ∧ o.idxs = []) && d.opFirst 0 o &&
      readMade d o 0 (spansIn true (o.num 3) 8 none)) = true ∧
    ((hasRead d 0 8).yardOp 0 0x20).any (fun o => decide (o.toRead 0 (spansIn true (o.num 3) 8 none) = [] ∧
      d.defineCode (o.num 1) (o.num 2) 0x4002 = none)) = true ∧
    ((d.modOp 0 fun o => { o with stage := .active, idxs := [(0, [])] }).yardOp 0 0x20).any (fun o => decide (o.idxs = [(0, [])])) = true ∧
    is (y 0x21 [0] .active) 0x21 .active = true ∧ (y 0x21 [0] .active).allBins = [] ∧
    ({ y 0x21 [0] .active with bins := [b] } : State).allBins.find? (fun b => Bin.isOf 0 b.key 0 b) = some b ∧
    (y 0x21 [0] .active).barred none b.pa g.size = false ∧
    is (y 0x22 [0] .inbox) 0x22 .inbox = true ∧ is (y 0x22 [0] .active) 0x22 .active = true ∧
    (r.op? 0).any (fun o => decide (r.resetNext o g = some 0) && (pickUnit o.left 0).isSome && decide (rowChunk g.base g.len 0 = some (0x10000, 64)) &&
      match r.opXlate o 0x10000 2 with
      | .ok t x => !t.barred none x.pa 64 && isMadeIo ((t.discardBins o.region 0x10000 64).opWrite1 o 0x10000 (List.replicate 64 0))
      | _ => false) = true ∧
    is (y 0x23 [0, 0] .inbox) 0x23 .inbox = true ∧ is (y 0x24 [0] .inbox) 0x24 .inbox = true ∧
    ({ State.reset with yardStall := [(63, some ⟨0, false⟩)], cycles := 629146 } : State).stallDue 0 = true := by decide +kernel

/-- Every Rote operation on context 1023 of die 0, whose store holds 16 MiB. -/
theorem witness_YardAndRoteComplete_rote :
    let r := Rote.mk 4096 2 3 0 [7, 8, 7] 0 0 0
    let s := fun (oper : Nat) (ws : List Word) (c : Option Rote) => ({ withOp 260 (messageWords 3 oper false (ws, 64)) .inbox with
      cfg := [(itemKey 0 1 0, some 16)], rote := match c with | some k => [(1023, some k)] | none => [] } : State)
    let is := fun (s : State) (oper : Nat) (c : Option Rote) => (s.roteOp 0 oper).any fun o => decide (o.context = 1023 ∧ s.ctx 1023 = c)
    let e := s 0x30 [1023, 4096, 64] none
    let l := s 0x35 [1023, 0x100] none
    let h := Rote.mk 4096 2 3 0 [] 0 0 0
    let head := l.modOp 0 fun o => o.setProg ⟨0, [(0, h.header)], []⟩
    let act := head.modOp 0 fun o => { o with stage := .active, idxs := [(h.c, h.header)] }
    let p := s 0x32 [1023, 16, 0x100] (some r)
    let writes := fun (s : State) (oper at' n : Nat) => is s oper (some r) && (s.roteOp 0 oper).any fun o =>
      writeMade s o 0 [] (splitOver (spansIn true at' n none) (List.replicate n 0))
    is e 0x30 none = true ∧ capOk 4096 = true ∧ 1 ≤ 64 ∧ 64 ≤ 64 ∧ e.roteFits 1023 4096 = true ∧
    is l 0x35 none = true ∧ (l.roteOp 0 0x35).any (fun o => readMade l o 0 (spansIn true (o.num 2) 64 none)) = true ∧
    is head 0x35 none = true ∧ (head.roteOp 0 0x35).any (fun o => decide (o.toRead 0 (spansIn true (o.num 2) 64 none) = [] ∧
      headerOf (o.bytesRead 0 (spansIn true (o.num 2) 64 none).length) = some h ∧ o.num 2 % 64 = 0) && head.roteFits 1023 h.c) = true ∧
    (act.roteOp 0 0x35).any (fun o => decide (o.stage = .active ∧ o.idxs = [(h.c, h.header)] ∧ headerOf h.header = some h) &&
      readMade act o 1 (spansIn true (o.num 2 + 64) (4 * (h.count - h.base)) none)) = true ∧
    is (s 0x31 [1023, 0x100, 65536] (some r)) 0x31 (some r) = true ∧
    ((s 0x31 [1023, 0x104, 3] (some r)).roteOp 0 0x31).any (fun o => readMade (s 0x31 [1023, 0x104, 3] (some r)) o 0
      (spansIn true 0x104 12 none)) = true ∧
    is p 0x32 (some r) = true ∧ writes p 0x32 0x100 80 = true ∧
    writes (s 0x33 [1023, 0x100] (some r)) 0x33 0x100 64 = true ∧ writes (s 0x34 [1023, 0x100] (some r)) 0x34 0x100 128 = true ∧
    is (s 0x36 [1023] (some r)) 0x36 (some r) = true := by decide +kernel

/-! Witnesses: other packages, the host, errors -/

theorem witness_RemoteComplete :
    let made := fun (a : Applying) => match a with | .ok _ _ => true | _ => false
    let g : Region := { Region.reset with len := 4096, state := .opened, type := 4, opr := 2 }
    let o := fun (oper : Nat) (ws : List Word) (z : OpStage) =>
      ({ queued (paged (withOp 265 (messageWords 6 oper false (ws, 0)) z) (tableOf 1 0)) .enabled [] with regions := [(0, g)] } : State)
    let y := fun (s : State) => ({ s with tlb := [⟨0, 0, 65536, 0x20000000001000F⟩] } : State)
    let src := spansIn true 0x800 64 none
    let own := fun (s : State) (oper : Nat) => (s.op? 0).any fun p => decide (portOf (p.words.getD 0 0) = 6 ∧ p.stage ≠ .ended ∧
      p.result = none ∧ p.package = s.pkgNumber) && s.opFirst 0 p && made (s.applyOwn p oper (p.bytesRead 0 (if oper = 0x61 then 1 else 0)))
    let far := fun (s : State) => ({ s with cfg := [(cfgKey 0 6 0, some 0x400000), (cfgKey 0 6 1, some 0x8000000000000000)] } : State)
    own (y (o 0x60 [0, 0x100, 5, 7] .inbox)) 0x60 = true ∧ own (hasRead (o 0x61 [0, 0x800, 0x10000] .inbox) 0 64) 0x61 = true ∧
    ((o 0x61 [0, 0x800, 0x10000] .inbox).op? 0).any (fun p => readMade (o 0x61 [0, 0x800, 0x10000] .inbox) p 0 src) = true ∧
    own (o 0x62 [0, 0x900, 1] .inbox) 0x62 = true ∧ own (o 0x63 [0, 0x900, 0, 0, 1] .inbox) 0x63 = true ∧
    (let s := far (o 0x62 [63, 0x900, 1] .inbox)
     let t := far (o 0x62 [63, 0x900, 1] .active)
     (s.op? 0).any (fun p => decide (p.package ≠ s.pkgNumber ∧ p.stage = .inbox ∧ s.member p.package = true ∧
       s.unanswered p.package < Config.channelWindow) && s.opFirst 0 p) = true ∧
     (t.op? 0).any (fun p => decide (p.package ≠ t.pkgNumber ∧ p.stage = .active ∧ p.result = none)) = true) := by
  decide +kernel

/-- Requests of member 63 that come in turn, early, and again; and an operation that has had no reply for 1 s. -/
theorem witness_RemoteComplete_in :
    let made := fun (a : Applying) => match a with | .ok _ _ => true | _ => false
    let g : Region := { Region.reset with len := 4096, state := .opened, type := 4, opr := 2 }
    let s : State := { queued (paged State.reset (tableOf 1 0)) .enabled [] with
      regions := [(0, g)], cfg := [(cfgKey 0 6 0, some 0x400000), (cfgKey 0 6 1, some 0x8000000000000000)] }
    let y : State := { s with mem := wrByte s.mem 0x5007 2 }
    let c := s.chan 63
    let put := fun (s : State) (r : InReq) => s.setChan 63 { c with early := [(c.nextIn, r)] }
    let all : List InReq := [.enq (List.replicate 8 0) 0x10000, .add 0x900 1, .atom 0x900 0 1 .q .add 0, .put 0x93E [1, 2, 3, 4]]
    63 ≠ s.pkgNumber ∧ s.member 63 = true ∧ c.early = [] ∧ made ((put y (.upd 0x100 5 .f)).applyIn (.upd 0x100 5 .f)) = true ∧
    (∀ r ∈ all, made ((put s r).applyIn r) = true) ∧
    (1023 + 2 ^ 32 - c.nextIn) % 2 ^ 32 < Config.channelWindow ∧ Config.channelWindow ≤ (2 ^ 32 - 1 + 2 ^ 32 - c.nextIn) % 2 ^ 32 ∧
    (let q : OutReq := ⟨63, some 0, 0, [], 0, 0⟩
     let s : State := { withOp 265 (messageWords 6 0x62 false ([63, 0x900, 1], 0)) .active with outReqs := [q], cycles := 600000000 }
     s.outReqs[0]? = some q ∧ (s.op? 0).any (fun p => decide (p.stage = .active ∧ q.op = p.id)) = true ∧ q.firstAt + 1000000000 ≤ s.now) := by
  decide +kernel

/-- A mailbox command of each code, each stage of bring-up, and a host access to bytes that an `LD.o` holds until its `ST.o`. -/
theorem witness_HostComplete :
    let s : State := { State.reset with mailbox := [(7, 0x80)] }
    let pair := (at' 0xA100000000006000 []).modNode home 0 fun _ => nodeOf 0xA000000000002000 []
    (let c := fun (k : Byte) => ({ s with mailbox := [(0, k), (7, 0x80)], fw := { s.fw with ran := true } } : State)
     ∀ k ∈ [1, 2, 3, 4, 5, 6, 7], (c (BitVec.ofNat 8 k)).mboxGo = true ∧ (c (BitVec.ofNat 8 k)).mboxCommand = k ∧ (c 1).fw.ran = true) ∧
    (s.mboxWord 0x808).toNat ≤ (s.fwSlot 1).length ∧
    (2 ^ 40 - 65) + 65 ≤ 2 ^ 40 ∧ ((piecesOf (2 ^ 40 - 65) 65).any fun p => s.barred none p.1 p.2) = false ∧
    (2 ^ 40 ≤ 2 ^ 40 + 4095 ∧ 2 ^ 40 + 4095 + 1 ≤ 2 ^ 40 + 4096) ∧
    s.bring.power = false ∧ (let b := fun (n : Nat) (c8 c4 : Bool) => ({ s with fw := { s.fw with ran := true }, bring := ⟨true, true, List.range n, c8, c4⟩ } : State)
      (b 0 false false).bring.power = true ∧ (b 0 false false).fw.ran = true ∧ (b 0 false false).bring.firmware = true ∧
      31 / 32 ≤ (b 0 false false).bring.dies.length ∧ (b 3 false false).coreHeld 127 = false ∧ 127 / 32 ≤ (b 3 false false).bring.dies.length ∧
      (b 3 false false).bring.dies.length < 4 ∧ (b 4 false false).bring.dies.length = 4 ∧ (b 4 false false).bring.cal8 = false ∧
      (b 4 true false).bring.cal8 = true ∧ (b 4 true false).bring.cal4 = false) ∧
    s.hostHead 1 = none ∧ ({ pair with holds := [⟨1, 0, 0, 0, 0, 2 ^ 40 - 8, 8⟩] } : State).hostBarred ⟨1, false, 2 ^ 40 - 65, 65, []⟩ = true ∧
    (s.slices.any fun x => x.uses 1 35 []) = false ∧ ({ s with testing := [resourceKey 3 127] } : State).testing.contains (resourceKey 3 127) = true := by
  decide +kernel

/-- The hash of R473 on its standard's first example, the message "abc" (FIPS 180-4). -/
theorem test_sha256 :
    Sha.sha256 [0x61, 0x62, 0x63] =
      [0xba, 0x78, 0x16, 0xbf, 0x8f, 0x01, 0xcf, 0xea, 0x41, 0x41, 0x40, 0xde, 0x5d, 0xae, 0x22, 0x23,
       0xb0, 0x03, 0x61, 0xa3, 0x96, 0x17, 0x7a, 0x9c, 0xb4, 0x10, 0xff, 0x61, 0xf2, 0x00, 0x15, 0xad] := by
  decide +kernel

/-- An `ADD` that fires and a `TRAP` that traps; an `LD`, a row that is in no group of those named. -/
theorem witness_FiringFrame :
    (staysInside (.add (hd .q) 0) = true ∧ goesOn (exec (.add (hd .q) 0) (at' 0x2000000000000000 [(.a, 5), (.b, 6)])) ∧
     staysInside (.trap (hd .q) 0xA5) = true ∧ goesOn (exec (.trap (hd .q) 0xA5) (at' 0xE0000000000000A5 [(.a, 0)]))) ∧
    (let i := Instr.ld (hd .q) ⟨0, .random, false, 0⟩
     (i.isWord && ([[0xE6], memRows, localRows, fullRows, [0xA2, 0xA3, 0xB4, 0xE5, 0xE9], [0xAE, 0xAF, 0xB0, 0xB2, 0xB3, 0xE5, 0xE9],
       [0xE5, 0xE9], [0x84, 0x85, 0x86, 0x87, 0x88, 0x89, 0x8A, 0xE5, 0xE9]].all fun l => !rowIn l i)) = true ∧
     goesOn (exec i (mapped (at' 0xA000000000000000 [(.a, 64)])))) := by
  refine ⟨⟨by decide +kernel, goes_on (by decide +kernel), by decide +kernel, goes_on (by decide +kernel)⟩,
    by decide +kernel, goes_on (by decide +kernel)⟩
end

section
/-! SUPPORT and proofs. What a step does with the next entry of the agenda (R20, R70, R200, R446). -/

namespace Sys2Proof.Machine

/-- An action other than the settling or claiming of accesses happens under the grants of R200. -/
theorem perform_fire (s : State) (st : SRef) (i : Nat) : s.perform (.fire st i) = s.happen (.fire st i) := rfl

theorem perform_fireCopy (s : State) (st : SRef) (i c : Nat) :
    s.perform (.fireCopy st i c) = s.happen (.fireCopy st i c) := rfl

theorem perform_event (s : State) (k : Instr) : s.perform (.event k) = s.happen (.event k) := rfl

/-- What the agenda names next is performed once its cycles have passed. -/
theorem step_agenda {s : State} {a : Act} {r : List Act} (h : s.agenda = a :: r) :
    step s = (({ s with agenda := r } : State).goOn a.dt).perform a.what := by
  simp only [step, h]

/-- An action that needs a grant is no settling and no claim. -/
theorem perform_asked {s : State} {w : What} {g : Nat × SRef} (h : s.ask w = some g) : s.perform w = s.happen w := by
  cases w with
  | settle st => simp [State.ask] at h
  | claim st i tag idx => simp [State.ask] at h
  | _ => rfl

/-- A station whose word decodes to an instruction executes it with `cur` at the station. -/
theorem fireAt_decoded {s : State} {st : SRef} {i : Nat} {nd : Node} {k : Instr} (hn : s.node? st i = some nd)
    (hd : rawDecode nd.word = some (.instr k)) :
    (∀ t, exec k { s with cur := some ⟨st, i⟩ } = .next t → s.fireAt st i = .next (s.afterFire t st i)) ∧
    ((∀ t, exec k { s with cur := some ⟨st, i⟩ } ≠ .next t) → s.fireAt st i = exec k { s with cur := some ⟨st, i⟩ }) := by
  refine ⟨fun t h => by simp [State.fireAt, hn, hd, h], fun h => ?_⟩
  cases he : exec k { s with cur := some ⟨st, i⟩ } with
  | next t => exact absurd he (h t)
  | fault f => simp [State.fireAt, hn, hd, he]
  | refused f => simp [State.fireAt, hn, hd, he]

/-- A station that does not reach memory through the port of its core asks for no grant. -/
theorem fireRequest_none {s : State} {st : SRef} {i : Nat} {nd : Node} (hn : s.node? st i = some nd)
    (hp : nd.atPort = false) : s.fireRequest st i = none := by
  unfold State.fireRequest
  cases s.strand? st <;> simp [hn, hp]

/-- Where no element waits for the thaw of the slice, nothing follows a firing. -/
theorem afterFire_unawaited {t : State} {st : SRef} (h : ∀ e ∈ t.strands, ∀ w ∈ e.2.waits, w.kind ≠ .thaw st.slice)
    (s : State) (i : Nat) : s.afterFire t st i = t := by
  have hn : (t.strands.any fun e => e.2.waits.any fun w => decide (w.kind = .thaw st.slice)) = false := by
    rw [List.any_eq_false]
    intro e he hw
    obtain ⟨w, hm, hk⟩ := List.any_eq_true.mp hw
    exact h e he w hm (of_decide_eq_true hk)
  simp [State.afterFire, hn]

/-- Settles O4: the equations of `step`, `perform`, `happen` and `fireAt` put together. -/
theorem stepRunsDecoded : Obligations.StepRunsDecoded := by
  unfold Obligations.StepRunsDecoded
  refine ⟨?_, ?_, ?_, ?_, ?_, ?_, ?_⟩
  · intro s dt st i r copy nd k u v w ha hn hd
    cases copy with
    | none =>
      obtain ⟨hgo, hstop⟩ := fireAt_decoded hn hd
      refine ⟨hgo, hstop, fun hp => ?_⟩
      rw [step_agenda ha]
      exact happen_free (w := .fire st i) (fireRequest_none hn hp)
    | some c =>
      obtain ⟨hgo, hstop⟩ := fireAt_decoded hn hd
      refine ⟨hgo, hstop, fun hp => ?_⟩
      rw [step_agenda ha]
      exact happen_free (w := .fireCopy st i c) (fireRequest_none hn hp)
  · intro s dt r k ha
    refine ⟨rfl, fun hq => ?_⟩
    rw [step_agenda ha]
    exact happen_free (w := .event k) hq
  · intro s dt r w n st ha u hq
    have hstep : step s = u.happen w := by rw [step_agenda ha]; exact perform_asked hq
    refine ⟨fun hfree t ht => ?_, fun hs hr => ?_⟩
    · rw [hstep]
      refine happen_granted hq ?_ ht
      rcases hfree with h | h
      · rw [h, Bool.false_and]
      · rw [h, Bool.and_false]
    · rw [hstep]
      exact happen_waits hq hs hr
  · intro s dt r st ha
    rw [step_agenda ha]; rfl
  · intro s dt r st i tag idx ha
    rw [step_agenda ha]; rfl
  · intro s ha
    simp only [step, ha]
  · exact fun s t st i h => afterFire_unawaited h s i

end Sys2Proof.Machine
end

section
/-! SUPPORT and proofs. Firing: which sets of operands a station takes and what it makes of them (R18 to R24, R31, R129). -/

namespace Sys2Proof.Machine

/-! Complete sets of operands -/

/-- Whether the used slots hold one token each, those of `tk`. -/
def Node.holdsOne (nd : Node) (slots : List Slot) (tk : Slot → Tok) : Prop :=
  ∀ sl ∈ slots, ∃ n, nd.buf sl = [.tok (tk sl) n]

/-- Among slots without a switch token, all that wait are switched only where none waits. -/
theorem switched_false {nd : Node} {slots waited : List Slot} {tk : Slot → Tok} (hb : nd.holdsOne slots tk)
    (hw : ∀ sl ∈ waited, sl ∈ slots) (hne : waited ≠ []) : nd.switched waited = false := by
  obtain ⟨sl, hm⟩ := List.exists_mem_of_ne_nil _ hne
  obtain ⟨n, hn⟩ := hb sl (hw sl hm)
  rw [Node.switched, List.all_eq_false]
  exact ⟨sl, hm, by simp [hn, hasSwitch]⟩

/-- The one token of a slot may pair, at the copy that holds the word in front. -/
theorem visible_one {nd : Node} {slots : List Slot} {tk : Slot → Tok} (hb : nd.holdsOne slots tk) (waited : List Slot)
    {sl : Slot} (hm : sl ∈ slots) (hs : nd.serves (tk sl).idx = true) :
    ∃ n, nd.visible waited sl = [(tk sl, n)] := by
  obtain ⟨n, hn⟩ := hb sl hm
  exact ⟨n, by cases h : nd.switched waited <;> simp [Node.visible, h, hn, tokens, ahead, hs]⟩

/-- Tokens of one tag and element index in every used slot form a complete set. -/
theorem setOf_one {nd : Node} {used : List Slot} {tk : Slot → Tok} {tag idx : Nat} (hb : nd.holdsOne used tk)
    (waited : List Slot) (ht : ∀ sl ∈ used, (tk sl).tag = tag ∧ (tk sl).idx = idx) (hs : nd.serves idx = true)
    (slots : List Slot) (hsub : ∀ sl ∈ slots, sl ∈ used) :
    ∃ m, nd.setOf waited slots tag idx = some (slots.map fun sl => (sl, tk sl), m) := by
  induction slots with
  | nil => exact ⟨0, rfl⟩
  | cons sl rest ih =>
    obtain ⟨m, hm⟩ := ih fun k hk => hsub k (List.mem_cons_of_mem _ hk)
    have hu := hsub sl List.mem_cons_self
    obtain ⟨n, hn⟩ := visible_one hb waited hu (by rw [(ht sl hu).2]; exact hs)
    refine ⟨max n m, ?_⟩
    have hfind : findTok (nd.visible waited sl) tag idx = some (tk sl, n) := by simp [hn, findTok, ht sl hu]
    rw [Node.setOf] at hm ⊢
    simp [List.foldr_cons, hfind, hm]

/-- No token stands behind a switch where no slot holds one. -/
theorem setAhead_one {nd : Node} {used waited : List Slot} {tk : Slot → Tok} (hb : nd.holdsOne used tk)
    (hw : ∀ sl ∈ waited, sl ∈ used) (slots : List Slot) (tag idx : Nat) : nd.setAhead waited slots tag idx = true := by
  by_cases hne : waited = []
  · simp [Node.setAhead, hne]
  · simp [Node.setAhead, switched_false hb hw hne]

/-- A complete set of an element that has not fired is the one set that the station can take. -/
theorem sets_one {nd : Node} {waited rest : List Slot} {sl : Slot} {tk : Slot → Tok} {tag idx : Nat}
    (hb : nd.holdsOne (sl :: rest) tk) (hw : ∀ k ∈ waited, k ∈ sl :: rest)
    (ht : ∀ k ∈ sl :: rest, (tk k).tag = tag ∧ (tk k).idx = idx) (hs : nd.serves idx = true)
    (hf : nd.fired.contains ⟨tag, idx⟩ = false) :
    nd.sets waited (sl :: rest) = [(sl :: rest).map fun k => (k, tk k)] := by
  obtain ⟨htag, hidx⟩ := ht sl List.mem_cons_self
  obtain ⟨n, hn⟩ := visible_one hb waited (List.mem_cons_self (a := sl)) (by rw [hidx]; exact hs)
  obtain ⟨m, hm⟩ := setOf_one hb waited ht hs (sl :: rest) fun _ hk => hk
  simp only [Node.sets, hn, List.filterMap_cons, List.filterMap_nil, htag, hidx, hf,
    setAhead_one hb hw, Bool.not_true, Bool.or_self, Bool.false_eq_true, if_false, hm, List.foldr_cons, List.foldr_nil,
    insertSet, List.map_cons, List.map_nil]

/-- The slots that wait for a switch token are among the used ones. -/
theorem waited_subset (x : Inst) (i : Nat) (slots : List Slot) : ∀ sl ∈ x.waited i slots, sl ∈ slots :=
  fun _ h => (List.mem_filter.mp h).1

/-- A station of a running block. -/
theorem node?_of_inst? {s : State} {st : SRef} {i : Nat} {x : Inst} {nd : Node} (hx : s.inst? st = some x)
    (hn : x.nodes[i]? = some nd) : s.node? st i = some nd := by
  simp [State.node?, hx, hn]

/-- A station that holds nothing stands as it does once it has sent. -/
theorem node?_drain_of_free {s : State} {st : SRef} {i : Nat} {nd : Node} (hn : s.node? st i = some nd)
    (ho : nd.outq = []) (ha : nd.antiOut = []) : (s.drain st i).node? st i = some nd := by
  have hn' := hn
  unfold State.node? at hn'
  cases hx : s.inst? st with
  | none => simp [hx] at hn'
  | some x =>
    rw [hx] at hn'
    have hd := inst?_drain_free hx hn' ho ha
    unfold State.node?
    rw [hd]
    exact hn'

/-- Settles O11: the set is the only one that the station can take. -/
theorem completeSetTaken : Obligations.CompleteSetTaken := by
  unfold Obligations.CompleteSetTaken
  intro s st i h data x nd tag idx tk sl rest hacts hx hn ho ha hu hb ht hs hf
  refine ⟨hacts, ?_⟩
  rw [hu] at hb ht
  have hset := sets_one (waited := x.waited i (sl :: rest)) hb (waited_subset x i _) ht hs hf
  simp [State.firstSet, inst?_drain_free hx hn ho ha, node?_drain_of_free (node?_of_inst? hx hn) ho ha, Node.free, ho, ha, hu, hset]

/-! Predicates and the empty policy -/

/-- A set of operands is settled by its predicate first. -/
theorem settle_cons (h : Hdr) (repl imm : Word) (sl : Slot) (t : Tok) (l : List (Slot × Tok)) :
    settle h repl imm ((sl, t) :: l) =
      let data := ((sl, t) :: l).filter fun e => decide (e.1 ≠ Slot.p)
      let r : Ready := ⟨t.tag, t.idx, data.any fun e => e.2.l,
        ⟨operandOf repl ((sl, t) :: l) .a 0, operandOf repl ((sl, t) :: l) .b imm, operandOf repl ((sl, t) :: l) .c 0⟩⟩
      some (match predOf h repl ((sl, t) :: l) with
        | .mismatch => .settle .nothing r
        | .forward => .settle .forward r
        | .trap => .trap r
        | .pass =>
          if data.any fun e => e.2.e then match h.ep with
            | .absorb => .settle .nothing r
            | .forward => .settle .forward r
            | .replace => .settle .go r
            | .trap => .trap r
          else .settle .go r) := rfl

/-- Without a predicate token a set passes. -/
theorem predOf_none {l : List (Slot × Tok)} (hp : tokOf l .p = none) (h : Hdr) (repl : Word) :
    predOf h repl l = .pass := by
  unfold tokOf at hp
  unfold predOf
  rw [Option.map_eq_none_iff.mp hp]

/-- What a predicate token makes of a set. -/
theorem predOf_some {l : List (Slot × Tok)} {p : Tok} (hp : tokOf l .p = some p) (h : Hdr) (repl : Word) :
    predOf h repl l = if p.e then match h.ep with
        | .absorb => .mismatch
        | .forward => .forward
        | .replace => if repl.bit 0 = h.pp then .pass else .mismatch
        | .trap => .trap
      else if p.data.bit 0 = h.pp then .pass else .mismatch := by
  unfold tokOf at hp
  obtain ⟨⟨k, q⟩, hq, rfl⟩ := Option.map_eq_some_iff.mp hp
  unfold predOf
  rw [hq] <;> rfl

/-- Settles O12, by what the predicate says of the set. -/
theorem predicateAndEmptyPolicy : Obligations.PredicateAndEmptyPolicy := by
  unfold Obligations.PredicateAndEmptyPolicy
  intro h repl imm sl t l all data r
  have hset := settle_cons h repl imm sl t l
  refine ⟨?_, ?_, ?_, ?_, ?_, ?_⟩
  · intro p hp he hb
    rw [hset, predOf_some hp]
    simp [he, hb, r, data, all]
  · intro p hp he hep
    rw [hset, predOf_some hp]
    simp [he, hep, r, data, all]
  · intro p hp he hep
    rw [hset, predOf_some hp]
    simp [he, hep, r, data, all]
  · intro p hp he hep
    rw [hset, predOf_some hp]
    simp [he, hep, r, data, all]
  · intro hp he
    rw [hset, predOf_none hp]
    exact congrArg some (if_pos he)
  · intro hp he
    rw [hset, predOf_none hp]
    exact congrArg some (if_neg (by rw [he]; exact Bool.false_ne_true))

/-! A complete set goes -/

/-- The operand of a slot among non-empty tokens. -/
theorem operandOf_slots (repl d : Word) (tk : Slot → Tok) (slots : List Slot) (k : Slot)
    (he : ∀ sl ∈ slots, (tk sl).e = false) :
    operandOf repl (slots.map fun sl => (sl, tk sl)) k d = if k ∈ slots then (tk k).data else d := by
  induction slots with
  | nil => rfl
  | cons sl rest ih =>
    by_cases hk : sl = k
    · subst hk
      simp [operandOf, he sl List.mem_cons_self]
    · have hr := ih fun j hj => he j (List.mem_cons_of_mem _ hj)
      have hk' : ¬ k = sl := fun e => hk e.symm
      simp only [List.mem_cons, hk', false_or]
      rw [← hr]
      simp [operandOf, hk]

/-- The token of a slot among the slots' tokens. -/
theorem tokOf_slots (tk : Slot → Tok) (slots : List Slot) (k : Slot) :
    tokOf (slots.map fun sl => (sl, tk sl)) k = if k ∈ slots then some (tk k) else none := by
  induction slots with
  | nil => rfl
  | cons sl rest ih =>
    by_cases hk : sl = k
    · subst hk
      simp [tokOf]
    · have hk' : ¬ k = sl := fun e => hk e.symm
      simp only [List.mem_cons, hk', false_or]
      rw [← ih]
      simp [tokOf, hk]

/-- A data slot is used exactly when it is given. -/
theorem mem_usedSlots {h : Hdr} {data : List Slot} {k : Slot} (hk : k ≠ .p) : k ∈ usedSlots h data ↔ k ∈ data := by
  cases hv : h.pv <;> simp [usedSlots, hv, hk]

/-- The predicate slot is used exactly when PV is 1. -/
theorem p_mem_usedSlots {h : Hdr} {data : List Slot} (hp : Slot.p ∉ data) : Slot.p ∈ usedSlots h data ↔ h.pv = true := by
  cases hv : h.pv <;> simp [usedSlots, hv, hp]

/-- The data tokens of a set are those of the given slots. -/
theorem dataOf_usedSlots {h : Hdr} {data : List Slot} (hp : Slot.p ∉ data) (tk : Slot → Tok) (f : Tok → Bool) :
    ((((usedSlots h data).map fun sl => (sl, tk sl)).filter fun e => decide (e.1 ≠ Slot.p)).any fun e => f e.2) =
      data.any fun sl => f (tk sl) := by
  have hd : ∀ d : List Slot, Slot.p ∉ d →
      (d.map fun sl => (sl, tk sl)).filter (fun e => decide (e.1 ≠ Slot.p)) = d.map fun sl => (sl, tk sl) := by
    intro d hd
    rw [List.filter_eq_self]
    intro e he
    obtain ⟨k, hk, rfl⟩ := List.mem_map.mp he
    exact decide_eq_true fun h => hd (h ▸ hk)
  cases hv : h.pv with
  | false => simp only [usedSlots, hv, Bool.false_eq_true, if_false, hd data hp, List.any_map]; rfl
  | true =>
    simp only [usedSlots, hv, if_true, List.map_append, List.filter_append, hd data hp]
    simp [Function.comp_def]

/-- Non-empty operands whose predicate lets them through go. -/
theorem settle_slots {h : Hdr} {data : List Slot} {sl : Slot} {rest : List Slot} {tk : Slot → Tok} {tag idx : Nat}
    (repl imm : Word) (hu : usedSlots h data = sl :: rest) (hp : Slot.p ∉ data)
    (ht : ∀ k ∈ usedSlots h data, (tk k).tag = tag ∧ (tk k).idx = idx ∧ (tk k).e = false)
    (hpass : h.pv = true → (tk .p).data.bit 0 = h.pp) :
    settle h repl imm ((usedSlots h data).map fun k => (k, tk k)) =
      some (.settle .go ⟨tag, idx, data.any fun k => (tk k).l,
        ⟨if .a ∈ data then (tk .a).data else 0, if .b ∈ data then (tk .b).data else imm,
          if .c ∈ data then (tk .c).data else 0⟩⟩) := by
  have he : ∀ k ∈ usedSlots h data, (tk k).e = false := fun k hk => (ht k hk).2.2
  have hpred : predOf h repl ((usedSlots h data).map fun k => (k, tk k)) = .pass := by
    by_cases hv : h.pv = true
    · have hm := (p_mem_usedSlots hp).mpr hv
      rw [predOf_some (p := tk .p) (by rw [tokOf_slots, if_pos hm])]
      simp [he .p hm, hpass hv]
    · exact predOf_none (by rw [tokOf_slots, if_neg (fun hm => hv ((p_mem_usedSlots hp).mp hm))]) h repl
  have hempty : (data.any fun k => (tk k).e) = false := by
    rw [List.any_eq_false]
    intro k hk
    have hkp : k ≠ .p := fun e => hp (e ▸ hk)
    simp [he k ((mem_usedSlots hkp).mpr hk)]
  obtain ⟨htag, hidx, _⟩ := ht sl (by rw [hu]; exact List.mem_cons_self)
  have hset := settle_cons h repl imm sl (tk sl) (rest.map fun k => (k, tk k))
  have hl : ((sl, tk sl) :: rest.map fun k => (k, tk k)) = (usedSlots h data).map fun k => (k, tk k) := by rw [hu]; rfl
  rw [hl] at hset
  rw [hset, hpred]
  simp only [dataOf_usedSlots hp tk (fun t => t.l), dataOf_usedSlots hp tk (fun t => t.e), hempty, Bool.false_eq_true,
    if_false, htag, hidx, operandOf_slots _ _ tk _ _ he, mem_usedSlots (by decide : Slot.a ≠ .p),
    mem_usedSlots (by decide : Slot.b ≠ .p), mem_usedSlots (by decide : Slot.c ≠ .p)]

/-- Settles O10: the one set of the station is settled to go, and the output has room. -/
theorem completeSetFires : Obligations.CompleteSetFires := by
  unfold Obligations.CompleteSetFires
  intro s st i h data repl imm x nd tag idx tk hacts hx hn ho ha hne hp hb ht hpass hs hf hroom
  refine ⟨hacts, ?_⟩
  obtain ⟨sl, rest, hu⟩ : ∃ sl rest, usedSlots h data = sl :: rest := by
    cases hv : h.pv <;> cases data <;> simp_all [usedSlots]
  have hset := sets_one (waited := x.waited i (sl :: rest)) (by rw [hu] at hb; exact hb) (waited_subset x i _)
    (by rw [hu] at ht; exact fun k hk => ⟨(ht k hk).1, (ht k hk).2.1⟩) hs hf
  have hgo := settle_slots repl imm hu hp ht hpass
  rw [hu, List.map_cons] at hgo
  simp [State.pick, inst?_drain_free hx hn ho ha, Inst.readies, hn, ho, ha, hu, hset, hgo, keepRoom, Pick.tag, hroom]

/-! Delivery -/

/-- An output that has left ahead of its access (R485) is not formed again. -/
theorem emit_told {s : State} {st : SRef} {i : Nat} {t : Tok} {nd : Node} (hn : s.node? st i = some nd)
    (ht : s.hasTold st i t.tag t.idx = true) : s.emit st i t = s.modInst st fun x => x.toldDone i t := by
  simp [State.emit, hn, ht]

/-- It reaches no station. -/
theorem node?_emit_told {s : State} {st : SRef} {i : Nat} {t : Tok} {nd : Node} (hn : s.node? st i = some nd)
    (ht : s.hasTold st i t.tag t.idx = true) (j : Nat) : (s.emit st i t).node? st j = s.node? st j := by
  rw [emit_told hn ht]
  unfold State.node?
  rw [inst?_modInst_same]
  cases s.inst? st <;> rfl

/-- A `LAND` whose route leads to slot a of a `DROP`, and whose output of element 0 has left ahead of its access. -/
def aheadInst : Inst :=
  { Block.start ⟨0, 64, [0, 0x1100000000000000], [], [], [], 0, 16, true, [], []⟩ 0 ⟨[], [], [], 0, [], 0⟩ with
    nodes := [{ nodeOf 0 [] with routes := [some ⟨1, .a⟩] }, nodeOf 0x1100000000000000 [.a]]
    told := [⟨0, 0, 0, 9⟩] }

/-- That block as slice 1's strand runs it. -/
def aheadState : State :=
  { State.reset with slices := [{ oneWord 0 with
      strands := (oneWord 0).strands.map fun t => { t with inst := some aheadInst } }] }

/-- Refutes O13: the token of an output that has left ahead of its access (R485, `Inst.told`) enters no buffer when it is
formed, and the statement leaves that out. -/
theorem not_tokenDelivery : ¬ Obligations.TokenDelivery := by
  unfold Obligations.TokenDelivery
  rintro ⟨h, _⟩
  let nd : Node := { nodeOf 0 [] with routes := [some ⟨1, .a⟩] }
  let c : Node := nodeOf 0x1100000000000000 [.a]
  have hn : aheadState.node? ⟨1, 0⟩ 0 = some nd := rfl
  have ht : aheadState.hasTold ⟨1, 0⟩ 0 0 0 = true := rfl
  obtain ⟨c', hc, hbuf, -⟩ := h aheadState ⟨1, 0⟩ 0 ⟨9, 0, 0, true, false⟩ aheadInst nd c ⟨1, .a⟩ rfl rfl rfl rfl rfl
    (by decide) rfl (by decide) rfl
  have hsame : some c' = some c := by rw [← hc]; exact node?_emit_told (t := ⟨9, 0, 0, true, false⟩) hn ht 1
  obtain rfl := Option.some.inj hsame
  simp at hbuf

/-! Pure instructions, whatever their next element is -/

/-- What a station that acts does with its next element, if there is one. -/
theorem fireWith_acts {s : State} {st : SRef} {i : Nat} (ha : s.acts st i) (h : Hdr) (data : List Slot)
    (repl imm : Word) (act : SRef → Nat → Kind → Ready → State → State) :
    fireWith h data repl imm true act s = .next (match s.pick st i h data repl imm with
      | none => s.drain st i
      | some (.trap r) => (s.drain st i).trapStation st i 0x06 0 r.tag r.idx 0 0
      | some (.settle k r) => act st i k r (s.drain st i)) := by
  rw [fireWith, atStation_acts ha, State.pick]
  cases (s.drain st i).inst? st with
  | none => rfl
  | some x =>
    dsimp only
    cases x.readies i h data repl imm true with
    | nil => rfl
    | cons p ps => cases p <;> rfl

/-- An integer or float instruction is the pure instruction of its rule. -/
theorem exec_intRule {i : Instr} {p : PureRule} (h : intRule i = some p) (s : State) :
    exec i s = firePure p.hdr p.data p.repl p.imm p.res s := by
  cases i <;> simp only [intRule, reduceCtorEq, Option.some.injEq] at h <;> subst h
  case mad h v => cases hm : h.im <;> simp only [exec, execMad, slotsAB, hm] <;> rfl
  all_goals rfl

theorem exec_floatRule {i : Instr} {p : PureRule} (h : floatRule i = some p) (s : State) :
    exec i s = firePure p.hdr p.data p.repl p.imm p.res s := by
  cases i <;> simp only [floatRule, reduceCtorEq, Option.some.injEq] at h <;> subst h
  case fma h v => cases hm : h.im <;> simp only [exec, execFma, slotsAB, hm] <;> rfl
  all_goals rfl

/-- Settles O21, by the pick of the station. -/
theorem pureOtherwise : Obligations.PureOtherwise := by
  unfold Obligations.PureOtherwise
  intro i p s st n r hi ha
  have he : exec i s = firePure p.hdr p.data p.repl p.imm p.res s :=
    hi.elim (fun h => exec_intRule h s) (fun h => exec_floatRule h s)
  rw [he, firePure, fireWith_acts ha]
  refine ⟨fun hp => ?_, fun hp => ?_, fun hp => ?_, fun hp => ?_⟩ <;> rw [hp] <;> rfl

/-! Early instructions -/

/-- An early instruction whose inputs settle an element to data emits it, and sends anti-tokens up the slots that have not
delivered (R31). -/
theorem fireEarly_data {s : State} {st : SRef} {i : Nat} {x : Inst} {nd : Node} {h : Hdr} {data : List Slot}
    {lastOf : List (Slot × Tok) → Bool} {rule : EarlyRule} {tag idx : Nat} {l : List Present} {w : Word} {f : Bool}
    (ha : s.acts st i) (hx : (s.drain st i).inst? st = some x) (hn : (s.drain st i).node? st i = some nd)
    (hf : nd.free = true) (hp : x.earlyPick i h data lastOf rule = some (tag, idx, l, .data w f)) :
    fireEarly h data lastOf rule s = .next
      (((((s.drain st i).consume st i h data ⟨tag, idx, f, ⟨0, 0, 0⟩⟩).antis st i
        ((data.filter fun sl => !l.any fun p => decide (p.slot = sl)).map fun sl =>
          (⟨BitVec.ofNat 7 i, sl⟩, ⟨tag, idx⟩))).emit st i ⟨w, tag, idx, f, false⟩)) := by
  rw [fireEarly, atStation_acts ha]
  simp [hx, hn, hf, hp, State.emitVerdict, Verdict.last]

/-- The used slots of a join at the station that acts. -/
theorem joinSlots_acts {s : State} {st : SRef} {i : Nat} {nd : Node} (ha : s.acts st i) (hn : s.node? st i = some nd) :
    joinSlots s = joinData nd := by
  obtain ⟨hc, -, -⟩ := ha
  simp [joinSlots, joinData, hc, hn]

/-- A join's verdict on inputs that are not empty: one that decides settles it, the others are counted (R142). -/
theorem joinVerdict_cons {t : Tok} (ht : t.e = false) (ep : Ep) (d : Bool) (n : Nat) (l : Bool) (r : List Tok) :
    joinVerdict ep d n l (t :: r) = if t.data.bit 0 = d then .data (Word.ofBool d) l else joinVerdict ep d (n - 1) l r := by
  simp [joinVerdict, ht]

/-- Settles O26: each early instruction is `fireEarly`, and the joins' verdicts count the inputs. -/
theorem earlyComplete : Obligations.EarlyComplete := by
  unfold Obligations.EarlyComplete
  refine ⟨?_, ?_⟩
  · intro s st i h x nd tag idx l w f u early ha hn ho hao hx
    have hd := node?_drain_of_free hn ho hao
    have hf : nd.free = true := by simp [Node.free, ho, hao]
    have hjand : exec (.jand h true) s =
        fireEarly h (joinSlots s) anyLast (joinRule h false (joinSlots s).length) s := rfl
    have hjor : exec (.jor h true) s =
        fireEarly h (joinSlots s) anyLast (joinRule h true (joinSlots s).length) s := rfl
    refine ⟨fun hp => fireEarly_data ha hx hd hf hp, fun hp => ?_, fun hp => ?_⟩
    · rw [hjand, joinSlots_acts ha hn]
      exact fireEarly_data ha hx hd hf hp
    · rw [hjor, joinSlots_acts ha hn]
      exact fireEarly_data ha hx hd hf hp
  · intro ep d l t v ht hv
    refine ⟨fun h => ?_, fun h => ?_, fun h h' => ?_, rfl⟩
    · rw [joinVerdict_cons ht, if_pos h]
    · rw [joinVerdict_cons ht, if_neg h]; rfl
    · rw [joinVerdict_cons ht, if_neg h, joinVerdict_cons hv, if_neg h']; rfl

/-! KILL, WRITE and exits -/

/-- The first exit instruction that fires notes where the strand goes. -/
theorem fireExit_first {s : State} {st : SRef} {i : Nat} {h : Hdr} {r : Ready} {x : Inst} (hg : s.goes st i h [.a] 0 0 r)
    (hx : (s.drain st i).inst? st = some x) (he : x.exit = none) {choice : Block → Word → Option Choice} {c : Choice}
    (hc : choice x.block r.v.a = some c) :
    fireExit h choice s =
      .next (((s.drain st i).consume st i h [.a] r).modInst st fun y => { y with exit := some c }) := by
  refine fireEff_goes hg ?_
  simp [hx, hc, he]

/-- A second one traps MULTIEXIT. -/
theorem fireExit_second {s : State} {st : SRef} {i : Nat} {h : Hdr} {r : Ready} {x : Inst} (hg : s.goes st i h [.a] 0 0 r)
    (hx : (s.drain st i).inst? st = some x) (he : x.exit.isSome = true) {choice : Block → Word → Option Choice}
    {c : Choice} (hc : choice x.block r.v.a = some c) :
    fireExit h choice s = .next ((s.drain st i).trapStation st i 0x04 0 r.tag r.idx 0 0) := by
  refine fireEff_goes hg ?_
  simp [hx, hc, he]

/-- One whose index lies outside its table traps JTBOUND, whether an exit has fired or not. -/
theorem fireExit_outside {s : State} {st : SRef} {i : Nat} {h : Hdr} {r : Ready} {x : Inst} (hg : s.goes st i h [.a] 0 0 r)
    (hx : (s.drain st i).inst? st = some x) {choice : Block → Word → Option Choice} (hc : choice x.block r.v.a = none) :
    fireExit h choice s = .next ((s.drain st i).trapStation st i 0x03 0 r.tag r.idx 0 0) := by
  refine fireEff_goes hg ?_
  simp [hx, hc]

/-- A jump whose index lies in its table. -/
theorem jump_inside {b : Block} {t : Nat} {i : Word} {tab : JTab} {o : Word} (ht : b.jtabs[t]? = some tab)
    (ho : tab.offs[i.toNat]? = some o) (push : Option (Word × Nat)) :
    b.jump t i push = some ⟨0, b.image + o, push, false, some tab.label⟩ := by
  simp [Block.jump, ht, ho]

/-- A jump whose index lies outside its table. -/
theorem jump_outside {b : Block} {t : Nat} {i : Word} {tab : JTab} (ht : b.jtabs[t]? = some tab)
    (ho : tab.offs.length ≤ i.toNat) (push : Option (Word × Nat)) : b.jump t i push = none := by
  simp [Block.jump, ht, ho]

/-- The exit instructions as exits, each with its choice. -/
theorem exec_exit (h : Hdr) (n : BitVec 3) (s : State) :
    exec (.exit h n) s = fireExit h (fun b _ => some ⟨n.toNat, b.target n.toNat, none, false, none⟩) s := rfl

theorem exec_call (h : Hdr) (n : BitVec 3) (s : State) :
    exec (.call h n) s = fireExit h (fun b _ => some ⟨n.toNat, b.target n.toNat,
      some (b.target (n.toNat + 1), b.exitLabel (n.toNat + 1)), false, none⟩) s := rfl

theorem exec_ret (h : Hdr) (s : State) : exec (.ret h) s = fireExit h (fun _ _ => some ⟨0, 0, none, true, none⟩) s := rfl

theorem exec_exiti (h : Hdr) (j : JumpImm) (s : State) :
    exec (.exiti h j) s = fireExit h (fun b i => b.jump j.table.toNat i none) s := rfl

theorem exec_calli (h : Hdr) (j : JumpImm) (s : State) :
    exec (.calli h j) s = fireExit h (fun b i => b.jump j.table.toNat i
      (some (b.target j.ret.toNat, b.exitLabel j.ret.toNat))) s := rfl

/-- Settles O29: `KILL` and `WRITE` as effects that are done, the exits by what they choose. -/
theorem exitsComplete : Obligations.ExitsComplete := by
  unfold Obligations.ExitsComplete
  refine ⟨?_, ?_⟩
  · intro s st i h r x hg hx u goesTo
    simp only [exec_exit, exec_call, exec_ret, exec_exiti, exec_calli]
    refine ⟨fun k => fireEff_goes hg rfl, fun n => ?_, fun he => ⟨fun n => ?_, fun n => ?_, ?_, fun j tab o ht ho => ?_⟩⟩
    · refine fireEff_goes hg ?_
      by_cases hl : r.tag = 0 ∧ r.l = true <;> simp [hl, u]
    · exact fireExit_first hg hx he rfl
    · exact fireExit_first hg hx he rfl
    · exact fireExit_first hg hx he rfl
    · exact ⟨fireExit_first hg hx he (jump_inside ht ho _), fireExit_first hg hx he (jump_inside ht ho _)⟩
  · intro s st i h r x hg hx traps
    simp only [exec_exit, exec_call, exec_ret, exec_exiti, exec_calli]
    refine ⟨fun he => ⟨fun n => ⟨?_, ?_⟩, ?_, fun j tab ht hl => ?_⟩, fun j tab ht hl => ?_⟩
    · exact fireExit_second hg hx he rfl
    · exact fireExit_second hg hx he rfl
    · exact fireExit_second hg hx he rfl
    · have ho := List.getElem?_eq_getElem hl
      exact ⟨fireExit_second hg hx he (jump_inside ht ho _), fireExit_second hg hx he (jump_inside ht ho _)⟩
    · exact ⟨fireExit_outside hg hx (jump_outside ht hl _), fireExit_outside hg hx (jump_outside ht hl _)⟩

end Sys2Proof.Machine
end

section
/-! SUPPORT and proofs. What a firing changes outside its block (R40), and a frame on the call stack that stands in poison
(R47, R428): two statements that fail. -/

namespace Sys2Proof.Machine

/-! `RDSR` while an earlier element of its tag still waits -/

/-- Slice 1's strand with `RDSR` ready at station 1, which acts, while an earlier element of its tag waits for a scope. -/
def owingState : State :=
  { State.reset with
    slices := [{ oneWord 0xE100000000000000 with
      strands := (oneWord 0xE100000000000000).strands.map fun t => { t with waits := [⟨1, ⟨0, 0, 0, true, false⟩, [], .scope 0⟩] } }]
    cur := some ⟨⟨1, 0⟩, 1⟩ }

/-- `RDSR` of register 0 under the default header. -/
def rdsrZero : Instr := .rdsr ⟨0, .q, .absorb, false, false, false, none, none⟩ 0

/-- The waits of slice 1's strand where a step leads. -/
def waitsAfter (o : Host.Outcome State Fault Refusal) : Option Nat :=
  match o with
  | .next t => (t.strand? ⟨1, 0⟩).map fun k => k.waits.length
  | _ => none

theorem waitsAfter_rdsr : waitsAfter (exec rdsrZero owingState) = some 2 := by decide +kernel

/-- Refutes O60: the answer of `RDSR` stands among the waits of its strand, which are no part of the running block, behind an earlier
element of its tag that still waits (R25, `State.answer`). -/
theorem not_firingFrame : ¬ Obligations.FiringFrame := by
  unfold Obligations.FiringFrame
  rintro ⟨hframe, -⟩
  have hw := waitsAfter_rdsr
  cases he : exec rdsrZero owingState with
  | fault f => simp [he, waitsAfter] at hw
  | refused f => simp [he, waitsAfter] at hw
  | next t =>
    obtain ⟨k', hk', hlen⟩ : ∃ k', t.strand? ⟨1, 0⟩ = some k' ∧ k'.waits.length = 2 := by
      simpa [he, waitsAfter] using hw
    obtain ⟨k, hk, hone⟩ : ∃ k, owingState.strand? ⟨1, 0⟩ = some k ∧ k.waits.length = 1 := ⟨_, rfl, rfl⟩
    obtain ⟨c, hc, -, -, -, -, -, -, -, hstrand⟩ := hframe rdsrZero owingState t rfl he
    obtain rfl : (⟨⟨1, 0⟩, 1⟩ : Cur) = c := Option.some.inj hc
    have hwaits := congrArg (fun z : Strand => z.waits.length) (hstrand k k' hk hk')
    simp only [hlen, hone] at hwaits
    omega

/-! A frame pushed onto poisoned bytes -/

/-- Slice 1 with a carve-out of 1 KiB. -/
def carvedSlice : Slice := { oneWord 0 with desc := [0, 0, 0, 2 ^ 48, 0x11110001 + 2 ^ 40, 0, 0, 0] }

/-- A byte of the carve-out's first frame is poisoned. -/
def poisonedState : State :=
  { State.reset with slices := [carvedSlice], poison := [(carvedSlice.carveAt (Strand.begin carvedSlice.desc [0] 0) 0, true)] }

/-- A call that pushes the frame of address 0 and label 0. -/
def callZero : Choice := ⟨0, 0, some (0, 0), false, none⟩

/-- A return, which pops a frame. -/
def returnZero : Choice := ⟨0, 0, none, true, none⟩

/-- Whether a push onto the poisoned carve-out succeeds and the pop of its frame traps. -/
def pushPopTraps : Bool :=
  match poisonedState.stackStep ⟨1, 0⟩ carvedSlice callZero with
  | .ok u _ => (match u.stackStep ⟨1, 0⟩ carvedSlice returnZero with
    | .trap _ _ _ => true
    | _ => false)
  | _ => false

theorem pushPopTraps_eq : pushPopTraps = true := by decide +kernel

/-- Refutes O51: a frame of 16 bytes pushed into a 32-byte unit that is poisoned leaves it poisoned (R428), so that the return
that would pop it traps. -/
theorem not_instancesComplete : ¬ Obligations.InstancesComplete := by
  unfold Obligations.InstancesComplete
  rintro ⟨-, -, -, hstack, -⟩
  have ht := pushPopTraps_eq
  obtain ⟨t, hs, hd, hcap, hopen⟩ : ∃ t, poisonedState.strand? ⟨1, 0⟩ = some t ∧ t.csdepth = 0 ∧ carvedSlice.carveSize / 16 = 64 ∧
      poisonedState.carveOpen carvedSlice t t.csdepth = true := ⟨_, rfl, rfl, by decide +kernel, by decide +kernel⟩
  obtain ⟨-, hpush, -⟩ := hstack poisonedState ⟨1, 0⟩ carvedSlice t callZero hs
  obtain ⟨-, hroom, -⟩ := hpush (0, 0) rfl rfl
  obtain ⟨u, hu, -, -, -, hpop⟩ := hroom (by omega) hopen
  obtain ⟨v, hv, -⟩ := hpop returnZero rfl (by decide)
  simp [pushPopTraps, hu, hv] at ht

end Sys2Proof.Machine
end

section
/-! SUPPORT and proofs. What every operation keeps: the agenda, and the canonical form of memory and local space; stations, traps and firings. -/

namespace Sys2Proof.Machine

/-! What every operation keeps -/

/-- From `s` to `t` the agenda stays, and memory and local space stay canonical. -/
def State.keeps (s t : State) : Prop := t.agenda = s.agenda ∧ (s.memOk → t.memOk)

@[simp] theorem State.keeps.refl (s : State) : s.keeps s := ⟨rfl, id⟩

theorem State.keeps.trans {s t u : State} (h : s.keeps t) (h' : t.keeps u) : s.keeps u := by
  obtain ⟨ha, hf⟩ := h
  obtain ⟨ha', hf'⟩ := h'
  exact ⟨ha'.trans ha, hf' ∘ hf⟩

/-- A change of anything else. -/
theorem State.keeps.same {s u v : State} (h : s.keeps u) (ha : v.agenda = u.agenda) (hm : v.mem = u.mem) (hl : v.loc = u.loc) :
    s.keeps v := by
  obtain ⟨h, hf⟩ := h
  refine ⟨ha.trans h, fun hs => ?_⟩
  have hu := hf hs
  unfold State.memOk at hu ⊢
  rwa [hm, hl]

/-- Where a station stands: `cur` names it, and its strand runs a block. -/
def State.stands (s : State) : Prop := ∃ c x y, s.cur = some c ∧ s.slice? c.st.slice = some x ∧ s.inst? c.st = some y

/-- What an event leaves: a state, which keeps. -/
def State.leads (s : State) (o : Host.Outcome State Fault Refusal) : Prop := ∃ t, o = .next t ∧ s.keeps t

/-- What an instruction row leaves: a state, which keeps, where a station stands, and the one fault elsewhere. -/
def State.lands (s : State) (o : Host.Outcome State Fault Refusal) : Prop :=
  (s.stands → s.leads o) ∧ (¬ s.stands → o = .fault .noStation)

/-- The state that an effect leaves. -/
def Eff.state : Eff → State
  | .done s => s
  | .wait s => s

@[simp] theorem Eff.state_done (s : State) : (Eff.done s).state = s := rfl
@[simp] theorem Eff.state_wait (s : State) : (Eff.wait s).state = s := rfl

theorem keeps_done {s t : State} {e : Eff} (h : s.keeps e.state) (he : e = .done t) : s.keeps t := by
  subst he; exact h

theorem keeps_wait {s t : State} {e : Eff} (h : s.keeps e.state) (he : e = .wait t) : s.keeps t := by
  subst he; exact h

theorem keeps_ite {s a b : State} {p : Prop} [Decidable p] (ha : s.keeps a) (hb : s.keeps b) :
    s.keeps (if p then a else b) := by
  split
  · exact ha
  · exact hb

theorem keeps_effIte {s : State} {p : Prop} [Decidable p] {a b : Eff} (ha : s.keeps a.state) (hb : s.keeps b.state) :
    s.keeps (if p then a else b).state := by
  split
  · exact ha
  · exact hb

section
variable {s u : State} (h : s.keeps u)
include h

/-- A step of a fold that keeps, again and again. -/
theorem State.keeps.foldl {α : Type} {f : State → α → State} (hf : ∀ v a, s.keeps v → s.keeps (f v a)) (l : List α) :
    s.keeps (l.foldl f u) := by
  induction l generalizing u with
  | nil => exact h
  | cons a l ih => exact ih (hf u a h)

/-! Strands, stations and traps -/

theorem State.keeps.modSlice {id : Nat} {f : Slice → Slice} : s.keeps (u.modSlice id f) := h

theorem State.keeps.modStrand {st : SRef} {f : Strand → Strand} : s.keeps (u.modStrand st f) := h

theorem State.keeps.modInst {st : SRef} {f : Inst → Inst} : s.keeps (u.modInst st f) := h

theorem State.keeps.modNode {st : SRef} {i : Nat} {f : Node → Node} : s.keeps (u.modNode st i f) := h

theorem State.keeps.drain {st : SRef} {i : Nat} : s.keeps (u.drain st i) := h

theorem State.keeps.out {st : SRef} {i : Nat} {o : Out} : s.keeps (u.out st i o) := h

theorem State.keeps.emit {st : SRef} {i : Nat} {t : Tok} : s.keeps (u.emit st i t) := by
  unfold State.emit
  split
  · exact h
  · split <;> exact h

theorem State.keeps.antis {st : SRef} {i : Nat} {l : List (KillImm × Anti)} : s.keeps (u.antis st i l) := h

theorem State.keeps.raise {st : SRef} {fl : Nat} : s.keeps (u.raise st fl) := by
  unfold State.raise
  split <;> exact h

theorem State.keeps.beginWave {id : Nat} {c : Cause} : s.keeps (u.beginWave id c) := h

theorem State.keeps.takeTrap {id : Nat} {t : Trap} : s.keeps (u.takeTrap id t) := h

theorem State.keeps.dropHolds {st : SRef} : s.keeps (u.dropHolds st) := h

theorem State.keeps.trapStation {st : SRef} {i code sub tag eidx acc : Nat} {addr : Word} :
    s.keeps (u.trapStation st i code sub tag eidx acc addr) := by
  unfold State.trapStation
  split <;> exact h

/-! Firing -/

theorem State.keeps.consume {st : SRef} {i : Nat} {k : Hdr} {data : List Slot} {r : Ready} :
    s.keeps (u.consume st i k data r) := h

theorem State.keeps.emitNothing {st : SRef} {i : Nat} {r : Ready} : s.keeps (u.emitNothing st i r) := by
  unfold State.emitNothing
  split
  · exact h.emit
  · exact h

theorem State.keeps.emitForward {st : SRef} {i : Nat} {r : Ready} : s.keeps (u.emitForward st i r) := h.emit

theorem State.keeps.emitData {st : SRef} {i : Nat} {r : Ready} {w : Word} : s.keeps (u.emitData st i r w) := h.emit

theorem State.keeps.settleEmpty {k : Hdr} {data : List Slot} {st : SRef} {i : Nat} {r : Ready} {go : State → State}
    (hg : s.keeps (go u)) (d : Kind) : s.keeps (settleEmpty k data st i d r go u) := by
  cases d with
  | nothing => exact h.consume.emitNothing
  | forward => exact h.consume.emitForward
  | go => exact hg

theorem State.keeps.tryPicks {k : Hdr} {data : List Slot} {eff : SRef → Nat → Ready → State → Eff}
    (he : ∀ st i r v, s.keeps v → s.keeps (eff st i r v).state) (st : SRef) (i : Nat) (held : List Nat) (l : List Pick) :
    s.keeps (tryPicks k data eff st i held l u) := by
  induction l generalizing held u with
  | nil => exact h
  | cons p l ih =>
    unfold Machine.tryPicks
    split
    · exact ih h held
    · split
      · exact h.trapStation
      · split
        · exact ih h _
        · exact h.consume.emitNothing
      · split
        · exact ih h _
        · exact h.consume.emitForward
      · next r _ =>
        split
        · next t ht => exact keeps_done (he st i r u h) ht
        · next t ht => exact ih (keeps_wait (he st i r u h) ht) _

theorem State.keeps.trySets {act : SRef → Nat → List (Slot × Tok) → Ready → State → Eff}
    (he : ∀ st i l r v, s.keeps v → s.keeps (act st i l r v).state) (st : SRef) (i : Nat) (held : List Nat)
    (l : List (List (Slot × Tok))) : s.keeps (trySets act st i held l u) := by
  induction l generalizing held u with
  | nil => exact h
  | cons p l ih =>
    unfold Machine.trySets
    split
    · exact ih h held
    · split
      · exact ih h held
      · dsimp only
        split
        · next t ht => exact keeps_done (he st i _ _ u h) ht
        · next t ht => exact ih (keeps_wait (he st i _ _ u h) ht) _

end

/-! Outcomes -/

@[simp] theorem leads_next {s t : State} : s.leads (.next t) ↔ s.keeps t :=
  ⟨fun ⟨_, h, hk⟩ => by cases h; exact hk, fun h => ⟨t, rfl, h⟩⟩

theorem lands_ite {s : State} {p : Prop} [Decidable p] {a b : Host.Outcome State Fault Refusal} (ha : s.lands a)
    (hb : s.lands b) : s.lands (if p then a else b) := by
  split
  · exact ha
  · exact hb

/-- A step at a station lands where it keeps. -/
theorem atStation_lands {s : State} {k : SRef → Nat → State → State} (hk : ∀ st i u, s.keeps u → s.keeps (k st i u)) :
    s.lands (atStation s k) := by
  refine ⟨fun ⟨c, x, y, hc, hx, hy⟩ => ?_, fun hn => ?_⟩
  · simp only [atStation, hc, hx, hy]
    split
    · exact ⟨_, rfl, hk _ _ _ (State.keeps.refl s).drain⟩
    · exact ⟨_, rfl, State.keeps.refl s⟩
  · unfold atStation
    split
    · rfl
    · next c hc =>
      split
      · next x y hx hy => exact absurd ⟨c, x, y, hc, hx, hy⟩ hn
      · rfl

theorem fireWith_lands {s : State} {h : Hdr} {data : List Slot} {repl imm : Word} {room : Bool}
    {act : SRef → Nat → Kind → Ready → State → State} (hk : ∀ st i k r u, s.keeps u → s.keeps (act st i k r u)) :
    s.lands (fireWith h data repl imm room act s) := by
  refine atStation_lands fun st i u hu => ?_
  split
  · exact hu
  · split
    · exact hu
    · exact hu.trapStation
    · exact hk _ _ _ _ _ hu

theorem firePure_lands (h : Hdr) (data : List Slot) (repl imm : Word) (g : Env → Vals → Word × Nat) (s : State) :
    s.lands (firePure h data repl imm g s) :=
  fireWith_lands fun _ _ k _ _ hu => hu.settleEmpty hu.consume.raise.emitData k

theorem fireEff_lands {s : State} {h : Hdr} {data : List Slot} {repl imm : Word} {eff : SRef → Nat → Ready → State → Eff}
    (he : ∀ st i r u, s.keeps u → s.keeps (eff st i r u).state) : s.lands (fireEff h data repl imm eff s) := by
  refine atStation_lands fun st i u hu => ?_
  split
  · exact hu
  · exact hu.tryPicks he st i _ _

theorem fireRaw_lands {s : State} {h : Hdr} {data : List Slot}
    {act : SRef → Nat → List (Slot × Tok) → Ready → State → Eff}
    (he : ∀ st i l r u, s.keeps u → s.keeps (act st i l r u).state) : s.lands (fireRaw h data act s) := by
  refine atStation_lands fun st i u hu => ?_
  split
  · split
    · exact hu.trySets he st i _ _
    · exact hu
  · exact hu

theorem fireInOrder_lands {s : State} {h : Hdr} {data : List Slot}
    {act : SRef → Nat → List (Slot × Tok) → Ready → State → Eff}
    (he : ∀ st i l r u, s.keeps u → s.keeps (act st i l r u).state) : s.lands (fireInOrder h data act s) := by
  refine atStation_lands fun st i u hu => ?_
  split
  · split
    · exact hu.trySets he st i _ _
    · exact hu
  · exact hu

theorem fireStart_lands (val : SRef → State → Word) (s : State) : s.lands (fireStart val s) := by
  refine atStation_lands fun st i u hu => ?_
  split
  · exact hu
  · split
    · exact hu
    · split
      · exact hu.modNode.emit
      · exact hu

end Sys2Proof.Machine
end

section
/-! SUPPORT and proofs. What the flow instructions keep (R134–R157, R245, R246). -/

namespace Sys2Proof.Machine

section
variable {s u : State} (h : s.keeps u)
include h

/-! Flow -/

theorem State.keeps.settleFrames {st : SRef} : s.keeps (u.settleFrames st) := by
  unfold State.settleFrames
  split <;> exact h

theorem State.keeps.emitVerdict {st : SRef} {i tag idx : Nat} {v : Verdict} :
    s.keeps (u.emitVerdict st i tag idx v) := by
  cases v with
  | nothing l => exact h.emitNothing
  | forward l => exact h.emit
  | data w l => exact h.emit
  | wait => exact h
  | trap => exact h

theorem State.keeps.steerEnd {st : SRef} {i tag : Nat} : s.keeps (u.steerEnd st i tag) := by
  unfold State.steerEnd
  split
  · exact h
  · refine h.modNode.foldl (fun v o hv => ?_) _
    split
    · exact hv.out
    · exact hv

theorem State.keeps.steerPut {st : SRef} {i tag o : Nat} {w : Word} {e : Bool} :
    s.keeps (u.steerPut st i tag o w e) := by
  unfold State.steerPut
  split
  · exact h
  · dsimp only
    split <;> exact h

theorem State.keeps.openFrame {st : SRef} {f outer g w : Nat} : s.keeps (u.openFrame st f outer g w) := h

theorem State.keeps.enterFrame {st : SRef} {i : Nat} {x : LoopImm} {outer : Nat} {p : Nat × State}
    (hp : u.enterFrame st i x outer = some p) : s.keeps p.2 := by
  unfold State.enterFrame at hp
  split at hp
  · cases hp
  · dsimp only at hp
    split at hp
    · cases hp; exact h
    · split at hp
      · cases hp
      · obtain ⟨f, -, rfl⟩ := Option.map_eq_some_iff.mp hp
        exact h

theorem State.keeps.carryEmit {st : SRef} {i : Nat} : s.keeps (u.carryEmit st i) := by
  unfold State.carryEmit
  dsimp only
  split
  · split
    · split
      · exact h.settleFrames.modNode.emit
      · exact h.settleFrames
    · exact h.settleFrames
  · exact h.settleFrames

theorem State.keeps.genEmit {st : SRef} {i : Nat} {t : Ty} : s.keeps (u.genEmit st i t) := by
  unfold State.genEmit
  split
  · exact h
  · split
    · exact h
    · dsimp only
      split
      · exact h.modNode.emit
      · exact h

/-! Streams -/

theorem State.keeps.redJoin {k : Hdr} {op : Opr} {st : SRef} {i : Nat} : s.keeps (redJoin k op st i u) := by
  unfold Machine.redJoin
  split
  · exact h
  · split
    · exact h
    · exact h.modNode.raise

theorem State.keeps.redElem {k : Hdr} {op : Opr} {st : SRef} {i : Nat} {l : List (Slot × Tok)} {r : Ready} :
    s.keeps (redElem k op st i l r u).state := by
  unfold Machine.redElem
  split
  · exact h
  · exact h.trapStation
  · split
    · exact h
    · have hv := fun fl f => (h.consume (st := st) (i := i) (k := k) (data := [.a]) (r := r)).raise (st := st) (fl := fl)
        |>.modNode (st := st) (i := i) (f := f)
      dsimp only
      split
      · split
        · exact (hv _ _).emit
        · exact (hv _ _).raise.emit
      · exact hv _ _

theorem State.keeps.shufTakeA {k : Hdr} {repl : Word} {st : SRef} {i : Nat} {l : List (Slot × Tok)} {t : Tok} :
    s.keeps (shufTakeA k repl st i l t u).state := by
  unfold Machine.shufTakeA
  split
  · exact h
  · exact h.trapStation
  · dsimp only
    split
    · split
      · exact h
      · split
        · exact h.trapStation
        · exact h.modNode.emitVerdict
    · exact h

theorem State.keeps.shufTakeB {k : Hdr} {repl : Word} {st : SRef} {i : Nat} {l : List (Slot × Tok)} {t : Tok} :
    s.keeps (shufTakeB k repl st i l t u).state := by
  unfold Machine.shufTakeB
  split
  · exact h
  · dsimp only
    split
    · exact h
    · exact h.trapStation
    · split
      · exact h
      · exact h.modNode.emitVerdict

theorem State.keeps.takeFirst {act : SRef → Nat → List (Slot × Tok) → Tok → State → Eff}
    (ha : ∀ st i l t v, s.keeps v → s.keeps (act st i l t v).state) {st : SRef} {i : Nat}
    {l : List (List (Slot × Tok))} {v : State} (hv : takeFirst act st i l u = some v) : s.keeps v := by
  induction l with
  | nil => cases hv
  | cons p l ih =>
    unfold Machine.takeFirst at hv
    split at hv
    · exact ih hv
    · split at hv
      · next t ht => cases hv; exact keeps_done (ha _ _ _ _ _ h) ht
      · exact ih hv

theorem State.keeps.emitList {st : SRef} {i tag k : Nat} {b : Bool} {l : List Word} :
    s.keeps (u.emitList st i tag k b l) := by
  induction l generalizing u k with
  | nil => exact h
  | cons w l ih => exact ih h.emit

theorem State.keeps.outTo {st : SRef} {i k : Nat} {t : Tok} : s.keeps (u.outTo st i k t) := by
  unfold State.outTo
  split <;> exact h

theorem State.keeps.treeTake {k : Hdr} {data : List Slot} {st : SRef} {i : Nat} {l : List (Slot × Tok)} :
    s.keeps (treeTake k data st i l u) := by
  unfold Machine.treeTake
  split
  · dsimp only
    split
    · exact h.trapStation
    · exact h.consume.modNode.emitNothing
    · exact h.consume.modNode.emitForward
    · split
      · exact h.trapStation
      · exact h.consume.modNode.outTo.outTo
  · exact h

theorem State.keeps.acceptStep {st : SRef} {i : Nat} {t : Tok} {l : List (Slot × Tok)} {e : AcceptSt} :
    s.keeps (acceptStep st i t l e u) := by
  unfold Machine.acceptStep
  dsimp only
  split
  · split
    · exact h
    · split
      · exact h.trapStation
      · exact h.modNode.antis
  · exact h

theorem State.keeps.acceptTake {k : Hdr} {st : SRef} {i : Nat} {sl : Slot} {t : Tok} {l : List (Slot × Tok)} :
    s.keeps (acceptTake k st i sl t l u) := by
  unfold Machine.acceptTake
  dsimp only
  split
  · exact h
  · split
    · exact h
    · split
      · split
        · exact h
        · split
          · exact h.acceptStep
          · split
            · exact h
            · split
              · exact h.modNode.emit
              · exact h
            · exact h.acceptStep
            · exact h.trapStation
      · split
        · exact h.trapStation
        · exact h
        · exact h
        · split
          · exact h.acceptStep
          · split
            · exact h
            · exact h
            · exact h.acceptStep
            · exact h.trapStation

end

end Sys2Proof.Machine
end

section
/-! SUPPORT and proofs. Where stations stand, which a firing's first effects leave as it is. -/

namespace Sys2Proof.Machine

/-! Where stations stand: what depends on `cur` and on which strands run a block alone -/

/-- Which strands of a slice run a block. -/
def Slice.shape (x : Slice) : Nat × List Bool := (x.id, x.strands.map fun t => t.inst.isSome)

/-- What says where stations stand. -/
def State.shape (s : State) : Option Cur × List (Nat × List Bool) := (s.cur, s.slices.map Slice.shape)

theorem slice?_shape (s : State) (id : Nat) :
    (s.slice? id).map Slice.shape = s.shape.2.find? fun p => p.1 == id := by
  simp [State.slice?, State.shape, List.find?_map, Function.comp_def, Slice.shape]

theorem isSome_inst?_shape (s : State) (st : SRef) :
    (s.inst? st).isSome = ((s.slice? st.slice).map Slice.shape).any fun p => p.2[st.rank]? == some true := by
  unfold State.inst? State.strand?
  cases s.slice? st.slice with
  | none => rfl
  | some x =>
    simp only [Option.map_some, Option.any_some, Slice.shape, List.getElem?_map]
    cases x.strands[st.rank]? with
    | none => rfl
    | some t => cases h : t.inst <;> simp [h]

theorem stands_iff (s : State) : s.stands ↔ ∃ c, s.shape.1 = some c ∧ (s.inst? c.st).isSome = true := by
  constructor
  · rintro ⟨c, x, y, hc, -, hy⟩
    exact ⟨c, hc, by simp [hy]⟩
  · rintro ⟨c, hc, hy⟩
    obtain ⟨y, hy⟩ := Option.isSome_iff_exists.mp hy
    cases hx : s.slice? c.st.slice with
    | none => simp [State.inst?, State.strand?, hx] at hy
    | some x => exact ⟨c, x, y, hc, hx, hy⟩

/-- States of one shape have their stations at the same places. -/
theorem stands_of_shape {s t : State} (h : t.shape = s.shape) (hs : s.stands) : t.stands := by
  rw [stands_iff] at hs ⊢
  obtain ⟨c, hc, hy⟩ := hs
  refine ⟨c, by rw [h]; exact hc, ?_⟩
  rw [isSome_inst?_shape, slice?_shape] at hy ⊢
  rw [h]
  exact hy

theorem map_modAt {α β : Type} {g : α → β} {f : α → α} (h : ∀ a, g (f a) = g a) (l : List α) (n : Nat) :
    (modAt l n f).map g = l.map g := by
  induction l generalizing n with
  | nil => rfl
  | cons a l ih =>
    cases n with
    | zero => simp [modAt, h]
    | succ n => simp [modAt, ih]

theorem shape_mapSlices {s : State} {f : Slice → Slice} (h : ∀ x, (f x).shape = x.shape) :
    ({ s with slices := s.slices.map f } : State).shape = s.shape := by
  simp [State.shape, Function.comp_def, h]

theorem shape_modSlice {f : Slice → Slice} (h : ∀ x, (f x).shape = x.shape) (s : State) (id : Nat) :
    (s.modSlice id f).shape = s.shape := by
  refine shape_mapSlices fun x => ?_
  split
  · exact h x
  · rfl

theorem shape_modStrand {f : Strand → Strand} (h : ∀ t, (f t).inst.isSome = t.inst.isSome) (s : State) (st : SRef) :
    (s.modStrand st f).shape = s.shape :=
  shape_modSlice (f := fun x => { x with strands := modAt x.strands st.rank f })
    (fun x => congrArg (Prod.mk x.id) (map_modAt (g := fun t : Strand => t.inst.isSome) h x.strands st.rank)) s _

@[simp] theorem shape_modInst (s : State) (st : SRef) (f : Inst → Inst) : (s.modInst st f).shape = s.shape :=
  shape_modStrand (fun t => by simp) s st

@[simp] theorem shape_modNode (s : State) (st : SRef) (i : Nat) (f : Node → Node) : (s.modNode st i f).shape = s.shape :=
  shape_modInst ..

@[simp] theorem shape_drain (s : State) (st : SRef) (i : Nat) : (s.drain st i).shape = s.shape := shape_modInst ..

@[simp] theorem shape_out (s : State) (st : SRef) (i : Nat) (o : Out) : (s.out st i o).shape = s.shape := by
  simp [State.out]

@[simp] theorem shape_emit (s : State) (st : SRef) (i : Nat) (t : Tok) : (s.emit st i t).shape = s.shape := by
  unfold State.emit
  split
  · rfl
  · split
    · exact shape_modInst ..
    · exact shape_out ..

@[simp] theorem shape_settleFrames (s : State) (st : SRef) : (s.settleFrames st).shape = s.shape := by
  unfold State.settleFrames
  split
  · rfl
  · exact shape_modInst ..

@[simp] theorem shape_carryEmit (s : State) (st : SRef) (i : Nat) : (s.carryEmit st i).shape = s.shape := by
  unfold State.carryEmit
  dsimp only
  split
  · split
    · split
      · simp
      · simp
    · simp
  · simp

@[simp] theorem shape_genEmit (s : State) (st : SRef) (i : Nat) (t : Ty) : (s.genEmit st i t).shape = s.shape := by
  unfold State.genEmit
  split
  · rfl
  · split
    · rfl
    · dsimp only
      split
      · simp
      · rfl

/-- A step at a station whose second part lands from where the first has left it. -/
theorem atStation_then_lands {s : State} {k : SRef → Nat → State → State}
    {f : State → Host.Outcome State Fault Refusal} (hk : ∀ st i u, s.keeps u → s.keeps (k st i u))
    (hs : ∀ st i u, (k st i u).shape = u.shape) (hf : ∀ u : State, u.lands (f u)) :
    s.lands (match atStation s k with
      | .next u => f u
      | o => o) := by
  refine ⟨fun h => ?_, fun hn => ?_⟩
  · obtain ⟨u, hu, hku⟩ := (atStation_lands hk).1 h
    have hst : u.stands := by
      refine stands_of_shape ?_ h
      obtain ⟨c, x, y, hc, hx, hy⟩ := h
      simp only [atStation, hc, hx, hy] at hu
      split at hu
      · cases hu; rw [hs, shape_drain]
      · cases hu; rfl
    obtain ⟨t, ht, hkt⟩ := (hf u).1 hst
    exact ⟨t, by rw [hu]; exact ht, hku.trans hkt⟩
  · rw [(atStation_lands hk).2 hn]

end Sys2Proof.Machine
end

section
/-! SUPPORT and proofs. Waits and the rows that act within their block lead on. -/

namespace Sys2Proof.Machine

/-! Waits -/

section
variable {s u : State} (h : s.keeps u)
include h

theorem State.keeps.beginWait {st : SRef} {i : Nat} {k : Hdr} {data : List Slot} {r : Ready} {w : WaitKind} :
    s.keeps (u.beginWait st i k data r w) := by
  unfold State.beginWait
  split <;> exact h

theorem State.keeps.unwait {st : SRef} {n : Nat} : s.keeps (u.unwait st n) := by
  unfold State.unwait
  split
  · exact h
  · split <;> exact h

theorem State.keeps.endWait {st : SRef} {n : Nat} {data : Word} {e : Bool} : s.keeps (u.endWait st n data e) := by
  unfold State.endWait
  split
  · exact h
  · split
    · exact h
    · exact h.modStrand.emit

theorem State.keeps.flushWaits {st : SRef} {f : Nat} : s.keeps (u.flushWaits st f) := by
  induction f generalizing u with
  | zero => exact h
  | succ f ih =>
    unfold State.flushWaits
    split
    · exact h
    · split
      · exact h
      · split
        · exact ih h.endWait
        · exact h

theorem State.keeps.release {st : SRef} {n : Nat} {data : Word} {e : Bool} :
    s.keeps (u.release st n data e) := by
  unfold State.release
  dsimp only
  split
  · exact h.modStrand.flushWaits
  · exact h

theorem State.keeps.answer {k : Hdr} {data : List Slot} {st : SRef} {i : Nat} {r : Ready} {w : Word} :
    s.keeps (u.answer k data st i r w) := by
  unfold State.answer
  split
  · exact h
  · split
    · exact h.beginWait.release
    · exact h.consume.emitData

end

/-! Rows of pure instructions -/

theorem exec_intRule_lands {i : Instr} {p : PureRule} (h : intRule i = some p) (s : State) : s.lands (exec i s) := by
  rw [exec_intRule h]
  exact firePure_lands ..

theorem exec_floatRule_lands {i : Instr} {p : PureRule} (h : floatRule i = some p) (s : State) :
    s.lands (exec i s) := by
  rw [exec_floatRule h]
  exact firePure_lands ..

/-! Flow rows -/

theorem fireEarly_lands (h : Hdr) (data : List Slot) (lastOf : List (Slot × Tok) → Bool) (rule : EarlyRule) (s : State) :
    s.lands (fireEarly h data lastOf rule s) := by
  refine atStation_lands fun st i u hu => ?_
  split
  · split
    · exact hu
    · split
      · exact hu
      · exact hu.trapStation
      · exact hu.consume.antis.emitVerdict
  · exact hu

theorem execSel_lands (h : Hdr) (ef : Bool) (s : State) : s.lands (execSel h ef s) := by
  unfold execSel
  split
  · exact fireEarly_lands ..
  · refine fireRaw_lands fun st i l r u hu => ?_
    split
    · exact hu
    · split
      · exact hu.trapStation
      · exact hu
      · exact hu.consume.emitVerdict

theorem execSteer_lands (h : Hdr) (s : State) : s.lands (execSteer h s) := by
  refine fireRaw_lands fun st i l r u hu => ?_
  split
  · exact hu.trapStation
  · split
    · dsimp only
      split
      · split
        · exact hu.consume.steerPut.steerEnd
        · exact hu.consume.steerEnd
      · split
        · exact hu.consume.steerPut
        · exact hu
    · exact hu

theorem execMerge_lands (h : Hdr) (s : State) : s.lands (execMerge h s) := by
  refine atStation_lands fun st i u hu => ?_
  split
  · split
    · exact hu
    · split
      · exact hu
      · dsimp only
        split
        · exact hu
        · exact hu.trapStation
        · exact hu.modNode.emitNothing
        · exact hu.modNode.emitForward
        · exact hu.modNode.emitData
  · exact hu

theorem execJand_lands (h : Hdr) (ef : Bool) (s : State) : s.lands (execJand h ef s) := by
  unfold execJand
  dsimp only
  split
  · exact fireEarly_lands ..
  · exact firePure_lands ..

theorem execJor_lands (h : Hdr) (ef : Bool) (s : State) : s.lands (execJor h ef s) := by
  unfold execJor
  dsimp only
  split
  · exact fireEarly_lands ..
  · exact firePure_lands ..

theorem execLoopin_lands (h : Hdr) (x : LoopImm) (s : State) : s.lands (execLoopin h x s) := by
  refine fireRaw_lands fun st i l r u hu => ?_
  split
  · exact hu
  · split
    · exact hu.trapStation
    · split
      · exact hu.consume
      · split
        · exact hu
        · next f v hv =>
          split
          · exact (hu.settleFrames.enterFrame hv).consume.emit
          · exact hu

theorem execLoopout_lands (h : Hdr) (x : LoopImm) (s : State) : s.lands (execLoopout h x s) := by
  refine fireInOrder_lands fun st i l r u hu => ?_
  split
  · split
    · exact hu.consume
    · split
      · exact hu.trapStation
      · split
        · exact hu.consume.settleFrames
        · split
          · exact hu.consume.emit.settleFrames
          · exact hu
  · exact hu

theorem execCnt_lands (h : Hdr) (s : State) : s.lands (execCnt h s) := by
  refine fireRaw_lands fun st i l r u hu => ?_
  split
  · dsimp only
    split
    · exact hu.trapStation
    · split
      · exact hu
      · split
        · exact hu.consume.modNode.emit
        · exact hu
  · exact hu

theorem execIter_lands (h : Hdr) (s : State) : s.lands (execIter h s) :=
  fireWith_lands fun _ _ k _ _ hu => hu.settleEmpty hu.consume.emitData k

theorem execKill_lands (h : Hdr) (x : KillImm) (s : State) : s.lands (execKill h x s) :=
  fireEff_lands fun _ _ _ _ hu => hu.consume.antis

theorem execWrite_lands (h : Hdr) (r : BitVec 6) (s : State) : s.lands (execWrite h r s) := by
  refine fireEff_lands fun st i o u hu => ?_
  dsimp only
  split <;> exact hu

theorem fireExit_lands (h : Hdr) (choice : Block → Word → Option Choice) (s : State) : s.lands (fireExit h choice s) := by
  refine fireEff_lands fun st i r u hu => ?_
  split
  · exact hu
  · split
    · exact hu.trapStation
    · split
      · exact hu.trapStation
      · exact hu

/-! Rows whose step has two parts -/

theorem execCarry_lands (h : Hdr) (x : LoopImm) (s : State) : s.lands (execCarry h x s) := by
  refine atStation_then_lands (fun _ _ _ hu => hu.carryEmit) (fun _ _ u => shape_carryEmit u _ _) fun v => ?_
  refine fireRaw_lands fun st i l r u hu => ?_
  split
  · dsimp only
    split
    · exact hu
    · split
      · exact hu.trapStation
      · exact hu.consume.modNode.carryEmit
  · exact hu

theorem execGen_lands (h : Hdr) (n : BitVec 16) (s : State) : s.lands (execGen h n s) := by
  refine atStation_then_lands (fun _ _ _ hu => hu.genEmit) (fun _ _ u => shape_genEmit u _ _ _) fun v => ?_
  refine lands_ite ?_ ?_
  · refine atStation_lands fun st i u hu => ?_
    split
    · exact hu
    · split
      · exact hu
      · exact hu.modNode.genEmit
  · refine fireRaw_lands fun st i l r u hu => ?_
    split
    · exact hu
    · split
      · exact hu
      · split
        · exact hu.trapStation
        · exact hu.consume
        · split
          · exact hu.consume.emitForward
          · exact hu
        · exact hu.consume.modNode.genEmit

/-! Rows of streams -/

theorem execRed_lands (h : Hdr) (op : Opr) (s : State) : s.lands (execRed h op s) :=
  lands_ite (atStation_lands fun _ _ _ hu => hu.redJoin) (fireRaw_lands fun _ _ _ _ _ hu => hu.redElem)

theorem execScan_lands (h : Hdr) (op : Opr) (s : State) : s.lands (execScan h op s) := by
  refine fireRaw_lands fun st i l r u hu => ?_
  split
  · exact hu
  · exact hu.trapStation
  · split
    · exact hu
    · dsimp only
      split
      · exact hu.consume.raise.modNode.emitNothing
      · split
        · exact hu.consume.raise.modNode.emitForward
        · exact hu.consume.raise.modNode.raise.emitData

theorem execShuf_lands (h : Hdr) (v : BitVec 21) (s : State) : s.lands (execShuf h v s) := by
  unfold execShuf
  dsimp only
  refine atStation_lands fun st i u hu => ?_
  split
  · split
    · exact hu
    · split
      · next w hw => exact hu.takeFirst (fun _ _ _ _ _ hv => hv.shufTakeA) hw
      · split
        · exact hu
        · next x nd _ _ _ _ _ _ =>
          cases hw : takeFirst (shufTakeB h (valOperand h.ty v)) st i (nd.singles _ h true .b) u with
          | none => exact hu
          | some w => exact hu.takeFirst (fun _ _ _ _ _ hv => hv.shufTakeB) hw
  · exact hu

theorem execIdx_lands (h : Hdr) (s : State) : s.lands (execIdx h s) :=
  fireWith_lands fun _ _ k _ _ hu => hu.settleEmpty hu.consume.raise.emitData k

theorem execQpack_lands (h : Hdr) (x : CvtImm) (s : State) : s.lands (execQpack h x s) := by
  refine fireRaw_lands fun st i l r u hu => ?_
  split
  · exact hu
  · exact hu.trapStation
  · dsimp only
    split
    · exact hu
    · split
      · exact hu.consume.modNode.raise.emitList
      · exact hu

theorem execQunpk_lands (h : Hdr) (x : CvtImm) (s : State) : s.lands (execQunpk h x s) := by
  refine fireRaw_lands fun st i l r u hu => ?_
  split
  · exact hu
  · exact hu.trapStation
  · exact keeps_effIte hu.trapStation (keeps_effIte hu hu.consume.modNode.raise.emitList)

theorem execTree_lands (h : Hdr) (x : EngImm) (s : State) : s.lands (execTree h x s) := by
  unfold execTree
  dsimp only
  refine atStation_lands fun st i u hu => ?_
  split
  · split
    · exact hu
    · split
      · exact hu.treeTake
      · exact hu
  · exact hu

theorem execAccept_lands (h : Hdr) (x : EngImm) (s : State) : s.lands (execAccept h x s) := by
  refine atStation_lands fun st i u hu => ?_
  split
  · split
    · exact hu
    · split
      · split
        · exact hu.modNode.emitList
        · exact hu
      · split
        · exact hu.acceptTake
        · exact hu
  · exact hu

end Sys2Proof.Machine
end

section
/-! SUPPORT and proofs. Memory, timestamps, updates and the sort yard: what they keep. -/

namespace Sys2Proof.Machine

/-- What changes memory or local space alone, in canonical form, keeps. -/
theorem keeps_of_memOk {s u v : State} (h : s.keeps u) (ha : v.agenda = u.agenda) (hm : u.memOk → v.memOk) : s.keeps v :=
  h.trans ⟨ha, hm⟩

theorem agenda_pokeMem (u : State) (pa : Nat) (bs : List Byte) : (u.pokeMem pa bs).agenda = u.agenda := by
  unfold State.pokeMem State.soil
  split
  · rfl
  · rfl

section
variable {s u : State} (h : s.keeps u)
include h

/-! Timestamps and physical writes -/

theorem State.keeps.raisePt {who ts : Nat} : s.keeps (u.raisePt who ts) := h

theorem State.keeps.eventAt {p : Party} {ts : Nat} : s.keeps (u.eventAt p ts) := by
  unfold State.eventAt
  split
  · exact h
  · exact h

theorem State.keeps.hostSend {k : HostMsgKind} {pa : Nat} {bs : List Byte} : s.keeps (u.hostSend k pa bs) := by
  unfold State.hostSend
  split
  · exact h
  · exact h

theorem State.keeps.loadTs {p : Party} {copy : Bool} {pa : Nat} : s.keeps (u.loadTs p copy pa) := by
  unfold State.loadTs
  split
  · exact h.hostSend
  · dsimp only
    split
    · exact h.eventAt
    · exact State.keeps.eventAt (by exact h)

theorem State.keeps.streamTs {who ts : Nat} {copy : Bool} {pa : Nat} : s.keeps (u.streamTs who ts copy pa) := by
  unfold State.streamTs
  split
  · exact h.loadTs
  · exact h

theorem State.keeps.storeTs {p : Party} {pa n : Nat} : s.keeps (u.storeTs p pa n) := by
  unfold State.storeTs
  split
  · exact h
  · exact State.keeps.eventAt (by exact h)

theorem State.keeps.soil {pa n : Nat} : s.keeps (u.soil pa n) := by
  unfold State.soil
  split
  · exact h
  · exact h

theorem State.keeps.pokeMem {pa : Nat} {bs : List Byte} : s.keeps (u.pokeMem pa bs) :=
  keeps_of_memOk h (agenda_pokeMem u pa bs) fun hu => pokeMem_memOk hu pa bs

theorem State.keeps.poke {pa : Nat} {bs : List Byte} : s.keeps (u.poke pa bs) := h.pokeMem.hostSend

theorem State.keeps.pokeLocal {key : Nat} {bs : List Byte} : s.keeps (u.pokeLocal key bs) :=
  keeps_of_memOk h rfl fun hu => pokeLocal_memOk hu key bs

/-! Regions and bins -/

theorem State.keeps.setRegion {n : Nat} {r : Region} : s.keeps (u.setRegion n r) := h

theorem State.keeps.dropBins {p : Bin → Bool} {limit : Nat} : s.keeps (u.dropBins p limit) := h

theorem State.keeps.settleRegion {n : Nat} : s.keeps (u.settleRegion n) := by
  unfold State.settleRegion
  dsimp only
  split
  · exact h
  · exact h

theorem State.keeps.applyParts {p : Party} {region pa : Nat} {ps : List Part} :
    s.keeps (u.applyParts p region pa ps) :=
  h.poke.storeTs.setRegion.settleRegion

theorem State.keeps.applyKey {p : Party} {region key limit : Nat} : s.keeps (u.applyKey p region key limit) := by
  unfold State.applyKey
  dsimp only
  split
  · exact h
  · exact h.dropBins.applyParts

theorem State.keeps.applyWhere {by' : Party} {p : Bin → Bool} : s.keeps (u.applyWhere by' p) :=
  h.foldl (fun _ _ hv => hv.applyKey) _

theorem State.keeps.applyAt {p : Party} {va n : Nat} : s.keeps (u.applyAt p va n) := h.applyWhere

theorem State.keeps.applyPhys {p : Party} {pa n : Nat} : s.keeps (u.applyPhys p pa n) := h.applyWhere

theorem State.keeps.applySeg {g : Seg} : s.keeps (u.applySeg g) :=
  State.keeps.foldl (by exact h) (fun _ _ hv => hv.applyParts) _

theorem State.keeps.spill {die slice : Nat} {v : State} (hv : u.spill die slice = some v) : s.keeps v := by
  unfold State.spill at hv
  dsimp only at hv
  obtain ⟨w, hw, rfl⟩ := Option.map_eq_some_iff.mp hv
  have hsw : s.keeps w := by
    split at hw
    · cases hw; exact h
    · split at hw
      · cases hw; exact h.applySeg
      · cases hw
  exact State.keeps.foldl (by exact hsw) (fun _ _ hv => hv.setRegion) _

theorem State.keeps.binUpdate {region key pa n : Nat} {v : State} (hv : u.binUpdate region key pa n = some v) :
    s.keeps v := by
  unfold State.binUpdate at hv
  split at hv
  · cases hv
  · dsimp only at hv
    split at hv
    · cases hv
    · obtain ⟨w, hw, rfl⟩ := Option.map_eq_some_iff.mp hv
      refine State.keeps.setRegion ?_
      split at hw
      · cases hw; exact h
      · split at hw
        · cases hw; exact h
        · obtain ⟨x, hx, rfl⟩ := Option.map_eq_some_iff.mp hw
          have hsx : s.keeps x := State.keeps.spill (by exact h) hx
          exact hsx

end

end Sys2Proof.Machine
end

section
/-! SUPPORT and proofs. Walks, accesses and registers: what they keep. -/

namespace Sys2Proof.Machine

section
variable {s u : State} (h : s.keeps u)
include h

/-! Access -/

theorem State.keeps.requestWalk {w : Walk} : s.keeps (u.requestWalk w) := by
  unfold State.requestWalk
  split
  · exact h
  · exact h

theorem State.keeps.translateBy {core acc : Nat} {va : Word} {ok : Word → Bool} {who : WalkFor} {t : State}
    (ht : u.translateBy core va acc ok who = .wait t) : s.keeps t := by
  unfold State.translateBy at ht
  split at ht
  · cases ht
  · split at ht
    · split at ht
      · cases ht
      · cases ht
    · cases ht
      exact h.requestWalk

theorem State.keeps.translate {core acc : Nat} {va : Word} {who : WalkFor} {t : State}
    (ht : u.translate core va acc who = .wait t) : s.keeps t := h.translateBy ht

theorem State.keeps.setQueue {q : Nat} {e : QEnt} : s.keeps (u.setQueue q e) := h

theorem State.keeps.setBank {core b : Nat} {k : Bank} : s.keeps (u.setBank core b k) := h

theorem State.keeps.wrAt {k : Nat} {bs : List Byte} : s.keeps (u.wrAt k bs) := by
  unfold State.wrAt
  split
  · exact h.poke
  · exact h.pokeLocal

theorem State.keeps.touchLoad {core k : Nat} {x : Xlat} : s.keeps (u.touchLoad core x k) := h.loadTs

theorem State.keeps.touchStore {core k n : Nat} : s.keeps (u.touchStore core k n) := h.storeTs

theorem State.keeps.yardFor {p : Party} {x : Xlat} {k n : Nat} : s.keeps (u.yardFor p x k n) := by
  unfold State.yardFor
  split
  · exact h.applyAt
  · exact h

theorem State.keeps.hold {st : SRef} {i tag idx k n : Nat} : s.keeps (u.hold st i tag idx k n) := by
  unfold State.hold
  split
  · exact h
  · split
    · exact h
    · exact h

theorem State.keeps.pairDone {st : SRef} {c : Cls} {tag idx k : Nat} : s.keeps (u.pairDone st c tag idx k) := by
  unfold State.pairDone
  split
  · exact h
  · exact h

theorem State.keeps.noteAt {st : SRef} {i tag : Nat} : s.keeps (u.noteAt st i tag) := h

theorem State.keeps.takePlace {st : SRef} {i tag idx : Nat} : s.keeps (u.takePlace st i tag idx) := h

theorem State.keeps.mirror {pa n : Nat} : s.keeps (u.mirror pa n) := by
  refine keeps_of_memOk h ?_ fun hu => mirror_memOk hu pa n
  unfold State.mirror
  split
  · rfl
  · rfl

theorem State.keeps.through {v : State} {x : Xlat} {pa n : Nat} : s.keeps (v.through u x pa n) := by
  unfold State.through
  split
  · exact h.mirror
  · exact h

theorem State.keeps.storeVia {p : Party} {x : Xlat} {pa : Nat} {bs : List Byte} : s.keeps (u.storeVia p x pa bs) :=
  h.yardFor.poke.through.storeTs

theorem State.keeps.loadVia {p : Party} {x : Xlat} {pa n : Nat} : s.keeps (u.loadVia p x pa n) := h.yardFor.loadTs

theorem State.keeps.writeBack {pa : Nat} : s.keeps (u.writeBack pa) := by
  unfold State.writeBack
  dsimp only
  split
  · exact h.mirror
  · exact h

theorem State.keeps.unitSees {va : Word} {n : Nat} : s.keeps (u.unitSees va n) := by
  unfold State.unitSees
  split
  · exact h.yardFor
  · exact h

theorem State.keeps.pay {w : Owed} : s.keeps (u.pay w) := by
  unfold State.pay
  split
  · exact h.storeVia
  · split
    · exact h
    · exact h.storeVia.storeVia

theorem State.keeps.owe {w : Owed} : s.keeps (u.owe w) := by
  unfold State.owe
  split
  · exact h.pay
  · exact h

theorem State.keeps.payAll {l : List Owed} : s.keeps (u.payAll l) := by
  induction l generalizing u with
  | nil => exact h
  | cons w l ih =>
    unfold State.payAll
    split
    · exact h
    · exact ih h.pay

theorem State.keeps.post {n : Nat} {ws : List Word} : s.keeps (u.post n ws) := h.owe

/-! Special registers and configuration -/

theorem State.keeps.afterJob : s.keeps u.afterJob := by
  unfold State.afterJob
  split
  · exact h
  · split
    · exact h
    · exact h

theorem State.keeps.writeCfg {v : Word} : s.keeps (u.writeCfg v) := by
  unfold State.writeCfg
  dsimp only
  split
  · split
    · exact State.keeps.afterJob (by exact h)
    · exact h
  · exact h

theorem State.keeps.setPackageReg {r : Nat} {v : Word} : s.keeps (u.setPackageReg r v) := by
  unfold State.setPackageReg
  split
  case h_9 => exact h.writeCfg
  all_goals exact h

theorem State.keeps.writeSreg {st : SRef} {r : Nat} {v : Word} : s.keeps (u.writeSreg st r v) := by
  unfold State.writeSreg
  split
  case h_4 => exact h.setPackageReg
  all_goals exact h

end

end Sys2Proof.Machine
end

section
/-! SUPPORT and proofs. Memory rows and the events of accesses lead on (R185, R290, R299, R316–R325). -/

namespace Sys2Proof.Machine

/-! Memory rows: what they share -/

section
variable {s u : State} (h : s.keeps u)
include h

theorem State.keeps.issue {st : SRef} {i : Nat} {k : Hdr} {data : List Slot} {r : Ready} {a : Access} :
    s.keeps (u.issue st i k data r a) := by
  unfold State.issue
  split
  · exact h
  · exact h

theorem State.keeps.unissue {st : SRef} {n : Nat} : s.keeps (u.unissue st n) := by
  unfold State.unissue
  split
  · exact h
  · split
    · exact h
    · exact h

theorem State.keeps.issueAt {k : Hdr} {data : List Slot} {kind : AccKind} {cls : Cls} {acc size : Nat} {va : Word}
    {check : State → Xlat → Option Nat} {st : SRef} {i : Nat} {r : Ready} :
    s.keeps (issueAt k data kind cls acc size va check st i r u).state := by
  unfold Machine.issueAt
  split
  · exact h
  · split
    · exact h.trapStation
    · next t ht => exact h.translate ht
    · split
      · exact h.trapStation
      · exact h.issue

theorem State.keeps.complete {st : SRef} {n : Nat} {a : Access} {w : Word} : s.keeps (u.complete st n a w) :=
  h.modStrand.emit

theorem State.keeps.trapAccess {st : SRef} {n code acc : Nat} {a : Access} :
    s.keeps (u.trapAccess st n a code acc) := h.unissue.trapStation

theorem State.keeps.arriveLoad {st : SRef} {core : Nat} {a : Access} : s.keeps (u.arriveLoad st core a) := by
  unfold State.arriveLoad
  split
  · exact h.streamTs.noteAt
  · exact h.takePlace.yardFor.touchLoad

theorem State.keeps.performLoad {st : SRef} {n core : Nat} {a : Access} : s.keeps (u.performLoad st n core a) := by
  unfold State.performLoad
  dsimp only
  split
  · exact h
  · split
    · exact h.trapAccess
    · split
      · exact h.arriveLoad.complete.raise.hold
      · exact h.arriveLoad.complete.raise

theorem State.keeps.wrAll {l : List (Nat × List Byte)} : s.keeps (l.foldl (fun s w => s.wrAt w.1 w.2) u) :=
  h.foldl (fun _ _ hv => hv.wrAt) l

theorem State.keeps.performStore {st : SRef} {n core : Nat} {a : Access} : s.keeps (u.performStore st n core a) := by
  unfold State.performStore
  dsimp only
  split
  · exact h
  · exact h.takePlace.yardFor.wrAll.through.touchStore.complete.raise.pairDone

theorem State.keeps.localRead {k : Hdr} {fifo : Bool} {cls : Cls} {a : Word} {t : Strand} {st : SRef} {i : Nat}
    {r : Ready} : s.keeps (Machine.localRead k fifo cls a t st i r u).state := by
  unfold Machine.localRead
  dsimp only
  refine keeps_effIte h ?_
  split
  · refine keeps_effIte h (keeps_effIte h.trapStation (keeps_ite ?_ ?_))
    · exact h.takePlace.consume.emitData.hold
    · exact h.takePlace.consume.emitData
  · refine keeps_effIte h.trapStation ?_
    split
    · exact h
    · split
      · exact h.takePlace.setBank.consume.emitData
      · exact h.takePlace.consume.emitData
  · exact h.trapStation

theorem State.keeps.localLoad {k : Hdr} {fifo : Bool} {cls : Cls} {a : Word} {st : SRef} {i : Nat} {r : Ready} :
    s.keeps (Machine.localLoad k fifo cls a st i r u).state := by
  unfold Machine.localLoad
  split
  · dsimp only
    refine keeps_effIte ?_ h.localRead
    split
    · exact keeps_effIte h.trapStation h.noteAt.consume.emitData
    · exact keeps_effIte h.localRead h.trapStation
    · exact h.trapStation
  · exact h

theorem State.keeps.localStore {k : Hdr} {fifo : Bool} {cls : Cls} {a : Word} {st : SRef} {i : Nat} {r : Ready} :
    s.keeps (Machine.localStore k fifo cls a st i r u).state := by
  unfold Machine.localStore
  split
  · exact h
  · dsimp only
    refine keeps_effIte h ?_
    split
    · exact keeps_effIte h h.takePlace.wrAt.consume.emitData.pairDone
    · refine keeps_effIte h.trapStation ?_
      split
      · exact h
      · exact h.takePlace.setBank.consume.emitData
    · exact h.trapStation

/-! Full/empty words -/

theorem State.keeps.setFull {b : Bool} {ws : List Nat} : s.keeps (u.setFull b ws) := h

theorem State.keeps.enqueueReq {st : SRef} {q : Req} : s.keeps (u.enqueueReq st q) := h

theorem State.keeps.dropReq {st : SRef} {i tag idx : Nat} : s.keeps (u.dropReq st i tag idx) := h

theorem State.keeps.fesetWord {k : Hdr} {core : Nat} {a : Word} {st : SRef} {i : Nat} {r : Ready} {m n : Nat} :
    s.keeps (fesetWord k core a st i r m n u) := by
  unfold Machine.fesetWord
  dsimp only
  split
  · exact h.setFull.modNode
  · exact h.setFull.modNode.consume.emitData

theorem State.keeps.fesetEff {k : Hdr} {x : MemImm} {st : SRef} {i : Nat} {r : Ready} :
    s.keeps (fesetEff k x st i r u).state := by
  unfold Machine.fesetEff
  split
  · dsimp only
    refine keeps_effIte h (keeps_effIte h.consume.emitData (keeps_effIte h.trapStation ?_))
    exact State.keeps.fesetWord (keeps_ite h.takePlace h)
  · exact h

theorem State.keeps.fesetFinish {k : Hdr} {x : MemImm} {st : SRef} {i : Nat} {r : Ready} {n : Nat} :
    s.keeps (fesetFinish k x st i r n u) := by
  induction n generalizing u with
  | zero => exact h
  | succ n ih =>
    unfold Machine.fesetFinish
    split
    · exact h
    · split
      · exact h
      · split
        · next v hv => exact ih (keeps_done h.fesetEff hv)
        · next v hv => exact keeps_wait h.fesetEff hv

theorem State.keeps.finishFesets {st : SRef} : s.keeps (u.finishFesets st) := by
  unfold State.finishFesets
  split
  · exact h
  · refine h.foldl (fun v i hv => ?_) _
    split
    · exact hv
    · split
      · split
        · exact hv.fesetFinish
        · exact hv
      · exact hv

/-! Updates and prefetches -/

theorem State.keeps.beginStall {pa : Nat} : s.keeps (u.beginStall pa) := by
  unfold State.beginStall
  split
  · exact h
  · split
    · exact h
    · exact h

theorem State.keeps.prefetch {core : Nat} {va : Word} : s.keeps (u.prefetch core va) := by
  unfold State.prefetch
  split
  · exact h
  · dsimp only
    split
    · exact h.touchLoad
    · exact h

end

/-! Memory rows -/

theorem execLd_lands (h : Hdr) (x : MemImm) (s : State) : s.lands (execLd h x s) :=
  fireEff_lands fun _ _ _ _ hu => keeps_effIte hu.localLoad hu.issueAt

theorem execSt_lands (h : Hdr) (x : MemImm) (s : State) : s.lands (execSt h x s) :=
  fireEff_lands fun _ _ _ _ hu => keeps_effIte hu.localStore hu.issueAt

theorem execLdx_lands (h : Hdr) (x : MemImm) (s : State) : s.lands (execLdx h x s) :=
  fireEff_lands fun _ _ _ _ hu => keeps_effIte hu.localLoad hu.issueAt

theorem execStx_lands (h : Hdr) (x : MemImm) (s : State) : s.lands (execStx h x s) :=
  fireEff_lands fun _ _ _ _ hu => keeps_effIte hu.localStore hu.issueAt

theorem fullEmpty_lands (h : Hdr) (x : MemImm) (data : List Slot) (want : Option Bool) (write after : Bool) (s : State) :
    s.lands (fullEmpty h x data want write after s) := by
  refine fireEff_lands fun st i r u hu => ?_
  split
  · exact hu
  · dsimp only
    refine keeps_effIte hu ?_
    split
    · refine keeps_effIte hu.enqueueReq (keeps_effIte hu (keeps_effIte hu.trapStation ?_))
      exact (keeps_ite hu.takePlace.wrAt hu.takePlace).setFull.dropReq.consume.emitData
    · exact hu.trapStation

theorem execFeset_lands (h : Hdr) (x : MemImm) (s : State) : s.lands (execFeset h x s) :=
  fireEff_lands fun _ _ _ _ hu => hu.fesetEff

theorem execAtom_lands (h : Hdr) (x : AtomImm) (s : State) : s.lands (execAtom h x s) := by
  refine fireEff_lands fun st i r u hu => ?_
  split
  · exact hu
  · dsimp only
    split
    · exact hu.trapStation
    · next v hv => exact hu.translate hv
    · refine keeps_effIte hu (keeps_effIte hu.trapStation ?_)
      have hv := fun who l k size => (hu.takePlace (st := st) (i := i) (tag := r.tag) (idx := r.idx)).yardFor (p := .of who)
        (x := l) (k := k) (n := size) |>.hostSend (k := .read) (pa := k) (bs := [])
      exact (keeps_ite (hv _ _ _ _) (hv _ _ _ _).wrAt.through).touchStore.consume.raise.emitData

theorem execUpd_lands (h : Hdr) (x : MemImm) (s : State) : s.lands (execUpd h x s) :=
  fireEff_lands fun _ _ _ _ hu => hu.issueAt

theorem execPref_lands (h : Hdr) (x : MemImm) (s : State) : s.lands (execPref h x s) := by
  refine fireEff_lands fun st i r u hu => ?_
  split
  · exact hu
  · exact (keeps_ite hu.prefetch hu).consume.emitData

theorem execFlush_lands (h : Hdr) (x : MemImm) (s : State) : s.lands (execFlush h x s) := by
  refine fireEff_lands fun st i r u hu => ?_
  split
  · exact hu
  · dsimp only
    split
    · exact hu.trapStation
    · next v hv => exact hu.translateBy hv
    · exact State.keeps.emitData (State.keeps.consume (by exact hu.writeBack))

theorem execWaitm_lands (h : Hdr) (x : MemImm) (s : State) : s.lands (execWaitm h x s) := by
  refine fireEff_lands fun st i r u hu => ?_
  split
  · exact hu
  · dsimp only
    split
    · exact hu.trapStation
    · next v hv => exact hu.translate hv
    · refine keeps_effIte hu (keeps_effIte hu.trapStation (keeps_effIte ?_ ?_))
      · exact hu.takePlace.yardFor.touchLoad.answer
      · exact hu.takePlace.yardFor.touchLoad.beginWait

/-! Events of accesses -/

theorem execLoadReply_leads (st : SRef) (n : Nat) (s : State) : s.leads (execLoadReply st n s) := by
  refine leads_next.mpr ?_
  have h := State.keeps.refl s
  split
  · exact h
  · split
    · exact h
    · exact keeps_ite h.performLoad h

theorem execStorePerform_leads (st : SRef) (n : Nat) (s : State) : s.leads (execStorePerform st n s) := by
  refine leads_next.mpr ?_
  have h := State.keeps.refl s
  split
  · exact h
  · split
    · exact h
    · exact keeps_ite h.performStore h

theorem execUpdateAccept_leads (st : SRef) (n : Nat) (s : State) : s.leads (execUpdateAccept st n s) := by
  refine leads_next.mpr ?_
  have h := State.keeps.refl s
  split
  · exact h
  · split
    · exact h
    · refine keeps_ite h ?_
      split
      · dsimp only
        refine keeps_ite h ?_
        split
        · exact h.beginStall
        · next v hv => exact (h.takePlace.binUpdate hv).touchStore.complete
      · exact h.trapAccess
      · exact h.trapAccess

theorem execWaitmWake_leads (st : SRef) (n cause : Nat) (s : State) : s.leads (execWaitmWake st n cause s) := by
  refine leads_next.mpr ?_
  have h := State.keeps.refl s
  split
  · exact h
  · split
    · exact keeps_ite h.endWait h
    · exact h

theorem execWaitmTimeout_leads (st : SRef) (n : Nat) (s : State) : s.leads (execWaitmTimeout st n s) := by
  refine leads_next.mpr ?_
  have h := State.keeps.refl s
  split
  · exact h
  · split
    · exact keeps_ite h.endWait h
    · exact h

end Sys2Proof.Machine
end

section
/-! SUPPORT and proofs. Tile rows and `BANKMODE` lead on (R268, R269, R326–R329). -/

namespace Sys2Proof.Machine

/-! Tiles -/

section
variable {s u : State} (h : s.keeps u)
include h

theorem State.keeps.setTile {k : Nat} {e : TileEnt} : s.keeps (u.setTile k e) := h

theorem State.keeps.tileStep {st : SRef} {t : Strand} {i : Nat} {r : Ready} {k want : Nat} {go : State → Eff}
    (hg : ∀ v, s.keeps v → s.keeps (go v).state) : s.keeps (tileStep u st t i r k want go).state := by
  unfold Machine.tileStep
  exact keeps_effIte (hg _ h.dropReq) h.enqueueReq

theorem State.keeps.tileElem {k : Hdr} {x : TileImm} {fill : Bool} {st : SRef} {i : Nat} {r : Ready}
    {act : TileEnt → Strand → ElemAt → State → State} (ha : ∀ e t w v, s.keeps v → s.keeps (act e t w v)) :
    s.keeps (tileElem k x fill st i r act u).state := by
  unfold Machine.tileElem
  split
  · dsimp only
    refine keeps_effIte h (keeps_effIte h.trapStation ?_)
    split
    · refine keeps_effIte ?_ h
      split
      · exact h.trapStation
      · exact keeps_effIte h.trapStation (keeps_effIte h (keeps_effIte h.trapStation (ha _ _ _ _ h.takePlace)))
    · refine h.tileStep fun v hv => ?_
      split
      · exact hv.trapStation
      · exact keeps_effIte hv.trapStation (keeps_effIte hv (keeps_effIte hv.trapStation
          (ha _ _ _ _ hv.takePlace.setTile.modNode)))
  · exact h

theorem State.keeps.tileEnd {st : SRef} {i tile : Nat} {a : TileState} : s.keeps (u.tileEnd st i tile a) := by
  unfold State.tileEnd
  split
  · split
    · exact keeps_ite h.setTile.modNode h
    · exact h
  · exact h

theorem State.keeps.clearBank {core b : Nat} : s.keeps (u.clearBank core b) :=
  keeps_of_memOk h rfl fun hu => clearBank_memOk hu core b

theorem State.keeps.enterMode {core b : Nat} {m : Mode} : s.keeps (u.enterMode core b m) := h.clearBank.setBank

end

/-- Ends of a tile's stream leave the outcome of its row what it is. -/
theorem tileSettled_lands {s : State} {o : Host.Outcome State Fault Refusal} (h : s.lands o) (x : TileImm) (a : TileState) :
    s.lands (tileSettled x a o) := by
  refine ⟨fun hs => ?_, fun hn => by rw [h.2 hn]; rfl⟩
  obtain ⟨t, rfl, ht⟩ := h.1 hs
  unfold tileSettled
  dsimp only
  split
  · exact leads_next.mpr (keeps_ite ht.tileEnd ht)
  · exact leads_next.mpr ht

theorem execTdef_lands (h : Hdr) (x : TileImm) (s : State) : s.lands (execTdef h x s) := by
  refine fireEff_lands fun st i r u hu => ?_
  split
  · exact hu
  · dsimp only
    split
    · exact hu.trapStation
    · next v hv => exact hu.translate hv
    · refine keeps_effIte hu (keeps_effIte hu.trapStation ?_)
      split
      · exact hu.trapStation
      · exact keeps_effIte hu.trapStation
          (hu.yardFor.tileStep fun v hv => hv.takePlace.touchLoad.setTile.consume.emitData)

theorem tileChange_lands (h : Hdr) (x : TileImm) (f : TileEnt → TileEnt) (s : State) : s.lands (tileChange h x f s) := by
  refine fireEff_lands fun st i r u hu => ?_
  split
  · exact hu
  · exact keeps_effIte hu.trapStation (hu.tileStep fun v hv => hv.noteAt.setTile.consume.emitData)

theorem execTstate_lands (h : Hdr) (x : TileImm) (s : State) : s.lands (execTstate h x s) := by
  refine fireEff_lands fun st i r u hu => ?_
  split
  · exact hu
  · exact hu.noteAt.consume.emitData

theorem execTld_lands (h : Hdr) (x : TileImm) (s : State) : s.lands (execTld h x s) :=
  tileSettled_lands (fireEff_lands fun _ _ _ _ hu => hu.tileElem fun _ _ _ _ hv => hv.consume.raise.emitData) _ _

theorem execTst_lands (h : Hdr) (x : TileImm) (s : State) : s.lands (execTst h x s) :=
  tileSettled_lands
    (fireEff_lands fun _ _ _ _ hu => hu.tileElem fun _ _ _ _ hv => hv.wrAll.consume.raise.emitData) _ _

theorem execBankmode_lands (h : Hdr) (x : BankImm) (s : State) : s.lands (execBankmode h x s) := by
  refine fireEff_lands fun st i r u hu => ?_
  split
  · exact hu
  · dsimp only
    refine keeps_effIte hu.trapStation (keeps_effIte hu (keeps_effIte ?_ (keeps_effIte hu.trapStation ?_)))
    · exact hu.takePlace.consume.emitData
    · exact hu.takePlace.enterMode.consume.emitData

end Sys2Proof.Machine
end

section
/-! SUPPORT and proofs. Counters, scopes and barriers lead on (R204–R210, R247–R249). -/

namespace Sys2Proof.Machine

/-- The state that a counter add leaves. -/
@[reducible] def Add.state : Add → State
  | .done s => s
  | .miss s => s

/-- The state that an arrival leaves, if it does not hold. -/
def Arrived.state? : Arrived → Option State
  | .trap _ s => some s
  | .hold => none
  | .report _ _ s => some s

section
variable {s u : State} (h : s.keeps u)
include h

/-! Counters and finish scopes -/

theorem State.keeps.releaseWhere {f : WaitKind → Option (Word × Bool)} : s.keeps (u.releaseWhere f) := by
  unfold State.releaseWhere
  dsimp only
  refine State.keeps.foldl ?_ (fun _ _ hv => hv.flushWaits) _
  exact h

theorem State.keeps.withHostOut {l : List HostMsg} : s.keeps { u with hostOut := l } := h

theorem State.keeps.signal {pa i : Nat} : s.keeps (u.signal pa i) := by
  unfold State.signal
  dsimp only
  exact keeps_ite (State.keeps.withHostOut (u := u.pokeMem _ _) h.pokeMem) h

theorem State.keeps.counterAdd {p : Party} {x : Xlat} {inc : Nat} {flag : Bool} : s.keeps (u.counterAdd p x inc flag) := by
  unfold State.counterAdd
  dsimp only
  exact State.keeps.foldl h.yardFor.pokeMem.hostSend.through.storeTs (fun _ _ hv => hv.signal) _

theorem State.keeps.setFscope {n : Nat} {f : FScope} : s.keeps (u.setFscope n f) := h

theorem State.keeps.addFailed {c : CtrAdd} {code : Nat} : s.keeps (u.addFailed c code) := h.post

theorem State.keeps.tryAdd (c : CtrAdd) : s.keeps (u.tryAdd c).state := by
  unfold State.tryAdd
  split
  · split
    · exact h
    · exact h.counterAdd
  · exact h.addFailed
  · exact h.addFailed
  · exact h.requestWalk

theorem State.keeps.tryAdd_done {c : CtrAdd} {v : State} (hv : u.tryAdd c = .done v) : s.keeps v := by
  have ht := h.tryAdd c
  rwa [hv] at ht

theorem State.keeps.tryAdd_miss {c : CtrAdd} {v : State} (hv : u.tryAdd c = .miss v) : s.keeps v := by
  have ht := h.tryAdd c
  rwa [hv] at ht

theorem State.keeps.checkScope {f n : Nat} : s.keeps (u.checkScope f n) := by
  induction f generalizing u n with
  | zero => exact h
  | succ f ih =>
    unfold State.checkScope
    dsimp only
    refine keeps_ite (ih (State.keeps.setFscope (State.keeps.releaseWhere (keeps_ite h.setFscope ?_)))) h
    split
    · next v hv => exact h.setFscope.tryAdd_done hv
    · next v hv =>
      have hk := h.setFscope.tryAdd_miss hv
      exact hk

theorem State.keeps.loseCount {n : Nat} : s.keeps (u.loseCount n) := h.setFscope.checkScope

theorem State.keeps.afterAdd {c : CtrAdd} : s.keeps (u.afterAdd c) := by
  unfold State.afterAdd
  dsimp only
  have hv : s.keeps (match c.scope with | some n => u.loseCount n | none => u) := by
    split
    · exact h.loseCount
    · exact h
  split
  · exact hv.post
  · exact hv

theorem State.keeps.addThen {c : CtrAdd} : s.keeps (u.addThen c) := by
  unfold State.addThen
  refine keeps_ite h.afterAdd ?_
  split
  · next v hv => exact (h.tryAdd_done hv).afterAdd
  · next v hv =>
    have hk := h.tryAdd_miss hv
    exact hk

theorem State.keeps.retryAdds {va : Word} : s.keeps (u.retryAdds va) :=
  State.keeps.foldl (by exact h) (fun _ _ hv => hv.addThen) _

theorem State.keeps.takeUpOwed : s.keeps u.takeUpOwed := by
  unfold State.takeUpOwed
  dsimp only
  have hv : ∀ p : CtrAdd → Bool, s.keeps ((u.ctrAdds.filter p).foldl (fun (s : State) (c : CtrAdd) => s.addThen c)
      { u with ctrAdds := u.ctrAdds.filter fun c => !p c }) :=
    fun p => State.keeps.foldl (by exact h) (fun _ _ hv => hv.addThen) _
  exact keeps_ite (keeps_ite (hv _) h) (keeps_ite (hv _) h).payAll

/-! Barriers -/

theorem State.keeps.setBar {b : BarKey} {v : Barrier} : s.keeps (u.setBar b v) := h

theorem State.keeps.refreshDl {b : BarKey} : s.keeps (u.refreshDl b) := keeps_ite h.setBar h

theorem State.keeps.dropDeadlines {l : List Wait} : s.keeps (u.dropDeadlines l) := by
  induction l generalizing u with
  | nil => exact h
  | cons w l ih =>
    unfold State.dropDeadlines
    split
    · exact ih h.refreshDl
    · exact ih h

theorem State.keeps.setPhase {st : SRef} {b : BarKey} {p : Nat} : s.keeps (u.setPhase st b p) := h

theorem State.keeps.releaseBroken {b : BarKey} : s.keeps (u.releaseBroken b) := h.releaseWhere

theorem State.keeps.completePhase {b : BarKey} {f st : Nat} : s.keeps (u.completePhase b f st) := by
  induction f generalizing u st with
  | zero => exact h
  | succ f ih => exact keeps_ite (ih h.setBar.releaseWhere) h.setBar.releaseWhere

theorem State.keeps.breakBar {b : BarKey} : s.keeps (u.breakBar b) := h.setBar.releaseBroken

theorem State.keeps.freeBarriers {id : Nat} : s.keeps (u.freeBarriers id) := State.keeps.releaseWhere (by exact h)

theorem State.keeps.arrive {st : SRef} {b : BarKey} {v : Option (Word × Bop × Bool)} {t : State}
    (ht : (u.arrive st b v).state? = some t) : s.keeps t := by
  unfold State.arrive at ht
  split at ht
  · dsimp only at ht
    split at ht
    · cases ht; exact h
    · split at ht
      · cases ht; exact h
      · split at ht
        · split at ht
          · cases ht; exact h.setBar.setPhase
          · cases ht; exact h.breakBar
        · split at ht
          · cases ht
          · split at ht
            · cases ht; exact h
            · split at ht
              · split at ht
                · cases ht; exact h.setBar.setPhase.breakBar
                · cases ht; exact h.setBar.setPhase
              · cases ht; exact keeps_ite h.setBar.setPhase.completePhase h.setBar.setPhase
  · cases ht

theorem State.keeps.arrive_trap {st : SRef} {b : BarKey} {v : Option (Word × Bop × Bool)} {code : Nat} {t : State}
    (ht : u.arrive st b v = .trap code t) : s.keeps t := h.arrive (by rw [ht]; rfl)

theorem State.keeps.arrive_report {st : SRef} {b : BarKey} {v : Option (Word × Bop × Bool)} {ph status : Nat} {t : State}
    (ht : u.arrive st b v = .report ph status t) : s.keeps t := h.arrive (by rw [ht]; rfl)

theorem State.keeps.setDeadline {b : BarKey} {p : Nat} {d : Option Nat} : s.keeps (u.setDeadline b p d) := by
  unfold State.setDeadline
  dsimp only
  split
  · exact keeps_ite h.setBar h
  · exact h

theorem State.keeps.judgePhase {st : SRef} {n : Nat} {b : BarKey} {p : Nat} {d : Option Nat} {red : Bool} :
    s.keeps (u.judgePhase st n b p d red) := by
  unfold State.judgePhase
  split
  · exact h.release
  · exact h.setDeadline

theorem State.keeps.reported {st : SRef} {w : Wait} {b : BarKey} {ph status : Nat} {red hold tap : Bool} :
    s.keeps (u.reported st w b ph status red hold tap) := by
  unfold State.reported
  exact keeps_ite h.release (keeps_ite h.modStrand.judgePhase h.release)

theorem State.keeps.makeArrival {st : SRef} {n : Nat} {b : BarKey} {v : Word} {op : Option (Bop × Bool)} {hold tap : Bool} :
    s.keeps (u.makeArrival st n b v op hold tap) := by
  unfold State.makeArrival
  split
  · exact h
  · split
    · exact h
    · next v hv => exact (h.arrive_report hv).reported
    · next v hv => exact (h.arrive_trap hv).unwait.trapStation

theorem State.keeps.retryArrivals {f : Nat} : s.keeps (u.retryArrivals f) := by
  induction f generalizing u with
  | zero => exact h
  | succ f ih =>
    unfold State.retryArrivals
    split
    · exact ih h.makeArrival
    · exact h

theorem State.keeps.retries : s.keeps u.retries := h.retryArrivals

theorem State.keeps.arriveEff {k : Hdr} {data : List Slot} {b : BarKey} {op : Option (Bop × Bool)} {hold : Bool}
    {st : SRef} {i : Nat} {r : Ready} : s.keeps (arriveEff k data b op hold st i r u).state := by
  unfold Machine.arriveEff
  split
  · next v hv => exact (h.arrive_trap hv).trapStation.retries
  · exact h.beginWait.makeArrival.retries

theorem State.keeps.waitEff {k : Hdr} {data : List Slot} {b : BarKey} {d : Option Nat} {st : SRef} {i : Nat} {r : Ready} :
    s.keeps (waitEff k data b d st i r u).state := by
  unfold Machine.waitEff
  split
  · exact keeps_effIte h.trapStation h.beginWait.judgePhase
  · exact h

theorem State.keeps.openBar {id : Option Nat} {b : BarKey} {owner e : Nat} : s.keeps (u.openBar id b owner e) := by
  unfold State.openBar
  dsimp only
  split
  · exact h.setBar
  · exact h.setBar.modSlice

theorem State.keeps.initAs {id : Option Nat} {b : BarKey} {o e : Nat} {t : State} (ht : u.initAs id b o e = some t) :
    s.keeps t := by
  unfold State.initAs at ht
  dsimp only at ht
  split at ht
  · cases ht; exact keeps_ite h h.openBar
  · split at ht
    · cases ht
    · split at ht
      · cases ht; exact h.setBar.releaseBroken
      · cases ht; exact keeps_ite h.setBar.completePhase h.setBar
  · split at ht
    · cases ht
    · split at ht
      · cases ht; exact h.setBar
      · cases ht; exact h.openBar

theorem State.keeps.initBar {x : Slice} {b : BarKey} {e : Nat} {t : State} (ht : u.initBar x b e = some t) :
    s.keeps t := by
  unfold State.initBar at ht
  split at ht
  · cases ht
  · exact h.initAs ht

theorem State.keeps.farBar {b : BarKey} {f : FarBar} : s.keeps (u.farBar b f) := by
  unfold State.farBar
  dsimp only
  split
  · next e =>
    cases ht : u.initAs none b (u.podItem.field 15 0) e with
    | none => exact h
    | some t => exact h.initAs ht
  · exact keeps_ite h.setDeadline h
  · exact keeps_ite h.setBar h
  · exact keeps_ite h.breakBar h
  · exact keeps_ite h (keeps_ite (keeps_ite h.setBar.breakBar h.setBar) (keeps_ite h.setBar.completePhase h.setBar))

end

/-! Rows of barriers -/

theorem withBar_lands {h : Hdr} {data : List Slot} {x : BarImm} {eff : BarKey → SRef → Nat → Ready → State → Eff} {s : State}
    (he : ∀ b st i r u, s.keeps u → s.keeps (eff b st i r u).state) : s.lands (withBar h data x eff s) := by
  refine fireEff_lands fun st i r u hu => ?_
  split
  · exact he _ _ _ _ _ hu
  · exact hu

theorem execBarr_lands (h : Hdr) (x : BarImm) (s : State) : s.lands (execBarr h x s) :=
  withBar_lands fun _ _ _ _ _ hu => hu.arriveEff

theorem execBsync_lands (h : Hdr) (x : BarImm) (s : State) : s.lands (execBsync h x s) :=
  withBar_lands fun _ _ _ _ _ hu => hu.arriveEff

theorem execBred_lands (h : Hdr) (x : BarImm) (s : State) : s.lands (execBred h x s) :=
  withBar_lands fun _ _ _ _ _ hu => hu.arriveEff

theorem execBwait_lands (h : Hdr) (x : BarImm) (s : State) : s.lands (execBwait h x s) :=
  withBar_lands fun _ _ _ _ _ hu => hu.waitEff

theorem execBwaitd_lands (h : Hdr) (x : BarImm) (s : State) : s.lands (execBwaitd h x s) :=
  withBar_lands fun _ _ _ _ _ hu => hu.waitEff

theorem execTap_lands (h : Hdr) (x : BarImm) (s : State) : s.lands (execTap h x s) := by
  refine fireRaw_lands fun st i l r u hu => ?_
  split
  · exact hu.trapStation
  · refine keeps_effIte hu (keeps_effIte ?_ ?_)
    · exact State.keeps.settleEmpty (go := fun s => (s.consume st i h [.a] r).emitData st i r _) hu
        hu.consume.emitData _
    · dsimp only
      split
      · next v hv => exact (hu.arrive_trap hv).trapStation.retries
      · exact hu.beginWait.modStrand.makeArrival.retries
  · exact hu

theorem execBinit_lands (h : Hdr) (x : BarImm) (s : State) : s.lands (execBinit h x s) := by
  refine withBar_lands fun b st i r u hu => ?_
  split
  · exact hu
  · split
    · exact hu.trapStation
    · next v hv => exact (hu.initBar hv).consume.emitData.retries

theorem execBarrierDeadline_leads (e : BarDeadline) (s : State) : s.leads (execBarrierDeadline e s) := by
  refine leads_next.mpr ?_
  have h := State.keeps.refl s
  have hf : s.keeps (e.far.foldl (fun (s : State) f => s.farBar e.bar f) s) := h.foldl (fun _ _ hv => hv.farBar) _
  dsimp only
  split
  · exact keeps_ite (keeps_ite hf.retries h).completePhase.retries (keeps_ite hf.retries h)
  · exact keeps_ite hf.retries h

end Sys2Proof.Machine
end

section
/-! SUPPORT and proofs. Queues and gathered operands lead on. -/

namespace Sys2Proof.Machine

section
variable {s u : State} (h : s.keeps u)
include h

/-! Queues -/

theorem State.keeps.seeCounts {e : QEnt} : s.keeps (u.seeCounts e) := h.unitSees.unitSees

theorem State.keeps.setQState {q : Nat} {st : QState} : s.keeps (u.setQState q st) := by
  unfold State.setQState
  dsimp only
  split
  · exact h.setQueue
  · exact h.setQueue.owe

theorem State.keeps.queueError {q cause : Nat} : s.keeps (u.queueError q cause) := h.setQState.post

theorem State.keeps.freeCont {q num : Nat} : s.keeps (u.freeCont q num) := by
  unfold State.freeCont
  split
  · exact h
  · exact h

theorem State.keeps.consume1 {q : Nat} {n : Snap} : s.keeps (u.consume1 q n) := by
  unfold State.consume1
  dsimp only
  split
  · exact h.setQueue.freeCont.owe
  · exact keeps_ite h.setQueue.freeCont h.setQueue.freeCont.queueError

theorem State.keeps.refuse {q : Nat} {n : Snap} {code : Nat} : s.keeps (u.refuse q n code) :=
  (keeps_ite h.consume1.loseCount h.consume1).addThen

theorem State.keeps.append {p : Option SRef} {n : Nat} {fix : State → Nat → Nat → Option (State × List Word)}
    (hf : ∀ v q j w, s.keeps v → fix v q j = some w → s.keeps w.1) : s.keeps ((u.append p n fix).state u) := by
  unfold State.append
  split
  · exact h
  · dsimp only
    split
    · exact h
    · split
      · split
        · exact h.seeCounts.queueError
        · split
          · exact h
          · split
            · split
              · exact h
              · exact h
            · split
              · exact h
              · next w ws hw => exact (hf _ _ _ _ h.seeCounts hw).storeVia.storeVia
      · exact h.seeCounts.queueError

theorem State.keeps.appendPlain {p : Option SRef} {n : Nat} {d : List Word} : s.keeps ((u.appendPlain p n d).state u) :=
  h.append fun v q j w hv hw => by cases hw; exact hv

theorem State.keeps.appendCont {n : Nat} {d : List Word} : s.keeps ((u.appendCont n d).state u) :=
  h.append fun v q j w hv hw => by
    obtain ⟨k, -, rfl⟩ := Option.map_eq_some_iff.mp hw
    exact hv

theorem State.keeps.endChain {d : List Word} {slice queue n code : Nat} : s.keeps (u.endChain d slice queue n code) :=
  h.addThen

theorem State.keeps.enqStep {n a : Nat} {d : List Word} {st : SRef} {i tag idx : Nat} :
    s.keeps (u.enqStep n a d st i tag idx) := by
  have ha := h.appendPlain (p := some st) (n := a) (d := d)
  unfold State.enqStep
  split
  · exact h
  · dsimp only
    split
    · exact ha
    · split
      · exact State.keeps.release (by exact ha)
      · exact ha

theorem State.keeps.contStep {n a : Nat} {d : List Word} {slice queue : Nat} :
    s.keeps (u.contStep n a d slice queue) := by
  have ha := h.appendCont (n := a) (d := d)
  unfold State.contStep
  split
  · exact h
  · next v j hv =>
    rw [hv] at ha
    exact ha
  · exact State.keeps.endChain (by exact ha)

theorem State.keeps.makeAppend {n : Nat} : s.keeps (u.makeAppend n) := by
  unfold State.makeAppend
  split
  · exact h
  · split
    · exact keeps_ite h.enqStep h
    · exact h.contStep

theorem State.keeps.beginAppend {a : Append} : s.keeps (u.beginAppend a) := State.keeps.makeAppend (by exact h)

theorem State.keeps.discard {q f : Nat} : s.keeps (u.discard q f) := by
  induction f generalizing u with
  | zero => exact h
  | succ f ih =>
    unfold State.discard
    split
    · exact h
    · exact ih h.refuse

theorem State.keeps.takeUp {q : Nat} : s.keeps (u.takeUp q) := by
  unfold State.takeUp
  dsimp only
  refine keeps_ite h.unitSees.discard.setQueue (keeps_ite ?_ h.unitSees.setQueue)
  split
  · exact h.unitSees.setQueue
  · exact h.unitSees.setQueue.queueError

theorem State.keeps.countSnap {q j : Nat} {ws : List Word} : s.keeps (u.countSnap q j ws).1 := by
  unfold State.countSnap
  dsimp only
  split
  · exact h
  · split
    · exact h
    · exact h.setFscope

theorem State.keeps.readEntries {q n j : Nat} {v : State} (hv : u.readEntries q n j = some v) : s.keeps v := by
  induction n generalizing u j with
  | zero => cases hv; exact h
  | succ n ih =>
    unfold State.readEntries at hv
    dsimp only at hv
    split at hv
    · cases hv
    · exact ih h.unitSees.countSnap.setQueue hv

end

theorem execQueueAppend_leads (n : Nat) (s : State) : s.leads (execQueueAppend n s) :=
  leads_next.mpr (State.keeps.refl s).makeAppend

theorem execQueueTableChange_leads (q : Nat) (s : State) : s.leads (execQueueTableChange q s) :=
  leads_next.mpr (keeps_ite (State.keeps.refl s).takeUp (State.keeps.refl s))

theorem execPubObserved_leads (q : Nat) (s : State) : s.leads (execPubObserved q s) := by
  refine leads_next.mpr ?_
  have h := State.keeps.refl s
  dsimp only
  refine keeps_ite h (keeps_ite h.queueError ?_)
  split
  · refine keeps_ite h.seeCounts.queueError (keeps_ite h.seeCounts.queueError ?_)
    split
    · next v hv => exact h.seeCounts.readEntries hv
    · exact h.seeCounts.queueError
  · exact h.seeCounts.queueError

/-! Gathered streams -/

/-- The state that a firing leaves, in place of `s` where it traps. -/
@[reducible] def Fired.state (s : State) : Fired → State
  | .ok u => u
  | .trap _ _ => s

theorem keeps_fired {s u v : State} {r : Fired} (h : s.keeps (r.state u)) (hr : r = .ok v) : s.keeps v := by
  subst hr; exact h

section
variable {s u v : State} (h : s.keeps u) {act : SRef → Nat → Nat → List Word → State → Fired}
  (ha : ∀ st i tag l v, s.keeps v → s.keeps ((act st i tag l v).state v))
include h ha

theorem State.keeps.gatherFire (hv : s.keeps v) {st : SRef} {i : Nat} {t : Tok} {g : GatherSt} :
    s.keeps (gatherFire st i t act g u v) := by
  unfold Machine.gatherFire
  dsimp only
  refine keeps_ite hv.modNode.emitNothing (keeps_ite hv.modNode.emitForward ?_)
  split
  · next w hw => exact keeps_fired (ha _ _ _ _ _ hv.modNode) hw
  · exact h.trapStation

theorem State.keeps.gatherTake {k : Hdr} {w : Want} {st : SRef} {i : Nat} {nd : Node} {fed : List Slot}
    {l : List (Slot × Tok)} {t : Tok} : s.keeps (gatherTake k w st i nd fed l t act u) := by
  unfold Machine.gatherTake
  dsimp only
  split
  · exact h.trapStation
  · exact keeps_ite h.trapStation (keeps_ite (h.gatherFire ha h.modNode) h.modNode)

end

theorem fireGather_lands {h : Hdr} {w : Want} {act : SRef → Nat → Nat → List Word → State → Fired} {s : State}
    (ha : ∀ st i tag l v, s.keeps v → s.keeps ((act st i tag l v).state v)) : s.lands (fireGather h w act s) := by
  refine atStation_lands fun st i u hu => ?_
  split
  · refine keeps_ite hu ?_
    dsimp only
    split
    · exact hu.trapStation
    · split
      · exact hu.gatherTake ha
      · exact hu
  · exact hu

end Sys2Proof.Machine
end

section
/-! SUPPORT and proofs. The events of running blocks lead on (R14–R16, R33, R34, R40, R47, R411, R426). -/

namespace Sys2Proof.Machine

/-- The state that a pull of bytes leaves, unless it traps. -/
@[reducible] def Pull.state? : Pull → Option State
  | .ok s _ => some s
  | .wait s => some s
  | .trap _ _ => none

/-- The state that a stack step leaves, unless it traps. -/
@[reducible] def Stack.state? : Stack → Option State
  | .ok s _ => some s
  | .wait s => some s
  | .trap _ _ _ => none

section
variable {s u : State} (h : s.keeps u)
include h

/-! Walks and spans -/

theorem State.keeps.trapStrand {st : SRef} {code sub index acc : Nat} {addr : Word} :
    s.keeps (u.trapStrand st code sub index acc addr) := by
  unfold State.trapStrand
  split
  · exact h.dropHolds.takeTrap
  · exact h

theorem State.keeps.walkVia {core : Nat} {va : Word} : s.keeps (u.walkVia core va).2 := by
  unfold State.walkVia
  dsimp only
  split
  · exact h
  · exact h

theorem State.keeps.spansOf {core acc : Nat} {who : WalkFor} {f va n : Nat} {l : List (Nat × Nat × Xlat)} {t : State}
    (ht : (u.spansOf core acc who f va n l).state? = some t) : s.keeps t := by
  induction f generalizing va n l with
  | zero => cases ht; exact h
  | succ f ih =>
    unfold State.spansOf at ht
    dsimp only at ht
    split at ht
    · cases ht; exact h
    · split at ht
      · next v hv => cases ht; exact h.translate hv
      · cases ht
      · exact ih ht

theorem State.keeps.spansOf_ok {core acc : Nat} {who : WalkFor} {f va n : Nat} {l m : List (Nat × Nat × Xlat)} {t : State}
    (ht : u.spansOf core acc who f va n l = .ok t m) : s.keeps t := h.spansOf (by rw [ht])

theorem State.keeps.spansOf_wait {core acc : Nat} {who : WalkFor} {f va n : Nat} {l : List (Nat × Nat × Xlat)} {t : State}
    (ht : u.spansOf core acc who f va n l = .wait t) : s.keeps t := h.spansOf (by rw [ht])

theorem State.keeps.readSpans {who : Nat} {l : List (Nat × Nat × Xlat)} : s.keeps (u.readSpans who l).1 := by
  induction l generalizing u with
  | nil => exact h
  | cons p l ih => exact ih (h.yardFor.foldl (fun _ _ hv => hv.touchLoad) _)

theorem State.keeps.writeSpans {who : Nat} {l : List (Nat × Nat × Xlat)} {bs : List Byte} :
    s.keeps (u.writeSpans who l bs) := by
  induction l generalizing u bs with
  | nil => exact h
  | cons p l ih => exact ih h.storeVia

/-! Fetch -/

theorem State.keeps.cachePutBlock {x : Slice} {t : Strand} {b : Block} : s.keeps (u.cachePutBlock x t b) := h

theorem State.keeps.startBlock {st : SRef} {x : Slice} {t : Strand} {b : Block} : s.keeps (u.startBlock st x t b) :=
  keeps_ite h.trapStrand h.cachePutBlock.modStrand

theorem State.keeps.fetchBytes {st : SRef} {t : Strand} {n : Nat} {go : State → List Byte → State}
    (hg : ∀ v bs, s.keeps v → s.keeps (go v bs)) : s.keeps (u.fetchBytes st t n go) := by
  unfold State.fetchBytes
  split
  · next v hv => exact h.spansOf_wait hv
  · exact h.trapStrand
  · next v l hv =>
    have hk := h.spansOf_ok hv
    exact keeps_ite hk (keeps_ite hk.trapStrand (hg _ _ hk.readSpans))

/-! Commit -/

theorem State.keeps.keepPatch {sl : Option Slice} {t : Strand} {x : Inst} : s.keeps (u.keepPatch sl t x) :=
  keeps_ite h h

theorem State.keeps.commitRegs {st : SRef} {x : Inst} : s.keeps (u.commitRegs st x) :=
  (h.modStrand.foldl (fun _ _ hv => hv.writeSreg) _).modStrand

theorem State.keeps.commitEnd {st : SRef} {x : Inst} {c : Choice} {f : Option (Word × Nat)} :
    s.keeps (u.commitEnd st x c f) := by
  unfold State.commitEnd
  dsimp only
  split
  · exact h.modSlice.dropHolds.modStrand
  · exact h.dropHolds.modStrand

theorem State.keeps.pushFrame {st : SRef} {x : Slice} {t : Strand} {f : Word × Nat} {v : State}
    (hv : (u.pushFrame st x t f).state? = some v) : s.keeps v := by
  unfold State.pushFrame at hv
  split at hv
  · split at hv
    · cases hv
    · cases hv; exact h.wrAt.modStrand
  · split at hv
    · next w hw => cases hv; exact h.spansOf_wait hw
    · cases hv
    · next w l hw =>
      have hk := h.spansOf_ok hw
      split at hv
      · cases hv; exact hk
      · cases hv; exact hk.writeSpans.modStrand

theorem State.keeps.popFrame {st : SRef} {x : Slice} {t : Strand} {v : State}
    (hv : (u.popFrame st x t).state? = some v) : s.keeps v := by
  unfold State.popFrame at hv
  split at hv
  · cases hv; exact h
  · split at hv
    · dsimp only at hv
      split at hv
      · next w hw => cases hv; exact h.spansOf_wait hw
      · cases hv
      · next w l hw =>
        have hk := h.spansOf_ok hw
        split at hv
        · cases hv; exact hk
        · split at hv
          · cases hv
          · cases hv; exact hk.readSpans.modStrand
    · dsimp only at hv
      split at hv
      · cases hv
      · split at hv
        · cases hv
        · cases hv; exact h.modStrand

theorem State.keeps.stackStep {st : SRef} {x : Slice} {c : Choice} {v : State}
    (hv : (u.stackStep st x c).state? = some v) : s.keeps v := by
  unfold State.stackStep at hv
  split at hv
  · cases hv; exact h
  · split at hv
    · exact h.popFrame hv
    · split at hv
      · exact h.pushFrame hv
      · cases hv; exact h

theorem State.keeps.commitInst {st : SRef} {sl : Slice} {t : Strand} {x : Inst} {c : Choice} :
    s.keeps (u.commitInst st sl t x c) := by
  unfold State.commitInst
  dsimp only
  split
  · next v f hv =>
    have hk : s.keeps v := h.commitRegs.keepPatch.stackStep (by rw [hv])
    exact keeps_ite h hk.commitEnd
  · exact h
  · exact h.trapStrand

/-! Anti-tokens and patches -/

theorem State.keeps.dropWalks {st : SRef} {i tag idx : Nat} : s.keeps (u.dropWalks st i tag idx) := h

theorem State.keeps.cancelFiring {st : SRef} {i : Nat} {a : Anti} : s.keeps (u.cancelFiring st i a) := by
  unfold State.cancelFiring
  split
  · exact h
  · exact h.modNode.dropReq.dropWalks.antis

theorem State.keeps.cancelOwed {st : SRef} {i : Nat} {a : Anti} : s.keeps (u.cancelOwed st i a) :=
  h.modStrand.modNode.dropDeadlines

theorem State.keeps.adopt {st : SRef} {i gen : Nat} : s.keeps (u.adopt st i gen) := by
  unfold State.adopt
  split
  · exact h
  · exact h.modNode.out

end

/-! Events of strands -/

theorem execTranslationWalk_leads (n : Nat) (s : State) : s.leads (execTranslationWalk n s) := by
  refine leads_next.mpr ?_
  have h := State.keeps.refl s
  split
  · exact h
  · next w _ =>
    refine keeps_ite h ?_
    have hw := h.walkVia (core := w.core) (va := w.va)
    dsimp only
    split
    · exact keeps_ite (State.keeps.retryAdds (by exact hw)) hw
    · split
      · exact State.keeps.trapStation (by exact hw)
      · exact State.keeps.trapStrand (by exact hw)
      · exact State.keeps.trapStrand (by exact hw)
      · exact hw
      · exact State.keeps.retryAdds (by exact hw)
    · exact keeps_ite hw (State.keeps.post (by exact hw))

theorem execBlockFetch_leads (st : SRef) (s : State) : s.leads (execBlockFetch st s) := by
  refine leads_next.mpr ?_
  have h := State.keeps.refl s
  split
  · refine keeps_ite h ?_
    split
    · exact h.startBlock
    · refine keeps_ite h.trapStrand (h.fetchBytes fun v bs hv => keeps_ite hv.trapStrand (hv.fetchBytes fun w cs hw => ?_))
      dsimp only
      split
      · exact hw.trapStrand
      · exact hw.startBlock
  · exact h

theorem execCommit_leads (st : SRef) (s : State) : s.leads (execCommit st s) := by
  refine leads_next.mpr ?_
  have h := State.keeps.refl s
  split
  · split
    · exact h
    · dsimp only
      refine keeps_ite h ?_
      split
      · exact keeps_ite h h.trapStrand
      · split
        · exact h.trapStrand
        · split
          · exact h.trapStrand
          · exact h.commitInst
  · exact h

theorem execAntiTokenArrival_leads (st : SRef) (idx tgt k : Nat) (s : State) :
    s.leads (execAntiTokenArrival st idx tgt k s) := by
  refine leads_next.mpr ?_
  have h := State.keeps.refl s
  split
  · split
    · exact h
    · exact keeps_ite h (keeps_ite h.modNode (keeps_ite h (keeps_ite h.modNode.modNode
        (keeps_ite h.modNode.modNode.cancelFiring (keeps_ite h.modNode.modNode.cancelOwed h.modNode.modNode)))))
  · exact h

theorem execSwitchAdopt_leads (st : SRef) (idx : Nat) (s : State) : s.leads (execSwitchAdopt st idx s) := by
  refine leads_next.mpr ?_
  have h := State.keeps.refl s
  split
  · exact keeps_ite h.adopt h
  · exact h

end Sys2Proof.Machine
end

section
/-! SUPPORT and proofs. Messages, operations and their replies lead on (R337–R345, R378–R394). -/

namespace Sys2Proof.Machine

/-- The state that a translation for an operation leaves. -/
@[reducible] def OpGot.state : OpGot → State
  | .ok s _ => s
  | .wait s => s
  | .bad s _ => s

/-- The state that an access of an operation leaves. -/
@[reducible] def Io.state : Io → State
  | .ok s _ => s
  | .wait s => s
  | .bad s _ => s

section
variable {s u : State} (h : s.keeps u)
include h

/-! Messages -/

theorem State.keeps.fireMessage {st : SRef} {i tag : Nat} {ws : List Word} {done named : Bool} {f : Option (Nat × Nat)} :
    s.keeps (u.fireMessage st i tag ws done named f) := by
  unfold State.fireMessage
  split
  · exact h
  · dsimp only
    split <;> exact h.modStrand

theorem State.keeps.firedOr {c : Option Nat} {v : State} (hv : s.keeps v) : s.keeps ((firedOr c u).state v) := by
  unfold Machine.firedOr
  split
  · exact hv
  · exact h

theorem State.keeps.dropMsg {st : SRef} {n : Nat} : s.keeps (u.dropMsg st n) := h

theorem State.keeps.sentToken {st : SRef} {m : Msg} : s.keeps (u.sentToken st m) := keeps_ite h.emit h

theorem State.keeps.issueFault {st : SRef} {t : Strand} {n : Nat} {m : Msg} {code rcode : Nat} :
    s.keeps (u.issueFault st t n m code rcode) := State.keeps.sentToken (by exact h)

theorem State.keeps.setTiles {f : State → Nat → TileEnt} {l : List Nat} :
    s.keeps (l.foldl (fun v k => v.setTile k (f v k)) u) := h.foldl (fun _ _ hv => hv.setTile) l

theorem State.keeps.issueMessage {st : SRef} {t : Strand} {n : Nat} {m : Msg} :
    s.keeps (u.issueMessage st t n m) := by
  unfold State.issueMessage
  dsimp only
  have hk := fun f g => (h.setTiles (f := f) (l := m.fills)).setTiles (f := g) (l := m.drains)
  exact State.keeps.sentToken (State.keeps.dropMsg (by exact hk _ _))

/-! Operations -/

theorem State.keeps.modOp {n : Nat} {f : Op → Op} : s.keeps (u.modOp n f) := h

theorem State.keeps.releaseTiles {o : Op} : s.keeps (u.releaseTiles o) := h.setTiles.setTiles

theorem State.keeps.endOp {n status rcode : Nat} {r : Option Word} : s.keeps (u.endOp n status rcode r) := by
  unfold State.endOp
  split
  · exact h
  · exact h.releaseTiles.modOp

theorem State.keeps.opXlate (o : Op) (va : Word) (acc : Nat) : s.keeps (u.opXlate o va acc).state := by
  unfold State.opXlate
  dsimp only
  split
  · exact h
  · split
    · split
      · exact h
      · exact h
    · split
      · exact h
      · split
        · exact h.requestWalk
        · have hw := h.walkVia (core := o.core) (va := va)
          split
          · next x v hv =>
            rw [hv] at hw
            split
            · exact hw
            · exact hw
          · next v hv =>
            rw [hv] at hw
            exact hw
          · next v hv =>
            rw [hv] at hw
            exact hw.requestWalk

theorem State.keeps.opXlate_ok {o : Op} {va : Word} {acc : Nat} {v : State} {x : Xlat} (hv : u.opXlate o va acc = .ok v x) :
    s.keeps v := by
  have hk := h.opXlate o va acc
  rwa [hv] at hk

theorem State.keeps.opXlate_wait {o : Op} {va : Word} {acc : Nat} {v : State} (hv : u.opXlate o va acc = .wait v) :
    s.keeps v := by
  have hk := h.opXlate o va acc
  rwa [hv] at hk

theorem State.keeps.opXlate_bad {o : Op} {va : Word} {acc c : Nat} {v : State} (hv : u.opXlate o va acc = .bad v c) :
    s.keeps v := by
  have hk := h.opXlate o va acc
  rwa [hv] at hk

theorem State.keeps.opReadIn {o : Op} {fmt : Option Nat} {va : Word} {n : Nat} :
    s.keeps (u.opReadIn o fmt va n).state := by
  unfold State.opReadIn
  split
  · next v hv => exact h.opXlate_wait hv
  · next v c hv => exact h.opXlate_bad hv
  · next v x hv =>
    have hk := h.opXlate_ok hv
    split
    · exact hk
    · split
      · exact hk
      · dsimp only
        split
        · exact hk.loadVia
        · exact hk.loadVia

theorem State.keeps.opRead1 {o : Op} {va : Word} {n : Nat} : s.keeps (u.opRead1 o va n).state := h.opReadIn

theorem State.keeps.opWriteIn {o : Op} {fmt : Option Nat} {va : Word} {bs : List Byte} :
    s.keeps (u.opWriteIn o fmt va bs).state := by
  unfold State.opWriteIn
  split
  · next v hv => exact h.opXlate_wait hv
  · next v c hv => exact h.opXlate_bad hv
  · next v x hv =>
    have hk := h.opXlate_ok hv
    split
    · exact hk
    · split
      · exact hk
      · exact hk.storeVia

theorem State.keeps.opWrite1 {o : Op} {va : Word} {bs : List Byte} : s.keeps (u.opWrite1 o va bs).state := h.opWriteIn

omit h in
theorem State.keeps.ioThen {r : Io} (h : s.keeps r.state) {n : Nat} {go : State → List Byte → State}
    (hg : ∀ v bs, s.keeps v → s.keeps (go v bs)) : s.keeps (r.then n go) := by
  cases r with
  | ok v bs => exact hg _ _ h
  | wait v => exact h
  | bad v c => exact State.keeps.endOp h

theorem State.keeps.opLocalRead {k n : Nat} : s.keeps (u.localRead k n).state := by
  unfold State.localRead
  split
  · exact h
  · split
    · exact h
    · split
      · exact h
      · exact h

theorem State.keeps.opLocalWrite {k : Nat} {bs : List Byte} : s.keeps (u.localWrite k bs).state := by
  unfold State.localWrite
  split
  · exact h
  · split
    · exact h
    · exact h.wrAt

theorem State.keeps.spanRead {o : Op} {p : Span} : s.keeps (u.spanRead o p).state := by
  unfold State.spanRead
  split
  · exact h.opReadIn
  · exact h.opLocalRead

theorem State.keeps.spanWrite {o : Op} {p : Span} {bs : List Byte} : s.keeps (u.spanWrite o p bs).state := by
  unfold State.spanWrite
  split
  · exact h.opWriteIn
  · exact h.opLocalWrite

theorem State.keeps.firstIo {α : Type} {act : State → α → Io} (ha : ∀ v a, s.keeps v → s.keeps (act v a).state)
    {l : List (Nat × α)} : s.keeps (firstIo act u l).2.state := by
  induction l generalizing u with
  | nil => exact h
  | cons p l ih =>
    have hp := ha u p.2 h
    unfold Machine.firstIo
    split
    · next v hv =>
      rw [hv] at hp
      exact ih hp
    · next v bs hv =>
      rw [hv] at hp
      exact hp
    · next v c hv =>
      rw [hv] at hp
      exact hp

theorem State.keeps.noteRead {n m k : Nat} {o : Op} {bs : List Byte} : s.keeps (u.noteRead n m o k bs) := h

theorem State.keeps.noteWrite {n m k : Nat} {o : Op} : s.keeps (u.noteWrite n m o k) := h

theorem State.keeps.pull {n m : Nat} {o : Op} {ps : List Span} {go : List Byte → State} (hg : ∀ bs, s.keeps (go bs)) :
    s.keeps (u.pull n m o ps go) := by
  unfold State.pull
  split
  · exact hg _
  · exact (h.firstIo fun _ _ hv => hv.spanRead).ioThen fun _ _ hv => hv.noteRead

theorem State.keeps.push {n m : Nat} {o : Op} {ws : List (Span × List Byte)} {fin : State → State}
    (hf : ∀ v, s.keeps v → s.keeps (fin v)) : s.keeps (u.push n m o ws fin) := by
  unfold State.push
  split
  · exact hf _ h
  · exact (h.firstIo fun _ _ hv => hv.spanWrite).ioThen fun _ _ hv => keeps_ite (hf _ hv.noteWrite) hv.noteWrite

theorem State.keeps.pullMem {n m a k : Nat} {o : Op} {go : List Byte → State} (hg : ∀ bs, s.keeps (go bs)) :
    s.keeps (u.pullMem n m o a k go) := h.pull hg

theorem State.keeps.pushMem {n m a : Nat} {o : Op} {bs : List Byte} {fin : State → State}
    (hf : ∀ v, s.keeps v → s.keeps (fin v)) : s.keeps (u.pushMem n m o a bs fin) := h.push hf

/-! Replies -/

theorem State.keeps.deliverDone {o : Op} : s.keeps (u.deliverDone o) := by
  unfold State.deliverDone
  dsimp only
  split
  · exact h
  · refine keeps_ite ?_ h.emit
    split
    · exact h
    · split
      · split
        · exact h.owe.modSlice
        · exact h.modSlice
      · exact h.modSlice

theorem State.keeps.trapIssuer {o : Op} {code acc : Nat} {addr : Word} : s.keeps (u.trapIssuer o code acc addr) := by
  unfold State.trapIssuer
  dsimp only
  split
  · exact h
  · exact keeps_ite h (keeps_ite h.takeTrap.post (keeps_ite h.modSlice h.takeTrap))

theorem State.keeps.replyCounter {o : Op} {v : State} (hv : u.replyCounter o = some v) : s.keeps v := by
  unfold State.replyCounter at hv
  dsimp only at hv
  split at hv
  · cases hv; exact h
  · split at hv
    · cases hv
    · next w c hw => cases hv; exact (h.opXlate_bad hw).trapIssuer
    · next w x hw =>
      split at hv
      · cases hv
      · cases hv; exact (h.opXlate_ok hw).counterAdd

theorem State.keeps.replyOp {n : Nat} {o : Op} : s.keeps (u.replyOp n o) := by
  have hgone : s.keeps { u with ops := dropAt u.ops n } := h
  unfold State.replyOp
  dsimp only
  split
  · next v hv =>
    have hk : s.keeps v := by
      split at hv
      · cases hv; exact hgone.deliverDone
      · exact hgone.replyCounter hv
    split
    · exact hk.trapIssuer
    · exact hk
  · split
    · next v hv => exact h.opXlate_wait hv
    · exact h

end

/-! Rows of messages -/

theorem fireNamed_lands (h : Hdr) (x : EngImm) (w : Want) (port oper : Nat) (lay : List Word → List Word × Word) (s : State) :
    s.lands (fireNamed h x w port oper lay s) := by
  refine fireGather_lands fun st i tag l v hv => ?_
  split
  · exact hv
  · exact hv.fireMessage.firedOr hv

theorem execSend_lands (h : Hdr) (x : EngImm) (s : State) : s.lands (execSend h x s) := by
  refine fireGather_lands fun st i tag l v hv => ?_
  dsimp only
  split
  · exact hv
  · exact hv.fireMessage

/-! Events of messages -/

theorem execMessageIssue_leads (st : SRef) (n : Nat) (s : State) : s.leads (execMessageIssue st n s) := by
  refine leads_next.mpr ?_
  have h := State.keeps.refl s
  split
  · exact h
  · split
    · exact h
    · refine keeps_ite h ?_
      split
      · exact h.issueFault
      · exact keeps_ite h.trapStation (keeps_ite h (keeps_ite h.issueFault h.issueMessage))

theorem execOperationReply_leads (n : Nat) (s : State) : s.leads (execOperationReply n s) := by
  refine leads_next.mpr ?_
  have h := State.keeps.refl s
  split
  · exact keeps_ite h.replyOp h
  · exact h

end Sys2Proof.Machine
end

section
/-! SUPPORT and proofs. Scopes, freezing, thawing and images in memory lead on (R237, R412–R425). -/

namespace Sys2Proof.Machine

section
variable {s u : State} (h : s.keeps u)
include h

/-! Images in memory -/

theorem State.keeps.markWrite {pa n : Nat} : s.keeps (u.markWrite pa n) := h

/-- Cells written over a cleared range of memory. -/
theorem State.keeps.setMem {pa n : Nat} {f : Host.Cell → Nat} {cells : List Host.Cell} {p : Table Bool} :
    s.keeps { u with mem := cells.foldl (fun m c => wrByte m (f c) c.2) (Table.clear u.mem pa (pa + n)), poison := p } :=
  keeps_of_memOk h rfl fun ⟨hm, hl⟩ => ⟨foldl_wrByte_wf (clear_wf hm _ _) f cells, hl⟩

theorem State.keeps.unitFill {x : Xlat} {n : Nat} {cells : List Host.Cell} : s.keeps (u.unitFill x n cells) := by
  unfold State.unitFill
  exact State.keeps.storeTs (State.keeps.through
    (State.keeps.markWrite (State.keeps.soil (State.keeps.setMem h.yardFor (f := fun c => x.pa + c.1)))))

theorem State.keeps.imagePut {va : Word} {n : Nat} {cells : List Host.Cell} : s.keeps (u.imagePut va n cells) := by
  refine h.foldl (fun v p hv => ?_) _
  split
  · exact hv.unitFill
  · exact hv

theorem State.keeps.freeImage {x : Slice} : s.keeps (u.freeImage x) := by
  unfold State.freeImage
  split
  · exact h
  · exact h

/-! Finish scopes and counters of rows -/

theorem State.keeps.openScope {parent : Nat} {ctr : Word} : s.keeps (u.openScope parent ctr).1 := by
  unfold State.openScope
  dsimp only
  split
  · exact h
  · split
    · exact h
    · exact h.setFscope.setFscope

theorem State.keeps.closeScope {n : Nat} : s.keeps (u.closeScope n) := keeps_ite h.setFscope.checkScope h

end

/-- The state that a read of a counter leaves. -/
@[reducible] def Polled.state : Polled → State
  | .later s => s
  | .value s _ => s
  | .trap s _ => s

theorem keeps_polled {s t : State} {p : Polled} (h : s.keeps p.state) :
    (∀ w, p = .value t w → s.keeps t) ∧ (p = .later t → s.keeps t) ∧ ∀ c, p = .trap t c → s.keeps t :=
  ⟨fun _ hp => by subst hp; exact h, fun hp => by subst hp; exact h, fun _ hp => by subst hp; exact h⟩

section
variable {s u : State} (h : s.keeps u)
include h

theorem State.keeps.poll {st : SRef} {core i tag idx : Nat} {va target : Word} :
    s.keeps (u.poll st core i tag idx va target).state := by
  unfold State.poll
  split
  · exact h
  · next v hv => exact h.translate hv
  · split
    · exact h
    · dsimp only
      split
      · exact h.yardFor
      · split
        · exact h.yardFor.touchLoad
        · exact h.yardFor.touchLoad

theorem State.keeps.repoll {st : SRef} {n : Nat} : s.keeps (u.repoll st n) := by
  unfold State.repoll
  split
  · exact h
  · split
    · exact h
    · split
      · split
        · next v hv => exact (keeps_polled h.poll).2.1 hv
        · next v w hv => exact ((keeps_polled h.poll).1 w hv).release
        · next v c hv => exact ((keeps_polled h.poll).2.2 c hv).unwait.trapStation
      · exact h

/-! Freezing -/

theorem State.keeps.moveCores {id : Nat} {mv : Move} : s.keeps (u.moveCores id mv) :=
  keeps_of_memOk h rfl fun hu => moveCores_memOk hu id mv

theorem State.keeps.clearCores {cores : List Nat} : s.keeps (u.clearCores cores) :=
  keeps_of_memOk h rfl fun hu => clearCores_memOk hu cores

theorem State.keeps.removeSlice {id : Nat} : s.keeps (u.removeSlice id) := h

theorem State.keeps.abortNow {id : Nat} : s.keeps (u.abortNow id) := by
  unfold State.abortNow
  split
  · exact h
  · exact h.clearCores.freeBarriers.freeImage.loseCount.removeSlice.addThen.releaseWhere

theorem State.keeps.unissueAll {st : SRef} {n : Nat} : s.keeps (u.unissueAll st n) := by
  induction n generalizing u with
  | zero => exact h
  | succ n ih => exact ih h.unissue

theorem State.keeps.halt {x : Slice} : s.keeps (u.halt x) := by
  have hk := h.foldl (f := fun v (t : Strand) => (v.finishFesets ⟨x.id, t.rank⟩).unissueAll ⟨x.id, t.rank⟩ t.pend.length)
    (fun _ _ hv => hv.finishFesets.unissueAll) x.strands
  exact hk

theorem State.keeps.postTrap {x : Slice} : s.keeps (u.postTrap x) := by
  unfold State.postTrap
  split
  · exact h.post
  · exact h

theorem State.keeps.writeOut {id : Nat} {v : State} (hv : u.writeOut id = some v) : s.keeps v := by
  unfold State.writeOut at hv
  split at hv
  · cases hv
  · dsimp only at hv
    obtain ⟨a, -, rfl⟩ := Option.map_eq_some_iff.mp hv
    exact State.keeps.moveCores (State.keeps.modSlice (by exact h.imagePut))

theorem State.keeps.writeOut_getD {id : Nat} {v : State} (hv : s.keeps v) : s.keeps ((u.writeOut id).getD v) := by
  cases hw : u.writeOut id with
  | none => exact hv
  | some w => exact h.writeOut hw

theorem State.keeps.markThaw {id : Nat} : s.keeps (u.markThaw id) := h

theorem State.keeps.releaseFreeze {id : Nat} {b : Bool} {w : Word} : s.keeps (u.releaseFreeze id b w) := h.releaseWhere

theorem State.keeps.freezeOut {x : Slice} {v : State} (hv : u.freezeOut x = some v) : s.keeps v := by
  obtain ⟨w, hw, rfl⟩ := Option.map_eq_some_iff.mp hv
  exact (h.writeOut hw).releaseFreeze

theorem State.keeps.refuseImage {x : Slice} : s.keeps (u.refuseImage x) := h.releaseFreeze.modSlice

theorem State.keeps.settleFreeze {x : Slice} : s.keeps (u.settleFreeze x) := by
  have hr := h.releaseFreeze (id := x.id) (b := false) (w := 0)
  unfold State.settleFreeze
  dsimp only
  refine keeps_ite (hr.writeOut_getD hr.modSlice) (keeps_ite ?_
    (keeps_ite hr.markThaw (keeps_ite hr.modSlice hr)))
  split
  · next v hv => exact hr.writeOut hv
  · exact keeps_ite hr.markThaw hr

theorem State.keeps.afterFreeze {x : Slice} : s.keeps (u.afterFreeze x) := by
  unfold State.afterFreeze
  refine keeps_ite h.abortNow (keeps_ite h.post.abortNow (keeps_ite ?_ h.settleFreeze))
  split
  · next v hv => exact h.freezeOut hv
  · dsimp only
    split
    · exact h.refuseImage.settleFreeze
    · exact h.refuseImage

theorem State.keeps.thawDone {id : Nat} : s.keeps (u.thawDone id) := by
  have hk := h.releaseWhere (f := thawRelease u.freeSeq id)
  exact hk

theorem State.keeps.overtake {x : Slice} {c : Cause} : s.keeps (u.overtake x c) :=
  keeps_ite h h.freeImage.modSlice.thawDone

/-! Thaws -/

theorem State.keeps.deliverReplies {x : Slice} : s.keeps (u.deliverReplies x) := by
  refine h.modSlice.foldl (fun v r hv => ?_) _
  split
  · exact hv.emit
  · exact hv

theorem State.keeps.judgeWait {st : SRef} {k : Nat × Nat × Nat} : s.keeps (u.judgeWait st k) := by
  unfold State.judgeWait
  split
  · exact h
  · split
    · exact h
    · split
      · exact h
      · split
        · exact h.judgePhase
        · exact keeps_ite h.release h
        · exact h.release
        · split
          · exact keeps_ite h.release h
          · exact h.release
        · exact keeps_ite h.release h
        · split
          · exact h.release
          · next y _ =>
            refine keeps_ite h.beginWave (keeps_ite ?_ (keeps_ite h.release h))
            cases hf : u.freezeOut y with
            | none => exact h.release
            | some v => exact h.freezeOut hf
        · exact h

theorem State.keeps.judgeWaits {x : Slice} : s.keeps (u.judgeWaits x) :=
  (h.foldl (fun _ _ hv => hv.foldl (fun _ _ hw => hw.judgeWait) _) _).retries

theorem State.keeps.restart {id : Nat} : s.keeps (u.restart id) := by
  unfold State.restart
  split
  · exact h
  · dsimp only
    split
    · exact h.freeImage.modSlice.deliverReplies.takeTrap.judgeWaits
    · exact h.freeImage.modSlice.deliverReplies.judgeWaits

theorem State.keeps.redirect {st : SRef} {pc : Word} : s.keeps (u.redirect st pc) := h

theorem State.keeps.applyHeaders {id n : Nat} {l : List (List Word)} : s.keeps (u.applyHeaders id n l) :=
  h.modSlice.foldl (fun _ _ hv => keeps_ite hv.redirect.modSlice hv) _

end

/-! Rows of scheduling -/

theorem execEnq_lands (h : Hdr) (s : State) : s.lands (execEnq h s) := by
  refine fireEff_lands fun st i r u hu => ?_
  split
  · dsimp only
    split
    · exact hu.trapStation
    · next v hv => exact hu.translate hv
    · exact keeps_effIte hu (keeps_effIte hu.yardFor.touchLoad.trapStation hu.yardFor.touchLoad.beginWait.beginAppend)
  · exact hu

theorem execYield_lands (h : Hdr) (s : State) : s.lands (execYield h s) := by
  refine fireEff_lands fun st i r u hu => ?_
  split
  · exact hu
  · exact hu.modInst.consume.emitData

theorem execFopen_lands (h : Hdr) (s : State) : s.lands (execFopen h s) :=
  fireGather_lands fun _ _ _ _ _ hv => hv.openScope.emit

theorem execFclose_lands (h : Hdr) (s : State) : s.lands (execFclose h s) :=
  fireEff_lands fun _ _ _ _ hu => hu.closeScope.consume.emitData

theorem execFwait_lands (h : Hdr) (s : State) : s.lands (execFwait h s) := by
  refine fireEff_lands fun st i r u hu => ?_
  dsimp only
  split
  · exact hu
  · exact keeps_ite hu.beginWait.release hu.beginWait

/-! Events of freezes -/

theorem execFreezeWave_leads (sl : Nat) (s : State) : s.leads (execFreezeWave sl s) := by
  refine leads_next.mpr ?_
  have h := State.keeps.refl s
  split
  · exact keeps_ite h.modSlice h
  · exact h

theorem execFreezeComplete_leads (sl : Nat) (s : State) : s.leads (execFreezeComplete sl s) := by
  refine leads_next.mpr ?_
  have h := State.keeps.refl s
  split
  · exact h
  · refine keeps_ite h ?_
    dsimp only
    split
    · exact h.halt.modSlice.dropDeadlines.thawDone.postTrap.afterFreeze
    · exact h.halt.modSlice.dropDeadlines.thawDone.postTrap

theorem execThawResume_leads (sl : Nat) (s : State) : s.leads (execThawResume sl s) := by
  refine leads_next.mpr ?_
  have h := State.keeps.refl s
  split
  · exact keeps_ite h.restart h
  · exact h

end Sys2Proof.Machine
end

section
/-! SUPPORT and proofs. `WAITC` leads on (R237). -/

namespace Sys2Proof.Machine

/-! What `WAITC` does first leaves stations where they stand -/

@[simp] theorem shape_eventAt (s : State) (p : Party) (ts : Nat) : (s.eventAt p ts).shape = s.shape := by
  unfold State.eventAt
  split
  · rfl
  · rfl

@[simp] theorem shape_hostSend (s : State) (k : HostMsgKind) (pa : Nat) (bs : List Byte) :
    (s.hostSend k pa bs).shape = s.shape := by
  unfold State.hostSend
  split
  · rfl
  · rfl

@[simp] theorem shape_loadTs (s : State) (p : Party) (copy : Bool) (pa : Nat) : (s.loadTs p copy pa).shape = s.shape := by
  unfold State.loadTs
  split
  · exact shape_hostSend ..
  · dsimp only
    split
    · exact shape_eventAt ..
    · exact shape_eventAt ..

@[simp] theorem shape_storeTs (s : State) (p : Party) (pa n : Nat) : (s.storeTs p pa n).shape = s.shape := by
  unfold State.storeTs
  split
  · rfl
  · exact shape_eventAt ..

@[simp] theorem shape_markWrite (s : State) (pa n : Nat) : (s.markWrite pa n).shape = s.shape :=
  shape_mapSlices fun x => by simp [Slice.shape]

@[simp] theorem shape_pokeMem (s : State) (pa : Nat) (bs : List Byte) : (s.pokeMem pa bs).shape = s.shape := by
  unfold State.pokeMem
  rw [shape_markWrite]
  unfold State.soil
  split
  · rfl
  · rfl

@[simp] theorem shape_poke (s : State) (pa : Nat) (bs : List Byte) : (s.poke pa bs).shape = s.shape := by
  simp [State.poke]

@[simp] theorem shape_settleRegion (s : State) (n : Nat) : (s.settleRegion n).shape = s.shape := by
  unfold State.settleRegion
  dsimp only
  split
  · rfl
  · rfl

@[simp] theorem shape_applyParts (s : State) (p : Party) (region pa : Nat) (ps : List Part) :
    (s.applyParts p region pa ps).shape = s.shape := by
  unfold State.applyParts
  rw [shape_settleRegion]
  exact (shape_storeTs ..).trans (shape_poke ..)

@[simp] theorem shape_applyKey (s : State) (p : Party) (region key limit : Nat) :
    (s.applyKey p region key limit).shape = s.shape := by
  unfold State.applyKey
  dsimp only
  split
  · rfl
  · exact shape_applyParts ..

theorem shape_foldl {α : Type} {f : State → α → State} (h : ∀ s a, (f s a).shape = s.shape) (s : State) (l : List α) :
    (l.foldl f s).shape = s.shape := by
  induction l generalizing s with
  | nil => rfl
  | cons a l ih => exact (ih _).trans (h s a)

@[simp] theorem shape_yardFor (s : State) (p : Party) (x : Xlat) (k n : Nat) : (s.yardFor p x k n).shape = s.shape := by
  unfold State.yardFor
  split
  · exact shape_foldl (fun _ _ => shape_applyKey ..) _ _
  · rfl

@[simp] theorem shape_touchLoad (s : State) (core : Nat) (x : Xlat) (k : Nat) : (s.touchLoad core x k).shape = s.shape :=
  shape_loadTs ..

theorem shape_translate {s t : State} {core acc : Nat} {va : Word} {who : WalkFor}
    (h : s.translate core va acc who = .wait t) : t.shape = s.shape := by
  unfold State.translate State.translateBy at h
  split at h
  · cases h
  · split at h
    · split at h
      · cases h
      · cases h
    · cases h
      unfold State.requestWalk
      split
      · rfl
      · rfl

theorem shape_modWaits (s : State) (st : SRef) (g : Strand → List Wait) :
    (s.modStrand st fun t => { t with waits := g t }).shape = s.shape :=
  shape_modStrand (f := fun t => { t with waits := g t }) (fun _ => rfl) s st

@[simp] theorem shape_endWait (s : State) (st : SRef) (n : Nat) (data : Word) (e : Bool) :
    (s.endWait st n data e).shape = s.shape := by
  unfold State.endWait
  split
  · rfl
  · split
    · rfl
    · exact (shape_emit ..).trans (shape_modWaits ..)

@[simp] theorem shape_flushWaits (s : State) (st : SRef) (f : Nat) : (s.flushWaits st f).shape = s.shape := by
  induction f generalizing s with
  | zero => rfl
  | succ f ih =>
    unfold State.flushWaits
    split
    · rfl
    · split
      · rfl
      · split
        · rw [ih, shape_endWait]
        · rfl

@[simp] theorem shape_release (s : State) (st : SRef) (n : Nat) (data : Word) (e : Bool) :
    (s.release st n data e).shape = s.shape := by
  unfold State.release
  dsimp only
  split
  · exact (shape_flushWaits ..).trans (shape_modWaits ..)
  · exact shape_modWaits ..

@[simp] theorem shape_unwait (s : State) (st : SRef) (n : Nat) : (s.unwait st n).shape = s.shape := by
  unfold State.unwait
  split
  · rfl
  · split
    · rfl
    · exact (shape_modWaits ..).trans (shape_modNode ..)

theorem shape_joinCause (x : Slice) (c : Cause) : (x.joinCause c).shape = x.shape := by
  unfold Slice.joinCause
  split
  · rfl
  · rfl
  · rfl
  · rfl
  · rfl

@[simp] theorem shape_takeTrap (s : State) (id : Nat) (t : Trap) : (s.takeTrap id t).shape = s.shape :=
  (shape_modSlice (f := fun x => { x with trap := some (x.trap.getD { t with time := s.now }) }) (fun _ => rfl) ..).trans
    (shape_modSlice (fun x => shape_joinCause x _) ..)

@[simp] theorem shape_trapStation (s : State) (st : SRef) (i code sub tag eidx acc : Nat) (addr : Word) :
    (s.trapStation st i code sub tag eidx acc addr).shape = s.shape := by
  unfold State.trapStation
  split
  · exact (shape_takeTrap ..).trans (shape_modNode ..)
  · rfl

theorem shape_poll (s : State) (st : SRef) (core i tag idx : Nat) (va target : Word) :
    (s.poll st core i tag idx va target).state.shape = s.shape := by
  unfold State.poll
  split
  · rfl
  · next v hv => exact shape_translate hv
  · split
    · rfl
    · dsimp only
      split
      · exact shape_yardFor ..
      · split
        · exact (shape_touchLoad ..).trans (shape_yardFor ..)
        · exact (shape_touchLoad ..).trans (shape_yardFor ..)

@[simp] theorem shape_repoll (s : State) (st : SRef) (n : Nat) : (s.repoll st n).shape = s.shape := by
  unfold State.repoll
  split
  · rfl
  · next t _ =>
    split
    · rfl
    · next w _ =>
      split
      · next va target _ =>
        have hp := shape_poll s st t.core w.node w.tok.tag w.tok.idx va target
        split
        · next v hv => rwa [hv] at hp
        · next v d hv =>
          rw [hv] at hp
          exact (shape_release ..).trans hp
        · next v c hv =>
          rw [hv] at hp
          exact (shape_trapStation ..).trans ((shape_unwait ..).trans hp)
      · rfl

theorem execWaitc_lands (h : Hdr) (s : State) : s.lands (execWaitc h s) := by
  refine atStation_then_lands (fun st i u hu => ?_) (fun st i u => ?_) fun v => ?_
  · split
    · split
      · exact hu.repoll
      · exact hu
    · exact hu
  · split
    · split
      · exact shape_repoll ..
      · rfl
    · rfl
  · refine fireEff_lands fun st i r u hu => ?_
    split
    · exact hu
    · exact hu.beginWait.repoll

end Sys2Proof.Machine
end

section
/-! SUPPORT and proofs. Host, mailbox, bring-up and errors lead on (R285–R289, R466–R475). -/

namespace Sys2Proof.Machine

/-! A resource taken out and put back, with its key given as a variable, whose class the kernel does not evaluate -/

/-- `State.takeOut` of a resource whose key is given. -/
def State.takeOutAt (s : State) (key cls unit : Nat) : State :=
  let s := { s with testing := s.testing ++ [key] }
  match errorCore key with
  | some c => { s with inService := Table.set false s.inService c false }
  | none => if cls = 3 then { s with noMatrix := Table.set false s.noMatrix unit true } else s

theorem takeOut_eq (s : State) (cls unit : Nat) : s.takeOut cls unit = s.takeOutAt (resourceKey cls unit) cls unit := rfl

/-- `State.putBack` of a resource whose key is given. -/
def State.putBackAt (s : State) (key cls unit : Nat) : State :=
  match errorCore key with
  | some c => s.joinCore c
  | none => if cls = 3 then { s with noMatrix := Table.set false s.noMatrix unit false } else s

theorem putBack_eq (s : State) (cls unit : Nat) : s.putBack cls unit = s.putBackAt (resourceKey cls unit) cls unit := rfl

section
variable {s u : State} (h : s.keeps u)
include h

/-! The host -/

theorem State.keeps.hostLoad {link : Nat} {p : Nat × Nat} : s.keeps (u.hostLoad link p) := by
  unfold State.hostLoad
  dsimp only
  exact State.keeps.withHostOut (u := State.loadTs _ _ _ _) h.applyPhys.loadTs

theorem State.keeps.hostStore {link : Nat} {p : Nat × Nat} {bs : List Byte} : s.keeps (u.hostStore link p bs) :=
  h.applyPhys.poke.storeTs

theorem State.keeps.mboxDone {n : Nat} : s.keeps (u.mboxDone n) := h

theorem State.keeps.respond {bs : List Byte} : s.keeps (u.respond bs) := h

theorem State.keeps.mboxWrite {o : Nat} {bs : List Byte} : s.keeps (u.mboxWrite o bs) := by
  unfold State.mboxWrite
  dsimp only
  split
  · exact h
  · exact h

theorem State.keeps.hostDo {r : HostReq} : s.keeps (u.hostDo r) := by
  unfold State.hostDo
  dsimp only
  refine keeps_ite (keeps_ite ?_ ?_) (keeps_ite (keeps_ite h.mboxWrite ?_) h)
  · exact h.foldl (fun _ _ hv => hv.hostStore) _
  · exact h.foldl (fun _ _ hv => hv.hostLoad) _
  · exact h.withHostOut

theorem State.keeps.onCommand {code : Nat} {always : Bool} {go : State → State} (hg : s.keeps (go u)) :
    s.keeps (u.onCommand code always go) := keeps_ite h (keeps_ite h.mboxDone hg)

theorem State.keeps.resetPackage : s.keeps u.resetPackage :=
  keeps_of_memOk h rfl fun ⟨hm, _⟩ => ⟨filter_wf hm _, reset_memOk.2⟩

/-! Bring-up and errors -/

theorem State.keeps.joinCore {c : Nat} : s.keeps (u.joinCore c) := by
  unfold State.joinCore
  split
  · exact h
  · exact h

theorem State.keeps.poisonAt {l : List Nat} : s.keeps (u.poisonAt l) := h

theorem State.keeps.freezeForError {x : Slice} : s.keeps (u.freezeForError x) := by
  unfold State.freezeForError
  refine keeps_ite h.beginWave (keeps_ite h.post.abortNow ?_)
  dsimp only
  split
  · next v hv => exact h.overtake.writeOut hv
  · exact h.overtake.modSlice

theorem State.keeps.takeOutAt {key cls unit : Nat} : s.keeps (u.takeOutAt key cls unit) := by
  unfold State.takeOutAt
  dsimp only
  split
  · exact h.same rfl rfl rfl
  · split
    · exact h.same rfl rfl rfl
    · exact h.same rfl rfl rfl

theorem State.keeps.takeOut {cls unit : Nat} : s.keeps (u.takeOut cls unit) := by
  rw [takeOut_eq]
  exact h.takeOutAt

theorem State.keeps.putBackAt {key cls unit : Nat} : s.keeps (u.putBackAt key cls unit) := by
  unfold State.putBackAt
  split
  · exact h.joinCore
  · split
    · exact h.same rfl rfl rfl
    · exact h

theorem State.keeps.putBack {cls unit : Nat} : s.keeps (u.putBack cls unit) := by
  rw [putBack_eq]
  exact h.putBackAt

theorem State.keeps.retire {cls unit parts : Nat} : s.keeps (u.retire cls unit parts) := by
  unfold State.retire
  dsimp only
  split
  · exact h
  · exact h

end

/-! Events of the host -/

theorem execHostAccess_leads (link : Nat) (write : Bool) (addr len : Nat) (bytes : List Byte) (s : State) :
    s.leads (execHostAccess link write addr len bytes s) := by
  refine leads_next.mpr ?_
  have h := State.keeps.refl s
  dsimp only
  split
  · split
    · exact h
    · exact h.hostDo
  · split
    · exact State.keeps.hostDo (by exact h)
    · exact h

theorem execMboxSensors_leads (s : State) : s.leads (execMboxSensors s) := by
  refine leads_next.mpr ((State.keeps.refl s).onCommand ?_)
  have hs : s.keeps { s with freeSeq := s.freeSeq + 1 } := (State.keeps.refl s).same rfl rfl rfl
  exact hs.respond.mboxDone

theorem execMboxLog_leads (s : State) : s.leads (execMboxLog s) :=
  leads_next.mpr ((State.keeps.refl s).onCommand (State.keeps.refl s).respond.mboxDone)

theorem execMboxAttest_leads (s : State) : s.leads (execMboxAttest s) := by
  refine leads_next.mpr ((State.keeps.refl s).onCommand ?_)
  have hs : s.keeps { s with freeSeq := s.freeSeq + 1 } := (State.keeps.refl s).same rfl rfl rfl
  exact hs.respond.mboxDone

theorem execMboxFwstage_leads (s : State) : s.leads (execMboxFwstage s) := by
  refine leads_next.mpr ((State.keeps.refl s).onCommand ?_)
  dsimp only
  split
  · exact State.keeps.refl s
  · exact State.keeps.refl s

theorem execMboxFwactivate_leads (s : State) : s.leads (execMboxFwactivate s) := by
  refine leads_next.mpr ((State.keeps.refl s).onCommand ?_)
  dsimp only
  split
  · exact State.keeps.refl s
  · split
    · exact State.keeps.refl s
    · exact State.keeps.refl s

theorem execMboxReset_leads (s : State) : s.leads (execMboxReset s) :=
  leads_next.mpr ((State.keeps.refl s).onCommand (State.keeps.refl s).resetPackage)

theorem execMboxTime_leads (s : State) : s.leads (execMboxTime s) :=
  leads_next.mpr ((State.keeps.refl s).onCommand (State.keeps.refl s).respond.mboxDone)

theorem execPowerGood_leads (s : State) : s.leads (execPowerGood s) := by
  refine leads_next.mpr ?_
  split
  · exact State.keeps.refl s
  · exact State.keeps.refl s

theorem execBringupStage_leads (what : BringUp) (s : State) : s.leads (execBringupStage what s) := by
  refine leads_next.mpr ?_
  have h := State.keeps.refl s
  split
  · split <;> exact h
  · exact h.joinCore
  · split <;> exact h
  · split <;> exact h
  · split <;> exact h

/-! Events of errors -/

theorem execPtTick_leads (s : State) : s.leads (execPtTick s) := by
  refine leads_next.mpr ?_
  split
  · exact State.keeps.refl s
  · exact State.keeps.refl s

theorem execErrorDetected_leads (cls unit : Nat) (what : Damage) (s : State) :
    s.leads (execErrorDetected cls unit what s) :=
  leads_next.mpr ((State.keeps.refl s).poisonAt.takeOut.foldl (fun _ _ hv => hv.freezeForError) _)

theorem execErrorTestDone_leads (cls unit : Nat) (e : TestEnd) (s : State) : s.leads (execErrorTestDone cls unit e s) := by
  refine leads_next.mpr ?_
  have h := State.keeps.refl s
  refine keeps_ite h ?_
  dsimp only
  refine State.keeps.post ?_
  split
  · exact State.keeps.putBack (by exact h)
  · exact State.keeps.retire (by exact h)

end Sys2Proof.Machine
end

section
/-! SUPPORT and proofs. Transfers lead on (R346–R352, R385–R389). -/

namespace Sys2Proof.Machine

/-- The state that the plan of a unit leaves. -/
@[reducible] def Move1.state : Move1 → State
  | .idle s _ => s
  | .wait s => s
  | .bad s _ => s
  | .read s _ _ => s
  | .write s _ _ => s

/-- What finds a row keeps, where what follows does. -/
def Finder.keeps (s : State) (f : Finder) : Prop :=
  ∀ v r go, s.keeps v → (∀ w a, s.keeps w → s.keeps (go w a).state) → s.keeps (f v r go).state

section
variable {s u : State} (h : s.keeps u)
include h

/-! Transfers -/

theorem State.keeps.startUnits {n units : Nat} : s.keeps (u.startUnits n units) := keeps_ite h.endOp h.modOp

theorem State.keeps.freeTiles {n : Nat} {o : Op} : s.keeps (u.freeTiles n o) := h.releaseTiles.modOp

theorem State.keeps.unitDone {n : Nat} {rest : List (Nat × Nat)} : s.keeps (u.unitDone n rest) := by
  unfold State.unitDone
  refine keeps_ite h.endOp ?_
  dsimp only
  split
  · exact keeps_ite h.modOp.freeTiles h.modOp
  · exact h.modOp

omit h in
theorem State.keeps.runMove {p : Move1} (h : s.keeps p.state) {n m : Nat} {o : Op} {fin : State → State}
    (hf : ∀ v, s.keeps v → s.keeps (fin v)) : s.keeps (p.run n m o fin) := by
  cases p with
  | idle v row => exact hf _ (State.keeps.modOp h)
  | wait v => exact h
  | bad v c => exact State.keeps.endOp h
  | read v row q => exact (State.keeps.spanRead h).ioThen fun _ _ hv => hf _ hv.modOp
  | write v q bs => exact (State.keeps.spanWrite h).ioThen fun _ _ hv => hf _ hv

theorem State.keeps.transferStep {n m oper : Nat} {units : Op → Except Nat Nat} {plan : State → Op → Nat → Move1}
    (hp : ∀ v o k, s.keeps v → s.keeps (plan v o k).state) : s.keeps (u.transferStep n m oper units plan) := by
  unfold State.transferStep
  split
  · exact h
  · refine keeps_ite h ?_
    split
    · refine keeps_ite ?_ h
      split
      · exact h.startUnits
      · exact h.endOp
    · split
      · exact h
      · exact State.keeps.runMove (hp _ _ _ h) fun _ hv => hv.unitDone
    · exact h

theorem State.keeps.movePlan {l : Layout} {src dst : Finder} (hs : src.keeps s) (hd : dst.keeps s) {o : Op} {k : Nat} :
    s.keeps (movePlan l src dst u o k).state := by
  unfold Machine.movePlan
  dsimp only
  split
  · refine hs _ _ _ h fun v a hv => ?_
    split
    · exact hv
    · exact hv
  · split
    · refine hd _ _ _ h fun v a hv => ?_
      split
      · exact hv
      · exact hv
    · refine hd _ _ _ h fun v a hv => ?_
      split
      · exact hv
      · exact hv
      · split
        · exact hv
        · exact hv

theorem State.keeps.runAt {o : Op} {va : Word} {acc n : Nat} {whole : Bool} {go : State → Run → Move1}
    (hg : ∀ v a, s.keeps v → s.keeps (go v a).state) : s.keeps (u.runAt o va acc n whole go).state := by
  unfold State.runAt
  split
  · next v hv => exact h.opXlate_wait hv
  · next v c hv => exact h.opXlate_bad hv
  · next v x hv =>
    have hk := h.opXlate_ok hv
    split
    · exact hk
    · split
      · dsimp only
        split
        · exact hk
        · exact hg _ _ hk
      · exact hg _ _ hk

theorem State.keeps.copyPlan {o : Op} {k : Nat} : s.keeps (copyPlan u o k).state := by
  unfold Machine.copyPlan
  dsimp only
  split
  · exact h.movePlan (fun _ _ _ hv hg => hv.runAt hg) (fun _ _ _ hv hg => hv.runAt hg)
  · exact h.movePlan (fun _ _ _ hv hg => hg _ _ hv) (fun _ _ _ hv hg => hg _ _ hv)

theorem State.keeps.fillPlan {o : Op} {k : Nat} : s.keeps (fillPlan u o k).state := by
  unfold Machine.fillPlan
  split
  · exact h
  · exact h

theorem State.keeps.convPitch {o : Op} {cols acc : Nat} {go : State → Nat → Move1}
    (hg : ∀ v p, s.keeps v → s.keeps (go v p).state) : s.keeps (u.convPitch o cols acc go).state := by
  unfold State.convPitch
  split
  · exact hg _ _ h
  · split
    · next v hv => exact h.opXlate_wait hv
    · next v c hv => exact h.opXlate_bad hv
    · next v x hv => exact hg _ _ (h.opXlate_ok hv)

omit h in
theorem copy2Rows_keeps (s : State) (o : Op) : (copy2Rows o).keeps s := by
  intro v r go hv hg
  unfold copy2Rows
  dsimp only
  split
  · exact hv.convPitch fun _ _ hw => hw.runAt hg
  · exact hg _ _ hv

omit h in
theorem tileRows_keeps (s : State) (o : Op) (raw : Bool) : (tileRows o raw).keeps s := fun _ _ _ hv hg => hg _ _ hv

omit h in
theorem indexRows_keeps (s : State) (o : Op) : (indexRows o).keeps s := by
  intro v r go hv hg
  unfold indexRows
  dsimp only
  split
  · exact hv
  · exact hg _ _ hv

theorem State.keeps.copy2Plan {o : Op} {k : Nat} : s.keeps (copy2Plan u o k).state := by
  unfold Machine.copy2Plan
  dsimp only
  split
  · exact h.movePlan (copy2Rows_keeps s o) (tileRows_keeps s o _)
  · exact h.movePlan (tileRows_keeps s o _) (copy2Rows_keeps s o)

theorem State.keeps.readIndices {n k : Nat} {o : Op} {rest : List (Nat × Nat)} : s.keeps (u.readIndices n k o rest) := by
  unfold State.readIndices
  split
  · exact h.unitDone
  · exact State.keeps.ioThen h.opRead1 fun _ _ hv => hv.modOp.unitDone

theorem State.keeps.indexPlan {o : Op} {k : Nat} : s.keeps (indexPlan u o k).state := by
  unfold Machine.indexPlan
  split
  · exact h.movePlan (indexRows_keeps s o) (tileRows_keeps s o _)
  · exact h.movePlan (tileRows_keeps s o _) (indexRows_keeps s o)

theorem State.keeps.indexed {n k oper : Nat} : s.keeps (u.indexed n k oper) := by
  unfold State.indexed
  split
  · exact h
  · split
    · split
      · exact h
      · exact h.readIndices
    · exact h.transferStep fun _ _ _ hv => hv.indexPlan

/-! `PUT` and `GET` -/

theorem State.keeps.setChan {p : Nat} {c : Chan} : s.keeps (u.setChan p c) := h

theorem State.keeps.sendOut {p op : Nat} {seqd : Bool} {ws : List Word} : s.keeps (u.sendOut p op seqd ws) := by
  unfold State.sendOut
  dsimp only
  split
  · exact h
  · exact h

theorem State.keeps.endRemote {n id code rcode : Nat} {r : Option Word} : s.keeps (u.endRemote n id code rcode r) :=
  State.keeps.endOp (by exact h)

theorem State.keeps.nextFree : s.keeps u.nextFree := h

theorem State.keeps.putUnit {n k p : Nat} {o : Op} {rest : List (Nat × Nat)} : s.keeps (u.putUnit n k o p rest) := by
  unfold State.putUnit
  dsimp only
  split
  · exact h.modOp
  · exact State.keeps.ioThen h.opRead1 fun _ _ hv => hv.sendOut.modOp

theorem State.keeps.getUnit {n k : Nat} {o : Op} {rest : List (Nat × Nat)} : s.keeps (u.getUnit n k o rest) := by
  have hg : ∀ v : State, s.keeps v → s.keeps (if rest.isEmpty then v.nextFree.endRemote n o.id 0 0 none
      else v.nextFree.modOp n fun o => { o with left := rest }) :=
    fun v hv => keeps_ite hv.nextFree.endRemote hv.nextFree.modOp
  unfold State.getUnit
  dsimp only
  refine keeps_ite h.nextFree.endRemote ?_
  split
  · exact hg _ h
  · exact State.keeps.ioThen h.opWrite1 fun _ _ hv => hg _ hv

theorem State.keeps.putReply {n : Nat} {o : Op} : s.keeps (u.putReply n o) := by
  unfold State.putReply
  split
  · exact h
  · next r _ =>
    have hn : s.keeps ({ u with outReqs := u.outReqs.erase r } : State).nextFree := h
    exact keeps_ite hn.endRemote hn

theorem State.keeps.remoteTransfer {n k oper : Nat} : s.keeps (u.remoteTransfer n k oper) := by
  unfold State.remoteTransfer
  split
  · exact h
  · dsimp only
    refine keeps_ite h ?_
    split
    · exact keeps_ite h (keeps_ite h.endOp (keeps_ite h.sendOut h).startUnits)
    · split
      · exact keeps_ite h.getUnit (keeps_ite h h.putUnit)
      · exact h.putReply
    · exact h

theorem State.keeps.putGet {n k oper : Nat} : s.keeps (u.putGet n k oper) := by
  unfold State.putGet
  split
  · exact h
  · exact keeps_ite (h.transferStep fun _ _ _ hv => hv.copyPlan) h.remoteTransfer

end

/-! Events of transfers -/

theorem execCopyOp_leads (n k : Nat) (s : State) : s.leads (execCopyOp n k s) :=
  leads_next.mpr ((State.keeps.refl s).transferStep fun _ _ _ hv => hv.copyPlan)

theorem execCfillOp_leads (n k : Nat) (s : State) : s.leads (execCfillOp n k s) :=
  leads_next.mpr ((State.keeps.refl s).transferStep fun _ _ _ hv => hv.fillPlan)

theorem execCopy2Op_leads (n k : Nat) (s : State) : s.leads (execCopy2Op n k s) :=
  leads_next.mpr ((State.keeps.refl s).transferStep fun _ _ _ hv => hv.copy2Plan)

theorem execGathOp_leads (n k : Nat) (s : State) : s.leads (execGathOp n k s) :=
  leads_next.mpr (State.keeps.refl s).indexed

theorem execScatOp_leads (n k : Nat) (s : State) : s.leads (execScatOp n k s) :=
  leads_next.mpr (State.keeps.refl s).indexed

theorem execGetOp_leads (n k : Nat) (s : State) : s.leads (execGetOp n k s) :=
  leads_next.mpr (State.keeps.refl s).putGet

end Sys2Proof.Machine
end

section
/-! SUPPORT and proofs. Matrix operations, the far port and the Rote engine lead on. -/

namespace Sys2Proof.Machine

/-! Matrix operations -/

section
variable {s u : State} (h : s.keeps u)
include h

theorem State.keeps.setUnit {core : Nat} {m : Mx} : s.keeps (u.setUnit core m) := h

theorem State.keeps.noteStat {n core : Nat} : s.keeps (u.noteStat n core) := h

theorem State.keeps.rowDone {n core r rows : Nat} : s.keeps (State.rowDone n core r rows u) :=
  keeps_ite h.modOp h.noteStat.endOp

theorem State.keeps.matrixStep {n oper : Nat} {rows : State → Op → Nat} {act : State → Op → Nat → (State → State) → State}
    (ha : ∀ v o r fin, s.keeps v → (∀ w, s.keeps w → s.keeps (fin w)) → s.keeps (act v o r fin)) :
    s.keeps (u.matrixStep n oper rows act) := by
  unfold State.matrixStep
  split
  · exact h
  · dsimp only
    refine keeps_ite h ?_
    split
    · exact ha _ _ _ _ h.noteStat fun _ hw => hw.rowDone
    · split
      · exact h.noteStat.endOp
      · exact h.noteStat.modOp

theorem State.keeps.unitOp {n oper : Nat} {f : Op → Mx → Mx} : s.keeps (u.unitOp n oper f) :=
  h.matrixStep fun _ _ _ _ hv hf => hf _ hv.setUnit

theorem State.keeps.passAct {n r : Nat} {o : Op} {fin : State → State} (hf : ∀ w, s.keeps w → s.keeps (fin w)) :
    s.keeps (passAct n u o r fin) := h.pull fun _ => hf _ h.setUnit

theorem State.keeps.readoutAct {n r : Nat} {o : Op} {fin : State → State} (hf : ∀ w, s.keeps w → s.keeps (fin w)) :
    s.keeps (readoutAct n u o r fin) := h.pull fun _ => h.push hf

theorem State.keeps.releaseRead {n : Nat} : s.keeps (State.releaseRead n u) := by
  unfold State.releaseRead
  split
  · exact h.releaseTiles.modOp
  · exact h

end

theorem execLdwOp_leads (n : Nat) (s : State) : s.leads (execLdwOp n s) :=
  leads_next.mpr ((State.keeps.refl s).matrixStep fun _ _ _ _ hv hf => hv.pull fun _ => hf _ hv.setUnit)

theorem execSwapwOp_leads (n : Nat) (s : State) : s.leads (execSwapwOp n s) := leads_next.mpr (State.keeps.refl s).unitOp

theorem execMmaOp_leads (n : Nat) (s : State) : s.leads (execMmaOp n s) :=
  leads_next.mpr ((State.keeps.refl s).matrixStep fun _ _ _ _ hv hf => hv.passAct hf)

theorem execAccrdOp_leads (n : Nat) (s : State) : s.leads (execAccrdOp n s) :=
  leads_next.mpr ((State.keeps.refl s).matrixStep fun _ _ _ _ hv hf => hv.readoutAct hf)

theorem execAcczOp_leads (n : Nat) (s : State) : s.leads (execAcczOp n s) := leads_next.mpr (State.keeps.refl s).unitOp

theorem execMmawOp_leads (n : Nat) (s : State) : s.leads (execMmawOp n s) := by
  refine leads_next.mpr ((State.keeps.refl s).matrixStep fun v o r fin hv hf => ?_)
  dsimp only
  split
  · exact hv.passAct fun w hw => hf _ (keeps_ite hw.releaseRead hw)
  · exact hv.readoutAct hf

/-! Remote operations -/

/-- The state that applying an operation leaves. -/
@[reducible] def Applying.state : Applying → State
  | .wait s => s
  | .ok s _ => s
  | .err s _ _ => s

/-- Who asks keeps. -/
def Asker.keeps (s : State) (k : Asker) : Prop := ∀ v va acc, s.keeps v → s.keeps (k.walk v va acc).state

theorem keeps_gotOk {s v : State} {g : OpGot} {x : Xlat} (h : s.keeps g.state) (hg : g = .ok v x) : s.keeps v := by
  subst hg; exact h

theorem keeps_gotWait {s v : State} {g : OpGot} (h : s.keeps g.state) (hg : g = .wait v) : s.keeps v := by
  subst hg; exact h

theorem keeps_gotBad {s v : State} {g : OpGot} {c : Nat} (h : s.keeps g.state) (hg : g = .bad v c) : s.keeps v := by
  subst hg; exact h

theorem keeps_applyWait {s v : State} {a : Applying} (h : s.keeps a.state) (ha : a = .wait v) : s.keeps v := by
  subst ha; exact h

theorem keeps_applyOk {s v : State} {a : Applying} {w : Word} (h : s.keeps a.state) (ha : a = .ok v w) : s.keeps v := by
  subst ha; exact h

theorem keeps_applyErr {s v : State} {a : Applying} {c r : Nat} (h : s.keeps a.state) (ha : a = .err v c r) : s.keeps v := by
  subst ha; exact h

theorem keeps_applyIte {s : State} {p : Prop} [Decidable p] {a b : Applying} (ha : s.keeps a.state) (hb : s.keeps b.state) :
    s.keeps (if p then a else b).state := by
  split
  · exact ha
  · exact hb

section
variable {s u : State} (h : s.keeps u)
include h

theorem State.keeps.remoteXlate {va : Word} {acc : Nat} : s.keeps (u.remoteXlate va acc).state := by
  unfold State.remoteXlate
  split
  · exact h
  · exact h
  · exact h
  · split
    · exact h
    · exact h.requestWalk

theorem State.keeps.applyUpd {k : Asker} (hk : k.keeps s) {key value : Word} {t : Ty} :
    s.keeps (u.applyUpd k key value t).state := by
  have hw := hk u key 2 h
  unfold State.applyUpd
  split
  · next v hv => exact keeps_gotWait hw hv
  · next v c hv => exact keeps_gotBad hw hv
  · next v x hv =>
    have hv := keeps_gotOk hw hv
    split
    · split
      · exact hv
      · exact hv
    · exact hv
    · dsimp only
      split
      · exact hv
      · split
        · exact hv.beginStall
        · next w hw => exact (hv.binUpdate hw).storeTs

theorem State.keeps.applyEnq {n : Nat} {d : List Word} : s.keeps (u.applyEnq n d).state := by
  have ha := h.appendPlain (p := none) (n := n) (d := d)
  unfold State.applyEnq
  split
  · exact h
  · next v j hv =>
    rw [hv] at ha
    exact ha
  · exact ha

theorem State.keeps.applyAdd {k : Asker} (hk : k.keeps s) {va inc : Word} : s.keeps (u.applyAdd k va inc).state := by
  have hw := hk u (counterAt va) 3 h
  unfold State.applyAdd
  split
  · next v hv => exact keeps_gotWait hw hv
  · next v c hv => exact keeps_gotBad hw hv
  · next v x hv =>
    have hv := keeps_gotOk hw hv
    split
    · exact hv
    · exact hv.counterAdd

theorem State.keeps.applyAtom {k : Asker} (hk : k.keeps s) {va b c : Word} {t : Ty} {op : Aop} {e : Env} :
    s.keeps (u.applyAtom k va b c t op e).state := by
  have hw := fun va => hk u va 3 h
  unfold State.applyAtom
  dsimp only
  split
  · next v hv => exact keeps_gotWait (hw _) hv
  · next v c hv => exact keeps_gotBad (hw _) hv
  · next v x hv =>
    have hv := keeps_gotOk (hw _) hv
    exact keeps_applyIte hv (keeps_applyIte hv.loadVia (keeps_ite hv.loadVia hv.loadVia.storeVia))

theorem State.keeps.applyPut {k : Asker} (hk : k.keeps s) {l : List (Nat × List Byte)} {write : State → State}
    (hw : ∀ v, s.keeps v → s.keeps (write v)) : s.keeps (State.applyPut k l u write).state := by
  induction l generalizing u write with
  | nil => exact hw _ h
  | cons p l ih =>
    have hp := hk u (BitVec.ofNat 64 p.1) 2 h
    unfold State.applyPut
    split
    · next v hv => exact keeps_gotWait hp hv
    · next v c hv => exact keeps_gotBad hp hv
    · next v x hv =>
      have hv := keeps_gotOk hp hv
      split
      · exact hv
      · exact ih hv fun _ hy => (hw _ hy).storeVia

theorem State.keeps.applyOwn {o : Op} {oper : Nat} {desc : List Byte} : s.keeps (u.applyOwn o oper desc).state := by
  have hk : Asker.keeps s ⟨fun s va acc => s.opXlate o va acc, o.party⟩ := fun _ _ _ hv => hv.opXlate ..
  unfold State.applyOwn
  dsimp only
  split
  · exact h.applyUpd hk
  · split
    · split
      · next v w hv => exact keeps_applyOk h.applyEnq hv
      · exact h.applyEnq
    · split
      · exact h.applyAdd hk
      · exact h.applyAtom hk

theorem State.keeps.withDesc {n oper : Nat} {o : Op} {go : List Byte → State} (hg : ∀ bs, s.keeps (go bs)) :
    s.keeps (u.withDesc n o oper go) := keeps_ite (h.pullMem hg) (hg _)

theorem State.keeps.endValue {n oper : Nat} {w : Word} : s.keeps (u.endValue n oper w) := by
  unfold State.endValue
  split
  · exact h
  · exact keeps_ite h.endRemote (keeps_ite h.endRemote (State.keeps.ioThen h.modOp.opWrite1 fun _ _ hv => hv.endRemote))

theorem State.keeps.remoteOut {n oper : Nat} {o : Op} : s.keeps (u.remoteOut n o oper) := by
  unfold State.remoteOut
  dsimp only
  split
  · exact h
  · exact keeps_ite h (keeps_ite h.endOp (keeps_ite h (h.withDesc fun _ => h.sendOut.modOp)))
  · have hn : s.keeps ({ u with outReqs := u.outReqs.filter fun r => r.op != o.id } : State).nextFree := h
    exact keeps_ite hn.endValue hn.endRemote

theorem State.keeps.remoteOwn {n oper : Nat} : s.keeps (u.remoteOwn n oper) := by
  unfold State.remoteOwn
  split
  · exact h
  · refine keeps_ite h ?_
    split
    · exact h.endValue
    · refine keeps_ite h.remoteOut (keeps_ite h (h.withDesc fun bs => ?_))
      split
      · next v hv => exact (keeps_applyWait h.applyOwn hv).modOp
      · next v c r hv => exact (keeps_applyErr h.applyOwn hv).endOp
      · next v w hv => exact (keeps_applyOk h.applyOwn hv).endValue

omit h in
theorem inAsker_keeps (s : State) : inAsker.keeps s := fun _ _ _ hv => hv.remoteXlate

theorem State.keeps.applyIn {r : InReq} : s.keeps (u.applyIn r).state := by
  have hk := inAsker_keeps s
  cases r with
  | upd key value ty => exact h.applyUpd hk
  | enq desc handle =>
    unfold State.applyIn
    dsimp only
    split
    · next v w hv => exact keeps_applyOk h.applyEnq hv
    · exact h.applyEnq
  | add addr inc => exact h.applyAdd hk
  | atom addr b c ty aop fpc => exact h.applyAtom hk
  | put addr bs => exact h.applyPut hk fun _ hv => hv

theorem State.keeps.replied {src sq : Nat} {w : Word} : s.keeps (u.replied src sq w) := h.setChan

theorem State.keeps.acceptIn {src f : Nat} : s.keeps (State.acceptIn src f u) := by
  induction f generalizing u with
  | zero => exact h
  | succ f ih =>
    unfold State.acceptIn
    dsimp only
    split
    · exact h
    · split
      · next v hv => exact keeps_applyWait h.applyIn hv
      · next v w hv => exact ih (keeps_applyOk h.applyIn hv).replied
      · next v c r hv => exact ih (keeps_applyErr h.applyIn hv).replied

theorem State.keeps.inbound {src sq : Nat} {r : InReq} : s.keeps (u.inbound src sq r) :=
  keeps_ite h (keeps_ite h h.setChan).acceptIn

end

theorem execRupd_leads (src sq : Nat) (key value : Word) (ty : Ty) (s : State) : s.leads (execRupd src sq key value ty s) :=
  leads_next.mpr (keeps_ite (State.keeps.refl s).remoteOwn (State.keeps.refl s).inbound)

theorem execRenq_leads (src sq : Nat) (desc : List Word) (handle : Word) (s : State) :
    s.leads (execRenq src sq desc handle s) :=
  leads_next.mpr (keeps_ite (State.keeps.refl s).remoteOwn (State.keeps.refl s).inbound)

theorem execRadd_leads (src sq : Nat) (addr inc : Word) (s : State) : s.leads (execRadd src sq addr inc s) :=
  leads_next.mpr (keeps_ite (State.keeps.refl s).remoteOwn (State.keeps.refl s).inbound)

theorem execRatom_leads (src sq : Nat) (addr b c : Word) (ty : Ty) (aop : FarAtom) (s : State) :
    s.leads (execRatom src sq addr b c ty aop s) :=
  leads_next.mpr (keeps_ite (State.keeps.refl s).remoteOwn (State.keeps.refl s).inbound)

theorem execPutOp_leads (p : PutFrom) (k : Nat) (s : State) : s.leads (execPutOp p k s) := by
  refine leads_next.mpr ?_
  have h := State.keeps.refl s
  split
  · exact h.putGet
  · exact keeps_ite h h.inbound

theorem execRemoteRetransmit_leads (pkg sq : Nat) (s : State) : s.leads (execRemoteRetransmit pkg sq s) :=
  leads_next.mpr ((State.keeps.refl s).same rfl rfl rfl)

theorem execRemoteUnreachable_leads (n : Nat) (s : State) : s.leads (execRemoteUnreachable n s) := by
  refine leads_next.mpr ?_
  have h := State.keeps.refl s
  split
  · exact h
  · exact keeps_ite h.endRemote h

/-! The Rote engine -/

section
variable {s u : State} (h : s.keeps u)
include h

theorem State.keeps.setCtx {c : Nat} {r : Option Rote} : s.keeps (u.setCtx c r) := h

theorem State.keeps.refuseOp {n code : Nat} : s.keeps (u.refuseOp n code) := h.endOp

theorem State.keeps.onCtx {n oper : Nat} {go : Op → Rote → State → State} (hg : ∀ o r, s.keeps (go o r u)) :
    s.keeps (u.onCtx n oper go) := by
  unfold State.onCtx
  split
  · exact h
  · split
    · exact h.refuseOp
    · exact hg _ _

theorem State.keeps.loadTokens {n : Nat} {o : Op} {r : Rote} : s.keeps (u.loadTokens n o r) :=
  h.pullMem fun _ => h.setCtx.endOp

end

theorem execOpenContext_leads (n : Nat) (s : State) : s.leads (execOpenContext n s) := by
  refine leads_next.mpr ?_
  have h := State.keeps.refl s
  split
  · exact h
  · exact keeps_ite h.refuseOp (keeps_ite h.refuseOp (keeps_ite h.refuseOp h.setCtx.endOp))

theorem execAppendTokens_leads (n : Nat) (s : State) : s.leads (execAppendTokens n s) := by
  have h := State.keeps.refl s
  exact leads_next.mpr (h.onCtx fun _ _ =>
    keeps_ite h.refuseOp (keeps_ite h.endOp (h.pullMem fun _ => h.setCtx.endOp)))

theorem execProposeDraft_leads (n : Nat) (s : State) : s.leads (execProposeDraft n s) := by
  have h := State.keeps.refl s
  exact leads_next.mpr (h.onCtx fun _ _ =>
    keeps_ite h.refuseOp (keeps_ite h.endOp (h.setCtx.pushMem fun _ hv => hv.endOp)))

theorem execStatRecord_leads (n : Nat) (s : State) : s.leads (execStatRecord n s) := by
  have h := State.keeps.refl s
  exact leads_next.mpr (h.onCtx fun _ _ => keeps_ite h.endOp (h.pushMem fun _ hv => hv.endOp))

theorem execSaveImage_leads (n : Nat) (s : State) : s.leads (execSaveImage n s) := by
  have h := State.keeps.refl s
  exact leads_next.mpr (h.onCtx fun _ _ => keeps_ite h.endOp (h.pushMem fun _ hv => hv.endOp))

theorem execLoadImage_leads (n : Nat) (s : State) : s.leads (execLoadImage n s) := by
  refine leads_next.mpr ?_
  have h := State.keeps.refl s
  split
  · exact h
  · refine keeps_ite ?_ (keeps_ite h.refuseOp (h.pullMem fun bs => ?_))
    · split
      · split
        · exact h.loadTokens
        · exact h
      · exact h
    · split
      · exact h.refuseOp
      · exact keeps_ite h.refuseOp (keeps_ite h.endOp h.modOp.loadTokens)

theorem execCloseContext_leads (n : Nat) (s : State) : s.leads (execCloseContext n s) :=
  leads_next.mpr ((State.keeps.refl s).onCtx fun _ _ => (State.keeps.refl s).setCtx.endOp)

end Sys2Proof.Machine
end

section
/-! SUPPORT and proofs. Images read back (R230, R425). -/

namespace Sys2Proof.Machine

/-! Images read back -/

/-- Steps that may give nothing, one after another. -/
theorem keeps_foldlBind {α : Type} {s : State} {f : State → α → Option State}
    (hf : ∀ v a w, s.keeps v → f v a = some w → s.keeps w) (l : List α) {o : Option State} (ho : ∀ v, o = some v → s.keeps v)
    {w : State} (hw : l.foldl (fun (o : Option State) a => o.bind fun v => f v a) o = some w) : s.keeps w := by
  induction l generalizing o with
  | nil => exact ho _ hw
  | cons a l ih =>
    refine ih (fun v hv => ?_) hw
    obtain ⟨x, hx, hv⟩ := Option.bind_eq_some_iff.mp hv
    exact hf _ _ _ (ho _ hx) hv

section
variable {s u : State} (h : s.keeps u)
include h

theorem State.keeps.restoreSreg {st : SRef} {r : Nat} {w : Word} : s.keeps (u.restoreSreg st r w) := by
  unfold State.restoreSreg
  split
  · exact h.writeSreg
  · exact h.writeSreg
  · exact h.writeSreg
  · exact h.modSlice
  · exact h.modStrand
  · exact h

theorem State.keeps.restoreBars {id f : Nat} {t : Strand} {x : Slice} {ws : List Word} {v : State}
    (hv : u.restoreBars id t x f ws = some v) : s.keeps v := by
  unfold State.restoreBars at hv
  dsimp only at hv
  split at hv
  · cases hv
    exact (h.foldl (fun _ _ hv => keeps_ite hv hv.setBar) _).foldl (fun _ _ hv => hv.setBar) _
  · cases hv

theorem State.keeps.restoreItem {st : SRef} {t : Strand} {fields : List (List Nat)} {old new : Nat × List Word} {v : State}
    (hv : u.restoreItem st t fields old new = some v) : s.keeps v := by
  unfold State.restoreItem at hv
  dsimp only at hv
  split at hv
  · split at hv
    · cases hv; exact h
    · obtain ⟨x, -, hv⟩ := Option.bind_eq_some_iff.mp hv
      exact h.restoreBars hv
  · split at hv
    · cases hv
    · split at hv
      · cases hv; exact h.modStrand
      · split at hv
        · cases hv; exact h
        · cases hv
  · split at hv
    · cases hv
    · split at hv
      · cases hv; exact h
      · split at hv
        · cases hv; exact h.modStrand
        · cases hv; exact h.foldl (fun _ _ hv => hv.restoreSreg) _
        · cases hv; exact h.modInst
        · cases hv; exact h.foldl (fun _ _ hv => hv.setTile) _
        · cases hv; exact h.modStrand
        · cases hv; exact h.modInst
        · cases hv

/-- Cells written over a cleared range of local space. -/
theorem State.keeps.setLoc {lo : Nat} {f : Host.Cell → Nat} {cells : List Host.Cell} {full : Table Bool} :
    s.keeps { u with loc := cells.foldl (fun m c => wrByte m (f c) c.2) (Table.clear u.loc lo (lo + 262144)), full := full } :=
  keeps_of_memOk h rfl fun ⟨hm, hl⟩ => ⟨hm, foldl_wrByte_wf (clear_wf hl _ _) f cells⟩

theorem State.keeps.restoreBank {core b : Nat} {seg : List Host.Cell} {v : State}
    (hv : u.restoreBank core b seg = some v) : s.keeps v := by
  unfold State.restoreBank at hv
  dsimp only at hv
  split at hv
  · cases hv
    exact h.setLoc (f := fun c => localKey core b 0 + c.1)
  · split at hv
    · cases hv
    · cases hv; exact h.setBank
  · cases hv; exact h

theorem State.keeps.restoreStation {st : SRef} {n : Nat} {old new : List Nat} {v : State}
    (hv : u.restoreStation st n old new = some v) : s.keeps v := by
  unfold State.restoreStation at hv
  split at hv
  · cases hv; exact h
  · obtain ⟨t, -, hv⟩ := Option.bind_eq_some_iff.mp hv
    split at hv
    · obtain ⟨nd, -, hv⟩ := Option.bind_eq_some_iff.mp hv
      obtain ⟨m, -, rfl⟩ := Option.map_eq_some_iff.mp hv
      exact keeps_ite h.modNode.modStrand h.modNode
    · split at hv
      · cases hv; exact h.modInst
      · cases hv

theorem State.keeps.restoreStream {st : SRef} {pages : Nat} {old new : List Nat} {v : State}
    (hv : u.restoreStream st pages old new = some v) : s.keeps v := by
  unfold State.restoreStream at hv
  dsimp only at hv
  split at hv
  · cases hv; exact h
  · split at hv
    · cases hv
    · refine keeps_foldlBind (fun w e x hw hx => ?_) _ (fun w hw => ?_) hv
      · obtain ⟨t, -, hx⟩ := Option.bind_eq_some_iff.mp hx
        exact hw.restoreItem hx
      · obtain ⟨x, hx, rfl⟩ := Option.map_eq_some_iff.mp hw
        refine State.keeps.modInst (keeps_foldlBind (fun w e x hw hx => hw.restoreStation hx) _ (fun w hw => ?_) hx)
        cases hw; exact h

theorem State.keeps.restoreStrand {x : Slice} {t : Strand} {o : Nat} {old new : List Host.Cell} {v : State}
    (hv : u.restoreStrand x t o old new = some v) : s.keeps v := by
  unfold State.restoreStrand at hv
  dsimp only at hv
  split at hv
  · cases hv
  · split at hv
    · cases hv; exact h
    · obtain ⟨w, hw, rfl⟩ := Option.map_eq_some_iff.mp hv
      obtain ⟨y, hy, hw⟩ := Option.bind_eq_some_iff.mp hw
      have hk : s.keeps w := by
        refine keeps_foldlBind (fun w k x hw hx => ?_) _ (fun w hw => ?_) hw
        · split at hx
          · cases hx; exact hw
          · exact hw.restoreBank hx
        · cases hw; exact h.restoreStream hy
      exact keeps_ite hk hk

theorem State.keeps.restoreImage {x : Slice} {p : Picture} {cells : List Host.Cell} {v : State}
    (hv : u.restoreImage x p cells = some v) : s.keeps v := by
  unfold State.restoreImage at hv
  dsimp only at hv
  split at hv
  · cases hv
  · refine keeps_foldlBind (fun w e y hw hy => hw.restoreStrand hy) _ (fun w hw => ?_) hv
    cases hw
    exact keeps_ite h h.modSlice

theorem State.keeps.restoreReplies {x : Slice} {p : Picture} : s.keeps (u.restoreReplies x p) := h

theorem State.keeps.readImage {x : Slice} : s.keeps (u.readImage x) := by
  unfold State.readImage
  split
  · exact h
  · split
    · exact h
    · refine State.keeps.applyHeaders (State.keeps.restoreReplies ?_)
      next p _ _ cells _ =>
        cases hr : u.restoreImage x p cells with
        | none => exact h
        | some v => exact h.restoreImage hr

theorem State.keeps.placeImage {id : Nat} {mv : Move} : s.keeps (u.placeImage id mv) := by
  unfold State.placeImage
  split
  · exact h
  · exact h.readImage.moveCores.modSlice

end

end Sys2Proof.Machine
end

section
/-! SUPPORT and proofs. The timetable and the sort yard's operations lead on (R227–R235, R296–R307, R392). -/

namespace Sys2Proof.Machine

/-! The timetable (R227–R235) -/

section
variable {s u : State} (h : s.keeps u)
include h

theorem State.keeps.startHead {q : Nat} {n : Snap} {cores : List Nat} : s.keeps (u.startHead q n cores) := by
  unfold State.startHead
  split
  · exact h
  · refine State.keeps.consume1 ?_
    have hc : s.keeps (u.clearCores cores) := h.clearCores
    exact hc.same rfl rfl rfl

theorem State.keeps.relocate {id : Nat} {mv : Move} : s.keeps (u.relocate id mv) := h.moveCores

theorem State.keeps.moveOut {scope k n : Nat} {mx : Bool} {l : List Slice} {plan : State} :
    s.keeps (State.moveOut scope k n mx l u plan) := by
  induction l generalizing u plan with
  | nil => exact h
  | cons x l ih =>
    unfold State.moveOut
    refine keeps_ite h ?_
    split
    · exact ih h
    · exact ih (keeps_ite h.relocate h.beginWave)

theorem State.keeps.thin {d : List Word} : s.keeps (u.thin d) := keeps_ite h h.moveOut

theorem State.keeps.finishMove {x : Slice} : s.keeps (u.finishMove x) := by
  have hm : s.keeps (u.modSlice x.id fun y => { y with moving := false }) := h.modSlice
  unfold State.finishMove
  dsimp only
  split
  · exact keeps_ite hm.markThaw hm
  · refine keeps_ite hm.relocate ?_
    split
    · exact hm.relocate.markThaw
    · next v hv =>
      have hw : s.keeps v := hm.writeOut hv
      split
      · exact hw
      · split
        · exact hw.placeImage
        · exact hw

theorem State.keeps.makeRoom {c : Cand} : s.keeps (u.makeRoom c) := by
  unfold State.makeRoom
  split
  · exact State.keeps.foldl h (fun _ _ hv => hv.beginWave) _
  · exact h.thin

theorem State.keeps.enter {c : Cand} {mv : Move} : s.keeps (u.enter c mv) := by
  unfold State.enter
  split
  · exact h.placeImage
  · exact h.startHead

theorem State.keeps.pass : s.keeps u.pass := by
  unfold State.pass
  split
  · exact h
  · split
    · exact h.refuse
    · split
      · exact h.enter
      · exact h.makeRoom

theorem State.keeps.appendFor {n : Nat} {o : Op} {d : List Word} : s.keeps (u.appendFor n o d) := by
  have ha := h.appendPlain (p := none) (n := (o.words.getD 2 0).field 31 0) (d := d)
  unfold State.appendFor
  split
  · exact h
  · next v j hv => rw [hv] at ha; exact ha.endOp
  · exact ha.endOp

end

theorem execDispatchPass_leads (s : State) : s.leads (execDispatchPass s) := by
  refine leads_next.mpr ?_
  have h := State.keeps.refl s
  split
  · exact h.finishMove
  · split
    · exact h.writeOut_getD h
    · refine keeps_ite h (State.keeps.pass ?_)
      exact h.same rfl rfl rfl

theorem execBudget_leads (sl : Nat) (s : State) : s.leads (execBudget sl s) := by
  refine leads_next.mpr ?_
  have h := State.keeps.refl s
  split
  · exact keeps_ite h.takeTrap h
  · exact h

theorem execSliceEnd_leads (sl : Nat) (s : State) : s.leads (execSliceEnd sl s) := by
  refine leads_next.mpr ?_
  have h := State.keeps.refl s
  split
  · exact h
  · refine keeps_ite h (State.keeps.releaseWhere ?_)
    split
    · exact h.clearCores.freeBarriers.removeSlice.beginAppend
    · exact h.clearCores.freeBarriers.removeSlice.addThen

theorem execAppendOp_leads (n : Nat) (s : State) : s.leads (execAppendOp n s) := by
  refine leads_next.mpr ?_
  have h := State.keeps.refl s
  split
  · exact h
  · exact keeps_ite h (h.pullMem fun _ => h.modOp.appendFor)

/-! The sort yard (R296, R297, R303, R305–R307) -/

section
variable {s u : State} (h : s.keeps u)
include h

theorem State.keeps.endWith {n : Nat} {o : Op} {addr w : Word} : s.keeps (u.endWith n o addr w) :=
  keeps_ite h.endOp (h.pushMem fun _ hv => hv.endOp)

theorem State.keeps.onOpen {n : Nat} {o : Op} {go : State → Region → State} (hg : ∀ r, s.keeps (go u r)) :
    s.keeps (u.onOpen n o go) :=
  keeps_ite h (keeps_ite h.endOp (hg _))

theorem State.keeps.applyNext {n : Nat} {o : Op} : s.keeps (u.applyNext n o) := by
  unfold State.applyNext
  split
  · exact h.endOp
  · exact keeps_ite h (keeps_ite h.endOp h.applyKey)

theorem State.keeps.discardBins {g va n : Nat} : s.keeps (u.discardBins g va n) := h.dropBins

theorem State.keeps.resetUnit {n k : Nat} {o : Op} {r : Region} {rest : List (Nat × Nat)} :
    s.keeps (u.resetUnit n o r k rest) := by
  unfold State.resetUnit
  dsimp only
  split
  · exact h.modOp
  · split
    · next hv => exact h.opXlate_wait hv
    · next hv => exact (h.opXlate_bad hv).endOp
    · next hv =>
      have hx := h.opXlate_ok hv
      exact keeps_ite hx (hx.discardBins.opWrite1.ioThen fun _ _ hw => hw.modOp)

end

theorem execDefineRegion_leads (n : Nat) (s : State) : s.leads (execDefineRegion n s) := by
  refine leads_next.mpr ?_
  have h := State.keeps.refl s
  split
  · exact h
  · refine keeps_ite h ?_
    split
    · exact h.endWith
    · refine h.pullMem fun bs => ?_
      dsimp only
      split
      · exact h.endOp
      · exact h.setRegion.modOp.endWith

theorem execApplyRegion_leads (n : Nat) (s : State) : s.leads (execApplyRegion n s) := by
  refine leads_next.mpr ?_
  have h := State.keeps.refl s
  split
  · exact h
  · exact keeps_ite (h.onOpen fun _ => h.modOp) h.applyNext

theorem execCloseRegion_leads (n : Nat) (s : State) : s.leads (execCloseRegion n s) := by
  refine leads_next.mpr ?_
  have h := State.keeps.refl s
  split
  · exact h
  · exact keeps_ite (h.onOpen fun _ => h.setRegion.settleRegion.modOp) h.applyNext

theorem execResetRegion_leads (n : Nat) (s : State) : s.leads (execResetRegion n s) := by
  refine leads_next.mpr ?_
  have h := State.keeps.refl s
  split
  · exact h
  · refine keeps_ite (h.onOpen fun _ => h.modOp) (keeps_ite h.setRegion.endOp ?_)
    split
    · exact h
    · split
      · exact h
      · exact h.resetUnit

theorem execStatRegion_leads (n : Nat) (s : State) : s.leads (execStatRegion n s) := by
  refine leads_next.mpr ?_
  have h := State.keeps.refl s
  split
  · exact h
  · exact keeps_ite h h.endWith

theorem execYardfull_leads (die : Nat) (s : State) : s.leads (execYardfull die s) := by
  refine leads_next.mpr (keeps_ite ?_ (State.keeps.refl s))
  refine State.keeps.post (u := { s with yardStall := _ }) ?_
  exact (State.keeps.refl s).same rfl rfl rfl

end Sys2Proof.Machine
end

section
/-! SUPPORT and proofs. System instructions lead on (R431–R449). -/

namespace Sys2Proof.Machine

/-! System instructions (R431–R449) -/

/-- The state that reading a stream leaves, where it goes on. -/
@[reducible] def Stream.state? : Stream → Option State
  | .ok s _ => some s
  | .wait s => some s
  | .trap _ _ => none

/-- The state that reading headers leaves, where it goes on. -/
@[reducible] def Headers.state? : Headers → Option State
  | .ok s _ => some s
  | .wait s => some s
  | .trap _ _ => none

section
variable {s u : State} (h : s.keeps u)
include h

theorem State.keeps.supEff {eff : SRef → Nat → Ready → State → Eff} {st : SRef} {i : Nat} {r : Ready}
    (he : s.keeps (eff st i r u).state) : s.keeps (supEff eff st i r u).state := keeps_effIte he h.trapStation

theorem State.keeps.rdsrEff {k : Hdr} {reg : Nat} {st : SRef} {i : Nat} {r : Ready} :
    s.keeps (rdsrEff k reg st i r u).state := by
  unfold Machine.rdsrEff
  split
  · exact h.answer
  · exact h

theorem State.keeps.wrsrEff {k : Hdr} {reg : Nat} {st : SRef} {i : Nat} {r : Ready} :
    s.keeps (wrsrEff k reg st i r u).state := keeps_ite h.answer.modInst h.answer

theorem State.keeps.readStream {st : SRef} {core i tag idx f va : Nat} {l : List Nat} {v : State}
    (hv : (u.readStream st core i tag idx f va l).state? = some v) : s.keeps v := by
  induction f generalizing u va l with
  | zero => cases hv; exact h
  | succ f ih =>
    unfold State.readStream at hv
    dsimp only at hv
    split at hv
    · cases hv; exact h
    · split at hv
      · cases hv
      · next w hw => cases hv; exact h.translate hw
      · next x hx =>
        have ht : s.keeps ((u.yardFor (.of core) x x.pa (64 - va % 64)).touchLoad core x x.pa) := h.yardFor.touchLoad
        split at hv
        · cases hv; exact h
        · split at hv
          · cases hv
          · split at hv
            · cases hv; exact ht
            · exact ih ht hv

theorem State.keeps.setPending {st : SRef} {gen : Option Nat} {new : List (Nat × Nat × Word)} {spare : List (Nat × Word)} :
    s.keeps (u.setPending st gen new spare) := by
  unfold State.setPending
  refine State.keeps.foldl (State.keeps.modInst (State.keeps.foldl h (fun _ _ hv => hv.modNode) _)) (fun v i hv => ?_) _
  split
  · exact hv.modNode
  · exact keeps_ite hv.adopt hv
  · exact hv

theorem State.keeps.freezeEff {k : Hdr} {data : List Slot} {st : SRef} {i : Nat} {r : Ready} :
    s.keeps (freezeEff k data st i r u).state := by
  unfold Machine.freezeEff
  split
  · exact h.answer
  · refine keeps_effIte h.answer (keeps_effIte (keeps_effIte h.overtake.answer ?_) h.beginWait.beginWave)
    split
    · next v hv => exact h.overtake.beginWait.freezeOut hv
    · exact h.answer

theorem State.keeps.thawImage {st : SRef} {a : Word} {p : State × Nat} (hp : u.thawImage st a = .ok p) : s.keeps p.1 := by
  unfold State.thawImage at hp
  repeat' split at hp
  all_goals cases hp
  exact h.modSlice

theorem State.keeps.headersAt {st : SRef} {t : Strand} {i n : Nat} {r : Ready} {v : State}
    (hv : (u.headersAt st t i r n).state? = some v) : s.keeps v := by
  unfold State.headersAt at hv
  split at hv
  · next w hw => cases hv; exact h.spansOf_wait hw
  · cases hv
  · next w l hw =>
    have hs : s.keeps w := h.spansOf_ok hw
    split at hv
    · cases hv; exact hs
    · split at hv
      · cases hv
      · cases hv; exact hs.readSpans

theorem State.keeps.thawPlaceEff {k : Hdr} {data : List Slot} {st : SRef} {i : Nat} {r : Ready} :
    s.keeps (thawPlaceEff k data st i r u).state := by
  unfold Machine.thawPlaceEff
  split
  · exact h.answer
  · refine keeps_effIte h.answer (keeps_effIte h.markThaw.beginWait ?_)
    split
    · next v hv =>
      have hk : s.keeps v := h.headersAt (by rw [hv])
      exact hk
    · exact h.trapStation
    · next v ws hv =>
      have hk : s.keeps v := h.headersAt (by rw [hv])
      exact hk.applyHeaders.markThaw.beginWait
  · exact h

theorem State.keeps.thawEff {k : Hdr} {data : List Slot} {st : SRef} {i : Nat} {r : Ready} :
    s.keeps (thawEff k data st i r u).state := by
  unfold Machine.thawEff
  refine keeps_effIte h.thawPlaceEff ?_
  split
  · exact h.answer
  · next v id hv =>
    have hk : s.keeps v := h.thawImage hv
    exact hk.answer

theorem State.keeps.abortEff {k : Hdr} {st : SRef} {i : Nat} {r : Ready} : s.keeps (abortEff k st i r u).state := by
  unfold Machine.abortEff
  split
  · exact h.answer
  · exact keeps_effIte h.abortNow.answer h.beginWait.beginWave

theorem State.keeps.recallOne {st : SRef} {l : List Access} {p : Access → Bool} (ns : List Nat) :
    s.keeps (ns.foldr (fun n (v : State) => match l[n]? with
      | some a => if p a then v.unissue st n else v
      | none => v) u) := by
  induction ns with
  | nil => exact h
  | cons n ns ih =>
    rw [List.foldr_cons]
    split
    · exact keeps_ite ih.unissue ih
    · exact ih

theorem State.keeps.recall {p : Access → Bool} : s.keeps (u.recall p) :=
  State.keeps.foldl h (fun _ _ hv => hv.recallOne _) _

theorem State.keeps.invalidate {va : Word} {all replay : Bool} : s.keeps (u.invalidate va all replay) := by
  refine keeps_ite (State.keeps.recall ?_) ?_
  · exact h.same rfl rfl rfl
  · refine State.keeps.same (State.keeps.recall ?_) rfl rfl rfl
    exact h.same rfl rfl rfl

end

theorem sup_lands {k : Hdr} {data : List Slot} {eff : SRef → Nat → Ready → State → Eff} {s : State} {repl imm : Word}
    (he : ∀ st i r u, s.keeps u → s.keeps (eff st i r u).state) : s.lands (fireEff k data repl imm (supEff eff) s) :=
  fireEff_lands fun st i r u hu => hu.supEff (he st i r u hu)

theorem execRdsr_lands (h : Hdr) (r : BitVec 6) (s : State) : s.lands (execRdsr h r s) := by
  unfold execRdsr
  split
  · exact sup_lands fun _ _ _ _ hu => hu.rdsrEff
  · exact fireEff_lands fun _ _ _ _ hu => hu.rdsrEff

theorem execWrsr_lands (h : Hdr) (r : BitVec 6) (s : State) : s.lands (execWrsr h r s) := by
  unfold execWrsr
  split
  · exact sup_lands fun _ _ _ _ hu => hu.wrsrEff
  · exact fireEff_lands fun _ _ _ _ hu => hu.wrsrEff

theorem execTrap_lands (h : Hdr) (code : BitVec 8) (s : State) : s.lands (execTrap h code s) :=
  fireEff_lands fun _ _ _ _ hu => hu.trapStation

theorem execPatch_lands (h : Hdr) (s : State) : s.lands (execPatch h s) := by
  refine fireEff_lands fun st i r u hu => ?_
  split
  · refine keeps_effIte hu ?_
    split
    · next v hv =>
      have hk : s.keeps v := hu.readStream (by rw [hv])
      exact hk
    · exact hu.trapStation
    · next v cmds hv =>
      have hk : s.keeps v := hu.readStream (by rw [hv])
      split
      · exact hk.trapStation
      · dsimp only
        split
        · exact hk.trapStation
        · exact hk.consume.setPending.emitData
  · exact hu

theorem execSwitch_lands (h : Hdr) (s : State) : s.lands (execSwitch h s) := by
  refine fireEff_lands fun st i r u hu => ?_
  split
  · exact hu
  · exact hu.consume.out

theorem execFreeze_lands (h : Hdr) (s : State) : s.lands (execFreeze h s) := sup_lands fun _ _ _ _ hu => hu.freezeEff

theorem execThaw_lands (h : Hdr) (s : State) : s.lands (execThaw h s) := sup_lands fun _ _ _ _ hu => hu.thawEff

theorem execAbort_lands (h : Hdr) (s : State) : s.lands (execAbort h s) := sup_lands fun _ _ _ _ hu => hu.abortEff

theorem execTlbi_lands (h : Hdr) (x : TlbiImm) (s : State) : s.lands (execTlbi h x s) :=
  sup_lands fun _ _ _ _ hu => hu.invalidate.answer

theorem execPmap_lands (h : Hdr) (s : State) : s.lands (execPmap h s) := by
  refine sup_lands fun st i r u hu => ?_
  split
  · exact hu
  · exact hu.answer

end Sys2Proof.Machine
end

section
/-! SUPPORT and proofs. Every row of the opcode table leads on. -/

namespace Sys2Proof.Machine

/-! The opcode table -/

theorem execLand_lands (h : Hdr) (label : BitVec 16) (s : State) : s.lands (execLand h label s) :=
  fireStart_lands ..

theorem execRead_lands (h : Hdr) (r : BitVec 6) (s : State) : s.lands (execRead h r s) :=
  fireStart_lands ..

theorem execConst_lands (h : Hdr) (v : BitVec 21) (s : State) : s.lands (execConst h v s) :=
  fireStart_lands ..

theorem execKpool_lands (h : Hdr) (k : BitVec 5) (s : State) : s.lands (execKpool h k s) :=
  fireStart_lands ..

theorem execMov_lands (h : Hdr) (v : BitVec 21) (s : State) : s.lands (execMov h v s) :=
  firePure_lands ..

theorem execFork_lands (h : Hdr) (tc td : Option Target) (s : State) : s.lands (execFork h tc td s) :=
  firePure_lands ..

theorem execDrop_lands (h : Hdr) (s : State) : s.lands (execDrop h s) :=
  firePure_lands ..

theorem execBcast_lands (h : Hdr) (s : State) : s.lands (execBcast h s) :=
  firePure_lands ..

theorem execSwz_lands (h : Hdr) (q : BitVec 8) (s : State) : s.lands (execSwz h q s) :=
  firePure_lands ..

theorem execJall_lands (h : Hdr) (s : State) : s.lands (execJall h s) :=
  firePure_lands ..

theorem execExit_lands (h : Hdr) (n : BitVec 3) (s : State) : s.lands (execExit h n s) :=
  fireExit_lands ..

theorem execExiti_lands (h : Hdr) (x : JumpImm) (s : State) : s.lands (execExiti h x s) :=
  fireExit_lands ..

theorem execCall_lands (h : Hdr) (n : BitVec 3) (s : State) : s.lands (execCall h n s) :=
  fireExit_lands ..

theorem execCalli_lands (h : Hdr) (x : JumpImm) (s : State) : s.lands (execCalli h x s) :=
  fireExit_lands ..

theorem execRet_lands (h : Hdr) (s : State) : s.lands (execRet h s) :=
  fireExit_lands ..

theorem execLdf_lands (h : Hdr) (x : MemImm) (s : State) : s.lands (execLdf h x s) :=
  fullEmpty_lands ..

theorem execLdfk_lands (h : Hdr) (x : MemImm) (s : State) : s.lands (execLdfk h x s) :=
  fullEmpty_lands ..

theorem execSte_lands (h : Hdr) (x : MemImm) (s : State) : s.lands (execSte h x s) :=
  fullEmpty_lands ..

theorem execStf_lands (h : Hdr) (x : MemImm) (s : State) : s.lands (execStf h x s) :=
  fullEmpty_lands ..

theorem execTfree_lands (h : Hdr) (x : TileImm) (s : State) : s.lands (execTfree h x s) :=
  tileChange_lands ..

theorem execTready_lands (h : Hdr) (x : TileImm) (s : State) : s.lands (execTready h x s) :=
  tileChange_lands ..

/-- An event row leads to a next state, whatever the state. -/
theorem exec_event_leads {i : Instr} (hi : i.isWord = false) (s : State) : s.leads (exec i s) := by
  cases i with
  | blockFetch st => exact execBlockFetch_leads st s
  | commit st => exact execCommit_leads st s
  | antiTokenArrival st idx tgt k => exact execAntiTokenArrival_leads st idx tgt k s
  | loadReply st n => exact execLoadReply_leads st n s
  | storePerform st n => exact execStorePerform_leads st n s
  | translationWalk n => exact execTranslationWalk_leads n s
  | ptTick => exact execPtTick_leads s
  | freezeWave sl => exact execFreezeWave_leads sl s
  | freezeComplete sl => exact execFreezeComplete_leads sl s
  | thawResume sl => exact execThawResume_leads sl s
  | switchAdopt st idx => exact execSwitchAdopt_leads st idx s
  | queueTableChange q => exact execQueueTableChange_leads q s
  | pubObserved q => exact execPubObserved_leads q s
  | queueAppend n => exact execQueueAppend_leads n s
  | dispatchPass => exact execDispatchPass_leads s
  | budget sl => exact execBudget_leads sl s
  | sliceEnd sl => exact execSliceEnd_leads sl s
  | barrierDeadline b => exact execBarrierDeadline_leads b s
  | messageIssue st n => exact execMessageIssue_leads st n s
  | operationReply n => exact execOperationReply_leads n s
  | copyOp n u => exact execCopyOp_leads n u s
  | copy2Op n u => exact execCopy2Op_leads n u s
  | gathOp n u => exact execGathOp_leads n u s
  | scatOp n u => exact execScatOp_leads n u s
  | cfillOp n u => exact execCfillOp_leads n u s
  | putOp pt u => exact execPutOp_leads pt u s
  | getOp n u => exact execGetOp_leads n u s
  | ldwOp n => exact execLdwOp_leads n s
  | swapwOp n => exact execSwapwOp_leads n s
  | mmaOp n => exact execMmaOp_leads n s
  | accrdOp n => exact execAccrdOp_leads n s
  | acczOp n => exact execAcczOp_leads n s
  | mmawOp n => exact execMmawOp_leads n s
  | defineRegion n => exact execDefineRegion_leads n s
  | applyRegion n => exact execApplyRegion_leads n s
  | resetRegion n => exact execResetRegion_leads n s
  | statRegion n => exact execStatRegion_leads n s
  | closeRegion n => exact execCloseRegion_leads n s
  | openContext n => exact execOpenContext_leads n s
  | appendTokens n => exact execAppendTokens_leads n s
  | proposeDraft n => exact execProposeDraft_leads n s
  | statRecord n => exact execStatRecord_leads n s
  | saveImage n => exact execSaveImage_leads n s
  | loadImage n => exact execLoadImage_leads n s
  | closeContext n => exact execCloseContext_leads n s
  | appendOp n => exact execAppendOp_leads n s
  | rupd src sq key value ty => exact execRupd_leads src sq key value ty s
  | renq src sq desc handle => exact execRenq_leads src sq desc handle s
  | radd src sq addr inc => exact execRadd_leads src sq addr inc s
  | ratom src sq addr b c ty aop => exact execRatom_leads src sq addr b c ty aop s
  | remoteRetransmit pkg sq => exact execRemoteRetransmit_leads pkg sq s
  | remoteUnreachable n => exact execRemoteUnreachable_leads n s
  | updateAccept st n => exact execUpdateAccept_leads st n s
  | yardfull die => exact execYardfull_leads die s
  | waitmWake st n cause => exact execWaitmWake_leads st n cause s
  | waitmTimeout st n => exact execWaitmTimeout_leads st n s
  | errorDetected cls unit what => exact execErrorDetected_leads cls unit what s
  | errorTestDone cls unit e => exact execErrorTestDone_leads cls unit e s
  | hostAccess link write addr len bytes => exact execHostAccess_leads link write addr len bytes s
  | mboxSensors => exact execMboxSensors_leads s
  | mboxLog => exact execMboxLog_leads s
  | mboxAttest => exact execMboxAttest_leads s
  | mboxFwstage => exact execMboxFwstage_leads s
  | mboxFwactivate => exact execMboxFwactivate_leads s
  | mboxReset => exact execMboxReset_leads s
  | mboxTime => exact execMboxTime_leads s
  | powerGood => exact execPowerGood_leads s
  | bringupStage what => exact execBringupStage_leads what s
  | _ => cases hi

/-- A named message instruction leads to a next state at a station of a running block. -/
theorem exec_msgRule_lands {i : Instr} {m : MsgRule} (hm : msgRule i = some m) (s : State) : s.lands (exec i s) := by
  cases i with
  | copy | copy2In | copy2Out | gath | scat | cfill | put | get | ldw
  | swapw | mma | accrd | accz | mmaw | roteOpen | roteAppend | rotePropose
  | roteStat | roteSave | roteLoad | roteClose | yardDefine | yardApply | yardReset
  | yardStat | yardClose => exact fireNamed_lands _ _ _ _ _ _ s
  | _ => cases hm

/-- An instruction row leads to a next state at a station of a running block, and has no meaning elsewhere. -/
theorem exec_word_lands {i : Instr} (hi : i.isWord = true) (s : State) : s.lands (exec i s) := by
  cases i with
  | add | sub | mul | and | or | xor | andn | shl | rol | mad | mulh
  | div | rem | min | max | shr | pack | neg | abs | not | clz | ctz
  | popc | brev | sat | ext | unpk | extr | ins | cmp | lea => exact exec_intRule_lands rfl s
  | fadd | fsub | fmul | fdiv | fma | fmin | fmax | fabs | fneg | fsqrt
  | frcp | frsq | fexp2 | flog2 | ftanh | fscl | fcls | fcmp | frnd | fcvt
  | itof | ftoi | dot | key | noise => exact exec_floatRule_lands rfl s
  | copy | copy2In | copy2Out | gath | scat | cfill | put | get | ldw
  | swapw | mma | accrd | accz | mmaw | roteOpen | roteAppend | rotePropose
  | roteStat | roteSave | roteLoad | roteClose | yardDefine | yardApply | yardReset
  | yardStat | yardClose => exact exec_msgRule_lands rfl s
  | land h label => exact execLand_lands h label s
  | read h r => exact execRead_lands h r s
  | const h v => exact execConst_lands h v s
  | kpool h k => exact execKpool_lands h k s
  | mov h v => exact execMov_lands h v s
  | fork h tc td => exact execFork_lands h tc td s
  | drop h => exact execDrop_lands h s
  | bcast h => exact execBcast_lands h s
  | swz h q => exact execSwz_lands h q s
  | jall h => exact execJall_lands h s
  | exit h n => exact execExit_lands h n s
  | exiti h x => exact execExiti_lands h x s
  | call h n => exact execCall_lands h n s
  | calli h x => exact execCalli_lands h x s
  | ret h => exact execRet_lands h s
  | ldf h x => exact execLdf_lands h x s
  | ldfk h x => exact execLdfk_lands h x s
  | ste h x => exact execSte_lands h x s
  | stf h x => exact execStf_lands h x s
  | tfree h x => exact execTfree_lands h x s
  | tready h x => exact execTready_lands h x s
  | write h r => exact execWrite_lands h r s
  | sel h ef => exact execSel_lands h ef s
  | steer h => exact execSteer_lands h s
  | merge h => exact execMerge_lands h s
  | jand h ef => exact execJand_lands h ef s
  | jor h ef => exact execJor_lands h ef s
  | carry h x => exact execCarry_lands h x s
  | loopin h x => exact execLoopin_lands h x s
  | loopout h x => exact execLoopout_lands h x s
  | kill h x => exact execKill_lands h x s
  | gen h n => exact execGen_lands h n s
  | cnt h => exact execCnt_lands h s
  | iter h => exact execIter_lands h s
  | qpack h x => exact execQpack_lands h x s
  | qunpk h x => exact execQunpk_lands h x s
  | red h op => exact execRed_lands h op s
  | scan h op => exact execScan_lands h op s
  | shuf h v => exact execShuf_lands h v s
  | idx h => exact execIdx_lands h s
  | tap h x => exact execTap_lands h x s
  | binit h x => exact execBinit_lands h x s
  | barr h x => exact execBarr_lands h x s
  | bwait h x => exact execBwait_lands h x s
  | bsync h x => exact execBsync_lands h x s
  | bred h x => exact execBred_lands h x s
  | bwaitd h x => exact execBwaitd_lands h x s
  | enq h => exact execEnq_lands h s
  | yield h => exact execYield_lands h s
  | fopen h => exact execFopen_lands h s
  | fclose h => exact execFclose_lands h s
  | fwait h => exact execFwait_lands h s
  | waitc h => exact execWaitc_lands h s
  | ld h x => exact execLd_lands h x s
  | st h x => exact execSt_lands h x s
  | ldx h x => exact execLdx_lands h x s
  | stx h x => exact execStx_lands h x s
  | feset h x => exact execFeset_lands h x s
  | atom h x => exact execAtom_lands h x s
  | upd h x => exact execUpd_lands h x s
  | pref h x => exact execPref_lands h x s
  | flush h x => exact execFlush_lands h x s
  | waitm h x => exact execWaitm_lands h x s
  | tdef h x => exact execTdef_lands h x s
  | tstate h x => exact execTstate_lands h x s
  | tld h x => exact execTld_lands h x s
  | tst h x => exact execTst_lands h x s
  | bankmode h x => exact execBankmode_lands h x s
  | send h x => exact execSend_lands h x s
  | tree h x => exact execTree_lands h x s
  | accept h x => exact execAccept_lands h x s
  | trap h code => exact execTrap_lands h code s
  | rdsr h r => exact execRdsr_lands h r s
  | wrsr h r => exact execWrsr_lands h r s
  | patch h => exact execPatch_lands h s
  | switch h => exact execSwitch_lands h s
  | freeze h => exact execFreeze_lands h s
  | thaw h => exact execThaw_lands h s
  | tlbi h x => exact execTlbi_lands h x s
  | pmap h => exact execPmap_lands h s
  | abort h => exact execAbort_lands h s
  | _ => cases hi

end Sys2Proof.Machine
end

section
/-! SUPPORT and proofs. What the device chooses by itself holds no instruction row among its events (log 1). -/

namespace Sys2Proof.Machine

/-! What the device chooses by itself (log 1) holds no instruction row among its events -/

/-- An action is no instruction row put among the events. -/
def What.ok (w : What) : Prop := ∀ i, w = .event i → i.isWord = false

@[simp] theorem ok_fire (st : SRef) (i : Nat) : (What.fire st i).ok := fun _ hw => by cases hw

@[simp] theorem ok_fireCopy (st : SRef) (i c : Nat) : (What.fireCopy st i c).ok := fun _ hw => by cases hw

@[simp] theorem ok_settle (st : SRef) : (What.settle st).ok := fun _ hw => by cases hw

@[simp] theorem ok_event (i : Instr) : (What.event i).ok ↔ i.isWord = false :=
  ⟨fun h => h i rfl, fun h _ hw => by cases hw; exact h⟩

/-- A list of events that holds no instruction row. -/
def noWords (l : List Instr) : Prop := ∀ i ∈ l, i.isWord = false

/-- A list of actions that holds no instruction row among its events. -/
def allOk (l : List What) : Prop := ∀ w ∈ l, w.ok

@[simp] theorem noWords_nil : noWords [] := by simp [noWords]

@[simp] theorem noWords_cons (i : Instr) (l : List Instr) : noWords (i :: l) ↔ i.isWord = false ∧ noWords l := by
  simp [noWords]

@[simp] theorem noWords_append (l m : List Instr) : noWords (l ++ m) ↔ noWords l ∧ noWords m := List.forall_mem_append

theorem noWords_map {α : Type} (f : α → Instr) (l : List α) : noWords (l.map f) ↔ ∀ a ∈ l, (f a).isWord = false :=
  List.forall_mem_map

theorem noWords_mapIdx {α : Type} {f : Nat → α → Instr} (h : ∀ n a, (f n a).isWord = false) (l : List α) :
    noWords (l.mapIdx f) := by
  intro i hi
  obtain ⟨n, hn, rfl⟩ := List.mem_mapIdx.mp hi
  exact h _ _

theorem noWords_filterMap {α : Type} {f : α → Option Instr} (h : ∀ a i, f a = some i → i.isWord = false) (l : List α) :
    noWords (l.filterMap f) := by
  intro i hi
  obtain ⟨a, -, ha⟩ := List.mem_filterMap.mp hi
  exact h a i ha

theorem noWords_flatMap {α : Type} {f : α → List Instr} (h : ∀ a, noWords (f a)) (l : List α) : noWords (l.flatMap f) := by
  intro i hi
  obtain ⟨a, -, ha⟩ := List.mem_flatMap.mp hi
  exact h a i ha

theorem noWords_flatten {α : Type} {f : Nat → α → List Instr} (h : ∀ n a, noWords (f n a)) (l : List α) :
    noWords (l.mapIdx f).flatten := by
  intro i hi
  obtain ⟨m, hm, hi⟩ := List.mem_flatten.mp hi
  obtain ⟨n, hn, rfl⟩ := List.mem_mapIdx.mp hm
  exact h _ _ i hi

@[simp] theorem allOk_nil : allOk [] := by simp [allOk]

@[simp] theorem allOk_cons (w : What) (l : List What) : allOk (w :: l) ↔ w.ok ∧ allOk l := by simp [allOk]

@[simp] theorem allOk_append (l m : List What) : allOk (l ++ m) ↔ allOk l ∧ allOk m := List.forall_mem_append

@[simp] theorem allOk_events (l : List Instr) : allOk (l.map .event) ↔ noWords l := by simp [allOk, noWords]

theorem allOk_map {α : Type} {f : α → What} (h : ∀ a, (f a).ok) (l : List α) : allOk (l.map f) := by simp [allOk, h]

theorem allOk_mapIdx {α : Type} {f : Nat → α → What} (h : ∀ n a, (f n a).ok) (l : List α) : allOk (l.mapIdx f) := by
  intro w hw
  obtain ⟨n, hn, rfl⟩ := List.mem_mapIdx.mp hw
  exact h _ _

theorem allOk_flatMap {α : Type} {f : α → List What} (h : ∀ a, allOk (f a)) (l : List α) : allOk (l.flatMap f) := by
  intro w hw
  obtain ⟨a, -, ha⟩ := List.mem_flatMap.mp hw
  exact h a w ha

theorem allOk_flatten {α : Type} {f : Nat → α → List What} (h : ∀ n a, allOk (f n a)) (l : List α) :
    allOk (l.mapIdx f).flatten := by
  intro w hw
  obtain ⟨m, hm, hw⟩ := List.mem_flatten.mp hw
  obtain ⟨n, hn, rfl⟩ := List.mem_mapIdx.mp hm
  exact h _ _ w hw

theorem noWords_mboxEvent (s : State) : noWords s.mboxEvent := by
  unfold State.mboxEvent
  split
  · simp
  · split <;> simp [Instr.isWord, Instr.info]

theorem noWords_opEvent (s : State) (n : Nat) (o : Op) : noWords (s.opEvent n o) := by
  unfold State.opEvent
  dsimp only
  split
  · simp [Instr.isWord, Instr.info]
  · split <;> simp only [noWords_cons, noWords_nil, noWords_map, Instr.isWord, Instr.info, Option.isSome_none,
      implies_true, and_self]

theorem isWord_pendEvent (st : SRef) (n : Nat) (a : Access) : (pendEvent st n a).isWord = false := by
  unfold pendEvent
  split <;> rfl

theorem noWords_waitEvent (s : State) (st : SRef) (n : Nat) (w : Wait) : noWords (s.waitEvent st n w) := by
  unfold State.waitEvent
  split
  · split
    · simp [Instr.isWord, Instr.info]
    · split <;> simp [Instr.isWord, Instr.info]
  · simp

theorem allOk_nodeEvents (st : SRef) (i : Nat) (nd : Node) : allOk (nodeEvents st i nd) := by
  unfold nodeEvents
  rw [List.cons_append, List.cons_append, allOk_cons, allOk_append, allOk_append, allOk_cons]
  exact ⟨ok_fire st i, ⟨allOk_map (fun _ => ok_fireCopy st i _) _, allOk_mapIdx (fun _ _ => (ok_event _).mpr rfl) _⟩,
    (ok_event _).mpr rfl, allOk_nil⟩

theorem allOk_strandEvents (s : State) (st : SRef) (t : Strand) : allOk (s.strandEvents st t) := by
  unfold State.strandEvents
  rw [allOk_append, allOk_append, allOk_events, noWords_append]
  refine ⟨⟨allOk_mapIdx (fun _ _ => (ok_event _).mpr (isWord_pendEvent ..)) _, ?_⟩,
    noWords_flatten (fun _ _ => noWords_waitEvent s st _ _) _, noWords_mapIdx (fun _ _ => rfl) _⟩
  split
  · split
    · exact allOk_nil
    · simp [Instr.isWord, Instr.info]
  · rw [allOk_append]
    exact ⟨allOk_flatten (fun _ _ => allOk_nodeEvents st _ _) _, by simp [Instr.isWord, Instr.info]⟩

theorem allOk_sliceEvents (s : State) (x : Slice) : allOk (s.sliceEvents x) := by
  unfold State.sliceEvents
  rw [allOk_append, allOk_append, allOk_append]
  refine ⟨⟨⟨?_, ?_⟩, ?_⟩, ?_⟩
  · split
    · simp [Instr.isWord, Instr.info]
    · simp [Instr.isWord, Instr.info]
    · split <;> simp [Instr.isWord, Instr.info]
    · simp
  · split <;> simp [Instr.isWord, Instr.info]
  · split <;> simp [Instr.isWord, Instr.info]
  · split
    · exact allOk_flatMap (fun _ => allOk_strandEvents s _ _) _
    · exact allOk_nil

theorem noWords_hostEvents (s : State) : noWords s.hostEvents := by
  refine noWords_filterMap (fun l i hi => ?_) _
  split at hi
  · split at hi
    · cases hi
    · cases hi; rfl
  · cases hi

theorem noWords_unitEvents (s : State) : noWords s.unitEvents := by
  unfold State.unitEvents
  simp only [noWords_append]
  refine ⟨⟨⟨⟨⟨⟨?_, ?_⟩, ?_⟩, ?_⟩, ?_⟩, ?_⟩, ?_⟩
  · refine noWords_flatten (fun n w => ?_) _
    split <;> simp [Instr.isWord, Instr.info]
  · exact noWords_flatten (fun _ _ => noWords_opEvent s _ _) _
  · exact noWords_mapIdx (fun _ _ => rfl) _
  · refine noWords_filterMap (fun e i hi => ?_) _
    split at hi <;> cases hi
    rfl
  · refine noWords_flatMap (fun d => ?_) _
    split <;> simp [Instr.isWord, Instr.info]
  · refine noWords_flatMap (fun r => ?_) _
    split
    · split <;> simp [Instr.isWord, Instr.info]
    · simp
  · refine noWords_flatten (fun n o => ?_) _
    split <;> simp [Instr.isWord, Instr.info]

theorem noWords_deadlines (s : State) : noWords s.deadlines := by
  refine noWords_filterMap (fun e i hi => ?_) _
  split at hi
  · split at hi <;> cases hi
    rfl
  · cases hi

theorem allOk_choices (s : State) : allOk s.choices := by
  unfold State.choices
  split
  · simp [Instr.isWord, Instr.info]
  · split
    · simp [Instr.isWord, Instr.info]
    · rw [allOk_append, allOk_events]
      simp only [noWords_append]
      refine ⟨allOk_flatMap (fun _ => allOk_sliceEvents s _) _, ⟨⟨⟨⟨?_, noWords_mboxEvent s⟩, noWords_deadlines s⟩,
        noWords_unitEvents s⟩, noWords_hostEvents s⟩, ?_⟩
      · split <;> simp [Instr.isWord, Instr.info]
      · simp [Instr.isWord, Instr.info]

theorem ok_choice (s : State) : s.choice.ok := by
  unfold State.choice
  dsimp only
  rw [List.getD_eq_getElem?_getD]
  cases hw : s.choices[s.cycles % (s.choices.length + 1)]? with
  | none => exact (ok_event _).mpr rfl
  | some w => exact allOk_choices s w (List.mem_of_getElem? hw)

end Sys2Proof.Machine
end

section
/-! SUPPORT and proofs. Every step goes on: grants, accesses that wait for one another, and the step. -/

namespace Sys2Proof.Machine

/-! A step goes on -/

/-- A station found in a running block stands there. -/
theorem stands_of_node {s : State} {st : SRef} {i : Nat} {nd : Node} (h : s.node? st i = some nd) :
    ({ s with cur := some ⟨st, i⟩ } : State).stands := by
  unfold State.node? at h
  split at h
  · next y hy =>
    have hi : s.inst? st = some y := hy
    cases hx : s.slice? st.slice with
    | none => simp [State.inst?, State.strand?, hx] at hi
    | some x => exact ⟨⟨st, i⟩, x, y, rfl, hx, hi⟩
  · cases h

/-- An instruction goes on, but for a row of the table executed where no station stands. -/
theorem exec_leads {i : Instr} {s : State} (h : i.isWord = true → s.stands) : s.leads (exec i s) := by
  cases hi : i.isWord with
  | true => exact (exec_word_lands hi s).1 (h hi)
  | false => exact exec_event_leads hi s

theorem exec_keeps {i : Instr} {s t : State} (h : exec i s = .next t) : s.keeps t := by
  by_cases hi : i.isWord = true → s.stands
  · obtain ⟨v, hv, hk⟩ := exec_leads hi
    cases hv.symm.trans h
    exact hk
  · obtain ⟨hw, hs⟩ := Classical.not_imp.mp hi
    exact nomatch ((exec_word_lands hw s).2 hs).symm.trans h

theorem fireAt_leads (s : State) (st : SRef) (i : Nat) : s.leads (s.fireAt st i) := by
  unfold State.fireAt
  split
  · exact leads_next.mpr (State.keeps.refl s)
  · next nd hn =>
    split
    · next k _ =>
      obtain ⟨t, ht, hk⟩ := exec_leads (i := k) fun _ => stands_of_node hn
      rw [ht]
      have hs : s.keeps t := hk
      exact leads_next.mpr (keeps_ite hs.thawDone hs)
    · exact leads_next.mpr (State.keeps.refl s)

section
variable {s u : State} (h : s.keeps u)
include h

theorem State.keeps.fireAt {st : SRef} {i : Nat} {t : State} (ht : u.fireAt st i = .next t) : s.keeps t := by
  obtain ⟨v, hv, hk⟩ := fireAt_leads u st i
  cases hv.symm.trans ht
  exact h.trans hk

theorem State.keeps.run {w : What} {t : State} (ht : u.run w = .next t) : s.keeps t := by
  cases w with
  | event i => exact h.trans (exec_keeps (s := { u with cur := none }) ht)
  | fire st i => exact h.fireAt ht
  | fireCopy st i c => exact h.modNode.fireAt ht
  | settle st => cases ht; exact h
  | claim st i tag idx => cases ht; exact h

end

theorem run_next {w : What} (h : w.ok) (s : State) : ∃ t, s.run w = .next t := by
  cases w with
  | event i =>
    obtain ⟨t, ht, -⟩ := exec_event_leads (h i rfl) { s with cur := none }
    exact ⟨t, ht⟩
  | fire st i =>
    obtain ⟨t, ht, -⟩ := fireAt_leads s st i
    exact ⟨t, ht⟩
  | fireCopy st i c =>
    obtain ⟨t, ht, -⟩ := fireAt_leads (s.modNode st i fun n => n.turned c) st i
    exact ⟨t, ht⟩
  | settle st => exact ⟨s, rfl⟩
  | claim st i tag idx => exact ⟨s, rfl⟩

theorem happen_next {w : What} (h : w.ok) (s : State) : ∃ t, s.happen w = .next t := by
  obtain ⟨t, ht⟩ := run_next h s
  unfold State.happen
  split
  · exact ⟨t, ht⟩
  · split
    · exact ⟨s, rfl⟩
    · rw [ht]
      exact ⟨_, rfl⟩

section
variable {s u : State} (h : s.keeps u)
include h

theorem State.keeps.serve {k : Nat} {st : SRef} : s.keeps (u.serve k st) := h.same rfl rfl rfl

theorem State.keeps.happen {w : What} {t : State} (ht : u.happen w = .next t) : s.keeps t := by
  unfold State.happen at ht
  split at ht
  · exact h.run ht
  · split at ht
    · cases ht; exact h
    · split at ht
      · next v hv =>
        have hk : s.keeps v := h.run hv
        cases ht
        exact keeps_ite hk.serve hk
      · exact h.run ht

/-! Accesses that wait for one another (R485) -/

theorem State.keeps.act {w : What} : s.keeps (u.act w) := by
  unfold State.act
  split
  · next hv => exact h.run hv
  · exact h

theorem State.keeps.insideAfter {st : SRef} {wait : Nat} {v : State} (hv : u.insideAfter st wait = some v) : s.keeps v := by
  unfold State.insideAfter at hv
  split at hv
  · cases hv
  · split at hv
    · cases hv
    · obtain ⟨w, -, hw⟩ := List.exists_of_findSome?_eq_some hv
      dsimp only at hw
      split at hw
      · cases hw
      · cases hw
        have hc : s.keeps { u with cycles := u.cycles + wait } := h
        exact hc.act.same rfl rfl rfl

theorem State.keeps.insideStep {st : SRef} {v : State} (hv : u.insideStep st = some v) : s.keeps v := by
  unfold State.insideStep at hv
  cases h0 : u.insideAfter st 0 with
  | some w => rw [h0] at hv; cases hv; exact h.insideAfter h0
  | none => rw [h0] at hv; exact h.insideAfter hv

theorem State.keeps.tell {st : SRef} {guess : List Told} {a : Held} {v : State} (hv : u.tell st guess a = some v) :
    s.keeps v := by
  unfold State.tell at hv
  split at hv
  · cases hv
  · split at hv
    · cases hv
    · obtain ⟨w, -, rfl⟩ := Option.map_eq_some_iff.mp hv
      exact h.emit.modInst

end

/-- The state that a run ahead leaves, unless it should have sent other data. -/
@[reducible] def Ahead.state? : Ahead → Option State
  | .done s => some s
  | .wrong _ => none
  | .stuck s => some s

section
variable {s u : State} (h : s.keeps u)
include h

theorem State.keeps.runAhead {st : SRef} {guess : List Told} {lax : Bool} {f : Nat} {v : State}
    (hv : (State.runAhead st guess lax f u).state? = some v) : s.keeps v := by
  induction f generalizing u with
  | zero => cases hv; exact h
  | succ f ih =>
    unfold State.runAhead at hv
    split at hv
    · split at hv
      · cases hv
      · split at hv
        · cases hv; exact h
        · split at hv
          · next w hw => exact ih (h.insideStep hw) hv
          · split at hv
            · next w hw =>
              obtain ⟨a, -, ha⟩ := Option.bind_eq_some_iff.mp hw
              exact ih (h.tell ha) hv
            · cases hv; exact h
    · cases hv; exact h

theorem State.keeps.solve {st : SRef} {a : Held} {n : Nat} {guess : List Told} {v : State}
    (hv : (u.solve st a n guess).state? = some v) : s.keeps v := by
  induction n generalizing guess with
  | zero =>
    unfold State.solve at hv
    split at hv
    · next w hw => exact (h.tell hw).runAhead hv
    · cases hv; exact h
  | succ n ih =>
    unfold State.solve at hv
    split at hv
    · cases hv; exact h
    · next w hw =>
      split at hv
      · exact ih hv
      · exact (h.tell hw).runAhead hv

theorem State.keeps.claimAt {st : SRef} {i tag idx : Nat} : s.keeps (u.claimAt st i tag idx) := h.modInst

theorem State.keeps.askWalks {v : State} {st : SRef} : s.keeps (u.askWalks v st) :=
  State.keeps.foldl h (fun _ _ hv => hv.requestWalk) _

theorem State.keeps.settleFirst {st : SRef} {l : List Held} : s.keeps (u.settleFirst st l) := by
  induction l generalizing u with
  | nil => exact h
  | cons a l ih =>
    unfold State.settleFirst
    split
    · next v hv =>
      have hk : s.keeps v := h.solve (by rw [hv])
      exact hk.modInst
    · exact ih h
    · exact keeps_ite (ih h.askWalks) h.claimAt

theorem State.keeps.settleAccesses {st : SRef} : s.keeps (u.settleAccesses st) := h.settleFrames.settleFirst

theorem State.keeps.claimAccess {st : SRef} {i tag idx : Nat} : s.keeps (u.claimAccess st i tag idx) := by
  unfold State.claimAccess
  split
  · exact h
  · split
    · exact h
    · exact keeps_ite h.claimAt h

/-! One step -/

theorem State.keeps.perform {w : What} {t : State} (ht : u.perform w = .next t) : s.keeps t := by
  unfold State.perform at ht
  split at ht
  · cases ht; exact h.settleAccesses
  · cases ht; exact h.claimAccess
  · exact h.happen ht

theorem State.keeps.goOn {dt : Nat} : s.keeps (u.goOn dt) := by
  have he : s.keeps (u.elapse dt) := h.same rfl rfl rfl
  exact he.takeUpOwed

end

theorem perform_next {w : What} (h : w.ok) (s : State) : ∃ t, s.perform w = .next t := by
  unfold State.perform
  split
  · exact ⟨_, rfl⟩
  · exact ⟨_, rfl⟩
  · exact happen_next h s

/-- A step takes the first entry off the agenda, and changes it in no other way; and it keeps memory and local space
canonical. -/
theorem step_keeps {s t : State} (h : step s = .next t) : ({ s with agenda := s.agenda.tail } : State).keeps t := by
  unfold step at h
  split at h
  · next a r ha =>
    rw [ha]
    exact (State.keeps.refl _).goOn.perform h
  · next ha =>
    have hs : ({ s with agenda := s.agenda.tail } : State).keeps s := ⟨by rw [ha]; rfl, id⟩
    exact hs.goOn.perform h

theorem step_next {s : State} (h : s.agendaOk) : ∃ t, step s = .next t := by
  unfold step
  split
  · next a r ha => exact perform_next (fun i => h a (by rw [ha]; exact List.mem_cons_self) i) _
  · exact perform_next (ok_choice _) _

/-- Settles O8: an event row leads on from every state and an instruction row from every station, and what the device chooses
by itself is no instruction row among the events. -/
theorem everyStepGoesOn : Obligations.EveryStepGoesOn := by
  intro s hs
  obtain ⟨t, ht⟩ := step_next hs
  obtain ⟨hagenda, -⟩ := step_keeps ht
  refine ⟨t, ht, fun a ha => hs a ?_⟩
  rw [hagenda] at ha
  exact List.mem_of_mem_tail ha

end Sys2Proof.Machine
end

section
/-! SUPPORT and proofs. Floating point (R100, R111, R113–R117, R173, R178): a value that its format holds is put back as it was read,
opposites add to a zero, and what a NaN does. -/

namespace Sys2Proof.Machine

/-! Values that a format holds -/

/-- The magnitude bits of m × 2^e, of a value that the format holds: a subnormal's m, or a normal's exponent above its fraction. -/
def Fmt.magOf (f : Fmt) (m : Nat) (e : Int) : Int :=
  if m < 2 ^ f.fb then m else (e - (f.emin - f.fb) + 1) * 2 ^ f.fb + (m - 2 ^ f.fb : Nat)

/-- A finite value other than zero that a format holds (R101): a normal with its leading bit, or a subnormal at the least exponent. -/
structure Fmt.Holds (f : Fmt) (m : Nat) (e : Int) : Prop where
  pos : m ≠ 0
  short : m < 2 ^ (f.fb + 1)
  low : f.emin - f.fb ≤ e
  full : 2 ^ f.fb ≤ m ∨ e = f.emin - f.fb
  bounded : f.magOf m e ≤ f.largest

theorem bitLen_le {m k : Nat} (h : m < 2 ^ k) : bitLen m ≤ k := by
  unfold bitLen
  split
  · omega
  · next hm => exact (Nat.log2_lt hm).mpr h

theorem lt_bitLen {m k : Nat} (h : 2 ^ k ≤ m) : k < bitLen m := by
  have hm : m ≠ 0 := fun h0 => by
    have := Nat.two_pow_pos k
    omega
  simpa [bitLen, hm, Nat.lt_succ_iff] using (Nat.le_log2 hm).mpr h

/-- The unit in which a value that the format holds is rounded is its own. -/
theorem Fmt.Holds.unit {f : Fmt} {m : Nat} {e : Int} (h : f.Holds m e) :
    max (e + bitLen m - 1 - f.fb) (f.emin - f.fb) = e := by
  have hlen := bitLen_le h.short
  have hlow := h.low
  rcases h.full with hfull | he
  · have := lt_bitLen hfull
    omega
  · omega

/-- Nothing rounds up where there is no rest. -/
@[simp] theorem roundUp_exact (rm : Rm) (neg : Bool) (q : Nat) : roundUp rm neg q 0 false = false := by
  cases rm <;> rfl

/-- A value that the format holds is given exactly and raises no flag (R111, R115). -/
theorem Fmt.Holds.round {f : Fmt} {m : Nat} {e : Int} (h : f.Holds m e) {v : Env} (hz : v.fz = false) (conv neg : Bool) :
    f.round v conv neg m e false = (f.signed neg (f.magOf m e).toNat, 0) := by
  have hbound : ¬ (f.largest : Int) < f.magOf m e := Int.not_lt.mpr h.bounded
  have hshort : m ≠ 2 ^ (f.fb + 1) := Nat.ne_of_lt h.short
  simp only [Fmt.magOf] at hbound
  simp [Fmt.round, h.pos, h.unit, hz, hshort, hbound, Fmt.magOf]

/-- A zero keeps its sign. -/
theorem round_zero (f : Fmt) (v : Env) (conv neg : Bool) (e : Int) : f.round v conv neg 0 e false = (f.signed neg 0, 0) := by
  simp [Fmt.round]

/-- Without DAZ an operand is its value (R114). -/
theorem operand_of_not_daz {v : Env} (h : v.daz = false) (f : Fmt) (b : Nat) : f.operand v b = f.read b := by
  unfold Fmt.operand
  split
  · next hr => simp [h, hr]
  · rfl

/-! FP32 -/

/-- A finite FP32 number is a subnormal or zero, or a normal (R101). -/
theorem fp32_read_fin {a m : Nat} {n : Bool} {e : Int} (h : Fmt.fp32.read a = .fin n m e) :
    n = decide (2 ^ 31 ≤ a % 2 ^ 32) ∧
    ((a / 2 ^ 23 % 2 ^ 8 = 0 ∧ m = a % 2 ^ 23 ∧ e = -149) ∨
      (0 < a / 2 ^ 23 % 2 ^ 8 ∧ a / 2 ^ 23 % 2 ^ 8 < 255 ∧ m = a % 2 ^ 23 + 2 ^ 23 ∧
        e = -149 + (a / 2 ^ 23 % 2 ^ 8 - 1 : Nat))) := by
  unfold Fmt.read at h
  dsimp only at h
  rw [if_neg (by decide)] at h
  split at h
  · split at h <;> cases h
  · next hmax =>
    split at h
    · next hzero =>
      cases h
      exact ⟨rfl, .inl ⟨hzero, rfl, rfl⟩⟩
    · next hzero =>
      cases h
      simp only [Fmt.eb, Fmt.fb] at hmax hzero
      exact ⟨rfl, .inr ⟨by omega, by omega, rfl, rfl⟩⟩

/-- FP32 holds each of its finite numbers other than zero, whose magnitude bits are its lower 31. -/
theorem fp32_holds_read {a m : Nat} {n : Bool} {e : Int} (h : Fmt.fp32.read a = .fin n m e) (hm : m ≠ 0) :
    Fmt.fp32.Holds m e ∧ Fmt.fp32.magOf m e = (a % 2 ^ 31 : Nat) := by
  obtain ⟨-, ⟨hex, rfl, rfl⟩ | ⟨hpos, hmax, rfl, rfl⟩⟩ := fp32_read_fin h
  · have hmag : Fmt.fp32.magOf (a % 2 ^ 23) (-149) = (a % 2 ^ 31 : Nat) := by
      rw [Fmt.magOf, if_pos (by simp only [Fmt.fb]; omega)]
      omega
    refine ⟨⟨hm, ?_, ?_, .inr rfl, ?_⟩, hmag⟩
    · simp only [Fmt.fb]; omega
    · decide
    · rw [hmag, Fmt.largest]; omega
  · have hmag : Fmt.fp32.magOf (a % 2 ^ 23 + 2 ^ 23) (-149 + (a / 2 ^ 23 % 2 ^ 8 - 1 : Nat)) = (a % 2 ^ 31 : Nat) := by
      rw [Fmt.magOf, if_neg (by simp only [Fmt.fb]; omega)]
      simp only [Fmt.fb, Fmt.emin, Fmt.bias]
      omega
    refine ⟨⟨hm, ?_, ?_, .inl ?_, ?_⟩, hmag⟩
    · simp only [Fmt.fb]; omega
    · simp only [Fmt.fb, Fmt.emin, Fmt.bias]; omega
    · simp only [Fmt.fb]; omega
    · rw [hmag, Fmt.largest]; omega

/-- A finite FP32 number read and put back is itself, and raises no flag. -/
theorem fp32_put_read {a m : Nat} {n : Bool} {e : Int} (ha : a < 2 ^ 32) (h : Fmt.fp32.read a = .fin n m e) {v : Env}
    (hz : v.fz = false) (conv : Bool) : Fmt.fp32.put v conv (.fin n m e false) = (a, 0) := by
  obtain ⟨rfl, hcases⟩ := fp32_read_fin h
  have hsigned : Fmt.fp32.signed (decide (2 ^ 31 ≤ a % 2 ^ 32)) (a % 2 ^ 31) = a := by
    simp only [Fmt.signed, Fmt.sign, Fmt.eb, Fmt.fb, decide_eq_true_eq]
    split <;> omega
  rw [Fmt.put]
  by_cases hm : m = 0
  · have hmag : a % 2 ^ 31 = 0 := by omega
    subst hm
    rw [round_zero, ← hmag, hsigned]
  · obtain ⟨hh, hmag⟩ := fp32_holds_read h hm
    rw [hh.round hz, hmag, Int.toNat_natCast, hsigned]

/-! Opposites -/

/-- A number other than zero and its opposite add to a zero, negative under RDN alone (R111). -/
theorem addX_neg {m : Nat} (hm : m ≠ 0) (rm : Rm) (n : Bool) (e : Int) :
    addX rm (.fin n m e) (FVal.neg (.fin n m e)) = .fin (decide (rm = .rdn)) 0 0 false := by
  have hzero : scaled n m e (min e e) + scaled (!n) m e (min e e) = 0 := by
    cases n
    · exact Int.add_right_neg _
    · exact Int.add_left_neg _
  simp only [FVal.neg, addX, addFin, hzero, if_true, hm, false_and, if_false]

/-! NaN operands (R113) -/

theorem exists_nan {a : FVal} (h : a.isNan = true) : ∃ s, a = .nan s := by
  cases a with
  | nan s => exact ⟨s, rfl⟩
  | inf n => cases h
  | fin n m e => cases h

theorem addX_nan {a b : FVal} (h : a.isNan = true ∨ b.isNan = true) (rm : Rm) : ∃ fl, addX rm a b = .nan fl := by
  rcases h with h | h <;> obtain ⟨s, rfl⟩ := exists_nan h
  · cases b <;> exact ⟨_, rfl⟩
  · cases a <;> exact ⟨_, rfl⟩

theorem divX_nan {a b : FVal} (h : a.isNan = true ∨ b.isNan = true) : ∃ fl, divX a b = .nan fl := by
  rcases h with h | h <;> obtain ⟨s, rfl⟩ := exists_nan h
  · cases b <;> exact ⟨_, rfl⟩
  · cases a <;> exact ⟨_, rfl⟩

/-- Of the comparisons with a NaN, `ne` and `un` alone are true (R178). -/
theorem fcmpLane_nan {f : Fmt} {v : Env} {a b : Nat} (h : (f.operand v a).isNan = true ∨ (f.operand v b).isNan = true)
    (c : Cond) : (fcmpLane f v c a b).1 = decide (c = .ne ∨ c = .un) := by
  unfold fcmpLane
  dsimp only
  rw [if_pos (by simpa using h)]
  cases c <;> rfl

/-- Settles O22: what FP32 holds is put back, opposites add to an exact zero, and a NaN decides sums, quotients and comparisons. -/
theorem floatEdges : Obligations.FloatEdges := by
  unfold Obligations.FloatEdges
  refine ⟨fun v a n m e ha hz hd h => ?_, fun v a n m e _ h hm => ?_, fun v a b h => ⟨?_, ?_, fun c hne hun => ?_, ?_, ?_⟩⟩
  · rw [operand_of_not_daz hd] at h ⊢
    rw [h]
    exact fp32_put_read ha h hz false
  · rw [h, addX_neg hm, Fmt.put, round_zero]
    by_cases hr : v.rm = .rdn <;> simp [hr, Fmt.signed, Fmt.sign, Fmt.eb, Fmt.fb]
  · obtain ⟨fl, hfl⟩ := addX_nan h v.rm
    rw [hfl]
    rfl
  · obtain ⟨fl, hfl⟩ := divX_nan h
    rw [hfl]
    rfl
  · simp [fcmpLane_nan h, hne, hun]
  · rw [fcmpLane_nan h]; rfl
  · rw [fcmpLane_nan h]; rfl

end Sys2Proof.Machine
end

section
/-! SUPPORT and proofs. The combination tree of `RED` and `SCAN` (R124, R241, R243): the partials of a stream are its elements in
runs of falling powers of two, each with the value of its own tree. -/

namespace Sys2Proof.Machine

/-! The fixed tree -/

/-- The value of the tree over some words (R124). -/
def treeOver (f : Word → Word → Word) (xs : List Word) : Word := treeFold f xs.length xs

section
variable (f : Word → Word → Word)

/-- The number of elements is fuel enough. -/
theorem treeFold_fuel {m n : Nat} {xs : List Word} (hm : xs.length ≤ m) (hn : xs.length ≤ n) :
    treeFold f m xs = treeFold f n xs := by
  induction m generalizing n xs with
  | zero =>
    obtain rfl := List.length_eq_zero_iff.mp (Nat.le_zero.mp hm)
    cases n <;> rfl
  | succ m ih =>
    cases n with
    | zero =>
      obtain rfl := List.length_eq_zero_iff.mp (Nat.le_zero.mp hn)
      rfl
    | succ n =>
      unfold treeFold
      split
      · rfl
      · next hlen =>
        have hsplit : 2 ^ Nat.log2 (xs.length - 1) ≤ xs.length - 1 := Nat.log2_self_le (by omega)
        have hpos := Nat.two_pow_pos (Nat.log2 (xs.length - 1))
        rw [ih (n := n) (xs := xs.take _) (by rw [List.length_take]; omega) (by rw [List.length_take]; omega),
          ih (n := n) (xs := xs.drop _) (by rw [List.length_drop]; omega) (by rw [List.length_drop]; omega)]

/-- The left part of a tree is the largest power of two of elements below their number. -/
theorem treeOver_append {xs ys : List Word} {k : Nat} (hx : xs.length = 2 ^ k) (hy : ys ≠ []) (hle : ys.length ≤ 2 ^ k) :
    treeOver f (xs ++ ys) = f (treeOver f xs) (treeOver f ys) := by
  have hpos := Nat.two_pow_pos k
  have hypos := List.length_pos_iff.mpr hy
  obtain ⟨n, hn⟩ : ∃ n, (xs ++ ys).length = n + 1 := ⟨(xs ++ ys).length - 1, by rw [List.length_append]; omega⟩
  have hlog : Nat.log2 ((xs ++ ys).length - 1) = k := by
    rw [Nat.log2_eq_iff (by rw [List.length_append]; omega), List.length_append, Nat.pow_succ]
    omega
  have hlen : ¬ (xs ++ ys).length ≤ 1 := by rw [List.length_append]; omega
  rw [List.length_append] at hn
  calc treeOver f (xs ++ ys)
      = f (treeFold f n ((xs ++ ys).take (2 ^ k))) (treeFold f n ((xs ++ ys).drop (2 ^ k))) := by
        rw [treeOver, List.length_append, hn, treeFold, if_neg hlen, hlog]
    _ = f (treeFold f n xs) (treeFold f n ys) := by rw [← hx, List.take_left, List.drop_left]
    _ = f (treeOver f xs) (treeOver f ys) := by
        rw [treeFold_fuel f (m := n) (xs := xs) (by omega) (Nat.le_refl _),
          treeFold_fuel f (m := n) (xs := ys) (by omega) (Nat.le_refl _)]; rfl

end

/-! Partials -/

/-- The operator on words, lane by lane (R241). -/
def wordOp (op : Opr) (t : Ty) (v : Env) (a b : Word) : Word := (mapF t fun k => oprLane op t v (lane t a k) (lane t b k)).1

/-- The partials of some elements, latest first: runs of rising powers of two from 2^k on, each with the value of its tree. -/
inductive Runs (f : Word → Word → Word) : Nat → List Partial → List Word → Prop where
  | nil (k : Nat) : Runs f k [] []
  | cons {k j : Nat} {r : List Partial} {xs ys : List Word} (hk : k ≤ j) (hy : ys.length = 2 ^ j)
    (hr : Runs f (j + 1) r xs) : Runs f k (⟨2 ^ j, some (treeOver f ys)⟩ :: r) (xs ++ ys)

theorem Runs.mono {f : Word → Word → Word} {k j : Nat} {l : List Partial} {xs : List Word} (h : Runs f k l xs) (hj : j ≤ k) :
    Runs f j l xs := by
  cases h with
  | nil => exact .nil j
  | cons hk hy hr => exact .cons (by omega) hy hr

theorem Runs.ne_nil {f : Word → Word → Word} {k : Nat} {l : List Partial} {xs : List Word} (h : Runs f k l xs)
    (hx : xs ≠ []) : l ≠ [] := by
  cases h with
  | nil => exact absurd rfl hx
  | cons => exact List.cons_ne_nil _ _

theorem covered_cons (p : Partial) (r : List Partial) : covered (p :: r) = p.size + covered r := by
  have hsum : ∀ (l : List Partial) (n : Nat), l.foldl (fun n p => n + p.size) n = n + covered l := by
    intro l
    induction l with
    | nil => exact fun n => rfl
    | cons q l ih =>
      intro n
      rw [covered, List.foldl_cons, List.foldl_cons, ih, ih]
      omega
  rw [covered, List.foldl_cons, hsum, Nat.zero_add]

/-- The partials cover the elements. -/
theorem Runs.covered {f : Word → Word → Word} {k : Nat} {l : List Partial} {xs : List Word} (h : Runs f k l xs) :
    covered l = xs.length := by
  induction h with
  | nil => rfl
  | cons hk hy hr ih => rw [covered_cons, ih, List.length_append, hy, Nat.add_comm]

section
variable {op : Opr} {t : Ty} {v : Env}

/-- Two runs, the earlier of a power of two of elements and the later no longer, combine to the run of both (R124). -/
theorem combineOpt_treeOver {xs ys : List Word} {k : Nat} (hx : xs.length = 2 ^ k) (hy : ys ≠ []) (hle : ys.length ≤ 2 ^ k) :
    (combineOpt op t v (some (treeOver (wordOp op t v) xs)) (some (treeOver (wordOp op t v) ys))).1 =
      some (treeOver (wordOp op t v) (xs ++ ys)) := by
  rw [treeOver_append _ hx hy hle]
  rfl

/-- The next run joins the partials of its elements. -/
theorem Runs.pushPartial {l : List Partial} {k : Nat} {xs ys : List Word} (h : Runs (wordOp op t v) k l xs)
    (hy : ys.length = 2 ^ k) :
    Runs (wordOp op t v) k (pushPartial op t v (2 ^ k) (some (treeOver (wordOp op t v) ys)) l).1 (xs ++ ys) := by
  induction h generalizing ys with
  | nil k => exact .cons (Nat.le_refl k) hy (.nil _)
  | @cons k j r xs zs hk hz hr ih =>
    unfold Machine.pushPartial
    dsimp only
    split
    · next hsize =>
      obtain rfl : j = k := Nat.pow_right_inj (Nat.le_refl 2) |>.mp hsize
      have hne : ys ≠ [] := List.ne_nil_of_length_pos (by rw [hy]; exact Nat.two_pow_pos j)
      have htwice : 2 ^ (j + 1) = 2 ^ j + 2 ^ j := by rw [Nat.pow_succ]; omega
      rw [combineOpt_treeOver hz hne (Nat.le_of_eq hy), ← htwice, List.append_assoc]
      exact (ih (by rw [List.length_append, hz, hy, htwice])).mono (Nat.le_succ j)
    · next hsize =>
      have hlt : k < j := Nat.lt_of_le_of_ne hk fun h => hsize (by rw [h])
      exact .cons (Nat.le_refl k) hy (.cons hlt hz hr)

/-- The value over the partials is that of the tree over their elements and a shorter last run. -/
theorem Runs.treeOf {l : List Partial} {k : Nat} {xs ys : List Word} (h : Runs (wordOp op t v) k l xs) (hy : ys ≠ [])
    (hle : ys.length ≤ 2 ^ k) (fl : Nat) :
    (treeOf op t v (some (treeOver (wordOp op t v) ys)) fl l).1 = some (treeOver (wordOp op t v) (xs ++ ys)) := by
  induction h generalizing ys fl with
  | nil k => rfl
  | @cons k j r xs zs hk hz hr ih =>
    have hle' : ys.length ≤ 2 ^ j := Nat.le_trans hle (Nat.pow_le_pow_right (by omega) hk)
    rw [Machine.treeOf, combineOpt_treeOver hz hy hle', List.append_assoc]
    exact ih (by simp [hy]) (by rw [List.length_append, hz, Nat.pow_succ]; omega) _

/-- The value of a stream is that of the tree over its elements. -/
theorem Runs.redValue {l : List Partial} {xs : List Word} (h : Runs (wordOp op t v) 0 l xs) (hx : xs ≠ []) (tag : Nat)
    (empty : Bool) : (redValue op t v ⟨tag, l, empty⟩).1 = some (treeOver (wordOp op t v) xs) := by
  cases h with
  | nil => exact absurd rfl hx
  | @cons _ j r xs ys hk hy hr =>
    have hpos := Nat.two_pow_pos j
    exact hr.treeOf (List.ne_nil_of_length_pos (by omega)) (by rw [hy, Nat.pow_succ]; omega) 0

/-! Streams -/

/-- No element is absent where the partials cover all up to the index. -/
theorem padTo_covered {l : List Partial} {n : Nat} (h : covered l = n) (fuel : Nat) : padTo op t v n fuel l = (l, 0) := by
  cases fuel with
  | zero => rfl
  | succ fuel => rw [padTo, if_neg (by omega)]

/-- The streams in progress with one stream alone, which is there once it has a partial. -/
def oneStream (tag : Nat) : List Partial → List RedSt
  | [] => []
  | l => [⟨tag, l, false⟩]

theorem oneStream_ne {l : List Partial} (h : l ≠ []) (tag : Nat) : oneStream tag l = [⟨tag, l, false⟩] := by
  cases l with
  | nil => exact absurd rfl h
  | cons p r => rfl

/-- An element of the stream, next after those that its partials cover. -/
theorem redStep_next {tag : Nat} {l : List Partial} {n : Nat} (h : covered l = n) (w : Word) (last : Bool) (x : Vals) :
    (redStep op t v ⟨tag, n, last, x⟩ (some w, false) (oneStream tag l)).1 =
      ⟨tag, (Machine.pushPartial op t v 1 (some w) l).1, false⟩ := by
  cases l <;> simp [redStep, oneStream, padTo_covered h]

/-- The stream that goes on takes the place of its former state. -/
theorem redKeep_oneStream (tag : Nat) (l m : List Partial) :
    (redKeep (oneStream tag l) ⟨tag, m, false⟩ false).reds = [⟨tag, m, false⟩] := by
  cases l <;> simp [redKeep, oneStream, Ext.reds]

/-- The state of a stream's unit after an element (R124). -/
def afterElem (op : Opr) (t : Ty) (v : Env) (tag : Nat) (o : Ext) (x : Word × Nat) : Ext :=
  redKeep o.reds (redStep op t v ⟨tag, x.2, false, ⟨0, 0, 0⟩⟩ (some x.1, false) o.reds).1 false

/-- After further elements of a stream its partials are runs of them all. -/
theorem runs_of_elements {tag : Nat} {l : List Partial} {xs : List Word} {o : Ext} (h : Runs (wordOp op t v) 0 l xs)
    (ho : o.reds = oneStream tag l) (ys : List Word) : ∃ m, Runs (wordOp op t v) 0 m (xs ++ ys) ∧
      ((ys.zipIdx xs.length).foldl (afterElem op t v tag) o).reds = oneStream tag m := by
  induction ys generalizing l xs o with
  | nil => exact ⟨l, by rw [List.append_nil]; exact h, ho⟩
  | cons w ys ih =>
    have hpush : Runs (wordOp op t v) 0 (Machine.pushPartial op t v 1 (some w) l).1 (xs ++ [w]) :=
      h.pushPartial (ys := [w]) rfl
    have hne : xs ++ [w] ≠ [] := List.append_ne_nil_of_right_ne_nil xs (List.cons_ne_nil w [])
    have hafter : (afterElem op t v tag o (w, xs.length)).reds =
        oneStream tag (Machine.pushPartial op t v 1 (some w) l).1 := by
      rw [afterElem, ho, redStep_next h.covered, redKeep_oneStream, oneStream_ne (hpush.ne_nil hne)]
    obtain ⟨m, hruns, hreds⟩ := ih hpush hafter
    rw [List.length_append] at hreds
    exact ⟨m, by rw [List.append_cons]; exact hruns, hreds⟩

/-- A stream's elements stand as the runs of its partials. -/
theorem runs_of_stream (tag : Nat) (xs : List Word) : ∃ l, Runs (wordOp op t v) 0 l xs ∧
    (xs.zipIdx.foldl (afterElem op t v tag) (.red [])).reds = oneStream tag l :=
  runs_of_elements (l := []) (xs := []) (.nil 0) rfl xs

end

/-- Settles O31, by induction on the elements: the partials are runs of the elements, and `redValue` joins them. -/
theorem reductionTree : Obligations.ReductionTree := by
  unfold Obligations.ReductionTree
  intro op t v tag xs hx
  obtain ⟨l, hruns, hreds⟩ := runs_of_stream (op := op) (t := t) (v := v) tag xs
  exact ⟨⟨tag, l, false⟩, hreds.trans (oneStream_ne (hruns.ne_nil hx) tag), rfl, hruns.redValue hx tag false⟩

end Sys2Proof.Machine
end

section
/-! SUPPORT and proofs. Matrix operations (R119–R122, R354, R355, R391): the cells of a pass, and the steps of an operation. -/

namespace Sys2Proof.Machine

/-! Columns of a pass -/

/-- One column of a pass: its product sum is added to the cell, and its MXSTAT bits are noted (R121). -/
def Mx.passCol (row : Nat) (xs : List FVal) (u : Mx) (n : Nat) : Mx :=
  { u with
    acc := Table.set 0 u.acc (256 * row + n) (passCell (u.cell row n) (dotOf xs (u.active.column n))).1
    stat := u.stat ||| (passCell (u.cell row n) (dotOf xs (u.active.column n))).2 }

/-- The first `k` columns of a pass. -/
def Mx.passCols (row : Nat) (xs : List FVal) (u : Mx) (k : Nat) : Mx := (List.range k).foldl (Mx.passCol row xs) u

/-- A pass is its N columns in order. -/
theorem passRow_eq_passCols (u : Mx) (row : Nat) (xs : List FVal) : u.passRow row xs = u.passCols row xs u.active.n := rfl

section
variable (u : Mx) (row : Nat) (xs : List FVal)

theorem passCols_succ (k : Nat) : u.passCols row xs (k + 1) = (u.passCols row xs k).passCol row xs k := by
  simp [Mx.passCols, List.range_succ]

@[simp] theorem passCols_active (k : Nat) : (u.passCols row xs k).active = u.active := by
  induction k with
  | zero => rfl
  | succ k ih => rw [passCols_succ]; exact ih

@[simp] theorem passCols_shadow (k : Nat) : (u.passCols row xs k).shadow = u.shadow := by
  induction k with
  | zero => rfl
  | succ k ih => rw [passCols_succ]; exact ih

theorem cell_passCol_same (n : Nat) :
    (u.passCol row xs n).cell row n = (passCell (u.cell row n) (dotOf xs (u.active.column n))).1 :=
  table_get_set_same _ _ _ _

theorem cell_passCol_other {r m n : Nat} (hm : m < 256) (hn : n < 256) (h : r ≠ row ∨ m ≠ n) :
    (u.passCol row xs n).cell r m = u.cell r m :=
  table_get_set_other _ _ (by omega) _

/-- The first `k` columns leave the cells of other rows and of later columns. -/
theorem cell_passCols_other {r m k : Nat} (hm : m < 256) (hk : k ≤ 256) (h : r ≠ row ∨ k ≤ m) :
    (u.passCols row xs k).cell r m = u.cell r m := by
  induction k with
  | zero => rfl
  | succ k ih =>
    rw [passCols_succ, cell_passCol_other _ _ _ hm (by omega) (by omega)]
    exact ih (by omega) (by omega)

/-- Each of the first `k` columns adds its product sum to the cell as the pass found it. -/
theorem cell_passCols_same {n k : Nat} (hn : n < k) (hk : k ≤ 256) :
    (u.passCols row xs k).cell row n = (passCell (u.cell row n) (dotOf xs (u.active.column n))).1 := by
  induction k with
  | zero => exact absurd hn (by omega)
  | succ k ih =>
    rw [passCols_succ]
    by_cases h : n = k
    · subst h
      rw [cell_passCol_same, passCols_active, cell_passCols_other _ _ _ (by omega) (by omega) (.inr (Nat.le_refl _))]
    · rw [cell_passCol_other _ _ _ (by omega) (by omega) (.inr h)]
      exact ih (by omega) (by omega)

end

/-- Settles O56, by induction on the number of columns done. -/
theorem matrixPass : Obligations.MatrixPass := by
  unfold Obligations.MatrixPass
  intro u row xs hN
  rw [passRow_eq_passCols]
  exact ⟨fun n hn => cell_passCols_same u row xs hn hN, fun r n hn h => cell_passCols_other u row xs hn hN h,
    passCols_active u row xs _, passCols_shadow u row xs _⟩

/-! Accesses of a unit of work (R278, R348) -/

theorem pull_made {v w : State} {n u k : Nat} {o : Op} {ps : List Span} {bs : List Byte}
    (h : firstIo (fun s p => s.spanRead o p) v (o.toRead u ps) = (k, .ok w bs)) (go : List Byte → State) :
    v.pull n u o ps go = w.noteRead n u o k bs := by
  unfold State.pull
  split
  · next hnone => rw [hnone] at h; cases h
  · rw [h]; rfl

theorem pull_all {v : State} {n u : Nat} {o : Op} {ps : List Span} (h : o.toRead u ps = []) (go : List Byte → State) :
    v.pull n u o ps go = go (o.bytesRead u ps.length) := by
  simp [State.pull, h]

theorem push_made {v w : State} {n u k : Nat} {o : Op} {ws : List (Span × List Byte)} {cs : List Byte}
    (h : firstIo (fun s w => s.spanWrite o w.1 w.2) v (o.toWrite u ws) = (k, .ok w cs)) (fin : State → State) :
    v.push n u o ws fin = if (o.prog u).wrote.length + 1 = ws.length then fin (w.noteWrite n u o k) else w.noteWrite n u o k := by
  unfold State.push
  split
  · next hnone => rw [hnone] at h; cases h
  · rw [h]; rfl

theorem push_all {v : State} {n u : Nat} {o : Op} {ws : List (Span × List Byte)} (h : o.toWrite u ws = [])
    (fin : State → State) : v.push n u o ws fin = fin v := by
  simp [State.push, h]

/-- An event that pulls makes one of the reading accesses. -/
theorem readsThen_of_pull {i : Instr} {s v : State} {n u : Nat} {o : Op} {ps : List Span} {go : List Byte → State}
    (h : exec i s = .next (v.pull n u o ps go)) : readsThen i s v n u o ps go :=
  ⟨fun _ _ _ hk => by rw [h, pull_made hk], fun hk => by rw [h, pull_all hk]⟩

/-- An event that pushes makes one of the writing accesses. -/
theorem writesThen_of_push {i : Instr} {s v : State} {n u : Nat} {o : Op} {ws : List (Span × List Byte)}
    {fin : State → State} (h : exec i s = .next (v.push n u o ws fin)) : writesThen i s v n u o ws fin :=
  ⟨fun _ _ _ hk => by rw [h, push_made hk], fun hk => by rw [h, push_all hk]⟩

/-! Steps of matrix operations -/

/-- The formats and shapes of a unit's planes, as the checks of R354 take them. -/
def Mx.planes (u : Mx) : Planes := ⟨(u.active.fmt, u.active.k, u.active.n), (u.shadow.fmt, u.shadow.k, u.shadow.n)⟩

/-- A change at a position counts by what it does to the entry that stands there. -/
theorem modAt_congr {α : Type} {l : List α} {n : Nat} {a : α} {f g : α → α} (ha : l[n]? = some a) (h : f a = g a) :
    modAt l n f = modAt l n g := by
  induction l generalizing n with
  | nil => rfl
  | cons b l ih =>
    cases n with
    | zero =>
      cases ha
      exact congrArg (· :: l) h
    | succ n => exact congrArg (b :: ·) (ih ha)

theorem modOp_congr {s : State} {n : Nat} {o : Op} {f g : Op → Op} (ho : s.op? n = some o) (h : f o = g o) :
    s.modOp n f = s.modOp n g := by
  unfold State.modOp
  rw [modAt_congr ho h]

/-- An operation that notes the status of its unit differs in that alone. -/
theorem op?_noteStat {s : State} {n : Nat} {o : Op} (ho : s.op? n = some o) (core : Nat) :
    (s.noteStat n core).op? n = some { o with mxstat := (s.unit core).stat } :=
  (modAt_get_same _ _ _).trans (congrArg _ ho)

section
variable {s : State} {n oper : Nat} {o : Op} (ho : s.op? n = some o) (hi : o.inbox / 128 = 1) (hs : o.stage ≠ .ended)
  (ha : s.opAlone n o = true) (hp : operOf (o.words.getD 0 0) = oper)
include ho hi hs ha hp

/-- A matrix operation whose tiles fit the planes starts with its rows left (R354). -/
theorem matrixStep_starts {rows : State → Op → Nat} (act : State → Op → Nat → (State → State) → State)
    (hr : ∀ v x, rows v { o with mxstat := x } = rows v o) (hl : o.left = [])
    (hc : matrixCheck (s.unit (o.inbox - 128)).planes
      (fun t => s.tile (128 * (o.inbox - 128) + 16 * (o.words.getD 0 0).field 8 6 + t)) o.words = none) :
    s.matrixStep n oper rows act =
      (s.noteStat n (o.inbox - 128)).modOp n fun p =>
        { p with stage := .active, left := [(0, rows (s.noteStat n (o.inbox - 128)) o)] } := by
  simp only [State.matrixStep, ho, hi, hs, ha, hp, hl, ne_eq, not_true, Bool.not_true, Bool.false_eq_true, or_self, if_false]
  split
  · next c hcheck => cases hc.symm.trans hcheck
  · refine modOp_congr (op?_noteStat ho _) ?_
    rw [hr]

/-- A matrix operation under way does its row. -/
theorem matrixStep_row (rows : State → Op → Nat) (act : State → Op → Nat → (State → State) → State) {r m : Nat}
    {l : List (Nat × Nat)} (hl : o.left = (r, m) :: l) :
    s.matrixStep n oper rows act =
      act (s.noteStat n (o.inbox - 128)) o r (State.rowDone n (o.inbox - 128) r m) := by
  simp only [State.matrixStep, ho, hi, hs, ha, hp, hl, ne_eq, not_true, Bool.not_true, Bool.false_eq_true, or_self, if_false]

end

/-- An event that reads out a row reads its destination's scale bytes, and then writes its row (R122). -/
theorem readsOut_of_readoutAct {i : Instr} {s v : State} {n r : Nat} {o : Op} {fin : State → State}
    (h : exec i s = .next (readoutAct n v o r fin)) :
    let k := o.mxTile 7 4
    let d := v.tile k
    (∀ j w bs, firstIo (fun s p => s.spanRead o p) v (o.toRead 1 (d.scaleSpans k)) = (j, .ok w bs) →
      exec i s = .next (w.noteRead n 1 o j bs)) ∧
    (o.toRead 1 (d.scaleSpans k) = [] →
      writesThen i s v n 0 o (splitOver (d.rowSpans k r) (readoutRow d o.env
        ((o.bytesRead 1 (d.scaleSpans k).length).drop (d.cols / 32 * r))
        ((List.range d.cols).map fun c => (v.unit (o.inbox - 128)).cell (o.num 2 + r) c))) fin) := by
  simp only [readoutAct] at h
  obtain ⟨hread, hall⟩ := readsThen_of_pull h
  exact ⟨hread, fun hs => writesThen_of_push (hall hs)⟩

theorem exec_ldwOp (n : Nat) (s : State) : exec (.ldwOp n) s = .next (s.matrixStep n 0x10 (fun _ _ => 1) fun s o _ fin =>
    s.pull n 0 o ((s.tile (o.mxTile 3 0)).allSpans (o.mxTile 3 0)) fun bs =>
      fin (s.setUnit (o.inbox - 128) { s.unit (o.inbox - 128) with
        shadow := planeOf (s.tile (o.mxTile 3 0))
          (rowsOf (rowLen (s.tile (o.mxTile 3 0)).fmt (s.tile (o.mxTile 3 0)).cols) (s.tile (o.mxTile 3 0)).rows bs) })) :=
  rfl

theorem exec_swapwOp (n : Nat) (s : State) :
    exec (.swapwOp n) s = .next (s.unitOp n 0x11 fun _ u => { u with active := u.shadow, shadow := u.active }) := rfl

theorem exec_mmaOp (n : Nat) (s : State) : exec (.mmaOp n) s = .next (s.matrixStep n 0x12 (mxRows 3 0) (passAct n)) := rfl

theorem exec_accrdOp (n : Nat) (s : State) :
    exec (.accrdOp n) s = .next (s.matrixStep n 0x13 (mxRows 7 4) (readoutAct n)) := rfl

theorem exec_acczOp (n : Nat) (s : State) : exec (.acczOp n) s = .next (s.unitOp n 0x14 fun o u =>
    { u with
      acc := Table.clear u.acc (256 * o.num 2) (256 * o.num 2 + 256 * o.num 3)
      stat := if (o.words.getD 4 0).bit 0 then 0 else u.stat }) := rfl

/-- `MMAW` passes the rows of its activation tile, and then reads out as many (R355). -/
def mmawAct (n : Nat) (s : State) (o : Op) (r : Nat) (fin : State → State) : State :=
  if r < mxRows 3 0 s o then passAct n s o r fun t => fin (if r + 1 = mxRows 3 0 s o then t.releaseRead n else t)
  else readoutAct n s o (r - mxRows 3 0 s o) fin

theorem exec_mmawOp (n : Nat) (s : State) :
    exec (.mmawOp n) s = .next (s.matrixStep n 0x15 (fun s o => 2 * mxRows 3 0 s o) (mmawAct n)) := rfl

/-- Settles O55: each row of the opcode table is a `matrixStep`, which starts or does its next row. -/
theorem matrixComplete : Obligations.MatrixComplete := by
  unfold Obligations.MatrixComplete
  intro s n o ho hi hs ha core v u oper a d p rows
  refine ⟨fun hl hc e he hoper => ?_, fun r m l hl => ?_⟩
  · have hstart : ∀ {k : Nat} {f : State → Op → Nat} {act}, oper = k → (∀ v x, f v { o with mxstat := x } = f v o) →
        Host.Outcome.next (φ := Fault) (ρ := Refusal) (s.matrixStep n k f act) =
          .next (v.modOp n fun p => { p with stage := .active, left := [(0, f v o)] }) :=
      fun hk hf => congrArg _ (matrixStep_starts ho hi hs ha hk _ hf hl hc)
    simp only [rows, List.mem_cons, List.not_mem_nil, or_false] at he
    rcases he with rfl | rfl | rfl | rfl | rfl | rfl
    · exact (exec_ldwOp n s).trans (hstart hoper fun _ _ => rfl)
    · exact (exec_swapwOp n s).trans (hstart hoper fun _ _ => rfl)
    · exact (exec_mmaOp n s).trans (hstart hoper fun _ _ => rfl)
    · exact (exec_accrdOp n s).trans (hstart hoper fun _ _ => rfl)
    · exact (exec_acczOp n s).trans (hstart hoper fun _ _ => rfl)
    · exact (exec_mmawOp n s).trans (hstart hoper fun _ _ => rfl)
  · have hrow : ∀ {k : Nat} {f act}, oper = k → Host.Outcome.next (φ := Fault) (ρ := Refusal) (s.matrixStep n k f act) =
        .next (act v o r (State.rowDone n core r m)) :=
      fun hk => congrArg _ (matrixStep_row ho hi hs ha hk _ _ hl)
    refine ⟨fun hoper => ?_, fun hoper => ?_, fun hoper => ?_, fun hoper => ?_, fun hoper => ?_, fun hoper => ?_⟩
    · exact readsThen_of_pull ((exec_ldwOp n s).trans (hrow hoper))
    · exact (exec_swapwOp n s).trans (hrow hoper)
    · exact readsThen_of_pull ((exec_mmaOp n s).trans (hrow hoper))
    · exact readsOut_of_readoutAct ((exec_accrdOp n s).trans (hrow hoper))
    · exact (exec_acczOp n s).trans (hrow hoper)
    · have hw := (exec_mmawOp n s).trans (hrow hoper)
      refine ⟨fun hr => readsThen_of_pull (hw.trans ?_), fun hr => readsOut_of_readoutAct (hw.trans ?_)⟩
      · exact congrArg _ (if_pos hr)
      · exact congrArg _ (if_neg (Nat.not_lt.mpr hr))

end Sys2Proof.Machine
end

section
/-! SUPPORT and proofs. Start-fired, copying, joining and indexing instructions (R130–R136, R142, R155, R245, R246), and what
sending the held outputs of a station leaves as it is. -/

namespace Sys2Proof.Machine

/-! What sending leaves as it is -/

/-- A strand whose running block is changed. -/
theorem strand?_modInst_same (s : State) (st : SRef) (f : Inst → Inst) :
    (s.modInst st f).strand? st = (s.strand? st).map fun t => { t with inst := t.inst.map f } :=
  strand?_modStrand_same ..

/-- Sending writes no register (R41). -/
theorem sreg_drain (s : State) (st : SRef) (i r : Nat) : (s.drain st i).sreg st r = s.sreg st r := by
  unfold State.sreg State.drain
  rw [strand?_modInst_same]
  cases s.strand? st <;> rfl

/-- Steps that keep `fpc`, one after another. -/
theorem fpc_foldl {α : Type} {f : Inst → α → Inst} (hf : ∀ y a, (f y a).fpc = y.fpc) (l : List α) (x : Inst) :
    (l.foldl f x).fpc = x.fpc := by
  induction l generalizing x with
  | nil => rfl
  | cons a l ih => exact (ih (f x a)).trans (hf x a)

@[simp] theorem fpc_deliverTok (x : Inst) (seq i : Nat) (tk : Tok) (t : Nat) : (x.deliverTok seq i tk t).fpc = x.fpc := by
  unfold Inst.deliverTok
  split
  · rfl
  · dsimp only
    split
    · rfl
    · split
      · rfl
      · split <;> rfl

@[simp] theorem fpc_deliverSwitch (x : Inst) (i gen t : Nat) : (x.deliverSwitch i gen t).fpc = x.fpc := by
  unfold Inst.deliverSwitch
  split
  · rfl
  · split
    · rfl
    · split <;> rfl

@[simp] theorem fpc_deliver (x : Inst) (seq i : Nat) (o : Out) : (x.deliver seq i o).fpc = x.fpc := by
  cases o with
  | tok tk ts => exact fpc_foldl (fun y t => fpc_deliverTok y seq i tk t) ts x
  | switch g ts => exact fpc_foldl (fun y t => fpc_deliverSwitch y i g t) ts x

@[simp] theorem fpc_drainList (x : Inst) (seq i : Nat) (l : List Out) : (x.drainList seq i l).fpc = x.fpc := by
  induction l generalizing x with
  | nil => rfl
  | cons o l ih =>
    unfold Inst.drainList
    split
    · rfl
    · split
      · rw [ih, fpc_deliver]
      · rfl

theorem fpc_injectAnti {x y : Inst} {k : KillImm} {a : Anti} (h : x.injectAnti k a = some y) : y.fpc = x.fpc := by
  unfold Inst.injectAnti at h
  split at h
  · cases h; rfl
  · split at h
    · cases h; rfl
    · split at h
      · cases h; rfl
      · split at h
        · cases h; rfl
        · split at h <;> cases h
          rfl

@[simp] theorem fpc_drainAntis (x : Inst) (i : Nat) (l : List (KillImm × Anti)) : (x.drainAntis i l).fpc = x.fpc := by
  induction l generalizing x with
  | nil => rfl
  | cons e l ih =>
    unfold Inst.drainAntis
    split
    · next y hy => rw [ih, fpc_injectAnti hy]
    · rfl

@[simp] theorem fpc_drain (x : Inst) (seq i : Nat) : (x.drain seq i).fpc = x.fpc := by
  unfold Inst.drain
  split
  · rfl
  · rw [fpc_drainList, fpc_drainAntis]

/-- Sending leaves the captured rounding environment (R49). -/
theorem env_drain (s : State) (st : SRef) (i : Nat) : (s.drain st i).env st = s.env st := by
  unfold State.env State.drain
  rw [inst?_modInst_same]
  cases s.inst? st with
  | none => rfl
  | some x => exact congrArg Env.ofFpc (fpc_drain x s.cycles i)

/-! Start-fired instructions -/

/-- The room of an output is that in the running block. -/
theorem outRoom_of_inst? {s : State} {st : SRef} {i : Nat} {x : Inst} {nd : Node} (hx : s.inst? st = some x)
    (hn : x.nodes[i]? = some nd) (ts : List Nat) (tag idx : Nat) : s.outRoom st i ts tag idx = x.roomFor nd ts tag idx := by
  simp [State.outRoom, hx, hn]

theorem exec_land (h : Hdr) (label : BitVec 16) (s : State) :
    exec (.land h label) s = fireStart (fun _ _ => label.setWidth 64) s := rfl

theorem exec_read (h : Hdr) (r : BitVec 6) (s : State) :
    exec (.read h r) s = fireStart (fun st s => s.sreg st r.toNat) s := rfl

theorem exec_const (h : Hdr) (v : BitVec 21) (s : State) :
    exec (.const h v) s = fireStart (fun _ _ => valOperand h.ty v) s := rfl

theorem exec_kpool (h : Hdr) (k : BitVec 5) (s : State) :
    exec (.kpool h k) s = fireStart (fun st s => s.poolEntry st k.toNat) s := rfl

/-- Settles O23: each is `fireStart`, at a station that holds nothing and so stands as it did once it has sent. -/
theorem startFiredComplete : Obligations.StartFiredComplete := by
  unfold Obligations.StartFiredComplete
  intro s st i h nd x t ha ht hx hn ho hao hf hroom emits
  have hi : s.inst? st = some x := by simp [State.inst?, ht, hx]
  have hd : (s.drain st i).inst? st = some x := inst?_drain_free hi hn ho hao
  have hstart := fireStart_next ha (node?_of_inst? hd hn) hf (by simp [Node.free, ho, hao])
    ((outRoom_of_inst? hd hn _ _ _).trans hroom)
  refine ⟨fun label => ?_, fun r => ?_, fun v => ?_, fun k => ?_⟩
  · rw [exec_land, hstart]
  · have hreg : (s.drain st i).sreg st r.toNat = t.regs.getD r.toNat 0 := by
      rw [sreg_drain]
      simp [State.sreg, ht]
    rw [exec_read, hstart, hreg]
  · rw [exec_const, hstart]
  · have hpool : (s.drain st i).poolEntry st k.toNat = x.block.pool.getD k.toNat 0 := by simp [State.poolEntry, hd]
    rw [exec_kpool, hstart, hpool]

/-! Copying, joining and indexing -/

theorem exec_mov (h : Hdr) (v : BitVec 21) (s : State) :
    exec (.mov h v) s = firePure h [.a] (valOperand h.ty v) 0 (fun _ o => (o.a, 0)) s := rfl

theorem exec_fork (h : Hdr) (tc td : Option Target) (s : State) :
    exec (.fork h tc td) s = firePure h [.a] 0 0 (fun _ o => (o.a, 0)) s := rfl

theorem exec_drop (h : Hdr) (s : State) : exec (.drop h) s = firePure h [.a] 0 0 (fun _ _ => (0, 0)) s := rfl

theorem exec_bcast (h : Hdr) (s : State) :
    exec (.bcast h) s = firePure h [.a] 0 0 (fun _ o => (ofLanes h.ty fun _ => lane h.ty o.a 0, 0)) s := rfl

theorem exec_jand (h : Hdr) (s : State) :
    exec (.jand h false) s = firePure h (joinSlots s) 0 0 (fun _ o =>
      (Word.ofBool (o.a.bit 0 && o.b.bit 0 && (!(joinSlots s).contains .c || o.c.bit 0)), 0)) s := rfl

theorem exec_jor (h : Hdr) (s : State) :
    exec (.jor h false) s = firePure h (joinSlots s) 0 0 (fun _ o =>
      (Word.ofBool (o.a.bit 0 || o.b.bit 0 || ((joinSlots s).contains .c && o.c.bit 0)), 0)) s := rfl

theorem exec_jall (h : Hdr) (s : State) :
    exec (.jall h) s = firePure h (joinSlots s) 0 0 (fun _ o => (o.a, 0)) s := rfl

/-- `IDX` on its operand: each lane from the element index, under the captured environment (R246). -/
theorem exec_idx_goes {s : State} {st : SRef} {i : Nat} {h : Hdr} {r : Ready} (hg : s.goes st i h [.a] 0 0 r) :
    exec (.idx h) s = .next (s.fired st i h [.a] r (mapF h.ty (idxLane (s.env st) h.ty r.idx)).1
      (mapF h.ty (idxLane (s.env st) h.ty r.idx)).2) := by
  have he : exec (.idx h) s = execIdx h s := rfl
  rw [he, execIdx, fireWith_goes hg, ← env_drain s st i]
  rfl

/-- `ITER` on its operand: the full number of its iteration, once the frames are brought up to date (R155). -/
theorem exec_iter_goes {s : State} {st : SRef} {i : Nat} {h : Hdr} {r : Ready} {x : Inst} (hg : s.goes st i h [.a] 0 0 r)
    (hx : ((s.drain st i).settleFrames st).inst? st = some x) :
    exec (.iter h) s = .next (((s.drain st i).consume st i h [.a] r).emitData st i r
      (BitVec.ofNat 64 (match x.frameOf r.tag with
        | some fr => fr.full (r.tag % 4096)
        | none => r.tag % 4096))) := by
  have he : exec (.iter h) s = execIter h s := rfl
  rw [he, execIter, fireWith_goes hg]
  simp only [settleEmpty, hx] <;> rfl

/-- Settles O24: the rows are pure instructions but for `ITER` and `IDX`, whose results depend on the element. -/
theorem moversComplete : Obligations.MoversComplete := by
  unfold Obligations.MoversComplete
  intro s st i h r
  simp only [exec_mov, exec_fork, exec_drop, exec_bcast, exec_jand, exec_jor, exec_jall]
  refine ⟨fun v hg => firePure_goes hg _, fun hg => ⟨fun _ _ => firePure_goes hg _, firePure_goes hg _, firePure_goes hg _,
    exec_idx_goes hg, fun x hx => exec_iter_goes hg hx⟩, fun nd hn hg => ?_⟩
  have hj : joinSlots s = joinData nd := joinSlots_acts hg.1 hn
  rw [hj]
  exact ⟨firePure_goes hg _, firePure_goes hg _, firePure_goes hg _⟩

end Sys2Proof.Machine
end

section
/-! SUPPORT and proofs. Loops (R145–R149). -/

namespace Sys2Proof.Machine

/-! Sets taken -/

/-- What a station that takes a set stands on: it is free, and the set is the first that it can take. -/
theorem takes_sets {s : State} {st : SRef} {i : Nat} {h : Hdr} {data : List Slot} {sl : Slot} {t : Tok}
    {l : List (Slot × Tok)} (hk : s.takes st i h data sl t l) :
    ∃ x nd rest, (s.drain st i).inst? st = some x ∧ (s.drain st i).node? st i = some nd ∧ nd.free = true ∧
      nd.sets (x.waited i (usedSlots h data)) (usedSlots h data) = ((sl, t) :: l) :: rest := by
  obtain ⟨-, hs⟩ := hk
  unfold State.firstSet at hs
  split at hs
  · next x nd hx hn =>
    split at hs
    · next hf =>
      obtain ⟨rest, hr⟩ := List.head?_eq_some_iff.mp hs
      exact ⟨x, nd, rest, hx, hn, hf, hr⟩
    · cases hs
  · cases hs

/-- The first set, once it is done. -/
theorem trySets_done {act : SRef → Nat → List (Slot × Tok) → Ready → State → Eff} {s u : State} {st : SRef} {i : Nat}
    {sl : Slot} {t : Tok} {l : List (Slot × Tok)}
    (he : act st i ((sl, t) :: l) (readyOf ((sl, t) :: l) t) s = .done u) (rest : List (List (Slot × Tok))) :
    trySets act st i [] (((sl, t) :: l) :: rest) s = u := by
  unfold readyOf at he
  simp only [trySets, List.contains_nil, Bool.false_eq_true, if_false, he]

/-- An instruction that takes sets strictly in order, for one that it can take. -/
theorem fireInOrder_takes {s u : State} {st : SRef} {i : Nat} {h : Hdr} {data : List Slot} {sl : Slot} {t : Tok}
    {l : List (Slot × Tok)} (hk : s.takes st i h data sl t l)
    {act : SRef → Nat → List (Slot × Tok) → Ready → State → Eff}
    (he : act st i ((sl, t) :: l) (readyOf ((sl, t) :: l) t) (s.drain st i) = .done u) :
    fireInOrder h data act s = .next u := by
  obtain ⟨x, nd, rest, hx, hn, hf, hr⟩ := takes_sets hk
  rw [fireInOrder, atStation_acts hk.1]
  simp only [hx, hn, hf, if_true, hr, List.take_succ_cons, List.take_zero, trySets_done he]

/-! Entering, going round and leaving -/

/-- An element with data enters a loop whatever the empty policy. -/
theorem entering_data {t : Tok} (ht : t.e = false) (ep : Ep) : entering ep t = some (t.data, false) := by
  simp [entering, ht]

/-- `LOOPIN` on an element whose frame it holds or takes, and whose output has room (R145, R146). -/
theorem exec_loopin_takes {s v : State} {st : SRef} {i f : Nat} {h : Hdr} {sl : Slot} {t : Tok} {l : List (Slot × Tok)}
    (hk : s.takes st i h [.a] sl t l) (ht : tokOf ((sl, t) :: l) .a = some t) (he : t.e = false) {x : LoopImm}
    (hf : ((s.drain st i).settleFrames st).enterFrame st i x t.tag = some (f, v))
    (hroom : v.outRoom st i (v.targets st i) (iterTag f 0) t.idx = true) :
    exec (.loopin h x) s = .next ((v.consume st i h [.a] (readyOf ((sl, t) :: l) t)).emit st i
      ⟨t.data, iterTag f 0, t.idx, (readyOf ((sl, t) :: l) t).l, false⟩) := by
  refine fireRaw_takes hk ?_
  simp [ht, he, entering_data he, readyOf, hf, hroom]

/-- `LOOPOUT` on an element of a held frame, whose output has room (R149). -/
theorem exec_loopout_takes {s : State} {st : SRef} {i : Nat} {h : Hdr} {sl : Slot} {t : Tok} {l : List (Slot × Tok)}
    (hk : s.takes st i h [.a] sl t l) (ht : tokOf ((sl, t) :: l) .a = some t) (he : t.e = false) {y : Inst} {fr : Frame}
    (hy : ((s.drain st i).settleFrames st).inst? st = some y) (hfr : y.frameOf t.tag = some fr)
    (hroom : (s.drain st i).outRoom st i ((s.drain st i).targets st i) fr.outer t.idx = true) (x : LoopImm) :
    exec (.loopout h x) s = .next ((((s.drain st i).consume st i h [.a] (readyOf ((sl, t) :: l) t)).emit st i
      ⟨t.data, fr.outer, t.idx, (readyOf ((sl, t) :: l) t).l, false⟩).settleFrames st) := by
  refine fireInOrder_takes hk ?_
  simp [hy, ht, he, entering_data he, readyOf, hfr, hroom]

/-- `CARRY`, once it has emitted what the window admits, on an element whose copy holds none: one whose continue bit is 1 is kept
for the next iteration (R147). -/
theorem exec_carry_takes {s : State} {st : SRef} {i : Nat} {h : Hdr} {sl : Slot} {t ta tb : Tok} {l : List (Slot × Tok)}
    {nd : Node} (ha : s.acts st i) (hk : ((s.drain st i).carryEmit st i).takes st i h [.a, .b] sl t l)
    (hn : (((s.drain st i).carryEmit st i).drain st i).node? st i = some nd)
    (hta : tokOf ((sl, t) :: l) .a = some ta) (hea : ta.e = false) (htb : tokOf ((sl, t) :: l) .b = some tb)
    (heb : tb.e = false) (hheld : (nd.ext.carries.1.any fun u => u.idx % nd.copies == t.idx % nd.copies) = false)
    (x : LoopImm) :
    exec (.carry h x) s = .next (((((((s.drain st i).carryEmit st i).drain st i).consume st i h [.a, .b]
      (readyOf ((sl, t) :: l) t)).modNode st i fun n => { n with
        ext := .carry (if tb.data.bit 0 then nd.ext.carries.1 ++
            [⟨ta.data, t.tag / 4096 * 4096 + (t.tag + 1) % 4096, t.idx, ta.l, false⟩] else nd.ext.carries.1)
          (carryNote nd.ext.carries.2 t.tag (readyOf ((sl, t) :: l) t).l (tb.data.bit 0)) }).carryEmit st i)) := by
  have he : exec (.carry h x) s = execCarry h x s := rfl
  rw [he, execCarry, atStation_acts ha]
  refine fireRaw_takes hk ?_
  simp only [hn, hta, htb]
  simp only [readyOf, hheld, hea, heb, Bool.false_eq_true, if_false, Bool.or_self, Bool.false_and, Bool.not_false,
    Bool.true_and, Bool.and_true]

/-- Settles O27: each instruction on the set that it takes. -/
theorem loopsComplete : Obligations.LoopsComplete := by
  unfold Obligations.LoopsComplete
  intro s st i h x sl t l
  refine ⟨fun f v hk ht he hf hroom => exec_loopin_takes hk ht he hf hroom,
    fun ta tb nd hk ha hn hta hea htb heb hheld => exec_carry_takes ha hk hn hta hea htb heb hheld x,
    fun y fr hk ht he hy hfr hroom => exec_loopout_takes hk ht he hy hfr hroom x⟩

end Sys2Proof.Machine
end

section
/-! SUPPORT and proofs. `GEN` and `CNT` (R153, R154), and the lanes of a datum (R54). -/

namespace Sys2Proof.Machine

/-! Lanes -/

/-- Packed lanes lie below the next lane's place. -/
theorem packLanes_lt (w : Nat) (f : Nat → Nat) (n : Nat) : packLanes w f n < 2 ^ (w * n) := by
  induction n with
  | zero => simp [packLanes]
  | succ n ih =>
    have hlane : f n % 2 ^ w + 1 ≤ 2 ^ w := Nat.mod_lt _ (Nat.two_pow_pos w)
    calc packLanes w f n + f n % 2 ^ w * 2 ^ (w * n)
        < (f n % 2 ^ w + 1) * 2 ^ (w * n) := by rw [Nat.add_mul]; omega
      _ ≤ 2 ^ w * 2 ^ (w * n) := Nat.mul_le_mul_right _ hlane
      _ = 2 ^ (w * (n + 1)) := by rw [← Nat.pow_add, Nat.mul_add, Nat.mul_one, Nat.add_comm]

/-- A packed lane reads as it was, modulo its width. -/
theorem packLanes_lane (w : Nat) (f : Nat → Nat) {n k : Nat} (hk : k < n) :
    packLanes w f n / 2 ^ (w * k) % 2 ^ w = f k % 2 ^ w := by
  induction n with
  | zero => omega
  | succ n ih =>
    rw [packLanes]
    rcases Nat.lt_or_eq_of_le (Nat.le_of_lt_succ hk) with h | rfl
    · obtain ⟨d, rfl⟩ := Nat.exists_eq_add_of_lt h
      have hplace : f (k + d + 1) % 2 ^ w * 2 ^ (w * (k + d + 1)) =
          2 ^ (w * k) * (2 ^ w * (f (k + d + 1) % 2 ^ w * 2 ^ (w * d))) := by
        rw [Nat.mul_add, Nat.mul_add, Nat.mul_one, Nat.pow_add, Nat.pow_add]
        ac_rfl
      rw [hplace, Nat.add_mul_div_left _ _ (Nat.two_pow_pos _), Nat.add_mul_mod_self_left, ih h]
    · rw [Nat.add_mul_div_right _ _ (Nat.two_pow_pos _), Nat.div_eq_of_lt (packLanes_lt w f k), Nat.zero_add, Nat.mod_mod]

/-- The lanes of every type fit a word (R54). -/
theorem lanes_fit (t : Ty) : t.width * t.lanes ≤ 64 := by cases t <;> decide

/-- A datum built lane by lane has the lanes that it was built from. -/
theorem lane_ofLanes (t : Ty) (f : Nat → Nat) {k : Nat} (hk : k < t.lanes) : lane t (ofLanes t f) k = f k % 2 ^ t.width := by
  have hword : packLanes t.width f t.lanes < 2 ^ 64 :=
    Nat.lt_of_lt_of_le (packLanes_lt _ _ _) (Nat.pow_le_pow_right (by decide) (lanes_fit t))
  rw [lane, ofLanes, BitVec.toNat_ofNat, Nat.mod_eq_of_lt hword, packLanes_lane _ _ hk]

/-! Generated streams -/

/-- An element of a generated stream that is not empty. -/
theorem genTok_of_lt {g : GenSt} (hg : g.next < g.count) (t : Ty) :
    genTok t g = ⟨ofLanes t fun _ => g.next, g.tag, g.next, decide (g.next + 1 = g.count), false⟩ :=
  if_neg (by omega)

/-- A station that generates nothing emits nothing. -/
theorem genEmit_idle {s : State} {st : SRef} {i : Nat} {nd : Node} (hn : s.node? st i = some nd) (hg : nd.ext.gens = [])
    (t : Ty) : s.genEmit st i t = s := by
  simp [State.genEmit, hn, hg]

/-- A station that acts still acts once it has sent. -/
theorem acts_drain {s : State} {st : SRef} {i : Nat} (ha : s.acts st i) (j : Nat) : (s.drain st j).acts st i := by
  obtain ⟨hc, ⟨x, hx, hl⟩, hi⟩ := ha
  refine ⟨hc, ⟨_, (slice?_modStrand ..).trans (congrArg (Option.map _) hx), ?_⟩, ?_⟩
  · dsimp only
    split <;> exact hl
  · unfold State.drain
    rw [inst?_modInst_same, Option.isSome_map]
    exact hi

section
variable {s : State} {st : SRef} {i : Nat} {h : Hdr} {nd : Node}

/-- `GEN` without a, at a station that generates nothing and has not fired, begins its stream (R153). -/
theorem exec_gen_unfed (ha : s.acts st i) (hn : (s.drain st i).node? st i = some nd)
    (hd : ((s.drain st i).drain st i).node? st i = some nd) (hg : nd.ext.gens = []) (hfed : nd.fed.contains .a = false)
    (hf : nd.fired.contains ⟨0, 0⟩ = false) (n : BitVec 16) :
    exec (.gen h n) s = .next ((((s.drain st i).drain st i).modNode st i fun m =>
      { m with fired := [⟨0, 0⟩], ext := .gen [⟨0, n.toNat + 1, 0⟩] }).genEmit st i h.ty) := by
  have hau := acts_drain ha i
  have he : exec (.gen h n) s = execGen h n s := rfl
  rw [he, execGen, atStation_acts ha]
  simp only [genEmit_idle hn hg, hau.1, hn, hfed, Bool.not_false, if_true]
  rw [atStation_acts hau]
  simp only [hd, hf, Bool.false_eq_true, if_false]

variable {sl : Slot} {t : Tok} {l : List (Slot × Tok)}

/-- What `GEN` makes of the element that carries L: its count, at most 65,536 (R153). -/
theorem genDoes_last (hp : predOf h 0 l = .pass) (ht : tokOf l .a = some t) (he : t.e = false) {r : Ready} (hl : r.l = true) :
    genDoes h l r = .gen (min t.data.toNat 65536) := by
  simp only [genDoes, hp, ht]
  simp [he, hl]

/-- `GEN` with a, at a station that generates nothing, begins the stream of the element that carries L (R153). -/
theorem exec_gen_fed (ha : s.acts st i) (hn : (s.drain st i).node? st i = some nd)
    (hd : ((s.drain st i).drain st i).node? st i = some nd) (hg : nd.ext.gens = []) (hfed : nd.fed.contains .a = true)
    (hk : (s.drain st i).takes st i h [.a] sl t l) (hp : predOf h 0 ((sl, t) :: l) = .pass)
    (ht : tokOf ((sl, t) :: l) .a = some t) (he : t.e = false) (hl : (readyOf ((sl, t) :: l) t).l = true) (n : BitVec 16) :
    exec (.gen h n) s = .next (((((s.drain st i).drain st i).consume st i h [.a] (readyOf ((sl, t) :: l) t)).modNode st i
      fun m => { m with ext := .gen [⟨t.tag, min t.data.toNat 65536, 0⟩] }).genEmit st i h.ty) := by
  have hcur := (acts_drain ha i).1
  have hexec : exec (.gen h n) s = execGen h n s := rfl
  rw [hexec, execGen, atStation_acts ha]
  simp only [genEmit_idle hn hg, hcur, hn, hfed, Bool.not_true, Bool.false_eq_true, if_false]
  refine fireRaw_takes hk ?_
  simp only [hd, hg, genDoes_last hp ht he hl, List.isEmpty_nil, Bool.not_true, Bool.false_eq_true, if_false]
  rfl

/-- `CNT` counts an element, and emits the count with the one that carries L (R154). -/
theorem exec_cnt_takes (hn : (s.drain st i).node? st i = some nd) (hk : s.takes st i h [.a] sl t l)
    (hp : predOf h 0 ((sl, t) :: l) = .pass) (ht : tokOf ((sl, t) :: l) .a = some t) (he : t.e = false)
    (hroom : (readyOf ((sl, t) :: l) t).l = true → (s.drain st i).outRoom st i nd.targets t.tag 0 = true) :
    let n := ((nd.ext.cnts.find? fun c => c.tag == t.tag).getD ⟨t.tag, 0⟩).count + 1
    let rest := nd.ext.cnts.filter fun c => c.tag != t.tag
    let r := readyOf ((sl, t) :: l) t
    let w := ((s.drain st i).consume st i h [.a] r).modNode st i fun m =>
      { m with ext := .cnt (if r.l then rest else rest ++ [⟨t.tag, n⟩]) }
    exec (.cnt h) s = .next (if r.l then w.emit st i ⟨BitVec.ofNat 64 n, t.tag, 0, true, false⟩ else w) := by
  have hwait : ¬ ((readyOf ((sl, t) :: l) t).l &&
      !(s.drain st i).outRoom st i nd.targets (readyOf ((sl, t) :: l) t).tag 0) = true := by
    rw [Bool.and_eq_true, Bool.not_eq_true']
    exact fun ⟨hl, hno⟩ => Bool.false_ne_true (hno.symm.trans (hroom hl))
  refine fireRaw_takes hk ?_
  simp only [hn, ht, hp]
  rw [if_neg (by simp [he]), if_neg hwait]
  simp [he, readyOf]

end

/-- Settles O28: `GEN` begins its stream and `CNT` counts on what stands at the station, and a generated element has its number in
every lane by `lane_ofLanes`. -/
theorem generatorsComplete : Obligations.GeneratorsComplete := by
  unfold Obligations.GeneratorsComplete
  refine ⟨?_, fun ty g => ⟨fun hc => if_pos hc, fun hlt => ?_⟩⟩
  · intro s st i h nd sl t l u v all r ha hn ho hao
    have hu : u.node? st i = some nd := node?_drain_of_free hn ho hao
    have hv : v.node? st i = some nd := node?_drain_of_free hu ho hao
    exact ⟨fun n hg hfed hf => exec_gen_unfed ha hu hv hg hfed hf n,
      fun n hg hfed hk hp ht he hl => exec_gen_fed ha hu hv hg hfed hk hp ht he hl n,
      fun hk hp ht he hroom => exec_cnt_takes hu hk hp ht he hroom⟩
  · rw [genTok_of_lt hlt]
    exact ⟨rfl, rfl, rfl, decide_eq_true_iff, fun k hk => lane_ofLanes ty _ hk⟩

end Sys2Proof.Machine
end

section
/-! SUPPORT and proofs. `SEL` on a selector that lacks L where another operand carries it (R129, R138): a statement that fails. -/

namespace Sys2Proof.Machine

/-- A `SEL` whose operands of element 0 of the block tag stand complete: a carries L, and the selector, which chooses a,
does not. -/
def unevenSel : Node :=
  { nodeOf 0x0700000000000000 [.a, .b, .c] with
    bufA := [.tok ⟨5, 0, 0, true, false⟩ 0]
    bufB := [.tok ⟨6, 0, 0, false, false⟩ 0]
    bufC := [.tok ⟨1, 0, 0, false, false⟩ 0] }

/-- Slice 1's strand with that `SEL` at station 1, which acts. -/
def unevenState : State :=
  { State.reset with
    slices := [{ oneWord 0 with
      strands := (oneWord 0).strands.map fun t =>
        { t with inst := t.inst.map fun x => { x with nodes := [nodeOf 0 [], unevenSel] } } }]
    cur := some ⟨⟨1, 0⟩, 1⟩ }

/-- `SEL` under the default header. -/
def selHeader : Hdr := ⟨0, .q, .absorb, false, false, false, none, none⟩

/-- The tags whose last element station 1 of slice 1's strand has fired for, where a step leads. -/
def lastsAfter (o : Host.Outcome State Fault Refusal) : Option (List Nat) :=
  match o with
  | .next t => (t.node? ⟨1, 0⟩ 1).map fun n => n.lasts
  | _ => none

/-- The model notes no end of the stream: L of the element is the selector's. -/
theorem lastsAfter_sel : lastsAfter (exec (.sel selHeader false) unevenState) = some [] := by decide +kernel

/-- The set that the station takes. -/
theorem unevenState_takes : unevenState.takes ⟨1, 0⟩ 1 selHeader [.a, .b, .c] .a ⟨5, 0, 0, true, false⟩
    [(.b, ⟨6, 0, 0, false, false⟩), (.c, ⟨1, 0, 0, false, false⟩)] :=
  ⟨⟨rfl, ⟨_, rfl, rfl⟩, rfl⟩, by decide +kernel⟩

/-- Refutes O25: the statement has the firing of `SEL` noted with L of any operand (`Node.lasts`), where the model notes it with
the selector's, as it is emitted. -/
theorem not_choosersComplete : ¬ Obligations.ChoosersComplete := by
  unfold Obligations.ChoosersComplete
  intro hc
  obtain ⟨hsel, -⟩ := hc unevenState ⟨1, 0⟩ 1 selHeader .a ⟨5, 0, 0, true, false⟩
    [(.b, ⟨6, 0, 0, false, false⟩), (.c, ⟨1, 0, 0, false, false⟩)]
  have hnext := hsel ⟨1, 0, 0, false, false⟩ ⟨5, 0, 0, true, false⟩ unevenState_takes rfl rfl rfl rfl rfl
    (by decide +kernel)
  have hlasts := lastsAfter_sel
  rw [hnext] at hlasts
  exact absurd hlasts (by decide +kernel)

end Sys2Proof.Machine
end

section
/-! SUPPORT and proofs. What reset leaves (R203, R236, R269, R433, R475). -/

namespace Sys2Proof.Machine

theorem packageReg_reset {r : Nat} (hl : 33 ≤ r) (hr : r ≤ 39) : State.reset.packageReg r = 0 := by
  have h : r = 33 ∨ r = 34 ∨ r = 35 ∨ r = 36 ∨ r = 37 ∨ r = 38 ∨ r = 39 := by omega
  rcases h with rfl | rfl | rfl | rfl | rfl | rfl | rfl <;> rfl

theorem bar_reset (b : BarKey) : State.reset.bar b = Barrier.reset := rfl

/-- Scope 0 is the only one that the table of scopes holds. -/
theorem fscope_reset {n : Nat} (hn : n ≠ 0) : State.reset.fscope n = FScope.reset := if_neg hn.symm

theorem bank_reset (core b : Nat) : State.reset.bank core b = if b < 2 then Bank.cache else Bank.reset := rfl

/-- Settles O5: every table of the reset state is empty save that of the finish scopes. -/
theorem resetState : Obligations.ResetState :=
  ⟨fun _ => packageReg_reset, rfl, bar_reset, rfl, fun _ => fscope_reset, bank_reset, fun _ => rfl, fun _ => rfl, fun _ => rfl,
    rfl⟩

end Sys2Proof.Machine
end

section
/-! SUPPORT and proofs. The barrier rows (R206, R208, R210, R247–R249) complete. -/

namespace Sys2Proof.Machine

theorem exec_barr (h : Hdr) (x : BarImm) (s : State) :
    exec (.barr h x) s = withBar h [.a] x (fun b => arriveEff h [.a] b none false) s := rfl

theorem exec_bsync (h : Hdr) (x : BarImm) (s : State) :
    exec (.bsync h x) s = withBar h [.a] x (fun b => arriveEff h [.a] b none true) s := rfl

theorem exec_bred (h : Hdr) (x : BarImm) (s : State) :
    exec (.bred h x) s = withBar h [.a] x (fun b => arriveEff h [.a] b (some (x.bop, x.u)) true) s := rfl

theorem exec_bwait (h : Hdr) (x : BarImm) (s : State) :
    exec (.bwait h x) s = withBar h [.a] x (fun b => waitEff h [.a] b none) s := rfl

theorem exec_bwaitd (h : Hdr) (x : BarImm) (s : State) :
    exec (.bwaitd h x) s = withBar h [.a, .b] x (fun b st i r s => waitEff h [.a, .b] b (some r.v.b.toNat) st i r s) s := rfl

theorem exec_binit (h : Hdr) (x : BarImm) (s : State) : exec (.binit h x) s = execBinit h x s := rfl

theorem exec_tap (h : Hdr) (x : BarImm) (s : State) : exec (.tap h x) s = execTap h x s := rfl

/-- A barrier row's effect, made at the barrier of the strand's core. -/
theorem withBar_goes {s v : State} {st : SRef} {i : Nat} {h : Hdr} {data : List Slot} {x : BarImm} {r : Ready} {t : Strand}
    {eff : BarKey → SRef → Nat → Ready → State → Eff} (hg : s.goes st i h data 0 0 r)
    (ht : (s.drain st i).strand? st = some t) (he : eff (barKey t.core x) st i r (s.drain st i) = .done v) :
    withBar h data x eff s = .next v :=
  fireEff_goes hg (by simp only [ht, he])

/-- An arrival that does not trap begins a wait, which arrives (R206). -/
theorem arriveEff_done {u : State} {st : SRef} {i : Nat} {h : Hdr} {data : List Slot} {b : BarKey} {op : Option (Bop × Bool)}
    {hold : Bool} {r : Ready} {t : Strand} (ht : u.strand? st = some t)
    (ha : ∀ c w, u.arrive st b (op.map fun o => (r.v.a, o)) ≠ .trap c w) :
    arriveEff h data b op hold st i r u = .done ((u.beginWait st i h data r (.arrive b r.v.a op hold false)).makeArrival st
      t.waits.length b r.v.a op hold false).retries := by
  unfold arriveEff
  split
  · next c w hc => exact absurd hc (ha c w)
  · simp only [ht]

/-- A wait at a barrier that the slice may use begins, and is judged at once (R208). -/
theorem waitEff_done {u : State} {st : SRef} {i : Nat} {h : Hdr} {data : List Slot} {b : BarKey} {d : Option Nat}
    {r : Ready} {t : Strand} {x : Slice} (hx : u.slice? st.slice = some x) (ht : u.strand? st = some t)
    (hu : u.mayUse b x = true) :
    waitEff h data b d st i r u = .done ((u.beginWait st i h data r (.phase b (r.v.a.field 31 0) d false)).judgePhase st
      t.waits.length b (r.v.a.field 31 0) d false) := by
  simp [waitEff, hx, ht, hu]

section
variable {s : State} {st : SRef} {i : Nat} {h : Hdr} {x : BarImm} {z : Slot} {tk : Tok} {l : List (Slot × Tok)} {q : Ready}
  {t : Strand} (hk : s.takes st i h [.a] z tk l) (hs : settle h 0 0 ((z, tk) :: l) = some (.settle .go q))
  (ha : tokOf ((z, tk) :: l) .a = some tk) (he : tk.e = false) (ht : (s.drain st i).strand? st = some t)
  (ho : (s.drain st i).outRoom st i ((s.drain st i).targets st i) (readyOf ((z, tk) :: l) tk).tag
    (readyOf ((z, tk) :: l) tk).idx = true)
include hk hs ha he ht ho

/-- An element of `TAP` before its stream's end passes (R249). -/
theorem exec_tap_passes (hl : (readyOf ((z, tk) :: l) tk).l = false) :
    exec (.tap h x) s = .next (((s.drain st i).consume st i h [.a] (readyOf ((z, tk) :: l) tk)).emitData st i
      (readyOf ((z, tk) :: l) tk) tk.data) := by
  rw [exec_tap, execTap]
  refine fireRaw_takes hk ?_
  simp only [hs, ht, ha, ho, hl, he, settleEmpty, Bool.not_true, Bool.not_false, Bool.false_eq_true, if_false, if_true]

/-- The element of `TAP` that ends its stream arrives, and its wait has the element's datum to emit (R249). -/
theorem exec_tap_arrives (hl : (readyOf ((z, tk) :: l) tk).l = true)
    (hn : ∀ c w, (s.drain st i).arrive st (barKey t.core x) none ≠ .trap c w) :
    exec (.tap h x) s = .next (((((s.drain st i).beginWait st i h [.a] (readyOf ((z, tk) :: l) tk)
      (.arrive (barKey t.core x) 0 none false true)).modStrand st fun t =>
          { t with waits := modAt t.waits (t.waits.length - 1) fun w =>
              { w with tok := { w.tok with data := tk.data, e := false } } }).makeArrival st t.waits.length
        (barKey t.core x) 0 none false true).retries) := by
  rw [exec_tap, execTap]
  refine fireRaw_takes hk ?_
  -- `hn` rules out the arm of an arrival that traps
  simp only [hs, ht, ha, ho, hl, he, Bool.not_true, Bool.false_eq_true, if_false]

end

/-- An opening, resizing or freeing that the slice may make is reported (R210). -/
theorem exec_binit_goes {s v : State} {st : SRef} {i : Nat} {h : Hdr} {x : BarImm} {r : Ready} {t : Strand} {sl : Slice}
    (hg : s.goes st i h [.a] 0 0 r) (ht : (s.drain st i).strand? st = some t)
    (hsl : (s.drain st i).slice? st.slice = some sl)
    (hv : (s.drain st i).initBar sl (barKey t.core x) (r.v.a.field 15 0) = some v) :
    exec (.binit h x) s = .next ((v.consume st i h [.a] r).emitData st i r
      (barResult (v.bar (barKey t.core x)).p (v.bar (barKey t.core x)).gen 0)).retries := by
  rw [exec_binit, execBinit]
  refine withBar_goes hg ht ?_
  simp only [hsl, hv]

/-- Settles O33: each row's effect is the one that its hypotheses leave. -/
theorem barriersComplete : Obligations.BarriersComplete := by
  intro s st i h x r t sl u b n arrives ht hsl
  refine ⟨fun hg => ⟨fun ha => ⟨?_, ?_⟩, fun ha => ?_, fun hu => ?_, fun v hv => ?_⟩, fun hg hu => ?_,
    fun z tk l q hk hs ha he ho => ⟨fun hl => ?_, fun hl hn => ?_⟩⟩
  · rw [exec_barr]
    exact withBar_goes hg ht (arriveEff_done ht ha)
  · rw [exec_bsync]
    exact withBar_goes hg ht (arriveEff_done ht ha)
  · rw [exec_bred]
    exact withBar_goes hg ht (arriveEff_done ht ha)
  · rw [exec_bwait]
    exact withBar_goes hg ht (waitEff_done hsl ht hu)
  · exact exec_binit_goes hg ht hsl hv
  · rw [exec_bwaitd]
    exact withBar_goes hg ht (waitEff_done hsl ht hu)
  · exact exec_tap_passes hk hs ha he ht ho hl
  · exact exec_tap_arrives hk hs ha he ht ho hl hn

end Sys2Proof.Machine
end

section
/-! SUPPORT. Releasing waits changes nothing but the running blocks and the waits of strands (R247, R414). -/

namespace Sys2Proof.Machine

/-- A strand without its running block and its waits. -/
def Strand.bare (t : Strand) : Strand := { t with inst := none, waits := [] }

/-- A slice with its strands bare. -/
def Slice.bare (x : Slice) : Slice := { x with strands := x.strands.map Strand.bare }

/-- A state with its strands bare: all that outputs and the release of waits leave as it is. -/
def State.bare (s : State) : State := { s with slices := s.slices.map Slice.bare }

/-! Reading through it -/

theorem slice?_bare (s : State) (id : Nat) : s.bare.slice? id = (s.slice? id).map Slice.bare := by
  simp [State.slice?, State.bare, List.find?_map, Function.comp_def, Slice.bare]

theorem strand?_bare (s : State) (st : SRef) : s.bare.strand? st = (s.strand? st).map Strand.bare := by
  unfold State.strand?
  rw [slice?_bare]
  cases s.slice? st.slice <;> simp [Slice.bare]

theorem bar_of_bare {s u : State} (h : u.bare = s.bare) (b : BarKey) : u.bar b = s.bar b := by
  have hb : u.bare.bar b = s.bare.bar b := by rw [h]
  exact hb

theorem slice?_of_bare {s u : State} (h : u.bare.slices = s.bare.slices) {id : Nat} {x : Slice} (hx : s.slice? id = some x) :
    ∃ y, u.slice? id = some y ∧ y.bare = x.bare := by
  have hb : u.bare.slice? id = s.bare.slice? id := by unfold State.slice?; rw [h]
  rw [slice?_bare, slice?_bare, hx] at hb
  exact Option.map_eq_some_iff.mp hb

theorem strand?_of_bare {s u : State} (h : u.bare.slices = s.bare.slices) {st : SRef} {t : Strand}
    (ht : s.strand? st = some t) : ∃ t', u.strand? st = some t' ∧ t'.bare = t.bare := by
  have hb : u.bare.strand? st = s.bare.strand? st := by unfold State.strand? State.slice?; rw [h]
  rw [strand?_bare, strand?_bare, ht] at hb
  exact Option.map_eq_some_iff.mp hb

/-! What leaves it as it is -/

theorem bare_mapSlices {f : Slice → Slice} (h : ∀ x, (f x).bare = x.bare) (s : State) :
    ({ s with slices := s.slices.map f } : State).bare = s.bare := by
  simp [State.bare, Function.comp_def, h]

theorem bare_modStrand {f : Strand → Strand} (h : ∀ t, (f t).bare = t.bare) (s : State) (st : SRef) :
    (s.modStrand st f).bare = s.bare := by
  refine bare_mapSlices (fun x => ?_) s
  split
  · simp [Slice.bare, map_modAt h]
  · rfl

@[simp] theorem bare_modInst (s : State) (st : SRef) (f : Inst → Inst) : (s.modInst st f).bare = s.bare :=
  bare_modStrand (f := fun t => { t with inst := t.inst.map f }) (fun _ => rfl) s st

@[simp] theorem bare_out (s : State) (st : SRef) (i : Nat) (o : Out) : (s.out st i o).bare = s.bare :=
  (bare_modInst ..).trans (bare_modInst ..)

@[simp] theorem bare_emit (s : State) (st : SRef) (i : Nat) (t : Tok) : (s.emit st i t).bare = s.bare := by
  unfold State.emit
  split
  · rfl
  · split
    · exact bare_modInst ..
    · exact bare_out ..

@[simp] theorem bare_endWait (s : State) (st : SRef) (n : Nat) (data : Word) (e : Bool) :
    (s.endWait st n data e).bare = s.bare := by
  unfold State.endWait
  split
  · rfl
  · split
    · rfl
    · exact (bare_emit ..).trans (bare_modStrand (f := fun t => { t with waits := dropAt t.waits n }) (fun _ => rfl) ..)

@[simp] theorem bare_flushWaits (s : State) (st : SRef) (f : Nat) : (s.flushWaits st f).bare = s.bare := by
  induction f generalizing s with
  | zero => rfl
  | succ f ih =>
    unfold State.flushWaits
    split
    · rfl
    · split
      · rfl
      · split
        · rw [ih, bare_endWait]
        · rfl

/-- What every step of a fold leaves as it is, the fold does. -/
theorem foldl_frame {α β : Type} {f : State → α → State} {g : State → β} (h : ∀ s a, g (f s a) = g s) (s : State) (l : List α) :
    g (l.foldl f s) = g s := by
  induction l generalizing s with
  | nil => rfl
  | cons a l ih => exact (ih _).trans (h s a)

@[simp] theorem bare_releaseWhere (s : State) (f : WaitKind → Option (Word × Bool)) : (s.releaseWhere f).bare = s.bare := by
  unfold State.releaseWhere
  dsimp only
  refine (foldl_frame (fun _ _ => bare_flushWaits ..) _ _).trans (bare_mapSlices (fun x => ?_) s)
  split
  · simp [Slice.bare, Strand.bare, Function.comp_def]
  · rfl

end Sys2Proof.Machine
end

section
/-! SUPPORT and proofs. What an arrival does to its barrier (R204, R206, R207). -/

namespace Sys2Proof.Machine

/-! Barriers and phases, read after they are written -/

theorem bar_setBar_same (s : State) (b : BarKey) (v : Barrier) : (s.setBar b v).bar b = v := table_get_set_same ..

theorem bar_setBar_other (s : State) {b c : BarKey} (h : barNum c ≠ barNum b) (v : Barrier) :
    (s.setBar b v).bar c = s.bar c := table_get_set_other _ _ h _

@[simp] theorem bar_setPhase (s : State) (st : SRef) (b c : BarKey) (p : Nat) : (s.setPhase st b p).bar c = s.bar c := rfl

theorem strand?_setPhase {s : State} {st : SRef} {t : Strand} (ht : s.strand? st = some t) (b : BarKey) (p : Nat) :
    (s.setPhase st b p).strand? st =
      some { t with phases := Table.set (0, 0) t.phases (barEntry b) ((s.bar b).gen, p % 2 ^ 32) } := by
  rw [State.setPhase, strand?_modStrand_same, ht]
  rfl

/-- No phase is below itself. -/
@[simp] theorem below_self (p : Nat) : below p p = false := by
  simp only [below, decide_eq_false_iff_not]
  omega

/-! The completion of a phase -/

/-- A barrier once its phase has completed with a status, its waiters' next deadline being `dl` (R207). -/
def Barrier.advanced (v : Barrier) (status : Nat) (dl : Option Nat) : Barrier :=
  { v with last := status, lval := v.val, p := (v.p + 1) % 2 ^ 32, a := v.n, val := v.nval, n := 0, nval := redIdentity v.op,
           dl := dl, pl := if status = 1 then (v.p + 1) % 2 ^ 32 else v.pl }

theorem completePhase_succ (s : State) (b : BarKey) (f status : Nat) :
    ∃ u : State, u.bare = (s.setBar b ((s.bar b).advanced status (s.earliest b (((s.bar b).p + 1) % 2 ^ 32)))).bare ∧
      s.completePhase b (f + 1) status = if (s.bar b).n = (s.bar b).e then u.completePhase b f 0 else u :=
  ⟨_, bare_releaseWhere .., rfl⟩

theorem bar_completePhase_other {b c : BarKey} (h : barNum c ≠ barNum b) (s : State) (f status : Nat) :
    (s.completePhase b f status).bar c = s.bar c := by
  induction f generalizing s status with
  | zero => rfl
  | succ f ih =>
    obtain ⟨u, hu, hs⟩ := completePhase_succ s b f status
    have hc : u.bar c = s.bar c := (bar_of_bare hu c).trans (bar_setBar_other s h _)
    rw [hs]
    split
    · exact (ih u 0).trans hc
    · exact hc

theorem slices_completePhase (s : State) (b : BarKey) (f status : Nat) :
    (s.completePhase b f status).bare.slices = s.bare.slices := by
  induction f generalizing s status with
  | zero => rfl
  | succ f ih =>
    obtain ⟨u, hu, hs⟩ := completePhase_succ s b f status
    have hc : u.bare.slices = s.bare.slices := by rw [hu]; rfl
    rw [hs]
    split
    · exact (ih u 0).trans hc
    · exact hc

/-- The barrier whose phase completes, where the next is not complete at once. -/
theorem bar_completePhase_once {s : State} {b : BarKey} (h : (s.bar b).n ≠ (s.bar b).e) (f status : Nat) :
    (s.completePhase b (f + 1) status).bar b =
      (s.bar b).advanced status (s.earliest b (((s.bar b).p + 1) % 2 ^ 32)) := by
  obtain ⟨u, hu, hs⟩ := completePhase_succ s b f status
  rw [hs, if_neg h, bar_of_bare hu, bar_setBar_same]

/-! Arrivals -/

/-- A barrier with one more arrival in its phase, which adds the identity of the phase's operator. -/
def Barrier.plus (v : Barrier) : Barrier := { v with a := v.a + 1, val := redCombine v.op v.val (redIdentity v.op) }

/-- An arrival of a strand in the current phase counted, before what follows when it is the last. -/
def State.afterArrival (s : State) (st : SRef) (b : BarKey) : State :=
  (s.setBar b (s.bar b).plus).setPhase st b ((s.bar b).p + 1)

theorem counted_plain (v : Barrier) : v.counted false none = v.plus := by
  have h : v.settleOp none = v := by
    unfold Barrier.settleOp
    split
    · next h => cases h
    · rfl
  simp [Barrier.counted, h, Barrier.plus]

@[simp] theorem bar_afterArrival_same (s : State) (st : SRef) (b : BarKey) : (s.afterArrival st b).bar b = (s.bar b).plus :=
  bar_setBar_same ..

theorem bar_afterArrival_other {b c : BarKey} (h : barNum c ≠ barNum b) (s : State) (st : SRef) :
    (s.afterArrival st b).bar c = s.bar c := bar_setBar_other s h _

/-- The phase of the arrived strand. -/
theorem phases_afterArrival {s : State} {st : SRef} {t : Strand} (ht : s.strand? st = some t) (b : BarKey) :
    ∃ t', (s.afterArrival st b).strand? st = some t' ∧
      Table.get (0, 0) t'.phases (barEntry b) = ((s.bar b).gen, ((s.bar b).p + 1) % 2 ^ 32) := by
  refine ⟨_, strand?_setPhase (s := s.setBar b _) ht b _, ?_⟩
  rw [table_get_set_same, bar_setBar_same]
  rfl

section
variable {s : State} {st : SRef} {b : BarKey} {x : Slice} {t : Strand} (hx : s.slice? st.slice = some x)
  (ht : s.strand? st = some t)
include hx ht

theorem arrive_outside (h : s.mayUse b x = false) (v : Option (Word × Bop × Bool)) : s.arrive st b v = .trap 0x21 s := by
  simp [State.arrive, hx, ht, h]

theorem arrive_broken (h : s.mayUse b x = true) (hb : (s.bar b).state = .broken) (v : Option (Word × Bop × Bool)) :
    s.arrive st b v = .report (s.arrivalPhase t b) 2 s := by
  simp [State.arrive, hx, ht, h, hb]

/-- An arrival in the current phase is counted, its strand goes one phase on, and the last completes the phase (R206, R207). -/
theorem arrive_current (h : s.mayUse b x = true) (hb : (s.bar b).state = .opened) (hl : s.arrivalPhase t b = (s.bar b).p) :
    s.arrive st b none = .report (s.bar b).p 0
      (if (s.bar b).a + 1 = (s.bar b).e then (s.afterArrival st b).completePhase b 4 0 else s.afterArrival st b) := by
  simp [State.arrive, hx, ht, h, hb, hl, counted_plain, State.afterArrival, Barrier.plus]

end

/-- Settles O34: an arrival is counted, and the completion of its phase leaves all but the barrier, and the running blocks and
waits of strands, as it is. -/
theorem arrivalCounts : Obligations.ArrivalCounts := by
  intro s st b x t hx ht v
  refine ⟨fun h => arrive_outside hx ht h none, fun h hb => arrive_broken hx ht h hb none, fun h hb _ hl =>
    ⟨_, arrive_current hx ht h hb hl, ?_⟩⟩
  obtain ⟨t₀, ht₀, hp₀⟩ := phases_afterArrival ht b
  refine ⟨fun c hc => ?_, ?_, fun ha => ?_, fun ha hn => ?_⟩
  · split
    · exact (bar_completePhase_other hc ..).trans (bar_afterArrival_other hc ..)
    · exact bar_afterArrival_other hc ..
  · split
    · obtain ⟨t', ht', hb'⟩ := strand?_of_bare (slices_completePhase (s.afterArrival st b) b 4 0) ht₀
      have hph : t'.bare.phases = t₀.bare.phases := by rw [hb']
      exact ⟨t', ht', (congrArg (Table.get (0, 0) · (barEntry b)) hph).trans hp₀⟩
    · exact ⟨t₀, ht₀, hp₀⟩
  · have ha' : (s.bar b).a + 1 ≠ (s.bar b).e := ha
    rw [if_neg ha', bar_afterArrival_same]
    rfl
  · have ha' : (s.bar b).a + 1 = (s.bar b).e := ha
    have hn' : ((s.afterArrival st b).bar b).n ≠ ((s.afterArrival st b).bar b).e := by rw [bar_afterArrival_same]; exact hn
    rw [if_pos ha', bar_completePhase_once hn', bar_afterArrival_same]
    exact ⟨rfl, rfl, rfl, rfl, rfl, rfl, rfl, rfl, hb⟩

end Sys2Proof.Machine
end

section
/-! SUPPORT. Writes of units leave slices as they are but for the waits of strands (R290, R409). -/

namespace Sys2Proof.Machine

@[simp] theorem slices_eventAt (s : State) (p : Party) (ts : Nat) : (s.eventAt p ts).slices = s.slices := by
  unfold State.eventAt
  split <;> rfl

@[simp] theorem slices_hostSend (s : State) (k : HostMsgKind) (pa : Nat) (bs : List Byte) :
    (s.hostSend k pa bs).slices = s.slices := by
  unfold State.hostSend
  split <;> rfl

@[simp] theorem slices_storeTs (s : State) (p : Party) (pa n : Nat) : (s.storeTs p pa n).slices = s.slices := by
  unfold State.storeTs
  split
  · rfl
  · exact slices_eventAt ..

@[simp] theorem slices_soil (s : State) (pa n : Nat) : (s.soil pa n).slices = s.slices := by
  unfold State.soil
  split <;> rfl

@[simp] theorem slices_settleRegion (s : State) (n : Nat) : (s.settleRegion n).slices = s.slices := by
  unfold State.settleRegion
  dsimp only
  split <;> rfl

@[simp] theorem slices_mirror (s : State) (pa n : Nat) : (s.mirror pa n).slices = s.slices := by
  unfold State.mirror
  split <;> rfl

@[simp] theorem slices_through (s u : State) (x : Xlat) (pa n : Nat) : (s.through u x pa n).slices = u.slices := by
  unfold State.through
  split
  · exact slices_mirror ..
  · rfl

/-- Equal slices are equal bare. -/
theorem bareSlices_of_slices {s u : State} (h : u.slices = s.slices) : u.bare.slices = s.bare.slices :=
  congrArg (List.map Slice.bare) h

/-- A write wakes watches, which are waits. -/
theorem bareSlices_markWrite (s : State) (pa n : Nat) : (s.markWrite pa n).bare.slices = s.bare.slices :=
  congrArg State.slices (bare_mapSlices (fun x => by simp [Slice.bare, Strand.bare, Function.comp_def]) s)

theorem bareSlices_poke (s : State) (pa : Nat) (bs : List Byte) : (s.poke pa bs).bare.slices = s.bare.slices := by
  refine (bareSlices_of_slices (slices_hostSend ..)).trans ((bareSlices_markWrite ..).trans (bareSlices_of_slices ?_))
  exact slices_soil ..

theorem bareSlices_applyKey (s : State) (p : Party) (region key limit : Nat) :
    (s.applyKey p region key limit).bare.slices = s.bare.slices := by
  unfold State.applyKey
  dsimp only
  split
  · rfl
  · refine (bareSlices_of_slices (slices_settleRegion ..)).trans ?_
    exact (bareSlices_of_slices (slices_storeTs ..)).trans (bareSlices_poke ..)

theorem bareSlices_yardFor (s : State) (p : Party) (x : Xlat) (k n : Nat) :
    (s.yardFor p x k n).bare.slices = s.bare.slices := by
  unfold State.yardFor
  split
  · exact foldl_frame (g := fun u => u.bare.slices) (fun _ _ => bareSlices_applyKey ..) _ _
  · rfl

theorem bareSlices_storeVia (s : State) (p : Party) (x : Xlat) (pa : Nat) (bs : List Byte) :
    (s.storeVia p x pa bs).bare.slices = s.bare.slices := by
  unfold State.storeVia
  refine (bareSlices_of_slices ((slices_storeTs ..).trans (slices_through ..))).trans ?_
  exact (bareSlices_poke ..).trans (bareSlices_yardFor ..)

theorem bareSlices_pay (s : State) (w : Owed) : (s.pay w).bare.slices = s.bare.slices := by
  unfold State.pay
  split
  · exact bareSlices_storeVia ..
  · split
    · rfl
    · exact (bareSlices_storeVia ..).trans (bareSlices_storeVia ..)

theorem bareSlices_post (s : State) (n : Nat) (ws : List Word) : (s.post n ws).bare.slices = s.bare.slices := by
  unfold State.post State.owe
  split
  · exact bareSlices_pay ..
  · rfl

end Sys2Proof.Machine
end

section
/-! SUPPORT. What the halt of a slice leaves where it stands (R413). -/

namespace Sys2Proof.Machine

theorem slice?_of_shape {s u : State} (h : u.shape = s.shape) {id : Nat} {x : Slice} (hx : s.slice? id = some x) :
    ∃ y, u.slice? id = some y := by
  have hs := slice?_shape u id
  rw [h, ← slice?_shape, hx] at hs
  obtain ⟨y, hy, -⟩ := Option.map_eq_some_iff.mp hs
  exact ⟨y, hy⟩

theorem shape_consume (s : State) (st : SRef) (i : Nat) (h : Hdr) (data : List Slot) (r : Ready) :
    (s.consume st i h data r).shape = s.shape := shape_modNode ..

theorem shape_takePlace (s : State) (st : SRef) (i tag idx : Nat) : (s.takePlace st i tag idx).shape = s.shape :=
  (shape_modInst ..).trans (shape_modInst ..)

/-- An element that ends without an effect outside its strand. -/
theorem shape_consume_emitData (s : State) (st : SRef) (i : Nat) (h : Hdr) (data : List Slot) (r : Ready) (w : Word) :
    ((s.consume st i h data r).emitData st i r w).shape = s.shape := (shape_emit ..).trans (shape_consume ..)

theorem shape_fesetWord (s : State) (h : Hdr) (core : Nat) (a : Word) (st : SRef) (i : Nat) (r : Ready) (k n : Nat) :
    (fesetWord h core a st i r k n s).shape = s.shape := by
  unfold fesetWord
  dsimp only
  split
  · exact shape_modNode ..
  · exact (shape_consume_emitData ..).trans (shape_modNode ..)

theorem shape_fesetEff (s : State) (h : Hdr) (x : MemImm) (st : SRef) (i : Nat) (r : Ready) :
    (fesetEff h x st i r s).state.shape = s.shape := by
  unfold fesetEff
  split
  · dsimp only
    split
    · rfl
    · split
      · exact shape_consume_emitData ..
      · split
        · exact shape_trapStation ..
        · refine (shape_fesetWord ..).trans ?_
          split
          · exact shape_takePlace ..
          · rfl
  · rfl

theorem shape_fesetFinish (s : State) (h : Hdr) (x : MemImm) (st : SRef) (i : Nat) (r : Ready) (n : Nat) :
    (fesetFinish h x st i r n s).shape = s.shape := by
  induction n generalizing s with
  | zero => rfl
  | succ n ih =>
    unfold fesetFinish
    split
    · rfl
    · split
      · rfl
      · have he := shape_fesetEff s h x st i r
        split
        · next u hu => exact (ih u).trans (by rw [hu] at he; exact he)
        · next u hu => rw [hu] at he; exact he

theorem shape_finishFesets (s : State) (st : SRef) : (s.finishFesets st).shape = s.shape := by
  unfold State.finishFesets
  split
  · rfl
  · refine shape_foldl (fun u i => ?_) _ _
    split
    · rfl
    · split
      · split
        · exact shape_fesetFinish ..
        · rfl
      · rfl

theorem shape_unissueAll (s : State) (st : SRef) (n : Nat) : (s.unissueAll st n).shape = s.shape := by
  induction n generalizing s with
  | zero => rfl
  | succ n ih =>
    refine (ih _).trans ?_
    unfold State.unissue
    split
    · rfl
    · split
      · rfl
      · exact (shape_modStrand (f := fun t => { t with pend := dropAt t.pend n }) (fun _ => rfl) ..).trans (shape_modNode ..)

theorem shape_halt (s : State) (x : Slice) : (s.halt x).shape = s.shape := by
  unfold State.halt
  refine (shape_modSlice (fun y => by simp [Slice.shape, Function.comp_def]) _ _).trans ?_
  exact shape_foldl (fun u t => (shape_unissueAll ..).trans (shape_finishFesets ..)) _ _

end Sys2Proof.Machine
end

section
/-! SUPPORT and proofs. The events of slices and barriers complete (R208, R233–R235, R284, R413, R414, R423). -/

namespace Sys2Proof.Machine

/-! The freeze -/

theorem slices_dropDeadlines (s : State) (l : List Wait) : (s.dropDeadlines l).slices = s.slices := by
  induction l generalizing s with
  | nil => rfl
  | cons w l ih =>
    unfold State.dropDeadlines
    split
    · refine (ih _).trans ?_
      unfold State.refreshDl
      dsimp only
      split <;> rfl
    · exact ih s

theorem bareSlices_thawDone (s : State) (id : Nat) : (s.thawDone id).bare.slices = s.bare.slices := by
  have hb : (s.releaseWhere (thawRelease s.freeSeq id)).bare.slices = s.bare.slices := by rw [bare_releaseWhere]
  exact hb

theorem bareSlices_postTrap (s : State) (x : Slice) : (s.postTrap x).bare.slices = s.bare.slices := by
  unfold State.postTrap
  split
  · exact bareSlices_post ..
  · rfl

/-- A slice frozen at device time `t`. -/
def Slice.frozenAt (x : Slice) (t : Nat) : Slice := { x with status := .frozen, candidate := false, ftime := t }

/-- A slice whose freeze completes, with its deadlines gone, the thaws of it ended and its trap posted (R412–R414). -/
def State.freeze (s : State) (id : Nat) (x : Slice) : State :=
  (((((s.halt x).modSlice id fun y => y.frozenAt s.now).dropDeadlines (x.strands.flatMap fun t => t.waits)).thawDone id).postTrap x)

theorem slice?_freeze {s : State} {id : Nat} {x : Slice} (hx : s.slice? id = some x) :
    ∃ y, (s.freeze id x).slice? id = some y ∧ y.status = .frozen := by
  obtain ⟨z, hz⟩ := slice?_of_shape (shape_halt s x) hx
  have hf : ((s.halt x).modSlice id fun y => y.frozenAt s.now).slice? id = some (z.frozenAt s.now) := by
    rw [slice?_modSlice_same (f := fun y => y.frozenAt s.now) _ _ fun _ => rfl, hz]
    rfl
  obtain ⟨y, hy, hb⟩ := slice?_of_bare ((bareSlices_postTrap ..).trans ((bareSlices_thawDone ..).trans
    (bareSlices_of_slices (slices_dropDeadlines ..)))) hf
  have hs : y.bare.status = (z.frozenAt s.now).bare.status := by rw [hb]
  exact ⟨y, hy, hs⟩

theorem exec_freezeWave {s : State} {id : Nat} {x : Slice} (hx : s.slice? id = some x) (h : x.status = .waving) :
    exec (.freezeWave id) s = .next (s.modSlice id fun x => { x with status := .halting }) := by
  have he : exec (.freezeWave id) s = execFreezeWave id s := rfl
  simp [he, execFreezeWave, hx, h]

theorem exec_freezeComplete {s : State} {id : Nat} {x y : Slice} (hx : s.slice? id = some x) (h : x.status = .halting)
    (hp : s.stillPerforms x = false) (ho : s.ops.any x.touchedBy = false) (hy : (s.freeze id x).slice? id = some y) :
    exec (.freezeComplete id) s = .next ((s.freeze id x).afterFreeze y) := by
  have he : exec (.freezeComplete id) s = execFreezeComplete id s := rfl
  unfold State.freeze at hy ⊢
  unfold Slice.frozenAt at hy ⊢
  simp [he, execFreezeComplete, hx, h, hp, ho, hy]

theorem exec_thawResume {s : State} {id : Nat} {x : Slice} (hx : s.slice? id = some x) (h : x.status = .frozen)
    (hc : x.candidate = true) : exec (.thawResume id) s = .next (s.restart id) := by
  have he : exec (.thawResume id) s = execThawResume id s := rfl
  simp [he, execThawResume, hx, h, hc]

/-! Budget and end -/

theorem exec_budget {s : State} {id : Nat} {x : Slice} (hx : s.slice? id = some x) (hc : x.counts = true)
    (hb : x.budget = 0) : exec (.budget id) s = .next (s.takeTrap id { Trap.bare with code := 0x40 }) := by
  have he : exec (.budget id) s = execBudget id s := rfl
  simp [he, execBudget, hx, hc, hb]

/-- The package once a slice has ended, save what is owed to its counter or its queue (R234, R269). -/
def State.withoutSlice (s : State) (id : Nat) (x : Slice) : State := ((s.clearCores x.cores).freeBarriers id).removeSlice id

theorem exec_sliceEnd {s : State} {id : Nat} {x : Slice} (hx : s.slice? id = some x) (he : s.ends x = true) :
    exec (.sliceEnd id) s = .next (
      let u := s.withoutSlice id x
      let v := match x.yield with
        | some y => u.beginAppend ⟨contWords x.desc y.1 y.2, s.contHandle x, .yield id x.queue⟩
        | none => u.addThen ⟨x.desc.getD 6 0, false, id, x.field 5 63 32, (u.queue x.queue).eq, some (x.field 4 39 32), none⟩
      v.releaseWhere (endRelease v.freeSeq id)) := by
  have hr : exec (.sliceEnd id) s = execSliceEnd id s := rfl
  rw [hr, execSliceEnd]
  simp only [hx, he, Bool.not_true, Bool.false_eq_true, if_false]
  rfl

/-! Deadlines and ticks -/

/-- What strands of other members have done at a pod barrier comes before its deadline (R459). -/
def State.afterFar (s : State) (b : BarKey) (far : List FarBar) : State :=
  if b.scope = .pod ∧ s.otherMembers ≠ [] then (far.foldl (fun (s : State) f => s.farBar b f) s).retries else s

theorem keeperTime_eq (s : State) (b : BarKey) (ahead : Nat) : s.keeperTime b ahead =
    if b.scope = .pod ∧ (∃ n ∈ s.otherMembers, n < s.pkgNumber) then s.now + min ahead 40 - 20 else s.now := by
  simp [State.keeperTime]

/-- A deadline that its keeper's time has reached completes the phase LATE (R208). -/
theorem exec_barrierDeadline {s : State} {b : BarKey} {d : Nat} {far : List FarBar} {ahead : Nat}
    (hd : ((s.afterFar b far).bar b).dl = some d) (ho : ((s.afterFar b far).bar b).state = .opened)
    (ht : d ≤ (s.afterFar b far).keeperTime b ahead) :
    exec (.barrierDeadline ⟨b, far, ahead⟩) s = .next ((s.afterFar b far).completePhase b 4 1).retries := by
  have he : exec (.barrierDeadline ⟨b, far, ahead⟩) s = execBarrierDeadline ⟨b, far, ahead⟩ s := rfl
  have hf : (if b.scope = .pod ∧ !s.otherMembers.isEmpty then (far.foldl (fun (s : State) f => s.farBar b f) s).retries else s)
      = s.afterFar b far := by simp [State.afterFar]
  simp only [he, execBarrierDeadline, hf, hd, ho, ht, and_self, if_true]

theorem exec_ptTick {s : State} (h : s.ptTicks < s.cycles / 16) :
    exec .ptTick s = .next { s with ptTicks := s.ptTicks + 1 } := by
  have he : exec .ptTick s = execPtTick s := rfl
  simp [he, execPtTick, h]

theorem ptOf_tick (s : State) (w : Nat) : ({ s with ptTicks := s.ptTicks + 1 } : State).ptOf w = s.ptOf w + 1 :=
  Nat.add_right_comm ..

/-- Settles O52: each event by its own lemma; a slice that is frozen stays so through what its freeze does next. -/
theorem sliceEvents : Obligations.SliceEvents := by
  refine ⟨fun s id x hx => ⟨exec_freezeWave hx, fun h hp ho => ?_, exec_thawResume hx, exec_budget hx, fun he => ?_⟩,
    fun s b d far ahead hd ho ht => exec_barrierDeadline hd ho (Nat.le_trans ht (Nat.le_of_eq (keeperTime_eq ..).symm)), fun s h => ⟨_, exec_ptTick h, rfl, fun w _ => ptOf_tick s w⟩⟩
  · obtain ⟨y, hy, hf⟩ := slice?_freeze hx
    exact ⟨y, hy, hf, exec_freezeComplete hx h hp ho hy⟩
  · refine ⟨fun hy => ?_, fun y hy => ?_⟩
    · rw [exec_sliceEnd hx he, hy]
      rfl
    · rw [exec_sliceEnd hx he, hy]
      rfl

end Sys2Proof.Machine
end

section
/-! SUPPORT and proofs. Which scope `FOPEN` opens (R237, R253). -/

namespace Sys2Proof.Machine

theorem fscope_setFscope_same (s : State) (n : Nat) (f : FScope) : (s.setFscope n f).fscope n = f := table_get_set_same ..

theorem fscope_setFscope_other (s : State) {n k : Nat} (hk : k ≠ n) (f : FScope) : (s.setFscope n f).fscope k = s.fscope k :=
  table_get_set_other _ _ hk _

/-- The lowest FREE entry is the one that is taken, if there is one. -/
theorem freeScope_free {s : State} {n : Nat}
    (h : (List.range 256).find? (fun n => decide ((s.fscope n).state = .free)) = some n) : s.freeScope = some n := by
  simp [State.freeScope, h]

/-- With none FREE the lowest DONE entry is taken. -/
theorem freeScope_done {s : State} (h : ∀ k < 256, (s.fscope k).state ≠ .free) :
    s.freeScope = (List.range 256).find? fun n => decide ((s.fscope n).state = .done) := by
  have hn : (List.range 256).find? (fun n => decide ((s.fscope n).state = .free)) = none :=
    List.find?_range_eq_none.mpr fun k hk => by simp [h k hk]
  simp [State.freeScope, hn]

/-- The entry that is taken is the lowest FREE one, or the lowest DONE one where none is FREE. -/
theorem freeScope_eq_some {s : State} {n : Nat} (h : s.freeScope = some n) :
    n < 256 ∧ (((s.fscope n).state = .free ∧ ∀ k < n, (s.fscope k).state ≠ .free) ∨
      ((s.fscope n).state = .done ∧ (∀ k < 256, (s.fscope k).state ≠ .free) ∧ ∀ k < n, (s.fscope k).state ≠ .done)) := by
  cases hf : (List.range 256).find? fun n => decide ((s.fscope n).state = .free) with
  | some m =>
    obtain rfl : m = n := Option.some.inj ((freeScope_free hf).symm.trans h)
    obtain ⟨hm, hlt, hbelow⟩ := List.find?_range_eq_some.mp hf
    exact ⟨List.mem_range.mp hlt, .inl ⟨of_decide_eq_true hm, fun k hk => by simpa using hbelow k hk⟩⟩
  | none =>
    have hnone : ∀ k < 256, (s.fscope k).state ≠ .free := fun k hk => by simpa using List.find?_range_eq_none.mp hf k hk
    rw [freeScope_done hnone] at h
    obtain ⟨hm, hlt, hbelow⟩ := List.find?_range_eq_some.mp h
    exact ⟨List.mem_range.mp hlt, .inr ⟨of_decide_eq_true hm, hnone, fun k hk => by simpa using hbelow k hk⟩⟩

/-- None is taken exactly where every entry is OPEN or CLOSED. -/
theorem freeScope_eq_none {s : State} :
    s.freeScope = none ↔ ∀ k < 256, (s.fscope k).state = .opened ∨ (s.fscope k).state = .closed := by
  have hstate : ∀ x : ScopeState, (x = .opened ∨ x = .closed) ↔ x ≠ .free ∧ x ≠ .done := fun x => by cases x <;> simp
  simp only [hstate]
  constructor
  · intro h
    have hf : ∀ k < 256, (s.fscope k).state ≠ .free := by
      cases hf : (List.range 256).find? fun n => decide ((s.fscope n).state = .free) with
      | some m => cases (freeScope_free hf).symm.trans h
      | none => exact fun k hk => by simpa using List.find?_range_eq_none.mp hf k hk
    rw [freeScope_done hf] at h
    exact fun k hk => ⟨hf k hk, by simpa using List.find?_range_eq_none.mp h k hk⟩
  · intro h
    rw [freeScope_done fun k hk => (h k hk).1]
    exact List.find?_range_eq_none.mpr fun k hk => by simp [(h k hk).2]

/-- What `FOPEN` does with entry `n` under parent `p`. -/
theorem openScope_some {s : State} {n p : Nat} (hn : s.freeScope = some n)
    (hp : (s.fscope p).state = .opened ∨ (s.fscope p).state = .closed) (ctr : Word) :
    s.openScope p ctr = ((s.setFscope p { s.fscope p with child := (s.fscope p).child + 1 }).setFscope n ⟨.opened, p, 0, 0, ctr⟩,
      BitVec.ofNat 64 n) := by
  have hr : ¬ ((s.fscope p).state = .free ∨ (s.fscope p).state = .done) := by
    rcases hp with hp | hp <;> simp [hp]
  simp [State.openScope, hn, hr]

/-- Settles O36: the entry taken by `State.freeScope` is FREE or DONE, and so not the parent. -/
theorem scopeOpens : Obligations.ScopeOpens := by
  unfold Obligations.ScopeOpens
  intro s p ctr _
  refine ⟨fun n hn => ?_, fun n hn hp => ?_, fun n hn hp => ?_, fun hn => ?_, freeScope_eq_none⟩
  · obtain ⟨hlt, ⟨hs, hbelow⟩ | ⟨hs, hnone, hbelow⟩⟩ := freeScope_eq_some hn
    · exact ⟨hlt, .inl hs, hbelow, fun hd => by simp [hs] at hd⟩
    · exact ⟨hlt, .inr hs, fun k hk => hnone k (Nat.lt_trans hk hlt), fun _ => ⟨hnone, hbelow⟩⟩
  · have hpn : p ≠ n := by
      rintro rfl
      obtain ⟨-, ⟨hs, -⟩ | ⟨hs, -⟩⟩ := freeScope_eq_some hn <;> simp [hs] at hp
    rw [openScope_some hn hp]
    refine ⟨rfl, fscope_setFscope_same .., ?_, fun k hkn hkp => ?_⟩
    · exact (fscope_setFscope_other _ hpn _).trans (fscope_setFscope_same ..)
    · exact (fscope_setFscope_other _ hkn _).trans (fscope_setFscope_other _ hkp _)
  · simp [State.openScope, hn, hp]
  · simp [State.openScope, hn]

end Sys2Proof.Machine
end

section
/-! SUPPORT. The release of one wait where no other is ready (R40). -/

namespace Sys2Proof.Machine

/-! Positions of a list -/

theorem dropAt_modAt {α : Type} (l : List α) (n : Nat) (f : α → α) : dropAt (modAt l n f) n = dropAt l n := by
  induction l generalizing n with
  | nil => rfl
  | cons a l ih =>
    cases n with
    | zero => rfl
    | succ n => exact congrArg (a :: ·) (ih n)

theorem mem_of_mem_dropAt {α : Type} {l : List α} {n : Nat} {a : α} (h : a ∈ dropAt l n) : a ∈ l := by
  induction l generalizing n with
  | nil => exact h
  | cons b l ih =>
    cases n with
    | zero => exact List.mem_cons_of_mem _ h
    | succ n =>
      rcases List.mem_cons.mp h with rfl | h
      · exact List.mem_cons_self
      · exact List.mem_cons_of_mem _ (ih h)

theorem take_modAt {α : Type} (l : List α) (n : Nat) (f : α → α) : (modAt l n f).take n = l.take n := by
  induction l generalizing n with
  | nil => rfl
  | cons a l ih =>
    cases n with
    | zero => rfl
    | succ n => exact congrArg (a :: ·) (ih n)

theorem modAt_modAt {α : Type} (l : List α) (n : Nat) (f g : α → α) : modAt (modAt l n f) n g = modAt l n fun a => g (f a) := by
  induction l generalizing n with
  | nil => rfl
  | cons a l ih =>
    cases n with
    | zero => rfl
    | succ n => exact congrArg (a :: ·) (ih n)

/-! Two changes of one strand -/

theorem modStrand_modStrand (s : State) (st : SRef) (f g : Strand → Strand) :
    (s.modStrand st f).modStrand st g = s.modStrand st fun t => g (f t) := by
  unfold State.modStrand State.modSlice
  simp only [List.map_map]
  congr 1
  refine List.map_congr_left fun x _ => ?_
  by_cases hx : x.id = st.slice <;> simp [hx, modAt_modAt]

/-! Outputs leave waits as they are -/

theorem waits_modInst (s : State) (st : SRef) (f : Inst → Inst) :
    ((s.modInst st f).strand? st).map Strand.waits = (s.strand? st).map Strand.waits := by
  rw [strand?_modInst_same]
  cases s.strand? st <;> rfl

theorem waits_emit (s : State) (st : SRef) (i : Nat) (t : Tok) :
    ((s.emit st i t).strand? st).map Strand.waits = (s.strand? st).map Strand.waits := by
  unfold State.emit
  split
  · rfl
  · split
    · exact waits_modInst ..
    · exact (waits_modInst ..).trans (waits_modInst ..)

/-! Releasing -/

/-- Whether a wait has its output. -/
def Wait.isReady (w : Wait) : Bool :=
  match w.kind with
  | .ready _ => true
  | _ => false

/-- Whether wait `n` has its output and its turn. -/
def Strand.mayLeave (t : Strand) (n : Nat) : Bool := t.firstWait n && t.waits[n]?.any Wait.isReady

/-- The empty output that a wait with its output has (R23). -/
def Wait.leavesEmpty (w : Wait) : Bool :=
  match w.kind with
  | .ready e => e
  | _ => false

/-- The first wait with its output and its turn leaves, and then the next (R25). -/
theorem flushWaits_succ {s : State} {st : SRef} {t : Strand} (ht : s.strand? st = some t) (f : Nat) :
    s.flushWaits st (f + 1) = ((List.range t.waits.length).find? t.mayLeave).elim s fun n =>
      t.waits[n]?.elim s fun w => (s.endWait st n w.tok.data w.leavesEmpty).flushWaits st f := by
  -- the model's own test of a wait is that of `Strand.mayLeave`
  have hp : ∀ {p : Nat → Bool}, (∀ k, p k = t.mayLeave k) → (List.range t.waits.length).find? t.mayLeave =
      (List.range t.waits.length).find? p := fun hp => by rw [funext hp]
  rw [State.flushWaits, ht]
  dsimp only
  rw [hp fun k => ?_]
  · split
    · next hs => rw [hs]; rfl
    · next n hs =>
      rw [hs, Option.elim_some]
      cases t.waits[n]? <;> rfl
  · unfold Strand.mayLeave
    cases t.waits[k]? <;> rfl

/-- With no wait that has its output, none leaves. -/
theorem flushWaits_unready {s : State} {st : SRef} {t : Strand} (ht : s.strand? st = some t)
    (hr : ∀ w ∈ t.waits, w.isReady = false) (f : Nat) : s.flushWaits st f = s := by
  have hn : (List.range t.waits.length).find? t.mayLeave = none := List.find?_range_eq_none.mpr fun n hn => by
    simp [Strand.mayLeave, List.getElem?_eq_getElem hn, hr _ (List.getElem_mem hn)]
  cases f with
  | zero => rfl
  | succ f => rw [flushWaits_succ ht, hn, Option.elim_none]

/-- A wait with its output. -/
def Wait.readied (data : Word) (e : Bool) (w : Wait) : Wait := { w with tok := { w.tok with data := data }, kind := .ready e }

theorem firstWait_readied {t : Strand} {n : Nat} {data : Word} {e : Bool} :
    ({ t with waits := modAt t.waits n (Wait.readied data e) } : Strand).firstWait n = t.firstWait n := by
  unfold Strand.firstWait
  simp only [modAt_get_same, take_modAt]
  cases t.waits[n]? <;> rfl

/-- A wait in its turn, released where no other has its output, leaves with it. -/
theorem release_first {s : State} {st : SRef} {t : Strand} {n : Nat} {w : Wait} (ht : s.strand? st = some t)
    (hw : t.waits[n]? = some w) (hf : t.firstWait n = true) (hr : ∀ w ∈ t.waits, w.isReady = false) (d : Word) (e : Bool) :
    s.release st n d e = (s.modStrand st fun t => { t with waits := dropAt t.waits n }).emit st w.node
      { w.tok with data := d, e := e } := by
  let r : Strand := { t with waits := modAt t.waits n (Wait.readied d e) }
  let u := s.modStrand st fun t => { t with waits := modAt t.waits n (Wait.readied d e) }
  have hu : u.strand? st = some r := by rw [strand?_modStrand_same, ht]; rfl
  have hrw : r.waits[n]? = some (w.readied d e) := (modAt_get_same ..).trans (by rw [hw]; rfl)
  have hlt : n < t.waits.length := (List.getElem?_eq_some_iff.mp hw).1
  have hlen : r.waits.length = t.waits.length := modAt_length ..
  -- the released wait is the only one that may leave
  have hleave : (List.range r.waits.length).find? r.mayLeave = some n := by
    refine List.find?_range_eq_some.mpr ⟨?_, List.mem_range.mpr (hlen ▸ hlt), fun k hk => ?_⟩
    · simp only [Strand.mayLeave, hrw, r, firstWait_readied, hf]
      rfl
    · have hother : r.waits[k]? = t.waits[k]? := modAt_get_other _ (Nat.ne_of_lt hk) _
      have hk' := Nat.lt_trans hk hlt
      simp [Strand.mayLeave, hother, List.getElem?_eq_getElem hk', hr _ (List.getElem_mem hk')]
  have hend : u.endWait st n d e = (s.modStrand st fun t => { t with waits := dropAt t.waits n }).emit st w.node
      { w.tok with data := d, e := e } := by
    simp only [State.endWait, hu, hrw, u, modStrand_modStrand, dropAt_modAt]
    rfl
  have hrel : s.release st n d e = u.flushWaits st (t.waits.length - 1 + 1) := by
    rw [Nat.sub_add_cancel (Nat.one_le_of_lt hlt), ← hlen]
    have hdef : s.release st n d e = match u.strand? st with
      | some t => u.flushWaits st t.waits.length
      | none => u := rfl
    rw [hdef, hu]
  rw [hrel, flushWaits_succ hu, hleave, Option.elim_some, hrw, Option.elim_some]
  have hleft := waits_emit (s.modStrand st fun t => { t with waits := dropAt t.waits n }) st w.node
    { w.tok with data := d, e := e }
  rw [strand?_modStrand_same, ht] at hleft
  obtain ⟨t', ht', hwaits⟩ := Option.map_eq_some_iff.mp hleft
  refine (congrArg (fun v => State.flushWaits v st _) hend).trans ((flushWaits_unready ht' (fun z hz => ?_) _))
  rw [hwaits] at hz
  exact hr z (mem_of_mem_dropAt hz)

end Sys2Proof.Machine
end

section
/-! SUPPORT and proofs. Scheduling instructions (R251–R255) complete. -/

namespace Sys2Proof.Machine

theorem exec_enq (h : Hdr) (s : State) : exec (.enq h) s = execEnq h s := rfl

theorem exec_yield (h : Hdr) (s : State) : exec (.yield h) s = execYield h s := rfl

theorem exec_fopen (h : Hdr) (s : State) : exec (.fopen h) s = execFopen h s := rfl

theorem exec_fclose (h : Hdr) (s : State) : exec (.fclose h) s = execFclose h s := rfl

theorem exec_fwait (h : Hdr) (s : State) : exec (.fwait h) s = execFwait h s := rfl

theorem exec_waitc (h : Hdr) (s : State) : exec (.waitc h) s = execWaitc h s := rfl

/-- An instruction with an effect at a station that acts and has no operands to take sends what it holds. -/
theorem fireEff_idle {s : State} {st : SRef} {i : Nat} {h : Hdr} {data : List Slot} {repl imm : Word} {y : Inst}
    (ha : s.acts st i) (hy : (s.drain st i).inst? st = some y) (hr : y.readies i h data repl imm true = [])
    (eff : SRef → Nat → Ready → State → Eff) : fireEff h data repl imm eff s = .next (s.drain st i) := by
  rw [fireEff, atStation_acts ha]
  simp [hy, hr, tryPicks]

/-! `ENQ`, `YIELD` and scopes -/

/-- The append of `ENQ` begins once its descriptor has been read (R251). -/
theorem exec_enq_goes {s : State} {st : SRef} {i : Nat} {h : Hdr} {r : Ready} {t : Strand} {x : Slice} {l : Xlat}
    (hg : s.goes st i h (optB s) 0 0 r) (ht : (s.drain st i).strand? st = some t)
    (hx : (s.drain st i).slice? st.slice = some x)
    (hl : (s.drain st i).translate t.core (alignDown r.v.a 64) 1 (.station st i r.tag r.idx) = .ok l)
    (hb : (s.drain st i).barred (some st) l.pa 64 = false) :
    let v := ((s.drain st i).yardFor (.of t.core) l l.pa 64).touchLoad t.core l l.pa
    v.poisoned l.pa 64 = false → exec (.enq h) s =
      .next ((v.beginWait st i h (optB s) r .append).beginAppend ⟨wordsOf (rdBytes v.mem l.pa 64) 8,
        v.enqHandle x (if (optB s).contains .b then some r.v.b else none), .station st i r.tag r.idx⟩) := by
  intro v hp
  rw [exec_enq, execEnq]
  refine fireEff_goes hg ?_
  simp only [hx, ht, hl, hb, hp, v, Bool.false_eq_true, if_false]

theorem exec_yield_goes {s : State} {st : SRef} {i : Nat} {h : Hdr} {r : Ready} {x : Slice}
    (hg : s.goes st i h (optB s) 0 0 r) (hx : (s.drain st i).slice? st.slice = some x) :
    exec (.yield h) s = .next ((((s.drain st i).modInst st fun y =>
        { y with yield := some (y.yield.getD
          (r.v.a, if (optB s).contains .b then r.v.b else x.desc.getD 2 0)) }).consume st i h (optB s) r).emitData st i r 0) := by
  rw [exec_yield, execYield]
  refine fireEff_goes hg ?_
  simp only [hx]

/-- A wait for a scope begins, and ends at once where the scope is DONE or FREE (R254). -/
theorem exec_fwait_goes {s : State} {st : SRef} {i : Nat} {h : Hdr} {r : Ready} {t : Strand}
    (hg : s.goes st i h [.a] 0 0 r) (ht : (s.drain st i).strand? st = some t) :
    exec (.fwait h) s = .next (
      let x := ((s.drain st i).fscope (r.v.a.field 7 0)).state
      let w := (s.drain st i).beginWait st i h [.a] r (.scope (r.v.a.field 7 0))
      if x = .done ∨ x = .free then w.release st t.waits.length (BitVec.ofNat 64 x.code) false else w) := by
  rw [exec_fwait, execFwait]
  refine fireEff_goes hg ?_
  simp only [ht]

/-! Counters -/

section
variable {s : State} {st : SRef} {i : Nat} {h : Hdr} {t : Strand} (ha : s.acts st i)
  (ht : (s.drain st i).strand? st = some t)
include ha ht

/-- With no wait of the station in turn, `WAITC` takes its next element (R255). -/
theorem exec_waitc_takes {r : Ready} {t' : Strand} (hn : t.counterWait i = none)
    (hg : (s.drain st i).goes st i h [.a, .b] 0 0 r) (ht' : ((s.drain st i).drain st i).strand? st = some t') :
    exec (.waitc h) s = .next ((((s.drain st i).drain st i).beginWait st i h [.a, .b] r
      (.counter (counterAt r.v.a) r.v.b)).repoll st t'.waits.length) := by
  rw [exec_waitc, execWaitc, atStation_acts ha]
  simp only [ht, hn]
  exact fireEff_goes hg (by simp only [ht'])

/-- A wait of the station in turn reads its counter again (R255). -/
theorem exec_waitc_rereads {n : Nat} {y : Inst} (hn : t.counterWait i = some n)
    (hr : ((s.drain st i).repoll st n).acts st i)
    (hy : (((s.drain st i).repoll st n).drain st i).inst? st = some y) (hi : y.readies i h [.a, .b] 0 0 true = []) :
    exec (.waitc h) s = .next (((s.drain st i).repoll st n).drain st i) := by
  rw [exec_waitc, execWaitc, atStation_acts ha]
  simp only [ht, hn]
  exact fireEff_idle hr hy hi _

end

/-- What a read of a counter comes to, where nothing keeps it from its word (R255). -/
theorem poll_reads {u : State} {st : SRef} {core i tag idx : Nat} {va : Word} {l : Xlat}
    (hl : u.translate core va 1 (.station st i tag idx) = .ok l) (hb : u.barred (some st) l.pa 8 = false)
    (hp : (u.yardFor (.of core) l l.pa 8).poisoned l.pa 8 = false) (target : Word) :
    u.poll st core i tag idx va target =
      let v := (u.yardFor (.of core) l l.pa 8).touchLoad core l l.pa
      if target ≤ rdWord v.mem l.pa then .value v (rdWord v.mem l.pa) else .later v := by
  simp [State.poll, hl, hb, hp, BitVec.le_def]

section
variable {u : State} {st : SRef} {t : Strand} {n : Nat} {w : Wait} {va target : Word} (ht : u.strand? st = some t)
  (hw : t.waits[n]? = some w) (hk : w.kind = .counter va target)
include ht hw hk

theorem repoll_later {v : State} (hp : u.poll st t.core w.node w.tok.tag w.tok.idx va target = .later v) :
    u.repoll st n = v := by
  simp [State.repoll, ht, hw, hk, hp]

theorem repoll_value {v : State} {d : Word} (hp : u.poll st t.core w.node w.tok.tag w.tok.idx va target = .value v d) :
    u.repoll st n = v.release st n d false := by
  simp [State.repoll, ht, hw, hk, hp]

end

/-- Settles O35: each instruction's effect is the one that its hypotheses leave, and the wait of `WAITC` is released alone. -/
theorem schedulingComplete : Obligations.SchedulingComplete := by
  unfold Obligations.SchedulingComplete
  intro s st i h r t x u ht hx
  refine ⟨fun hg => ⟨fun l hl hb => exec_enq_goes hg ht hx hl hb, exec_yield_goes hg hx⟩, fun tag ws v hg => ?_,
    fun hg => ⟨?_, fun hs => ?_, fun hs => ?_⟩, fun hn hg t' ht' ha => exec_waitc_takes ha ht hn hg ht',
    fun n y hn ha hr hy hi => exec_waitc_rereads ha ht hn hr hy hi,
    fun n w va target l t' hw hk hl hb hp ht' hw' hf hr => ?_⟩
  · rw [exec_fopen, execFopen]
    exact fireGather_gathers hg rfl
  · rw [exec_fclose, execFclose]
    exact fireEff_goes hg rfl
  · rw [exec_fwait_goes hg ht]
    have hn : ¬ ((u.fscope (r.v.a.field 7 0)).state = .done ∨ (u.fscope (r.v.a.field 7 0)).state = .free) := by
      rcases hs with hs | hs <;> simp [hs]
    exact congrArg _ (if_neg hn)
  · rw [exec_fwait_goes hg ht]
    exact congrArg _ (if_pos hs)
  · have hpoll := poll_reads hl hb hp target
    refine ⟨fun hd => repoll_later ht hw hk (hpoll.trans (if_neg (BitVec.not_le.mpr hd))), fun hd => ?_⟩
    rw [repoll_value ht hw hk (hpoll.trans (if_pos hd))]
    refine release_first ht' hw' hf (fun z hz => ?_) _ _
    obtain ⟨m, hm⟩ := List.mem_iff_getElem?.mp hz
    unfold Wait.isReady
    split
    · next e he => exact absurd he (hr m z e hm)
    · rfl

end Sys2Proof.Machine
end

section
/-! SUPPORT and proofs. The events of queues and the timetable (R214, R218–R220, R226–R230, R235, R384) complete. -/

namespace Sys2Proof.Machine

theorem exec_queueTableChange (q : Nat) (s : State) : exec (.queueTableChange q) s = execQueueTableChange q s := rfl

theorem exec_pubObserved (q : Nat) (s : State) : exec (.pubObserved q) s = execPubObserved q s := rfl

theorem exec_queueAppend (n : Nat) (s : State) : exec (.queueAppend n) s = .next (s.makeAppend n) := rfl

theorem exec_dispatchPass (s : State) : exec .dispatchPass s = execDispatchPass s := rfl

theorem exec_appendOp (n : Nat) (s : State) : exec (.appendOp n) s = execAppendOp n s := rfl

/-! Table entries (R214, R220) -/

section
variable {s : State} {q : Nat} {ws : List Word} (hw : (s.unitSees (s.tableAt q) 32).tableWords q = some ws)
include hw

/-- A queue that becomes DISABLED drops its snapshots. -/
theorem takeUp_disabled (hn : (entryOf ws).state = .disabled) : s.takeUp q =
    ((s.unitSees (s.tableAt q) 32).discard q ((s.unitSees (s.tableAt q) 32).queue q).snaps.length).setQueue q
      { entryOf ws with read := 0 } := by
  simp [State.takeUp, hw, hn]

/-- A queue that becomes ENABLED is read on from its CONS. -/
theorem takeUp_enabled {p : Xlat} {c : Nat} (hn : (entryOf ws).state = .enabled)
    (ho : ((s.unitSees (s.tableAt q) 32).queue q).state ≠ .enabled)
    (hc : (s.unitSees (s.tableAt q) 32).cons (entryOf ws) = some (p, c)) : s.takeUp q =
    (s.unitSees (s.tableAt q) 32).setQueue q { entryOf ws with
      read := max c ((s.unitSees (s.tableAt q) 32).queue q).read, snaps := ((s.unitSees (s.tableAt q) 32).queue q).snaps } := by
  simp [State.takeUp, hw, hn, ho, hc]

/-- Otherwise it keeps what it has read. -/
theorem takeUp_kept (hn : (entryOf ws).state ≠ .disabled)
    (ho : (entryOf ws).state = .enabled → ((s.unitSees (s.tableAt q) 32).queue q).state = .enabled) : s.takeUp q =
    (s.unitSees (s.tableAt q) 32).setQueue q { entryOf ws with
      read := ((s.unitSees (s.tableAt q) 32).queue q).read, snaps := ((s.unitSees (s.tableAt q) 32).queue q).snaps } := by
  have he : ¬ ((entryOf ws).state = .enabled ∧ ((s.unitSees (s.tableAt q) 32).queue q).state ≠ .enabled) :=
    fun h => h.2 (ho h.1)
  simp only [State.takeUp, hw, if_neg hn, if_neg he]

end

theorem exec_queueTableChange_takeUp {s : State} {q : Nat} (hq : q < Config.queues) :
    exec (.queueTableChange q) s = .next (s.takeUp q) := by
  rw [exec_queueTableChange, execQueueTableChange, if_pos hq]

/-! Published entries (R218) -/

theorem exec_pubObserved_reads {s u : State} {q a p c : Nat} {b d : Xlat} (hs : (s.queue q).state = .enabled)
    (ha : s.unitAt (s.queue q).rbase 1 = some a) (hp : (s.seeCounts (s.queue q)).pub (s.queue q) 1 = some (b, p))
    (hc : (s.seeCounts (s.queue q)).cons (s.queue q) = some (d, c)) (hcp : c ≤ p) (hpc : p ≤ c + 2 ^ (s.queue q).log)
    (hr : (s.seeCounts (s.queue q)).readEntries q (p - max c (s.queue q).read) (max c (s.queue q).read) = some u) :
    exec (.pubObserved q) s = .next u := by
  rw [exec_pubObserved, execPubObserved]
  simp only [hs, ha, hp, hc, hr, ne_eq, not_true, if_false, Option.isNone_some, Bool.false_eq_true, Nat.not_lt.mpr hcp,
    Nat.not_lt.mpr hpc]

/-! Appends (R219, R235) -/

/-- The append of an `ENQ` of a strand that runs is made, and the wait released with the entry's number (R251). -/
theorem makeAppend_station {s u : State} {n j k i tag idx : Nat} {a : Append} {st : SRef} {t : Strand}
    (ha : s.appends[n]? = some a) (hw : a.who = .station st i tag idx) (hr : s.runs st = true)
    (hu : s.appendPlain (some st) a.handle a.desc = .ok u j) (ht : u.strand? st = some t) (hk : t.waitOf i tag idx = some k) :
    s.makeAppend n =
      ({ u with appends := dropAt u.appends n } : State).release st k (BitVec.ofNat 64 (j % 2 ^ 63)) false := by
  have ht' : ({ u with appends := dropAt u.appends n } : State).strand? st = some t := ht
  simp only [State.makeAppend, ha, hw, hr, if_true, State.enqStep, hu, Appended.state, ht', hk, enqWord]

/-- The append of a continuation is made. -/
theorem makeAppend_yield {s u : State} {n j sl q : Nat} {a : Append} (ha : s.appends[n]? = some a)
    (hw : a.who = .yield sl q) (hu : s.appendCont a.handle a.desc = .ok u j) :
    s.makeAppend n = { u with appends := dropAt u.appends n } := by
  simp only [State.makeAppend, ha, hw, State.contStep, hu]

/-! Passes of the timetable (R227–R230) -/

/-- A slice that is frozen to be moved is moved first. -/
theorem exec_dispatchPass_moves {s : State} {x : Slice} (hx : s.slices.find? Slice.toMove = some x) :
    exec .dispatchPass s = .next (s.finishMove x) := by
  simp only [exec_dispatchPass, execDispatchPass, hx]

/-- With nothing to move, to write out or to wait for, a pass sees to its first candidate. -/
theorem exec_dispatchPass_passes {s : State} (hm : s.slices.find? Slice.toMove = none)
    (hw : ∀ x ∈ s.slices, x.status = .frozen → x.leaving = true → s.writeOut x.id = none) (hc : s.clearing = false)
    (hv : s.view ≠ s.passView) : exec .dispatchPass s = .next ({ s with passView := s.view } : State).pass := by
  have hout : s.slices.find? (fun x => decide (x.status = .frozen) && x.leaving && (s.writeOut x.id).isSome) = none := by
    refine List.find?_eq_none.mpr fun x hx he => ?_
    simp only [Bool.and_eq_true, decide_eq_true_eq] at he
    obtain ⟨⟨hf, hl⟩, ho⟩ := he
    simp [hw x hx hf hl] at ho
  have hgo : (s.clearing || s.view == s.passView) = false := by simp [hc, hv]
  simp only [exec_dispatchPass, execDispatchPass, hm, hout, hgo, Bool.false_eq_true, if_false]

section
variable {u : State} {c : Cand} (hc : u.firstCand = some c)
include hc

theorem pass_refuses {q k : Nat} {n : Snap} (he : c = .head q n) (hr : u.refusalOf n = some k) : u.pass = u.refuse q n k := by
  subst he
  simp only [State.pass, hc, hr, Option.map_some]

/-- A candidate that is no head to refuse, and that finds its cores, enters on them. -/
theorem pass_places {mv : Move} (hr : ∀ q n, c = .head q n → u.refusalOf n = none) (hm : u.placeCand [] c = some mv) :
    u.pass = u.enter c mv := by
  cases c with
  | evicted id => simp only [State.pass, hc, hm]
  | head q n => simp only [State.pass, hc, hr q n rfl, Option.map_none, hm]

/-- For one that finds none, room is made. -/
theorem pass_makesRoom (hr : ∀ q n, c = .head q n → u.refusalOf n = none) (hm : u.placeCand [] c = none) :
    u.pass = u.makeRoom c := by
  cases c with
  | evicted id => simp only [State.pass, hc, hm]
  | head q n => simp only [State.pass, hc, hr q n rfl, Option.map_none, hm]

end

/-! Appends of messages (R384) -/

theorem exec_appendOp_pulls {s : State} {n : Nat} {o : Op} (ho : s.op? n = some o) (hp : portOf (o.words.getD 0 0) = 4)
    (hs : o.stage ≠ .ended) (hf : s.opFirst n o = true) :
    exec (.appendOp n) s = .next (s.pull n 0 o (spansIn true (alignDown (o.words.getD 1 0) 64).toNat 64 none) fun bs =>
      (s.modOp n fun o => { o with stage := .active }).appendFor n o (wordsOf bs 8)) := by
  simp only [exec_appendOp, execAppendOp, ho, hp, hs, hf, ne_eq, not_true, Bool.not_true, Bool.false_eq_true, or_self, if_false]
  rfl

theorem appendFor_ok {s v : State} {n j : Nat} {o : Op} {d : List Word}
    (h : s.appendPlain none ((o.words.getD 2 0).field 31 0) d = .ok v j) :
    s.appendFor n o d = v.endOp n 0 0 (some (BitVec.ofNat 64 (j % 2 ^ 63))) := by
  simp only [State.appendFor, h]

/-- Settles O53: each event by the lemma about the function that it makes. -/
theorem queueEvents : Obligations.QueueEvents := by
  unfold Obligations.QueueEvents
  refine ⟨?_, ?_, ?_, fun s x hx => exec_dispatchPass_moves hx, ?_, ?_, fun s v n j o d h => appendFor_ok h⟩
  · intro s q ws hq v hw old new
    rw [exec_queueTableChange_takeUp hq]
    refine ⟨fun hn => congrArg _ (takeUp_disabled hw hn), fun p c hn ho hc => congrArg _ (takeUp_enabled hw hn ho hc),
      fun hn => congrArg _ ?_⟩
    rcases hn with hn | hn | ⟨hn, ho⟩
    · exact takeUp_kept hw (by simp [new, hn]) (by simp [new, hn])
    · exact takeUp_kept hw (by simp [new, hn]) (by simp [new, hn])
    · exact takeUp_kept hw (by simp [new, hn]) fun _ => ho
  · intro s u q a p c b d hs ha v hp hc hcp hpc hr
    exact exec_pubObserved_reads hs ha hp hc hcp hpc hr
  · intro s u n j a ha
    rw [exec_queueAppend]
    exact ⟨fun st i tag idx t k hw hr hu ht hk => congrArg _ (makeAppend_station ha hw hr hu ht hk),
      fun sl q hw hu => congrArg _ (makeAppend_yield ha hw hu)⟩
  · intro s c hm hw hcl hv u hc
    rw [exec_dispatchPass_passes hm hw hcl hv]
    refine ⟨fun q n k he hr => congrArg _ (pass_refuses hc he hr), fun q n mv he hr hmv => ?_, fun id mv he hmv => ?_,
      fun hr hmv => ?_⟩
    · rw [pass_places hc (fun _ _ hh => by cases he.symm.trans hh; exact hr) hmv, he, State.enter]
    · rw [pass_places hc (fun _ _ hh => by cases he.symm.trans hh) hmv, he, State.enter]
    · rw [pass_makesRoom hc hr hmv]
  · intro s n o ho hp hs hf va
    exact readsThen_of_pull (exec_appendOp_pulls ho hp hs hf)

end Sys2Proof.Machine
end

section
/-! SUPPORT and proofs. `BCAST` (R245). -/

namespace Sys2Proof.Machine

/-- A lane is a number of its width. -/
theorem lane_mod (t : Ty) (w : Word) (k : Nat) : lane t w k % 2 ^ t.width = lane t w k := Nat.mod_mod _ _

/-- Lane 0 is the low part of the datum. -/
theorem lane_zero (t : Ty) (w : Word) : lane t w 0 = w.toNat % 2 ^ t.width := by
  rw [lane, Nat.mul_zero, Nat.pow_zero, Nat.div_one]

/-- A datum built lane by lane, as a number: its lanes fit a word. -/
theorem toNat_ofLanes (t : Ty) (f : Nat → Nat) : (ofLanes t f).toNat = packLanes t.width f t.lanes := by
  rw [ofLanes, BitVec.toNat_ofNat]
  exact Nat.mod_eq_of_lt (Nat.lt_of_lt_of_le (packLanes_lt _ _ _) (Nat.pow_le_pow_right (by decide) (lanes_fit t)))

/-- A datum of a type with one lane is that lane. -/
theorem toNat_ofLanes_of_one_lane {t : Ty} (ht : t.lanes = 1) (f : Nat → Nat) :
    (ofLanes t f).toNat = f 0 % 2 ^ t.width := by
  rw [toNat_ofLanes, ht]
  simp [packLanes]

/-- Lane 0 in every lane of a type with one lane is the low part of the datum. -/
theorem toNat_broadcast_of_one_lane {t : Ty} (ht : t.lanes = 1) (w : Word) :
    (ofLanes t fun _ => lane t w 0).toNat = w.toNat % 2 ^ t.width := by
  rw [toNat_ofLanes_of_one_lane ht, lane_mod, lane_zero]

/-- Settles O32: every lane that `BCAST` packs is lane 0, and `.q` and `.f` have that lane alone, of 64 and of 32 bits. -/
theorem broadcastMoves : Obligations.BroadcastMoves := by
  unfold Obligations.BroadcastMoves
  intro s st i h r hg
  refine ⟨ofLanes h.ty fun _ => lane h.ty r.v.a 0, ?_, fun k hk => ?_, fun hq => ?_, fun hf => ?_⟩
  · rw [exec_bcast, firePure_goes hg]
  · rw [lane_ofLanes _ _ hk, lane_mod]
  · rw [hq]
    exact BitVec.eq_of_toNat_eq ((toNat_broadcast_of_one_lane rfl r.v.a).trans (Nat.mod_eq_of_lt r.v.a.isLt))
  · rw [hf]
    exact toNat_broadcast_of_one_lane rfl r.v.a

end Sys2Proof.Machine
end

section
/-! SUPPORT and proofs. Full/empty words (R273, R317, R318) complete. -/

namespace Sys2Proof.Machine

theorem exec_ldf (h : Hdr) (x : MemImm) (s : State) :
    exec (.ldf h x) s = fullEmpty h x [.a] (some true) false false s := rfl

theorem exec_ldfk (h : Hdr) (x : MemImm) (s : State) :
    exec (.ldfk h x) s = fullEmpty h x [.a] (some true) false true s := rfl

theorem exec_ste (h : Hdr) (x : MemImm) (s : State) :
    exec (.ste h x) s = fullEmpty h x [.a, .b] (some false) true true s := rfl

theorem exec_stf (h : Hdr) (x : MemImm) (s : State) : exec (.stf h x) s = fullEmpty h x [.a, .b] none true true s := rfl

theorem exec_feset (h : Hdr) (x : MemImm) (s : State) :
    exec (.feset h x) s = fireEff h [.a, .b, .c] 0 0 (fesetEff h x) s := rfl

/-- An element that stands in a queue, or whose place has come, is not held back. -/
theorem not_heldBack {α : Type} {o : Option α} {b : Bool} (h : o.isSome = true ∨ b = true) :
    (o.isNone && !b) = false := by
  rcases h with h | h
  · rw [← Option.not_isSome, h]; rfl
  · rw [h, Bool.not_true, Bool.and_false]

/-- A full/empty access at its turn, whose words are in the state that it needs, is made (R273, R317). -/
theorem fullEmpty_goes {s : State} {st : SRef} {i : Nat} {h : Hdr} {x : MemImm} {data : List Slot} {r : Ready} {t : Strand}
    {want : Option Bool} {write after : Bool} (hg : s.goes st i h data 0 0 r) (ht : (s.drain st i).strand? st = some t) :
    let u := s.drain st i
    let size := accSize h.ty
    let a := alignDown (effAddr r.v.a 11 x.off.toNat size) size
    let k := localPlace t.core a
    let ws := (List.range (size / 4)).map fun n => (k - 281474976710656) / 4 + n
    let q := (t.reqOf i r.tag r.idx).getD ⟨i, r.tag, r.idx, ws, if want = some true then 1 else 0, u.cycles⟩
    let v := u.takePlace st i r.tag r.idx
    u.localMode st t.core a = some .scratch → u.barred (some st) k size = false →
    (t.reqOf i r.tag r.idx).isSome = true ∨ u.mayGo st i r.tag r.idx = true →
    (want.isSome = true → u.reqMet q = true ∧ u.servedLater st t q = false) →
    (write = false → u.poisoned k size = false) →
    fullEmpty h x data want write after s =
      .next (((((if write then v.wrAt k (leBytes r.v.b.toNat size) else v).setFull after ws).dropReq st i r.tag
        r.idx).consume st i h data r).emitData st i r (if write then 0 else rawWord h.ty (leNat (v.rdAt k size)))) := by
  intro u size a k ws q v hm hb ho hw hp
  have hwait : (want.isSome && (!u.reqMet q || u.servedLater st t q)) = false := by
    cases hs : want.isSome with
    | false => rfl
    | true => simp only [hw hs, Bool.not_true, Bool.or_false, Bool.and_false]
  have hpoison : (!write && u.poisoned k size) = false := by
    cases hs : write with
    | false => exact hp hs
    | true => rfl
  refine fireEff_goes hg ?_
  simp only [ht]
  rw [if_neg (ne_true_of_eq_false (not_heldBack ho)), hm]
  dsimp only
  rw [if_neg (ne_true_of_eq_false hwait), if_neg (ne_true_of_eq_false hb), if_neg (ne_true_of_eq_false hpoison)]

/-- Of an element that is in progress no other one is, and one that begins has its place. -/
theorem feset_not_held {nd : Node} {tag idx : Nat} {b : Bool}
    (h : (nd.fesetDone tag idx).isSome = true ∨ (nd.ext.fesetRun = none ∧ b = true)) :
    ((nd.fesetDone tag idx).isNone && (nd.ext.fesetRun.isSome || !b)) = false := by
  rcases h with h | ⟨h, hb⟩
  · rw [← Option.not_isSome, h]; rfl
  · rw [h, hb]; exact Bool.and_false _

section
variable {u : State} {st : SRef} {i : Nat} {h : Hdr} {x : MemImm} {r : Ready} {t : Strand} {nd : Node}
  (ht : u.strand? st = some t) (hn : u.node? st i = some nd)
  (hr : (nd.fesetDone r.tag r.idx).isSome = true ∨ (nd.ext.fesetRun = none ∧ u.mayGo st i r.tag r.idx = true))
include ht hn hr

/-- A `FESET` of no word ends at once (R318). -/
theorem fesetEff_none (h0 : r.v.b.field 31 0 = 0) :
    fesetEff h x st i r u = .done ((u.consume st i h [.a, .b, .c] r).emitData st i r 0) := by
  simp only [fesetEff, ht, hn, feset_not_held hr, h0, Bool.false_eq_true, if_false, if_true]

/-- A step of a `FESET` within one SCRATCH bank sets its next word (R318). -/
theorem fesetEff_word :
    let f := alignDown (effAddr r.v.a 11 x.off.toNat 4) 4
    let n := r.v.b.field 31 0
    let run := nd.fesetDone r.tag r.idx
    u.localMode st t.core f = some .scratch → 0 < n → n ≤ 65536 → f.field 17 0 + 4 * n ≤ 262144 →
    fesetEff h x st i r u = .done (fesetWord h t.core f st i r (run.getD 0) n
      (if run.isNone then u.takePlace st i r.tag r.idx else u)) := by
  intro f n run hm h0 hn' hf
  have htrap : (decide (65536 < n) || decide (262144 < f.field 17 0 + 4 * n) ||
      decide (u.localMode st t.core f ≠ some .scratch)) = false := by
    simp [hm, hn', hf]
  simp only [fesetEff, ht, hn, feset_not_held hr, Bool.false_eq_true, if_false]
  rw [if_neg (Nat.ne_of_gt h0), if_neg (ne_true_of_eq_false htrap)]

end

/-- Settles O40: the four accesses are one shape, and each step of `FESET` is the next of its words. -/
theorem fullEmptyComplete : Obligations.FullEmptyComplete := by
  unfold Obligations.FullEmptyComplete
  intro s st i h x r t u size a k ws q leaves v loaded stored ht
  refine ⟨fun hm hb ho => ⟨fun hg hp hq hs => ⟨?_, ?_⟩, fun hg => ⟨?_, fun hq hs => ?_⟩⟩,
    fun nd hg hn => ?_⟩
  · rw [exec_ldf]
    exact fullEmpty_goes hg ht hm hb ho (fun _ => ⟨hq, hs⟩) fun _ => hp
  · rw [exec_ldfk]
    exact fullEmpty_goes hg ht hm hb ho (fun _ => ⟨hq, hs⟩) fun _ => hp
  · rw [exec_stf]
    simpa only [↓reduceIte] using fullEmpty_goes (write := true) (want := none) (after := true) hg ht hm hb ho
      (fun hw => nomatch hw) (fun hw => nomatch hw)
  · rw [exec_ste]
    simpa only [↓reduceIte] using fullEmpty_goes (write := true) (want := some false) (after := true) hg ht hm hb ho
      (fun _ => ⟨hq, hs⟩) (fun hw => nomatch hw)
  · rw [exec_feset]
    intro run hr f n ends
    exact ⟨fun h0 => fireEff_goes hg (fesetEff_none ht hn hr h0),
      fun hm h0 hn' hf => fireEff_goes hg (fesetEff_word ht hn hr hm h0 hn' hf)⟩

end Sys2Proof.Machine
end

section
/-! SUPPORT. What a bank holds after it has entered a mode (R268, R269). -/

namespace Sys2Proof.Machine

/-- A cleared range reads the default. -/
theorem table_get_clear_inside {α : Type} {d : α} (t : Table α) {lo hi k : Nat} (hlo : lo ≤ k) (hhi : k < hi) :
    Table.get d (Table.clear t lo hi) k = d := by
  induction t with
  | nil => rfl
  | cons e r ih =>
    by_cases he : e.1 < lo ∨ hi ≤ e.1
    · have hk : e.1 ≠ k := by omega
      simpa [Table.clear, List.filter_cons, he, Table.get, hk] using ih
    · simpa [Table.clear, List.filter_cons, he] using ih

/-- Outside a cleared range everything reads as before. -/
theorem table_get_clear_outside {α : Type} {d : α} (t : Table α) {lo hi k : Nat} (hk : k < lo ∨ hi ≤ k) :
    Table.get d (Table.clear t lo hi) k = Table.get d t k := by
  induction t with
  | nil => rfl
  | cons e r ih =>
    by_cases he : e.1 < lo ∨ hi ≤ e.1
    · simp only [Table.clear, List.filter_cons, he, decide_true, if_true, Table.get]
      exact ite_congr rfl (fun _ => rfl) fun _ => ih
    · have hne : e.1 ≠ k := by omega
      simpa [Table.clear, List.filter_cons, he, Table.get, hne] using ih

/-- A byte of another bank lies outside the bytes of a bank. -/
theorem localKey_outside {core b c d k : Nat} (hb : b < 16) (hd : d < 16) (hk : k < 262144) (hne : c ≠ core ∨ d ≠ b) :
    localKey c d k < localKey core b 0 ∨ localKey core b 0 + 262144 ≤ localKey c d k := by
  unfold localKey
  omega

/-- A bank from number 2 on reads as it was set. -/
theorem bank_setBank_same (s : State) {core b : Nat} (hb : 2 ≤ b) (k : Bank) : (s.setBank core b k).bank core b = k := by
  rw [State.bank, if_neg (by omega), State.setBank, table_get_set_same]

/-- Another bank is left as it is. -/
theorem bank_setBank_other (s : State) {core b c d : Nat} (hb : b < 16) (hd : d < 16) (hne : c ≠ core ∨ d ≠ b) (k : Bank) :
    (s.setBank core b k).bank c d = s.bank c d := by
  unfold State.bank State.setBank
  rw [table_get_set_other _ _ (by omega)]

section
variable (s : State) (m : Mode) {core b : Nat}

theorem rdByte_enterMode_same {k : Nat} (hk : k < 262144) : rdByte (s.enterMode core b m).loc (localKey core b k) = 0 :=
  table_get_clear_inside s.loc (by unfold localKey; omega) (by unfold localKey; omega)

theorem fullBit_enterMode_same {k : Nat} (hk : k < 65536) :
    (s.enterMode core b m).fullBit (localKey core b 0 / 4 + k) = false :=
  table_get_clear_inside s.full (Nat.le_add_right _ _) (Nat.add_lt_add_left hk _)

theorem bank_enterMode_same (hb : 2 ≤ b) : (s.enterMode core b m).bank core b = ⟨m, [], [], [], 0⟩ := bank_setBank_same _ hb _

section
variable {c d : Nat} (hb : b < 16) (hd : d < 16) (hne : c ≠ core ∨ d ≠ b)
include hb hd hne

theorem bank_enterMode_other : (s.enterMode core b m).bank c d = s.bank c d := bank_setBank_other _ hb hd hne _

theorem rdByte_enterMode_other {k : Nat} (hk : k < 262144) :
    rdByte (s.enterMode core b m).loc (localKey c d k) = rdByte s.loc (localKey c d k) :=
  table_get_clear_outside s.loc (localKey_outside hb hd hk hne)

end
end

end Sys2Proof.Machine
end

section
/-! SUPPORT and proofs. Tile and bank instructions (R274–R277, R326–R329) complete. -/

namespace Sys2Proof.Machine

theorem exec_tdef (h : Hdr) (x : TileImm) (s : State) : exec (.tdef h x) s = execTdef h x s := rfl

theorem exec_tfree (h : Hdr) (x : TileImm) (s : State) :
    exec (.tfree h x) s = tileChange h x (fun _ => TileEnt.reset) s := rfl

theorem exec_tready (h : Hdr) (x : TileImm) (s : State) :
    exec (.tready h x) s = tileChange h x (fun e => { e with state := .ready }) s := rfl

theorem exec_tstate (h : Hdr) (x : TileImm) (s : State) : exec (.tstate h x) s = execTstate h x s := rfl

theorem exec_tld (h : Hdr) (x : TileImm) (s : State) : exec (.tld h x) s = execTld h x s := rfl

theorem exec_tst (h : Hdr) (x : TileImm) (s : State) : exec (.tst h x) s = execTst h x s := rfl

theorem exec_bankmode (h : Hdr) (x : BankImm) (s : State) : exec (.bankmode h x) s = execBankmode h x s := rfl

/-! Steps at a tile -/

/-- A step at a tile whose turn has come is made, and its element waits no longer (R277). -/
theorem tileStep_atTurn {u : State} {st : SRef} {t : Strand} {i : Nat} {r : Ready} {k want : Nat}
    (ha : atTurn u t i r k want = true) (go : State → Eff) :
    tileStep u st t i r k want go = go (u.dropReq st i r.tag r.idx) :=
  if_pos ha

section
variable {s : State} {st : SRef} {i : Nat} {h : Hdr} {x : TileImm} {r : Ready} {t : Strand}
  (hg : s.goes st i h [.a] 0 0 r) (ht : (s.drain st i).strand? st = some t)
include hg ht

theorem exec_tstate_goes : exec (.tstate h x) s =
    .next ((((s.drain st i).noteAt st i r.tag).consume st i h [.a] r).emitData st i r
      ((s.drain st i).tile (t.tileKey x.tile.toNat)).low) := by
  rw [exec_tstate, execTstate]
  refine fireEff_goes hg ?_
  simp only [ht]

/-- `TFREE` and `TREADY` change an entry with a shape at their turn (R276, R326). -/
theorem tileChange_goes (f : TileEnt → TileEnt) :
    let u := s.drain st i
    let k := t.tileKey x.tile.toNat
    let v := u.dropReq st i r.tag r.idx
    (u.tile k).defd = true → atTurn u t i r k 5 = true →
    tileChange h x f s = .next ((((v.noteAt st i r.tag).setTile k (f (v.tile k))).consume st i h [.a] r).emitData st i r 0) := by
  intro u k v hd ha
  refine fireEff_goes hg ?_
  simp only [ht, hd, u, k, Bool.not_true, Bool.false_eq_true, if_false]
  exact tileStep_atTurn ha _

/-- `TDEF` gives an entry the shape of its record at its turn (R274, R326). -/
theorem exec_tdef_goes {l : Xlat} {e : TileEnt} :
    let u := s.drain st i
    let k := t.tileKey x.tile.toNat
    let v := u.yardFor (.of t.core) l l.pa 16
    let ws := wordsOf (v.rdAt l.pa 16) 2
    u.translate t.core (alignDown r.v.a 16) 1 (.station st i r.tag r.idx) = .ok l →
    (t.reqOf i r.tag r.idx).isSome = true ∨ u.mayGo st i r.tag r.idx = true → u.barred (some st) l.pa 16 = false →
    v.poisoned l.pa 16 = false → shapeOf (ws.getD 0 0) (ws.getD 1 0) = some e → v.tileFits st t e = true →
    atTurn v t i r k 5 = true →
    exec (.tdef h x) s = .next ((((((v.dropReq st i r.tag r.idx).takePlace st i r.tag r.idx).touchLoad t.core l
      l.pa).setTile k e).consume st i h [.a] r).emitData st i r 0) := by
  intro u k v ws hl ho hb hp he hf ha
  rw [exec_tdef, execTdef]
  refine fireEff_goes hg ?_
  simp only [ht, hl, u, not_heldBack ho, hb, hp, he, hf, v, ws, Bool.or_false, Bool.not_true, Bool.false_eq_true, if_false]
  exact tileStep_atTurn ha _

end

/-! `TLD` and `TST` -/

/-- The access of element `r` of a tile with entry `e` that its stream has taken or, when `first`, takes now: what
`tileElem` makes of it (`tileElem_takes`). -/
def tileAccess (h : Hdr) (fill first : Bool) (st : SRef) (i : Nat) (r : Ready)
    (act : TileEnt → Strand → ElemAt → State → State) (k : Nat) (e : TileEnt) (t : Strand) (s : State) : Eff :=
  match e.trapOf h.ty r.v.a.toNat with
  | some c => .done (s.trapStation st i c 0 r.tag r.idx 0 0)
  | none =>
    let w := e.at' t.core r.v.a.toNat
    let span := e.span h.ty w
    let q := w.scaleBytes e.fmt h.ty
    let acc := if fill then 2 else 1
    if !e.open' s st t.core h.ty w then .done (s.trapStation st i 0x13 0 r.tag r.idx acc 0)
    else if s.barred (some st) span.1 span.2 || s.barred (some st) q.1 q.2 then .wait s
    else if !fill && (s.poisoned span.1 span.2 || s.poisoned q.1 q.2) then
      .done (s.trapStation st i 0x50 0 r.tag r.idx acc 0)
    else
      let p := s.takePlace st i r.tag r.idx
      .done (act e t w (if first then
        (p.setTile k { e with state := if fill then .filling else .draining }).modNode st i fun m =>
          { m with ext := .tile (some r.tag) } else p))

section
variable {u : State} {st : SRef} {i : Nat} {h : Hdr} {r : Ready} {t : Strand} {fill : Bool}
  (act : TileEnt → Strand → ElemAt → State → State)

/-- An element whose stream has taken its tile, or takes it at its turn, accesses it (R276, R277). -/
theorem tileElem_takes {x : TileImm} {nd : Node} (ht : u.strand? st = some t) (hn : u.node? st i = some nd)
    (ho : (t.reqOf i r.tag r.idx).isSome = true ∨ u.mayGo st i r.tag r.idx = true) :
    let k := t.tileKey x.tile.toNat
    let first := decide (nd.ext.tileTag = none)
    nd.ext.tileTag = some r.tag ∨ (nd.ext.tileTag = none ∧ atTurn u t i r k (if fill then 0 else 2) = true) →
    (u.tile k).defd = true →
    tileElem h x fill st i r act u = tileAccess h fill first st i r act k (u.tile k) t
      (if first then u.dropReq st i r.tag r.idx else u) := by
  intro k first htake hd
  unfold tileElem
  simp only [ht, hn]
  rw [if_neg (ne_true_of_eq_false (not_heldBack ho)), if_neg (by rw [show (u.tile k).defd = true from hd]; decide)]
  rcases htake with htag | ⟨htag, hturn⟩
  · have hfirst : first = false := decide_eq_false (by rw [htag]; exact Option.some_ne_none _)
    rw [hfirst, htag]
    exact if_pos rfl
  · have hfirst : first = true := decide_eq_true htag
    rw [hfirst, htag]
    exact tileStep_atTurn hturn _

/-- An access of a tile whose bytes may be reached, and which nobody holds, is made (R315, R327). -/
theorem tileAccess_done {first : Bool} {k : Nat} {e : TileEnt} :
    let w := e.at' t.core r.v.a.toNat
    let span := e.span h.ty w
    let q := w.scaleBytes e.fmt h.ty
    let p := u.takePlace st i r.tag r.idx
    e.trapOf h.ty r.v.a.toNat = none → e.open' u st t.core h.ty w = true →
    u.barred (some st) span.1 span.2 = false → u.barred (some st) q.1 q.2 = false →
    (fill = false → u.poisoned span.1 span.2 = false ∧ u.poisoned q.1 q.2 = false) →
    tileAccess h fill first st i r act k e t u = .done (act e t w (if first then
      (p.setTile k { e with state := if fill then .filling else .draining }).modNode st i fun m =>
        { m with ext := .tile (some r.tag) } else p)) := by
  intro w span q p htr hop hb hq hp
  have hpoison : (!fill && (u.poisoned span.1 span.2 || u.poisoned q.1 q.2)) = false := by
    cases hf : fill with
    | false => rw [(hp hf).1, (hp hf).2]; rfl
    | true => rfl
  unfold tileAccess
  rw [htr]
  dsimp only
  rw [if_neg (by rw [hop]; decide), if_neg (by rw [hb, hq]; decide), if_neg (ne_true_of_eq_false hpoison)]

end

/-! `BANKMODE` -/

section
variable {s : State} {st : SRef} {i : Nat} {h : Hdr} {x : BankImm} {r : Ready} {t o : Strand}
  (hg : s.goes st i h [.a] 0 0 r) (ht : (s.drain st i).strand? st = some t)
  (ho : (s.drain st i).bankOwner t.core x.bank.toNat = some (st, o)) (hm : (s.drain st i).mayGo st i r.tag r.idx = true)
include hg ht ho hm

/-- A bank that is in the mode is left as it is (R329). -/
theorem exec_bankmode_same :
    let k := (s.drain st i).bank t.core x.bank.toNat
    k.mode = x.mode → exec (.bankmode h x) s = .next ((((s.drain st i).takePlace st i r.tag r.idx).consume st i h [.a]
      r).emitData st i r (k.mode.code.setWidth 64)) := by
  intro k hk
  rw [exec_bankmode, execBankmode]
  refine fireEff_goes hg ?_
  simp only [ht, ho, hm, decide_true, Bool.not_true, Bool.false_eq_true, if_false]
  exact if_pos hk

/-- A bank in another mode that holds nothing enters it (R268, R329). -/
theorem exec_bankmode_enters :
    let k := (s.drain st i).bank t.core x.bank.toNat
    k.mode ≠ x.mode → k.holds = false → exec (.bankmode h x) s =
      .next (((((s.drain st i).takePlace st i r.tag r.idx).enterMode t.core x.bank.toNat x.mode).consume st i h [.a]
        r).emitData st i r (k.mode.code.setWidth 64)) := by
  intro k hk hh
  rw [exec_bankmode, execBankmode]
  refine fireEff_goes hg ?_
  simp only [ht, ho, hm, decide_true, Bool.not_true, Bool.false_eq_true, if_false]
  exact (if_neg hk).trans (if_neg (ne_true_of_eq_false hh))

end

/-- Settles O42: each row by the lemma about its effect, and what a bank holds by the lemmas about a cleared range. -/
theorem tilesComplete : Obligations.TilesComplete := by
  unfold Obligations.TilesComplete
  refine ⟨?_, fun s core b m h2 hb => ?_⟩
  · intro s st i h r t u ht
    refine ⟨fun x hg => ?_, fun x nd fill hn ho => ?_, fun x o hg ho hm => ?_⟩
    · refine ⟨exec_tstate_goes hg ht, fun hd ha => ⟨?_, ?_⟩, fun l e hl hr hb => exec_tdef_goes hg ht hl hr hb⟩
      · rw [exec_tfree, tileChange_goes hg ht _ hd ha]
      · rw [exec_tready, tileChange_goes hg ht _ hd ha]
    · intro k e first htake b w span q p v hd htr hop hb hq
      have hdone (act) (hp : fill = false → b.poisoned span.1 span.2 = false ∧ b.poisoned q.1 q.2 = false) :
          tileElem h x fill st i r act u = .done (act e t w v) :=
        (tileElem_takes act ht hn ho htake hd).trans (tileAccess_done act htr hop hb hq hp)
      refine ⟨fun hf hg hp hpq => ?_, fun hf hg => ?_⟩
      · subst hf
        rw [exec_tld, execTld, fireEff_goes hg (hdone _ fun _ => ⟨hp, hpq⟩)]
      · subst hf
        rw [exec_tst, execTst, fireEff_goes hg (hdone _ fun hf => nomatch hf)]
    · exact ⟨exec_bankmode_same hg ht ho hm, exec_bankmode_enters hg ht ho hm⟩
  · exact ⟨fun k hk => rdByte_enterMode_same s m hk, fun k hk => fullBit_enterMode_same s m hk, bank_enterMode_same s m h2,
      fun c d hne hd => ⟨bank_enterMode_other s m hb hd hne, fun k hk => rdByte_enterMode_other s m hb hd hne hk⟩⟩

end Sys2Proof.Machine
end

section
/-! SUPPORT and proofs. `ATOM`, `PREF`, `FLUSH` and `WAITM` complete, and watches end (R290, R320, R321, R323–R325). -/

namespace Sys2Proof.Machine

theorem exec_atom (h : Hdr) (x : AtomImm) (s : State) : exec (.atom h x) s = execAtom h x s := rfl

theorem exec_pref (h : Hdr) (x : MemImm) (s : State) : exec (.pref h x) s = execPref h x s := rfl

theorem exec_flush (h : Hdr) (x : MemImm) (s : State) : exec (.flush h x) s = execFlush h x s := rfl

theorem exec_waitm (h : Hdr) (x : MemImm) (s : State) : exec (.waitm h x) s = execWaitm h x s := rfl

theorem exec_waitmWake (st : SRef) (n cause : Nat) (s : State) :
    exec (.waitmWake st n cause) s = execWaitmWake st n cause s := rfl

theorem exec_waitmTimeout (st : SRef) (n : Nat) (s : State) :
    exec (.waitmTimeout st n) s = execWaitmTimeout st n s := rfl

/-! Answers -/

theorem strand?_shape (s : State) (st : SRef) : (s.strand? st).map (fun t => t.inst.isSome) =
    (s.shape.2.find? fun p => p.1 == st.slice).bind fun p => p.2[st.rank]? := by
  rw [← slice?_shape, State.strand?]
  cases s.slice? st.slice with
  | none => rfl
  | some x => simp only [Slice.shape, Option.map_some, Option.bind_some, List.getElem?_map]

theorem strand?_of_shape {s u : State} (h : u.shape = s.shape) {st : SRef} {t : Strand} (ht : s.strand? st = some t) :
    ∃ t', u.strand? st = some t' := by
  have hs := strand?_shape u st
  rw [h, ← strand?_shape, ht] at hs
  obtain ⟨t', ht', -⟩ := Option.map_eq_some_iff.mp hs
  exact ⟨t', ht'⟩

/-- An answer that no earlier element of its tag holds back leaves at once (R25). -/
theorem answer_unowed {s : State} {st : SRef} {t : Strand} {i : Nat} {r : Ready} (ht : s.strand? st = some t)
    (ho : s.owesTag st i r.tag = false) (h : Hdr) (data : List Slot) (w : Word) :
    s.answer h data st i r w = (s.consume st i h data r).emitData st i r w := by
  have hq : t.owesTag i r.tag = false := by simpa only [State.owesTag, ht] using ho
  simp only [State.answer, ht, hq, Bool.false_eq_true, if_false]

/-! Rows that complete in one step -/

/-- An access whose place has come, to bytes that nobody holds, does not wait. -/
theorem not_waiting {go barred : Bool} (hg : go = true) (hb : barred = false) : (!go || barred) = false := by
  rw [hg, hb]; rfl

section
variable {s : State} {st : SRef} {i : Nat} {h : Hdr} {r : Ready} {t : Strand} (ht : (s.drain st i).strand? st = some t)
include ht

/-- `ATOM` reads, writes and emits the old element (R320, R321). -/
theorem exec_atom_goes {x : AtomImm} {l : Xlat} :
    let u := s.drain st i
    let data := if x.aop = .cas then [Slot.a, .b, .c] else [.a, .b]
    let size := if h.ty = .q then 8 else 4
    let v := ((u.takePlace st i r.tag r.idx).yardFor (.of t.core) l l.pa size).hostSend .read l.pa []
    let old := leNat (v.rdAt l.pa size)
    let o := atomNew x.aop h.ty (v.env st) old (lane h.ty r.v.b 0) (lane h.ty r.v.c 0)
    let w := if x.aop = .cas ∧ old ≠ lane h.ty r.v.b 0 then v
      else v.through (v.wrAt l.pa (leBytes o.1 size)) l l.pa size
    s.goes st i h data 0 0 r →
    u.translate t.core (alignDown (effAddr r.v.a 10 x.off.toNat size) size) 3 (.station st i r.tag r.idx) = .ok l →
    u.mayGo st i r.tag r.idx = true → u.barred (some st) l.pa size = false → v.poisoned l.pa size = false →
    exec (.atom h x) s = .next ((((w.touchStore t.core l.pa size).consume st i h data r).raise st o.2).emitData st i r
      (BitVec.ofNat 64 old)) := by
  intro u data size v old o w hg hl hm hb hp
  rw [exec_atom, execAtom]
  refine fireEff_goes hg ?_
  dsimp only
  rw [ht]
  dsimp only
  rw [hl]
  dsimp only
  rw [if_neg (ne_true_of_eq_false (not_waiting hm hb)), if_neg (ne_true_of_eq_false hp)]

/-- `PREF` emits its token, whatever it fetches (R323). -/
theorem exec_pref_goes {x : MemImm} (hg : s.goes st i h [.a] 0 0 r) :
    let u := s.drain st i
    exec (.pref h x) s = .next (((if x.cls = .random then
      u.prefetch t.core (alignDown (effAddr r.v.a 11 x.off.toNat 64) 64) else u).consume st i h [.a] r).emitData st i r 0) := by
  rw [exec_pref, execPref]
  refine fireEff_goes hg ?_
  dsimp only
  rw [ht]

/-- `FLUSH` writes its line back, drops the configurations that it overlaps and emits its token (R324). -/
theorem exec_flush_goes {x : MemImm} {l : Xlat} (hg : s.goes st i h [.a] 0 0 r) :
    let u := s.drain st i
    let va := alignDown (effAddr r.v.a 11 x.off.toNat 64) 64
    u.translateBy t.core va 0 (fun leaf => decide (leaf.field 3 1 ≠ 0)) (.station st i r.tag r.idx) = .ok l →
    exec (.flush h x) s = .next ((({ u.writeBack l.pa with
      cfgCache := (u.writeBack l.pa).cfgCache.filter fun c =>
        !(c.core == t.core && overlap c.block.image.toNat c.block.size va.toNat 64) } : State).consume st i h [.a]
          r).emitData st i r 0) := by
  intro u va hl
  rw [exec_flush, execFlush]
  refine fireEff_goes hg ?_
  dsimp only
  rw [ht]
  dsimp only
  rw [hl]

/-- `WAITM` loads its sector, and then answers 3 where its core has no monitor free or the element has already sent its output,
and arms a watch where not (R290, R325). -/
theorem exec_waitm_loads {x : MemImm} {l : Xlat} (hg : s.goes st i h [.a] 0 0 r) :
    let u := s.drain st i
    let y := (u.takePlace st i r.tag r.idx).yardFor (.of t.core) l l.pa 32
    let v := y.touchLoad t.core l l.pa
    u.translate t.core (alignDown (effAddr r.v.a 11 x.off.toNat 32) 32) 1 (.station st i r.tag r.idx) = .ok l →
    u.mayGo st i r.tag r.idx = true → u.barred (some st) l.pa 32 = false → y.poisoned l.pa 32 = false →
    exec (.waitm h x) s = .next (if Config.watchSize ≤ v.watches t.core ∨ v.hasTold st i r.tag r.idx = true then
      v.answer h [.a] st i r 3 else v.beginWait st i h [.a] r (.monitor (l.pa / 32) u.cycles 0)) := by
  intro u y v hl hm hb hp
  rw [exec_waitm, execWaitm]
  refine fireEff_goes hg ?_
  dsimp only
  rw [ht]
  dsimp only
  rw [hl]
  dsimp only
  rw [if_neg (ne_true_of_eq_false (not_waiting hm hb)), if_neg (ne_true_of_eq_false hp), apply_ite Eff.done]

end

/-! Watches -/

section
variable {s : State} {st : SRef} {z : Strand} {n sec armed seen : Nat} {w : Wait} (hz : s.strand? st = some z)
  (hw : z.waits[n]? = some w) (hk : w.kind = .monitor sec armed seen) (hr : s.runs st = true) (hf : z.firstWait n = true)
include hz hw hk hr hf

/-- A watch may end as LOST or SPURIOUS, and with WRITE once it has seen a write (R290). -/
theorem exec_waitmWake_ends {c : Nat} (hc : c = 2 ∨ c = 3 ∨ (c = 1 ∧ seen = 1)) :
    exec (.waitmWake st n c) s = .next (s.endWait st n (BitVec.ofNat 64 c) false) := by
  obtain ⟨i, tok, ops, kind⟩ := w
  obtain rfl : kind = .monitor sec armed seen := hk
  have hcause : (c == 2 || c == 3 || (c == 1 && seen == 1)) = true := by simpa [or_assoc] using hc
  rw [exec_waitmWake, execWaitmWake, hz]
  dsimp only
  rw [hw]
  dsimp only
  rw [hr, hf, hcause]
  rfl

theorem exec_waitmTimeout_ends (hc : armed + 1048576 ≤ s.cycles) :
    exec (.waitmTimeout st n) s = .next (s.endWait st n 4 false) := by
  obtain ⟨i, tok, ops, kind⟩ := w
  obtain rfl : kind = .monitor sec armed seen := hk
  rw [exec_waitmTimeout, execWaitmTimeout, hz]
  dsimp only
  rw [hw]
  dsimp only
  rw [hr, hf, decide_eq_true hc]
  rfl

end

/-- Settles O41: each row by its own lemma; a `WAITM` that loads its sector arms while a monitor is free, and answers 3 when
none is. -/
theorem atomicsComplete : Obligations.AtomicsComplete := by
  unfold Obligations.AtomicsComplete
  intro s st i h r t u ht
  refine ⟨fun x l => exec_atom_goes ht, fun x hg => ⟨exec_pref_goes ht hg, fun l => exec_flush_goes ht hg, ?_⟩, ?_⟩
  · intro l hl hm hb y v hp
    have hload := exec_waitm_loads (x := x) ht hg hl hm hb hp
    refine ⟨fun hfree htold => ?_, fun hfull howe => ?_⟩
    · have harm : ¬(Config.watchSize ≤ v.watches t.core ∨ v.hasTold st i r.tag r.idx = true) := by
        simp only [htold, Nat.not_le.mpr hfree, Bool.false_eq_true, or_self, not_false_eq_true]
      exact hload.trans (congrArg Host.Outcome.next (if_neg harm))
    · have hshape : v.shape = u.shape := (shape_touchLoad ..).trans ((shape_yardFor ..).trans (shape_takePlace ..))
      obtain ⟨t', ht'⟩ := strand?_of_shape hshape ht
      exact hload.trans (congrArg Host.Outcome.next ((if_pos (.inl hfull)).trans (answer_unowed ht' howe h [.a] 3)))
  · intro n sec armed seen w z hz hw hk hr hf
    exact ⟨fun c => exec_waitmWake_ends hz hw hk hr hf, exec_waitmTimeout_ends hz hw hk hr hf⟩

end Sys2Proof.Machine
end

section
/-! SUPPORT and proofs. Host accesses, mailbox commands, bring-up and errors complete (R189, R289, R427, R461, R467,
R472–R475). -/

namespace Sys2Proof.Machine

/-! Host accesses (R189, R289, R467) -/

section
variable {s : State} {link addr len : Nat} {write : Bool} {bs : List Byte} (hh : s.hostHead (link % 2) = none)
include hh

/-- An access behind which none waits is made where nobody holds its bytes, and waits where somebody does. -/
theorem exec_hostAccess_head : exec (.hostAccess link write addr len bs) s = .next (
    if s.hostBarred ⟨link % 2, write, addr, len, bs⟩ = true then
      { s with hostIn := s.hostIn ++ [⟨link % 2, write, addr, len, bs⟩] }
    else s.hostDo ⟨link % 2, write, addr, len, bs⟩) := by
  have he : exec (.hostAccess link write addr len bs) s = execHostAccess link write addr len bs s := rfl
  rw [he, execHostAccess]
  dsimp only
  rw [hh]

theorem exec_hostAccess_waits (hb : s.hostBarred ⟨link % 2, write, addr, len, bs⟩ = true) :
    exec (.hostAccess link write addr len bs) s =
      .next { s with hostIn := s.hostIn ++ [⟨link % 2, write, addr, len, bs⟩] } := by
  rw [exec_hostAccess_head hh, if_pos hb]

theorem exec_hostAccess_done (hb : s.hostBarred ⟨link % 2, write, addr, len, bs⟩ = false) :
    exec (.hostAccess link write addr len bs) s = .next (s.hostDo ⟨link % 2, write, addr, len, bs⟩) := by
  rw [exec_hostAccess_head hh, if_neg (ne_true_of_eq_false hb)]

end

/-- Bytes that nobody holds do not bar an access to them. -/
theorem hostBarred_free {s : State} {r : HostReq}
    (hp : ((piecesOf r.addr r.size).any fun p => s.barred none p.1 p.2) = false) : s.hostBarred r = false := by
  rw [State.hostBarred, hp, Bool.and_false]

/-- Nobody holds bytes above device memory (R189). -/
theorem hostBarred_above {s : State} {r : HostReq} (h : ¬ r.addr + r.size ≤ 2 ^ 40) : s.hostBarred r = false := by
  rw [State.hostBarred, decide_eq_false h, Bool.false_and]

theorem hostDo_load {s : State} {link addr len : Nat} {bs : List Byte} (h : addr + len ≤ 2 ^ 40) :
    s.hostDo ⟨link, false, addr, len, bs⟩ =
      (piecesOf addr len).foldl (fun (s : State) (p : Nat × Nat) => s.hostLoad link p) s :=
  if_pos h

theorem hostDo_store {s : State} {link addr len : Nat} {bs : List Byte} (h : addr + bs.length ≤ 2 ^ 40) :
    s.hostDo ⟨link, true, addr, len, bs⟩ = (piecesOf addr bs.length).foldl
      (fun (s : State) (p : Nat × Nat) => s.hostStore link p ((bs.drop (p.1 - addr)).take p.2)) s :=
  if_pos h

/-- A store of at least a byte above device memory reaches the mailbox (R467). -/
theorem hostDo_mailbox {s : State} {link addr len : Nat} {bs : List Byte} (h : ¬ addr + bs.length ≤ 2 ^ 40)
    (hm : mailboxBase ≤ addr ∧ addr + bs.length ≤ mailboxBase + 4096) :
    s.hostDo ⟨link, true, addr, len, bs⟩ = s.mboxWrite (addr - mailboxBase) bs :=
  (if_neg h).trans (if_pos hm)

theorem mailboxBase_eq : mailboxBase = 2 ^ 40 := rfl

/-! Commands (R472–R474) -/

/-- A command that stands with GO, and that the controller accepts, is executed (R472, R474). -/
theorem onCommand_accepted {s : State} {code : Nat} {always : Bool} (hg : s.mboxGo = true) (hc : s.mboxCommand = code)
    (ha : always = true ∨ s.fw.ran = true) (go : State → State) : s.onCommand code always go = go s := by
  have hstands : (!(s.mboxGo && s.mboxCommand == code)) = false := by rw [hg, hc, beq_self_eq_true]; rfl
  have haccepts : (!always && !s.fw.ran) = false := by
    rcases ha with ha | ha
    · rw [ha]; rfl
    · rw [ha]; exact Bool.and_false _
  rw [State.onCommand, if_neg (ne_true_of_eq_false hstands), if_neg (ne_true_of_eq_false haccepts)]

section
variable {s : State} (hg : s.mboxGo = true)
include hg

theorem exec_mboxLog (hc : s.mboxCommand = 2) :
    exec .mboxLog s = .next ((s.respond (s.logBytes (s.mboxWord 8).toNat)).mboxDone 0) :=
  congrArg Host.Outcome.next (onCommand_accepted hg hc (.inl rfl) _)

/-- A chunk within the inactive slot's image, or at its end, is staged (R472). -/
theorem exec_mboxFwstage (hc : s.mboxCommand = 4)
    (ho : (s.mboxWord 0x808).toNat ≤ (s.fwSlot (1 - s.fw.active)).length) :
    let image := (s.fwSlot (1 - s.fw.active)).take (s.mboxWord 0x808).toNat ++ rdBytes s.mailbox 8 2048
    let fw := { s.fw with slots := s.fw.slots.set (1 - s.fw.active) image }
    exec .mboxFwstage s = .next (({ s with fw := fw } : State).mboxDone 0) :=
  congrArg Host.Outcome.next ((onCommand_accepted hg hc (.inl rfl) _).trans (if_neg (Nat.not_lt.mpr ho)))

theorem exec_mboxFwactivate (hc : s.mboxCommand = 5) : exec .mboxFwactivate s = .next (
    if Config.firmwareVerifies (s.fwSlot (1 - s.fw.active)) = false then s.mboxDone 2
    else if Config.firmwareVersion (s.fwSlot (1 - s.fw.active)) < Config.fusedMinimum then s.mboxDone 4
    else ({ s with fw := { s.fw with nextActive := 1 - s.fw.active } } : State).mboxDone 0) := by
  have he : exec .mboxFwactivate s = execMboxFwactivate s := rfl
  rw [he, execMboxFwactivate, onCommand_accepted hg hc (.inl rfl)]
  simp only [Bool.not_eq_true']

variable (hf : s.fw.ran = true)
include hf

theorem exec_mboxSensors (hc : s.mboxCommand = 1) : exec .mboxSensors s =
    .next ((({ s with freeSeq := s.freeSeq + 1 } : State).respond
      ((List.range 2048).map fun k => Config.sensorByte s.freeSeq k)).mboxDone 0) :=
  congrArg Host.Outcome.next (onCommand_accepted hg hc (.inr hf) _)

theorem exec_mboxAttest (hc : s.mboxCommand = 3) : exec .mboxAttest s =
    .next ((({ s with freeSeq := s.freeSeq + 1 } : State).respond (s.report ++
      fit 64 (Config.ecdsaSign s.freeSeq (Sha.sha256 s.report)) ++ fit 64 Config.identityKey)).mboxDone 0) :=
  congrArg Host.Outcome.next (onCommand_accepted hg hc (.inr hf) _)

theorem exec_mboxReset (hc : s.mboxCommand = 6) : exec .mboxReset s = .next s.resetPackage :=
  congrArg Host.Outcome.next (onCommand_accepted hg hc (.inr hf) _)

theorem exec_mboxTime (hc : s.mboxCommand = 7) :
    exec .mboxTime s = .next ((s.respond (leBytes s.now 8)).mboxDone 0) :=
  congrArg Host.Outcome.next (onCommand_accepted hg hc (.inr hf) _)

end

/-! Bring-up (R433, R474, R475) -/

/-- The firmware slot that power-good runs: the active one if it may run, and then the other (R474). -/
def State.runnable (s : State) : Option Nat :=
  if s.fwRuns s.fw.active then some s.fw.active
  else if s.fwRuns (1 - s.fw.active) then some (1 - s.fw.active) else none

theorem isSome_runnable (s : State) : s.runnable.isSome = (s.fwRuns s.fw.active || s.fwRuns (1 - s.fw.active)) := by
  unfold State.runnable
  cases s.fwRuns s.fw.active with
  | true => rfl
  | false => cases s.fwRuns (1 - s.fw.active) <;> rfl

/-- The package once its firmware has been verified and the registers of R433 are set. -/
def State.powered (s : State) : State :=
  { s with
    bring := { s.bring with power := true }
    fw := { s.fw with active := s.runnable.getD s.fw.active, nextActive := s.runnable.getD s.fw.active,
                      ran := s.runnable.isSome }
    supq := 0x00101FF0, qtbase := 0, ptroot := 0, pagerq := 0, mcq := 0, imgbase := 0, imgsize := 0, cfgsel := 0 }

theorem exec_powerGood {s : State} (h : s.bring.power = false) : exec .powerGood s = .next s.powered := by
  have he : exec .powerGood s = execPowerGood s := rfl
  rw [he, execPowerGood, if_neg (ne_true_of_eq_false h)]
  rfl

theorem packageReg_powered (s : State) {r : Nat} (h33 : 33 ≤ r) (h39 : r ≤ 39) : s.powered.packageReg r = 0 := by
  have hr : r = 33 ∨ r = 34 ∨ r = 35 ∨ r = 36 ∨ r = 37 ∨ r = 38 ∨ r = 39 := by omega
  rcases hr with rfl | rfl | rfl | rfl | rfl | rfl | rfl <;> rfl

theorem exec_bringupStage_firmware {s : State} (hp : s.bring.power = true) (hf : s.fw.ran = true) :
    exec (.bringupStage .firmware) s = .next { s with bring := { s.bring with firmware := true } } :=
  congrArg Host.Outcome.next (if_pos (by rw [hp, hf]; rfl))

theorem exec_bringupStage_core {s : State} {c : Nat} (hf : s.bring.firmware = true) (hc : c < 128)
    (hd : c / 32 ≤ s.bring.dies.length) (hh : s.coreHeld c = false) :
    exec (.bringupStage (.core c)) s = .next { s with inService := Table.set false s.inService c true } :=
  congrArg Host.Outcome.next (if_pos ⟨hf, hc, hd, by rw [hh]; rfl⟩)

/-- The next of the four dies joins those in service (R475). -/
theorem exec_bringupStage_die {s : State} (hf : s.bring.firmware = true) (hd : s.bring.dies.length < 4) :
    exec (.bringupStage (.die s.bring.dies.length)) s = .next { s with
      bring := { s.bring with dies := s.bring.dies ++ [s.bring.dies.length] }
      svcDies := s.svcDies ||| 2 ^ s.bring.dies.length
      svcLevel := if s.bring.dies.length = 3 then 1 else 0 } :=
  congrArg Host.Outcome.next (if_pos ⟨hf, rfl, hd⟩)

theorem exec_bringupStage_matrix8 {s : State} (hd : s.bring.dies.length = 4) (hc : s.bring.cal8 = false) :
    exec (.bringupStage .matrix8) s = .next { s with bring := { s.bring with cal8 := true }, svcLevel := 2 } :=
  congrArg Host.Outcome.next (if_pos ⟨hd, by rw [hc]; rfl⟩)

theorem exec_bringupStage_matrix4 {s : State} (h8 : s.bring.cal8 = true) (h4 : s.bring.cal4 = false) :
    exec (.bringupStage .matrix4) s = .next { s with bring := { s.bring with cal4 := true }, svcLevel := 3 } :=
  congrArg Host.Outcome.next (if_pos ⟨h8, by rw [h4]; rfl⟩)

/-! Errors (R427) -/

@[simp] theorem slices_poisonAt (s : State) (l : List Nat) : (s.poisonAt l).slices = s.slices := rfl

theorem slices_takeOutAt (s : State) (key cls unit : Nat) : (s.takeOutAt key cls unit).slices = s.slices := by
  unfold State.takeOutAt
  dsimp only
  split
  · rfl
  · split <;> rfl

@[simp] theorem slices_takeOut (s : State) (cls unit : Nat) : (s.takeOut cls unit).slices = s.slices :=
  (congrArg State.slices (takeOut_eq s cls unit)).trans (slices_takeOutAt ..)

/-- No slice freezes for a resource that none uses. -/
theorem freezeUsers_unused {u : State} {cls unit : Nat} {users : List Nat}
    (h : (u.slices.any fun x => x.uses cls unit users) = false) :
    (u.slices.filter fun x => x.uses cls unit users).foldl (fun (s : State) (x : Slice) => s.freezeForError x) u = u := by
  rw [List.filter_eq_nil_iff.mpr (List.any_eq_false.mp h), List.foldl_nil]

/-- An error of a resource that no slice uses freezes none. -/
theorem exec_errorDetected_unused {s : State} {cls unit : Nat} {l users : List Nat}
    (h : (s.slices.any fun x => x.uses cls unit users) = false) :
    exec (.errorDetected cls unit ⟨l, users⟩) s = .next ((s.poisonAt l).takeOut cls unit) :=
  congrArg Host.Outcome.next (freezeUsers_unused (by rw [slices_takeOut, slices_poisonAt]; exact h))

/-- A resource whose test has ended goes back or is retired, and a record says so (R410, R427). -/
theorem exec_errorTestDone_tested {s : State} {cls unit : Nat} (h : s.testing.contains (resourceKey cls unit) = true)
    (e : TestEnd) :
    let u : State := { s with testing := s.testing.filter fun k => k != resourceKey cls unit }
    let v := match e with | .passed => u.putBack cls unit | .failed parts => u.retire cls unit parts
    exec (.errorTestDone cls unit e) s = .next (v.post v.mcq.toNat (recordOf 5
      { Trap.bare with aux := BitVec.ofNat 64 (cls % 256 + unit % 2 ^ 24 * 256) } 0 v.now
      (if e = .passed then 0 else 1))) :=
  congrArg Host.Outcome.next (if_neg (by rw [h]; decide))

/-- Settles O59: each access, command, stage and error by its own lemma. -/
theorem hostComplete : Obligations.HostComplete := by
  unfold Obligations.HostComplete
  refine ⟨fun s link addr len bs hh => ⟨fun ha hp => ?_, fun ha hp => ?_, fun h40 hm h1 => ?_, fun write =>
    exec_hostAccess_waits hh⟩, fun s code hg hc => ?_, fun s => ⟨fun hp => ?_, exec_bringupStage_firmware,
    fun c => exec_bringupStage_core, fun hf hd => ⟨_, exec_bringupStage_die hf hd, rfl, rfl⟩, exec_bringupStage_matrix8,
    exec_bringupStage_matrix4⟩, fun s cls unit => ⟨fun l users => exec_errorDetected_unused, fun e h =>
    exec_errorTestDone_tested h e⟩⟩
  · rw [exec_hostAccess_done hh (hostBarred_free hp), hostDo_load ha]
  · rw [exec_hostAccess_done hh (hostBarred_free hp), hostDo_store ha]
  · have hout : ¬ addr + bs.length ≤ 2 ^ 40 := by omega
    rw [← mailboxBase_eq] at h40 hm
    rw [exec_hostAccess_done hh (hostBarred_above hout), hostDo_mailbox hout ⟨h40, hm⟩, mailboxBase_eq]
  · subst hc
    exact ⟨exec_mboxLog hg, exec_mboxFwstage hg, exec_mboxFwactivate hg, fun hf =>
      ⟨exec_mboxSensors hg hf, exec_mboxAttest hg hf, exec_mboxReset hg hf, exec_mboxTime hg hf⟩⟩
  · exact ⟨s.powered, exec_powerGood hp, rfl, isSome_runnable s, rfl, fun r => packageReg_powered s⟩

end Sys2Proof.Machine
end

section
/-! SUPPORT and proofs. Operations of the sort yard and of the Rote engine (R296, R297, R303, R305–R307, R359–R368, R392,
R394) complete. -/

namespace Sys2Proof.Machine

/-! The operations of the sort yard and of the Rote engine run their own functions -/

theorem exec_defineRegion (n : Nat) (s : State) : exec (.defineRegion n) s = execDefineRegion n s := rfl

theorem exec_applyRegion (n : Nat) (s : State) : exec (.applyRegion n) s = execApplyRegion n s := rfl

theorem exec_resetRegion (n : Nat) (s : State) : exec (.resetRegion n) s = execResetRegion n s := rfl

theorem exec_statRegion (n : Nat) (s : State) : exec (.statRegion n) s = execStatRegion n s := rfl

theorem exec_closeRegion (n : Nat) (s : State) : exec (.closeRegion n) s = execCloseRegion n s := rfl

theorem exec_openContext (n : Nat) (s : State) : exec (.openContext n) s = execOpenContext n s := rfl

theorem exec_appendTokens (n : Nat) (s : State) : exec (.appendTokens n) s = execAppendTokens n s := rfl

theorem exec_proposeDraft (n : Nat) (s : State) : exec (.proposeDraft n) s = execProposeDraft n s := rfl

theorem exec_statRecord (n : Nat) (s : State) : exec (.statRecord n) s = execStatRecord n s := rfl

theorem exec_saveImage (n : Nat) (s : State) : exec (.saveImage n) s = execSaveImage n s := rfl

theorem exec_loadImage (n : Nat) (s : State) : exec (.loadImage n) s = execLoadImage n s := rfl

theorem exec_closeContext (n : Nat) (s : State) : exec (.closeContext n) s = execCloseContext n s := rfl

/-! Sort-yard definitions (R296) -/

/-- What a definition comes to, once its record is read (R296, R392). -/
def State.defineBy (s : State) (n : Nat) (o : Op) (rec' : Word) : State :=
  match s.defineCode (o.num 1) (o.num 2) rec' with
  | some c => s.endOp n 0x07 c none
  | none =>
    let g := s.freeRegion.getD 0
    ((s.setRegion g { regionOf (o.num 1) (o.num 2) rec' with
      extents := s.extentsOf (o.num 1) (o.num 2) }).modOp n fun o =>
        { o with stage := .active, idxs := [(g, [])] }).endWith n o (o.words.getD 4 0) (BitVec.ofNat 64 g)

section
variable {s : State} {n : Nat} {o : Op} (ho : s.yardOp n 0x20 = some o) (hf : o.stage = .inbox → s.opFirst n o = true)
include ho hf

/-- A definition whose turn has come answers with the region that it has opened, or reads its record. -/
theorem exec_defineRegion_turn : exec (.defineRegion n) s = .next (match o.idxs with
    | (g, _) :: _ => s.endWith n o (o.words.getD 4 0) (BitVec.ofNat 64 g)
    | [] => s.pullMem n 0 o (o.num 3) 8 fun bs => s.defineBy n o (wordAt bs 0)) := by
  have hturn : ¬(o.stage = .inbox ∧ (!s.opFirst n o) = true) := fun ⟨hi, hn⟩ => by simp [hf hi] at hn
  rw [exec_defineRegion, execDefineRegion, ho]
  exact congrArg _ (if_neg hturn)

theorem exec_defineRegion_reads (hi : o.idxs = []) : exec (.defineRegion n) s =
    .next (s.pull n 0 o (spansIn true (o.num 3) 8 none) fun bs => s.defineBy n o (wordAt bs 0)) := by
  rw [exec_defineRegion_turn ho hf, hi]
  rfl

theorem exec_defineRegion_answers {g : Nat} {bs : List Byte} {l : List (Nat × List Byte)} (hi : o.idxs = (g, bs) :: l) :
    exec (.defineRegion n) s = .next (s.endWith n o (o.words.getD 4 0) (BitVec.ofNat 64 g)) := by
  rw [exec_defineRegion_turn ho hf, hi]

end

/-! Operations on an OPEN region (R297, R305–R307, R392) -/

section
variable {s : State} {n : Nat} {o : Op}

theorem onOpen_opened (hf : s.opFirst n o = true) (hg : (s.region o.region).state = .opened)
    (go : State → Region → State) : s.onOpen n o go = go s (s.region o.region) := by
  simp [State.onOpen, hf, hg]

/-- A pending key that nobody holds back and that is not poisoned is applied. -/
theorem applyNext_pending {b : Bin} (hb : s.allBins.find? (fun b => Bin.isOf o.region b.key o.epoch b) = some b)
    (hh : s.barred none b.pa (s.region o.region).size = false)
    (hp : s.poisoned b.pa (s.region o.region).size = false) :
    s.applyNext n o = s.applyKey o.party o.region b.key o.epoch := by
  simp [State.applyNext, hb, hh, hp]

theorem applyNext_none (hb : s.allBins.find? (fun b => Bin.isOf o.region b.key o.epoch b) = none) :
    s.applyNext n o = s.endOp n 0 0 none := by
  simp [State.applyNext, hb]

/-- An operation under way is not in its inbox. -/
theorem stage_ne_inbox (ha : o.stage = .active) : o.stage ≠ .inbox := by rw [ha]; decide

theorem exec_applyRegion_active (ho : s.yardOp n 0x21 = some o) (ha : o.stage = .active) :
    exec (.applyRegion n) s = .next (s.applyNext n o) := by
  rw [exec_applyRegion, execApplyRegion, ho]
  exact congrArg _ (if_neg (stage_ne_inbox ha))

theorem exec_closeRegion_active (ho : s.yardOp n 0x24 = some o) (ha : o.stage = .active) :
    exec (.closeRegion n) s = .next (s.applyNext n o) := by
  rw [exec_closeRegion, execCloseRegion, ho]
  exact congrArg _ (if_neg (stage_ne_inbox ha))

section
variable (hi : o.stage = .inbox) (hf : s.opFirst n o = true) (hg : (s.region o.region).state = .opened)
include hi hf hg

theorem exec_applyRegion_starts (ho : s.yardOp n 0x21 = some o) :
    exec (.applyRegion n) s = .next (s.modOp n fun o => { o with stage := .active }) := by
  rw [exec_applyRegion, execApplyRegion, ho]
  exact congrArg _ ((if_pos hi).trans (onOpen_opened hf hg _))

theorem exec_closeRegion_starts (ho : s.yardOp n 0x24 = some o) :
    exec (.closeRegion n) s = .next (((s.setRegion o.region { s.region o.region with state := .closing }).settleRegion
      o.region).modOp n fun o => { o with stage := .active, epoch := s.epoch }) := by
  rw [exec_closeRegion, execCloseRegion, ho]
  exact congrArg _ ((if_pos hi).trans (onOpen_opened hf hg _))

theorem exec_resetRegion_starts (ho : s.yardOp n 0x22 = some o) :
    exec (.resetRegion n) s = .next (s.modOp n fun p =>
      { p with stage := .active, left := [(0, unitsOf (s.region o.region).base (s.region o.region).len)] }) := by
  rw [exec_resetRegion, execResetRegion, ho]
  exact congrArg _ ((if_pos hi).trans (onOpen_opened hf hg _))

end

/-- A unit whose access translates, and that nobody holds back, loses its pending keys and is written with zero. -/
theorem resetUnit_writes {g : Region} {k lo m : Nat} {rest : List (Nat × Nat)} {t v : State} {x : Xlat} {cs : List Byte}
    (hc : rowChunk g.base g.len k = some (lo, m)) (hx : s.opXlate o (BitVec.ofNat 64 lo) 2 = .ok t x)
    (hh : t.barred none x.pa m = false)
    (hw : (t.discardBins o.region lo m).opWrite1 o (BitVec.ofNat 64 lo) (List.replicate m 0) = .ok v cs) :
    s.resetUnit n o g k rest = v.modOp n fun o => { o with left := rest } := by
  simp only [State.resetUnit, hc, hx, hh, hw, Bool.false_eq_true, if_false, Io.then]

/-- A reset under way makes the access of its next unit. -/
theorem exec_resetRegion_unit {k : Nat} {rest : List (Nat × Nat)} (ho : s.yardOp n 0x22 = some o) (ha : o.stage = .active)
    (hl : o.left ≠ []) (hk : s.resetNext o (s.region o.region) = some k) (hr : pickUnit o.left k = some rest) :
    exec (.resetRegion n) s = .next (s.resetUnit n o (s.region o.region) k rest) := by
  simp only [exec_resetRegion, execResetRegion, ho, stage_ne_inbox ha, List.isEmpty_eq_false_iff.mpr hl, hk, hr,
    Bool.false_eq_true, if_false]

/-- A reset with no unit left clears its entry's flags and ends. -/
theorem exec_resetRegion_ends (ho : s.yardOp n 0x22 = some o) (ha : o.stage = .active) (hl : o.left = []) :
    exec (.resetRegion n) s = .next ((s.setRegion o.region (s.region o.region).cleared).endOp n 0 0 none) := by
  simp only [exec_resetRegion, execResetRegion, ho, stage_ne_inbox ha, hl, List.isEmpty_nil, if_false, if_true]

theorem exec_statRegion_answers (ho : s.yardOp n 0x23 = some o) (hf : s.opFirst n o = true) :
    exec (.statRegion n) s = .next (s.endWith n o (o.words.getD 2 0) (o.result.getD 0)) := by
  simp only [exec_statRegion, execStatRegion, ho, hf, Bool.not_true, Bool.false_eq_true, if_false]

end

/-! YARDFULL (R303) -/

/-- A stall, where it is of the die, noted as posted. -/
def notePosted (d : Nat) (e : Nat × Option Stall) : Nat × Option Stall :=
  if e.1 / 64 = d then (e.1, e.2.map fun w => { w with posted := true }) else e

/-- The state in which the stalls of a die are noted as posted. -/
def State.stallsPosted (s : State) (d : Nat) : State := { s with yardStall := s.yardStall.map (notePosted d) }

theorem exec_yardfull_posts {s : State} {d : Nat} (h : s.stallDue d = true) :
    let u := s.stallsPosted d
    exec (.yardfull d) s = .next (u.post (u.readCfg d 0 3).toNat (recordOf 4
      { Trap.bare with code := 0x60, aux := BitVec.ofNat 64 d } 0 u.now
      (BitVec.ofNat 64 (u.segs.filter (segOf d)).length))) :=
  congrArg Host.Outcome.next (if_pos h)

/-- A due stall is one of the die that lasts; once it is noted as posted, none of the die is due. -/
theorem stallDue_stallsPosted {s : State} {d : Nat} (h : s.stallDue d = true) : (s.stallsPosted d).stallDue d = false := by
  obtain ⟨hlasts, -⟩ := (Bool.and_eq_true _ _).mp h
  obtain ⟨⟨k, w⟩, he, hw⟩ := List.any_eq_true.mp hlasts
  obtain ⟨hd, hsince⟩ := (Bool.and_eq_true _ _).mp hw
  cases w with
  | none => cases hsince
  | some w =>
    have hposted : (k, some { w with posted := true }) ∈ (s.stallsPosted d).yardStall :=
      List.mem_map.mpr ⟨_, he, if_pos (beq_iff_eq.mp hd)⟩
    have hany : ((s.stallsPosted d).yardStall.any fun e => e.1 / 64 == d && match e.2 with
        | some w => w.posted
        | none => false) = true :=
      List.any_eq_true.mpr ⟨_, hposted, (Bool.and_true _).trans hd⟩
    exact Bool.and_eq_false_iff.mpr (.inr ((congrArg not hany).trans Bool.not_true))

/-! Rote operations (R359–R368, R394) -/

/-- What a load comes to, once its header is read (R368, R394). -/
def State.loadBy (s : State) (n : Nat) (o : Op) (bs : List Byte) : State :=
  match headerOf bs with
  | none => s.refuseOp n 5
  | some r =>
    if !s.roteFits o.context r.c then s.refuseOp n 4
    else if o.misaligned 2 64 then s.endOp n 0x04 0 none
    else (s.modOp n fun o => { o with stage := .active, idxs := [(r.c, bs)] }).loadTokens n o r

/-- What a proposal, a report and a save have in common: they write a record at `a`, and end with `w`. -/
def State.recordOut (s : State) (n : Nat) (o : Op) (a : Nat) (bs : List Byte) (w : Option Word) : State :=
  s.push n 0 o (splitOver (spansIn true a bs.length none) bs) fun t => t.endOp n 0 0 w

section
variable {s : State} {n : Nat} {o : Op}

theorem misaligned_false {k size : Nat} (h : o.num k % size = 0) : o.misaligned k size = false := by
  simp [Op.misaligned, h]

theorem exec_openContext_opens (ho : s.roteOp n 0x30 = some o) (hc : s.ctx o.context = none) (hcap : capOk (o.num 2) = true)
    (h1 : 1 ≤ o.num 3) (h64 : o.num 3 ≤ 64) (hfit : s.roteFits o.context (o.num 2) = true) :
    exec (.openContext n) s =
      .next ((s.setCtx o.context (some (Rote.opened (o.num 2) (o.num 3)))).endOp n 0 0 none) := by
  simp [exec_openContext, execOpenContext, ho, hc, hcap, hfit, Nat.ne_of_gt h1, Nat.not_lt.mpr h64]

section
variable (ho : s.roteOp n 0x35 = some o)
include ho

theorem exec_loadImage_reads (ha : o.stage ≠ .active) (hc : s.ctx o.context = none) :
    exec (.loadImage n) s = .next (s.pull n 0 o (spansIn true (o.num 2) 64 none) (s.loadBy n o)) := by
  rw [exec_loadImage, execLoadImage, ho]
  simp only [ha, hc, Option.isSome_none, Bool.false_eq_true, if_false]
  rfl

theorem exec_loadImage_tokens {k : Nat} {bs : List Byte} {l : List (Nat × List Byte)} {r : Rote} (ha : o.stage = .active)
    (hi : o.idxs = (k, bs) :: l) (hh : headerOf bs = some r) : exec (.loadImage n) s = .next (s.loadTokens n o r) := by
  simp only [exec_loadImage, execLoadImage, ho, ha, hi, hh, if_true]

end

theorem loadBy_accepted {bs : List Byte} {r : Rote} (hh : headerOf bs = some r) (hfit : s.roteFits o.context r.c = true)
    (hal : o.num 2 % 64 = 0) : s.loadBy n o bs =
      (s.modOp n fun o => { o with stage := .active, idxs := [(r.c, bs)] }).loadTokens n o r := by
  simp [State.loadBy, hh, hfit, misaligned_false hal]

section
variable {r : Rote} (hr : s.ctx o.context = some r)
include hr

theorem onCtx_open {oper : Nat} (ho : s.roteOp n oper = some o) (go : Op → Rote → State → State) :
    s.onCtx n oper go = go o r s := by
  simp only [State.onCtx, ho, hr]

theorem exec_appendTokens_reads (ho : s.roteOp n 0x31 = some o) (h1 : 1 ≤ o.num 3) (hmax : o.num 3 ≤ 65536)
    (hal : o.num 2 % 4 = 0) : exec (.appendTokens n) s =
      .next (s.pull n 0 o (spansIn true (o.num 2) (4 * o.num 3) none) fun bs =>
        (s.setCtx o.context (some ((tokensOf bs).foldl Rote.append1 r))).endOp n 0 0 none) := by
  rw [exec_appendTokens, execAppendTokens, onCtx_open hr ho]
  simp only [Nat.ne_of_gt h1, Nat.not_lt.mpr hmax, misaligned_false hal, or_self, Bool.false_eq_true, if_false]
  rfl

theorem exec_proposeDraft_writes {l p : Nat} {toks : List Nat} (ho : s.roteOp n 0x32 = some o) (h1 : 1 ≤ o.num 2)
    (hmax : o.num 2 ≤ 16) (hal : o.num 3 % 8 = 0) (hp : r.propose (o.num 2) = (l, p, toks)) :
    exec (.proposeDraft n) s = .next ((s.setCtx o.context (some { r with len := min l 65535, pos := p })).recordOut n o
      (o.num 3) (proposal l p toks) (some (wordAt (proposal l p toks) 0))) := by
  rw [exec_proposeDraft, execProposeDraft, onCtx_open hr ho]
  simp only [Nat.ne_of_gt h1, Nat.not_lt.mpr hmax, misaligned_false hal, hp, or_self, Bool.false_eq_true, if_false]
  rfl

theorem exec_statRecord_writes (ho : s.roteOp n 0x33 = some o) (hal : o.num 2 % 64 = 0) :
    exec (.statRecord n) s = .next (s.recordOut n o (o.num 2) r.header none) := by
  rw [exec_statRecord, execStatRecord, onCtx_open hr ho]
  simp only [misaligned_false hal, Bool.false_eq_true, if_false]
  rfl

theorem exec_saveImage_writes (ho : s.roteOp n 0x34 = some o) (hal : o.num 2 % 64 = 0) : exec (.saveImage n) s =
    .next (s.recordOut n o (o.num 2) r.image (some (BitVec.ofNat 64 r.image.length))) := by
  rw [exec_saveImage, execSaveImage, onCtx_open hr ho]
  simp only [misaligned_false hal, Bool.false_eq_true, if_false]
  rfl

theorem exec_closeContext_closes (ho : s.roteOp n 0x36 = some o) :
    exec (.closeContext n) s = .next ((s.setCtx o.context none).endOp n 0 0 none) := by
  rw [exec_closeContext, execCloseContext, onCtx_open hr ho]

end
end

/-- Settles O57: each operation by the lemma about its step. -/
theorem yardAndRoteComplete : Obligations.YardAndRoteComplete := by
  unfold Obligations.YardAndRoteComplete
  refine ⟨fun s n o => ⟨fun ho hf => ?_, ?_, fun ho hi hf hg => exec_applyRegion_starts hi hf hg ho, fun ho => ?_,
    exec_statRegion_answers, fun ho hi hf hg => exec_closeRegion_starts hi hf hg ho, fun d hd => ?_⟩,
    fun s n o => ⟨exec_openContext_opens, fun ho => ?_, fun r hr => ?_⟩⟩
  · exact ⟨fun hi => readsThen_of_pull (exec_defineRegion_reads ho hf hi), fun _ _ _ => exec_defineRegion_answers ho hf⟩
  · intro i oper hrow ho ha next
    have hstep : exec i s = .next (s.applyNext n o) := by
      rcases hrow with ⟨rfl, rfl⟩ | ⟨rfl, rfl⟩
      · exact exec_applyRegion_active ho ha
      · exact exec_closeRegion_active ho ha
    exact ⟨fun b hb hh hp => by rw [hstep, applyNext_pending hb hh hp], fun hb => by rw [hstep, applyNext_none hb]⟩
  · refine ⟨fun hi hf hg => exec_resetRegion_starts hi hf hg ho, ?_, exec_resetRegion_ends ho⟩
    intro k rest lo m t x v cs ha hl hk hr hc hx hh hw
    rw [exec_resetRegion_unit ho ha hl hk hr, resetUnit_writes hc hx hh hw]
  · exact ⟨s.stallsPosted d, exec_yardfull_posts hd, stallDue_stallsPosted hd, rfl⟩
  · intro head bs
    refine ⟨fun ha hc => ?_, fun k bs l r ha hi hh => readsThen_of_pull (exec_loadImage_tokens ho ha hi hh)⟩
    obtain ⟨hread, hall⟩ := readsThen_of_pull (exec_loadImage_reads ho ha hc)
    exact ⟨hread, fun r hnone hh hfit hal => by rw [hall hnone, loadBy_accepted hh hfit hal]⟩
  · exact ⟨fun ho h1 hmax hal => readsThen_of_pull (exec_appendTokens_reads hr ho h1 hmax hal),
      fun l p toks ho h1 hmax hal hp => writesThen_of_push (exec_proposeDraft_writes hr ho h1 hmax hal hp),
      fun ho hal => writesThen_of_push (exec_statRecord_writes hr ho hal),
      fun ho hal => writesThen_of_push (exec_saveImage_writes hr ho hal), exec_closeContext_closes hr⟩

end Sys2Proof.Machine
end

section
/-! SUPPORT and proofs. The canonical form of memory (log 2): what holds of every step. -/

namespace Sys2Proof.Machine

/-- Settles O6: reset lists no byte. -/
theorem memoryCanonicalAtReset : Obligations.MemoryCanonicalAtReset := reset_memOk

/-- Settles O7: a step keeps the canonical form, as every operation of which it is made does. -/
theorem memoryStaysCanonical : Obligations.MemoryStaysCanonical := by
  intro s t hs ht
  obtain ⟨-, hcanonical⟩ := step_keeps ht
  exact hcanonical hs

end Sys2Proof.Machine
end

section
/-! SUPPORT and proofs. A slice that is not live fires nothing (R413–R415). -/

namespace Sys2Proof.Machine

/-- A station of a slice that is not live stands at `cur` (R413). -/
def State.halts (s : State) : Prop :=
  ∃ c x y, s.cur = some c ∧ s.slice? c.st.slice = some x ∧ s.inst? c.st = some y ∧ x.live = false

/-- An outcome in which nothing has fired. -/
def State.rests (s : State) (o : Host.Outcome State Fault Refusal) : Prop := s.halts → o = .next s

theorem atStation_rests (s : State) (k : SRef → Nat → State → State) : s.rests (atStation s k) := by
  intro ⟨c, x, y, hc, hx, hy, hl⟩
  exact atStation_halted hc hx hy hl k

/-- A step in two parts, each at the station. -/
theorem atStation_then_rests {s : State} {k : SRef → Nat → State → State}
    {f : State → Host.Outcome State Fault Refusal} (hf : s.rests (f s)) :
    s.rests (match atStation s k with
      | .next u => f u
      | o => o) := by
  intro hs
  rw [atStation_rests s k hs]
  exact hf hs

/-- The end of a tile's stream is noted at a slice that is live alone. -/
theorem tileSettled_rests {s : State} {o : Host.Outcome State Fault Refusal} (ho : s.rests o) (x : TileImm) (a : TileState) :
    s.rests (tileSettled x a o) := by
  intro hs
  rw [ho hs]
  obtain ⟨c, y, z, hc, hy, hz, hl⟩ := hs
  have hr : s.runs c.st = false := by simp [State.runs, hy, hl]
  simp [tileSettled, hc, hr]

theorem rests_ite {s : State} {p : Prop} [Decidable p] {a b : Host.Outcome State Fault Refusal} (ha : s.rests a)
    (hb : s.rests b) : s.rests (if p then a else b) := by
  split
  · exact ha
  · exact hb

section
variable (h : Hdr) (data : List Slot) (repl imm : Word) (s : State)

theorem fireWith_rests (room : Bool) (act : SRef → Nat → Kind → Ready → State → State) :
    s.rests (fireWith h data repl imm room act s) := atStation_rests _ _

theorem firePure_rests (g : Env → Vals → Word × Nat) : s.rests (firePure h data repl imm g s) := fireWith_rests _ _ _ _ _ _ _

theorem fireEff_rests (eff : SRef → Nat → Ready → State → Eff) : s.rests (fireEff h data repl imm eff s) :=
  atStation_rests _ _

theorem fireRaw_rests (act : SRef → Nat → List (Slot × Tok) → Ready → State → Eff) : s.rests (fireRaw h data act s) :=
  atStation_rests _ _

theorem fireInOrder_rests (act : SRef → Nat → List (Slot × Tok) → Ready → State → Eff) :
    s.rests (fireInOrder h data act s) := atStation_rests _ _

theorem fireEarly_rests (lastOf : List (Slot × Tok) → Bool) (rule : EarlyRule) : s.rests (fireEarly h data lastOf rule s) :=
  atStation_rests _ _

theorem fireStart_rests (val : SRef → State → Word) : s.rests (fireStart val s) := atStation_rests _ _

theorem fireGather_rests (w : Want) (act : SRef → Nat → Nat → List Word → State → Fired) :
    s.rests (fireGather h w act s) := atStation_rests _ _

end

theorem exec_pure_rests {i : Instr} {p : PureRule} (h : intRule i = some p ∨ floatRule i = some p) (s : State) :
    s.rests (exec i s) := by
  rw [h.elim (fun h => exec_intRule h s) fun h => exec_floatRule h s]
  exact firePure_rests _ _ _ _ _ _

theorem exec_msgRule_rests {i : Instr} {m : MsgRule} (hm : msgRule i = some m) (s : State) : s.rests (exec i s) := by
  cases i with
  | copy | copy2In | copy2Out | gath | scat | cfill | put | get | ldw
  | swapw | mma | accrd | accz | mmaw | roteOpen | roteAppend | rotePropose
  | roteStat | roteSave | roteLoad | roteClose | yardDefine | yardApply | yardReset
  | yardStat | yardClose => exact fireGather_rests _ _ _ _
  | _ => cases hm

/-- An instruction row fires nothing at a halted slice. -/
theorem exec_word_rests {i : Instr} (hi : i.isWord = true) (s : State) : s.rests (exec i s) := by
  cases i with
  | add | sub | mul | and | or | xor | andn | shl | rol | mad | mulh
  | div | rem | min | max | shr | pack | neg | abs | not | clz | ctz
  | popc | brev | sat | ext | unpk | extr | ins | cmp | lea => exact exec_pure_rests (.inl rfl) s
  | fadd | fsub | fmul | fdiv | fma | fmin | fmax | fabs | fneg | fsqrt
  | frcp | frsq | fexp2 | flog2 | ftanh | fscl | fcls | fcmp | frnd | fcvt
  | itof | ftoi | dot | key | noise => exact exec_pure_rests (.inr rfl) s
  | copy | copy2In | copy2Out | gath | scat | cfill | put | get | ldw
  | swapw | mma | accrd | accz | mmaw | roteOpen | roteAppend | rotePropose
  | roteStat | roteSave | roteLoad | roteClose | yardDefine | yardApply | yardReset
  | yardStat | yardClose => exact exec_msgRule_rests rfl s
  | land | read | const | kpool =>
    simp only [exec]
    exact fireStart_rests _ _
  | mov | fork | drop | bcast | swz | jall =>
    simp only [exec]
    exact firePure_rests _ _ _ _ _ _
  | iter | idx =>
    simp only [exec]
    exact fireWith_rests _ _ _ _ _ _ _
  | write | exit | exiti | call | calli | ret | ldf | ldfk | ste | stf
  | tfree | tready | kill | binit | barr | bwait | bsync | bred | bwaitd
  | enq | yield | fclose | fwait | ld | st | ldx | stx | feset
  | atom | upd | pref | flush | waitm | tdef | tstate | bankmode
  | trap | rdsr | wrsr | patch | switch | freeze | thaw | tlbi | pmap | abort =>
    simp only [exec]
    exact fireEff_rests _ _ _ _ _ _
  | steer | loopin | cnt | qpack | qunpk | scan | tap =>
    simp only [exec]
    exact fireRaw_rests _ _ _ _
  | loopout =>
    simp only [exec]
    exact fireInOrder_rests _ _ _ _
  | fopen | send =>
    simp only [exec]
    exact fireGather_rests _ _ _ _
  | merge | shuf | tree | accept =>
    simp only [exec, execMerge, execShuf, execTree, execAccept]
    exact atStation_rests _ _
  | sel =>
    simp only [exec]
    exact rests_ite (fireEarly_rests _ _ _ _ _) (fireRaw_rests _ _ _ _)
  | jand | jor =>
    simp only [exec]
    exact rests_ite (fireEarly_rests _ _ _ _ _) (firePure_rests _ _ _ _ _ _)
  | tld | tst =>
    simp only [exec]
    exact tileSettled_rests (fireEff_rests _ _ _ _ _ _) _ _
  | carry =>
    simp only [exec]
    exact atStation_then_rests (fireRaw_rests _ _ _ _)
  | waitc =>
    simp only [exec]
    exact atStation_then_rests (fireEff_rests _ _ _ _ _ _)
  | gen =>
    simp only [exec]
    exact atStation_then_rests (rests_ite (atStation_rests _ _) (fireRaw_rests _ _ _ _))
  | red =>
    simp only [exec]
    exact rests_ite (atStation_rests _ _) (fireRaw_rests _ _ _ _)
  | _ => cases hi

/-- Settles O9: an instruction row is a step at a station, and the station fires nothing where its slice is not live. -/
theorem nothingFires : Obligations.NothingFires := by
  refine ⟨fun i s hi hc => (exec_word_lands hi s).2 ?_, fun i s st n x y hi hc hx hy hst => ?_⟩
  · intro ⟨c, x, y, hc', _⟩
    exact nomatch hc.symm.trans hc'
  · have hl : x.live = false := by rcases hst with h | h | h <;> simp [Slice.live, h]
    exact exec_word_rests hi s ⟨⟨st, n⟩, x, y, hc, hx, hy, hl⟩

end Sys2Proof.Machine
end

section
/-! SUPPORT and proofs. When the operands of a message are gathered (R378, R382). -/

namespace Sys2Proof.Machine

/-! What a station sees of slots that hold one token each -/

/-- The only token of a slot is visible where the copy that takes it holds the word in front. -/
theorem visible_single {nd : Node} {sl : Slot} {t : Tok} {n : Nat} (hb : nd.buf sl = [.tok t n]) (hs : nd.serves t.idx = true)
    (waited : List Slot) : nd.visible waited sl = [(t, n)] := by
  simp [Node.visible, hb, tokens, ahead, hs]

/-- Where no waited slot has received a switch token, no element has to stand ahead of one. -/
theorem pieceAhead_unswitched {nd : Node} {waited : List Slot} (h : ∀ sl ∈ waited, hasSwitch (nd.buf sl) = false)
    (early : List Slot) (last : Slot) (tag idx : Nat) : nd.pieceAhead waited early last tag idx = true := by
  cases waited with
  | nil => simp [Node.pieceAhead]
  | cons sl l => simp [Node.pieceAhead, Node.switched, h sl List.mem_cons_self]

/-- The slots on which a station waits are among those given. -/
theorem mem_of_mem_waited {x : Inst} {i : Nat} {slots : List Slot} {sl : Slot} (h : sl ∈ x.waited i slots) : sl ∈ slots :=
  List.mem_of_mem_filter h

/-! Words gathered -/

/-- Words of the earlier slots are added in order. -/
theorem addAll_words (g : GatherSt) (ws : List Word) :
    g.addAll (ws.map .word) = some { g with early := g.early ++ ws } := by
  induction ws generalizing g with
  | nil => simp [GatherSt.addAll]
  | cons w ws ih => simp [GatherSt.addAll, GatherSt.add, ih]

/-- A token that is not empty brings its data where no predicate is taken with it. -/
theorem pieceAt_word {h : Hdr} {l : List (Slot × Tok)} {t : Tok} (hp : ∀ e ∈ l, e.1 ≠ .p) (he : t.e = false) :
    pieceAt h l t = .word t.data := by
  have hnone : (l.find? fun e => decide (e.1 = Slot.p)) = none := by simpa using hp
  simp [pieceAt, predOf, hnone, pieceOf, he]

/-- Slots of which each adds its token to what is found for the later ones. -/
theorem foldr_found {step : Slot → Option (List (Slot × Tok)) → Option (List (Slot × Tok))} {tk : Slot → Tok} {slots : List Slot}
    (h : ∀ sl ∈ slots, ∀ l, step sl (some l) = some ((sl, tk sl) :: l)) :
    slots.foldr step (some []) = some (slots.map fun sl => (sl, tk sl)) := by
  induction slots with
  | nil => rfl
  | cons sl r ih =>
    rw [List.foldr_cons, ih fun k hk => h k (List.mem_cons_of_mem _ hk), h sl List.mem_cons_self, List.map_cons]

section
variable {nd : Node} {tag : Nat} {d : Slot → Word} {n : Slot → Nat} {slots : List Slot}
  (hb : ∀ sl ∈ slots, nd.buf sl = [.tok ⟨d sl, tag, 0, true, false⟩ (n sl)]) (hs : nd.serves 0 = true)
include hb hs

/-- The one-element stream of a slot. -/
theorem visible_stream {sl : Slot} (hsl : sl ∈ slots) (waited : List Slot) :
    nd.visible waited sl = [(⟨d sl, tag, 0, true, false⟩, n sl)] :=
  visible_single (hb sl hsl) hs waited

/-- No element of an earlier slot has an index other than 0. -/
theorem strayPiece_streams (x : Inst) (i : Nat) : x.strayPiece i nd slots = none := by
  simp only [Inst.strayPiece, List.findSome?_eq_none_iff]
  intro sl hsl
  simp [visible_stream hb hs (List.mem_of_mem_filter hsl)]

/-- The next element is that of the last slot, with those of the earlier ones. -/
theorem nextPiece_streams {x : Inst} {i : Nat} {h : Hdr} (hpv : h.pv = false) (hfed : nd.fed = slots)
    (hg : nd.ext.gathers = []) (hlast : lastSlot slots ∈ slots) :
    x.nextPiece i nd slots h = some ((lastSlot slots, ⟨d (lastSlot slots), tag, 0, true, false⟩) ::
      (slots.filter fun sl => decide (sl ≠ lastSlot slots)).map fun sl => (sl, ⟨d sl, tag, 0, true, false⟩)) := by
  have hahead : ∀ early last tag idx, nd.pieceAhead (x.waited i nd.fed) early last tag idx = true := by
    refine pieceAhead_unswitched fun sl hsl => ?_
    rw [hb sl (hfed ▸ mem_of_mem_waited hsl)]
    rfl
  have hfound : ∀ sl ∈ slots.filter fun sl => decide (sl ≠ lastSlot slots),
      findTok (nd.visible (x.waited i nd.fed) sl) tag 0 = some (⟨d sl, tag, 0, true, false⟩, n sl) := by
    intro sl hsl
    simp [visible_stream hb hs (List.mem_of_mem_filter hsl), findTok]
  simp only [Inst.nextPiece, visible_stream hb hs hlast, List.findSome?_cons, hg, List.any_nil, Bool.false_eq_true, if_false,
    hpv, hahead, Bool.not_true]
  rw [foldr_found (tk := fun sl => ⟨d sl, tag, 0, true, false⟩)]
  · simp
  · intro sl hsl l
    rw [hfound sl hsl]

end

/-- The slots of a message's operands: its last one, and the others in order before it. -/
theorem lastSlot_splits {l : List Slot} (h : l = [.a] ∨ l = [.a, .b] ∨ l = [.a, .b, .c]) :
    l = (l.filter fun sl => decide (sl ≠ lastSlot l)) ++ [lastSlot l] ∧ ∀ sl ∈ l, sl ≠ .p := by
  rcases h with rfl | rfl | rfl <;> decide

/-- The tokens of a last slot and of others before it, taken apart. -/
theorem pieces_split {last : Slot} {early : List Slot} {tk : Slot → Tok}
    (he : ∀ sl ∈ early, sl ≠ last ∧ sl ≠ .p) :
    let all := (last, tk last) :: early.map fun sl => (sl, tk sl)
    (all.filter fun e => decide (e.1 = last) || decide (e.1 = .p)) = [(last, tk last)] ∧
      (all.filter fun e => decide (e.1 ≠ last) && decide (e.1 ≠ .p)) = early.map fun sl => (sl, tk sl) := by
  have hp : ∀ e ∈ early.map fun sl => (sl, tk sl), e.1 ≠ last ∧ e.1 ≠ .p := by
    intro e h
    obtain ⟨sl, hsl, rfl⟩ := List.mem_map.mp h
    exact he sl hsl
  have hnone : ((early.map fun sl => (sl, tk sl)).filter fun e => decide (e.1 = last) || decide (e.1 = .p)) = [] := by
    rw [List.filter_eq_nil_iff]
    intro e h
    simp [hp e h]
  have hevery : ((early.map fun sl => (sl, tk sl)).filter fun e => decide (e.1 ≠ last) && decide (e.1 ≠ .p)) =
      early.map fun sl => (sl, tk sl) := by
    rw [List.filter_eq_self]
    intro e h
    simp [hp e h]
  constructor
  · rw [List.filter_cons_of_pos (by simp), hnone]
  · rw [List.filter_cons_of_neg (by simp), hevery]

/-- Settles O44: the station takes the element of its last slot with those of the slots before, and each brings its word. -/
theorem operandsGathered : Obligations.OperandsGathered := by
  intro s st i h w x nd tag d n ha hx hn ho han hpv hslots hfed hb hs hg hneed hall
  obtain ⟨hsplit, hnp⟩ := lastSlot_splits hslots
  have hwfed : w.fed nd = w.slots := by simp [Want.fed, hfed]
  have hinst := inst?_drain_free hx hn ho han
  have hnode : (s.drain st i).node? st i = some nd := by simp [State.node?, hinst, hn]
  let tk : Slot → Tok := fun sl => ⟨d sl, tag, 0, true, false⟩
  let last := lastSlot w.slots
  let early := w.slots.filter fun sl => decide (sl ≠ last)
  have hlast : last ∈ w.slots := by
    rw [hsplit]
    exact List.mem_append_right _ (List.mem_singleton_self _)
  have hlen : w.slots.length = early.length + 1 := by
    rw [hsplit]
    simp [early, last]
  have hearly : ∀ sl ∈ early, sl ≠ last ∧ sl ≠ .p := by
    intro sl hsl
    obtain ⟨hm, hne⟩ := List.mem_filter.mp hsl
    exact ⟨of_decide_eq_true hne, hnp sl hm⟩
  obtain ⟨hown, hrest⟩ := pieces_split (tk := tk) hearly
  have hword : ∀ sl, pieceAt h [(last, tk last)] (tk sl) = .word (d sl) := fun sl =>
    pieceAt_word (by simpa using hnp last hlast) rfl
  have hpieces : (early.map fun sl => (sl, tk sl)).map (fun e => pieceAt h [(last, tk last)] e.2) =
      (early.map d).map .word := by
    simp [hword]
  have hwords : early.map d ++ [d last] = w.slots.map d := by
    conv_rhs => rw [hsplit]
    simp [early, last]
  refine ⟨_, ha, x, nd, last, tk last, early.map fun sl => (sl, tk sl), ⟨tag, early.map d, [d last], false, false⟩, hinst, hnode,
    by simp [Node.free, ho, han], ?_, ?_, rfl, rfl, ?_, rfl, rfl, hwords, ?_, rfl⟩
  · rw [hwfed]
    exact strayPiece_streams hb hs x i
  · rw [hwfed]
    exact nextPiece_streams hb hs hpv hfed hg hlast
  · rw [hwfed, hg, hown, hrest, hpieces, addAll_words]
    simp [hword, GatherSt.add]
  · intro _
    refine ⟨rfl, ?_, ?_⟩
    · simpa using hneed
    · simpa [Want.most, hwfed] using hall

end Sys2Proof.Machine
end

section
/-! SUPPORT and proofs. Message instructions fire (R378–R394): each named one lays its words out as `msgRule` says. -/

namespace Sys2Proof.Machine

/-- A tile id in the low bits of a word. -/
theorem idWord_zero (b : BitVec 4) : idWord b 0 = BitVec.ofNat 64 b.toNat := by simp [idWord]

/-- A tile id four bits up. -/
theorem idWord_four (b : BitVec 4) : idWord b 4 = BitVec.ofNat 64 (16 * b.toNat) := by simp [idWord, Nat.mul_comm]

/-- The DEC bit of `COPY2`'s first word. -/
theorem decBit (dec : Bool) : (if dec then (32 : Word) else 0) = BitVec.ofNat 64 (if dec then 32 else 0) := by cases dec <;> rfl

/-- The words of a `PUT` or `GET`, the last of which names its package. -/
theorem remoteLay_eq : remoteLay = fun o => ([o.getD 0 0, o.getD 1 0, o.getD 2 0,
    BitVec.ofNat 64 ((o.getD 3 0).toNat % 64)], o.getD 4 0) := by
  funext o
  simp [remoteLay, Word.field]

theorem opnds_three (o : List Word) : opnds o 3 = [o.getD 0 0, o.getD 1 0, o.getD 2 0] := rfl

theorem opnds_four (o : List Word) : opnds o 4 = [o.getD 0 0, o.getD 1 0, o.getD 2 0, o.getD 3 0] := rfl

/-- A named message instruction fires with its header fields, operands and layout. -/
theorem exec_msgRule {k : Instr} {m : MsgRule} (hm : msgRule k = some m) (s : State) :
    exec k s = fireNamed m.hdr m.imm m.want m.port m.oper m.lay s := by
  cases k with
  | copy | cfill | yardDefine =>
    cases hm
    simp only [exec, execCopy, execCfill, execYardDefine, opnds_three, opnds_four, List.cons_append, List.nil_append]
  | put | get =>
    cases hm
    simp only [exec, execPut, execGet, remoteLay_eq, opnds_three, List.cons_append, List.nil_append]
  | copy2In =>
    cases hm
    simp only [exec, execCopy2In, idWord_zero, decBit, BitVec.ofNat_add]
  | copy2Out =>
    cases hm
    simp only [exec, execCopy2Out, idWord_zero, decBit, BitVec.ofNat_add]
    rfl
  | gath | scat =>
    cases hm
    simp only [exec, execGath, execScat, idWord_zero, opnds_three]
  | ldw | swapw | mma | accrd | accz | mmaw =>
    cases hm
    simp only [exec, execLdw, execSwapw, execMma, execAccrd, execAccz, execMmaw, fireMatrix, bitsOf, idWord_zero, idWord_four,
      BitVec.ofNat_add]
  | yardApply | yardReset | yardStat | yardClose =>
    cases hm
    simp only [exec, execYardApply, execYardReset, execYardStat, execYardClose, fireYard, bitsOf]
  | roteOpen | roteAppend | rotePropose | roteStat | roteSave | roteLoad | roteClose =>
    cases hm
    simp only [exec, execRoteOpen, execRoteAppend, execRotePropose, execRoteStat, execRoteSave, execRoteLoad, execRoteClose,
      fireRote, bitsOf]
  | _ => cases hm

/-- Settles O43: a named message passes its checks, and `SEND` has none. -/
theorem messagesFire : Obligations.MessagesFire := by
  intro s v st i tag ws t ht
  refine ⟨fun k m hm hg htrap => ?_, fun h x hg => ?_⟩
  · rw [exec_msgRule hm]
    exact fireNamed_gathers ht hg rfl htrap
  · refine fireGather_gathers hg ?_
    rw [ht]

end Sys2Proof.Machine
end

section
/-! SUPPORT and proofs. System instructions (R431, R439–R449): privilege, registers, `PATCH`, `SWITCH`, `TLBI` and `PMAP`. -/

namespace Sys2Proof.Machine

theorem exec_trap (h : Hdr) (c : BitVec 8) (s : State) : exec (.trap h c) s =
    fireEff h [.a] 0 0 (fun st i r s => .done (s.trapStation st i 0x08 c.toNat r.tag r.idx 0 0)) s := rfl

theorem exec_patch (h : Hdr) (s : State) : exec (.patch h) s = execPatch h s := rfl

theorem exec_switch (h : Hdr) (s : State) : exec (.switch h) s = execSwitch h s := rfl

theorem exec_freeze (h : Hdr) (s : State) :
    exec (.freeze h) s = fireEff h (optB s) 0 0 (supEff (freezeEff h (optB s))) s := rfl

theorem exec_thaw (h : Hdr) (s : State) : exec (.thaw h) s = fireEff h (optB s) 0 0 (supEff (thawEff h (optB s))) s := rfl

theorem exec_abort (h : Hdr) (s : State) : exec (.abort h) s = fireEff h [.a] 0 0 (supEff (abortEff h)) s := rfl

theorem exec_tlbi (h : Hdr) (z : TlbiImm) (s : State) : exec (.tlbi h z) s = fireEff h [.a] 0 0
    (supEff fun st i r s => .done ((s.invalidate r.v.a z.all z.replay).answer h [.a] st i r 0)) s := rfl

theorem exec_pmap (h : Hdr) (s : State) : exec (.pmap h) s = execPmap h s := rfl

/-- The registers of a strand are every slice's (R431). -/
theorem exec_rdsr_strand {k : BitVec 6} (hk : k.toNat < 32) (h : Hdr) (s : State) :
    exec (.rdsr h k) s = fireEff h [.a] 0 0 (rdsrEff h k.toNat) s := by
  have hp : sregPackage k.toNat = false := decide_eq_false (Nat.not_le.mpr hk)
  simp only [exec, execRdsr, hp, Bool.false_eq_true, if_false]

theorem exec_wrsr_strand {k : BitVec 6} (hk : k.toNat < 32) (h : Hdr) (s : State) :
    exec (.wrsr h k) s = fireEff h [.a] 0 0 (wrsrEff h k.toNat) s := by
  have hp : sregPackage k.toNat = false := decide_eq_false (Nat.not_le.mpr hk)
  simp only [exec, execWrsr, hp, Bool.false_eq_true, if_false]

/-- Those of the package are a supervisor slice's. -/
theorem exec_rdsr_package {k : BitVec 6} (hk : 32 ≤ k.toNat) (h : Hdr) (s : State) :
    exec (.rdsr h k) s = fireEff h [.a] 0 0 (supEff (rdsrEff h k.toNat)) s := by
  have hp : sregPackage k.toNat = true := decide_eq_true hk
  simp only [exec, execRdsr, hp, if_true]

theorem exec_wrsr_package {k : BitVec 6} (hk : 32 ≤ k.toNat) (h : Hdr) (s : State) :
    exec (.wrsr h k) s = fireEff h [.a] 0 0 (supEff (wrsrEff h k.toNat)) s := by
  have hp : sregPackage k.toNat = true := decide_eq_true hk
  simp only [exec, execWrsr, hp, if_true]

section
variable {s : State} {st : SRef} {i : Nat} {h : Hdr} {data : List Slot} {repl imm : Word} {r : Ready}
  (hg : s.goes st i h data repl imm r)
include hg

/-- A supervisor instruction of another slice traps PROT (R431). -/
theorem supEff_traps (hu : (s.drain st i).isSup st = false) (eff : SRef → Nat → Ready → State → Eff) :
    fireEff h data repl imm (supEff eff) s = .next ((s.drain st i).trapStation st i 0x31 0 r.tag r.idx 0 0) :=
  fireEff_goes hg (by simp only [supEff, hu, Bool.false_eq_true, if_false])

/-- One of a supervisor slice has its effect. -/
theorem supEff_done {x : Slice} {v : State} (hx : (s.drain st i).slice? st.slice = some x) (hs : x.sup = true)
    {eff : SRef → Nat → Ready → State → Eff} (he : eff st i r (s.drain st i) = .done v) :
    fireEff h data repl imm (supEff eff) s = .next v := by
  have hu : (s.drain st i).isSup st = true := by simp only [State.isSup, hx, hs]
  exact fireEff_goes hg (by simpa only [supEff, hu, if_true] using he)

end

/-- Settles O48: each of the supervisor's instructions makes its effect under `supEff`. -/
theorem privilegeTraps : Obligations.PrivilegeTraps := by
  intro s st i h r hu
  refine ⟨fun hg => ⟨supEff_traps hg hu _, supEff_traps hg hu _, supEff_traps hg hu _⟩, fun hg =>
    ⟨supEff_traps hg hu _, fun z => supEff_traps hg hu _, fun k hk => ?_⟩⟩
  rw [exec_rdsr_package hk, exec_wrsr_package hk]
  exact ⟨supEff_traps hg hu _, supEff_traps hg hu _⟩

/-! Registers, patches and the page table -/

section
variable {s : State} {st : SRef} {i : Nat} {h : Hdr} {r : Ready} {x : Slice} {t : Strand} {y : Inst}
  (hx : (s.drain st i).slice? st.slice = some x) (ht : (s.drain st i).strand? st = some t)
include hx

/-- An instruction on a special register has its effect where its slice may reach the register. -/
theorem exec_sreg {k : BitVec 6} (hk : x.sup = true ∨ k.toNat < 32) (hg : s.goes st i h [.a] 0 0 r) :
    (∀ v, rdsrEff h k.toNat st i r (s.drain st i) = .done v → exec (.rdsr h k) s = .next v) ∧
    (∀ v, wrsrEff h k.toNat st i r (s.drain st i) = .done v → exec (.wrsr h k) s = .next v) := by
  by_cases hlow : k.toNat < 32
  · rw [exec_rdsr_strand hlow, exec_wrsr_strand hlow]
    exact ⟨fun v hv => fireEff_goes hg hv, fun v hv => fireEff_goes hg hv⟩
  · have hsup := hk.resolve_right hlow
    rw [exec_rdsr_package (Nat.not_lt.mp hlow), exec_wrsr_package (Nat.not_lt.mp hlow)]
    exact ⟨fun v hv => supEff_done hg hx hsup hv, fun v hv => supEff_done hg hx hsup hv⟩

include ht

theorem rdsrEff_done (k : Nat) : rdsrEff h k st i r (s.drain st i) =
    .done ((s.drain st i).answer h [.a] st i r ((s.drain st i).readSreg x t k)) := by
  simp only [rdsrEff, hx, ht]

theorem exec_patch_goes (hy : (s.drain st i).inst? st = some y) (hg : s.goes st i h [.a] 0 0 r) {v : State} {cmds : List Nat}
    {ws : List (Nat × Nat × Nat)} {gen : Option Nat} (hpend : (y.nodes.any fun nd => !nd.pend.isEmpty) = false)
    (hread : (s.drain st i).readStream st t.core i r.tag r.idx 257 (alignDown r.v.a 4).toNat [] = .ok v cmds)
    (hof : patchOf x.pages cmds = some (ws, gen))
    (hok : y.patchFault x.pages (y.withWrites ws) (y.spareWrites ws) = none) : exec (.patch h) s =
      .next (((v.consume st i h [.a] r).setPending st gen (y.withWrites ws) (y.spareWrites ws)).emitData st i r 0) := by
  rw [exec_patch, execPatch]
  refine fireEff_goes hg ?_
  simp only [hx, ht, hy, hpend, hread, hof, hok, Bool.false_eq_true, if_false]

theorem exec_pmap_goes (hs : x.sup = true) (hg : s.goes st i h (optB s) 0 0 r) : exec (.pmap h) s =
    .next ((s.drain st i).answer h (optB s) st i r (pmapWord ((s.drain st i).pmapWalk t.core r.v.a)
      (if (optB s).contains .b then r.v.b.field 2 0 else 0))) := by
  rw [exec_pmap, execPmap]
  refine supEff_done hg hx hs ?_
  simp only [ht]

end

theorem wrsrEff_done (h : Hdr) (k : Nat) (st : SRef) (i : Nat) (r : Ready) (u : State) : wrsrEff h k st i r u = .done (
    if r.tag = 0 ∧ r.l = true then
      (u.answer h [.a] st i r 0).modInst st fun z => { z with swrites := z.swrites ++ [(k, r.v.a)] }
    else u.answer h [.a] st i r 0) := rfl

theorem exec_switch_goes {s : State} {st : SRef} {i : Nat} {h : Hdr} {r : Ready} {y : Inst}
    (hy : (s.drain st i).inst? st = some y) (hg : s.goes st i h (optB s) 0 0 r) : exec (.switch h) s =
      .next (((s.drain st i).consume st i h (optB s) r).out st i (.switch y.patchGen ((s.drain st i).targets st i))) := by
  rw [exec_switch, execSwitch]
  refine fireEff_goes hg ?_
  simp only [hy]

/-- Settles O46: each instruction that goes has its effect, on the registers where its slice may reach them. -/
theorem systemComplete : Obligations.SystemComplete := by
  intro s st i h r x t y u hx ht hy
  refine ⟨fun hg => ⟨fun c => ?_, fun k hk => ?_, fun v cmds ws gen => exec_patch_goes hx ht hy hg, fun z hs => ?_⟩,
    exec_switch_goes hy, fun hg hs => exec_pmap_goes hx ht hs hg⟩
  · rw [exec_trap]
    exact fireEff_goes hg rfl
  · obtain ⟨hread, hwrite⟩ := exec_sreg hx hk hg
    exact ⟨hread _ (rdsrEff_done hx ht _), hwrite _ (wrsrEff_done ..)⟩
  · rw [exec_tlbi]
    exact supEff_done hg hx hs rfl

end Sys2Proof.Machine
end

section
/-! SUPPORT and proofs. `FREEZE`, `THAW` and `ABORT` (R444–R447). -/

namespace Sys2Proof.Machine

/-- A slice that runs, or whose halt line is asserted, neither stands frozen nor is written out. -/
theorem resident_status {z : Slice} (h : z.live = true ∨ z.status = .halting) : z.status ≠ .frozen ∧ z.status ≠ .evicted := by
  rcases h with h | h
  · rcases of_decide_eq_true h with h | h <;> simp [h]
  · simp [h]

section
variable {h : Hdr} {data : List Slot} {st : SRef} {i : Nat} {r : Ready} {u : State}

/-! What the three instructions refuse -/

section
variable {c : Nat} (hn : u.named st r.v.a = .error c)
include hn

theorem freezeEff_refused : freezeEff h data st i r u = .done (u.answer h data st i r (refusedWord c)) := by
  simp only [freezeEff, hn]

theorem abortEff_refused : abortEff h st i r u = .done (u.answer h [.a] st i r (refusedWord c)) := by
  simp only [abortEff, hn]

theorem thawEff_refused (hp : r.v.a.bit 63 = true) :
    thawEff h data st i r u = .done (u.answer h data st i r (refusedWord c)) := by
  simp only [thawEff, hp, if_true, thawPlaceEff, hn]

end

/-! What they do with a slice -/

section
variable {z : Slice} (hn : u.named st r.v.a = .ok z)
include hn

theorem freezeEff_resident (hz : z.live = true ∨ z.status = .halting) : freezeEff h data st i r u =
    .done ((u.beginWait st i h data r (.freeze z.id (data.contains .b && r.v.b.bit 0))).beginWave z.id .freeze) := by
  obtain ⟨hf, he⟩ := resident_status hz
  simp only [freezeEff, hn, if_neg hf, if_neg he]

theorem freezeEff_evicted (hz : z.status = .evicted) :
    freezeEff h data st i r u = .done (u.answer h data st i r (refusedWord 1)) := by
  simp only [freezeEff, hn, if_pos hz]

theorem freezeEff_frozen (hz : z.status = .frozen) (hw : (data.contains .b && r.v.b.bit 0) = false) :
    freezeEff h data st i r u = .done ((u.overtake z .freeze).answer h data st i r 0) := by
  simp only [freezeEff, hn, hz, hw, reduceCtorEq, if_false, if_true, Bool.not_false]

/-- A frozen slice of which the image is asked for is written out where the pool has room. -/
theorem freezeEff_writes (hz : z.status = .frozen) (hw : (data.contains .b && r.v.b.bit 0) = true) {v : State}
    (hv : ((u.overtake z .freeze).beginWait st i h data r (.freeze z.id true)).freezeOut z = some v) :
    freezeEff h data st i r u = .done v := by
  simp only [freezeEff, hn, hz, hw, hv, reduceCtorEq, if_false, if_true, Bool.not_true, Bool.false_eq_true]

theorem freezeEff_full (hz : z.status = .frozen) (hw : (data.contains .b && r.v.b.bit 0) = true)
    (hv : ((u.overtake z .freeze).beginWait st i h data r (.freeze z.id true)).freezeOut z = none) :
    freezeEff h data st i r u = .done (u.answer h data st i r (refusedWord 3)) := by
  simp only [freezeEff, hn, hz, hw, hv, reduceCtorEq, if_false, if_true, Bool.not_true, Bool.false_eq_true]

theorem abortEff_resident (hz : z.live = true ∨ z.status = .halting) : abortEff h st i r u =
    .done ((u.beginWait st i h [.a] r (.abort z.id)).beginWave z.id .freeze) := by
  obtain ⟨hf, he⟩ := resident_status hz
  simp only [abortEff, hn, hf, he, or_self, if_false]

theorem abortEff_frozen (hz : z.status = .frozen ∨ z.status = .evicted) :
    abortEff h st i r u = .done ((u.abortNow z.id).answer h [.a] st i r 0) := by
  simp only [abortEff, hn, if_pos hz]

section
variable {t : Strand} (ht : u.strand? st = some t) (hp : r.v.a.bit 63 = true)
include ht hp

theorem thawEff_unfrozen (hz : z.status ≠ .frozen ∨ z.candidate = true) :
    thawEff h data st i r u = .done (u.answer h data st i r (refusedWord 1)) := by
  simp only [thawEff, hp, thawPlaceEff, hn, ht, hz, if_true]

section
variable (hz : z.status = .frozen) (hc : z.candidate = false)
include hz hc

theorem thawEff_inPlace (hb : data.contains .b = false) :
    thawEff h data st i r u = .done ((u.markThaw z.id).beginWait st i h data r (.thaw z.id)) := by
  simp only [thawEff, hp, thawPlaceEff, hn, ht, hz, hc, hb, ne_eq, not_true_eq_false, Bool.false_eq_true, or_self, if_true,
    if_false, Bool.not_false]

theorem thawEff_redirects (hb : data.contains .b = true) {v : State} {ws : List Word}
    (hr : u.headersAt st t i r z.strands.length = .ok v ws) : thawEff h data st i r u =
      .done (((v.applyHeaders z.id ((ws.getD 2 0).field 47 0) ((List.range z.strands.length).map fun k =>
        (ws.drop (8 * (k + 1))).take 3)).markThaw z.id).beginWait st i h data r (.thaw z.id)) := by
  simp only [thawEff, hp, thawPlaceEff, hn, ht, hz, hc, hb, hr, ne_eq, not_true_eq_false, Bool.false_eq_true, or_self, if_true,
    if_false, Bool.not_true]

end
end
end

/-! `THAW` of an image -/

section
variable (hp : r.v.a.bit 63 = false)
include hp

theorem thawEff_image {v : State} {id : Nat} (hv : u.thawImage st r.v.a = .ok (v, id)) :
    thawEff h data st i r u = .done (v.answer h data st i r (BitVec.ofNat 64 id)) := by
  simp only [thawEff, hp, hv, Bool.false_eq_true, if_false]

theorem thawEff_noImage {c : Nat} (hv : u.thawImage st r.v.a = .error c) :
    thawEff h data st i r u = .done (u.answer h data st i r (refusedWord c)) := by
  simp only [thawEff, hp, hv, Bool.false_eq_true, if_false]

end
end

/-- Settles O47: a supervisor slice's instruction has its effect, by what its operand names. -/
theorem sliceControlComplete : Obligations.SliceControlComplete := by
  intro s st i h r x t u emits hx hsup ht
  refine ⟨fun hg => ?_, fun hg => ?_⟩
  · intro d write
    have hfreeze : ∀ v, freezeEff h d st i r u = .done v → exec (.freeze h) s = .next v := fun v => supEff_done hg hx hsup
    have hthaw : ∀ v, thawEff h d st i r u = .done v → exec (.thaw h) s = .next v := fun v => supEff_done hg hx hsup
    refine ⟨fun c hn => hfreeze _ (freezeEff_refused hn), fun z hn => ⟨fun hz => hfreeze _ (freezeEff_resident hn hz),
        fun hz => hfreeze _ (freezeEff_evicted hn hz), fun hz hw => hfreeze _ (freezeEff_frozen hn hz hw), fun hz hw =>
          ⟨fun v hv => hfreeze _ (freezeEff_writes hn hz hw hv), fun hv => hfreeze _ (freezeEff_full hn hz hw hv)⟩⟩,
      fun v id hp hv => hthaw _ (thawEff_image hp hv), fun c hp hv => hthaw _ (thawEff_noImage hp hv),
      fun c hp hn => hthaw _ (thawEff_refused hn hp), fun z hp hn hz => hthaw _ (thawEff_unfrozen hn ht hp hz),
      fun z hp hn hz hc => ⟨fun hb => hthaw _ (thawEff_inPlace hn ht hp hz hc hb),
        fun v ws hb hr => hthaw _ (thawEff_redirects hn ht hp hz hc hb hr)⟩⟩
  · have habort : ∀ v, abortEff h st i r u = .done v → exec (.abort h) s = .next v := fun v => supEff_done hg hx hsup
    exact ⟨fun c hn => habort _ (abortEff_refused hn), fun z hn => ⟨fun hz => habort _ (abortEff_frozen hn hz),
      fun hz => habort _ (abortEff_resident hn hz)⟩⟩

end Sys2Proof.Machine
end

section
/-! SUPPORT and proofs. Two statements that fail: `pkgid` stays as it was at the slice's start (R439, R458), and a trap names the
instruction index that an image gave its station (R75, R408). -/

namespace Sys2Proof.Machine

/-! `pkgid` of a slice that started before the package joined a job -/

/-- The package in pod job 0 as number 0, its job word written after every slice started. -/
def joinedState : State := { State.reset with cfg := Table.set none [] (cfgKey 0 6 0) (some 0x400000) }

/-- Slice 1 keeps the `pkgid` that stood at its start. -/
theorem readSreg_pkgid (s : State) (x : Slice) (t : Strand) : s.readSreg x t 17 = x.pkgid := rfl

theorem inJob_joinedState : joinedState.inJob = true := by decide

/-- Refutes O49: register 17 is constant while a slice runs (R439), and the statement has it read the job word that stands in the
package at the read, also where that was written after the slice's start. -/
theorem not_pkgidRegister : ¬ Obligations.PkgidRegister := by
  unfold Obligations.PkgidRegister
  rintro ⟨hreads, -⟩
  obtain ⟨t, ht⟩ : ∃ t, (oneWord 0).strands[0]? = some t := ⟨_, rfl⟩
  obtain ⟨-, hjob, -⟩ := hreads joinedState (oneWord 0) t
  have hold : (oneWord 0).pkgid.bit 22 = false := by decide
  rw [readSreg_pkgid, hold, inJob_joinedState] at hjob
  exact Bool.false_ne_true hjob

/-! The index that a trap records -/

/-- A station that an image made known as instruction 5. -/
def renamedNode : Node := { nodeOf 0 [] with wiring := [⟨0, 5, 0, [], []⟩] }

/-- Slice 1's strand with that station as its station 1. -/
def renamedState : State :=
  { State.reset with slices := [{ oneWord 0 with strands := (oneWord 0).strands.map fun t =>
      { t with inst := t.inst.map fun y => { y with nodes := [nodeOf 0 [], renamedNode] } } }] }

/-- The instruction index in the trap record of slice 1. -/
def State.trapIndex (s : State) : Option Nat := (s.slice? 1).bind fun x => x.trap.map fun p => p.index

theorem trapIndex_renamed : (renamedState.trapStation ⟨1, 0⟩ 1 0x08 0 0 0 0 0).trapIndex = some 5 := by decide

/-- Refutes O50: the record of a trap has the index by which an edited image names the station (R75, `Node.label`), where the statement
has the station's place in the block. -/
theorem not_trapAndReturn : ¬ Obligations.TrapAndReturn := by
  unfold Obligations.TrapAndReturn
  rintro ⟨htrap, -⟩
  obtain ⟨x, hx, hnone⟩ : ∃ x, renamedState.slice? 1 = some x ∧ x.trap = none := ⟨_, rfl, rfl⟩
  obtain ⟨t, ht⟩ : ∃ t, renamedState.strand? ⟨1, 0⟩ = some t := ⟨_, rfl⟩
  obtain ⟨-, y, hy, -, -, -, hrecord, -⟩ := htrap renamedState ⟨1, 0⟩ 1 0x08 0 0 0 0 0 x t hx ht
  have hindex := trapIndex_renamed
  rw [State.trapIndex, hy, Option.bind_some, hrecord hnone] at hindex
  exact absurd hindex (by simp)

end Sys2Proof.Machine
end

section
/-! SUPPORT and proofs. Messages issue and operations reply (R339–R345): what issue leaves of the operations, and the words of
counters. -/

namespace Sys2Proof.Machine

theorem exec_messageIssue (st : SRef) (n : Nat) (s : State) : exec (.messageIssue st n) s = execMessageIssue st n s := rfl

theorem exec_operationReply (n : Nat) (s : State) : exec (.operationReply n) s = execOperationReply n s := rfl

/-! Issue -/

theorem ops_emit (s : State) (st : SRef) (i : Nat) (t : Tok) : (s.emit st i t).ops = s.ops := by
  unfold State.emit
  split
  · rfl
  · split <;> rfl

/-- Tiles change their states, and no operation changes. -/
theorem ops_setTiles (f : State → Nat → TileEnt) (l : List Nat) (s : State) :
    (l.foldl (fun s k => s.setTile k (f s k)) s).ops = s.ops :=
  foldl_frame (g := fun s : State => s.ops) (fun s k => State.setTile_ops s k (f s k)) s l

/-- The operation that a message begins stands behind those that stand there. -/
theorem ops_issueMessage (s : State) (st : SRef) (t : Strand) (n : Nat) (m : Msg) :
    (s.issueMessage st t n m).ops = s.ops ++ [s.opOf t m .inbox 0 0] := by
  have hsent : ∀ v : State, (v.sentToken st m).ops = v.ops := by
    intro v
    unfold State.sentToken
    split
    · exact ops_emit ..
    · rfl
  rw [State.issueMessage, hsent]
  simp only [State.dropMsg, State.modStrand_ops, ops_setTiles (fun s k => { s.tile k with state := .filling }),
    ops_setTiles (fun s k => { s.tile k with state := .draining })]

/-- A message is ready when its tiles are and no matrix message stands before it. -/
theorem msgReady_turn {s : State} {t : Strand} {n : Nat} {m : Msg} (hp : m.port = 1 → ∀ o ∈ t.msgs.take n, o.port ≠ 1)
    (ht : s.msgTurn t m = true) : s.msgReady t n m = true := by
  have hbefore : (m.port == 1 && (t.msgs.take n).any fun o => o.port == 1) = false := by
    by_cases h : m.port = 1
    · simpa [h] using hp h
    · simp [h]
  simp only [State.msgReady, hbefore, ht, Bool.not_false, Bool.or_true, Bool.and_self]

theorem exec_messageIssue_enters {s : State} {st : SRef} {n : Nat} {t : Strand} {m : Msg} (ht : s.strand? st = some t)
    (hm : t.msgs[n]? = some m) (hr : s.runs st = true) (hready : s.msgReady t n m = true) (hf : m.fault = none)
    (hl : s.leavesAfter t n m = false) (hd : ∀ k ∈ m.fills ++ m.drains, (s.tile k).defd = true)
    (hroom : s.inboxLoad (inboxOf m.words) < Config.inboxSize) :
    exec (.messageIssue st n) s = .next (s.issueMessage st t n m) := by
  have hany : ((m.fills ++ m.drains).any fun k => !(s.tile k).defd) = false := by
    rw [List.any_eq_false]
    intro k hk
    simp [hd k hk]
  rw [exec_messageIssue, execMessageIssue]
  simp only [ht, hm, hr, hready, hl, hf, hany, Nat.not_le.mpr hroom, Bool.not_true, Bool.or_self, Bool.and_false,
    Bool.false_eq_true, if_false]

/-! Replies -/

section
variable {s : State} {n : Nat} {o : Op} (ho : s.op? n = some o) (he : o.stage = .ended) (ht : o.trap = none)
include ho he ht

theorem exec_operationReply_done (hd : o.done = true) :
    exec (.operationReply n) s = .next (({ s with ops := dropAt s.ops n } : State).deliverDone o) := by
  rw [exec_operationReply, execOperationReply]
  simp only [ho, he, if_true, State.replyOp, hd, ht]

theorem exec_operationReply_adds {v : State} (hd : o.done = false)
    (hv : ({ s with ops := dropAt s.ops n } : State).replyCounter o = some v) : exec (.operationReply n) s = .next v := by
  rw [exec_operationReply, execOperationReply]
  simp only [ho, he, if_true, State.replyOp, hd, ht, hv, Bool.false_eq_true, if_false]

end

/-! The words of counters (R343) -/

section
variable (w inc : Nat) (flag : Bool)

theorem counterWord_lt : counterWord w inc flag < 2 ^ 64 := by
  unfold counterWord
  split <;> omega

/-- The count is taken up in bits [62:0]. -/
theorem counterWord_count : counterWord w inc flag % 2 ^ 63 = (w % 2 ^ 63 + inc) % 2 ^ 63 := by
  unfold counterWord
  split <;> omega

/-- Bit 63 is set by an error, and stays. -/
theorem counterWord_flag : (counterWord w inc flag).testBit 63 = true ↔ flag = true ∨ w.testBit 63 = true := by
  have hlow : ((w + inc) % 2 ^ 63).testBit 63 = false := Nat.testBit_lt_two_pow (Nat.mod_lt _ (by decide))
  cases hf : flag || w.testBit 63 with
  | true =>
    rw [counterWord, hf, if_pos rfl, Nat.add_comm, Nat.testBit_two_pow_add_eq, hlow]
    simpa using hf
  | false =>
    rw [counterWord, hf, if_neg Bool.false_ne_true, Nat.add_zero, hlow]
    simpa using hf

end

/-! Bytes as numbers -/

theorem leNat_leBytes (v n : Nat) : leNat (leBytes v n) = v % 256 ^ n := by
  induction n generalizing v with
  | zero => simp [leBytes, leNat, Nat.mod_one]
  | succ n ih =>
    have hb : (BitVec.ofNat 8 v).toNat = v % 256 := by simp
    rw [leBytes, leNat, ih, hb, Nat.pow_succ', Nat.mod_mul]

theorem length_leBytes (v n : Nat) : (leBytes v n).length = n := by
  induction n generalizing v with
  | zero => rfl
  | succ n ih => simp [leBytes, ih]

theorem length_rdBytes (m : List Host.Cell) (a n : Nat) : (rdBytes m a n).length = n := by
  induction n generalizing a with
  | zero => rfl
  | succ n ih => simp [rdBytes, ih]

/-- Bytes written elsewhere leave those of a range as they are. -/
theorem rdBytes_wrBytes_apart (m : List Host.Cell) {a k n : Nat} (bs : List Byte) (h : a + n ≤ k ∨ k + bs.length ≤ a) :
    rdBytes (wrBytes m k bs) a n = rdBytes m a n := by
  induction n generalizing a with
  | zero => rfl
  | succ n ih =>
    rw [rdBytes, rdBytes, ih (by omega), rdByte_wrBytes_other m k bs (by omega)]

/-! What an add leaves at its counter -/

/-- The two names of an HBM cell lie apart (R263). -/
theorem otherName_apart {pa k : Nat} (h : otherName pa = some k) : pa + 8 ≤ k ∨ k + 8 ≤ pa := by
  unfold otherName at h
  split at h
  · cases h
    omega
  · split at h
    · cases h
      omega
    · cases h

theorem mem_pokeMem (s : State) (pa : Nat) (bs : List Byte) : (s.pokeMem pa bs).mem = wrBytes s.mem pa bs := by
  unfold State.pokeMem State.soil State.markWrite
  split <;> rfl

theorem mem_hostSend (s : State) (k : HostMsgKind) (pa : Nat) (bs : List Byte) : (s.hostSend k pa bs).mem = s.mem := by
  unfold State.hostSend
  split <;> rfl

theorem mem_storeTs (s : State) (p : Party) (pa n : Nat) : (s.storeTs p pa n).mem = s.mem := by
  unfold State.storeTs State.eventAt
  split
  · rfl
  · dsimp only
    split <;> rfl

/-- A store's other name lies apart from it. -/
theorem rdBytes_through (s u : State) (x : Xlat) (pa : Nat) :
    rdBytes (s.through u x pa 8).mem pa 8 = rdBytes u.mem pa 8 := by
  unfold State.through
  split
  · unfold State.mirror
    split
    · rfl
    · next k hk => exact rdBytes_wrBytes_apart _ _ (by rw [length_rdBytes]; exact otherName_apart hk)
  · rfl

/-- A signal is written into host memory, above that of the device. -/
theorem rdBytes_signal (s : State) (c i : Nat) {a n : Nat} (h : a + n ≤ 2 ^ 40) :
    rdBytes (s.signal c i).mem a n = rdBytes s.mem a n := by
  unfold State.signal
  dsimp only
  split
  · rw [mem_pokeMem]
    refine rdBytes_wrBytes_apart _ _ (Or.inl ?_)
    simp only [hostBase]
    omega
  · rfl

theorem rdNum_counterAdd (s : State) (p : Party) {x : Xlat} (inc : Nat) (flag : Bool) (h : x.pa + 8 ≤ 2 ^ 40) :
    rdNum (s.counterAdd p x inc flag).mem x.pa 8 = counterWord (rdNum (s.yardFor p x x.pa 8).mem x.pa 8) inc flag := by
  have hfold := foldl_frame (g := fun v : State => rdBytes v.mem x.pa 8) (fun (v : State) i => rdBytes_signal v x.pa i h)
  rw [rdNum, State.counterAdd, hfold, mem_storeTs, rdBytes_through, mem_hostSend, mem_pokeMem]
  have hread := rdBytes_wrBytes_same (s.yardFor p x x.pa 8).mem x.pa
    (leBytes (counterWord (rdNum (s.yardFor p x x.pa 8).mem x.pa 8) inc flag) 8)
  rw [length_leBytes] at hread
  rw [hread, leNat_leBytes]
  exact Nat.mod_eq_of_lt (counterWord_lt ..)

/-- Settles O45: a ready message whose inbox has room enters it, an ended operation leaves with its reply, and nothing that an add
writes beside its counter's word falls on that word. -/
theorem messagesRun : Obligations.MessagesRun := by
  refine ⟨fun s st n t m ht hm hr hp hf hturn hl hd hroom => ⟨?_, fun _ => ops_issueMessage ..⟩, fun s n o ho he htrap => ?_,
    fun w inc flag _ => ⟨counterWord_lt .., counterWord_count .., counterWord_flag .., fun s p x hx => rdNum_counterAdd s p inc flag hx⟩⟩
  · exact exec_messageIssue_enters ht hm hr (msgReady_turn hp hturn) hf hl hd hroom
  · exact ⟨exec_operationReply_done ho he htrap, fun v hd hv => exec_operationReply_adds ho he htrap hd hv⟩

end Sys2Proof.Machine
end

section
/-! SUPPORT and proofs. Transfers (R348–R350, R385–R389, R464): a transfer starts with its units and makes one element access
a step; a raw `COPY` moves its source's bytes; `PUT` and `GET` on another package send and take up requests. -/

namespace Sys2Proof.Machine

/-! One move -/

/-- An event that comes to the run of a plan does what the plan says. -/
theorem movesBy_of_run {i : Instr} {s t : State} {n u : Nat} {o : Op} {p : Move1} {fin : State → State}
    (hi : exec i s = .next t) (ht : t = p.run n u o fin) : movesBy i s n u o p fin := by
  subst ht
  refine ⟨?_, ?_, ?_, ?_, ?_⟩
  · rintro v row rfl
    exact hi
  · rintro v rfl
    exact hi
  · rintro v c rfl
    exact hi
  · rintro v row q w bs rfl hread
    rw [hi, Move1.run, hread, Io.then]
  · rintro v q bs w cs rfl hwrite
    rw [hi, Move1.run, hwrite, Io.then]

/-! A transfer's step -/

section
variable {s : State} {n u oper : Nat} {o : Op} {units : Op → Except Nat Nat} {plan : State → Op → Nat → Move1}
  (ho : s.op? n = some o) (ht : o.transfers oper = true)
include ho ht

/-- A transfer whose turn has come starts with its units. -/
theorem transferStep_starts (hi : o.stage = .inbox) (hm : s.mayStart n o = true) {k : Nat} (hk : units o = .ok k) :
    s.transferStep n u oper units plan = s.startUnits n k := by
  simp only [State.transferStep, ho, ht, hi, hm, hk, Bool.not_true, Bool.false_eq_true, if_true, if_false]

/-- One that cannot start ends with its code. -/
theorem transferStep_fails (hi : o.stage = .inbox) (hm : s.mayStart n o = true) {c : Nat} (hc : units o = .error c) :
    s.transferStep n u oper units plan = s.endOp n c 0 none := by
  simp only [State.transferStep, ho, ht, hi, hm, hc, Bool.not_true, Bool.false_eq_true, if_true, if_false]

/-- One in progress does with unit `u` what its plan says. -/
theorem transferStep_moves (hi : o.stage = .active) {rest : List (Nat × Nat)} (hu : pickUnit o.left u = some rest) :
    s.transferStep n u oper units plan = (plan s o u).run n u o fun t => t.unitDone n rest := by
  simp only [State.transferStep, ho, ht, hi, hu, Bool.not_true, Bool.false_eq_true, if_false]

/-! Indices (R388) -/

/-- A `GATH` or `SCAT` starts as every transfer does. -/
theorem indexed_starts (hi : o.stage = .inbox) (hm : s.mayStart n o = true) :
    s.indexed n u oper = s.startUnits n (indexLayout o).units := by
  simp only [State.indexed, ho, ht, hi, reduceCtorEq, false_and, and_false, if_false]
  exact transferStep_starts ho ht hi hm rfl

/-- Its first units read the index list. -/
theorem indexed_reads (hi : o.stage = .active) {rest : List (Nat × Nat)} (hu : pickUnit o.left u = some rest)
    (hidx : u < o.idxUnits) {lo m : Nat} {v : State} {bs : List Byte}
    (hchunk : rowChunk (o.num 3) (4 * o.tileOf.2.rows) u = some (lo, m))
    (hread : s.opRead1 o (BitVec.ofNat 64 lo) m = .ok v bs) :
    s.indexed n u oper = (v.modOp n fun o => { o with idxs := o.idxs ++ [(lo - o.num 3, bs)] }).unitDone n rest := by
  simp only [State.indexed, ho, ht, hi, hidx, hu, and_self, if_true, State.readIndices, hchunk, hread, Io.then]

/-- The others move its rows. -/
theorem indexed_moves (hi : o.stage = .active) {rest : List (Nat × Nat)} (hu : pickUnit o.left u = some rest)
    (hidx : o.idxUnits ≤ u) :
    s.indexed n u oper = (indexPlan s o u).run n u o fun t => t.unitDone n rest := by
  simp only [State.indexed, ho, Nat.not_lt.mpr hidx, and_false, if_false]
  exact transferStep_moves ho ht hi hu

/-! `PUT` and `GET` on the issuer's own package -/

section
variable (hown : o.num 4 % 64 = s.pkgNumber)
include hown

theorem putGet_here_starts (hi : o.stage = .inbox) (hm : s.mayStart n o = true) :
    s.putGet n u oper = s.startUnits n (copyLayout (o.asCopy (oper == 6))).units := by
  simp only [State.putGet, ho, hown, if_true]
  exact transferStep_starts ho ht hi hm rfl

theorem putGet_here_moves (hi : o.stage = .active) {rest : List (Nat × Nat)} (hu : pickUnit o.left u = some rest) :
    s.putGet n u oper = (copyPlan s (o.asCopy (oper == 6)) u).run n u o fun t => t.unitDone n rest := by
  simp only [State.putGet, ho, hown, if_true]
  exact transferStep_moves ho ht hi hu

end

end

/-! `PUT` and `GET` on another package (R464) -/

section
variable {s : State} {n u oper : Nat} {o : Op} (ho : s.op? n = some o) (hother : ¬ o.num 4 % 64 = s.pkgNumber)
include ho hother

theorem putGet_there : s.putGet n u oper = s.remoteTransfer n u oper := by
  simp only [State.putGet, ho, hother, if_false]

section
variable (hi : o.stage = .inbox) (hm : s.mayStart n o = true)
include hi hm

/-- A `PUT` to a member of the job starts with its units. -/
theorem put_there_starts (ht : o.transfers 6 = true) :
    s.putGet n u 6 = if s.member (o.num 4 % 64) = true then s.startUnits n (unitsOf (o.num 1) (o.num 3))
      else s.endOp n 0x06 0 none := by
  rw [putGet_there ho hother]
  cases hmem : s.member (o.num 4 % 64) <;>
    simp only [State.remoteTransfer, ho, ht, hi, hm, hmem, Bool.not_true, Bool.not_false, Bool.false_eq_true, if_true, if_false,
      Nat.reduceEqDiff, false_and]

/-- A `GET` from a member of the job sends its request and starts with its units. -/
theorem get_there_starts (ht : o.transfers 7 = true) :
    s.putGet n u 7 = if s.member (o.num 4 % 64) = true
      then (if unitsOf (o.num 1) (o.num 3) ≠ 0 then s.sendOut (o.num 4 % 64) o.id false o.words else s).startUnits n
        (unitsOf (o.num 1) (o.num 3))
      else s.endOp n 0x06 0 none := by
  rw [putGet_there ho hother]
  cases hmem : s.member (o.num 4 % 64) <;>
    simp only [State.remoteTransfer, ho, ht, hi, hm, hmem, Bool.not_true, Bool.not_false, Bool.false_eq_true, if_true, if_false,
      true_and]

end

section
variable (hi : o.stage = .active)
include hi

section
variable {rest : List (Nat × Nat)} (hu : pickUnit o.left u = some rest) {lo m : Nat}
include hu

/-- A unit of a `PUT` is read and sent. -/
theorem put_there_sends (hchunk : rowChunk (o.num 1) (o.num 3) u = some (lo, m)) (ht : o.transfers 6 = true)
    (hw : s.unanswered (o.num 4 % 64) < Config.channelWindow) {v : State} {bs : List Byte}
    (hread : s.opRead1 o (BitVec.ofNat 64 lo) m = .ok v bs) :
    s.putGet n u 6 = (v.sendOut (o.num 4 % 64) o.id true
      (o.words.take 4 ++ [BitVec.ofNat 64 u] ++ wordsOf bs 8)).modOp n fun o => { o with left := rest } := by
  rw [putGet_there ho hother]
  simp only [State.remoteTransfer, ho, ht, hi, hu, Nat.not_le.mpr hw, Bool.not_true, Bool.false_eq_true, if_false,
    Nat.reduceEqDiff, State.putUnit, hchunk, hread, Io.then]

/-- A unit of a `GET` is answered. -/
theorem get_there (ht : o.transfers 7 = true) : s.putGet n u 7 = s.getUnit n u o rest := by
  rw [putGet_there ho hother]
  simp only [State.remoteTransfer, ho, ht, hi, hu, Bool.not_true, Bool.false_eq_true, if_true, if_false]

end

/-- The reply to the oldest request of a `PUT` is taken up when no unit stands as named. -/
theorem put_there_reply (ht : o.transfers 6 = true) (hu : pickUnit o.left u = none) : s.putGet n u 6 = s.putReply n o := by
  rw [putGet_there ho hother]
  simp only [State.remoteTransfer, ho, ht, hi, hu, Bool.not_true, Bool.false_eq_true, if_false]

end
end

/-- An error answers a unit of a `GET` without its access. -/
theorem getUnit_refused {s : State} (n u : Nat) (o : Op) (rest : List (Nat × Nat)) (hc : remoteCode s.freeSeq ≠ 0) :
    s.getUnit n u o rest = s.nextFree.endRemote n o.id (remoteCode s.freeSeq) 0 none := by
  simp only [State.getUnit, hc, ne_eq, not_false_eq_true, if_true]

/-- Else what the other package returns is written. -/
theorem getUnit_written {s v : State} (n : Nat) {u : Nat} {o : Op} (rest : List (Nat × Nat)) {lo m : Nat} {cs : List Byte}
    (hc : remoteCode s.freeSeq = 0) (hchunk : rowChunk (o.num 1) (o.num 3) u = some (lo, m))
    (hwrite : s.opWrite1 o (BitVec.ofNat 64 lo) ((List.range m).map fun k => Config.remoteByte s.freeSeq k) = .ok v cs) :
    s.getUnit n u o rest = if rest.isEmpty then v.nextFree.endRemote n o.id 0 0 none
      else v.nextFree.modOp n fun o => { o with left := rest } := by
  simp only [State.getUnit, hc, ne_eq, not_true_eq_false, if_false, hchunk, hwrite, Io.then]

/-- A reply ends its operation with an error, or where nothing of it remains. -/
theorem putReply_found {s : State} (n : Nat) {o : Op} {r : OutReq} (hr : s.outReqs.find? (fun r => r.op == o.id) = some r) :
    let v := ({ s with outReqs := s.outReqs.erase r } : State).nextFree
    s.putReply n o = if remoteCode s.freeSeq ≠ 0 ∨ (o.left = [] ∧ ∀ r ∈ v.outReqs, r.op ≠ o.id)
      then v.endRemote n o.id (remoteCode s.freeSeq) 0 none else v := by
  intro v
  have hlast : (o.left.isEmpty = true ∧ (!v.outReqs.any fun r => r.op == o.id) = true) ↔
      (o.left = [] ∧ ∀ r ∈ v.outReqs, r.op ≠ o.id) := by
    simp only [List.isEmpty_iff, Bool.not_eq_true', List.any_eq_false, beq_iff_eq, ne_eq]
  simp only [State.putReply, hr]
  exact if_congr (or_congr_right hlast) rfl rfl

/-! Raw copies -/

/-- A range without bytes has no unit. -/
theorem rowChunk_zero (start c : Nat) : rowChunk start 0 c = none := by
  simp only [rowChunk]
  rw [if_neg (by omega)]

/-- A unit of a range is there only where the range has bytes. -/
theorem rowChunk_some_ne_zero {start len c : Nat} {p : Nat × Nat} (h : rowChunk start len c = some p) : len ≠ 0 := by
  rintro rfl
  rw [rowChunk_zero] at h
  cases h

/-- The units of a raw `COPY` are those of its one row at each side. -/
theorem copyLayout_raw {o : Op} (hz : o.num 3 ≠ 0) (hraw : o.num 4 % 2 = 0) :
    copyLayout o = ⟨0, 1, o.num 3, unitsOf (o.num 2) (o.num 3), unitsOf (o.num 2) (o.num 3), 0,
      unitsOf (o.num 1) (o.num 3), unitsOf (o.num 1) (o.num 3)⟩ := by
  simp only [copyLayout, hz, hraw, if_false, Nat.zero_ne_one]

/-- A unit of a raw row is that of its bytes. -/
theorem rawRun_unit (a n : Nat) {d c : Nat} (h : c < d) :
    (rawRun a).unit n d c = (rowChunk a n c).map fun p => ⟨true, p.1, p.2, none⟩ := by
  simp [Run.unit, h, rawRun, Run.span, Run.data, Run.page, Run.width]

section
variable {s : State} {o : Op} {u lo m : Nat} (hraw : o.num 4 % 2 = 0)
include hraw

theorem copyPlan_raw :
    copyPlan s o u =
      movePlan (copyLayout o) (fun s _ go => go s (rawRun (o.num 2))) (fun s _ go => go s (rawRun (o.num 1))) s o u := by
  have hdec : ¬ o.num 4 % 2 = 1 := by omega
  exact if_neg hdec

/-- The first units of a raw `COPY` read its source. -/
theorem copyPlan_raw_reads (hu : u < (copyLayout o).dest) (hchunk : rowChunk (o.num 2) (o.num 3) u = some (lo, m)) :
    copyPlan s o u = .read s (some (0, rawRun (o.num 2))) ⟨true, lo, m, none⟩ := by
  rw [copyPlan_raw hraw]
  rw [copyLayout_raw (rowChunk_some_ne_zero hchunk) hraw] at hu ⊢
  simp only [Layout.dest, Layout.keep, Nat.mul_zero, Nat.add_zero, Nat.zero_add, Nat.one_mul] at hu
  simp only [movePlan, Layout.keep, Nat.zero_add, Nat.one_mul, hu, if_true, Nat.sub_zero, Nat.div_eq_of_lt hu,
    Nat.mod_eq_of_lt hu, rawRun_unit _ _ hu, hchunk, Option.map_some]

/-- The others write the destination with the source's bytes. -/
theorem copyPlan_raw_writes {bs : List Byte} (hlo : (copyLayout o).dest ≤ u) (hhi : u < (copyLayout o).units)
    (hchunk : rowChunk (o.num 1) (o.num 3) (u - (copyLayout o).dest) = some (lo, m))
    (hrow : o.rows.find? (fun e => e.1 == 0) = some (0, rawRun (o.num 2)))
    (hgot : (rawRun (o.num 2)).got (copyLayout o) o 0 (o.num 2 + (lo - o.num 1)) m = some bs) :
    copyPlan s o u = .write s ⟨true, lo, m, none⟩ bs := by
  rw [copyPlan_raw hraw]
  rw [copyLayout_raw (rowChunk_some_ne_zero hchunk) hraw] at hlo hhi hchunk hgot ⊢
  simp only [Layout.units, Layout.dest, Layout.keep, Nat.mul_zero, Nat.add_zero, Nat.zero_add, Nat.one_mul] at hlo hhi hchunk
  have hunit : u - unitsOf (o.num 2) (o.num 3) < unitsOf (o.num 1) (o.num 3) := by omega
  simp only [movePlan, Layout.dest, Layout.keep, Nat.mul_zero, Nat.add_zero, Nat.zero_add, Nat.one_mul, Nat.not_lt.mpr hlo,
    if_false, Nat.div_eq_of_lt hunit, Nat.mod_eq_of_lt hunit, Nat.zero_mul, rawRun_unit _ _ hunit, hchunk, Option.map_some, hrow]
  have hput : (rawRun (o.num 1)).put ⟨0, 1, o.num 3, unitsOf (o.num 2) (o.num 3), unitsOf (o.num 2) (o.num 3), 0,
      unitsOf (o.num 1) (o.num 3), unitsOf (o.num 1) (o.num 3)⟩ o 0 (unitsOf (o.num 2) (o.num 3)) (rawRun (o.num 2)) lo m
      = some bs := hgot
  rw [hput]

end

/-- A unit of a `CFILL` is written with its pattern. -/
theorem fillPlan_some {s : State} {o : Op} {u lo m : Nat} (h : rowChunk (o.num 1) (o.num 3) u = some (lo, m)) :
    fillPlan s o u = .write s ⟨true, lo, m, none⟩
      ((List.range m).map fun k => BitVec.ofNat 8 (o.num 2 / 256 ^ ((lo + k) % 8))) := by
  simp only [fillPlan, h]

/-! The rows -/

theorem exec_copyOp (n u : Nat) (s : State) :
    exec (.copyOp n u) s = .next (s.transferStep n u 1 (fun o => .ok (copyLayout o).units) copyPlan) := rfl
theorem exec_cfillOp (n u : Nat) (s : State) :
    exec (.cfillOp n u) s = .next (s.transferStep n u 5 (fun o => .ok (unitsOf (o.num 1) (o.num 3))) fillPlan) := rfl
theorem exec_copy2Op (n u : Nat) (s : State) :
    exec (.copy2Op n u) s = .next (s.transferStep n u 2 copy2Units copy2Plan) := rfl
theorem exec_gathOp (n u : Nat) (s : State) : exec (.gathOp n u) s = .next (s.indexed n u 3) := rfl
theorem exec_scatOp (n u : Nat) (s : State) : exec (.scatOp n u) s = .next (s.indexed n u 4) := rfl
theorem exec_putOp_own (n u : Nat) (s : State) : exec (.putOp (.own n) u) s = .next (s.putGet n u 6) := rfl
theorem exec_getOp (n u : Nat) (s : State) : exec (.getOp n u) s = .next (s.putGet n u 7) := rfl

/-- A `GATH` or `SCAT` steps its operation. -/
theorem exec_indexed {s : State} {n u : Nat} {o : Op} {i : Instr}
    (h : (o.transfers 3 = true ∧ i = .gathOp n u) ∨ (o.transfers 4 = true ∧ i = .scatOp n u)) :
    ∃ oper, o.transfers oper = true ∧ exec i s = .next (s.indexed n u oper) := by
  rcases h with ⟨ht, rfl⟩ | ⟨ht, rfl⟩
  · exact ⟨3, ht, exec_gathOp ..⟩
  · exact ⟨4, ht, exec_scatOp ..⟩

/-- Settles O54: each kind starts, moves its unit, or takes a reply by the lemma of its step. -/
theorem transfersComplete : Obligations.TransfersComplete := by
  intro s n u o ho p own units put
  refine ⟨fun hi hm => ?_, fun rest hi hu => ?_, fun r hother ht hi hu hr => ?_⟩
  · refine ⟨fun ht => ?_, fun ht => ?_, fun ht => ⟨fun k hk => ?_, fun c hc => ?_⟩, fun ht => ?_, fun ht => ?_,
      fun ht => ⟨fun hown => ?_, fun hother => ?_⟩, fun ht => ⟨fun hown => ?_, fun hother => ?_⟩⟩
    · rw [exec_copyOp, transferStep_starts ho ht hi hm rfl]
    · rw [exec_cfillOp, transferStep_starts ho ht hi hm rfl]
    · rw [exec_copy2Op, transferStep_starts ho ht hi hm hk]
    · rw [exec_copy2Op, transferStep_fails ho ht hi hm hc]
    · rw [exec_gathOp, indexed_starts ho ht hi hm]
    · rw [exec_scatOp, indexed_starts ho ht hi hm]
    · rw [exec_putOp_own, putGet_here_starts ho ht hown hi hm, beq_self_eq_true]
    · rw [exec_putOp_own, put_there_starts ho hother hi hm ht]
    · rw [exec_getOp, putGet_here_starts ho ht hown hi hm]
      rfl
    · rw [exec_getOp, get_there_starts ho hother hi hm ht]
  · intro fin ends
    refine ⟨fun ht => ?_, fun ht => ?_, fun ht => ?_, fun i hrow => ?_, fun hown => ⟨fun ht => ?_, fun ht => ?_⟩,
      fun lo m hother hchunk => ⟨fun v bs ht hw hread => ?_, fun ht => ?_⟩⟩
    · have hmoves : movesBy (.copyOp n u) s n u o (copyPlan s o u) fin :=
        movesBy_of_run (exec_copyOp n u s) (transferStep_moves ho ht hi hu)
      obtain ⟨-, -, -, hread, hwrite⟩ := id hmoves
      refine ⟨hmoves, fun lo m hraw => ⟨fun w bs hlt hchunk hio => ?_, fun bs w cs hlo hhi hchunk hfound hgot hio => ?_⟩⟩
      · exact hread _ _ _ _ _ (copyPlan_raw_reads hraw hlt hchunk) hio
      · exact hwrite _ _ _ _ _ (copyPlan_raw_writes hraw hlo hhi hchunk hfound hgot) hio
    · have hmoves : movesBy (.cfillOp n u) s n u o (fillPlan s o u) fin :=
        movesBy_of_run (exec_cfillOp n u s) (transferStep_moves ho ht hi hu)
      obtain ⟨-, -, -, -, hwrite⟩ := id hmoves
      exact ⟨hmoves, fun lo m w cs hchunk hio => hwrite _ _ _ _ _ (fillPlan_some hchunk) hio⟩
    · exact movesBy_of_run (exec_copy2Op n u s) (transferStep_moves ho ht hi hu)
    · obtain ⟨oper, ht, hexec⟩ := exec_indexed (s := s) hrow
      refine ⟨fun lo m v bs hidx hchunk hread => ?_, fun hidx => ?_⟩
      · rw [hexec, indexed_reads ho ht hi hu hidx hchunk hread]
      · exact movesBy_of_run hexec (indexed_moves ho ht hi hu hidx)
    · exact movesBy_of_run (exec_putOp_own n u s) (putGet_here_moves ho ht hown hi hu)
    · exact movesBy_of_run (exec_getOp n u s) (putGet_here_moves ho ht hown hi hu)
    · rw [exec_putOp_own, put_there_sends ho hother hi hu hchunk ht hw hread]
    · rw [exec_getOp, get_there ho hother hi hu ht]
      refine ⟨fun hc => ?_, fun v cs hc hwrite => ?_⟩
      · rw [getUnit_refused _ _ _ _ hc]
      · rw [getUnit_written _ _ hc hchunk hwrite]
  · rw [exec_putOp_own, put_there_reply ho hother hi ht hu, putReply_found n hr]

end Sys2Proof.Machine
end

section
/-! SUPPORT and proofs. Remote operations (R457, R462–R464): this package's own, those of another package, retransmission and
loss. -/

namespace Sys2Proof.Machine

/-! A port-6 operation of this package -/

/-- The rows that carry out operation `n` of this package, by OPER. -/
def ownRows (pkg n : Nat) (d : List Word) (k1 k2 k3 : Word) (ty : Ty) (x : FarAtom) : List (Nat × Instr) :=
  [(0x60, .rupd pkg n k1 k2 ty), (0x61, .renq pkg n d k1), (0x62, .radd pkg n k1 k2), (0x63, .ratom pkg n k1 k2 k3 ty x)]

/-- Each of them steps the operation. -/
theorem exec_ownRows {s : State} {n : Nat} {d : List Word} {k1 k2 k3 : Word} {ty : Ty} {x : FarAtom} {e : Nat × Instr}
    (he : e ∈ ownRows s.pkgNumber n d k1 k2 k3 ty x) : exec e.2 s = .next (s.remoteOwn n e.1) := by
  simp only [ownRows, List.mem_cons, List.not_mem_nil, or_false] at he
  rcases he with rfl | rfl | rfl | rfl <;>
    simp only [exec, execRupd, execRenq, execRadd, execRatom, if_true]

/-- What a step of the operation leaves, each of the rows that may name it leaves. -/
theorem ownRows_next {s t : State} {n oper : Nat} (h : s.remoteOwn n oper = t) (d : List Word) (k1 k2 k3 : Word) (ty : Ty)
    (op : Aop) (fpc : BitVec 4) :
    (oper = 0x60 → exec (.rupd s.pkgNumber n k1 k2 ty) s = .next t) ∧
    (oper = 0x61 → exec (.renq s.pkgNumber n d k1) s = .next t) ∧
    (oper = 0x62 → exec (.radd s.pkgNumber n k1 k2) s = .next t) ∧
    (oper = 0x63 → exec (.ratom s.pkgNumber n k1 k2 k3 ty ⟨op, fpc⟩) s = .next t) := by
  have hrow : ∀ e ∈ ownRows s.pkgNumber n d k1 k2 k3 ty ⟨op, fpc⟩, oper = e.1 → exec e.2 s = .next t := by
    intro e he ho
    rw [exec_ownRows he, ← ho, h]
  simpa [ownRows] using hrow

/-! The descriptor of `RENQ` -/

section
variable {s : State} {n oper : Nat} {o : Op} (go : List Byte → State)

/-- The accesses that read the descriptor. -/
abbrev Op.descSpans (o : Op) : List Span := spansIn true (alignDown (o.words.getD 2 0) 64).toNat 64 none

theorem withDesc_reads (hoper : oper = 0x61) {k : Nat} {u : State} {cs : List Byte}
    (hio : firstIo (fun s p => s.spanRead o p) s (o.toRead 0 o.descSpans) = (k, .ok u cs)) :
    s.withDesc n o oper go = u.noteRead n 0 o k cs := by
  rw [State.withDesc, if_pos hoper, State.pullMem, pull_made hio]

theorem withDesc_all (h : oper = 0x61 → o.toRead 0 o.descSpans = []) :
    s.withDesc n o oper go = go (if oper = 0x61 then o.bytesRead 0 o.descSpans.length else []) := by
  by_cases hoper : oper = 0x61
  · rw [State.withDesc, if_pos hoper, if_pos hoper, State.pullMem, pull_all (h hoper)]
  · rw [State.withDesc, if_neg hoper, if_neg hoper]

end

section
variable {s : State} {n oper : Nat} {o : Op} (ho : s.op? n = some o) (hp : portOf (o.words.getD 0 0) = 6)
  (hoper : operOf (o.words.getD 0 0) = oper) (hs : o.stage ≠ .ended) (hr : o.result = none)
include ho hp hoper hs hr

section
variable (hk : o.package = s.pkgNumber) (hf : s.opFirst n o = true)
include hk hf

/-- On this package, the descriptor is read first. -/
theorem remoteOwn_here_reads (hq : oper = 0x61) {k : Nat} {u : State} {cs : List Byte}
    (hio : firstIo (fun s p => s.spanRead o p) s (o.toRead 0 o.descSpans) = (k, .ok u cs)) :
    s.remoteOwn n oper = u.noteRead n 0 o k cs := by
  simp only [State.remoteOwn, ho, hp, hoper, hs, hr, hk, hf, ne_eq, not_true_eq_false, or_self, Bool.not_true, Bool.false_eq_true,
    if_false]
  exact withDesc_reads _ hq hio

/-- Then the operation is applied, and ends. -/
theorem remoteOwn_here_applied (hq : oper = 0x61 → o.toRead 0 o.descSpans = []) {v : State} {w : Word}
    (hv : s.applyOwn o oper (if oper = 0x61 then o.bytesRead 0 o.descSpans.length else []) = .ok v w) :
    s.remoteOwn n oper = v.endValue n oper w := by
  simp only [State.remoteOwn, ho, hp, hoper, hs, hr, hk, hf, ne_eq, not_true_eq_false, or_self, Bool.not_true, Bool.false_eq_true,
    if_false]
  rw [withDesc_all _ hq]
  simp only [hv]

end

section
variable (hk : o.package ≠ s.pkgNumber)
include hk

theorem remoteOwn_there : s.remoteOwn n oper = s.remoteOut n o oper := by
  simp only [State.remoteOwn, ho, hp, hoper, hs, hr, hk, ne_eq, not_true_eq_false, or_self, not_false_eq_true, if_true, if_false]

section
variable (hi : o.stage = .inbox) (hf : s.opFirst n o = true) (hm : s.member o.package = true)
  (hw : s.unanswered o.package < Config.channelWindow)
include hi hf hm hw

/-- For another member of the job, the descriptor is read first. -/
theorem remoteOwn_there_reads (hq : oper = 0x61) {k : Nat} {u : State} {cs : List Byte}
    (hio : firstIo (fun s p => s.spanRead o p) s (o.toRead 0 o.descSpans) = (k, .ok u cs)) :
    s.remoteOwn n oper = u.noteRead n 0 o k cs := by
  rw [remoteOwn_there ho hp hoper hs hr hk]
  simp only [State.remoteOut, hi, hf, hm, Nat.not_le.mpr hw, Bool.not_true, Bool.false_eq_true, if_false]
  exact withDesc_reads _ hq hio

/-- Then the request leaves. -/
theorem remoteOwn_there_sends (hq : oper = 0x61 → o.toRead 0 o.descSpans = []) :
    let bs := if oper = 0x61 then o.bytesRead 0 o.descSpans.length else []
    s.remoteOwn n oper = (s.sendOut o.package o.id true (o.words ++ wordsOf bs (bs.length / 8))).modOp n fun o =>
      { o with stage := .active } := by
  rw [remoteOwn_there ho hp hoper hs hr hk]
  simp only [State.remoteOut, hi, hf, hm, Nat.not_le.mpr hw, Bool.not_true, Bool.false_eq_true, if_false]
  rw [withDesc_all _ hq]

end

/-- The answer of the other package arrives. -/
theorem remoteOwn_there_answered (hi : o.stage = .active) :
    let u := ({ s with outReqs := s.outReqs.filter fun r => r.op != o.id } : State).nextFree
    let w := if o.atomTy = .q then Config.remoteWord s.freeSeq else ((Config.remoteWord s.freeSeq).setWidth 32).setWidth 64
    s.remoteOwn n oper = if (remoteAnswer oper s.freeSeq).1 = 0 then u.endValue n oper w
      else u.endRemote n o.id (remoteAnswer oper s.freeSeq).1 (remoteAnswer oper s.freeSeq).2 none := by
  rw [remoteOwn_there ho hp hoper hs hr hk]
  simp only [State.remoteOut, hi]

end
end

/-! Answers of another package (R463) -/

/-- Only a refusal has a refusal code. -/
theorem remoteAnswer_ok {oper k : Nat} (h : (remoteAnswer oper k).1 = 0) : (remoteAnswer oper k).2 = 0 := by
  have hall : ∀ a ∈ remoteAnswers oper, a.1 = 0 → a.2 = 0 := by
    unfold remoteAnswers
    split
    · decide
    · split <;> decide
  unfold remoteAnswer at h ⊢
  rcases lt_or_ge ((Config.remoteStatus k).toNat % (remoteAnswers oper).length) (remoteAnswers oper).length with hlt | hge
  · rw [List.getD_eq_getElem _ _ hlt] at h ⊢
    exact hall _ (List.getElem_mem hlt) h
  · rw [List.getD_eq_default _ _ hge]

/-- An operation other than `RATOM` ends without a value. -/
theorem endValue_plain {s : State} {n oper : Nat} {o : Op} (ho : s.op? n = some o) (hq : oper ≠ 0x63) (w : Word) :
    s.endValue n oper w = s.endRemote n o.id 0 0 none := by
  simp only [State.endValue, ho, hq, ne_eq, not_false_eq_true, if_true]

/-- So the answer to such an operation ends it with its status, a refusal or not. -/
theorem answered_plain {u : State} {n oper k : Nat} {o : Op} (ho : u.op? n = some o) (hq : oper ≠ 0x63) (w : Word) :
    (if (remoteAnswer oper k).1 = 0 then u.endValue n oper w
      else u.endRemote n o.id (remoteAnswer oper k).1 (remoteAnswer oper k).2 none) =
    u.endRemote n o.id (remoteAnswer oper k).1 (remoteAnswer oper k).2 none := by
  split
  case isTrue hok => rw [endValue_plain ho hq, hok, remoteAnswer_ok hok]
  case isFalse => rfl

/-! A request of another package (R464) -/

/-- The rows by which request `sq` of another package arrives, with what each asks for. -/
def farRows (src u : Nat) (k1 k2 k3 : Word) (d : List Word) (bs : List Byte) (ty : Ty) (op : Aop) (fpc : BitVec 4) (sq : Nat) :
    List (InReq × Instr) :=
  [(.upd k1 k2 ty, .rupd src sq k1 k2 ty), (.enq d k1, .renq src sq d k1), (.add k1 k2, .radd src sq k1 k2),
    (.atom k1 k2 k3 ty op fpc.toNat, .ratom src sq k1 k2 k3 ty ⟨op, fpc⟩), (.put k1 bs, .putOp (.far src sq k1 bs) u)]

theorem exec_farRows {s : State} {src u sq : Nat} {k1 k2 k3 : Word} {d : List Word} {bs : List Byte} {ty : Ty} {op : Aop}
    {fpc : BitVec 4} (hsrc : src ≠ s.pkgNumber) {e : InReq × Instr} (he : e ∈ farRows src u k1 k2 k3 d bs ty op fpc sq) :
    exec e.2 s = .next (s.inbound src sq e.1) := by
  simp only [farRows, List.mem_cons, List.not_mem_nil, or_false] at he
  rcases he with rfl | rfl | rfl | rfl | rfl <;>
    simp only [exec, execRupd, execRenq, execRadd, execRatom, execPutOp, hsrc, if_false]

theorem chan_setChan (s : State) (p : Nat) (c : Chan) : (s.setChan p c).chan p = c := table_get_set_same ..

section
variable {s : State} {src sq : Nat} {r : InReq} (hm : s.member src = true)
include hm

/-- A request in its turn, with none held, is applied, and its reply kept. -/
theorem inbound_inTurn {v : State} {w : Word} (hc : (s.chan src).early = [])
    (hv : (s.setChan src { s.chan src with early := [((s.chan src).nextIn, r)] }).applyIn r = .ok v w) :
    s.inbound src (s.chan src).nextIn r = v.replied src (s.chan src).nextIn w := by
  have hwindow : ¬ Config.channelWindow ≤ ((s.chan src).nextIn + 2 ^ 32 - (s.chan src).nextIn) % 2 ^ 32 := by
    rw [Nat.add_sub_cancel_left]
    decide
  simp only [State.inbound, hm, hwindow, hc, Bool.not_true, decide_false, Bool.or_self, Bool.false_eq_true, if_false, List.any_nil,
    List.nil_append, List.length_nil, State.acceptIn, chan_setChan, List.find?_cons, beq_self_eq_true, hv]

/-- One that comes early is held. -/
theorem inbound_early (hw : (sq + 2 ^ 32 - (s.chan src).nextIn) % 2 ^ 32 < Config.channelWindow)
    (hc : ∀ f ∈ (s.chan src).early, f.1 ≠ sq ∧ f.1 ≠ (s.chan src).nextIn) (hsq : sq ≠ (s.chan src).nextIn) :
    s.inbound src sq r = s.setChan src { s.chan src with early := (s.chan src).early ++ [(sq, r)] } := by
  have hnew : ((s.chan src).early.any fun e => e.1 == sq) = false := by
    rw [List.any_eq_false]
    intro f hf
    simpa using (hc f hf).1
  have hnone : ((s.chan src).early ++ [(sq, r)]).find? (fun e => e.1 == (s.chan src).nextIn) = none := by
    rw [List.find?_eq_none]
    intro f hf
    rcases List.mem_append.mp hf with hf | hf
    · simpa using (hc f hf).2
    · obtain rfl := List.mem_singleton.mp hf
      simpa using hsq
  simp only [State.inbound, hm, Nat.not_le.mpr hw, hnew, Bool.not_true, decide_false, Bool.or_self, Bool.false_eq_true, if_false,
    State.acceptIn, chan_setChan, hnone]

end

/-- One that was accepted before changes nothing. -/
theorem inbound_again {s : State} {src sq : Nat} (hw : Config.channelWindow ≤ (sq + 2 ^ 32 - (s.chan src).nextIn) % 2 ^ 32)
    (r : InReq) : s.inbound src sq r = s := by
  simp only [State.inbound, hw, decide_true, Bool.or_true, if_true]

/-- Settles O58: the five rows each step their operation or take up their request. -/
theorem remoteComplete : Obligations.RemoteComplete := by
  refine ⟨?_, ?_, ?_, ?_, ?_⟩
  · intro s v n o w k1 k2 k3 d ty op fpc ho hp hs hr hf oper src bs rows sends
    have hrows : ∀ t, s.remoteOwn n oper = t → rows t := fun t ht => ownRows_next ht d k1 k2 k3 ty op fpc
    refine ⟨fun k u cs hq hpkg hio => hrows _ ?_, fun hq => ⟨fun hk hv => hrows _ ?_, fun hsend => hrows _ ?_⟩⟩
    · rcases hpkg with hk | ⟨hk, hi, hm, hw⟩
      · exact remoteOwn_here_reads ho hp rfl hs hr hk hf hq hio
      · exact remoteOwn_there_reads ho hp rfl hs hr hk hi hf hm hw hq hio
    · exact remoteOwn_here_applied ho hp rfl hs hr hk hf hq hv
    · obtain ⟨hk, hi, hm, hw⟩ := hsend
      exact remoteOwn_there_sends ho hp rfl hs hr hk hi hf hm hw hq
  · intro s n o k1 k2 k3 d ty op fpc ho hp hi hr hk oper u a w
    have hs : o.stage ≠ .ended := by rw [hi]; decide
    have hanswer := remoteOwn_there_answered ho hp (oper := oper) rfl hs hr hk hi
    obtain ⟨hupd, henq, hadd, hatom⟩ := ownRows_next hanswer d k1 k2 k3 ty op fpc
    have hu : u.op? n = some o := ho
    refine ⟨fun e he hoper => ?_, fun hoper => ?_⟩
    · simp only [List.mem_cons, List.not_mem_nil, or_false] at he
      rcases he with rfl | rfl | rfl
      · rw [hupd hoper, answered_plain hu (ne_of_eq_of_ne hoper (by decide : 0x60 ≠ 0x63))]
      · rw [henq hoper, answered_plain hu (ne_of_eq_of_ne hoper (by decide : 0x61 ≠ 0x63))]
      · rw [hadd hoper, answered_plain hu (ne_of_eq_of_ne hoper (by decide : 0x62 ≠ 0x63))]
    · rw [hatom hoper]
      simp only [hoper, a, w, u]
  · intro s v src u w k1 k2 k3 d bs ty op fpc hsrc hm c rows
    refine ⟨fun e he hc hv => ?_, fun sq e he hw hc hsq => ?_, fun sq e he hw => ?_⟩
    · rw [exec_farRows hsrc he, inbound_inTurn hm hc hv]
    · rw [exec_farRows hsrc he, inbound_early hm hw hc hsq]
    · rw [exec_farRows hsrc he, inbound_again hw]
  · intro s pkg sq
    refine ⟨_, rfl, ?_, rfl, fun k r hr => ?_⟩
    · exact List.length_map ..
    · simp only [List.getElem?_map, hr, Option.map_some]
  · intro s n o ho hi ⟨r, hr, hid, hold⟩
    have hany : (s.outReqs.any fun r => r.op == o.id && decide (r.firstAt + 1000000000 ≤ s.now)) = true :=
      List.any_eq_true.mpr ⟨r, hr, by simp only [hid, hold, beq_self_eq_true, decide_true, Bool.and_self]⟩
    simp only [exec, execRemoteUnreachable, ho, hi, hany, and_self, if_true]

end Sys2Proof.Machine
end

section
/-! SUPPORT. The fields of the instruction word (R52 to R62): each coded field and each layout is read back as it was formed, and
what reads formed what was read. -/

namespace Sys2Proof

/-! Coded fields -/

@[simp] theorem bitBool_boolBit (b : Bool) : bitBool (boolBit b) = b := by cases b <;> rfl
@[simp] theorem boolBit_bitBool (b : BitVec 1) : boolBit (bitBool b) = b := by revert b; decide

@[simp] theorem Ty.ofCode_code (t : Ty) : Ty.ofCode t.code = some t := by cases t <;> rfl
@[simp] theorem Ep.ofCode_code (t : Ep) : Ep.ofCode t.code = some t := by cases t <;> rfl
@[simp] theorem Slot.ofCode_code (t : Slot) : Slot.ofCode t.code = some t := by cases t <;> rfl
@[simp] theorem Cond.ofCode_code (t : Cond) : Cond.ofCode t.code = some t := by cases t <;> rfl
@[simp] theorem Opr.ofCode_code (t : Opr) : Opr.ofCode t.code = some t := by cases t <;> rfl
@[simp] theorem Cls.ofCode_code (t : Cls) : Cls.ofCode t.code = some t := by cases t <;> rfl
@[simp] theorem Aop.ofCode_code (t : Aop) : Aop.ofCode t.code = some t := by cases t <;> rfl
@[simp] theorem Mode.ofCode_code (t : Mode) : Mode.ofCode t.code = some t := by cases t <;> rfl
@[simp] theorem Scope.ofCode_code (t : Scope) : Scope.ofCode t.code = some t := by cases t <;> rfl
@[simp] theorem Bop.ofCode_code (t : Bop) : Bop.ofCode t.code = some t := by cases t <;> rfl
@[simp] theorem Rnd.ofCode_code (t : Rnd) : Rnd.ofCode t.code = some t := by cases t <;> rfl
@[simp] theorem Qt.ofCode_code (t : Qt) : Qt.ofCode t.code = some t := by cases t <;> rfl

theorem Ty.code_ofCode : ∀ b : BitVec 3, ∀ t ∈ Ty.ofCode b, t.code = b := by decide
theorem Ep.code_ofCode : ∀ b : BitVec 2, ∀ t ∈ Ep.ofCode b, t.code = b := by decide
theorem Slot.code_ofCode : ∀ b : BitVec 2, ∀ t ∈ Slot.ofCode b, t.code = b := by decide
theorem Cond.code_ofCode : ∀ b : BitVec 4, ∀ t ∈ Cond.ofCode b, t.code = b := by decide
theorem Opr.code_ofCode : ∀ b : BitVec 5, ∀ t ∈ Opr.ofCode b, t.code = b := by decide
theorem Cls.code_ofCode : ∀ b : BitVec 2, ∀ t ∈ Cls.ofCode b, t.code = b := by decide
theorem Aop.code_ofCode : ∀ b : BitVec 4, ∀ t ∈ Aop.ofCode b, t.code = b := by decide
theorem Mode.code_ofCode : ∀ b : BitVec 2, ∀ t ∈ Mode.ofCode b, t.code = b := by decide
theorem Scope.code_ofCode : ∀ b : BitVec 3, ∀ t ∈ Scope.ofCode b, t.code = b := by decide
theorem Bop.code_ofCode : ∀ b : BitVec 2, ∀ t ∈ Bop.ofCode b, t.code = b := by decide
theorem Rnd.code_ofCode : ∀ b : BitVec 3, ∀ t ∈ Rnd.ofCode b, t.code = b := by decide
theorem Qt.code_ofCode : ∀ b : BitVec 2, ∀ t ∈ Qt.ofCode b, t.code = b := by decide

/-! Fields side by side -/

/-- A field that lies above the low part. -/
@[simp] theorem field_above {v w s n : ℕ} (hi : BitVec v) (lo : BitVec w) (h : w ≤ s) :
    (hi ++ lo).extractLsb' s n = hi.extractLsb' (s - w) n := BitVec.extractLsb'_append_eq_of_le h

@[simp] theorem field_low {v w : ℕ} (hi : BitVec v) (lo : BitVec w) : (hi ++ lo).extractLsb' 0 w = lo :=
  BitVec.extractLsb'_append_eq_right

@[simp] theorem field_whole {w : ℕ} (b : BitVec w) : b.extractLsb' 0 w = b := BitVec.extractLsb'_eq_self

/-- Two neighbouring fields make one. -/
theorem fields_join {w s t m n : ℕ} (b : BitVec w) (h : t = s + n) :
    b.extractLsb' t m ++ b.extractLsb' s n = b.extractLsb' s (m + n) :=
  BitVec.extractLsb'_append_extractLsb'_eq_extractLsb' h

/-! Targets (R53) -/

theorem valid_bit : ∀ b : BitVec 10, b.getLsbD 9 = true → b.extractLsb' 9 1 = 1 := by decide

@[simp] theorem Target.ofBits_bits (t : Option Target) : Target.ofBits (Target.bits t) = some t := by
  cases t with
  | none => rfl
  | some t =>
    have hv : (Target.bits (some t)).getLsbD 9 = true := by
      simp only [Target.bits, BitVec.getLsbD_append, Nat.reduceLT, Nat.reduceSub, if_false]
      rfl
    rw [Target.ofBits, if_pos hv]
    simp only [Target.bits, field_low, field_above, Nat.reduceLeDiff, Nat.reduceSub, Slot.ofCode_code, Option.map_some]

theorem Target.bits_ofBits {b : BitVec 10} {t : Option Target} (h : Target.ofBits b = some t) : Target.bits t = b := by
  rw [Target.ofBits] at h
  split at h
  next hv =>
    obtain ⟨sl, hs, rfl⟩ := Option.map_eq_some_iff.mp h
    simp only [Target.bits, Slot.code_ofCode _ sl hs, ← valid_bit b hv]
    rw [fields_join b (by rfl), fields_join b (by rfl), field_whole]
  next hv =>
    split at h
    next h0 => cases h; exact h0.symm
    next => cases h

/-! Layouts (R58) -/

@[simp] theorem immNone_zero : immNone 0 = some () := rfl

theorem immNone_eq {b : BitVec 21} {u : Unit} (h : immNone b = some u) : b = 0 := by
  rw [immNone] at h
  split at h
  next hb => exact hb
  next => cases h

@[simp] theorem immLow_setWidth {n : ℕ} (x : BitVec n) (hn : n ≤ 21) : immLow n (x.setWidth 21) = some x := by
  have hx : (x.setWidth 21).toNat = x.toNat := by
    rw [BitVec.toNat_setWidth, Nat.mod_eq_of_lt (lt_of_lt_of_le x.isLt (Nat.pow_le_pow_right (by decide) hn))]
  rw [immLow, hx, if_pos x.isLt, BitVec.setWidth_setWidth_of_le _ hn, BitVec.setWidth_eq]

theorem immLow_eq {n : ℕ} {b : BitVec 21} {x : BitVec n} (h : immLow n b = some x) : x.setWidth 21 = b := by
  rw [immLow] at h
  split at h
  next hb =>
    cases h
    refine BitVec.eq_of_toNat_eq ?_
    rw [BitVec.toNat_setWidth, BitVec.toNat_setWidth, Nat.mod_eq_of_lt hb, Nat.mod_eq_of_lt b.isLt]
  next => cases h

@[simp] theorem SValImm.ofBits_bits (x : SValImm) : SValImm.ofBits x.bits = some x := by
  simp only [SValImm.ofBits, SValImm.bits, field_low, field_above, Nat.reduceLeDiff, Nat.reduceSub, field_whole,
    bitBool_boolBit]

@[simp] theorem CmpImm.ofBits_bits (x : CmpImm) : CmpImm.ofBits x.bits = some x := by
  simp only [CmpImm.ofBits, CmpImm.bits, field_low, field_above, Nat.reduceLeDiff, Nat.reduceSub, Cond.ofCode_code,
    field_whole, Option.map_some]

@[simp] theorem AddrImm.ofBits_bits (x : AddrImm) : AddrImm.ofBits x.bits = some x := by
  simp only [AddrImm.ofBits, AddrImm.bits, field_low, field_above, Nat.reduceLeDiff, Nat.reduceSub, field_whole]

@[simp] theorem FieldImm.ofBits_bits (x : FieldImm) : FieldImm.ofBits x.bits = some x := by
  simp only [FieldImm.ofBits, FieldImm.bits, field_low, field_above, Nat.reduceLeDiff, Nat.reduceSub, field_whole, if_true]

@[simp] theorem CvtImm.ofBits_bits (x : CvtImm) : CvtImm.ofBits x.bits = some x := by
  simp only [CvtImm.ofBits, CvtImm.bits, field_low, field_above, Nat.reduceLeDiff, Nat.reduceSub, field_whole, if_true,
    Ty.ofCode_code, Rnd.ofCode_code, Qt.ofCode_code, bitBool_boolBit]

@[simp] theorem LoopImm.ofBits_bits (x : LoopImm) : LoopImm.ofBits x.bits = some x := by
  simp only [LoopImm.ofBits, LoopImm.bits, field_low, field_above, Nat.reduceLeDiff, Nat.reduceSub, field_whole, if_true,
    bitBool_boolBit]

@[simp] theorem KillImm.ofBits_bits (x : KillImm) : KillImm.ofBits x.bits = some x := by
  simp only [KillImm.ofBits, KillImm.bits, field_low, field_above, Nat.reduceLeDiff, Nat.reduceSub, field_whole, if_true,
    Slot.ofCode_code, Option.map_some]

@[simp] theorem JumpImm.ofBits_bits (x : JumpImm) : JumpImm.ofBits x.bits = some x := by
  simp only [JumpImm.ofBits, JumpImm.bits, field_low, field_above, Nat.reduceLeDiff, Nat.reduceSub, field_whole, and_self,
    if_true]

@[simp] theorem MemImm.ofBits_bits (x : MemImm) : MemImm.ofBits x.bits = some x := by
  simp only [MemImm.ofBits, MemImm.bits, field_low, field_above, Nat.reduceLeDiff, Nat.reduceSub, field_whole,
    Cls.ofCode_code, bitBool_boolBit, Option.map_some]

@[simp] theorem AtomImm.ofBits_bits (x : AtomImm) : AtomImm.ofBits x.bits = some x := by
  simp only [AtomImm.ofBits, AtomImm.bits, field_low, field_above, Nat.reduceLeDiff, Nat.reduceSub, field_whole,
    Aop.ofCode_code, Option.map_some]

@[simp] theorem TileImm.ofBits_bits (x : TileImm) : TileImm.ofBits x.bits = some x := by
  simp only [TileImm.ofBits, TileImm.bits, field_low, field_above, Nat.reduceLeDiff, Nat.reduceSub, field_whole, if_true,
    bitBool_boolBit]

@[simp] theorem BankImm.ofBits_bits (x : BankImm) : BankImm.ofBits x.bits = some x := by
  simp only [BankImm.ofBits, BankImm.bits, field_low, field_above, Nat.reduceLeDiff, Nat.reduceSub, field_whole, if_true,
    Mode.ofCode_code, Option.map_some]

@[simp] theorem Opr.ofBits_bits (x : Opr) : Opr.ofBits x.bits = some x := by
  simp only [Opr.ofBits, Opr.bits, field_low, field_above, Nat.reduceLeDiff, Nat.reduceSub, field_whole, if_true,
    Opr.ofCode_code]

@[simp] theorem BarImm.ofBits_bits (x : BarImm) : BarImm.ofBits x.bits = some x := by
  simp only [BarImm.ofBits, BarImm.bits, field_low, field_above, Nat.reduceLeDiff, Nat.reduceSub, field_whole, if_true,
    Scope.ofCode_code, Bop.ofCode_code, bitBool_boolBit]

@[simp] theorem EngImm.ofBits_bits (sub : BitVec 5) (x : EngImm) : EngImm.ofBits (x.bits sub) = some (sub, x) := by
  simp only [EngImm.ofBits, EngImm.bits, field_low, field_above, Nat.reduceLeDiff, Nat.reduceSub, field_whole, and_self,
    if_true, bitBool_boolBit]

@[simp] theorem engPlain_bits (x : EngImm) : engPlain (x.bits 0) = some x := by
  simp only [engPlain, EngImm.ofBits_bits, if_true]

@[simp] theorem TlbiImm.ofBits_bits (x : TlbiImm) : TlbiImm.ofBits x.bits = some x := by
  simp only [TlbiImm.ofBits, TlbiImm.bits, field_low, field_above, Nat.reduceLeDiff, Nat.reduceSub, field_whole, if_true,
    bitBool_boolBit]

@[simp] theorem forkOfBits_bits (tc td : Option Target) : forkOfBits (forkBits tc td) = some (tc, td) := by
  simp only [forkOfBits, forkBits, field_low, field_above, Nat.reduceLeDiff, Nat.reduceSub, field_whole, if_true,
    Target.ofBits_bits]

/-! What was read forms the same bits -/

theorem SValImm.bits_ofBits {b : BitVec 21} {x : SValImm} (h : SValImm.ofBits b = some x) : x.bits = b := by
  cases h
  simp only [SValImm.bits, boolBit_bitBool]
  rw [fields_join b (by rfl), field_whole]

theorem AddrImm.bits_ofBits {b : BitVec 21} {x : AddrImm} (h : AddrImm.ofBits b = some x) : x.bits = b := by
  cases h
  simp only [AddrImm.bits]
  rw [fields_join b (by rfl), field_whole]

theorem CmpImm.bits_ofBits {b : BitVec 21} {x : CmpImm} (h : CmpImm.ofBits b = some x) : x.bits = b := by
  obtain ⟨c, hc, rfl⟩ := Option.map_eq_some_iff.mp h
  simp only [CmpImm.bits, Cond.code_ofCode _ c hc]
  rw [fields_join b (by rfl), field_whole]

theorem MemImm.bits_ofBits {b : BitVec 21} {x : MemImm} (h : MemImm.ofBits b = some x) : x.bits = b := by
  obtain ⟨c, hc, rfl⟩ := Option.map_eq_some_iff.mp h
  simp only [MemImm.bits, Cls.code_ofCode _ c hc, boolBit_bitBool]
  rw [fields_join b (by rfl), fields_join b (by rfl), fields_join b (by rfl), field_whole]

theorem AtomImm.bits_ofBits {b : BitVec 21} {x : AtomImm} (h : AtomImm.ofBits b = some x) : x.bits = b := by
  obtain ⟨c, hc, rfl⟩ := Option.map_eq_some_iff.mp h
  simp only [AtomImm.bits, Aop.code_ofCode _ c hc]
  rw [fields_join b (by rfl), fields_join b (by rfl), field_whole]

theorem FieldImm.bits_ofBits {b : BitVec 21} {x : FieldImm} (h : FieldImm.ofBits b = some x) : x.bits = b := by
  rw [FieldImm.ofBits] at h
  split at h
  next hz =>
    cases h
    simp only [FieldImm.bits]
    rw [← hz, fields_join b (by rfl), fields_join b (by rfl), field_whole]
  next => cases h

theorem LoopImm.bits_ofBits {b : BitVec 21} {x : LoopImm} (h : LoopImm.ofBits b = some x) : x.bits = b := by
  rw [LoopImm.ofBits] at h
  split at h
  next hz =>
    cases h
    simp only [LoopImm.bits, boolBit_bitBool]
    rw [← hz, fields_join b (by rfl), fields_join b (by rfl), fields_join b (by rfl), field_whole]
  next => cases h

theorem TileImm.bits_ofBits {b : BitVec 21} {x : TileImm} (h : TileImm.ofBits b = some x) : x.bits = b := by
  rw [TileImm.ofBits] at h
  split at h
  next hz =>
    cases h
    simp only [TileImm.bits, boolBit_bitBool]
    rw [← hz, fields_join b (by rfl), fields_join b (by rfl), fields_join b (by rfl), field_whole]
  next => cases h

theorem TlbiImm.bits_ofBits {b : BitVec 21} {x : TlbiImm} (h : TlbiImm.ofBits b = some x) : x.bits = b := by
  rw [TlbiImm.ofBits] at h
  split at h
  next hz =>
    cases h
    simp only [TlbiImm.bits, boolBit_bitBool]
    rw [← hz, fields_join b (by rfl), fields_join b (by rfl), field_whole]
  next => cases h

theorem JumpImm.bits_ofBits {b : BitVec 21} {x : JumpImm} (h : JumpImm.ofBits b = some x) : x.bits = b := by
  rw [JumpImm.ofBits] at h
  split at h
  next hz =>
    cases h
    obtain ⟨h0, h1⟩ := hz
    simp only [JumpImm.bits]
    rw [← h0, ← h1, fields_join b (by rfl), fields_join b (by rfl), fields_join b (by rfl), field_whole]
  next => cases h

theorem KillImm.bits_ofBits {b : BitVec 21} {x : KillImm} (h : KillImm.ofBits b = some x) : x.bits = b := by
  rw [KillImm.ofBits] at h
  split at h
  next hz =>
    obtain ⟨sl, hs, rfl⟩ := Option.map_eq_some_iff.mp h
    simp only [KillImm.bits, Slot.code_ofCode _ sl hs]
    rw [← hz, fields_join b (by rfl), fields_join b (by rfl), field_whole]
  next => cases h

theorem BankImm.bits_ofBits {b : BitVec 21} {x : BankImm} (h : BankImm.ofBits b = some x) : x.bits = b := by
  rw [BankImm.ofBits] at h
  split at h
  next hz =>
    obtain ⟨c, hc, rfl⟩ := Option.map_eq_some_iff.mp h
    simp only [BankImm.bits, Mode.code_ofCode _ c hc]
    rw [← hz, fields_join b (by rfl), fields_join b (by rfl), fields_join b (by rfl), field_whole]
  next => cases h

theorem Opr.bits_ofBits {b : BitVec 21} {x : Opr} (h : Opr.ofBits b = some x) : x.bits = b := by
  rw [Opr.ofBits] at h
  split at h
  next hz =>
    rw [Opr.bits, Opr.code_ofCode _ x h, ← hz, fields_join b (by rfl), field_whole]
  next => cases h

theorem CvtImm.bits_ofBits {b : BitVec 21} {x : CvtImm} (h : CvtImm.ofBits b = some x) : x.bits = b := by
  rw [CvtImm.ofBits] at h
  split at h
  next t r q ht hr hq =>
    split at h
    next hz =>
      cases h
      simp only [CvtImm.bits, Ty.code_ofCode _ t ht, Rnd.code_ofCode _ r hr, Qt.code_ofCode _ q hq, boolBit_bitBool]
      rw [← hz, fields_join b (by rfl), fields_join b (by rfl), fields_join b (by rfl), fields_join b (by rfl), field_whole]
    next => cases h
  next => cases h

theorem BarImm.bits_ofBits {b : BitVec 21} {x : BarImm} (h : BarImm.ofBits b = some x) : x.bits = b := by
  rw [BarImm.ofBits] at h
  split at h
  next s o hs ho =>
    split at h
    next hz =>
      cases h
      simp only [BarImm.bits, Scope.code_ofCode _ s hs, Bop.code_ofCode _ o ho, boolBit_bitBool]
      rw [← hz, fields_join b (by rfl), fields_join b (by rfl), fields_join b (by rfl), fields_join b (by rfl), field_whole]
    next => cases h
  next => cases h

theorem EngImm.bits_ofBits {b : BitVec 21} {sub : BitVec 5} {x : EngImm} (h : EngImm.ofBits b = some (sub, x)) :
    x.bits sub = b := by
  rw [EngImm.ofBits] at h
  split at h
  next hz =>
    cases h
    obtain ⟨h0, h1⟩ := hz
    simp only [EngImm.bits, boolBit_bitBool]
    rw [← h0, ← h1, fields_join b (by rfl), fields_join b (by rfl), fields_join b (by rfl), fields_join b (by rfl),
      fields_join b (by rfl), field_whole]
  next => cases h

theorem engPlain_eq {b : BitVec 21} {x : EngImm} (h : engPlain b = some x) : x.bits 0 = b := by
  rw [engPlain] at h
  split at h
  next sub y hy =>
    split at h
    next hz =>
      cases h
      exact EngImm.bits_ofBits (hz ▸ hy)
    next => cases h
  next => cases h

theorem forkBits_ofBits {b : BitVec 21} {x : Option Target × Option Target} (h : forkOfBits b = some x) :
    forkBits x.1 x.2 = b := by
  rw [forkOfBits] at h
  split at h
  next hz =>
    split at h
    next tc td hc hd =>
      cases h
      rw [forkBits, Target.bits_ofBits hc, Target.bits_ofBits hd, ← hz, fields_join b (by rfl), fields_join b (by rfl),
        field_whole]
    next => cases h
  next => cases h

end Sys2Proof
end

section
/-! SUPPORT and proofs. The instruction word (R52 to R63): a well-formed instruction decodes from its word, and an accepted word
is the one that its instruction encodes. -/

namespace Sys2Proof

/-! The word (R52) -/

section
variable (op : BitVec 8) (h : Hdr) (ef : Bool) (imm : BitVec 21)

@[simp] theorem wordOp_assemble : wordOp (assemble op h ef imm) = op := by
  simp only [wordOp, assemble, field_above, field_whole, Nat.reduceSub, Nat.reduceLeDiff]

@[simp] theorem wordEf_assemble : wordEf (assemble op h ef imm) = ef := by
  simp only [wordEf, assemble, field_above, field_low, Nat.reduceSub, Nat.reduceLeDiff, bitBool_boolBit]

@[simp] theorem wordImm_assemble : wordImm (assemble op h ef imm) = imm := by
  simp only [wordImm, assemble, field_low]

@[simp] theorem wordHdr_assemble : wordHdr (assemble op h ef imm) = some h := by
  simp only [wordHdr, assemble, field_above, field_low, Nat.reduceSub, Nat.reduceLeDiff, bitBool_boolBit, Ty.ofCode_code,
    Ep.ofCode_code, Target.ofBits_bits]

/-- A word is read field by field. -/
theorem rawDecode_assemble : rawDecode (assemble op h ef imm) = build op.toNat h ef imm := by
  rw [rawDecode, wordHdr_assemble, wordOp_assemble, wordEf_assemble, wordImm_assemble]

end

/-- A word whose header can be read is its fields. -/
theorem assemble_fields {w : Word} {h : Hdr} (hh : wordHdr w = some h) :
    assemble (wordOp w) h (wordEf w) (wordImm w) = w := by
  rw [wordHdr] at hh
  split at hh
  next ty ep ta tb hty hep hta htb =>
    cases hh
    simp only [assemble, wordOp, wordEf, wordImm, boolBit_bitBool, Ty.code_ofCode _ ty hty, Ep.code_ofCode _ ep hep,
      Target.bits_ofBits hta, Target.bits_ofBits htb]
    rw [fields_join w (by rfl), fields_join w (by rfl), fields_join w (by rfl), fields_join w (by rfl),
      fields_join w (by rfl), fields_join w (by rfl), fields_join w (by rfl), fields_join w (by rfl), fields_join w (by rfl),
      fields_join w (by rfl), field_whole]
  next => cases hh

/-! The opcode map (R63) -/

theorem SValImm.read_bits (x : SValImm) : (⟨bitBool (x.bits.extractLsb' 20 1), x.bits.extractLsb' 0 20⟩ : SValImm) = x :=
  Option.some_inj.mp (SValImm.ofBits_bits x)

theorem AddrImm.read_bits (x : AddrImm) : (⟨x.bits.extractLsb' 18 3, x.bits.extractLsb' 0 18⟩ : AddrImm) = x :=
  Option.some_inj.mp (AddrImm.ofBits_bits x)

/-- A row of the opcode map whose immediate reads as `x`. -/
theorem placed {α : Type} {o : Option α} {x : α} {f : α → Item} (h : o = some x) : o.map f = some (f x) := by
  rw [h, Option.map_some]

theorem buildCopy_bits (h : Hdr) (dec : Bool) (x : EngImm) :
    buildCopy h (x.bits (if dec then 1 else 0)) = some (.instr (.copy h dec x)) := by
  cases dec <;> simp [buildCopy]

theorem buildCopy2_bits (h : Hdr) (dec : Bool) (x : EngImm) :
    buildCopy2 h (x.bits (if dec then 2 else 0)) = some (.instr (.copy2In h dec x)) ∧
    buildCopy2 h (x.bits (if dec then 3 else 1)) = some (.instr (.copy2Out h dec x)) := by
  cases dec <;> simp [buildCopy2]

/-- Every instruction row stands in the opcode map where its word says. -/
theorem build_encode (i : Instr) (hw : i.isWord = true) : ∃ op h ef imm, encode i = [assemble op h ef imm] ∧
    build op.toNat h ef imm = some (.instr i) ∧ opAssigned op.toNat = true ∧ (ef = true → efAllowed op.toNat = true) := by
  cases i
  case const h v | mov h v | add h v | sub h v | mul h v | mad h v | neg h v | abs h v | and h v | or h v | xor h v |
      andn h v | not h v | shl h v | rol h v | clz h v | ctz h v | popc h v | brev h v | fadd h v | fsub h v |
      fmul h v | fma h v | fmin h v | fmax h v | fabs h v | fneg h v | fdiv h v | fsqrt h v | frcp h v | frsq h v |
      fexp2 h v | flog2 h v | ftanh h v | fscl h v | fcls h v | shuf h v => exact ⟨_, _, _, _, rfl, rfl, rfl, nofun⟩
  case steer h | merge h | jall h | drop h | cnt h | iter h | ret h | dot h | key h | noise h | bcast h | enq h |
      yield h | fopen h | fclose h | fwait h | waitc h | idx h | patch h | switch h | freeze h | thaw h | pmap h |
      abort h => exact ⟨_, _, _, _, rfl, rfl, rfl, nofun⟩
  case sel h ef | jand h ef | jor h ef => exact ⟨_, _, ef, _, rfl, rfl, rfl, fun _ => rfl⟩
  case land h x | gen h x | read h x | write h x | rdsr h x | wrsr h x | kpool h x | exit h x | call h x | swz h x |
      trap h x => exact ⟨_, _, _, _, rfl, placed (immLow_setWidth x (by decide)), rfl, nofun⟩
  case fork h tc td => exact ⟨_, _, _, _, rfl, placed (forkOfBits_bits tc td), rfl, nofun⟩
  case carry h x | loopin h x | loopout h x => exact ⟨_, _, _, _, rfl, placed (LoopImm.ofBits_bits x), rfl, nofun⟩
  case kill h x => exact ⟨_, _, _, _, rfl, placed (KillImm.ofBits_bits x), rfl, nofun⟩
  case exiti h x | calli h x => exact ⟨_, _, _, _, rfl, placed (JumpImm.ofBits_bits x), rfl, nofun⟩
  case mulh h x | div h x | rem h x | min h x | max h x | shr h x | sat h x | ext h x | pack h x | unpk h x =>
    exact ⟨_, _, _, _, rfl, by conv_rhs => { rw [← SValImm.read_bits x] }; rfl, rfl, nofun⟩
  case extr h x | ins h x => exact ⟨_, _, _, _, rfl, placed (FieldImm.ofBits_bits x), rfl, nofun⟩
  case cmp h x | fcmp h x => exact ⟨_, _, _, _, rfl, placed (CmpImm.ofBits_bits x), rfl, nofun⟩
  case lea h x => exact ⟨_, _, _, _, rfl, by conv_rhs => { rw [← AddrImm.read_bits x] }; rfl, rfl, nofun⟩
  case frnd h x | fcvt h x | itof h x | ftoi h x | qpack h x | qunpk h x =>
    exact ⟨_, _, _, _, rfl, placed (CvtImm.ofBits_bits x), rfl, nofun⟩
  case red h x | scan h x => exact ⟨_, _, _, _, rfl, placed (Opr.ofBits_bits x), rfl, nofun⟩
  case tap h x | binit h x | barr h x | bwait h x | bsync h x | bred h x | bwaitd h x =>
    exact ⟨_, _, _, _, rfl, placed (BarImm.ofBits_bits x), rfl, nofun⟩
  case ld h x | st h x | ldx h x | stx h x | ldf h x | ldfk h x | ste h x | stf h x | feset h x | upd h x |
      pref h x | flush h x | waitm h x => exact ⟨_, _, _, _, rfl, placed (MemImm.ofBits_bits x), rfl, nofun⟩
  case atom h x => exact ⟨_, _, _, _, rfl, placed (AtomImm.ofBits_bits x), rfl, nofun⟩
  case tdef h x | tfree h x | tready h x | tstate h x | tld h x | tst h x =>
    exact ⟨_, _, _, _, rfl, placed (TileImm.ofBits_bits x), rfl, nofun⟩
  case bankmode h x => exact ⟨_, _, _, _, rfl, placed (BankImm.ofBits_bits x), rfl, nofun⟩
  case tlbi h x => exact ⟨_, _, _, _, rfl, placed (TlbiImm.ofBits_bits x), rfl, nofun⟩
  case send h x | gath h x | scat h x | cfill h x | ldw h x | swapw h x | mma h x | accrd h x | accz h x | mmaw h x |
      tree h x | accept h x | put h x | get h x => exact ⟨_, _, _, _, rfl, placed (engPlain_bits x), rfl, nofun⟩
  case copy h dec x => exact ⟨_, _, _, _, rfl, buildCopy_bits h dec x, rfl, nofun⟩
  case copy2In h dec x => exact ⟨_, _, _, _, rfl, (buildCopy2_bits h dec x).1, rfl, nofun⟩
  case copy2Out h dec x => exact ⟨_, _, _, _, rfl, (buildCopy2_bits h dec x).2, rfl, nofun⟩
  case roteOpen h x | roteAppend h x | rotePropose h x | roteStat h x | roteSave h x | roteLoad h x | roteClose h x =>
    exact ⟨_, _, _, _, rfl, by change buildRote h _ = _; rw [buildRote, EngImm.ofBits_bits]; rfl, rfl, nofun⟩
  case yardDefine h x | yardApply h x | yardReset h x | yardStat h x | yardClose h x =>
    exact ⟨_, _, _, _, rfl, by change buildYard h _ = _; rw [buildYard, EngImm.ofBits_bits]; rfl, rfl, nofun⟩
  all_goals exact (Bool.false_ne_true hw).elim

/-- What stands where an immediate is read has the word that its immediates give. -/
theorem encode_placed {α : Type} {o : Option α} {f : α → Instr} {i : Instr} {ws : List Word}
    (h : (o.map fun x => Item.instr (f x)) = some (.instr i)) (hp : ∀ x, o = some x → encode (f x) = ws) : encode i = ws := by
  obtain ⟨x, hx, hi⟩ := Option.map_eq_some_iff.mp h
  cases hi
  exact hp x hx

section
variable {h : Hdr} {b : BitVec 21} {i : Instr}

theorem encode_buildCopy (hb : buildCopy h b = some (.instr i)) : encode i = [assemble 0xC1 h false b] := by
  rw [buildCopy] at hb
  split at hb
  case h_3 => cases hb
  all_goals
    next hx => cases hb; rw [← EngImm.bits_ofBits hx]; rfl

theorem encode_buildCopy2 (hb : buildCopy2 h b = some (.instr i)) : encode i = [assemble 0xC2 h false b] := by
  rw [buildCopy2] at hb
  split at hb
  case h_5 => cases hb
  all_goals
    next hx => cases hb; rw [← EngImm.bits_ofBits hx]; rfl

theorem encode_buildRote (hb : buildRote h b = some (.instr i)) : encode i = [assemble 0xCC h false b] := by
  rw [buildRote] at hb
  split at hb
  case h_8 => cases hb
  all_goals
    next hx => cases hb; rw [← EngImm.bits_ofBits hx]; rfl

theorem encode_buildYard (hb : buildYard h b = some (.instr i)) : encode i = [assemble 0xCD h false b] := by
  rw [buildYard] at hb
  split at hb
  case h_6 => cases hb
  all_goals
    next hx => cases hb; rw [← EngImm.bits_ofBits hx]; rfl

/-- The instruction that an opcode and its fields stand for has them as its word, where EF is 0. -/
theorem encode_build {n : ℕ} (hb : build n h false b = some (.instr i)) :
    encode i = [assemble (BitVec.ofNat 8 n) h false b] := by
  rw [build.eq_def] at hb
  split at hb
  case h_1 | h_2 | h_3 | h_5 | h_19 | h_22 | h_24 | h_59 | h_144 | h_145 | h_146 =>
    exact encode_placed hb fun x hx => immLow_eq hx ▸ rfl
  case h_4 | h_6 | h_28 | h_29 | h_30 | h_32 | h_35 | h_36 | h_39 | h_40 | h_41 | h_42 | h_43 | h_44 | h_46 | h_47 |
      h_48 | h_49 | h_50 | h_60 | h_61 | h_62 | h_63 | h_64 | h_65 | h_66 | h_67 | h_69 | h_70 | h_71 | h_72 | h_73 |
      h_74 | h_75 | h_76 | h_77 | h_89 => cases hb; rfl
  case h_7 => exact encode_placed hb fun x hx => forkBits_ofBits hx ▸ rfl
  case h_8 | h_9 | h_10 | h_11 | h_12 | h_13 | h_18 | h_20 | h_21 | h_26 | h_84 | h_85 | h_86 | h_90 | h_98 | h_99 |
      h_100 | h_101 | h_102 | h_103 | h_104 | h_147 | h_148 | h_149 | h_150 | h_152 | h_153 =>
    exact encode_placed hb fun _ hx => immNone_eq hx ▸ rfl
  case h_14 | h_15 | h_16 => exact encode_placed hb fun x hx => LoopImm.bits_ofBits hx ▸ rfl
  case h_17 => exact encode_placed hb fun x hx => KillImm.bits_ofBits hx ▸ rfl
  case h_23 | h_25 => exact encode_placed hb fun x hx => JumpImm.bits_ofBits hx ▸ rfl
  case h_27 =>
    obtain ⟨_, _, hi⟩ := Option.map_eq_some_iff.mp hb
    cases hi
  case h_31 | h_33 | h_34 | h_37 | h_38 | h_45 | h_55 | h_56 | h_57 | h_58 =>
    exact encode_placed hb fun x hx => SValImm.bits_ofBits hx ▸ rfl
  case h_51 | h_52 => exact encode_placed hb fun x hx => FieldImm.bits_ofBits hx ▸ rfl
  case h_53 | h_68 => exact encode_placed hb fun x hx => CmpImm.bits_ofBits hx ▸ rfl
  case h_54 => exact encode_placed hb fun x hx => AddrImm.bits_ofBits hx ▸ rfl
  case h_78 | h_79 | h_80 | h_81 | h_82 | h_83 => exact encode_placed hb fun x hx => CvtImm.bits_ofBits hx ▸ rfl
  case h_87 | h_88 => exact encode_placed hb fun x hx => Opr.bits_ofBits hx ▸ rfl
  case h_91 | h_92 | h_93 | h_94 | h_95 | h_96 | h_97 => exact encode_placed hb fun x hx => BarImm.bits_ofBits hx ▸ rfl
  case h_105 | h_106 | h_107 | h_108 | h_109 | h_110 | h_111 | h_112 | h_113 | h_115 | h_116 | h_117 | h_118 =>
    exact encode_placed hb fun x hx => MemImm.bits_ofBits hx ▸ rfl
  case h_114 => exact encode_placed hb fun x hx => AtomImm.bits_ofBits hx ▸ rfl
  case h_119 | h_120 | h_121 | h_122 | h_123 | h_124 => exact encode_placed hb fun x hx => TileImm.bits_ofBits hx ▸ rfl
  case h_125 => exact encode_placed hb fun x hx => BankImm.bits_ofBits hx ▸ rfl
  case h_126 | h_129 | h_130 | h_131 | h_132 | h_133 | h_134 | h_135 | h_136 | h_137 | h_140 | h_141 | h_142 |
      h_143 => exact encode_placed hb fun x hx => engPlain_eq hx ▸ rfl
  case h_127 => exact encode_buildCopy hb
  case h_128 => exact encode_buildCopy2 hb
  case h_138 => exact encode_buildRote hb
  case h_139 => exact encode_buildYard hb
  case h_151 => exact encode_placed hb fun x hx => TlbiImm.bits_ofBits hx ▸ rfl
  case h_154 => cases hb

/-- The same where EF is 1, which three opcodes take (R52). -/
theorem encode_build_ef {n : ℕ} (hn : efAllowed n = true) (hb : build n h true b = some (.instr i)) :
    encode i = [assemble (BitVec.ofNat 8 n) h true b] := by
  rcases of_decide_eq_true hn with rfl | rfl | rfl
  all_goals exact encode_placed hb fun _ hx => immNone_eq hx ▸ rfl

end

/-! Words and instructions -/

theorem leastCode_eq_none : ∀ l : List ℕ, leastCode l = none ↔ l = []
  | [] => by simp [leastCode]
  | c :: cs => by
    rw [leastCode]
    cases leastCode cs <;> simp

theorem rej_eq_nil {c : ℕ} {b : Bool} : rej c b = [] ↔ b = false := by cases b <;> simp [rej]

/-- A word without a fault is the item that it reads as (R72). -/
theorem wordFaults_eq_nil {w : Word} : wordFaults w = [] ↔ opAssigned (wordOp w).toNat = true ∧ ∃ it, rawDecode w = some it ∧
    (wordEf w = true → efAllowed (wordOp w).toNat = true) ∧ it.rejects = [] := by
  rw [wordFaults]
  cases opAssigned (wordOp w).toNat with
  | false => simp
  | true =>
    cases rawDecode w with
    | none => simp
    | some it => simp [rej_eq_nil, Bool.and_eq_false_imp]

/-- What a word decodes to. -/
theorem decode_eq_some {w : Word} {i : Instr} : decode w = some i ↔ wordFaults w = [] ∧ rawDecode w = some (.instr i) := by
  rw [decode, decodeWord]
  by_cases hf : wordFaults w = []
  · obtain ⟨_, it, hr, _⟩ := wordFaults_eq_nil.mp hf
    rw [(leastCode_eq_none _).mpr hf, hr]
    cases it <;> simp [hf]
  · obtain ⟨c, hc⟩ := Option.ne_none_iff_exists'.mp (mt (leastCode_eq_none _).mp hf)
    simp [hc, hf]

/-- The word of a well-formed instruction decodes to it. -/
theorem decode_encode {i : Instr} (hw : i.isWord = true) (hi : i.wf = true) : ∃ w, encode i = [w] ∧ decode w = some i := by
  obtain ⟨op, h, ef, imm, he, hb, ho, hef⟩ := build_encode i hw
  have hr : rawDecode (assemble op h ef imm) = some (.instr i) := by rw [rawDecode_assemble, hb]
  refine ⟨_, he, decode_eq_some.mpr ⟨wordFaults_eq_nil.mpr ⟨?_, _, hr, ?_, List.isEmpty_iff.mp hi⟩, hr⟩⟩
  · rwa [wordOp_assemble]
  · rwa [wordEf_assemble, wordOp_assemble]

/-- A word decodes to a well-formed instruction that it encodes. -/
theorem decode_of_encode {i : Instr} {w : Word} (he : encode i = [w]) (hw : i.isWord = true) (hi : i.wf = true) :
    decode w = some i := by
  obtain ⟨v, hv, hd⟩ := decode_encode hw hi
  rwa [List.singleton_inj.mp (he.symm.trans hv)]

/-- A word that decodes is the one that its instruction encodes. -/
theorem encode_of_decode {w : Word} {i : Instr} (hd : decode w = some i) : encode i = [w] := by
  obtain ⟨hf, hr⟩ := decode_eq_some.mp hd
  obtain ⟨_, _, _, hef, _⟩ := wordFaults_eq_nil.mp hf
  rw [rawDecode] at hr
  split at hr
  next h hh =>
    have hop : BitVec.ofNat 8 (wordOp w).toNat = wordOp w := BitVec.ofNat_toNat ..
    cases hE : wordEf w with
    | false =>
      rw [hE] at hr
      rw [encode_build hr, hop, ← hE, assemble_fields hh]
    | true =>
      rw [hE] at hr
      rw [encode_build_ef (hef hE) hr, hop, ← hE, assemble_fields hh]
  next => cases hr

/-- Settles O1: every row stands in the opcode map where its word says, and every layout is read back as it was formed. -/
theorem encodeRoundTrip : Obligations.EncodeRoundTrip := fun _ hw hi => decode_encode hw hi

/-- Settles O2: each word is that of its well-formed instruction. -/
theorem decodeManualWords : Obligations.DecodeManualWords := by
  refine ⟨decode_of_encode ?_ rfl ?_, decode_of_encode ?_ rfl ?_, decode_of_encode ?_ rfl ?_⟩ <;> decide

/-- Settles O3: what a word reads as has that word, field by field. -/
theorem reservedRefused : Obligations.ReservedRefused := by
  refine ⟨fun w ho => ?_, fun w ho hr => ?_, fun w i hd => encode_of_decode hd⟩
  · have hf : wordFaults w = [0x03] := by rw [wordFaults, ho]; rfl
    rw [decodeWord, hf]; rfl
  · have hf : wordFaults w = [0x04] := by rw [wordFaults, ho, hr]; rfl
    rw [decodeWord, hf]; rfl

end Sys2Proof
end

section
/-! SUPPORT and proofs. Pure instructions complete with the results of their rules (R162 to R180, R395, R396). -/

namespace Sys2Proof.Machine

/-- Integer and address instructions raise no flag. -/
theorem intRule_flags {i : Instr} {p : PureRule} (h : intRule i = some p) (e : Env) (o : Vals) : (p.res e o).2 = 0 := by
  cases i <;> simp only [intRule, reduceCtorEq, Option.some.injEq] at h <;> subst h <;> rfl

/-- Settles O14: each is the pure instruction of its rule. -/
theorem integerCompletes : Obligations.IntegerCompletes := by
  unfold Obligations.IntegerCompletes
  intro i p s st n r hi hg
  rw [exec_intRule hi, firePure_goes hg, intRule_flags hi]

/-- Settles O20: each is the pure instruction of its rule. -/
theorem floatCompletes : Obligations.FloatCompletes := by
  unfold Obligations.FloatCompletes
  intro i p s st n r hi hg
  rw [exec_floatRule hi, firePure_goes hg]

/-- An optional slot is used at the station that acts exactly when an arc feeds it (R64). -/
theorem withOpt_acts {s : State} {st : SRef} {n : Nat} {nd : Node} (ha : s.acts st n) (hn : s.node? st n = some nd)
    (req : List Slot) (sl : Slot) : withOpt s req sl = if nd.fed.contains sl then req ++ [sl] else req := by
  rw [withOpt, ha.1]
  simp only [hn]

/-- Settles O15, by its type and by what feeds slot b. -/
theorem swizzleCompletes : Obligations.SwizzleCompletes := by
  unfold Obligations.SwizzleCompletes
  intro h q s st n r nd hn hg
  have hslots : (if h.ty = .o8 then [.a, .b] else withOpt s [.a] .b) =
      if h.ty = .o8 ∨ nd.fed.contains .b = true then [.a, .b] else [.a] := by
    rw [withOpt_acts hg.1 hn]
    by_cases ho : h.ty = .o8
    · rw [if_pos ho, if_pos (.inl ho)]
    · simp only [ho, if_false, false_or, List.singleton_append]
  rw [exec, execSwz, hslots, firePure_goes hg]
  rfl

/-! Numbers and words -/

/-- A number of `w` bits read signed. -/
theorem sextNat_toNat {w : Nat} (b : BitVec w) : sextNat w b.toNat = b.toInt := by
  rw [sextNat, Nat.mod_eq_of_lt b.isLt, BitVec.toInt_eq_toNat_cond]

theorem ofI_sextNat {w : Nat} (b : BitVec w) : Word.ofI (sextNat w b.toNat) = b.signExtend 64 := by
  rw [sextNat_toNat]; rfl

theorem mul_ofNat_two_pow {w : Nat} (b : BitVec w) (k : Nat) : b * BitVec.ofNat w (2 ^ k) = b <<< k := by
  refine BitVec.eq_of_toNat_eq ?_
  rw [BitVec.toNat_mul, BitVec.toNat_ofNat, BitVec.toNat_shiftLeft, Nat.shiftLeft_eq, Nat.mul_mod_mod]

theorem ofI_mul_two_pow (d : Int) (k : Nat) : Word.ofI (d * 2 ^ k) = Word.ofI d <<< k := by
  rw [← mul_ofNat_two_pow, Word.ofI, Word.ofI, BitVec.ofInt_mul, ← BitVec.ofInt_natCast, Nat.cast_pow, Nat.cast_ofNat]

/-- The address of `LEA` on words (R171). -/
theorem leaWord_false (x : AddrImm) (a b : Word) :
    leaWord false x a b = a + b <<< x.scale.toNat + x.disp.signExtend 64 := by
  simp only [leaWord, Bool.false_eq_true, if_false, mul_ofNat_two_pow, ofI_sextNat]

theorem leaWord_true (x : AddrImm) (a b : Word) : leaWord true x a b = a + x.disp.signExtend 64 <<< x.scale.toNat := by
  simp only [leaWord, if_true, ofI_mul_two_pow, ofI_sextNat]

/-- Settles O17, by the address of each form. -/
theorem leaForms : Obligations.LeaForms := by
  unfold Obligations.LeaForms
  intro h x s st n r
  refine ⟨fun hm hg => ?_, fun hm hg => ?_⟩
  · rw [exec, execLea, slotsAB, hm, if_neg Bool.false_ne_true, firePure_goes hg, leaWord_false]
  · rw [exec, execLea, slotsAB, hm, if_pos rfl, firePure_goes hg, leaWord_true]

/-! Lanes of a datum (R54) -/

/-- The lanes of a number packed again are its low bits. -/
theorem packLanes_digits (w x n : Nat) : packLanes w (fun k => x / 2 ^ (w * k) % 2 ^ w) n = x % 2 ^ (w * n) := by
  induction n with
  | zero => simp [packLanes, Nat.mod_one]
  | succ n ih =>
    rw [packLanes, ih, Nat.mod_mod, Nat.mul_succ, Nat.pow_add, Nat.mod_mul, Nat.mul_comm (2 ^ (w * n))]

theorem lanes_fill {t : Ty} (ht : t ≠ .f) : t.width * t.lanes = 64 := by
  cases t
  case f => exact absurd rfl ht
  all_goals rfl

/-- Settles O19, by the packing of lanes. -/
theorem lanesOfDatum : Obligations.LanesOfDatum := by
  refine ⟨fun t f k hk => lane_ofLanes t f hk, fun t w ht => ?_, fun f => ?_⟩
  · have hpack : packLanes t.width (lane t w) t.lanes = w.toNat := by
      rw [show lane t w = fun k => w.toNat / 2 ^ (t.width * k) % 2 ^ t.width from rfl, packLanes_digits, lanes_fill ht,
        Nat.mod_eq_of_lt w.isLt]
    rw [ofLanes, hpack, BitVec.ofNat_toNat, BitVec.setWidth_eq]
  · have hlane : packLanes 32 f 1 < 2 ^ 32 := packLanes_lt 32 f 1
    exact lt_of_le_of_lt (Nat.mod_le _ _) hlane

end Sys2Proof.Machine
end

section
/-! SUPPORT and proofs. Integer results on 64-bit words (R164 to R167). -/

namespace Sys2Proof.Machine

/-! Lanes of `.q` -/

@[simp] theorem lane_q (w : Word) : lane .q w 0 = w.toNat := by
  simp [lane, Ty.width, Nat.mod_eq_of_lt w.isLt]

@[simp] theorem ofLanes_q (f : Nat → Nat) : ofLanes .q f = BitVec.ofNat 64 (f 0) := by
  refine BitVec.eq_of_toNat_eq ?_
  simp [ofLanes, Ty.width, Ty.lanes, packLanes]

@[simp] theorem map1_q (f : Nat → Nat) (a : Word) : map1 .q f a = BitVec.ofNat 64 (f a.toNat) := by
  rw [map1, ofLanes_q, lane_q]

@[simp] theorem map2_q (f : Nat → Nat → Nat) (a b : Word) : map2 .q f a b = BitVec.ofNat 64 (f a.toNat b.toNat) := by
  rw [map2, ofLanes_q, lane_q, lane_q]

/-- An integer wrapped to `w` bits is the word of that integer. -/
theorem ofNat_wrap (w : Nat) (i : Int) : BitVec.ofNat w (wrap w i) = BitVec.ofInt w i := by
  refine BitVec.eq_of_toNat_eq ?_
  rw [BitVec.toNat_ofNat, BitVec.toNat_ofInt, wrap, Nat.mod_eq_of_lt]
  have := Int.emod_lt_of_pos i (b := ((2 ^ w : Nat) : Int)) (by exact_mod_cast Nat.two_pow_pos w)
  have := Int.emod_nonneg i (b := ((2 ^ w : Nat) : Int)) (by exact_mod_cast (Nat.two_pow_pos w).ne')
  omega

theorem toNat_eq_zero {w : Nat} {b : BitVec w} : b.toNat = 0 ↔ b = 0#w :=
  ⟨fun h => BitVec.eq_of_toNat_eq (h.trans BitVec.toNat_zero.symm), fun h => h ▸ BitVec.toNat_zero⟩

theorem ofNat_toNat_same {w : Nat} (a : BitVec w) : BitVec.ofNat w a.toNat = a := by
  rw [BitVec.ofNat_toNat, BitVec.setWidth_eq]

theorem mulhLane_unsigned (a b : Word) :
    BitVec.ofNat 64 (mulhLane 64 true a.toNat b.toNat) = ((a.zeroExtend 128 * b.zeroExtend 128) >>> 64).truncate 64 := by
  have hprod : a.toNat * b.toNat < 2 ^ 128 := by
    calc a.toNat * b.toNat < 2 ^ 64 * 2 ^ 64 := Nat.mul_lt_mul'' a.isLt b.isLt
      _ = 2 ^ 128 := by decide
  refine BitVec.eq_of_toNat_eq ?_
  simp only [mulhLane, if_true, BitVec.toNat_ofNat, BitVec.truncate_eq_setWidth,
    BitVec.toNat_setWidth, BitVec.toNat_ushiftRight, BitVec.toNat_mul, Nat.shiftRight_eq_div_pow]
  rw [Nat.mod_eq_of_lt (a := a.toNat) (by omega), Nat.mod_eq_of_lt (a := b.toNat) (by omega), Nat.mod_eq_of_lt hprod]

theorem mulhLane_signed (a b : Word) :
    BitVec.ofNat 64 (mulhLane 64 false a.toNat b.toNat) = ((a.signExtend 128 * b.signExtend 128) >>> 64).truncate 64 := by
  have hprod : a.signExtend 128 * b.signExtend 128 = BitVec.ofInt 128 (a.toInt * b.toInt) := by
    rw [BitVec.ofInt_mul]; rfl
  rw [hprod, mulhLane, if_neg Bool.false_ne_true, ofNat_wrap, sextNat_toNat, sextNat_toNat]
  refine BitVec.eq_of_toNat_eq ?_
  simp only [BitVec.truncate_eq_setWidth, BitVec.toNat_setWidth, BitVec.toNat_ushiftRight, BitVec.toNat_ofInt,
    Nat.shiftRight_eq_div_pow]
  generalize a.toInt * b.toInt = p
  omega

theorem ofInt_tdiv {w : Nat} (a b : BitVec w) : BitVec.ofInt w (a.toInt.tdiv b.toInt) = a.sdiv b :=
  BitVec.eq_of_toInt_eq (by rw [BitVec.toInt_ofInt, BitVec.toInt_sdiv])

theorem ofInt_tmod {w : Nat} (a b : BitVec w) : BitVec.ofInt w (a.toInt.tmod b.toInt) = a.srem b := by
  rw [← BitVec.toInt_srem, BitVec.ofInt_toInt]

theorem ofInt_div_two_pow {w : Nat} (a : BitVec w) (n : Nat) : BitVec.ofInt w (a.toInt / (2 ^ n : Nat)) = a.sshiftRight n := by
  rw [BitVec.sshiftRight_eq, Int.shiftRight_eq_div_pow]

theorem divLane_word (z : Bool) (a b : Word) : BitVec.ofNat 64 (divLane 64 z a.toNat b.toNat) =
    if b = 0 then BitVec.allOnes 64 else if z then a / b else a.sdiv b := by
  by_cases hb : b = 0
  · subst hb; rfl
  · have hn : b.toNat ≠ 0 := mt toNat_eq_zero.mp hb
    rw [divLane, if_neg hn, if_neg hb]
    cases z with
    | true => rw [if_pos rfl, if_pos rfl, ← BitVec.toNat_udiv, ofNat_toNat_same]
    | false => rw [if_neg Bool.false_ne_true, if_neg Bool.false_ne_true, ofNat_wrap, sextNat_toNat, sextNat_toNat, ofInt_tdiv]

theorem remLane_word (z : Bool) (a b : Word) : BitVec.ofNat 64 (remLane 64 z a.toNat b.toNat) =
    if b = 0 then a else if z then a % b else a.srem b := by
  by_cases hb : b = 0
  · rw [remLane, if_pos (toNat_eq_zero.mpr hb), if_pos hb, ofNat_toNat_same]
  · have hn : b.toNat ≠ 0 := mt toNat_eq_zero.mp hb
    rw [remLane, if_neg hn, if_neg hb]
    cases z with
    | true => rw [if_pos rfl, if_pos rfl, ← BitVec.toNat_umod, ofNat_toNat_same]
    | false => rw [if_neg Bool.false_ne_true, if_neg Bool.false_ne_true, ofNat_wrap, sextNat_toNat, sextNat_toNat, ofInt_tmod]

theorem shlLane_word (a : Word) (n : Nat) : BitVec.ofNat 64 (shlLane 64 a.toNat n) = a <<< (n % 64) := by
  refine BitVec.eq_of_toNat_eq ?_
  rw [shlLane, BitVec.toNat_ofNat, BitVec.toNat_shiftLeft, Nat.shiftLeft_eq, Nat.mod_mod]

theorem shrLane_word (z : Bool) (a : Word) (n : Nat) : BitVec.ofNat 64 (shrLane 64 z a.toNat n) =
    if z then a >>> (n % 64) else a.sshiftRight (n % 64) := by
  cases z with
  | true =>
    rw [shrLane, if_pos rfl, if_pos rfl, ← Nat.shiftRight_eq_div_pow, ← BitVec.toNat_ushiftRight, ofNat_toNat_same]
  | false =>
    rw [shrLane, if_neg Bool.false_ne_true, if_neg Bool.false_ne_true, ofNat_wrap, sextNat_toNat, ofInt_div_two_pow]

/-- Rotated parts do not overlap. -/
theorem rolLane_word (a : Word) (n : Nat) : BitVec.ofNat 64 (rolLane 64 a.toNat n) = a.rotateLeft (n % 64) := by
  have hr : n % 64 < 64 := Nat.mod_lt _ (by decide)
  refine BitVec.eq_of_toNat_eq ?_
  rw [rolLane, BitVec.toNat_ofNat, BitVec.toNat_rotateLeft, Nat.mod_mod, Nat.shiftLeft_eq, Nat.shiftRight_eq_div_pow]
  generalize n % 64 = r at hr
  have hsplit : 2 ^ 64 = 2 ^ r * 2 ^ (64 - r) := by rw [← Nat.pow_add]; congr 1; omega
  have hlow : a.toNat / 2 ^ (64 - r) < 2 ^ r := by
    rw [Nat.div_lt_iff_lt_mul (Nat.two_pow_pos _), ← hsplit]; exact a.isLt
  have hhigh : a.toNat * 2 ^ r % 2 ^ 64 = 2 ^ r * (a.toNat % 2 ^ (64 - r)) := by
    rw [Nat.mul_comm, hsplit, Nat.mul_mod_mul_left]
  rw [hhigh, ← Nat.two_pow_add_eq_or_of_lt hlow, Nat.mod_eq_of_lt]
  have hm : a.toNat % 2 ^ (64 - r) + 1 ≤ 2 ^ (64 - r) := Nat.mod_lt _ (Nat.two_pow_pos _)
  calc 2 ^ r * (a.toNat % 2 ^ (64 - r)) + a.toNat / 2 ^ (64 - r)
      < 2 ^ r * (a.toNat % 2 ^ (64 - r) + 1) := by rw [Nat.mul_succ]; omega
    _ ≤ 2 ^ r * 2 ^ (64 - r) := Nat.mul_le_mul_left _ hm
    _ = 2 ^ 64 := hsplit.symm

theorem absLane_word (a : Word) : BitVec.ofNat 64 (absLane 64 a.toNat) = if a.msb then -a else a := by
  rw [absLane, sextNat_toNat]
  cases hm : a.msb with
  | true =>
    rw [if_neg (not_le.mpr (BitVec.toInt_neg_of_msb_true hm)), ofNat_wrap, if_pos rfl, BitVec.ofInt_neg, BitVec.ofInt_natCast,
      ofNat_toNat_same]
  | false =>
    rw [if_pos (BitVec.toInt_nonneg_of_msb_false hm), if_neg Bool.false_ne_true, ofNat_toNat_same]

theorem sub_word (a b : Word) : BitVec.ofNat 64 (a.toNat + 2 ^ 64 - b.toNat) = a - b := by bv_omega

/-- Settles O16, one fact of 64-bit words for each result. -/
theorem quadIntegerResults : Obligations.QuadIntegerResults := by
  intro a b
  simp only [map1_q, map2_q]
  refine ⟨?_, sub_word a b, ?_, mulhLane_unsigned a b, mulhLane_signed a b, divLane_word true a b, remLane_word true a b,
    divLane_word false a b, remLane_word false a b, shlLane_word a _, shrLane_word true a _, shrLane_word false a _,
    rolLane_word a _, ?_, absLane_word a⟩
  · rw [BitVec.ofNat_add, ofNat_toNat_same, ofNat_toNat_same]
  · rw [BitVec.ofNat_mul, ofNat_toNat_same, ofNat_toNat_same]
  · bv_omega

end Sys2Proof.Machine
end

section
/-! SUPPORT and proofs. Bit counts, reversal, saturation and extension of a lane (R167, R168). -/

namespace Sys2Proof.Machine

/-! Counts of bits -/

theorem clzLane_zero (w : Nat) : clzLane w 0 = w := by
  induction w with
  | zero => rfl
  | succ w ih => simp [clzLane, ih, Nat.add_comm]

theorem clzLane_ne_zero {w a : Nat} (ha : a < 2 ^ w) (h0 : a ≠ 0) : clzLane w a = w - 1 - Nat.log2 a := by
  induction w with
  | zero => omega
  | succ w ih =>
    rw [clzLane]
    by_cases hw : a < 2 ^ w
    · have hlog : Nat.log2 a < w := (Nat.log2_lt h0).mpr hw
      rw [Nat.div_eq_of_lt hw, if_neg (by decide), ih hw]
      omega
    · have hdiv : a / 2 ^ w = 1 := Nat.div_eq_of_lt_le (by omega) (by rw [Nat.pow_succ] at ha; omega)
      have hlog : w ≤ Nat.log2 a := (Nat.le_log2 h0).mpr (not_lt.mp hw)
      rw [hdiv, if_pos rfl]
      omega

theorem ctzLane_zero (w : Nat) : ctzLane w 0 = w := by
  induction w with
  | zero => rfl
  | succ w ih => simp [ctzLane, ih, Nat.add_comm]

/-- The trailing zeros of a number are the power of two that divides it. -/
theorem ctzLane_ne_zero {w a : Nat} (ha : a < 2 ^ w) (h0 : a ≠ 0) :
    ctzLane w a < w ∧ 2 ^ ctzLane w a ∣ a ∧ ¬ 2 ^ (ctzLane w a + 1) ∣ a := by
  induction w generalizing a with
  | zero => omega
  | succ w ih =>
    rw [ctzLane]
    by_cases hodd : a % 2 = 1
    · rw [if_pos hodd]
      exact ⟨Nat.succ_pos w, one_dvd a, by omega⟩
    · obtain ⟨b, rfl⟩ : ∃ b, a = 2 * b := ⟨a / 2, by omega⟩
      obtain ⟨hlt, hdvd, hnot⟩ := ih (a := b) (by rw [Nat.pow_succ] at ha; omega) (by omega)
      rw [if_neg hodd, Nat.mul_div_cancel_left b two_pos, Nat.add_comm 1]
      exact ⟨Nat.succ_lt_succ hlt, by rw [Nat.pow_succ']; exact Nat.mul_dvd_mul_left 2 hdvd,
        by rw [Nat.pow_succ', Nat.mul_dvd_mul_iff_left two_pos]; exact hnot⟩

theorem popcLane_eq_length (w a : Nat) : popcLane w a = ((List.range w).filter fun k => a.testBit k).length := by
  induction w generalizing a with
  | zero => rfl
  | succ w ih =>
    have htail : ((List.range w).map Nat.succ).filter (fun k => a.testBit k) =
        ((List.range w).filter fun k => (a / 2).testBit k).map Nat.succ := by
      rw [List.filter_map]
      congr 1
      exact List.filter_congr fun k _ => Nat.testBit_succ a k
    rw [popcLane, ih, List.range_succ_eq_map, List.filter_cons, htail, Nat.testBit_zero]
    rcases Nat.mod_two_eq_zero_or_one a with h | h <;> simp [h, Nat.add_comm]

/-! Reversal -/

theorem brevLane_lt (w a : Nat) : brevLane w a < 2 ^ w := by
  induction w generalizing a with
  | zero => exact Nat.one_pos
  | succ w ih =>
    have := ih (a / 2)
    rw [brevLane, Nat.pow_succ]
    rcases Nat.mod_two_eq_zero_or_one a with h | h <;> rw [h] <;> omega

theorem testBit_brevLane {w k : Nat} (a : Nat) (hk : k < w) : (brevLane w a).testBit k = a.testBit (w - 1 - k) := by
  induction w generalizing a with
  | zero => omega
  | succ w ih =>
    rw [brevLane, Nat.mul_comm, Nat.testBit_two_pow_mul_add _ (brevLane_lt w _)]
    by_cases hw : k < w
    · obtain ⟨d, rfl⟩ := Nat.exists_eq_add_of_lt hw
      rw [if_pos hw, ih (a / 2) hw, ← Nat.testBit_succ]
      congr 1
      omega
    · obtain rfl : k = w := by omega
      rw [if_neg hw, Nat.sub_self, Nat.add_sub_cancel, Nat.sub_self, Nat.testBit_zero, Nat.testBit_zero, Nat.mod_mod]

/-! Saturation and extension -/

/-- An integer that `w` bits hold is read back from them. -/
theorem sextNat_wrap {w : Nat} {i : Int} (hl : -(2 ^ w : Nat) ≤ 2 * i) (hu : 2 * i < (2 ^ w : Nat)) :
    sextNat w (wrap w i) = i := by
  have hpos : 0 < 2 ^ w := Nat.two_pow_pos w
  have hm : (wrap w i : Int) = i % (2 ^ w : Nat) := Int.toNat_of_nonneg (Int.emod_nonneg _ (by omega))
  have hlt : wrap w i < 2 ^ w := by
    have := Int.emod_lt_of_pos i (b := ((2 ^ w : Nat) : Int)) (by omega)
    omega
  rw [sextNat, Nat.mod_eq_of_lt hlt]
  rcases le_or_gt 0 i with hi | hi
  · rw [Int.emod_eq_of_lt hi (by omega)] at hm
    rw [if_pos (by omega), hm]
  · rw [← Int.add_emod_right, Int.emod_eq_of_lt (by omega) (by omega)] at hm
    rw [if_neg (by omega), hm]
    omega

theorem wrap_natCast {w n : Nat} (h : n < 2 ^ w) : wrap w n = n := by
  rw [wrap, ← Int.natCast_mod, Nat.mod_eq_of_lt h, Int.toNat_natCast]

/-- A number of `w` bits read signed lies between half the range below and above zero. -/
theorem sextNat_bounds (w n : Nat) : -(2 ^ w : Nat) ≤ 2 * sextNat w n ∧ 2 * sextNat w n < (2 ^ w : Nat) := by
  have hlt : n % 2 ^ w < 2 ^ w := Nat.mod_lt _ (Nat.two_pow_pos w)
  rw [sextNat]
  split <;> omega

/-- Half the range of `v` bits, and the range of `v` bits within that of twice as many. -/
theorem two_pow_half {v : Nat} (hv : 0 < v) : 2 ^ v = 2 * 2 ^ (v - 1) ∧ 2 ^ v ≤ 2 ^ (2 * v) :=
  ⟨by rw [← Nat.pow_succ']; congr 1; omega, Nat.pow_le_pow_right two_pos (by omega)⟩

/-- Settles O18, one lemma for each count. -/
theorem bitsOfLanes : Obligations.BitsOfLanes := by
  refine ⟨fun w a ha => ⟨fun h0 => ⟨clzLane_ne_zero ha h0, ctzLane_ne_zero ha h0⟩, fun h0 => ?_, popcLane_eq_length w a,
    fun k hk => testBit_brevLane a hk⟩, fun v a hv ha => ?_⟩
  · rw [h0]
    exact ⟨clzLane_zero w, ctzLane_zero w⟩
  · obtain ⟨hhalf, hle⟩ := two_pow_half hv
    have hv2 : 2 * v / 2 = v := Nat.mul_div_cancel_left v two_pos
    obtain ⟨hl, hu⟩ := sextNat_bounds v a
    simp only [satLane, extLane, clampTo, hv2, if_true, Bool.false_eq_true, if_false, true_and]
    refine ⟨?_, sextNat_wrap ?_ ?_, sextNat_wrap ?_ ?_⟩
    · have hmin : max 0 (min (a : Int) ((2 ^ v : Nat) - 1)) = (min a (2 ^ v - 1) : Nat) := by omega
      rw [hmin, wrap_natCast (by omega)]
    all_goals omega

end Sys2Proof.Machine
end

section
/-! SUPPORT. Sending leaves what stations hold beside their buffers as it is (R18, R32, R34). -/

namespace Sys2Proof.Machine

/-- What the stations of a block hold for their own instructions: streams in progress, gathered operands, counts. -/
def Inst.exts (x : Inst) : List Ext := x.nodes.map Node.ext

theorem exts_modNode {f : Node → Node} (hf : ∀ n, (f n).ext = n.ext) (x : Inst) (i : Nat) :
    (x.modNode i f).exts = x.exts := by
  refine List.ext_getElem? fun j => ?_
  simp only [Inst.exts, List.getElem?_map, modNode_nodes]
  by_cases hj : j = i
  · subst hj
    rw [modAt_get_same]
    cases x.nodes[j]? with
    | none => rfl
    | some n => exact congrArg some (hf n)
  · rw [modAt_get_other _ hj]

@[simp] theorem ext_setBuf (n : Node) (sl : Slot) (l : List Entry) : (n.setBuf sl l).ext = n.ext := by cases sl <;> rfl

theorem exts_foldl {α : Type} {f : Inst → α → Inst} (hf : ∀ y a, (f y a).exts = y.exts) (l : List α) (x : Inst) :
    (l.foldl f x).exts = x.exts := by
  induction l generalizing x with
  | nil => rfl
  | cons a l ih => exact (ih (f x a)).trans (hf x a)

@[simp] theorem exts_push (x : Inst) (g : Target) (e : Entry) : (x.push g e).exts = x.exts :=
  exts_modNode (fun _ => ext_setBuf ..) x _

@[simp] theorem exts_deliverTok (x : Inst) (seq i : Nat) (tk : Tok) (t : Nat) :
    (x.deliverTok seq i tk t).exts = x.exts := by
  unfold Inst.deliverTok
  split
  · rfl
  · dsimp only
    split
    · exact exts_modNode (fun _ => by rfl) x _
    · split
      · exact exts_modNode (fun _ => by rfl) x _
      · split
        · rfl
        · exact (exts_push ..).trans (exts_modNode (fun _ => by rfl) x _)

@[simp] theorem exts_deliverSwitch (x : Inst) (i gen t : Nat) : (x.deliverSwitch i gen t).exts = x.exts := by
  unfold Inst.deliverSwitch
  split
  · rfl
  · split
    · rfl
    · split
      · rfl
      · exact exts_push ..

@[simp] theorem exts_deliver (x : Inst) (seq i : Nat) (o : Out) : (x.deliver seq i o).exts = x.exts := by
  cases o with
  | tok tk ts => exact exts_foldl (fun y t => exts_deliverTok y seq i tk t) ts x
  | switch g ts => exact exts_foldl (fun y t => exts_deliverSwitch y i g t) ts x

@[simp] theorem exts_drainList (x : Inst) (seq i : Nat) (l : List Out) : (x.drainList seq i l).exts = x.exts := by
  induction l generalizing x with
  | nil => exact exts_modNode (fun _ => by rfl) x _
  | cons o l ih =>
    unfold Inst.drainList
    split
    · rfl
    · split
      · rw [ih, exts_deliver]
      · exact exts_modNode (fun _ => by rfl) x _

theorem exts_injectAnti {x y : Inst} {k : KillImm} {a : Anti} (h : x.injectAnti k a = some y) : y.exts = x.exts := by
  unfold Inst.injectAnti at h
  split at h
  · cases h; rfl
  · split at h
    · cases h
      exact exts_modNode (fun _ => ext_setBuf ..) x _
    · split at h
      · cases h; rfl
      · split at h
        · cases h; rfl
        · split at h <;> cases h
          exact exts_modNode (fun _ => by rfl) x _

@[simp] theorem exts_drainAntis (x : Inst) (i : Nat) (l : List (KillImm × Anti)) : (x.drainAntis i l).exts = x.exts := by
  induction l generalizing x with
  | nil => exact exts_modNode (fun _ => by rfl) x _
  | cons e l ih =>
    unfold Inst.drainAntis
    split
    · next y hy => rw [ih, exts_injectAnti hy]
    · exact exts_modNode (fun _ => by rfl) x _

@[simp] theorem exts_drain (x : Inst) (seq i : Nat) : (x.drain seq i).exts = x.exts := by
  unfold Inst.drain
  split
  · rfl
  · rw [exts_drainList, exts_drainAntis]

/-- What a station holds beside its buffers stood there before it sent. -/
theorem ext_node?_drain (s : State) (st : SRef) (i j : Nat) :
    ((s.drain st i).node? st j).map Node.ext = (s.node? st j).map Node.ext := by
  unfold State.node? State.drain
  rw [inst?_modInst_same]
  cases s.inst? st with
  | none => rfl
  | some x =>
    have h := congrArg (fun l : List Ext => l[j]?) (exts_drain x s.cycles i)
    simpa only [Inst.exts, List.getElem?_map, Option.map_some] using h

end Sys2Proof.Machine
end

section
/-! SUPPORT and proofs. Stream instructions take elements and emit what they complete (R181, R182, R241 to R244, R397 to R399). -/

namespace Sys2Proof.Machine

/-- A station that can have its output once it has room does not wait. -/
theorem not_waits {l room : Bool} (h : l = true → room = true) : (l && !room) = false := by
  cases l with
  | false => rfl
  | true => rw [h rfl]; rfl

/-- A block of `QUNPK` whose third element comes with its scale, and whose words have indices left, is decoded. -/
theorem unpack_fits {l b : Bool} {third : Prop} [Decidable third] {m n k : Nat} (hl : l = true → third)
    (hs : third → b = true → m = n) (hk : k ≤ 65536) :
    ((l && !decide third) || (decide third && b && decide (m ≠ n)) || decide (65536 < k)) = false := by
  by_cases ht : third
  · cases b with
    | false => simp [ht, hk]
    | true => simp [ht, hk, hs ht rfl]
  · have hl' : l = false := Bool.eq_false_iff.mpr (mt hl ht)
    simp [ht, hk, hl']

section
variable {s : State} {st : SRef} {i : Nat} {h : Hdr} {sl : Slot} {t : Tok} {l : List (Slot × Tok)} {nd : Node} {y : Inst}
  (hn : (s.drain st i).node? st i = some nd) (hy : (s.drain st i).inst? st = some y)

/-! RED and SCAN -/

include hn

/-- What a station holds when it has sent stood there before. -/
theorem node?_before_drain : ∃ m, s.node? st i = some m ∧ m.ext = nd.ext := by
  have he := ext_node?_drain s st i i
  rw [hn, Option.map_some] at he
  exact Option.map_eq_some_iff.mp he.symm

theorem exec_red_joins {op : Opr} {e : RedSt} (ha : s.acts st i) (he : nd.ext.reds.find? (fun e => due e.parts) = some e) :
    exec (.red h op) s = .next (((s.drain st i).modNode st i fun n =>
      { n with ext := redKeep n.ext.reds { e with parts := (joinDue op h.ty ((s.drain st i).env st) e.parts).1 } false }).raise
        st (joinDue op h.ty ((s.drain st i).env st) e.parts).2) := by
  obtain ⟨m, hm, hme⟩ := node?_before_drain hn
  have hany : (nd.ext.reds.any fun e => due e.parts) = true :=
    List.any_eq_true.mpr ⟨e, List.mem_of_find?_eq_some he, List.find?_some (p := fun e : RedSt => due e.parts) he⟩
  rw [exec, execRed, ha.1]
  simp only [hm, hme, hany, if_true]
  rw [atStation_acts ha, redJoin]
  simp only [hn, he]

theorem exec_red_takes {op : Opr} {v : State} (hk : s.takes st i h [.a] sl t l)
    (hj : (nd.ext.reds.any fun e => due e.parts) = false)
    (he : redElem h op st i ((sl, t) :: l) (readyOf ((sl, t) :: l) t) (s.drain st i) = .done v) :
    exec (.red h op) s = .next v := by
  obtain ⟨m, hm, hme⟩ := node?_before_drain hn
  rw [exec, execRed, hk.1.1]
  simp only [hm, hme, hj, Bool.false_eq_true, if_false]
  exact fireRaw_takes hk he

include hy

variable {v : BitVec 21} {w : State}

/-- `SHUF` takes an element of a that it can take (R244). -/
theorem exec_shuf_a (ha : s.acts st i) (hf : nd.free = true)
    (hA : takeFirst (shufTakeA h (valOperand h.ty v)) st i
      (nd.singles (y.waited i (usedSlots h (if h.im then [.a] else [.a, .b]))) h h.im .a) (s.drain st i) = some w) :
    exec (.shuf h v) s = .next w := by
  rw [exec, execShuf, atStation_acts ha]
  simp only [hn, hy, hf, hA, Bool.not_true, Bool.false_eq_true, if_false]

/-- `SHUF` takes an element of b where it has none of a to take (R244). -/
theorem exec_shuf_b (ha : s.acts st i) (hf : nd.free = true) (him : h.im = false)
    (hnil : nd.singles (y.waited i (usedSlots h (if h.im then [.a] else [.a, .b]))) h false .a = [])
    (hB : takeFirst (shufTakeB h (valOperand h.ty v)) st i
      (nd.singles (y.waited i (usedSlots h (if h.im then [.a] else [.a, .b]))) h true .b) (s.drain st i) = some w) :
    exec (.shuf h v) s = .next w := by
  rw [exec, execShuf, atStation_acts ha]
  simp only [him, Bool.false_eq_true, if_false] at hnil hB
  simp only [hn, hy, hf, him, hnil, hB, takeFirst, Option.getD_some, Bool.not_true, Bool.false_eq_true, if_false]

end

/-- The first element that can be taken is taken. -/
theorem takeFirst_head {act : SRef → Nat → List (Slot × Tok) → Tok → State → Eff} {st : SRef} {i : Nat} {sl : Slot} {t : Tok}
    {l : List (Slot × Tok)} {ls : List (List (Slot × Tok))} {s v : State} (hl : ls.head? = some ((sl, t) :: l))
    (ha : act st i ((sl, t) :: l) t s = .done v) : takeFirst act st i ls s = some v := by
  obtain ⟨r, rfl⟩ := List.head?_eq_some_iff.mp hl
  simp only [takeFirst, ha]

/-- The value of a stream with a forwarded empty element, or of one without a value. -/
theorem value_none {b : Bool} {o : Option Word} (h : b = true ∨ o = none) : (if b = true then none else o) = none := by
  rcases h with rfl | rfl
  · rfl
  · exact ite_self none

theorem value_some {b : Bool} {o : Option Word} {d : Word} (hb : b = false) (ho : o = some d) :
    (if b = true then none else o) = some d := by
  rw [hb, if_neg Bool.false_ne_true, ho]

theorem brings_value {o : Option Word} {b : Bool} (h : o.isSome = true ∨ b = true) : (o.isNone && !b) = false := by
  rcases h with h | rfl
  · rw [← Option.not_isSome, h]; rfl
  · exact Bool.and_false _

/-- Settles O30, row by row: what the station takes, and what its stream then completes. -/
theorem streamsComplete : Obligations.StreamsComplete := by
  unfold Obligations.StreamsComplete
  intro s st i h sl t l nd y
  dsimp only
  intro hn hy
  refine ⟨?_, ?_, ?_, ?_, ?_, ?_, ?_⟩
  · exact fun op ha e he => exec_red_joins hn ha he
  · intro op x hk hx
    refine ⟨fun hj => ⟨fun hl => exec_red_takes hn hk hj ?_, fun hl hroom => ⟨fun he => exec_red_takes hn hk hj ?_,
      fun d he ho => exec_red_takes hn hk hj ?_⟩⟩, fun hroom => ⟨fun hx1 hx2 => fireRaw_takes hk ?_,
        fun hx1 => ⟨fun he => fireRaw_takes hk ?_, fun d he ho => fireRaw_takes hk ?_⟩⟩⟩
    · simp only [redElem, hn, hx, hl, Bool.false_and, Bool.false_eq_true, if_false]
    · simp only [redElem, hn, hx, hl, hroom, value_none he, Bool.not_true, Bool.and_false, Bool.false_eq_true, if_false, if_true]
    · simp only [redElem, hn, hx, hl, hroom, value_some he ho, Bool.not_true, Bool.and_false, Bool.false_eq_true, if_false, if_true]
    · simp only [hn, hx, hroom, hx1, hx2, Option.isNone_none, Bool.not_true, Bool.not_false, Bool.and_true,
        Bool.false_eq_true, if_false, if_true]
    · have hx1' := brings_value hx1
      simp only [hn, hx, hroom, hx1', value_none he, Bool.not_true, Bool.false_eq_true, if_false]
    · have hx1' := brings_value hx1
      simp only [hn, hx, hroom, hx1', value_some he ho, Bool.not_true, Bool.false_eq_true, if_false]
  · intro x d hk hd hroom
    refine fireRaw_takes hk ?_
    have hw := not_waits hroom
    simp only [hn, hd, hw, Bool.false_eq_true, if_false]
    split <;> rfl
  · intro x d hk hd hl hs ho hroom
    refine fireRaw_takes hk ?_
    have hw := not_waits (l := !List.isEmpty _) fun he => hroom (List.isEmpty_eq_false_iff.mp (Bool.not_eq_true' _ ▸ he))
    simp only [hn, hd, decide_eq_true_eq, unpack_fits hl hs ho, hw, Bool.false_eq_true, if_false]
  · intro v ha hf
    refine ⟨fun hset => ⟨fun hp hm => ?_, fun d f hp him hl hroom hv => ?_⟩, fun d f him hnil hset hv hroom => ?_⟩
    · refine exec_shuf_a hn hy ha hf (takeFirst_head hset ?_)
      simp only [shufTakeA, hn, hp, hm, decide_true, Bool.or_true, Bool.and_true, Bool.false_eq_true, if_false]
    · refine exec_shuf_a hn hy ha hf (takeFirst_head hset ?_)
      simp only [hl, Bool.or_true] at hv
      simp only [shufTakeA, hn, hp, him, hl, hroom, hv, decide_true, Bool.or_true, Bool.and_true, Bool.not_true,
        Bool.false_eq_true, if_false, if_true, State.emitVerdict]
    · refine exec_shuf_b hn hy ha hf him hnil (takeFirst_head hset ?_)
      simp only [shufTakeB, hn, hv, hroom, Bool.not_true, Bool.false_eq_true, if_false, State.emitVerdict]
  · intro x p ta ha hf hset hp hta htrap
    have he : exec (.tree h x) s = execTree h x s := rfl
    rw [he, execTree, atStation_acts ha]
    simp only [hn, hy, hf, hset, Bool.not_true, Bool.false_eq_true, if_false, treeTake, hp, hta, htrap]
  · intro x ha hf
    have he : exec (.accept h x) s = execAccept h x s := rfl
    rw [he, execAccept, atStation_acts ha]
    simp only [hn, hy, hf, Bool.not_true, Bool.false_eq_true, if_false]
    refine ⟨fun e he hroom => ?_, fun cfg hv hp hsl hpass hte hc hver hcfg hcom hfault => ?_⟩
    · simp only [he, hroom, if_true]
    · have hopen : ((acceptAt nd.ext.accepts t.tag).closed || (acceptAt nd.ext.accepts t.tag).verdict.isSome) = false := by
        rw [hc, hver]; rfl
      subst hsl
      simp only [hv, hp, acceptTake, hn, hopen, hpass, hte, Bool.not_false, Bool.false_eq_true, if_false, if_true, reduceCtorEq,
        acceptStep, hy, hcfg, hcom, hfault, Bool.not_true]

end Sys2Proof.Machine
end

section
/-! SUPPORT and proofs. Accesses issue, or act in local space (R184 to R187, R311 to R316, R322), and issued ones perform in
their turn (R185, R299, R314). -/

namespace Sys2Proof.Machine

/-! Issue and local space -/

section
variable {u : State} {st : SRef} {i : Nat} {h : Hdr} {r : Ready} {t : Strand} {y : Inst} {fifo : Bool} {cls : Cls} {a : Word}

/-- An access issues where its address has a translation that permits it and its leaf raises no trap (R186). -/
theorem issueAt_ok {data : List Slot} {kind : AccKind} {acc size : Nat} {check : State → Xlat → Option Nat} {l : Xlat}
    (ht : u.strand? st = some t) (hl : u.translate t.core a acc (.station st i r.tag r.idx) = .ok l) (hc : check u l = none) :
    issueAt h data kind cls acc size a check st i r u = .done (u.issue st i h data r
      { node := i, tag := r.tag, idx := r.idx, l := r.l, ops := [], kind := kind, va := a, data := r.v.b, ty := h.ty,
        cls := cls, at' := { l with pa := if size = 0 then l.pa else l.pa / size * size } }) := by
  simp only [issueAt, ht, hl, hc]

/-- A local load of a SCRATCH bank reads it in its turn (R187, R316). -/
theorem localRead_scratch (hm : u.localMode st t.core a = some .scratch) (hgo : u.mayGo st i r.tag r.idx = true)
    (hb : u.barred (some st) (localPlace t.core (alignDown a (accSize h.ty))) (accSize h.ty) = false)
    (hp : u.poisoned (localPlace t.core (alignDown a (accSize h.ty))) (accSize h.ty) = false) :
    let k := localPlace t.core (alignDown a (accSize h.ty))
    let w := ((u.takePlace st i r.tag r.idx).consume st i h [.a] r).emitData st i r
      (rawWord h.ty (leNat (u.rdAt k (accSize h.ty))))
    localRead h fifo cls a t st i r u = .done (if cls = .ordered then w.hold st i r.tag r.idx k (accSize h.ty) else w) := by
  simp only [localRead, hgo, hm, hb, hp, Bool.not_true, Bool.false_eq_true, if_false]

/-- A local load of a FIFO takes its head's bytes, and pops it with the last of them (R272). -/
theorem localRead_fifo {f : List Byte} {rest : List (List Byte)} (hm : u.localMode st t.core a = some .fifo)
    (hgo : u.mayGo st i r.tag r.idx = true) (hf : (u.bank (localCore t.core a) (localBank a)).fifo = f :: rest) :
    let k := u.bank (localCore t.core a) (localBank a)
    let p := a.field 4 0 / accSize h.ty * accSize h.ty
    let v := u.takePlace st i r.tag r.idx
    localRead h true cls a t st i r u = .done (((if p + accSize h.ty = 32 then
      v.setBank (localCore t.core a) (localBank a) k.pop else v).consume st i h [.a] r).emitData st i r
        (rawWord h.ty (leNat (((entry32 f).drop p).take (accSize h.ty))))) := by
  simp only [localRead, hgo, hm, hf, Bool.not_true, Bool.false_eq_true, if_false]

section
variable (ht : u.strand? st = some t) (hy : u.inst? st = some y)
include ht hy

/-- A streaming load of a bank that was in SCRATCH mode at its region's start reads it as it was then (R271, R283). -/
theorem localLoad_streaming (hm : u.streamMode st (y.snapFor r.tag i) t.core a = some .scratch)
    (hp : u.poisoned (localPlace t.core (alignDown a (accSize h.ty))) (accSize h.ty) = false) :
    localLoad h fifo .streaming a st i r u = .done (((u.noteAt st i r.tag).consume st i h [.a] r).emitData st i r
      (rawWord h.ty (leNat ((y.snapFor r.tag i).rdAt (localPlace t.core (alignDown a (accSize h.ty))) (accSize h.ty))))) := by
  simp only [localLoad, ht, hy, hm, hp, Bool.false_eq_true, if_false, if_true]

/-- Every other load reads the bank as it stands (R187). -/
theorem localLoad_now (hc : cls ≠ .streaming) : localLoad h fifo cls a st i r u = localRead h fifo cls a t st i r u := by
  simp only [localLoad, ht, hy, if_neg hc]

/-- A streaming load of a bank that was a FIFO at its region's start reads it as any other load does (R272). -/
theorem localLoad_fifo (hm : cls = .streaming → u.streamMode st (y.snapFor r.tag i) t.core a = some .fifo) :
    ∃ c, localLoad h true cls a st i r u = localRead h true c a t st i r u := by
  by_cases hc : cls = .streaming
  · refine ⟨.random, ?_⟩
    simp only [localLoad, ht, hy, if_pos hc, hm hc, if_true]
  · exact ⟨cls, localLoad_now ht hy hc⟩

/-- A local load of a SCRATCH bank, streaming or not. -/
theorem localLoad_scratch :
    let k := localPlace t.core (alignDown a (accSize h.ty))
    u.poisoned k (accSize h.ty) = false →
    (cls = .streaming → u.streamMode st (y.snapFor r.tag i) t.core a = some .scratch →
      localLoad h fifo cls a st i r u = .done (((u.noteAt st i r.tag).consume st i h [.a] r).emitData st i r
        (rawWord h.ty (leNat ((y.snapFor r.tag i).rdAt k (accSize h.ty)))))) ∧
    (cls ≠ .streaming → u.localMode st t.core a = some .scratch → u.mayGo st i r.tag r.idx = true →
      u.barred (some st) k (accSize h.ty) = false →
      let w := ((u.takePlace st i r.tag r.idx).consume st i h [.a] r).emitData st i r
        (rawWord h.ty (leNat (u.rdAt k (accSize h.ty))))
      localLoad h fifo cls a st i r u = .done (if cls = .ordered then w.hold st i r.tag r.idx k (accSize h.ty) else w)) := by
  intro k hp
  refine ⟨fun hc hm => ?_, fun hc hm hgo hb => ?_⟩
  · rw [hc]
    exact localLoad_streaming ht hy hm hp
  · rw [localLoad_now ht hy hc]
    exact localRead_scratch hm hgo hb hp

end

section
variable (ht : u.strand? st = some t) (hgo : u.mayGo st i r.tag r.idx = true)
include ht hgo

/-- A local store writes a SCRATCH bank in its turn (R187, R316). -/
theorem localStore_scratch (hm : u.localMode st t.core a = some .scratch)
    (hb : u.barred (some st) (localPlace t.core (alignDown a (accSize h.ty))) (accSize h.ty) = false) :
    let k := localPlace t.core (alignDown a (accSize h.ty))
    localStore h fifo cls a st i r u = .done (((((u.takePlace st i r.tag r.idx).wrAt k
      (leBytes r.v.b.toNat (accSize h.ty))).consume st i h [.a, .b] r).emitData st i r 0).pairDone st cls r.tag r.idx k) := by
  simp only [localStore, ht, hgo, hm, hb, Bool.not_true, Bool.false_eq_true, if_false]

/-- A local store into a FIFO fills its staging entry, while the FIFO has room for it (R272). -/
theorem localStore_fifo {k : Bank} (hm : u.localMode st t.core a = some .fifo)
    (hk : (u.bank (localCore t.core a) (localBank a)).stage (a.field 4 0 / accSize h.ty * accSize h.ty)
      (leBytes r.v.b.toNat (accSize h.ty)) = some k) :
    localStore h true cls a st i r u = .done ((((u.takePlace st i r.tag r.idx).setBank (localCore t.core a) (localBank a)
      k).consume st i h [.a, .b] r).emitData st i r 0) := by
  simp only [localStore, ht, hgo, hm, hk, Bool.not_true, Bool.false_eq_true, if_false]

end
end

/-- Settles O37: without `.l` by the shared issue, with `.l` by the bank that the address reaches. -/
theorem accessesIssue : Obligations.AccessesIssue := by
  unfold Obligations.AccessesIssue
  intro s st i h x r t y
  dsimp only
  intro ht hy
  refine ⟨fun hg hl l => ⟨fun hx => ?_, fun hx hty => ?_⟩, fun hg hl l => ⟨fun hx => ?_, fun hx hty => ?_, fun hx hu => ?_⟩,
    fun hg hl => ⟨fun hp => ?_, fun hp => ?_, fun hgo hm hs f rest hf => ?_⟩,
    fun hg hl hgo => ⟨fun hm hb => ?_, fun hm hb => ?_, fun hm k hk => ?_⟩⟩
  · exact fireEff_goes hg ((if_neg (ne_true_of_eq_false hl)).trans (issueAt_ok ht hx rfl))
  · exact fireEff_goes hg ((if_neg (ne_true_of_eq_false hl)).trans (issueAt_ok ht hx (if_pos hty)))
  · exact fireEff_goes hg ((if_neg (ne_true_of_eq_false hl)).trans (issueAt_ok ht hx rfl))
  · exact fireEff_goes hg ((if_neg (ne_true_of_eq_false hl)).trans (issueAt_ok ht hx (if_pos hty)))
  · exact fireEff_goes hg (issueAt_ok ht hx hu)
  · obtain ⟨hst, hnow⟩ := localLoad_scratch (fifo := false) (cls := x.cls) ht hy hp
    exact ⟨fun hc hm => fireEff_goes hg ((if_pos hl).trans (hst hc hm)),
      fun hc hm hgo hb => fireEff_goes hg ((if_pos hl).trans (hnow hc hm hgo hb))⟩
  · obtain ⟨hst, hnow⟩ := localLoad_scratch (fifo := true) (cls := x.cls) ht hy hp
    exact ⟨fun hc hm => fireEff_goes hg ((if_pos hl).trans (hst hc hm)),
      fun hc hm hgo hb => fireEff_goes hg ((if_pos hl).trans (hnow hc hm hgo hb))⟩
  · obtain ⟨c, hc⟩ := localLoad_fifo ht hy hs
    exact fireEff_goes hg ((if_pos hl).trans (hc.trans (localRead_fifo hm hgo hf)))
  · exact fireEff_goes hg ((if_pos hl).trans (localStore_scratch ht hgo hm hb))
  · exact fireEff_goes hg ((if_pos hl).trans (localStore_scratch ht hgo hm hb))
  · exact fireEff_goes hg ((if_pos hl).trans (localStore_fifo ht hgo hm hk))

/-! Performing -/

section
variable {s : State} {st : SRef} {n : Nat} {t : Strand} {a : Access} (ht : s.strand? st = some t) (ha : t.pend[n]? = some a)
  (hm : s.mayPerform st n a = true)
include ht ha hm

/-- An issued load performs when its place has come (R185). -/
theorem exec_loadReply (hk : a.kind = .load ∨ a.kind = .ldx) :
    exec (.loadReply st n) s = .next (s.performLoad st n t.core a) := by
  rw [exec, execLoadReply]
  simp only [ht, ha, hk, hm, and_self, if_true]

/-- An issued store performs when its place has come (R185). -/
theorem exec_storePerform (hk : a.kind = .store ∨ a.kind = .stx) :
    exec (.storePerform st n) s = .next (s.performStore st n t.core a) := by
  rw [exec, execStorePerform]
  simp only [ht, ha, hk, hm, and_self, if_true]

/-- An issued update is accepted at its home slice where its bin takes it (R299, R303). -/
theorem exec_updateAccept {g : Nat} {u : State} (hk : a.kind = .upd) (hu : s.updTrap a.va a.ty a.at'.y = none)
    (hg : s.regionAt false a.va.toNat = some g)
    (hb : s.barred (some st) (a.at'.pa / (s.region g).size * (s.region g).size) (s.region g).size = false)
    (hbin : (s.takePlace st a.node a.tag a.idx).binUpdate g (a.va.toNat / (s.region g).size * (s.region g).size)
      (a.at'.pa / (s.region g).size * (s.region g).size) (lane a.ty a.data 0) = some u) :
    exec (.updateAccept st n) s = .next ((u.touchStore t.core (a.at'.pa / (s.region g).size * (s.region g).size)
      (s.region g).size).complete st n a 0) := by
  rw [exec, execUpdateAccept]
  simp only [ht, ha, hk, hm, hu, hg, hb, hbin, and_self, decide_true, Bool.not_true, Bool.false_eq_true, if_false]

end

/-- A load that nothing holds off, or that reads its region's start, performs (R189, R283). -/
theorem performLoad_done {s : State} {st : SRef} {core : Nat} {a : Access} (n : Nat)
    (hh : a.cls = .streaming ∨ s.heldOff st a = false) (hp : (s.arriveLoad st core a).poisoned a.place a.bytes = false)
    (hp2 : (s.arriveLoad st core a).poisoned a.scales.1 a.scales.2 = false) :
    let u := s.arriveLoad st core a
    let o := a.value (u.env st) (u.reader st a)
    let v := (u.complete st n a o.1).raise st o.2
    s.performLoad st n core a = if a.cls = .ordered then v.hold st a.node a.tag a.idx a.place a.bytes else v := by
  have hheld : (s.heldOff st a && a.cls != .streaming) = false := by
    rcases hh with h | h
    · rw [h, bne_self_eq_false, Bool.and_false]
    · rw [h, Bool.false_and]
  simp only [State.performLoad, hheld, hp, hp2, Bool.or_self, Bool.false_eq_true, if_false]

/-- Settles O38: each event performs its access, which nothing holds off. -/
theorem accessesPerform : Obligations.AccessesPerform := by
  unfold Obligations.AccessesPerform
  intro s st n t a ht ha hm
  dsimp only
  refine ⟨fun hk hh hp hp2 => ?_, fun hk hh => ?_, fun g hk hu hg hb u hbin => exec_updateAccept ht ha hm hk hu hg hb hbin⟩
  · rw [exec_loadReply ht ha hm hk, performLoad_done n hh hp hp2]
  · rw [exec_storePerform ht ha hm hk, State.performStore]
    simp only [hh, Bool.false_eq_true, if_false]

end Sys2Proof.Machine
end

section
/-! SUPPORT and proofs. What a store with a full/empty state changes in local space (R317): a counterexample to O39. -/

namespace Sys2Proof.Machine

open Sys2Proof.Tests

/-- An `STE.q` in whose slots stand a complete element of the block tag, at 0x80000, and behind it one of tag 1, at 0x80010. -/
def steOfTwoTags : Node :=
  let slot := fun (u v : Word) => [Entry.tok ⟨u, 0, 0, true, false⟩ 0, .tok ⟨v, 1, 0, true, false⟩ 1]
  ((fedNode 0xA600000000000800 [(.a, 0), (.b, 0)]).setBuf .a (slot 0x80000 0x80010)).setBuf .b (slot 5 5)

/-- That station acts, and the first word that its first element covers is full. -/
def steHeldByFullWord : State :=
  (here steOfTwoTags).setFull true [(localPlace 0 0x80000 - 281474976710656) / 4]

/-- The station's next element is the one of the block tag. -/
theorem steHeldByFullWord_goes : steHeldByFullWord.goes home 1 (hd .q) [.a, .b] 0 0 (ready 0x80000 5 0) :=
  goes_here (by decide +kernel)

/-- Its strand is on core 0. -/
theorem steHeldByFullWord_strand :
    ∃ z, (steHeldByFullWord.drain home 1).strand? home = some z ∧ z.core = 0 := by
  have h : ((steHeldByFullWord.drain home 1).strand? home).any (fun z => decide (z.core = 0)) = true := by decide +kernel
  simpa [Option.any_eq_true] using h

/-- What a step leaves in a byte of local space; none when it does not go on. -/
def locAfter (o : Host.Outcome State Fault Refusal) (b : Nat) : Option Byte :=
  match o with
  | .next t => some (rdByte t.loc b)
  | _ => none

/-- A step that leaves a byte goes on to a state with that byte. -/
theorem next_of_locAfter {o : Host.Outcome State Fault Refusal} {b : Nat} {v : Byte} (h : locAfter o b = some v) :
    ∃ t, o = .next t ∧ rdByte t.loc b = v := by
  cases o with
  | next t => exact ⟨t, rfl, Option.some.inj h⟩
  | fault r => cases h
  | refused r => cases h

/-- The element of the block tag waits for its full word, and the element of tag 1 is stored at 0x80010 (R21, R25). -/
theorem steHeldByFullWord_stores :
    locAfter (exec (.ste (hd .q) ⟨0, .random, false, 0⟩) steHeldByFullWord) 0x80010 = some 5 := by
  decide +kernel

/-- Before the step that byte is zero. -/
theorem steHeldByFullWord_before : rdByte steHeldByFullWord.loc 0x80010 = 0 := by decide +kernel

/-- Refutes O39: a station whose next element waits, here an `STE` before a full word, goes on to a later element of another
tag (R25), and so one step may store outside the access of the next element. -/
theorem not_storeFrame : ¬ Obligations.StoreFrame := by
  unfold Obligations.StoreFrame
  rintro ⟨-, -, -, -, hlocal⟩
  obtain ⟨z, hz, hcore⟩ := steHeldByFullWord_strand
  obtain ⟨t, hstep, hafter⟩ := next_of_locAfter steHeldByFullWord_stores
  obtain ⟨hframe, -⟩ := hlocal steHeldByFullWord t home 1 (hd .q) _ z hz steHeldByFullWord_goes
  obtain ⟨hste, -⟩ := hframe ⟨0, .random, false, 0⟩
  have hkept : rdByte t.loc 0x80010 = rdByte steHeldByFullWord.loc 0x80010 := by
    refine hste (.inr (.inl hstep)) 0x80010 (.inr ?_)
    rw [hcore]
    decide
  rw [hafter, steHeldByFullWord_before] at hkept
  exact absurd hkept (by decide)

end Sys2Proof.Machine
end
